-- ==== Sys2Proof/Word.lean ====
section
/-! DEFINITION. The word types of the KZ-8. -/
namespace Sys2Proof

/-- One byte of a buffer or of memory (R2). -/
abbrev Byte := BitVec 8
/-- A 64-bit register of a context (R74). -/
abbrev Word := BitVec 64
/-- The accumulator, a token payload, a quad (R74, R295). -/
abbrev Quad := BitVec 128
/-- One of the pointer registers P0 to P7 (R74). -/
abbrev Reg := Fin 8

end Sys2Proof
end

