-- ==== Sys2Proof/Syntax.lean ====
section
/-! DEFINITION. The steps of the KZ-8 as data: one constructor of `Instr` per row of spec/opcode_table.json. The first 144
are the Porwen instructions (R135), the others are the events of the device (spec/95). -/
namespace Sys2Proof

/-- View codes VW 0 to 7 (R76). -/
inductive View where
  | b | h | w | d | q | bf | f | g
  deriving DecidableEq, Repr

/-- Predicate conditions PRD 0 to 14 (R113). -/
inductive Cond where
  | al | eq | ne | lt | ge | le | gt | lo | hs | mi | pl | vs | vc | gs | gc
  deriving DecidableEq, Repr

/-- Operand descriptors (R85): one constructor per KIND, KIND 5 with its peek bit, KIND 7 with its three values of N. -/
inductive Opd where
  | acc                                      -- KIND 0: a
  | mem (p : Reg) (off : BitVec 14)          -- KIND 1: [pn+off]
  | post (p : Reg) (off : BitVec 14)         -- KIND 2: [pn]+=off
  | pre (p : Reg) (off : BitVec 14)          -- KIND 3: [pn-=off]
  | preg (p : Reg)                           -- KIND 4: pn
  | chan (ch : BitVec 5) (peek : Bool)       -- KIND 5
  | imm (v : BitVec 14)                      -- KIND 6
  | zeros | ones | lanes                     -- KIND 7, N 0, 1, 2
  deriving DecidableEq, Repr

/-- Scope codes (R117, R349). -/
inductive Scope where
  | core | clus | sect | dom | dev | sys
  deriving DecidableEq, Repr

/-- Order codes (R117, R244). -/
inductive Ord where
  | rlx | acq | rel | ar
  deriving DecidableEq, Repr

/-- Conditions of VCMP (R169). -/
inductive VCond where
  | eq | ne | lt | le | gt | ge | lo | ls | hi | hs
  deriving DecidableEq, Repr

/-- Conditions of VFCMP (R176). -/
inductive FCond where
  | eq | ne | lt | le | gt | ge | un | ord
  deriving DecidableEq, Repr

/-- Operations of VRED (R171). -/
inductive RedOp where
  | add | smin | smax | umin | umax | fadd | fmin | fmax
  deriving DecidableEq, Repr

/-- Element widths 2, 4, 8 of the long-multiply modifier and of RST (R181, R260). -/
inductive EWidth where
  | w2 | w4 | w8
  deriving DecidableEq, Repr

/-- Operations of RST (R260). -/
inductive RstOp where
  | st | add | or | and
  deriving DecidableEq, Repr

/-- Neighbours of SENDN (R19, R212). -/
inductive Dir where
  | nx | pv | up | dn
  deriving DecidableEq, Repr

/-- TLBI types (R233). -/
inductive TlbiType where
  | page | pasid | nonglobal | all
  deriving DecidableEq, Repr

/-- TMUL accumulate field (R280). -/
inductive AccOp where
  | overwrite | add | sub
  deriving DecidableEq, Repr

/-- TPOLY modes (R58, R282). -/
inductive PolyMode where
  | fault | saturate | carry
  deriving DecidableEq, Repr

/-- The queues a COPY or COPYT may name: cluster queues 0 and 1, the domain's bulk queue 3 (R121, R242). -/
inductive CopyQ where
  | q0 | q1 | q3
  deriving DecidableEq, Repr

/-- One copy queue of the device: a cluster's queue 0 or 1, or a domain's bulk queue (R266). -/
inductive CopyEngine where
  | clus (c : Nat) (second : Bool)
  | bulk (d : Nat)
  deriving DecidableEq, Repr

/-- Who asks for a translation: a context, the head command of a copy queue, the work item of key k of the command
queues (R379, R340, R438). -/
inductive Walker where
  | ctx (cid : Nat)
  | engine (e : CopyEngine)
  | work (k : Nat)
  deriving DecidableEq, Repr

/-- The agents that hold a drift stamp of their own (R403, R406): a core, a copy engine, a sector's LMU drain, the hub. -/
inductive Stamper where
  | core (n : Nat)
  | engine (e : CopyEngine)
  | lmu (s : Nat)
  | hub
  deriving DecidableEq, Repr

/-- What the host's ATS completion answers (R381, R382): the 4 KiB host page and the kinds it grants. -/
structure AtsAnswer where
  hpa : Nat
  r : Bool
  w : Bool
  x : Bool
  priv : Bool
  deriving DecidableEq, Repr

/-- What the patrol scrubber finds in a granule (R424). -/
inductive ScrubFind where
  | clean | correctable (raced : Bool) | uncorrectable
  deriving DecidableEq, Repr

/-- What a fetch of a line from the home delivers (R104): sound, or changed on the way (a parity mismatch). -/
inductive FetchFind where
  | sound | mismatch
  deriving DecidableEq, Repr

/-- Where the scheduler puts one instance (R311). -/
structure Placing where
  inst : Nat
  core : Nat
  deriving DecidableEq, Repr

/-- A cluster that a decision grants to a launch (R316). -/
structure Grant where
  clus : Nat
  lslot : Nat
  deriving DecidableEq, Repr

/-- The repair map (R425): what self-test has replaced, unit by unit. -/
structure RepairMap where
  spares : List Nat             -- clusters whose spare core serves a position
  lmuRows : List (Nat × Nat)    -- spare cell rows in use: sector, row
  lmuCols : List (Nat × Nat)    -- spare cell columns in use: sector, column
  llcWays : List (Nat × Nat)    -- spare ways in use: sector, way
  padRows : List (Nat × Nat)    -- spare scratchpad rows in use: cluster, row
  dramRows : List Nat           -- rows of LPDDR-6 under soft repair, named by a granule
  deriving DecidableEq, Repr

/-- A part that needs no repair. -/
def noRepair : RepairMap := { spares := [], lmuRows := [], lmuCols := [], llcWays := [], padRows := [], dramRows := [] }

/-- The public key of one LMS tree (R460): its identifier and its root. -/
structure LmsPub where
  id : BitVec 128
  root : BitVec 256
  deriving DecidableEq, Repr

/-- A signature of one LMS tree (R460): the one-time key's number, its randomizer, its 67 chain values and its 15 path nodes. -/
structure LmsSig where
  q : Nat
  rand : BitVec 256
  chains : List (BitVec 256)
  path : List (BitVec 256)
  deriving DecidableEq, Repr

/-- An HSS signature of two levels (R460): the lower tree's public key signed by the upper tree, and the message signed by the lower one. -/
structure HssSig where
  top : LmsSig
  next : LmsPub
  last : LmsSig
  deriving DecidableEq, Repr

/-- A debug token (R463): the device's public key, the LMS index, and the signature over both. -/
structure DebugToken where
  pub : LmsPub
  index : Nat
  sig : HssSig
  deriving DecidableEq, Repr

/-- A good frame as the MAC receives it (R454, R458): the connection that it belongs to, the bytes that it brings, and what the peer acknowledges. -/
structure RxFrame where
  conn : Nat
  bytes : List Byte
  ack : Nat
  deriving DecidableEq, Repr

/-- What a cold boot finds: in boot flash, in the PUF and by self-test (R425, R459). -/
structure BootFind where
  coresIn : List Nat       -- sound cores at positions 0 to 7 of each cluster index 0 to 159, in order; a shorter list means 0xFF
  spareOut : List Nat      -- cluster indices whose spare is not sound
  lmuOut : List Nat        -- sectors whose LMU is out of service
  svc : BitVec 8           -- service positions in service
  puf : List Byte          -- a reading of the hub SRAM PUF (step 1)
  sig : HssSig             -- the signature of the service firmware in boot flash (step 4)
  flashOk : Bool           -- the LMS index was written back (step 2)
  mtvec : Word             -- the machine entry that boot writes (step 5)
  pastb : Word             -- the PASTB default that boot writes (step 5)
  image : List (Nat × Byte)  -- the bytes of service firmware and its tables as boot loads them, by device address
  entry : Word             -- the slot at which service firmware starts (step 6)
  repair : RepairMap       -- repairs that self-test finds, spare cores apart (step 3)
  deriving DecidableEq, Repr

/-- The steps of the KZ-8. -/
inductive Instr where
  -- R152, R153
  | nop
  | fmt (fw : BitVec 16)
  -- scalar integer and address (R155)
  | mov (v : View) (c : Cond) (d s1 : Opd)
  | movi (v : View) (c : Cond) (d : Opd) (imm : BitVec 48)
  | movhi (c : Cond) (d : Opd) (imm : BitVec 16)
  | lea (v : View) (c : Cond) (d s1 : Opd)
  | add (v : View) (c : Cond) (d s1 s2 : Opd)
  | sub (v : View) (c : Cond) (d s1 s2 : Opd)
  | adc (v : View) (c : Cond) (d s1 s2 : Opd)
  | sbc (v : View) (c : Cond) (d s1 s2 : Opd)
  | mul (v : View) (c : Cond) (d s1 s2 : Opd)
  | mulh (v : View) (c : Cond) (u : Bool) (d s1 s2 : Opd)
  | div (v : View) (c : Cond) (u : Bool) (d s1 s2 : Opd)
  | rem (v : View) (c : Cond) (u : Bool) (d s1 s2 : Opd)
  | and (v : View) (c : Cond) (d s1 s2 : Opd)
  | or (v : View) (c : Cond) (d s1 s2 : Opd)
  | xor (v : View) (c : Cond) (d s1 s2 : Opd)
  | andn (v : View) (c : Cond) (d s1 s2 : Opd)
  | shl (v : View) (c : Cond) (d s1 s2 : Opd)
  | shr (v : View) (c : Cond) (d s1 s2 : Opd)
  | sar (v : View) (c : Cond) (d s1 s2 : Opd)
  | rol (v : View) (c : Cond) (d s1 s2 : Opd)
  | clz (v : View) (c : Cond) (d s1 : Opd)
  | ctz (v : View) (c : Cond) (d s1 : Opd)
  | popc (v : View) (c : Cond) (d s1 : Opd)
  | cmp (v : View) (c : Cond) (s1 s2 : Opd)
  | tst (v : View) (c : Cond) (s1 s2 : Opd)
  | min (v : View) (c : Cond) (u : Bool) (d s1 s2 : Opd)
  | max (v : View) (c : Cond) (u : Bool) (d s1 s2 : Opd)
  | sel (v : View) (c : Cond) (d s1 s2 : Opd) (cond : Cond)
  | ext (v : View) (c : Cond) (d s1 : Opd) (sgn : Bool) (len pos : BitVec 6)   -- len holds LEN - 1
  | ins (v : View) (c : Cond) (d s1 : Opd) (len pos : BitVec 6)
  | spc (c : Cond) (d s1 s2 : Opd)
  -- vector integer (R167-R171)
  | vadd (v : View) (c : Cond) (d s1 s2 : Opd)
  | vsub (v : View) (c : Cond) (d s1 s2 : Opd)
  | vadds (v : View) (c : Cond) (u : Bool) (d s1 s2 : Opd)
  | vsubs (v : View) (c : Cond) (u : Bool) (d s1 s2 : Opd)
  | vmul (v : View) (c : Cond) (d s1 s2 : Opd)
  | vmulh (v : View) (c : Cond) (u : Bool) (d s1 s2 : Opd)
  | vmac (v : View) (c : Cond) (d s1 s2 : Opd)
  | vdot (c : Cond) (u : Bool) (d s1 s2 : Opd)
  | vmin (v : View) (c : Cond) (u : Bool) (d s1 s2 : Opd)
  | vmax (v : View) (c : Cond) (u : Bool) (d s1 s2 : Opd)
  | vabs (v : View) (c : Cond) (d s1 : Opd)
  | vneg (v : View) (c : Cond) (d s1 : Opd)
  | vand (v : View) (c : Cond) (d s1 s2 : Opd)
  | vor (v : View) (c : Cond) (d s1 s2 : Opd)
  | vxor (v : View) (c : Cond) (d s1 s2 : Opd)
  | vshl (v : View) (c : Cond) (d s1 s2 : Opd)
  | vshr (v : View) (c : Cond) (d s1 s2 : Opd)
  | vsar (v : View) (c : Cond) (d s1 s2 : Opd)
  | vcmp (v : View) (c : Cond) (d s1 s2 : Opd) (cond : VCond)
  | vsel (v : View) (c : Cond) (d s1 s2 x : Opd)
  | vshuf (v : View) (c : Cond) (d s1 s2 : Opd)
  | vbcast (v : View) (c : Cond) (d s1 : Opd) (lane : BitVec 4)
  | vred (v : View) (c : Cond) (d s1 : Opd) (op : RedOp)
  -- conversions and floating point (R173-R180)
  | vcvt (v : View) (c : Cond) (d s1 : Opd)
  | vnarr (v : View) (c : Cond) (u : Bool) (d s1 s2 : Opd)
  | vwide (v : View) (c : Cond) (u : Bool) (hi : Bool) (d s1 : Opd)
  | vfadd (v : View) (c : Cond) (d s1 s2 : Opd)
  | vfsub (v : View) (c : Cond) (d s1 s2 : Opd)
  | vfmul (v : View) (c : Cond) (d s1 s2 : Opd)
  | vfma (v : View) (c : Cond) (np na : Bool) (d s1 s2 : Opd)
  | vfdiv (v : View) (c : Cond) (d s1 s2 : Opd)
  | vfsqrt (v : View) (c : Cond) (d s1 : Opd)
  | vfmin (v : View) (c : Cond) (d s1 s2 : Opd)
  | vfmax (v : View) (c : Cond) (d s1 s2 : Opd)
  | vfcmp (v : View) (c : Cond) (d s1 s2 : Opd) (cond : FCond)
  | vfrcp (v : View) (c : Cond) (d s1 : Opd)
  | vfrsq (v : View) (c : Cond) (d s1 : Opd)
  | vfexp2 (v : View) (c : Cond) (d s1 : Opd)
  | vflog2 (v : View) (c : Cond) (d s1 : Opd)
  | vfrnd (v : View) (c : Cond) (d s1 : Opd)
  | vfcls (v : View) (c : Cond) (d s1 : Opd)
  -- long-multiply and bit-plane (R181-R189); idx holds M - 1 or FIRST
  | pack (v : View) (c : Cond) (u : Bool) (wc : EWidth) (k : BitVec 6) (idx : BitVec 7) (d s1 : Opd)
  | extr (v : View) (c : Cond) (u : Bool) (cq fen : Bool) (k : BitVec 6) (idx : BitVec 7) (d s1 : Opd)
  | pmul (v : View) (c : Cond) (u : Bool) (fen : Bool) (wc : EWidth) (k : BitVec 6) (d s1 s2 : Opd)
  | gchk (c : Cond) (u : Bool) (wc : EWidth) (k : BitVec 6) (d s1 : Opd)
  | bprd (v : View) (c : Cond) (d s1 s2 x : Opd)
  | bpwr (v : View) (c : Cond) (d s1 s2 x : Opd)
  | scale (v : View) (c : Cond) (d s1 s2 : Opd)
  | bexp (v : View) (c : Cond) (d s1 s2 : Opd)
  -- control (R191-R202); lnk 8 writes no link
  | br (c : Cond) (off : BitVec 32) (lnk : Option Reg)
  | call (c : Cond) (off : BitVec 32) (lnk : Reg)
  | jmp (c : Cond) (s1 : Opd)
  | jmpl (c : Cond) (d s1 : Opd)
  | loop (cnt : Opd) (off : BitVec 32)
  | loopEndTest (cid : Nat)
  | rep (s1 : Opd)
  | endF (c : Cond)
  | yield (c : Cond) (live : BitVec 9) (dl : BitVec 12)
  | watchdogExpiry (cid : Nat)
  | wait (c : Cond) (ceil : BitVec 24)
  -- tokens (R210-R219)
  | send (c : Cond) (s1 s2 : Opd) (rch : Option (BitVec 5))
  | sendn (c : Cond) (s1 : Opd) (dch : BitVec 5) (dir : Dir)
  | recv (c : Cond) (d s1 : Opd)
  | chst (c : Cond) (d s1 : Opd)
  | bind (c : Cond) (s1 s2 : Opd)
  | unbind (c : Cond) (s1 : Opd)
  | prio (c : Cond) (s1 s2 : Opd)
  | rfork (c : Cond) (d s1 s2 x : Opd)
  | join (c : Cond) (d s1 : Opd)
  | trig (c : Cond)
  -- check and drift (R225-R227)
  | chkerr (c : Cond) (d : Opd) (kill : Bool)
  | seal (c : Cond) (d : Opd) (num wt : Bool)
  | drift (c : Cond) (d : Opd)
  -- system (R228-R241)
  | trap (c : Cond) (n : BitVec 16)
  | rti (c : Cond)
  | mfs (c : Cond) (d : Opd) (sreg : BitVec 16)
  | mts (c : Cond) (s1 : Opd) (sreg : BitVec 16)
  | tlbi (c : Cond) (s1 s2 : Opd) (ty : TlbiType)
  | ctxsv (c : Cond) (s1 s2 : Opd) (live : BitVec 9)
  | ctxld (c : Cond) (s1 s2 : Opd)
  | idle (c : Cond)
  | sigh (c : Cond) (s1 : Opd) (irv : Bool)
  | replay (c : Cond) (s1 s2 : Opd)
  | killf (c : Cond) (s1 : Opd) (drop : Bool)
  | place (c : Cond) (s1 s2 : Opd)
  -- memory and atomics (R242-R261)
  | ld (v : View) (c : Cond) (u : Bool) (d s1 : Opd)
  | loadDataArrival (cid : Nat) (k : Option Nat)
  | st (v : View) (c : Cond) (irv : Bool) (o : Ord) (sc : Scope) (d s1 : Opd)
  | storePerformed (cid k : Nat)
  | lda (v : View) (c : Cond) (u : Bool) (o : Ord) (sc : Scope) (d s1 : Opd)
  | stl (v : View) (c : Cond) (o : Ord) (sc : Scope) (d s1 : Opd)
  | bmov (v : View) (c : Cond) (d s1 s2 : Opd)
  | pref (c : Cond) (s1 : Opd) (nl : BitVec 6) (llc : Bool)          -- nl holds NL - 1
  | aadd (v : View) (c : Cond) (nz : Bool) (o : Ord) (sc : Scope) (d s1 s2 : Opd)
  | aand (v : View) (c : Cond) (o : Ord) (sc : Scope) (d s1 s2 : Opd)
  | aor (v : View) (c : Cond) (o : Ord) (sc : Scope) (d s1 s2 : Opd)
  | axor (v : View) (c : Cond) (o : Ord) (sc : Scope) (d s1 s2 : Opd)
  | amin (v : View) (c : Cond) (u : Bool) (o : Ord) (sc : Scope) (d s1 s2 : Opd)
  | amax (v : View) (c : Cond) (u : Bool) (o : Ord) (sc : Scope) (d s1 s2 : Opd)
  | aswp (v : View) (c : Cond) (o : Ord) (sc : Scope) (d s1 s2 : Opd)
  | acas (v : View) (c : Cond) (o : Ord) (sc : Scope) (d s1 s2 : Opd)
  | atomicPerformed (cid : Nat)
  | notifyRetry (k : Nat)
  | waita (v : View) (c : Cond) (tmo : BitVec 5) (o : Ord) (sc : Scope) (d s1 s2 : Opd)
  | waitaWake (cid : Nat)
  | waitaTimeout (cid : Nat)
  | waitaReread (cid : Nat)
  | fence (c : Cond) (o : Ord) (sc : Scope)
  | rst (c : Cond) (u : Bool) (op : RstOp) (wid : EWidth) (p : Reg) (s1 : Opd)
  | rstPerform (cid k : Nat)
  | l1inv (c : Cond) (s1 : Opd) (all : Bool)
  -- engines (R262-R287); pa, pb are register selectors
  | copy (c : Cond) (q : CopyQ) (pa pb : BitVec 4) (ntf : Option Opd) (irv dist comb : Bool)
  | copyt (c : Cond) (q : CopyQ) (pa pb : BitVec 4) (s1 : Opd) (irv dist comb : Bool)
  | tcfg (c : Cond) (pa : BitVec 4)
  | trel (c : Cond)
  | tldb (c : Cond) (pa : BitVec 4) (s1 : Opd) (bank : Bool) (af : BitVec 4)
  | tmul (c : Cond) (pa : BitVec 4) (s1 : Opd) (bank half : Bool) (arow : BitVec 12) (cb : BitVec 7) (drn : Bool) (acc : AccOp)
  | tpoly (c : Cond) (pa pb : BitVec 4) (s1 : Opd) (half : Bool) (arow : BitVec 12) (drn : Bool) (k : BitVec 6) (u : Bool) (mode : PolyMode)
  | tdrn (c : Cond) (s1 : Opd) (clr : Bool) (nrow frow : BitVec 8)      -- nrow holds NROW - 1
  | qfence (c : Cond) (mask : BitVec 4)
  | dist (c : Cond) (s1 : Opd)
  -- engine events
  | copyEngineTransfer (e : CopyEngine) (n : Nat)
  | copyCompletion (e : CopyEngine)
  | combineGroupClose (c g : Nat)
  | copytImageEnqueue (e : CopyEngine)
  | tldbExecute (sect : Nat)
  | tmulExecute (sect : Nat)
  | tpolyExecute (sect : Nat)
  | drainRow (sect : Nat)
  -- tokens, selection, ends
  | tokenArrival (k : Nat)
  | creditReturn (k : Nat)
  | hubTokenResend (k : Nat)
  | firingSelection (core : Nat)
  | chunkDeal (k : Nat)
  | firingKill (cid : Nat)
  | firingEndOnFault (cid : Nat)
  | faultRecordResend (k : Nat)
  -- translation and the host's translation services
  | pageWalk (w : Walker)
  | atsCompletion (k : Nat) (ans : Option AtsAnswer)
  | priSuccess (cam : Nat)
  | priInvalidRequest (cam : Nat)
  | priResponseFailure (cam : Nat)
  | atsInvalidationRequest (pasid va len : Nat)
  | externalEvent (src : Nat) (data : Word)
  | irtEscalation (k : Nat)
  -- queues, launches, scheduler
  | doorbell (q : Nat)
  | queueEnable (q : Nat)
  | launchRecord (q : Nat)
  | launchStart (lslot : Nat) (pl : List Placing)
  | launchCompletion (lslot : Nat)
  | signalRecord (k : Nat)
  | waitvRecord (k : Nat)
  | waitvTimeout (k : Nat)
  | barrierRecord (q : Nat)
  | copyqRecord (k : Nat)
  | nopRecord (q : Nat)
  | schedulerDecision (gs : List Grant)
  | schedulerTick
  | quantumExpiry (c : Nat)
  | parkNotice (cid : Nat)
  | rtPeriodStart (slot : Nat)
  | clusterOwnerChange (c : Nat) (slot : Nat)
  | thermalLimitChange (d : Nat) (tlim : BitVec 12)
  -- drifts and recovery
  | sealStart
  | driftAck (a : Stamper)
  | sealCommit
  | sweepComplete
  | sealTimer
  | rollback
  | checkerMismatch (cid : Nat) (again : Bool)
  | spareTakeover (core : Nat)
  | scrubRead (gran : Nat) (find : ScrubFind)
  | lineFetch (cid : Nat) (find : FetchFind)
  -- the host's side
  | hostRead (addr n : Nat)
  | hostReadOwnership (line : Nat) (dirty : Option (List Byte))
  | hostWrite (addr : Nat) (bytes : List Byte)
  | hostWriteback (line : Nat) (bytes : List Byte)
  | snpInv (line : Nat) (dirty : Option (List Byte))   -- dirty: what the host, which owns the line from now on, makes of it
  | snpData (line : Nat)
  | snpCur (line : Nat)
  | sliceLeave (sect : Nat)
  | sliceReturn (sect : Nat)
  | nvmeMsi (port : Bool) (data : BitVec 4)
  | nvmeInboundRead (port : Bool) (addr n : Nat)
  | nvmeInboundWrite (port : Bool) (addr : Nat) (bytes : List Byte)
  | netReceive (conn : Nat) (bytes : List Byte) (ack : Nat)
  | netTransmit (conn : Nat)
  | ethernetLinkChange (port up : Bool)
  -- power, boot, registers
  | holdEntry
  | powerOff
  | supplyLoss
  | wakeFrame (mac : BitVec 48) (etype : BitVec 16) (frame : Option RxFrame)      -- none: its check sequence is bad (R456)
  | wakeTimer
  | hostWake
  | coldBoot (found : BootFind)
  | debugUnlock (token : DebugToken)
  | pbudCapWrite (d : Nat) (val : Word)
  | rtsWrite (slot : Nat) (val : Word)
  | swpcfgWrite (val : Word)
  | cwcfgWrite (val : Word)
  | sealcfgReq (val : Word)
  | datcfgSync (d : Nat) (val : Word)
  | errinjGo (val : Word)
  | irtWrite (off : Nat) (val : Word)
  | registerWrite (host : Bool) (off : Nat) (size : Nat) (val : Word)
  | undefinedOpcode (opc : BitVec 8)
  | queueDisable (q : Nat)
  | priReenable (alloc : Nat)                                            -- the outstanding page requests that the host allows
  | hostPortLinkTraining (up : BitVec 4)
  deriving DecidableEq, Repr

end Sys2Proof
end

