-- ==== Sys2Proof/Machine/Checks.lean ====
section
/-! DEFINITION. Static checks of an instruction: what its fields alone decide (R111, R134 order 4 and 5), the shape of its
operands, its issue class, and the fields of a format word that it reads (R154). -/
namespace Sys2Proof.Machine

/-- The views that are integers of up to 64 bits. -/
def View.bhwd : View → Bool
  | .b | .h | .w | .d => true
  | _ => false

/-- The integer views. -/
def View.bhwdq : View → Bool
  | .b | .h | .w | .d | .q => true
  | _ => false

/-- The floating-point views. -/
def View.isFp : View → Bool
  | .bf | .f | .g => true
  | _ => false

/-- Lane width of a view (R76). -/
def View.lw : View → Nat
  | .b => 8 | .h => 16 | .w => 32 | .d => 64 | .q => 128 | .bf => 16 | .f => 32 | .g => 64

/-- Lane count of a view (R76). -/
def View.lanes (v : View) : Nat := 128 / View.lw v

/-- Access size sc of a view in bytes (R85). -/
def View.sc : View → Nat
  | .b => 1 | .h => 2 | .w => 4 | .d => 8 | _ => 16

/-- Descriptor kinds 1, 2 and 3. -/
def Opd.isMem : Opd → Bool
  | .mem .. | .post .. | .pre .. => true
  | _ => false

/-- Descriptor kind 4. -/
def Opd.isPreg : Opd → Bool
  | .preg _ => true
  | _ => false

/-- Descriptor kind 0 or 4. -/
def Opd.isReg : Opd → Bool
  | .acc | .preg _ => true
  | _ => false

/-- Descriptor kind 5. -/
def Opd.isChan : Opd → Bool
  | .chan .. => true
  | _ => false

/-- A channel operand that pops (R85). -/
def Opd.pops : Opd → Bool
  | .chan _ false => true
  | _ => false

/-- The register whose pointer the operand updates (R85). -/
def Opd.updates : Opd → Option Reg
  | .post p _ | .pre p _ => some p
  | _ => none

/-- The register that the operand names (R85). -/
def Opd.names : Opd → Option Reg
  | .mem p _ | .post p _ | .pre p _ | .preg p => some p
  | _ => none

/-- A destination may not be of kind 5, 6 or 7 (R86). -/
def Opd.dstOk : Opd → Bool
  | .chan .. | .imm _ | .zeros | .ones | .lanes => false
  | _ => true

/-- The zero descriptor is A. -/
def Opd.isAcc : Opd → Bool
  | .acc => true
  | _ => false

/-- How an operand is read or written (R144, R192): in scalar form at some size in bytes, in vector form, as bytes in memory
of a size, as an address or register only. -/
inductive Form where
  | scalar (bytes : Nat)
  | vector
  | bytes (n : Nat)
  | reg
  deriving DecidableEq, Repr

/-- The access size that scales the offset of an operand read in this form (R85). -/
def Form.sc : Form → Nat
  | .scalar n => n
  | .vector => 16
  | .bytes n => n
  | .reg => 8

/-- The operands of an instruction in the evaluation order of R87, each with its form: S1, S2, X, then D. -/
structure Shape where
  s1 : Option (Opd × Form)
  s2 : Option (Opd × Form)
  x : Option (Opd × Form)
  d : Option (Opd × Form)
  dRead : Bool                -- D is read as well as written
  deriving DecidableEq, Repr

/-- No operand. -/
def Shape.none_ : Shape := { s1 := none, s2 := none, x := none, d := none, dRead := false }

/-- One source and a destination in scalar form. -/
def shS1 (v : View) (d s1 : Opd) : Shape :=
  { Shape.none_ with s1 := some (s1, .scalar (View.sc v)), d := some (d, .scalar (View.sc v)) }

/-- Two sources and a destination in scalar form. -/
def shS2 (v : View) (d s1 s2 : Opd) : Shape := { shS1 v d s1 with s2 := some (s2, .scalar (View.sc v)) }

/-- Two scalar sources and no destination. -/
def shS2n (v : View) (s1 s2 : Opd) : Shape :=
  { Shape.none_ with s1 := some (s1, .scalar (View.sc v)), s2 := some (s2, .scalar (View.sc v)) }

/-- One source and a destination in vector form. -/
def shV1 (d s1 : Opd) : Shape := { Shape.none_ with s1 := some (s1, .vector), d := some (d, .vector) }

/-- Two sources and a destination in vector form. -/
def shV2 (d s1 s2 : Opd) : Shape := { shV1 d s1 with s2 := some (s2, .vector) }

/-- Scalar sources at 64 bits. -/
def shQ1 (s1 : Opd) : Shape := { Shape.none_ with s1 := some (s1, .scalar 8) }
/-- Two scalar sources at 64 bits. -/
def shQ2 (s1 s2 : Opd) : Shape := { shQ1 s1 with s2 := some (s2, .scalar 8) }
/-- A scalar destination at 64 bits. -/
def shD (d : Opd) : Shape := { Shape.none_ with d := some (d, .scalar 8) }
/-- A source and a destination, scalar at 64 bits. -/
def shDQ (d s1 : Opd) : Shape := { shQ1 s1 with d := some (d, .scalar 8) }

/-- The form of a source or destination under a view: scalar for the integer views, 16 bytes for the others. -/
def formOf (v : View) : Form := if View.isFp v then .vector else .scalar (View.sc v)

/-- An atomic: the place in memory in S1, the operand in S2, and D (R256). -/
def shAtom (v : View) (d s1 s2 : Opd) (rd : Bool) : Shape :=
  { s1 := some (s1, .bytes (View.sc v)), s2 := some (s2, .scalar (View.sc v)), x := none
    d := some (d, .scalar (View.sc v)), dRead := rd }

/-- The operands of each instruction (R155, R167, R173, R179, R181-R189, R191, R242). -/
def shape : Instr → Shape
  | .mov v _ d s1 | .clz v _ d s1 | .ctz v _ d s1 | .popc v _ d s1 | .ext v _ d s1 .. => shS1 v d s1
  | .ins v _ d s1 .. => { shS1 v d s1 with dRead := true }
  | .movi v _ d _ => { Shape.none_ with d := some (d, .scalar (View.sc v)) }
  | .movhi _ d _ => { shD d with dRead := true }
  | .lea v _ d s1 => { Shape.none_ with s1 := some (s1, .bytes (View.sc v)), d := some (d, .scalar 8) }
  | .add v _ d s1 s2 | .sub v _ d s1 s2 | .adc v _ d s1 s2 | .sbc v _ d s1 s2 | .mul v _ d s1 s2
  | .mulh v _ _ d s1 s2 | .div v _ _ d s1 s2 | .rem v _ _ d s1 s2
  | .and v _ d s1 s2 | .or v _ d s1 s2 | .xor v _ d s1 s2 | .andn v _ d s1 s2 | .shl v _ d s1 s2
  | .shr v _ d s1 s2 | .sar v _ d s1 s2 | .rol v _ d s1 s2 | .min v _ _ d s1 s2 | .max v _ _ d s1 s2
  | .sel v _ d s1 s2 _ => shS2 v d s1 s2
  | .cmp v _ s1 s2 | .tst v _ s1 s2 => shS2n v s1 s2
  | .spc _ d s1 s2 => { shQ2 s1 s2 with d := some (d, .scalar 8) }
  | .vadd _ _ d s1 s2 | .vsub _ _ d s1 s2 | .vadds _ _ _ d s1 s2 | .vsubs _ _ _ d s1 s2 | .vmul _ _ d s1 s2
  | .vmulh _ _ _ d s1 s2 | .vmin _ _ _ d s1 s2 | .vmax _ _ _ d s1 s2 | .vand _ _ d s1 s2 | .vor _ _ d s1 s2
  | .vxor _ _ d s1 s2 | .vshl _ _ d s1 s2 | .vshr _ _ d s1 s2 | .vsar _ _ d s1 s2 | .vcmp _ _ d s1 s2 _
  | .vshuf _ _ d s1 s2 | .vnarr _ _ _ d s1 s2 | .vfadd _ _ d s1 s2 | .vfsub _ _ d s1 s2 | .vfmul _ _ d s1 s2
  | .vfdiv _ _ d s1 s2 | .vfmin _ _ d s1 s2 | .vfmax _ _ d s1 s2 | .vfcmp _ _ d s1 s2 _ => shV2 d s1 s2
  | .vmac _ _ d s1 s2 | .vdot _ _ d s1 s2 | .vfma _ _ _ _ d s1 s2 => { shV2 d s1 s2 with dRead := true }
  | .vabs _ _ d s1 | .vneg _ _ d s1 | .vred _ _ d s1 _ | .vcvt _ _ d s1 | .vwide _ _ _ _ d s1
  | .vfsqrt _ _ d s1 | .vfrcp _ _ d s1 | .vfrsq _ _ d s1 | .vfexp2 _ _ d s1 | .vflog2 _ _ d s1
  | .vfrnd _ _ d s1 | .vfcls _ _ d s1 => shV1 d s1
  | .vsel _ _ d s1 s2 x => { shV2 d s1 s2 with x := some (x, .vector) }
  | .vbcast v _ d s1 _ =>
      match s1 with
      | .preg _ | .imm _ => { shV1 d s1 with s1 := some (s1, .scalar (View.sc v)) }
      | _ => shV1 d s1
  | .pack v _ _ _ _ _ d s1 => { Shape.none_ with s1 := some (s1, .vector), d := some (d, .scalar (View.sc v)) }
  | .extr _ _ _ _ _ _ _ d s1 => shV1 d s1
  | .pmul v _ _ _ _ _ d s1 s2 => shS2 v d s1 s2
  | .gchk _ _ _ _ d s1 => shDQ d s1
  | .bprd _ _ d s1 s2 x =>
      { s1 := some (s1, .bytes 16), s2 := some (s2, .scalar 8), x := some (x, .scalar 2), d := some (d, .vector), dRead := false }
  | .bpwr _ _ d s1 s2 x =>
      { s1 := some (s1, .vector), s2 := some (s2, .scalar 8), x := some (x, .scalar 2), d := some (d, .bytes 16), dRead := true }
  | .scale _ _ d s1 s2 => { shV1 d s1 with s2 := some (s2, .scalar 2) }
  | .bexp _ _ d s1 s2 =>
      { s1 := some (s1, .vector), s2 := some (s2, .scalar 8), x := none, d := some (d, .scalar 8), dRead := false }
  | .jmp _ s1 => shQ1 s1
  | .jmpl _ d s1 => shDQ d s1
  | .loop c _ => { Shape.none_ with s1 := some (c, .reg) }
  | .rep s1 => { Shape.none_ with s1 := some (s1, .reg) }
  | .send _ s1 s2 _ => { Shape.none_ with s1 := some (s1, .vector), s2 := some (s2, .scalar 8) }
  | .sendn _ s1 .. => { Shape.none_ with s1 := some (s1, .vector) }
  | .recv _ d s1 => { Shape.none_ with s1 := some (s1, .vector), d := some (d, .scalar 8) }
  | .chst _ d s1 => shDQ d s1
  | .bind _ s1 s2 => { Shape.none_ with s1 := some (s1, .bytes 32), s2 := some (s2, .scalar 8) }
  | .unbind _ s1 => shQ1 s1
  | .prio _ s1 s2 => shQ2 s1 s2
  | .rfork _ d s1 s2 x => { shQ2 s1 s2 with x := some (x, .scalar 8), d := some (d, .reg), dRead := true }
  | .join _ d s1 => { shQ1 s1 with d := some (d, .reg), dRead := true }
  | .chkerr _ d _ => shD d
  | .seal _ d num _ => if num then shD d else Shape.none_
  | .drift _ d => shD d
  | .mfs _ d _ => shD d
  | .mts _ s1 _ => shQ1 s1
  | .tlbi _ s1 s2 _ => shQ2 s1 s2
  | .ctxsv _ s1 s2 _ => shQ2 s1 s2
  | .ctxld _ s1 s2 => shQ2 s1 s2
  | .sigh _ s1 _ => shQ1 s1
  | .replay _ s1 s2 => shQ2 s1 s2
  | .killf _ s1 _ => shQ1 s1
  | .place _ s1 s2 => shQ2 s1 s2
  | .ld v _ _ d s1 => { Shape.none_ with s1 := some (s1, .bytes (View.sc v)), d := some (d, formOf v) }
  | .st v _ _ _ _ d s1 => { Shape.none_ with s1 := some (s1, formOf v), d := some (d, .bytes (View.sc v)) }
  | .lda v _ _ _ _ d s1 => { Shape.none_ with s1 := some (s1, .bytes (View.sc v)), d := some (d, .scalar (View.sc v)) }
  | .stl v _ _ _ d s1 => { Shape.none_ with s1 := some (s1, .scalar (View.sc v)), d := some (d, .bytes (View.sc v)) }
  | .bmov _ _ d s1 s2 =>
      { s1 := some (s1, .reg), s2 := some (s2, .reg), x := none, d := some (d, .reg), dRead := true }
  | .pref _ s1 .. => { Shape.none_ with s1 := some (s1, .bytes 64) }
  | .aadd v _ _ _ _ d s1 s2 | .aand v _ _ _ d s1 s2 | .aor v _ _ _ d s1 s2 | .axor v _ _ _ d s1 s2
  | .amin v _ _ _ _ d s1 s2 | .amax v _ _ _ _ d s1 s2 | .aswp v _ _ _ d s1 s2 => shAtom v d s1 s2 false
  | .acas v _ _ _ d s1 s2 => shAtom v d s1 s2 true
  | .waita v _ _ _ _ d s1 s2 => shAtom v d s1 s2 false
  | .rst _ _ _ _ p s1 => { shQ1 s1 with d := some (.preg p, .reg), dRead := true }
  | .l1inv _ s1 all => if all then Shape.none_ else shQ1 s1
  | .copy _ _ _ _ (some s1) .. => shQ1 s1
  | .copyt _ _ _ _ s1 .. => { Shape.none_ with s1 := some (s1, .bytes 48) }
  | .tldb _ _ s1 .. => shQ1 s1
  | .tmul _ _ s1 .. => shQ1 s1
  | .tpoly _ _ _ s1 .. => shQ1 s1
  | .tdrn _ s1 .. => shQ1 s1
  | .dist _ s1 => shQ1 s1
  | _ => Shape.none_

/-- The operands in the order of R87. -/
def Shape.opds (s : Shape) : List (Opd × Form) := s.s1.toList ++ s.s2.toList ++ s.x.toList ++ s.d.toList

/-- The predicate of an instruction; an event has none. -/
def condOf : Instr → Cond
  | .mov _ c .. | .movi _ c .. | .lea _ c .. | .add _ c .. | .sub _ c .. | .adc _ c .. | .sbc _ c .. | .mul _ c ..
  | .mulh _ c .. | .div _ c .. | .rem _ c .. | .and _ c .. | .or _ c .. | .xor _ c .. | .andn _ c .. | .shl _ c ..
  | .shr _ c .. | .sar _ c .. | .rol _ c .. | .clz _ c .. | .ctz _ c .. | .popc _ c .. | .cmp _ c .. | .tst _ c ..
  | .min _ c .. | .max _ c .. | .sel _ c .. | .ext _ c .. | .ins _ c .. => c
  | .movhi c .. | .spc c .. => c
  | .vadd _ c .. | .vsub _ c .. | .vadds _ c .. | .vsubs _ c .. | .vmul _ c .. | .vmulh _ c .. | .vmac _ c ..
  | .vmin _ c .. | .vmax _ c .. | .vabs _ c .. | .vneg _ c .. | .vand _ c .. | .vor _ c .. | .vxor _ c .. | .vshl _ c ..
  | .vshr _ c .. | .vsar _ c .. | .vcmp _ c .. | .vsel _ c .. | .vshuf _ c .. | .vbcast _ c .. | .vred _ c ..
  | .vcvt _ c .. | .vnarr _ c .. | .vwide _ c .. | .vfadd _ c .. | .vfsub _ c .. | .vfmul _ c .. | .vfma _ c ..
  | .vfdiv _ c .. | .vfsqrt _ c .. | .vfmin _ c .. | .vfmax _ c .. | .vfcmp _ c .. | .vfrcp _ c .. | .vfrsq _ c ..
  | .vfexp2 _ c .. | .vflog2 _ c .. | .vfrnd _ c .. | .vfcls _ c .. => c
  | .vdot c .. => c
  | .pack _ c .. | .extr _ c .. | .pmul _ c .. | .bprd _ c .. | .bpwr _ c .. | .scale _ c .. | .bexp _ c .. => c
  | .gchk c .. => c
  | .br c .. | .call c .. | .jmp c .. | .jmpl c .. | .endF c | .yield c .. | .wait c .. | .send c .. | .sendn c ..
  | .recv c .. | .chst c .. | .bind c .. | .unbind c .. | .prio c .. | .rfork c .. | .join c .. | .trig c | .chkerr c ..
  | .seal c .. | .drift c .. | .trap c .. | .rti c | .mfs c .. | .mts c .. | .tlbi c .. | .ctxsv c .. | .ctxld c ..
  | .idle c | .sigh c .. | .replay c .. | .killf c .. | .place c .. => c
  | .ld _ c .. | .st _ c .. | .lda _ c .. | .stl _ c .. | .bmov _ c .. | .aadd _ c .. | .aand _ c .. | .aor _ c ..
  | .axor _ c .. | .amin _ c .. | .amax _ c .. | .aswp _ c .. | .acas _ c .. | .waita _ c .. => c
  | .pref c .. | .fence c .. | .rst c .. | .l1inv c .. | .copy c .. | .copyt c .. | .tcfg c .. | .trel c | .tldb c ..
  | .tmul c .. | .tpoly c .. | .tdrn c .. | .qfence c .. | .dist c .. => c
  | _ => .al

/-- No two operands update one register, and at most one pops (R87, R88). -/
def opdsOk (os : List Opd) : Bool :=
  (os.filterMap Opd.updates).Nodup && decide ((os.filter Opd.pops).length ≤ 1)

/-- A source or destination read in scalar form under a view: kind 4 is refused under q (R144). -/
def scalarOk (v : View) (o : Opd) : Bool := !(Opd.isPreg o && v == .q)

/-- Two sources and a destination in scalar form. -/
def s2Ok (v : View) (d s1 s2 : Opd) : Bool :=
  Opd.dstOk d && scalarOk v d && scalarOk v s1 && scalarOk v s2 && opdsOk [s1, s2, d]

/-- A source and a destination in scalar form. -/
def s1Ok (v : View) (d s1 : Opd) : Bool := Opd.dstOk d && scalarOk v d && scalarOk v s1 && opdsOk [s1, d]

/-- A source in vector form (R144). -/
def vecOk (o : Opd) : Bool := !Opd.isPreg o

/-- Two sources and a destination in vector form. -/
def v2Ok (d s1 s2 : Opd) : Bool := Opd.dstOk d && vecOk d && vecOk s1 && vecOk s2 && opdsOk [s1, s2, d]

/-- A source and a destination in vector form. -/
def v1Ok (d s1 : Opd) : Bool := Opd.dstOk d && vecOk d && vecOk s1 && opdsOk [s1, d]

/-- A destination of LD, LDA, an atomic or WAITA that is a register (R242, R247): kind 4 only up to 64 bits. -/
def regDst (v : View) (d : Opd) : Bool := Opd.isAcc d || (Opd.isPreg d && View.bhwd v)

/-- The fields of an atomic. -/
def atomOk (v : View) (d s1 s2 : Opd) : Bool :=
  (v == .w || v == .d) && Opd.isReg d && Opd.isMem s1 && opdsOk [s1, s2, d]

/-- An order of a load (R242). -/
def ordLoad (o : Ord) : Bool := o == .rlx || o == .acq

/-- An order of a store (R242). -/
def ordStore (o : Ord) : Bool := o == .rlx || o == .rel

/-- w of a modifier (R181). -/
def EWidth.bits : EWidth → Nat
  | .w2 => 2 | .w4 => 4 | .w8 => 8

/-- K of R181. -/
def kOk (k : BitVec 6) : Bool := decide (2 ≤ k.toNat ∧ k.toNat ≤ 32)

/-- Operation and view of VRED agree (R171). -/
def redOk (v : View) : RedOp → Bool
  | .fadd | .fmin | .fmax => View.isFp v
  | _ => View.bhwd v

/-- The system registers that are assigned (R97, R126, R231). -/
def sregAssigned (r : BitVec 16) : Bool :=
  r ∈ [0x0#16, 0x1#16, 0x2#16, 0x3#16, 0x4#16, 0x5#16, 0x6#16, 0x8#16, 0x9#16, 0xA#16, 0xB#16, 0xC#16, 0xD#16, 0x10#16,
    0x11#16, 0x12#16, 0x13#16, 0x14#16, 0x120#16, 0x1000#16, 0x1001#16, 0x1002#16, 0x1003#16]

/-- The system registers whose write column is "—" (R97). -/
def sregReadOnly (r : BitVec 16) : Bool := r ∈ [0x3#16, 0x5#16, 0x10#16, 0x11#16, 0x12#16, 0x13#16, 0x14#16]

/-- Format codes of a format word (R32, R132). -/
def fwA (fw : BitVec 16) : Nat := (fw.extractLsb' 0 4).toNat
/-- BFMT. -/
def fwB (fw : BitVec 16) : Nat := (fw.extractLsb' 4 4).toNat
/-- RND. -/
def fwRnd (fw : BitVec 16) : Nat := (fw.extractLsb' 8 2).toNat
/-- HALF. -/
def fwHalf (fw : BitVec 16) : Bool := fw.getLsbD 10
/-- SAT. -/
def fwSat (fw : BitVec 16) : Bool := fw.getLsbD 11
/-- RFMT. -/
def fwR (fw : BitVec 16) : Nat := (fw.extractLsb' 12 4).toNat

/-- Whether the three format codes of a format word are assigned (R33, R111). -/
def fmtCodesOk (fw : BitVec 16) : Bool := decide (fwA fw < 14 ∧ fwB fw < 14 ∧ fwR fw < 14)

/-- Whether every field holds a value that the instruction's entry assigns (R111, R166, R172, R190-R192, R242, R243):
what fails here is fault 0x01. A reserved format code faults at the FMT itself, as a reserved code of any field does (R33; log entry 61). -/
def fieldsOk : Instr → Bool
  | .fmt fw => fmtCodesOk fw
  | .mov v _ d s1 => View.bhwdq v && s1Ok v d s1
  | .clz v _ d s1 | .ctz v _ d s1 | .popc v _ d s1 => View.bhwdq v && s1Ok v d s1
  | .movi v _ d _ => View.bhwdq v && Opd.dstOk d && scalarOk v d
  | .movhi _ d _ => Opd.dstOk d
  | .lea v _ d s1 => View.bhwdq v && Opd.dstOk d && scalarOk v d && Opd.isMem s1 && opdsOk [s1, d]
  | .add v _ d s1 s2 | .sub v _ d s1 s2 | .adc v _ d s1 s2 | .sbc v _ d s1 s2 | .and v _ d s1 s2 | .or v _ d s1 s2
  | .xor v _ d s1 s2 | .andn v _ d s1 s2 | .shl v _ d s1 s2 | .shr v _ d s1 s2 | .sar v _ d s1 s2
  | .rol v _ d s1 s2 | .sel v _ d s1 s2 _ => View.bhwdq v && s2Ok v d s1 s2
  | .mul v _ d s1 s2 | .mulh v _ _ d s1 s2 | .div v _ _ d s1 s2 | .rem v _ _ d s1 s2 | .min v _ _ d s1 s2
  | .max v _ _ d s1 s2 => View.bhwd v && s2Ok v d s1 s2
  | .cmp v _ s1 s2 | .tst v _ s1 s2 => View.bhwdq v && scalarOk v s1 && scalarOk v s2 && opdsOk [s1, s2]
  | .ext v _ d s1 _ len pos | .ins v _ d s1 len pos =>
      View.bhwd v && s1Ok v d s1 && decide (pos.toNat + len.toNat + 1 ≤ View.lw v)
  | .spc _ d s1 s2 => s2Ok .d d s1 s2
  | .vadd v _ d s1 s2 | .vsub v _ d s1 s2 | .vadds v _ _ d s1 s2 | .vsubs v _ _ d s1 s2 | .vmul v _ d s1 s2
  | .vmulh v _ _ d s1 s2 | .vmac v _ d s1 s2 | .vmin v _ _ d s1 s2 | .vmax v _ _ d s1 s2 | .vshl v _ d s1 s2
  | .vshr v _ d s1 s2 | .vsar v _ d s1 s2 | .vcmp v _ d s1 s2 _ | .vshuf v _ d s1 s2 => View.bhwd v && v2Ok d s1 s2
  | .vdot _ _ d s1 s2 => v2Ok d s1 s2
  | .vabs v _ d s1 | .vneg v _ d s1 => View.bhwd v && v1Ok d s1
  | .vand _ _ d s1 s2 | .vor _ _ d s1 s2 | .vxor _ _ d s1 s2 => v2Ok d s1 s2
  | .vsel _ _ d s1 s2 x => Opd.dstOk d && vecOk d && vecOk s1 && vecOk s2 && vecOk x && opdsOk [s1, s2, x, d]
  | .vbcast v _ d s1 lane =>
      v != .q && Opd.dstOk d && vecOk d && opdsOk [s1, d] && decide (lane.toNat < View.lanes v)
  | .vred v _ d s1 op => redOk v op && v1Ok d s1
  | .vcvt v _ d s1 => v != .b && v != .q && v1Ok d s1
  | .vnarr v _ _ d s1 s2 => (v == .b || v == .h || v == .w) && v2Ok d s1 s2
  | .vwide v _ _ _ d s1 => (v == .h || v == .w || v == .d) && v1Ok d s1
  | .vfadd v _ d s1 s2 | .vfsub v _ d s1 s2 | .vfmul v _ d s1 s2 | .vfma v _ _ _ d s1 s2 | .vfdiv v _ d s1 s2
  | .vfmin v _ d s1 s2 | .vfmax v _ d s1 s2 | .vfcmp v _ d s1 s2 _ => View.isFp v && v2Ok d s1 s2
  | .vfsqrt v _ d s1 | .vfrcp v _ d s1 | .vfrsq v _ d s1 | .vfexp2 v _ d s1 | .vflog2 v _ d s1 | .vfrnd v _ d s1
  | .vfcls v _ d s1 => View.isFp v && v1Ok d s1
  | .pack v _ _ wc k idx d s1 =>
      (v == .d || v == .q) && kOk k && decide ((idx.toNat + 1) * EWidth.bits wc ≤ 128) && Opd.dstOk d && scalarOk v d && vecOk s1
        && opdsOk [s1, d]
  | .extr v _ _ _ _ k _ d s1 => View.bhwd v && kOk k && decide (k.toNat ≤ View.lw v) && v1Ok d s1
  | .pmul v _ _ fen wc k d s1 s2 =>
      (v == .d || v == .q) && (!fen || (kOk k && decide (2 * EWidth.bits wc ≤ k.toNat))) && s2Ok v d s1 s2
  | .gchk _ _ _ k d s1 => kOk k && s1Ok .d d s1
  | .bprd v _ d s1 s2 x =>
      (v == .b || v == .h) && Opd.dstOk d && vecOk d && Opd.isMem s1 && opdsOk [s1, s2, x, d]
  | .bpwr v _ d s1 s2 x =>
      (v == .b || v == .h || v == .w || v == .bf || v == .f) && Opd.isMem d && vecOk s1 && opdsOk [s1, s2, x, d]
  | .scale v _ d s1 s2 => View.isFp v && Opd.dstOk d && vecOk d && vecOk s1 && opdsOk [s1, s2, d]
  | .bexp v _ d s1 s2 => View.isFp v && Opd.dstOk d && vecOk s1 && opdsOk [s1, s2, d]
  | .jmpl _ d s1 => Opd.dstOk d && opdsOk [s1, d]
  | .loop c off =>
      (match c with | .preg _ | .imm _ => true | _ => false) && decide (1 ≤ off.toInt)
  | .rep s1 => Opd.isPreg s1
  | .yield _ _ dl => dl != 0
  | .send _ s1 s2 _ => vecOk s1 && opdsOk [s1, s2]
  | .sendn _ s1 .. => vecOk s1
  | .recv _ d s1 => Opd.dstOk d && !Opd.isAcc d && Opd.isChan s1
  | .chst _ d s1 => Opd.dstOk d && opdsOk [s1, d]
  | .bind _ s1 s2 => Opd.isMem s1 && opdsOk [s1, s2]
  | .prio _ s1 s2 => opdsOk [s1, s2]
  | .rfork _ d s1 s2 x => Opd.isPreg d && opdsOk [s1, s2, x]
  | .join _ d _ => Opd.isPreg d
  | .chkerr _ d _ | .drift _ d => Opd.dstOk d
  | .seal _ d num _ => !num || Opd.dstOk d
  | .mfs _ d r => Opd.dstOk d && sregAssigned r
  | .mts _ _ r => sregAssigned r && !sregReadOnly r
  | .tlbi _ s1 s2 _ | .ctxsv _ s1 s2 _ | .ctxld _ s1 s2 | .replay _ s1 s2 | .place _ s1 s2 => opdsOk [s1, s2]
  | .ld v _ _ d s1 => (regDst v d || Opd.isMem d) && Opd.isMem s1 && opdsOk [s1, d]
  | .st v _ _ o _ d s1 => ordStore o && Opd.isMem d && (View.bhwd v || vecOk s1) && opdsOk [s1, d]
  | .lda v _ _ o _ d s1 => View.bhwdq v && ordLoad o && regDst v d && Opd.isMem s1
  | .stl v _ o _ d s1 => View.bhwdq v && ordStore o && Opd.isMem d && scalarOk v s1 && opdsOk [s1, d]
  | .bmov v _ d s1 s2 =>
      View.bhwdq v && Opd.isPreg d && Opd.isPreg s1 && Opd.isPreg s2 && d != s1 && d != s2 && s1 != s2
  | .pref _ s1 .. => Opd.isMem s1
  | .aadd v _ _ _ _ d s1 s2 | .aand v _ _ _ d s1 s2 | .aor v _ _ _ d s1 s2 | .axor v _ _ _ d s1 s2
  | .amin v _ _ _ _ d s1 s2 | .amax v _ _ _ _ d s1 s2 | .aswp v _ _ _ d s1 s2 | .acas v _ _ _ d s1 s2 => atomOk v d s1 s2
  | .waita v _ _ o _ d s1 s2 => ordLoad o && atomOk v d s1 s2
  | .fence _ o _ => o != .rlx
  | .copyt _ _ _ _ s1 .. => Opd.isMem s1
  | .qfence _ m => m != 0
  | _ => true

/-- Whether every field that the instruction does not read is zero, as far as the syntax can hold one (R111, R181, R242):
what fails here is fault 0x02. -/
def unusedOk : Instr → Bool
  | .vbcast _ _ _ s1 lane => match s1 with | .preg _ | .imm _ => lane == 0 | _ => true
  | .pmul _ _ u fen wc k .. => fen || (!u && wc == .w2 && k == 0)
  | .ld _ _ u d _ => !(u && Opd.isMem d)
  | .rst _ u op .. => !u || op == .add
  | .l1inv _ s1 all => !all || Opd.isAcc s1
  | .seal _ d num _ => num || Opd.isAcc d
  | _ => true

/-- The fields of the format word that an instruction reads (R154). -/
structure FmtUse where
  a : Bool
  b : Bool
  r : Bool
  rnd : Bool
  half : Bool
  sat : Bool
  deriving DecidableEq, Repr

/-- SAT alone. -/
def useSat : FmtUse := { a := false, b := false, r := false, rnd := false, half := false, sat := true }
/-- RND alone. -/
def useRnd : FmtUse := { a := false, b := false, r := false, rnd := true, half := false, sat := false }

/-- R154; none for an instruction that takes no format. -/
def fmtUse : Instr → Option FmtUse
  | .add .. | .sub .. | .mul .. | .shl .. | .vadd .. | .vsub .. | .vmul .. | .vmac .. | .vabs .. | .vneg .. | .vshl ..
  | .vnarr .. => some useSat
  | .vred _ _ _ _ op => some (match op with | .fadd | .fmin | .fmax => useRnd | _ => useSat)
  | .vdot .. => some { useSat with a := true, b := true }
  | .vfadd .. | .vfsub .. | .vfmul .. | .vfma .. | .vfdiv .. | .vfsqrt .. | .vfrcp .. | .vfrsq .. | .vfexp2 .. | .vflog2 ..
  | .vfrnd .. => some useRnd
  | .vcvt v .. => some (if v == .d || v == .g then useRnd else { useRnd with a := true, r := true })
  | .bprd .. => some { useRnd with a := true, rnd := false, half := true }
  | .bpwr .. => some useRnd
  | .scale .. => some { useRnd with a := true }
  | _ => none

/-- The values of the prefix fields that the entry allows (R133, R168, R179, R186, R188; R33 for reserved codes): a prefix that
fails here is fault 0x01. -/
def prefixValuesOk (i : Instr) (fw : BitVec 16) : Bool :=
  fmtCodesOk fw &&
  match i with
  | .vdot .. => fwA fw == fwB fw && (fwA fw == 0 || fwA fw == 12 || fwA fw == 13)
  | .vcvt v .. =>
      match v with
      | .h => (fwA fw == 1 || fwA fw == 10) && fwR fw == 1
      | .bf => (fwA fw == 1 || fwA fw == 10) && fwR fw == 10
      | .w => (fwA fw == 2 || fwA fw == 11) && fwR fw == 2
      | .f => (fwA fw == 2 || fwA fw == 11) && fwR fw == 11
      | _ => true
  | .bprd v .. => decide (3 ≤ fwA fw ∧ fwA fw ≤ 9) && !(fwHalf fw && v == .b)
  | .scale v .. =>
      match v with
      | .bf => fwA fw == 0 || fwA fw == 1 || fwA fw == 10
      | .f => fwA fw == 0 || fwA fw == 2 || fwA fw == 11
      | _ => fwA fw == 0
  | i => (fmtUse i).isSome

/-- The prefix fields that the instruction does not read are zero (R133): a prefix that fails here is fault 0x02. -/
def prefixUnusedOk (i : Instr) (fw : BitVec 16) : Bool :=
  match fmtUse i with
  | none => true
  | some u =>
      (u.a || fwA fw == 0) && (u.b || fwB fw == 0) && (u.r || fwR fw == 0) && (u.rnd || fwRnd fw == 0) &&
      (u.half || !fwHalf fw) && (u.sat || !fwSat fw)

/-- Issue classes (R123). -/
inductive IClass where
  | i | v | m | c
  deriving DecidableEq, Repr

/-- The class of an opcode (R123): every undefined one is of class C. -/
def opClass (opc : Nat) : IClass :=
  if 0x10 ≤ opc ∧ opc ≤ 0x2E then .i
  else if (0x30 ≤ opc ∧ opc ≤ 0x58) ∨ (0x60 ≤ opc ∧ opc ≤ 0x67) then .v
  else if (0x90 ≤ opc ∧ opc ≤ 0xA1) ∨ (0xB0 ≤ opc ∧ opc ≤ 0xB9) ∨ (0xC0 ≤ opc ∧ opc ≤ 0xC2) then .m
  else .c

/-- The class of an instruction (R123). -/
def classOf : Instr → IClass
  | .mov .. | .movi .. | .movhi .. | .lea .. | .add .. | .sub .. | .adc .. | .sbc .. | .mul .. | .mulh .. | .div .. | .rem ..
  | .and .. | .or .. | .xor .. | .andn .. | .shl .. | .shr .. | .sar .. | .rol .. | .clz .. | .ctz .. | .popc .. | .cmp ..
  | .tst .. | .min .. | .max .. | .sel .. | .ext .. | .ins .. | .spc .. => .i
  | .vadd .. | .vsub .. | .vadds .. | .vsubs .. | .vmul .. | .vmulh .. | .vmac .. | .vdot .. | .vmin .. | .vmax .. | .vabs ..
  | .vneg .. | .vand .. | .vor .. | .vxor .. | .vshl .. | .vshr .. | .vsar .. | .vcmp .. | .vsel .. | .vshuf .. | .vbcast ..
  | .vred .. | .vcvt .. | .vnarr .. | .vwide .. | .vfadd .. | .vfsub .. | .vfmul .. | .vfma .. | .vfdiv .. | .vfsqrt ..
  | .vfmin .. | .vfmax .. | .vfcmp .. | .vfrcp .. | .vfrsq .. | .vfexp2 .. | .vflog2 .. | .vfrnd .. | .vfcls .. | .pack ..
  | .extr .. | .pmul .. | .gchk .. | .bprd .. | .bpwr .. | .scale .. | .bexp .. => .v
  | .ld .. | .st .. | .lda .. | .stl .. | .bmov .. | .pref .. | .aadd .. | .aand .. | .aor .. | .axor .. | .amin .. | .amax ..
  | .aswp .. | .acas .. | .waita .. | .fence .. | .rst .. | .l1inv .. | .copy .. | .copyt .. | .tcfg .. | .trel .. | .tldb ..
  | .tmul .. | .tpoly .. | .tdrn .. | .qfence .. | .dist .. | .chkerr .. | .seal .. | .drift .. => .m
  | _ => .c

/-- What may not stand in a delay slot (R128); `second` for the second one. -/
def slotBarred (second : Bool) : Instr → Bool
  | .br .. | .call .. | .jmp .. | .jmpl .. | .loop .. | .rep .. | .endF .. | .yield .. | .wait .. | .trap .. | .rti .. => true
  | .fmt .. => second
  | _ => false

/-- The four transfers (R127). -/
def isTransfer : Instr → Bool
  | .br .. | .call .. | .jmp .. | .jmpl .. => true
  | _ => false

/-- A pair base is 0, 2, 4 or 6 (R79). -/
def pairOk (p : BitVec 4) : Bool := p.toNat % 2 == 0 && decide (p.toNat < 8)

/-- The pair selectors and pair bases that an instruction uses (R79, R121). -/
def pairsOk : Instr → Bool
  | .copy _ _ pa pb .. | .copyt _ _ pa pb .. | .tpoly _ pa pb .. => pairOk pa && pairOk pb
  | .tcfg _ pa | .tldb _ pa .. | .tmul _ pa .. => pairOk pa
  | .rst _ _ _ _ p _ => p.val % 2 == 0
  | _ => true

/-- The lowest privilege that may execute an instruction (R97, R99, R191). -/
def privOf : Instr → Nat
  | .rti .. => 2
  | .tlbi .. | .ctxsv .. | .ctxld .. | .idle .. | .sigh .. | .replay .. | .killf .. | .place .. => 1
  | .mfs _ _ r => if r.toNat < 0x100 then 0 else if r.toNat < 0x1000 then 1 else 2
  | .mts _ _ r =>
      if r.toNat = 0 ∨ r.toNat = 4 then 0 else if r.toNat < 0x1000 then 1 else 2
  | _ => 0

end Sys2Proof.Machine
end

