-- ==== Sys2Proof/WellFormed.lean ====
section
/-! DEFINITION. Well-formed instructions: the decoder gives no other. -/
namespace Sys2Proof

/-- Every field holds an assigned value and every unused field is zero (R111). Events are well-formed as they stand. -/
def wellFormed (i : Instr) : Bool := Machine.fieldsOk i && Machine.unusedOk i

end Sys2Proof
end

