-- ==== Sys2Proof/Decode.lean ====
section
/-! DEFINITION. The decoder of 96-bit instruction words (R102-R122, R135, R136), and after it the encoder. -/
namespace Sys2Proof

/-- Why a word is not an instruction, by the fault it raises (R111): `unassigned` is 0x01; `reserved` is 0x02, a nonzero unused
bit, and carries the instruction that the other fields name, so that a prefix it does not take is found first (R134). -/
inductive Reject where
  | unassigned
  | reserved (i : Instr)
  deriving DecidableEq, Repr

/-- A field of a word. -/
abbrev field (w : BitVec 96) (lo n : Nat) : BitVec n := w.extractLsb' lo n

/-- View of VW 0 to 7 (R76). -/
def viewOf (v : BitVec 4) : View :=
  match v.toNat with
  | 0 => .b | 1 => .h | 2 => .w | 3 => .d | 4 => .q | 5 => .bf | 6 => .f | _ => .g

/-- Condition of a code 0 to 14 (R113). -/
def condOfCode (c : BitVec 4) : Cond :=
  match c.toNat with
  | 0 => .al | 1 => .eq | 2 => .ne | 3 => .lt | 4 => .ge | 5 => .le | 6 => .gt | 7 => .lo | 8 => .hs | 9 => .mi | 10 => .pl
  | 11 => .vs | 12 => .vc | 13 => .gs | _ => .gc

/-- A register number. -/
def regOf (n : BitVec 3) : Reg := n.toFin

/-- Operand of a descriptor (R85). -/
def opdOf (o : BitVec 20) : Opd :=
  let n : BitVec 3 := o.extractLsb' 14 3
  let off : BitVec 14 := o.extractLsb' 0 14
  match (o.extractLsb' 17 3).toNat with
  | 0 => .acc
  | 1 => .mem (regOf n) off
  | 2 => .post (regOf n) off
  | 3 => .pre (regOf n) off
  | 4 => .preg (regOf n)
  | 5 => .chan (o.extractLsb' 0 5) (o.getLsbD 5)
  | 6 => .imm off
  | _ => if n = 0 then .zeros else if n = 1 then .ones else .lanes

/-- Kind 7 with N 3 to 7: fault 0x01 (R86). -/
def opdBad01 (o : BitVec 20) : Bool := o.extractLsb' 17 3 == 7#3 && decide (3 ≤ (o.extractLsb' 14 3).toNat)

/-- A nonzero bit in a field that R85 requires to be zero: fault 0x02 (R86). -/
def opdBad02 (o : BitVec 20) : Bool :=
  let n : BitVec 3 := o.extractLsb' 14 3
  let off : BitVec 14 := o.extractLsb' 0 14
  match (o.extractLsb' 17 3).toNat with
  | 0 => n != 0 || off != 0
  | 4 => off != 0
  | 5 => n != 0 || o.extractLsb' 6 8 != 0#8
  | 6 => n != 0
  | 7 => off != 0
  | _ => false

/-- Scope of a code 0 to 5 (R117). -/
def scopeOf (s : BitVec 3) : Scope :=
  match s.toNat with
  | 0 => .core | 1 => .clus | 2 => .sect | 3 => .dom | 4 => .dev | _ => .sys

/-- Order of a code (R117). -/
def ordOf (o : BitVec 2) : Ord :=
  match o.toNat with
  | 0 => .rlx | 1 => .acq | 2 => .rel | _ => .ar

/-- COND of VCMP (R169). -/
def vcondOf (c : BitVec 4) : VCond :=
  match c.toNat with
  | 0 => .eq | 1 => .ne | 2 => .lt | 3 => .le | 4 => .gt | 5 => .ge | 6 => .lo | 7 => .ls | 8 => .hi | _ => .hs

/-- COND of VFCMP (R176). -/
def fcondOf (c : BitVec 3) : FCond :=
  match c.toNat with
  | 0 => .eq | 1 => .ne | 2 => .lt | 3 => .le | 4 => .gt | 5 => .ge | 6 => .un | _ => .ord

/-- OP of VRED (R171). -/
def redOf (c : BitVec 3) : RedOp :=
  match c.toNat with
  | 0 => .add | 1 => .smin | 2 => .smax | 3 => .umin | 4 => .umax | 5 => .fadd | 6 => .fmin | _ => .fmax

/-- WC or WID 0 to 2 (R181, R260). -/
def widthOf (c : BitVec 2) : EWidth :=
  match c.toNat with
  | 0 => .w2 | 1 => .w4 | _ => .w8

/-- OP of RST (R260). -/
def rstOf (c : BitVec 2) : RstOp :=
  match c.toNat with
  | 0 => .st | 1 => .add | 2 => .or | _ => .and

/-- DIR (R212). -/
def dirOf (c : BitVec 2) : Dir :=
  match c.toNat with
  | 0 => .nx | 1 => .pv | 2 => .up | _ => .dn

/-- TYPE of TLBI (R233). -/
def tlbiOf (c : BitVec 2) : TlbiType :=
  match c.toNat with
  | 0 => .page | 1 => .pasid | 2 => .nonglobal | _ => .all

/-- ACC 0 to 2 of TMUL (R280). -/
def accOf (c : BitVec 2) : AccOp :=
  match c.toNat with
  | 0 => .overwrite | 1 => .add | _ => .sub

/-- MODE 0 to 2 of TPOLY (R282). -/
def modeOf (c : BitVec 2) : PolyMode :=
  match c.toNat with
  | 0 => .fault | 1 => .saturate | _ => .carry

/-- QSEL of a copy (R242). -/
def copyQOf (c : BitVec 4) : CopyQ :=
  match c.toNat with
  | 0 => .q0 | 1 => .q1 | _ => .q3

/-- Put a decoding together (R111, R134): `bad1` is what the fields break of fault 0x01 beside the instruction's own checks, `bad2`
what they break of fault 0x02, `os` the descriptors in use. PRD 15 is fault 0x01. -/
def finish (w : BitVec 96) (bad1 bad2 : Bool) (os : List (BitVec 20)) (i : Instr) : Except Reject Instr :=
  if bad1 || field w 80 4 == 15#4 || os.any opdBad01 || !Machine.fieldsOk i then .error .unassigned
  else if bad2 || os.any opdBad02 || !Machine.unusedOk i then .error (.reserved i)
  else .ok i

/-- M3 with a view: D, S1, S2 as descriptors or zero, the bits of X outside `xm` zero (R116, R117). `nd`, `n1`, `n2` say which
of the three the instruction uses. -/
def m3 (w : BitVec 96) (nd n1 n2 : Bool) (xm : BitVec 20) (bad1 : Bool) (more : List (BitVec 20)) (i : Instr) :
    Except Reject Instr :=
  finish w bad1
    ((!nd && field w 60 20 != 0) || (!n1 && field w 40 20 != 0) || (!n2 && field w 20 20 != 0) || field w 0 20 &&& ~~~xm != 0)
    ((if nd then [field w 60 20] else []) ++ (if n1 then [field w 40 20] else []) ++ (if n2 then [field w 20 20] else []) ++ more) i

/-- VW 8 to 15 (R76). -/
def vwHigh (w : BitVec 96) : Bool := field w 84 4 &&& 8#4 != 0

/-- VW other than 0 in an instruction with no view (R110). -/
def vwSet (w : BitVec 96) : Bool := field w 84 4 != 0

/-- VW other than the one view allowed. -/
def vwNot (w : BitVec 96) (v : BitVec 4) : Bool := field w 84 4 != v

/-- A scope code of 6 or 7 (R117). -/
def scopeBad (w : BitVec 96) : Bool := decide (6 ≤ (field w 0 3).toNat)

/-- EN (R121): selectors and S1 that are not in use are zero, the bits of X44 outside `xm` zero. -/
def en (w : BitVec 96) (na nb n1 : Bool) (q2 : Bool) (xm : BitVec 44) (bad1 bad2 : Bool) (i : Instr) : Except Reject Instr :=
  finish w (bad1 || vwSet w || (if q2 then field w 64 4 != 2#4 else !(field w 64 4 == 0#4 || field w 64 4 == 1#4 || field w 64 4 == 3#4)))
    (bad2 || (!na && field w 76 4 != 0) || (!nb && field w 72 4 != 0) || field w 68 4 != 0 || (!n1 && field w 44 20 != 0)
      || field w 0 44 &&& ~~~xm != 0)
    (if n1 then [field w 44 20] else []) i

section
variable (w : BitVec 96)

/-- The common fields. -/
abbrev fV : View := viewOf (field w 84 4)
/-- The predicate. -/
abbrev fC : Cond := condOfCode (field w 80 4)
/-- D of M3, MI and SY. -/
abbrev fD : Opd := opdOf (field w 60 20)
/-- S1 of M3 and SY. -/
abbrev fS1 : Opd := opdOf (field w 40 20)
/-- S2 of M3. -/
abbrev fS2 : Opd := opdOf (field w 20 20)
/-- X of M3 as a descriptor. -/
abbrev fX : Opd := opdOf (field w 0 20)
/-- Bit i of the word. -/
abbrev fb (i : Nat) : Bool := w.getLsbD i
/-- Scope in X. -/
abbrev fSc : Scope := scopeOf (field w 0 3)
/-- Order in X. -/
abbrev fOr : Ord := ordOf (field w 3 2)
/-- S1 of EN. -/
abbrev fE1 : Opd := opdOf (field w 44 20)

/-- Three operands with a view and no modifier. -/
abbrev d3 (i : Instr) : Except Reject Instr := m3 w true true true 0 (vwHigh w) [] i
/-- Three operands with a view and UNS in X[19]. -/
abbrev d3u (i : Instr) : Except Reject Instr := m3 w true true true 0x80000 (vwHigh w) [] i
/-- D and S1 with a view. -/
abbrev d2 (i : Instr) : Except Reject Instr := m3 w true true false 0 (vwHigh w) [] i
/-- D, S1, S2 with a view and bits of X. -/
abbrev d3x (xm : BitVec 20) (i : Instr) : Except Reject Instr := m3 w true true true xm (vwHigh w) [] i
/-- No view: the operands in use and bits of X. -/
abbrev dn (nd n1 n2 : Bool) (xm : BitVec 20) (i : Instr) : Except Reject Instr := m3 w nd n1 n2 xm (vwSet w) [] i
/-- An atomic with bits of X beside order and scope. -/
abbrev dat (xm : BitVec 20) (i : Instr) : Except Reject Instr := m3 w true true true (xm ||| 0x1F) (vwHigh w || scopeBad w) [] i

/-- Row 0_ of the opcode map (R112, R135). -/
def decode0 (lo : Nat) : Except Reject Instr :=
  match lo with
  | 0 => if w = 0 then .ok .nop else .error (.reserved .nop)
  | 1 => finish w (vwSet w || field w 80 4 != 0) (field w 60 20 != 0 || field w 48 12 != 0 || field w 16 32 != 0) [] (.fmt (field w 0 16))
  | n => .ok (.undefinedOpcode (BitVec.ofNat 8 n))

/-- Row 1_. -/
def decode1 (lo : Nat) : Except Reject Instr :=
  match lo with
  | 0 => d2 w (.mov (fV w) (fC w) (fD w) (fS1 w))
  | 1 => finish w (vwHigh w) (field w 48 12 != 0) [field w 60 20] (.movi (fV w) (fC w) (fD w) (field w 0 48))
  | 2 => finish w (vwNot w 3) (field w 48 12 != 0 || field w 16 32 != 0) [field w 60 20] (.movhi (fC w) (fD w) (field w 0 16))
  | 3 => d2 w (.lea (fV w) (fC w) (fD w) (fS1 w))
  | 4 => d3 w (.add (fV w) (fC w) (fD w) (fS1 w) (fS2 w))
  | 5 => d3 w (.sub (fV w) (fC w) (fD w) (fS1 w) (fS2 w))
  | 6 => d3 w (.adc (fV w) (fC w) (fD w) (fS1 w) (fS2 w))
  | 7 => d3 w (.sbc (fV w) (fC w) (fD w) (fS1 w) (fS2 w))
  | 8 => d3 w (.mul (fV w) (fC w) (fD w) (fS1 w) (fS2 w))
  | 9 => d3u w (.mulh (fV w) (fC w) (fb w 19) (fD w) (fS1 w) (fS2 w))
  | 10 => d3u w (.div (fV w) (fC w) (fb w 19) (fD w) (fS1 w) (fS2 w))
  | 11 => d3u w (.rem (fV w) (fC w) (fb w 19) (fD w) (fS1 w) (fS2 w))
  | 12 => d3 w (.and (fV w) (fC w) (fD w) (fS1 w) (fS2 w))
  | 13 => d3 w (.or (fV w) (fC w) (fD w) (fS1 w) (fS2 w))
  | 14 => d3 w (.xor (fV w) (fC w) (fD w) (fS1 w) (fS2 w))
  | _ => d3 w (.andn (fV w) (fC w) (fD w) (fS1 w) (fS2 w))

/-- Row 2_. -/
def decode2 (lo : Nat) : Except Reject Instr :=
  match lo with
  | 0 => d3 w (.shl (fV w) (fC w) (fD w) (fS1 w) (fS2 w))
  | 1 => d3 w (.shr (fV w) (fC w) (fD w) (fS1 w) (fS2 w))
  | 2 => d3 w (.sar (fV w) (fC w) (fD w) (fS1 w) (fS2 w))
  | 3 => d3 w (.rol (fV w) (fC w) (fD w) (fS1 w) (fS2 w))
  | 4 => d2 w (.clz (fV w) (fC w) (fD w) (fS1 w))
  | 5 => d2 w (.ctz (fV w) (fC w) (fD w) (fS1 w))
  | 6 => d2 w (.popc (fV w) (fC w) (fD w) (fS1 w))
  | 7 => m3 w false true true 0 (vwHigh w) [] (.cmp (fV w) (fC w) (fS1 w) (fS2 w))
  | 8 => m3 w false true true 0 (vwHigh w) [] (.tst (fV w) (fC w) (fS1 w) (fS2 w))
  | 9 => d3u w (.min (fV w) (fC w) (fb w 19) (fD w) (fS1 w) (fS2 w))
  | 10 => d3u w (.max (fV w) (fC w) (fb w 19) (fD w) (fS1 w) (fS2 w))
  | 11 => m3 w true true true 0xF (vwHigh w || field w 0 4 == 15#4) [] (.sel (fV w) (fC w) (fD w) (fS1 w) (fS2 w) (condOfCode (field w 0 4)))
  | 12 => m3 w true true false 0x1FFF (vwHigh w) [] (.ext (fV w) (fC w) (fD w) (fS1 w) (fb w 12) (field w 6 6) (field w 0 6))
  | 13 => m3 w true true false 0xFFF (vwHigh w) [] (.ins (fV w) (fC w) (fD w) (fS1 w) (field w 6 6) (field w 0 6))
  | 14 => m3 w true true true 0 (vwNot w 3) [] (.spc (fC w) (fD w) (fS1 w) (fS2 w))
  | _ => .ok (.undefinedOpcode 0x2F)

/-- Row 3_. -/
def decode3 (lo : Nat) : Except Reject Instr :=
  match lo with
  | 0 => d3 w (.vadd (fV w) (fC w) (fD w) (fS1 w) (fS2 w))
  | 1 => d3 w (.vsub (fV w) (fC w) (fD w) (fS1 w) (fS2 w))
  | 2 => d3u w (.vadds (fV w) (fC w) (fb w 19) (fD w) (fS1 w) (fS2 w))
  | 3 => d3u w (.vsubs (fV w) (fC w) (fb w 19) (fD w) (fS1 w) (fS2 w))
  | 4 => d3 w (.vmul (fV w) (fC w) (fD w) (fS1 w) (fS2 w))
  | 5 => d3u w (.vmulh (fV w) (fC w) (fb w 19) (fD w) (fS1 w) (fS2 w))
  | 6 => d3 w (.vmac (fV w) (fC w) (fD w) (fS1 w) (fS2 w))
  | 7 => m3 w true true true 0x80000 (vwNot w 2) [] (.vdot (fC w) (fb w 19) (fD w) (fS1 w) (fS2 w))
  | 8 => d3u w (.vmin (fV w) (fC w) (fb w 19) (fD w) (fS1 w) (fS2 w))
  | 9 => d3u w (.vmax (fV w) (fC w) (fb w 19) (fD w) (fS1 w) (fS2 w))
  | 10 => d2 w (.vabs (fV w) (fC w) (fD w) (fS1 w))
  | 11 => d2 w (.vneg (fV w) (fC w) (fD w) (fS1 w))
  | 12 => d3 w (.vand (fV w) (fC w) (fD w) (fS1 w) (fS2 w))
  | 13 => d3 w (.vor (fV w) (fC w) (fD w) (fS1 w) (fS2 w))
  | 14 => d3 w (.vxor (fV w) (fC w) (fD w) (fS1 w) (fS2 w))
  | _ => d3 w (.vshl (fV w) (fC w) (fD w) (fS1 w) (fS2 w))

/-- Row 4_. -/
def decode4 (lo : Nat) : Except Reject Instr :=
  match lo with
  | 0 => d3 w (.vshr (fV w) (fC w) (fD w) (fS1 w) (fS2 w))
  | 1 => d3 w (.vsar (fV w) (fC w) (fD w) (fS1 w) (fS2 w))
  | 2 => m3 w true true true 0xF (vwHigh w || decide (10 ≤ (field w 0 4).toNat)) [] (.vcmp (fV w) (fC w) (fD w) (fS1 w) (fS2 w) (vcondOf (field w 0 4)))
  | 3 => m3 w true true true (-1) (vwHigh w) [field w 0 20] (.vsel (fV w) (fC w) (fD w) (fS1 w) (fS2 w) (fX w))
  | 4 => d3 w (.vshuf (fV w) (fC w) (fD w) (fS1 w) (fS2 w))
  | 5 => m3 w true true false 0xF (vwHigh w) [] (.vbcast (fV w) (fC w) (fD w) (fS1 w) (field w 0 4))
  | 6 => m3 w true true false 0x7 (vwHigh w) [] (.vred (fV w) (fC w) (fD w) (fS1 w) (redOf (field w 0 3)))
  | 7 => d2 w (.vcvt (fV w) (fC w) (fD w) (fS1 w))
  | 8 => d3u w (.vnarr (fV w) (fC w) (fb w 19) (fD w) (fS1 w) (fS2 w))
  | 9 => m3 w true true false 0x80001 (vwHigh w) [] (.vwide (fV w) (fC w) (fb w 19) (fb w 0) (fD w) (fS1 w))
  | 10 => d3 w (.vfadd (fV w) (fC w) (fD w) (fS1 w) (fS2 w))
  | 11 => d3 w (.vfsub (fV w) (fC w) (fD w) (fS1 w) (fS2 w))
  | 12 => d3 w (.vfmul (fV w) (fC w) (fD w) (fS1 w) (fS2 w))
  | 13 => d3x w 0x3 (.vfma (fV w) (fC w) (fb w 0) (fb w 1) (fD w) (fS1 w) (fS2 w))
  | 14 => d3 w (.vfdiv (fV w) (fC w) (fD w) (fS1 w) (fS2 w))
  | _ => d2 w (.vfsqrt (fV w) (fC w) (fD w) (fS1 w))

/-- Row 5_. -/
def decode5 (lo : Nat) : Except Reject Instr :=
  match lo with
  | 0 => d3 w (.vfmin (fV w) (fC w) (fD w) (fS1 w) (fS2 w))
  | 1 => d3 w (.vfmax (fV w) (fC w) (fD w) (fS1 w) (fS2 w))
  | 2 => d3x w 0x7 (.vfcmp (fV w) (fC w) (fD w) (fS1 w) (fS2 w) (fcondOf (field w 0 3)))
  | 3 => d2 w (.vfrcp (fV w) (fC w) (fD w) (fS1 w))
  | 4 => d2 w (.vfrsq (fV w) (fC w) (fD w) (fS1 w))
  | 5 => d2 w (.vfexp2 (fV w) (fC w) (fD w) (fS1 w))
  | 6 => d2 w (.vflog2 (fV w) (fC w) (fD w) (fS1 w))
  | 7 => d2 w (.vfrnd (fV w) (fC w) (fD w) (fS1 w))
  | 8 => d2 w (.vfcls (fV w) (fC w) (fD w) (fS1 w))
  | n => .ok (.undefinedOpcode (BitVec.ofNat 8 (0x50 + n)))

/-- Row 6_ (R181-R189). -/
def decode6 (lo : Nat) : Except Reject Instr :=
  match lo with
  | 0 => m3 w true true false 0xFFFF (vwHigh w || field w 0 2 == 3#2) []
           (.pack (fV w) (fC w) (fb w 2) (widthOf (field w 0 2)) (field w 3 6) (field w 9 7) (fD w) (fS1 w))
  | 1 => m3 w true true false 0x3FFFC (vwHigh w) []
           (.extr (fV w) (fC w) (fb w 2) (fb w 17) (fb w 16) (field w 3 6) (field w 9 7) (fD w) (fS1 w))
  | 2 => m3 w true true true (if fb w 16 then 0x101FF else 0) (vwHigh w || (fb w 16 && field w 0 2 == 3#2)) []
           (.pmul (fV w) (fC w) (fb w 2) (fb w 16) (widthOf (field w 0 2)) (field w 3 6) (fD w) (fS1 w) (fS2 w))
  | 3 => m3 w true true false 0x1FF (vwNot w 3 || field w 0 2 == 3#2) []
           (.gchk (fC w) (fb w 2) (widthOf (field w 0 2)) (field w 3 6) (fD w) (fS1 w))
  | 4 => m3 w true true true (-1) (vwHigh w) [field w 0 20] (.bprd (fV w) (fC w) (fD w) (fS1 w) (fS2 w) (fX w))
  | 5 => m3 w true true true (-1) (vwHigh w) [field w 0 20] (.bpwr (fV w) (fC w) (fD w) (fS1 w) (fS2 w) (fX w))
  | 6 => d3 w (.scale (fV w) (fC w) (fD w) (fS1 w) (fS2 w))
  | 7 => d3 w (.bexp (fV w) (fC w) (fD w) (fS1 w) (fS2 w))
  | n => .ok (.undefinedOpcode (BitVec.ofNat 8 (0x60 + n)))

/-- Row 7_ (R119, R120, R191). -/
def decode7 (lo : Nat) : Except Reject Instr :=
  match lo with
  | 0 => finish w (vwSet w || decide (9 ≤ (field w 44 4).toNat)) (field w 0 44 != 0) []
           (.br (fC w) (field w 48 32) (if field w 44 4 = 8#4 then none else some (regOf (field w 44 3))))
  | 1 => finish w (vwSet w || decide (8 ≤ (field w 44 4).toNat)) (field w 0 44 != 0) [] (.call (fC w) (field w 48 32) (regOf (field w 44 3)))
  | 2 => dn w false true false 0 (.jmp (fC w) (fS1 w))
  | 3 => dn w true true false 0 (.jmpl (fC w) (fD w) (fS1 w))
  | 4 => finish w (vwSet w || field w 80 4 != 0) (field w 0 28 != 0) [field w 60 20] (.loop (fD w) (field w 28 32))
  | 5 => m3 w false true false 0 (vwSet w || field w 80 4 != 0) [] (.rep (fS1 w))
  | n => .ok (.undefinedOpcode (BitVec.ofNat 8 (0x70 + n)))

/-- Row 8_ (R191). -/
def decode8 (lo : Nat) : Except Reject Instr :=
  match lo with
  | 0 => dn w false false false 0 (.endF (fC w))
  | 1 => finish w (vwSet w) (field w 60 20 != 0 || field w 48 12 != 0 || field w 21 27 != 0) [] (.yield (fC w) (field w 12 9) (field w 0 12))
  | 2 => finish w (vwSet w) (field w 60 20 != 0 || field w 48 12 != 0 || field w 24 24 != 0) [] (.wait (fC w) (field w 0 24))
  | 3 => dn w false true true 0x3F (.send (fC w) (fS1 w) (fS2 w) (if fb w 5 then some (field w 0 5) else none))
  | 4 => dn w false true false 0x7F (.sendn (fC w) (fS1 w) (field w 2 5) (dirOf (field w 0 2)))
  | 5 => dn w true true false 0 (.recv (fC w) (fD w) (fS1 w))
  | 6 => dn w true true false 0 (.chst (fC w) (fD w) (fS1 w))
  | 7 => dn w false true true 0 (.bind (fC w) (fS1 w) (fS2 w))
  | 8 => dn w false true false 0 (.unbind (fC w) (fS1 w))
  | 9 => m3 w true true true (-1) (vwSet w) [field w 0 20] (.rfork (fC w) (fD w) (fS1 w) (fS2 w) (fX w))
  | 10 => dn w true true false 0 (.join (fC w) (fD w) (fS1 w))
  | 11 => dn w false false false 0 (.trig (fC w))
  | 12 => dn w false true true 0 (.prio (fC w) (fS1 w) (fS2 w))
  | n => .ok (.undefinedOpcode (BitVec.ofNat 8 (0x80 + n)))

/-- Row 9_ (R242). -/
def decode9 (lo : Nat) : Except Reject Instr :=
  match lo with
  | 0 => m3 w true true false 0x20 (vwHigh w) [] (.ld (fV w) (fC w) (fb w 5) (fD w) (fS1 w))
  | 1 => m3 w true true false 0x3F (vwHigh w || scopeBad w) [] (.st (fV w) (fC w) (fb w 5) (fOr w) (fSc w) (fD w) (fS1 w))
  | 2 => m3 w true true false 0x3F (vwHigh w || scopeBad w) [] (.lda (fV w) (fC w) (fb w 5) (fOr w) (fSc w) (fD w) (fS1 w))
  | 3 => m3 w true true false 0x1F (vwHigh w || scopeBad w) [] (.stl (fV w) (fC w) (fOr w) (fSc w) (fD w) (fS1 w))
  | 4 => d3 w (.bmov (fV w) (fC w) (fD w) (fS1 w) (fS2 w))
  | 5 => dn w false true false 0xFE0 (.pref (fC w) (fS1 w) (field w 6 6) (fb w 5))
  | 6 => dat w 0x20 (.aadd (fV w) (fC w) (fb w 5) (fOr w) (fSc w) (fD w) (fS1 w) (fS2 w))
  | 7 => dat w 0 (.aand (fV w) (fC w) (fOr w) (fSc w) (fD w) (fS1 w) (fS2 w))
  | 8 => dat w 0 (.aor (fV w) (fC w) (fOr w) (fSc w) (fD w) (fS1 w) (fS2 w))
  | 9 => dat w 0 (.axor (fV w) (fC w) (fOr w) (fSc w) (fD w) (fS1 w) (fS2 w))
  | 10 => dat w 0x40 (.amin (fV w) (fC w) (fb w 6) (fOr w) (fSc w) (fD w) (fS1 w) (fS2 w))
  | 11 => dat w 0x40 (.amax (fV w) (fC w) (fb w 6) (fOr w) (fSc w) (fD w) (fS1 w) (fS2 w))
  | 12 => dat w 0 (.aswp (fV w) (fC w) (fOr w) (fSc w) (fD w) (fS1 w) (fS2 w))
  | 13 => dat w 0 (.acas (fV w) (fC w) (fOr w) (fSc w) (fD w) (fS1 w) (fS2 w))
  | 14 => dat w 0x3E0 (.waita (fV w) (fC w) (field w 5 5) (fOr w) (fSc w) (fD w) (fS1 w) (fS2 w))
  | _ => m3 w false false false 0x1F (vwSet w || scopeBad w) [] (.fence (fC w) (fOr w) (fSc w))

/-- Row A_ (R242, R260). -/
def decodeA (lo : Nat) : Except Reject Instr :=
  match lo with
  | 0 => m3 w true true false 0x3E0 (vwSet w || field w 77 3 != 4#3 || field w 5 2 == 3#2) []
           (.rst (fC w) (fb w 9) (rstOf (field w 7 2)) (widthOf (field w 5 2)) (regOf (field w 74 3)) (fS1 w))
  | 1 => dn w false (!fb w 5) false 0x20 (.l1inv (fC w) (fS1 w) (fb w 5))
  | n => .ok (.undefinedOpcode (BitVec.ofNat 8 (0xA0 + n)))

/-- Row B_ (R242, R267, R278-R284). -/
def decodeB (lo : Nat) : Except Reject Instr :=
  match lo with
  | 0 => en w true true (fb w 0) false 0xB1 false false
           (.copy (fC w) (copyQOf (field w 64 4)) (field w 76 4) (field w 72 4) (if fb w 0 then some (fE1 w) else none) (fb w 7) (fb w 5) (fb w 4))
  | 1 => en w true true true false 0xB0 false false
           (.copyt (fC w) (copyQOf (field w 64 4)) (field w 76 4) (field w 72 4) (fE1 w) (fb w 7) (fb w 5) (fb w 4))
  | 2 => en w true false false true 0 false false (.tcfg (fC w) (field w 76 4))
  | 3 => dn w false false false 0 (.trel (fC w))
  | 4 => en w true false true true 0x1F false false (.tldb (fC w) (field w 76 4) (fE1 w) (fb w 4) (field w 0 4))
  | 5 => en w true false true true 0xFFFFFF (field w 0 2 == 3#2) false
           (.tmul (fC w) (field w 76 4) (fE1 w) (fb w 23) (fb w 22) (field w 10 12) (field w 3 7) (fb w 2) (accOf (field w 0 2)))
  | 6 => en w true true true true 0x7FFFFF (field w 0 2 == 3#2) false
           (.tpoly (fC w) (field w 76 4) (field w 72 4) (fE1 w) (fb w 22) (field w 10 12) (fb w 9) (field w 3 6) (fb w 2) (modeOf (field w 0 2)))
  | 7 => en w false false true true 0x1FFFF false false (.tdrn (fC w) (fE1 w) (fb w 16) (field w 8 8) (field w 0 8))
  | 8 => dn w false false false 0xF (.qfence (fC w) (field w 0 4))
  | 9 => dn w false true false 0 (.dist (fC w) (fS1 w))
  | n => .ok (.undefinedOpcode (BitVec.ofNat 8 (0xB0 + n)))

/-- Row C_ (R191). -/
def decodeC (lo : Nat) : Except Reject Instr :=
  match lo with
  | 0 => dn w true false false 0x1 (.chkerr (fC w) (fD w) (fb w 0))
  | 1 => dn w (fb w 1) false false 0x3 (.seal (fC w) (fD w) (fb w 1) (fb w 0))
  | 2 => dn w true false false 0 (.drift (fC w) (fD w))
  | 8 => finish w (vwSet w) (field w 60 20 != 0 || field w 48 12 != 0 || field w 16 32 != 0) [] (.trap (fC w) (field w 0 16))
  | 9 => dn w false false false 0 (.rti (fC w))
  | 10 => finish w (vwSet w) (field w 40 20 != 0 || field w 0 24 != 0) [field w 60 20] (.mfs (fC w) (fD w) (field w 24 16))
  | 11 => finish w (vwSet w) (field w 60 20 != 0 || field w 0 24 != 0) [field w 40 20] (.mts (fC w) (fS1 w) (field w 24 16))
  | 12 => dn w false true true 0x3 (.tlbi (fC w) (fS1 w) (fS2 w) (tlbiOf (field w 0 2)))
  | 13 => dn w false true true 0x1FF (.ctxsv (fC w) (fS1 w) (fS2 w) (field w 0 9))
  | 14 => dn w false true true 0 (.ctxld (fC w) (fS1 w) (fS2 w))
  | 15 => dn w false false false 0 (.idle (fC w))
  | n => .ok (.undefinedOpcode (BitVec.ofNat 8 (0xC0 + n)))

/-- Row D_ (R191). -/
def decodeD (lo : Nat) : Except Reject Instr :=
  match lo with
  | 0 => dn w false true false 0x1 (.sigh (fC w) (fS1 w) (fb w 0))
  | 1 => dn w false true true 0 (.replay (fC w) (fS1 w) (fS2 w))
  | 2 => dn w false true false 0x1 (.killf (fC w) (fS1 w) (fb w 0))
  | 3 => dn w false true true 0 (.place (fC w) (fS1 w) (fS2 w))
  | n => .ok (.undefinedOpcode (BitVec.ofNat 8 (0xD0 + n)))

/-- The instruction of a 96-bit word, or the fault that it raises (R111, R134-R136). Undefined opcodes decode to the row of
their own. -/
def decode : Except Reject Instr :=
  let lo := (field w 88 4).toNat
  match (field w 92 4).toNat with
  | 0 => decode0 w lo
  | 1 => decode1 w lo
  | 2 => decode2 w lo
  | 3 => decode3 w lo
  | 4 => decode4 w lo
  | 5 => decode5 w lo
  | 6 => decode6 w lo
  | 7 => decode7 w lo
  | 8 => decode8 w lo
  | 9 => decode9 w lo
  | 10 => decodeA w lo
  | 11 => decodeB w lo
  | 12 => decodeC w lo
  | 13 => decodeD w lo
  | _ => .ok (.undefinedOpcode (field w 88 8))

end

/-- The instruction whose bits are w (R102): the word that the low 96 bits of w are. -/
def decodeTableWord (nbits w : Nat) : Option Instr :=
  match decode (BitVec.ofNat 96 (w % 2 ^ nbits)) with
  | .ok i => some i
  | .error _ => none

/-! The encoder, from the same tables. -/

/-- VW of a view (R76). -/
def View.code : View → BitVec 4
  | .b => 0 | .h => 1 | .w => 2 | .d => 3 | .q => 4 | .bf => 5 | .f => 6 | .g => 7

/-- PRD of a condition (R113). -/
def Cond.code : Cond → BitVec 4
  | .al => 0 | .eq => 1 | .ne => 2 | .lt => 3 | .ge => 4 | .le => 5 | .gt => 6 | .lo => 7 | .hs => 8 | .mi => 9 | .pl => 10
  | .vs => 11 | .vc => 12 | .gs => 13 | .gc => 14

/-- A register number. -/
def Reg.code (p : Reg) : BitVec 3 := BitVec.ofFin p

/-- The descriptor of an operand (R85). -/
def Opd.code : Opd → BitVec 20
  | .acc => 0
  | .mem p off => 1#3 ++ Reg.code p ++ off
  | .post p off => 2#3 ++ Reg.code p ++ off
  | .pre p off => 3#3 ++ Reg.code p ++ off
  | .preg p => 4#3 ++ Reg.code p ++ 0#14
  | .chan ch pk => 5#3 ++ 0#11 ++ BitVec.ofBool pk ++ ch
  | .imm v => 6#3 ++ 0#3 ++ v
  | .zeros => 7#3 ++ 0#3 ++ 0#14
  | .ones => 7#3 ++ 1#3 ++ 0#14
  | .lanes => 7#3 ++ 2#3 ++ 0#14

/-- Scope codes (R117). -/
def Scope.code : Scope → BitVec 3
  | .core => 0 | .clus => 1 | .sect => 2 | .dom => 3 | .dev => 4 | .sys => 5

/-- Order codes (R117). -/
def Ord.code : Ord → BitVec 2
  | .rlx => 0 | .acq => 1 | .rel => 2 | .ar => 3

/-- COND of VCMP (R169). -/
def VCond.code : VCond → BitVec 4
  | .eq => 0 | .ne => 1 | .lt => 2 | .le => 3 | .gt => 4 | .ge => 5 | .lo => 6 | .ls => 7 | .hi => 8 | .hs => 9

/-- COND of VFCMP (R176). -/
def FCond.code : FCond → BitVec 3
  | .eq => 0 | .ne => 1 | .lt => 2 | .le => 3 | .gt => 4 | .ge => 5 | .un => 6 | .ord => 7

/-- OP of VRED (R171). -/
def RedOp.code : RedOp → BitVec 3
  | .add => 0 | .smin => 1 | .smax => 2 | .umin => 3 | .umax => 4 | .fadd => 5 | .fmin => 6 | .fmax => 7

/-- WC and WID (R181, R260). -/
def EWidth.code : EWidth → BitVec 2
  | .w2 => 0 | .w4 => 1 | .w8 => 2

/-- OP of RST (R260). -/
def RstOp.code : RstOp → BitVec 2
  | .st => 0 | .add => 1 | .or => 2 | .and => 3

/-- DIR (R212). -/
def Dir.code : Dir → BitVec 2
  | .nx => 0 | .pv => 1 | .up => 2 | .dn => 3

/-- TYPE of TLBI (R233). -/
def TlbiType.code : TlbiType → BitVec 2
  | .page => 0 | .pasid => 1 | .nonglobal => 2 | .all => 3

/-- ACC of TMUL (R280). -/
def AccOp.code : AccOp → BitVec 2
  | .overwrite => 0 | .add => 1 | .sub => 2

/-- MODE of TPOLY (R282). -/
def PolyMode.code : PolyMode → BitVec 2
  | .fault => 0 | .saturate => 1 | .carry => 2

/-- QSEL (R242). -/
def CopyQ.code : CopyQ → BitVec 4
  | .q0 => 0 | .q1 => 1 | .q3 => 3

/-- A word of format M3 (R116). -/
def packM3 (opc : BitVec 8) (vw : BitVec 4) (c : Cond) (d s1 s2 x : BitVec 20) : BitVec 96 :=
  opc ++ vw ++ Cond.code c ++ d ++ s1 ++ s2 ++ x

/-- A word of format MI (R116). -/
def packMI (opc : BitVec 8) (vw : BitVec 4) (c : Cond) (d : BitVec 20) (x12 : BitVec 12) (imm : BitVec 48) : BitVec 96 :=
  opc ++ vw ++ Cond.code c ++ d ++ x12 ++ imm

/-- A word of format BR (R116). -/
def packBR (opc : BitVec 8) (c : Cond) (off : BitVec 32) (lnk : BitVec 4) : BitVec 96 :=
  opc ++ 0#4 ++ Cond.code c ++ off ++ lnk ++ 0#44

/-- A word of format LP (R116). -/
def packLP (opc : BitVec 8) (cnt : BitVec 20) (off : BitVec 32) : BitVec 96 := opc ++ 0#8 ++ cnt ++ off ++ 0#28

/-- A word of format EN (R116). -/
def packEN (opc : BitVec 8) (c : Cond) (pa pb q : BitVec 4) (s1 : BitVec 20) (x : BitVec 44) : BitVec 96 :=
  opc ++ 0#4 ++ Cond.code c ++ pa ++ pb ++ 0#4 ++ q ++ s1 ++ x

/-- A word of format SY (R116). -/
def packSY (opc : BitVec 8) (c : Cond) (d s1 : BitVec 20) (sreg : BitVec 16) : BitVec 96 :=
  opc ++ 0#4 ++ Cond.code c ++ d ++ s1 ++ sreg ++ 0#24

/-- UNS in X[19]. -/
def uBit (u : Bool) : BitVec 20 := BitVec.ofBool u ++ 0#19

/-- One flag of X in bit 0. -/
def xFlag (b : Bool) : BitVec 20 := 0#19 ++ BitVec.ofBool b

/-- Order and scope in X (R117) under five bits of the entry's own. -/
def xOS (hi : BitVec 5) (o : Ord) (sc : Scope) : BitVec 20 := 0#10 ++ hi ++ Ord.code o ++ Scope.code sc

/-- Three operands. -/
def e3 (opc : BitVec 8) (v : View) (c : Cond) (d s1 s2 : Opd) (x : BitVec 20) : BitVec 96 :=
  packM3 opc (View.code v) c (Opd.code d) (Opd.code s1) (Opd.code s2) x

/-- Two operands. -/
def e2 (opc : BitVec 8) (v : View) (c : Cond) (d s1 : Opd) (x : BitVec 20) : BitVec 96 :=
  packM3 opc (View.code v) c (Opd.code d) (Opd.code s1) 0 x

/-- The word of an instruction; an event, which has none, gives the zero word. -/
def encode : Instr → BitVec 96
  | .nop => 0
  | .fmt fw => packMI 0x01 0 .al 0 0 (0#32 ++ fw)
  | .mov v c d s1 => e2 0x10 v c d s1 0
  | .movi v c d imm => packMI 0x11 (View.code v) c (Opd.code d) 0 imm
  | .movhi c d imm => packMI 0x12 3 c (Opd.code d) 0 (0#32 ++ imm)
  | .lea v c d s1 => e2 0x13 v c d s1 0
  | .add v c d s1 s2 => e3 0x14 v c d s1 s2 0
  | .sub v c d s1 s2 => e3 0x15 v c d s1 s2 0
  | .adc v c d s1 s2 => e3 0x16 v c d s1 s2 0
  | .sbc v c d s1 s2 => e3 0x17 v c d s1 s2 0
  | .mul v c d s1 s2 => e3 0x18 v c d s1 s2 0
  | .mulh v c u d s1 s2 => e3 0x19 v c d s1 s2 (uBit u)
  | .div v c u d s1 s2 => e3 0x1A v c d s1 s2 (uBit u)
  | .rem v c u d s1 s2 => e3 0x1B v c d s1 s2 (uBit u)
  | .and v c d s1 s2 => e3 0x1C v c d s1 s2 0
  | .or v c d s1 s2 => e3 0x1D v c d s1 s2 0
  | .xor v c d s1 s2 => e3 0x1E v c d s1 s2 0
  | .andn v c d s1 s2 => e3 0x1F v c d s1 s2 0
  | .shl v c d s1 s2 => e3 0x20 v c d s1 s2 0
  | .shr v c d s1 s2 => e3 0x21 v c d s1 s2 0
  | .sar v c d s1 s2 => e3 0x22 v c d s1 s2 0
  | .rol v c d s1 s2 => e3 0x23 v c d s1 s2 0
  | .clz v c d s1 => e2 0x24 v c d s1 0
  | .ctz v c d s1 => e2 0x25 v c d s1 0
  | .popc v c d s1 => e2 0x26 v c d s1 0
  | .cmp v c s1 s2 => packM3 0x27 (View.code v) c 0 (Opd.code s1) (Opd.code s2) 0
  | .tst v c s1 s2 => packM3 0x28 (View.code v) c 0 (Opd.code s1) (Opd.code s2) 0
  | .min v c u d s1 s2 => e3 0x29 v c d s1 s2 (uBit u)
  | .max v c u d s1 s2 => e3 0x2A v c d s1 s2 (uBit u)
  | .sel v c d s1 s2 k => e3 0x2B v c d s1 s2 (0#16 ++ Cond.code k)
  | .ext v c d s1 sgn len pos => e2 0x2C v c d s1 (0#7 ++ BitVec.ofBool sgn ++ len ++ pos)
  | .ins v c d s1 len pos => e2 0x2D v c d s1 (0#8 ++ len ++ pos)
  | .spc c d s1 s2 => e3 0x2E .d c d s1 s2 0
  | .vadd v c d s1 s2 => e3 0x30 v c d s1 s2 0
  | .vsub v c d s1 s2 => e3 0x31 v c d s1 s2 0
  | .vadds v c u d s1 s2 => e3 0x32 v c d s1 s2 (uBit u)
  | .vsubs v c u d s1 s2 => e3 0x33 v c d s1 s2 (uBit u)
  | .vmul v c d s1 s2 => e3 0x34 v c d s1 s2 0
  | .vmulh v c u d s1 s2 => e3 0x35 v c d s1 s2 (uBit u)
  | .vmac v c d s1 s2 => e3 0x36 v c d s1 s2 0
  | .vdot c u d s1 s2 => e3 0x37 .w c d s1 s2 (uBit u)
  | .vmin v c u d s1 s2 => e3 0x38 v c d s1 s2 (uBit u)
  | .vmax v c u d s1 s2 => e3 0x39 v c d s1 s2 (uBit u)
  | .vabs v c d s1 => e2 0x3A v c d s1 0
  | .vneg v c d s1 => e2 0x3B v c d s1 0
  | .vand v c d s1 s2 => e3 0x3C v c d s1 s2 0
  | .vor v c d s1 s2 => e3 0x3D v c d s1 s2 0
  | .vxor v c d s1 s2 => e3 0x3E v c d s1 s2 0
  | .vshl v c d s1 s2 => e3 0x3F v c d s1 s2 0
  | .vshr v c d s1 s2 => e3 0x40 v c d s1 s2 0
  | .vsar v c d s1 s2 => e3 0x41 v c d s1 s2 0
  | .vcmp v c d s1 s2 k => e3 0x42 v c d s1 s2 (0#16 ++ VCond.code k)
  | .vsel v c d s1 s2 x => e3 0x43 v c d s1 s2 (Opd.code x)
  | .vshuf v c d s1 s2 => e3 0x44 v c d s1 s2 0
  | .vbcast v c d s1 lane => e2 0x45 v c d s1 (0#16 ++ lane)
  | .vred v c d s1 op => e2 0x46 v c d s1 (0#17 ++ RedOp.code op)
  | .vcvt v c d s1 => e2 0x47 v c d s1 0
  | .vnarr v c u d s1 s2 => e3 0x48 v c d s1 s2 (uBit u)
  | .vwide v c u hi d s1 => e2 0x49 v c d s1 (BitVec.ofBool u ++ 0#18 ++ BitVec.ofBool hi)
  | .vfadd v c d s1 s2 => e3 0x4A v c d s1 s2 0
  | .vfsub v c d s1 s2 => e3 0x4B v c d s1 s2 0
  | .vfmul v c d s1 s2 => e3 0x4C v c d s1 s2 0
  | .vfma v c np na d s1 s2 => e3 0x4D v c d s1 s2 (0#18 ++ BitVec.ofBool na ++ BitVec.ofBool np)
  | .vfdiv v c d s1 s2 => e3 0x4E v c d s1 s2 0
  | .vfsqrt v c d s1 => e2 0x4F v c d s1 0
  | .vfmin v c d s1 s2 => e3 0x50 v c d s1 s2 0
  | .vfmax v c d s1 s2 => e3 0x51 v c d s1 s2 0
  | .vfcmp v c d s1 s2 k => e3 0x52 v c d s1 s2 (0#17 ++ FCond.code k)
  | .vfrcp v c d s1 => e2 0x53 v c d s1 0
  | .vfrsq v c d s1 => e2 0x54 v c d s1 0
  | .vfexp2 v c d s1 => e2 0x55 v c d s1 0
  | .vflog2 v c d s1 => e2 0x56 v c d s1 0
  | .vfrnd v c d s1 => e2 0x57 v c d s1 0
  | .vfcls v c d s1 => e2 0x58 v c d s1 0
  | .pack v c u wc k idx d s1 => e2 0x60 v c d s1 (0#4 ++ idx ++ k ++ BitVec.ofBool u ++ EWidth.code wc)
  | .extr v c u cq fen k idx d s1 =>
      e2 0x61 v c d s1 (0#2 ++ BitVec.ofBool cq ++ BitVec.ofBool fen ++ idx ++ k ++ BitVec.ofBool u ++ 0#2)
  | .pmul v c u fen wc k d s1 s2 =>
      e3 0x62 v c d s1 s2 (0#3 ++ BitVec.ofBool fen ++ 0#7 ++ k ++ BitVec.ofBool u ++ EWidth.code wc)
  | .gchk c u wc k d s1 => e2 0x63 .d c d s1 (0#11 ++ k ++ BitVec.ofBool u ++ EWidth.code wc)
  | .bprd v c d s1 s2 x => e3 0x64 v c d s1 s2 (Opd.code x)
  | .bpwr v c d s1 s2 x => e3 0x65 v c d s1 s2 (Opd.code x)
  | .scale v c d s1 s2 => e3 0x66 v c d s1 s2 0
  | .bexp v c d s1 s2 => e3 0x67 v c d s1 s2 0
  | .br c off lnk => packBR 0x70 c off (match lnk with | none => 8 | some p => 0#1 ++ Reg.code p)
  | .call c off lnk => packBR 0x71 c off (0#1 ++ Reg.code lnk)
  | .jmp c s1 => packM3 0x72 0 c 0 (Opd.code s1) 0 0
  | .jmpl c d s1 => e2 0x73 .b c d s1 0
  | .loop cnt off => packLP 0x74 (Opd.code cnt) off
  | .rep s1 => packM3 0x75 0 .al 0 (Opd.code s1) 0 0
  | .endF c => packM3 0x80 0 c 0 0 0 0
  | .yield c live dl => packMI 0x81 0 c 0 0 (0#27 ++ live ++ dl)
  | .wait c ceil => packMI 0x82 0 c 0 0 (0#24 ++ ceil)
  | .send c s1 s2 rch =>
      packM3 0x83 0 c 0 (Opd.code s1) (Opd.code s2) (match rch with | none => 0 | some ch => 0#14 ++ 1#1 ++ ch)
  | .sendn c s1 dch dir => packM3 0x84 0 c 0 (Opd.code s1) 0 (0#13 ++ dch ++ Dir.code dir)
  | .recv c d s1 => e2 0x85 .b c d s1 0
  | .chst c d s1 => e2 0x86 .b c d s1 0
  | .bind c s1 s2 => packM3 0x87 0 c 0 (Opd.code s1) (Opd.code s2) 0
  | .unbind c s1 => packM3 0x88 0 c 0 (Opd.code s1) 0 0
  | .rfork c d s1 s2 x => e3 0x89 .b c d s1 s2 (Opd.code x)
  | .join c d s1 => e2 0x8A .b c d s1 0
  | .trig c => packM3 0x8B 0 c 0 0 0 0
  | .prio c s1 s2 => packM3 0x8C 0 c 0 (Opd.code s1) (Opd.code s2) 0
  | .ld v c u d s1 => e2 0x90 v c d s1 (0#14 ++ BitVec.ofBool u ++ 0#5)
  | .st v c irv o sc d s1 => e2 0x91 v c d s1 (xOS (0#4 ++ BitVec.ofBool irv) o sc)
  | .lda v c u o sc d s1 => e2 0x92 v c d s1 (xOS (0#4 ++ BitVec.ofBool u) o sc)
  | .stl v c o sc d s1 => e2 0x93 v c d s1 (xOS 0 o sc)
  | .bmov v c d s1 s2 => e3 0x94 v c d s1 s2 0
  | .pref c s1 nl llc => packM3 0x95 0 c 0 (Opd.code s1) 0 (0#8 ++ nl ++ BitVec.ofBool llc ++ 0#5)
  | .aadd v c nz o sc d s1 s2 => e3 0x96 v c d s1 s2 (xOS (0#4 ++ BitVec.ofBool nz) o sc)
  | .aand v c o sc d s1 s2 => e3 0x97 v c d s1 s2 (xOS 0 o sc)
  | .aor v c o sc d s1 s2 => e3 0x98 v c d s1 s2 (xOS 0 o sc)
  | .axor v c o sc d s1 s2 => e3 0x99 v c d s1 s2 (xOS 0 o sc)
  | .amin v c u o sc d s1 s2 => e3 0x9A v c d s1 s2 (xOS (0#3 ++ BitVec.ofBool u ++ 0#1) o sc)
  | .amax v c u o sc d s1 s2 => e3 0x9B v c d s1 s2 (xOS (0#3 ++ BitVec.ofBool u ++ 0#1) o sc)
  | .aswp v c o sc d s1 s2 => e3 0x9C v c d s1 s2 (xOS 0 o sc)
  | .acas v c o sc d s1 s2 => e3 0x9D v c d s1 s2 (xOS 0 o sc)
  | .waita v c tmo o sc d s1 s2 => e3 0x9E v c d s1 s2 (xOS tmo o sc)
  | .fence c o sc => packM3 0x9F 0 c 0 0 0 (xOS 0 o sc)
  | .rst c u op wid p s1 =>
      e2 0xA0 .b c (.preg p) s1 (0#10 ++ BitVec.ofBool u ++ RstOp.code op ++ EWidth.code wid ++ 0#5)
  | .l1inv c s1 all => packM3 0xA1 0 c 0 (Opd.code s1) 0 (0#14 ++ BitVec.ofBool all ++ 0#5)
  | .copy c q pa pb ntf irv dist comb =>
      packEN 0xB0 c pa pb (CopyQ.code q) (match ntf with | none => 0 | some s1 => Opd.code s1)
        (0#36 ++ BitVec.ofBool irv ++ 0#1 ++ BitVec.ofBool dist ++ BitVec.ofBool comb ++ 0#3 ++ BitVec.ofBool ntf.isSome)
  | .copyt c q pa pb s1 irv dist comb =>
      packEN 0xB1 c pa pb (CopyQ.code q) (Opd.code s1) (0#36 ++ BitVec.ofBool irv ++ 0#1 ++ BitVec.ofBool dist ++ BitVec.ofBool comb ++ 0#4)
  | .tcfg c pa => packEN 0xB2 c pa 0 2 0 0
  | .trel c => packM3 0xB3 0 c 0 0 0 0
  | .tldb c pa s1 bank af => packEN 0xB4 c pa 0 2 (Opd.code s1) (0#39 ++ BitVec.ofBool bank ++ af)
  | .tmul c pa s1 bank half arow cb drn acc =>
      packEN 0xB5 c pa 0 2 (Opd.code s1)
        (0#20 ++ BitVec.ofBool bank ++ BitVec.ofBool half ++ arow ++ cb ++ BitVec.ofBool drn ++ AccOp.code acc)
  | .tpoly c pa pb s1 half arow drn k u mode =>
      packEN 0xB6 c pa pb 2 (Opd.code s1)
        (0#21 ++ BitVec.ofBool half ++ arow ++ BitVec.ofBool drn ++ k ++ BitVec.ofBool u ++ PolyMode.code mode)
  | .tdrn c s1 clr nrow frow => packEN 0xB7 c 0 0 2 (Opd.code s1) (0#27 ++ BitVec.ofBool clr ++ nrow ++ frow)
  | .qfence c mask => packM3 0xB8 0 c 0 0 0 (0#16 ++ mask)
  | .dist c s1 => packM3 0xB9 0 c 0 (Opd.code s1) 0 0
  | .chkerr c d kill => packM3 0xC0 0 c (Opd.code d) 0 0 (xFlag kill)
  | .seal c d num wt => packM3 0xC1 0 c (Opd.code d) 0 0 (0#18 ++ BitVec.ofBool num ++ BitVec.ofBool wt)
  | .drift c d => packM3 0xC2 0 c (Opd.code d) 0 0 0
  | .trap c n => packMI 0xC8 0 c 0 0 (0#32 ++ n)
  | .rti c => packM3 0xC9 0 c 0 0 0 0
  | .mfs c d r => packSY 0xCA c (Opd.code d) 0 r
  | .mts c s1 r => packSY 0xCB c 0 (Opd.code s1) r
  | .tlbi c s1 s2 ty => packM3 0xCC 0 c 0 (Opd.code s1) (Opd.code s2) (0#18 ++ TlbiType.code ty)
  | .ctxsv c s1 s2 live => packM3 0xCD 0 c 0 (Opd.code s1) (Opd.code s2) (0#11 ++ live)
  | .ctxld c s1 s2 => packM3 0xCE 0 c 0 (Opd.code s1) (Opd.code s2) 0
  | .idle c => packM3 0xCF 0 c 0 0 0 0
  | .sigh c s1 irv => packM3 0xD0 0 c 0 (Opd.code s1) 0 (xFlag irv)
  | .replay c s1 s2 => packM3 0xD1 0 c 0 (Opd.code s1) (Opd.code s2) 0
  | .killf c s1 drop => packM3 0xD2 0 c 0 (Opd.code s1) 0 (xFlag drop)
  | .place c s1 s2 => packM3 0xD3 0 c 0 (Opd.code s1) (Opd.code s2) 0
  | .undefinedOpcode opc => opc ++ 0#88
  | _ => 0

/-- The 144 instructions, which have a word of their own. -/
def isWord (i : Instr) : Bool := i == .nop || (encode i).extractLsb' 88 8 != 0#8 && !(match i with | .undefinedOpcode _ => true | _ => false)

end Sys2Proof
end

