-- ==== Sys2Proof/Machine/Float.lean ====
section
/-! DEFINITION. Floating point (R37-R46, R173-R178): each operation on exact values, rounded once. -/
namespace Sys2Proof.Machine

/-- A format by its exponent and fraction widths (R37). -/
structure Fmt where
  eb : Nat
  mb : Nat
  deriving DecidableEq, Repr

/-- bfloat16. -/
def bf16 : Fmt := { eb := 8, mb := 7 }
/-- binary32. -/
def f32 : Fmt := { eb := 8, mb := 23 }
/-- binary64. -/
def f64 : Fmt := { eb := 11, mb := 52 }

/-- The lane format of a floating-point view (R76). -/
def fmtOf : View → Fmt
  | .bf => bf16 | .g => f64 | _ => f32

/-- Bias of the exponent. -/
def Fmt.bias (F : Fmt) : Nat := 2 ^ (F.eb - 1) - 1
/-- Width in bits. -/
def Fmt.width (F : Fmt) : Nat := F.eb + F.mb + 1
/-- The sign bit as a number. -/
def Fmt.sign (F : Fmt) (s : Bool) : Nat := if s then 2 ^ (F.eb + F.mb) else 0
/-- The bits of an infinity. -/
def Fmt.inf (F : Fmt) (s : Bool) : Nat := F.sign s + (2 ^ F.eb - 1) * 2 ^ F.mb
/-- The bits of the largest finite value. -/
def Fmt.maxFin (F : Fmt) (s : Bool) : Nat := F.inf s - 1
/-- The canonical quiet NaN (R40). -/
def Fmt.nan (F : Fmt) : Nat := F.inf false + 2 ^ (F.mb - 1)

/-- The value of some bits: a NaN, signalling or not; an infinity; zero; or m × 2^e with m above zero. -/
inductive FVal where
  | nan (sig : Bool)
  | inf (s : Bool)
  | zero (s : Bool)
  | fin (s : Bool) (m : Nat) (e : Int)
  deriving DecidableEq, Repr

/-- The sticky flags of R41 in the order of STAT[39:35]: invalid, divide-by-zero, overflow, underflow, inexact. -/
abbrev FFlags := BitVec 5
/-- invalid. -/
def fInv : FFlags := 16
/-- divide-by-zero. -/
def fDz : FFlags := 8
/-- overflow. -/
def fOvf : FFlags := 4
/-- underflow. -/
def fUnd : FFlags := 2
/-- inexact. -/
def fInx : FFlags := 1

/-- Read the bits of a format (R37, R40). -/
def Fmt.unpack (F : Fmt) (x : Nat) : FVal :=
  let s := x / 2 ^ (F.eb + F.mb) % 2 == 1
  let ex := x / 2 ^ F.mb % 2 ^ F.eb
  let fr := x % 2 ^ F.mb
  if ex = 2 ^ F.eb - 1 then (if fr = 0 then .inf s else .nan (decide (fr < 2 ^ (F.mb - 1))))
  else if ex = 0 then (if fr = 0 then .zero s else .fin s fr (1 - (F.bias : Int) - F.mb))
  else .fin s (2 ^ F.mb + fr) ((ex : Int) - F.bias - F.mb)

/-- Whether a magnitude is rounded away from zero (R39): its last kept bit, the bit below, and whether anything lies lower. -/
def roundUp (rm : Nat) (s odd half low : Bool) : Bool :=
  match rm with
  | 0 => half && (low || odd)
  | 1 => false
  | 2 => !s && (half || low)
  | _ => s && (half || low)

/-- Number of bits of a magnitude. -/
def bitLen (m : Nat) : Nat := if m = 0 then 0 else Nat.log2 m + 1

/-- A magnitude shifted right by `sh` and rounded (R39); `sticky` says that the exact value lies above m by less than one.
Answers the rounded magnitude and whether it differs from the exact value. -/
def shiftRound (rm : Nat) (s : Bool) (m sh : Nat) (sticky : Bool) : Nat × Bool :=
  if bitLen m + 2 < sh then
    let x := decide (m ≠ 0) || sticky
    (if roundUp rm s false false x then 1 else 0, x)
  else
    let q := m / 2 ^ sh
    let half := decide (sh ≠ 0) && (m / 2 ^ (sh - 1) % 2 == 1)
    let low := decide (m % 2 ^ (sh - 1) ≠ 0 ∧ sh ≠ 0) || sticky
    (q + (if roundUp rm s (q % 2 == 1) half low then 1 else 0), half || low)

/-- Round m × 2^e, m above zero, into a format (R38, R41, R42). -/
def Fmt.round (F : Fmt) (rm : Nat) (s : Bool) (m : Nat) (e : Int) (sticky : Bool) : Nat × FFlags :=
  let top : Int := e + (bitLen m : Int) - 1
  let emin : Int := 1 - (F.bias : Int)
  let past : Nat × FFlags :=
    (match rm with
     | 0 => F.inf s
     | 1 => F.maxFin s
     | 2 => if s then F.maxFin s else F.inf s
     | _ => if s then F.inf s else F.maxFin s, fOvf ||| fInx)
  if top > (F.bias : Int) then past
  else
    let q0 : Int := top - F.mb                       -- quantum with an unbounded exponent
    let qmin : Int := emin - F.mb
    let q : Int := max q0 qmin
    let at_ (q : Int) : Nat × Bool :=
      if q ≤ e then (m * 2 ^ (e - q).toNat + (if roundUp rm s (m * 2 ^ (e - q).toNat % 2 == 1) false sticky then 1 else 0), sticky)
      else shiftRound rm s m (q - e).toNat sticky
    let (r, inx) := at_ q
    let ru := (at_ q0).1
    let tiny : Bool := decide (q0 < qmin) && !decide (ru = 2 ^ (F.mb + 1) ∧ q0 + 1 = qmin)
    let mag := if q = qmin then r else r + (q - qmin).toNat * 2 ^ F.mb
    if mag ≥ F.inf false then past
    else (F.sign s + mag, (if inx then fInx else 0) ||| (if inx && tiny then fUnd else 0))

/-- A zero of a sign. -/
def Fmt.zero (F : Fmt) (s : Bool) : Nat := F.sign s

/-- The canonical NaN with invalid. -/
def Fmt.bad (F : Fmt) : Nat × FFlags := (F.nan, fInv)

/-- Whether a value is a NaN, and whether it signals. -/
def FVal.isNan : FVal → Bool
  | .nan _ => true
  | _ => false
/-- A signalling NaN. -/
def FVal.isSig : FVal → Bool
  | .nan g => g
  | _ => false

/-- The flag of signalling operands (R40). -/
def sigFlag (xs : List FVal) : FFlags := if xs.any FVal.isSig then fInv else 0

/-- m × 2^e as a signed multiple of 2^q, q at most e. -/
def scaled (s : Bool) (m : Nat) (e q : Int) : Int :=
  let v : Int := (m * 2 ^ (e - q).toNat : Nat)
  if s then -v else v

/-- The sign of a zero sum (R173). -/
def zeroSign (rm : Nat) (a b : Bool) : Bool := if a == b then a else rm == 3

/-- Round an exact dyadic sum; an exact zero takes the sign given. -/
def Fmt.roundInt (F : Fmt) (rm : Nat) (v q : Int) (zs : Bool) : Nat × FFlags :=
  if v = 0 then (F.zero zs, 0) else F.round rm (decide (v < 0)) v.natAbs q false

/-- a + b on values (R173). -/
def Fmt.addV (F : Fmt) (rm : Nat) (a b : FVal) : Nat × FFlags :=
  match a, b with
  | .nan _, _ | _, .nan _ => (F.nan, sigFlag [a, b])
  | .inf s, .inf t => if s == t then (F.inf s, 0) else F.bad
  | .inf s, _ => (F.inf s, 0)
  | _, .inf t => (F.inf t, 0)
  | .zero s, .zero t => (F.zero (zeroSign rm s t), 0)
  | .zero _, .fin t m e => F.round rm t m e false
  | .fin s m e, .zero _ => F.round rm s m e false
  | .fin s m e, .fin t n f =>
      let q := min e f
      F.roundInt rm (scaled s m e q + scaled t n f q) q (rm == 3)

/-- The value with its sign changed. -/
def FVal.neg : FVal → FVal
  | .nan g => .nan g
  | .inf s => .inf !s
  | .zero s => .zero !s
  | .fin s m e => .fin (!s) m e

/-- The exact product, or none for ∞ × 0. -/
def mulExact (a b : FVal) : Option FVal :=
  match a, b with
  | .nan g, .nan h => some (.nan (g || h))
  | .nan g, _ | _, .nan g => some (.nan g)
  | .inf _, .zero _ | .zero _, .inf _ => none
  | .inf s, .inf t | .inf s, .fin t _ _ | .fin s _ _, .inf t => some (.inf (s != t))
  | .zero s, .zero t | .zero s, .fin t _ _ | .fin s _ _, .zero t => some (.zero (s != t))
  | .fin s m e, .fin t n f => some (.fin (s != t) (m * n) (e + f))

/-- a × b on values (R173). -/
def Fmt.mulV (F : Fmt) (rm : Nat) (a b : FVal) : Nat × FFlags :=
  match mulExact a b with
  | none => F.bad
  | some (.nan _) => (F.nan, sigFlag [a, b])
  | some (.inf s) => (F.inf s, 0)
  | some (.zero s) => (F.zero s, 0)
  | some (.fin s m e) => F.round rm s m e false

/-- c + a × b with one rounding (R174); ∞ × 0 is invalid even when c is a quiet NaN. -/
def Fmt.fmaV (F : Fmt) (rm : Nat) (c a b : FVal) : Nat × FFlags :=
  match mulExact a b with
  | none => F.bad
  | some p => if p.isNan || c.isNan then (F.nan, sigFlag [a, b, c]) else F.addV rm c p

/-- a / b on values (R173). The quotient is formed to more bits than the format holds, with a sticky remainder. -/
def Fmt.divV (F : Fmt) (rm : Nat) (a b : FVal) : Nat × FFlags :=
  match a, b with
  | .nan _, _ | _, .nan _ => (F.nan, sigFlag [a, b])
  | .inf _, .inf _ | .zero _, .zero _ => F.bad
  | .inf s, .zero t | .inf s, .fin t _ _ => (F.inf (s != t), 0)
  | .zero s, .inf t | .zero s, .fin t _ _ | .fin s _ _, .inf t => (F.zero (s != t), 0)
  | .fin s _ _, .zero t => (F.inf (s != t), fDz)
  | .fin s m e, .fin t n f =>
      let k := bitLen n + F.mb + 4
      let x := m * 2 ^ k
      F.round rm (s != t) (x / n) (e - f - k) (x % n != 0)

/-- Integer square root, one bit at a time from bit `k`. -/
def isqrtFrom (x : Nat) : Nat → Nat → Nat
  | 0, r => if (r + 1) * (r + 1) ≤ x then r + 1 else r
  | k + 1, r => isqrtFrom x k (if (r + 2 ^ (k + 1)) * (r + 2 ^ (k + 1)) ≤ x then r + 2 ^ (k + 1) else r)

/-- Integer square root. -/
def isqrt (x : Nat) : Nat := isqrtFrom x (bitLen x / 2 + 1) 0

/-- √a on values (R173). -/
def Fmt.sqrtV (F : Fmt) (rm : Nat) (a : FVal) : Nat × FFlags :=
  match a with
  | .nan _ => (F.nan, sigFlag [a])
  | .zero s => (F.zero s, 0)
  | .inf s => if s then F.bad else (F.inf false, 0)
  | .fin s m e =>
      if s then F.bad
      else
        let k := 2 * (F.mb + 4) + (if e % 2 = 0 then 0 else 1)
        let x := m * 2 ^ k
        let r := isqrt x
        F.round rm false r ((e - k) / 2) (r * r != x)

/-- 1/a (R177). -/
def Fmt.rcpV (F : Fmt) (rm : Nat) (a : FVal) : Nat × FFlags := F.divV rm (.fin false 1 0) a

/-- 1/√a (R177): the root is taken of the reciprocal, to more bits than the format holds. -/
def Fmt.rsqV (F : Fmt) (rm : Nat) (a : FVal) : Nat × FFlags :=
  match a with
  | .nan _ => (F.nan, sigFlag [a])
  | .zero s => (F.inf s, fDz)
  | .inf s => if s then F.bad else (F.zero false, 0)
  | .fin s m e =>
      if s then F.bad
      else
        let k := 2 * (F.mb + 4) + bitLen m + (if (bitLen m : Int) % 2 = e % 2 then 0 else 1)
        let x := 2 ^ k
        let q := x / m
        let r := isqrt q
        F.round rm false r ((-e - k) / 2) (decide (r * r * m ≠ x))

/-- floor(ln 2 × 2^320). -/
def ln2 : Nat := 0xb17217f7d1cf79abc9e3b39803f2f6af40f343267298b62d8a0d175b8baafa2be7b876206debac98

/-- A lower bound of exp(x) at 320 fraction bits, from the Taylor terms n to n + fuel; t is the last term. -/
def expSum (x : Nat) : Nat → Nat → Nat → Nat
  | 0, _, _ => 0
  | fuel + 1, n, t => t + expSum x fuel (n + 1) (t * x / 2 ^ 320 / (n + 1))

/-- 2^a (R177). The fraction part is formed to 320 bits (log entry 8). -/
def Fmt.exp2V (F : Fmt) (rm : Nat) (a : FVal) : Nat × FFlags :=
  match a with
  | .nan _ => (F.nan, sigFlag [a])
  | .zero _ => (F.bias * 2 ^ F.mb, 0)
  | .inf s => if s then (F.zero false, 0) else (F.inf false, 0)
  | .fin s m e =>
      let d := if e < 0 then (-e).toNat else 0
      let v : Int := scaled s m e (min e 0)
      let n := v / (2 ^ d : Nat)
      let f := (v % (2 ^ d : Nat)).toNat
      if f = 0 then F.round rm false 1 n false
      else
        let f320 := if d ≤ 320 then f * 2 ^ (320 - d) else f / 2 ^ (d - 320)
        F.round rm false (expSum (f320 * ln2 / 2 ^ 320) 90 0 (2 ^ 320)) (n - 320) true

/-- The next bits of log2 of y, which has 512 fraction bits and lies in [1, 2). -/
def log2Bits : Nat → Nat → Nat → Nat
  | 0, _, acc => acc
  | fuel + 1, y, acc =>
      let z := y * y / 2 ^ 512
      if z ≥ 2 ^ 513 then log2Bits fuel (z / 2) (2 * acc + 1) else log2Bits fuel z (2 * acc)

/-- log2 a (R177). The fraction is formed to 224 bits (log entry 8). -/
def Fmt.log2V (F : Fmt) (rm : Nat) (a : FVal) : Nat × FFlags :=
  match a with
  | .nan _ => (F.nan, sigFlag [a])
  | .zero _ => (F.inf true, fDz)
  | .inf s => if s then F.bad else (F.inf false, 0)
  | .fin s m e =>
      if s then F.bad
      else
        let k := bitLen m - 1
        let x : Int := e + k
        if m = 2 ^ k then
          (if x = 0 then (F.zero false, 0) else F.round rm (decide (x < 0)) x.natAbs 0 false)
        else
          let y := m * 2 ^ (512 - k)
          let v : Int := x * (2 ^ 224 : Nat) + log2Bits 224 y 0
          if v < 0 then F.round rm true (v.natAbs - 16) (-224) true else F.round rm false v.natAbs (-224) true

/-- The magnitude of a value rounded to an integer, and whether it differs (R46). -/
def intMag (rm : Nat) (s : Bool) (m : Nat) (e : Int) : Nat × Bool :=
  if 0 ≤ e then (m * 2 ^ e.toNat, false) else shiftRound rm s m (-e).toNat false

/-- a rounded to an integral value (R173). -/
def Fmt.rndV (F : Fmt) (rm : Nat) (a : FVal) : Nat × FFlags :=
  match a with
  | .nan _ => (F.nan, sigFlag [a])
  | .zero s => (F.zero s, 0)
  | .inf s => (F.inf s, 0)
  | .fin s m e =>
      let (r, inx) := intMag rm s m e
      ((if r = 0 then F.zero s else (F.round rm s r 0 false).1), if inx then fInx else 0)

/-- A value brought into a format (R45). -/
def Fmt.ofVal (F : Fmt) (rm : Nat) (a : FVal) : Nat × FFlags :=
  match a with
  | .nan _ => (F.nan, sigFlag [a])
  | .zero s => (F.zero s, 0)
  | .inf s => (F.inf s, 0)
  | .fin s m e => F.round rm s m e false

/-- A value times a power of two. -/
def FVal.mul2 (a : FVal) (k : Int) : FVal :=
  match a with
  | .fin s m e => .fin s m (e + k)
  | x => x

/-- An integer as a value. -/
def FVal.ofInt (x : Int) : FVal := if x = 0 then .zero false else .fin (decide (x < 0)) x.natAbs 0

/-- A value converted to an n-bit signed integer (R45). -/
def toIntSat (rm n : Nat) (a : FVal) : Int × FFlags :=
  match a with
  | .nan _ => (0, fInv)
  | .zero _ => (0, 0)
  | .inf s => (if s then -(2 ^ (n - 1) : Nat) else (2 ^ (n - 1) : Nat) - 1, fInv)
  | .fin s m e =>
      let hi : Int := (2 ^ (n - 1) : Nat) - 1
      let lo : Int := -(2 ^ (n - 1) : Nat)
      if e + (bitLen m : Int) > n + 2 then (if s then lo else hi, fInv)
      else
        let (r, inx) := intMag rm s m e
        let v : Int := if s then -(r : Int) else r
        if v < lo then (lo, fInv) else if v > hi then (hi, fInv) else (v, if inx then fInx else 0)

/-- The order of two values, neither a NaN; zeros of either sign are equal. -/
def FVal.lt (a b : FVal) : Bool :=
  let num (x : FVal) (q : Int) : Int := match x with
    | .fin s m e => scaled s m e q
    | _ => 0
  match a, b with
  | .inf s, .inf t => s && !t
  | .inf s, _ => s
  | _, .inf t => !t
  | .fin s m e, .fin t n f => let q := min e f; decide (num (.fin s m e) q < num (.fin t n f) q)
  | .fin s _ _, _ => s
  | _, .fin t _ _ => !t
  | _, _ => false

/-- VFMIN, or VFMAX when `mx` (R175): the sign of zero counts. -/
def Fmt.minV (F : Fmt) (mx : Bool) (x y : Nat) : Nat × FFlags :=
  let a := F.unpack x
  let b := F.unpack y
  let fl := sigFlag [a, b]
  match a, b with
  | .nan _, .nan _ => (F.nan, fl)
  | .nan _, _ => (y, fl)
  | _, .nan _ => (x, fl)
  | .zero s, .zero _ => (if s != mx then x else y, fl)
  | _, _ => (if a.lt b != mx then x else y, fl)

/-- VFCMP of one lane (R176). -/
def fcmp (c : FCond) (a b : FVal) : Bool × FFlags :=
  let un := a.isNan || b.isNan
  let eq := !un && !a.lt b && !b.lt a
  let quiet := sigFlag [a, b]
  let ordered := if un then fInv else 0
  match c with
  | .eq => (eq, quiet)
  | .ne => (!eq, quiet)
  | .lt => (!un && a.lt b, ordered)
  | .le => (!un && !b.lt a, ordered)
  | .gt => (!un && b.lt a, ordered)
  | .ge => (!un && !a.lt b, ordered)
  | .un => (un, quiet)
  | .ord => (!un, quiet)

/-- VFCLS of one lane (R178). -/
def Fmt.cls (F : Fmt) (x : Nat) : Nat :=
  let sub := x / 2 ^ F.mb % 2 ^ F.eb == 0
  2 ^ (match F.unpack x with
    | .inf s => if s then 0 else 7
    | .fin s _ _ => if s then (if sub then 2 else 1) else (if sub then 5 else 6)
    | .zero s => if s then 3 else 4
    | .nan g => if g then 8 else 9)

end Sys2Proof.Machine
end

