-- ==== Sys2Proof/Machine/State.lean ====
section
/-! DEFINITION. The state of the whole KZ-8 as plain data: contexts, cores, clusters, sectors, domains, memory, hub. -/
namespace Sys2Proof.Machine

/-- A sparse store: key and value pairs with strictly rising keys, no value equal to what an unlisted key reads as. -/
abbrev Map (α : Type) := List (Nat × α)

/-- Kinds of access (R379). -/
inductive Acc where
  | read | write | atomic | fetch
  deriving DecidableEq, Repr

/-- What a fault carries to its record (R376): code, address, access code, record kind (0 ended, 2 deferred), and for a
deferred fault its class, merged count, tile status and tile id. -/
structure FaultInfo where
  code : BitVec 8
  addr : Word
  acc : BitVec 2
  kind : BitVec 2
  dcl : BitVec 2
  merged : BitVec 8
  status : BitVec 8
  tid : BitVec 16
  deriving DecidableEq, Repr

/-- A pending deferred fault of one class (R209). -/
structure DefFault where
  code : BitVec 8
  addr : Word
  merged : BitVec 8
  status : BitVec 8
  tid : BitVec 16
  deriving DecidableEq, Repr

/-- The atomic operations (R256). -/
inductive AtomOp where
  | add | and | or | xor | min | max | umin | umax | swp | cas
  deriving DecidableEq, Repr

/-- An atomic on its way to its home (R256): where it acts, its operand, the expected value of ACAS, orders, notify. -/
structure AtomReq where
  va : Word
  pa : Nat              -- G: physical key; S, W, X, Y: offset
  op : AtomOp
  bytes : Nat           -- 4 or 8
  operand : Word
  expected : Word
  ord : Ord
  sc : Scope
  rel : Option Scope    -- its release: by its order, or by an earlier FENCE (R259)
  nz : Bool
  ntgt : BitVec 32
  pois : Bool           -- an operand was poisoned
  trk : Bool            -- the tracking claim of its page (R413)
  stamp : BitVec 32
  deriving DecidableEq, Repr

/-- A wait on an address (R258). -/
structure WaitaReq where
  va : Word
  pa : Nat
  bytes : Nat
  cmp : Word
  tmo : BitVec 5
  acq : Option Scope
  trk : Bool
  since : Nat
  woken : Bool          -- a write to the line was performed after the watch was registered
  deriving DecidableEq, Repr

/-- Where a context parks (R72). -/
inductive Park where
  | load (va : Word) (pa n : Nat) (home : Bool) (acq : Option Scope) (nc trk : Bool)
  | walk (va : Nat) (k : Acc)
  | atomic (r : AtomReq)
  | wait
  | waita (r : WaitaReq)
  | fence
  | seal (d : BitVec 32)
  | fault (cam va : Nat) (k : Acc) -- on fault-queue entry cam, code 0x10 or 0x12, for an access
  | camWait (va : Nat) (code : BitVec 8) (k : Acc)   -- the CAM is full (R385)
  | trap (cam : Nat)
  | trapWait (n : BitVec 16)    -- a TRAP while the CAM is full
  | engine                      -- TCFG, TREL
  | service                     -- TLBI, CTXSV, COPYT or BIND waiting for its end
  | stall                       -- a CNT field at 63 or a full queue (R94, R329, R337)
  | finish                      -- END, JOIN or a YIELD save waiting for CNT (R203, R205)
  | forever                     -- a fault at PRIV 2 (R374)
  deriving DecidableEq, Repr

/-- The three context states of R72, and the two ways a firing is on its way out while its started engine commands
complete (R302 step 1, R372 step 1). -/
inductive Status where
  | dormant
  | issuing
  | parked (p : Park)
  | ending (f : FaultInfo) (irv : Bool)       -- irv: CIR.IRV at the fault (R376)
  | killing (cause : BitVec 8) (drop : Bool)
  deriving DecidableEq, Repr

/-- A token with its tag (R295), its folded signature (R356), poison of its slot (R398), redelivery count (R399), the
sender's PASID and actor address (R211, R376), its refusal channel (R210) and its credit (R296). -/
structure Token where
  payload : Quad
  tag : Word
  sig : Word
  pois : Bool
  redeliv : Nat
  pasid : BitVec 20
  sender : BitVec 32
  refCh : Option (BitVec 5)
  cred : Bool            -- it uses a reserved credit of its producer (R296)
  own : Option Nat       -- the launch slot that it was sent to, once it lies in a channel store (R312)
  row : Option Nat       -- a drain token: the number of the row slot that it names (R286)
  deriving DecidableEq, Repr

/-- What a token in flight is, for the delivery rules (R211, R212, R296, R257, R269, R285, R297, R375): `event` comes from the IRT, `hub` is a
start, resume or connection token. -/
inductive TokKind where
  | send | sendn | refusal | notify | copied | drain | event | hub | record
  deriving DecidableEq, Repr

/-- Where a token goes: an actor address to be routed, or a channel of a core. -/
inductive Dest where
  | addr (a : BitVec 32)
  | chan (core : Nat) (ch : BitVec 5)
  deriving DecidableEq, Repr

/-- The IRT entry with OWN 3 that an event was sent under, as it stood then (R389, R392): source, escalation time, vector. -/
structure EscInfo where
  src : Nat
  esc : Nat
  vec : Nat
  deriving DecidableEq, Repr

/-- A token in flight. `second` is the second half of a fault record (R375). -/
structure Flight where
  tok : Token
  kind : TokKind
  src : Nat                 -- core number of the sender; 2048 for the hub
  dest : Dest
  second : Option Token
  esc : Option EscInfo      -- the IRT entry with OWN 3 that it was sent under (R389)
  deriving DecidableEq, Repr

/-- Items of the outbox (R194, R304). -/
inductive OutItem where
  | tok (t : Token) (dest : BitVec 32) (rch : Option (BitVec 5))
  | nbr (t : Token) (dch : BitVec 5) (dir : Dir)
  | bind (img : BitVec 256) (ch : Nat)
  | unbind (ch : Nat)
  | fork (n m e j : Word) (chunks : Nat) (ps : List Word) (key : Nat) (trk : Bool)
  deriving DecidableEq, Repr

/-- A journal entry (R302): the old 16-byte word, its offset and its space (1 W, 2 X, 3 Y), with its poison mark. -/
structure JEntry where
  space : Nat
  word : Nat
  old : List Byte
  pois : Bool
  deriving DecidableEq, Repr

/-- A G store that has retired and is not yet performed (R249). -/
structure GStore where
  pa : Nat
  va : Word
  bytes : List Byte
  stamp : BitVec 32
  irv : Bool
  rel : Option Scope
  sig : BitVec 256
  pois : Bool
  trk : Bool
  trig : Bool              -- the context has made a TRIG since (R224)
  seq : Nat                -- its place among the accesses of its core
  deriving DecidableEq, Repr

/-- An asynchronous load into a buffer (R247). -/
structure ALoad where
  pa : Nat
  va : Word
  n : Nat
  space : Nat
  off : Nat
  trk : Bool
  nc : Bool                 -- its page is not cached (R346)
  pois : Bool               -- a pointer register was poisoned (R149)
  seq : Nat                 -- its place among the accesses of its core
  deriving DecidableEq, Repr

/-- An RST on its way (R260). -/
structure RstMsg where
  core : Nat
  space : Nat
  elem : Nat
  w : Nat
  u : Bool
  op : RstOp
  val : BitVec 8
  pois : Bool
  trig : Bool
  seq : Nat                 -- its place among the accesses of its core
  deriving DecidableEq, Repr

/-- A datum that arrived for the parked instruction: a G read, an atomic's old value, a WAITA value, keyed by address and size. -/
structure Landed where
  va : Word
  n : Nat
  val : Quad
  pois : Bool
  flag : Bool        -- WAITA: timed out; ACAS: stored
  atom : Bool        -- an atomic's old value or a WAITA value
  eq : Bool          -- WAITA: the value equals the comparand that it waited with (R258)
  deriving DecidableEq, Repr

/-- An engine command of the context that has not completed (R264, R287, R302 step 1). -/
structure OutCmd where
  seq : Nat
  queues : BitVec 4
  started : Bool
  writesG : Bool
  deriving DecidableEq, Repr

/-- What kind of firing a context holds (R222, R223, R300). -/
inductive FiringKind where
  | actor (ch : BitVec 5)
  | chunk (i : Nat) (n m e j : Word) (ps : List Word) (node : Nat)
  | cont (pc : Word) (a : Quad) (ps : List Word)
  deriving DecidableEq, Repr

/-- A hardware context (R74), its firing (R100, R302), and what it has in flight. -/
structure Ctx where
  status : Status
  a : Quad
  p : Vector Word 8
  stat : Word
  cir : BitVec 16
  cira : Word
  cnt : BitVec 24
  ntgt : BitVec 32
  pc : Word
  btgt : Word
  lbeg0 : Word
  lend0 : Word
  lcnt0 : Word
  lbeg1 : Word
  lend1 : Word
  lcnt1 : Word
  mtpc : Word
  mtst : Word
  mtvec : Option Word      -- none: as boot left it (R231, R459 step 5)
  mtcode : BitVec 16
  aPois : Bool
  pPois : BitVec 8
  dleft : Nat              -- retired instructions left before the YIELD deadline (R206)
  dl : Nat                 -- the YIELD deadline in force (R100)
  dlEntry : Nat            -- the deadline of the entry that woke the first firing (R223)
  taken : Bool             -- the pending branch was taken (R131)
  linked : Bool            -- the pending transfer writes a link (R197)
  tgtCheck : Bool          -- PC was reached by a transfer or a wake that needs TGT (R131)
  endTest : Bool           -- the slot at LEND has retired; LOOP_END_TEST is due (R199)
  kind : FiringKind
  level : Nat              -- the placement level at which it forks (R220)
  pasid : BitVec 20
  lslot : BitVec 12
  inst : BitVec 11
  live : BitVec 9
  ch0 : BitVec 5
  ch1 : Option (BitVec 5)
  c0 : Nat
  c1 : Nat
  prate : Nat
  pop0 : Nat
  pop1 : Nat
  produced : Nat
  quota0 : List Token
  quota1 : List Token
  credits : Nat            -- reserved credits not yet used (R296)
  oedge : BitVec 32
  outbox : List OutItem
  journal : List JEntry
  sig : BitVec 256
  relNext : Option Scope   -- a FENCE with rel is pending for the next store (R259)
  defLD : Option DefFault
  defST : Option DefFault
  defCP : Option DefFault
  defTL : Option DefFault
  engG : Bool              -- a command that writes G has completed in class CP and no WAIT has covered it (R353)
  engT : Bool              -- the same for class TL
  preempt : Bool           -- the scheduler has requested pre-emption (R205)
  stq : List GStore
  aldq : List ALoad
  rstq : List RstMsg
  landed : List Landed
  cmds : List OutCmd
  cmdSeq : Nat
  qfences : List (Nat × BitVec 4)
  parkedAt : Nat           -- `now` when it parked (R317)
  bmov : Nat               -- bytes that the BMOV in progress has moved (R252)
  pairBad : Bool           -- the instruction is the first of an illegal pair (R124): PSERC counts it when it retires
  free : Bool              -- the firing belongs to no launch: the service firmware that boot started (R459)
  deriving DecidableEq, Repr

/-- A token channel of a core with its handler entry (R292), mask bit (R218) and wait count (R299). -/
structure Chan where
  toks : List Token
  entry : BitVec 256
  masked : Bool
  prio : Option (BitVec 3)  -- the priority that PRIO has set in the entry since it was bound (R218)
  since : Nat               -- `now` since which the handler has been runnable, or was last selected (R299)
  deriving DecidableEq, Repr

/-- A cached translation (R378, R380, R381): what one 16 KiB page (or one 4 KiB quarter) maps to. -/
structure Tlb where
  pasid : Nat
  vpage : Nat               -- VA[59:14]
  frame : Nat               -- key of the first byte of the 16 KiB page, or of the 4 KiB quarter for a host fill
  quarter : Option Nat      -- host-filled: VA[13:12]
  r : Bool
  w : Bool
  x : Bool
  u : Bool
  g : Bool
  nc : Bool
  trk : Bool
  d : Bool
  priv : Bool               -- host-filled: the privileged-mode grant
  deriving DecidableEq, Repr

/-- A cached page-table pointer of levels 1 to 3 (R380). -/
structure PtrEnt where
  pasid : Nat
  level : Nat
  prefx : Nat               -- the VA bits above the level
  table : Nat
  deriving DecidableEq, Repr

/-- A D-cache line (R346). -/
structure DLine where
  line : Nat                -- key div 64
  bytes : List Byte
  pois : Bool
  deriving DecidableEq, Repr

/-- A fetch line in the I-cache (R102, R104), named by PASID and virtual line number, and whether its page lets PRIV 0, and PRIV 1 and 2,
fetch it (R106). -/
structure ILine where
  pasid : Nat
  vline : Nat
  bytes : List Byte
  pois : Bool
  user : Bool
  sup : Bool
  deriving DecidableEq, Repr

/-- Fetches of a line, by PASID and virtual line number, that have mismatched in a row (R104). -/
structure BadLine where
  pasid : Nat
  vline : Nat
  n : Nat
  deriving DecidableEq, Repr

/-- A live row slot of Y (R286): bytes [off, off + len), and the core and tile configuration of the command that filled it (R277). -/
structure RowSlot where
  off : Nat
  len : Nat
  core : Nat
  gen : Nat
  id : Nat                  -- its number, which its token carries
  deriving DecidableEq, Repr

/-- A line that PREF has asked for and that has not arrived (R254, R370): whose access, where, and whether the D-cache takes it. -/
structure PrefFill where
  pasid : Nat
  va : Nat
  key : Nat
  trk : Bool
  alloc : Bool
  deriving DecidableEq, Repr

/-- What belongs to a core (R12, R73): buffers W, X, Y, channel store, handler table, tile configuration, DIST, caches. -/
structure Core where
  w : Map Byte
  x : Map Byte
  y : Map Byte
  pois : Map Bool           -- poisoned 16-byte words: key space * 4096 + offset div 16
  chans : Map Chan
  savedCh : Map Nat         -- firings of each channel that CTXSV saved and CTXLD has not loaded (R305)
  credits : Map Nat         -- credit counter per OEDGE plus one; an unlisted OEDGE has no counter (R296)
  lastFired : BitVec 5
  tileSet : Bool
  tile0 : Word
  tile1 : Word
  tileGen : Nat             -- counts the tile configurations that the core has had
  tileOut : Nat             -- tile commands issued under the current configuration and not complete (R276)
  dist : Word
  serc : BitVec 32
  dcache : List DLine
  icache : List ILine
  ibad : List BadLine       -- lines whose last fetches mismatched (R104)
  utlb : List Tlb
  rows : List RowSlot
  seq : Nat                 -- accesses that the core has sent out: numbers their order (R244, R249, R359)
  prefs : List PrefFill     -- prefetched lines on their way (R254)
  idleAsk : Bool            -- IDLE has executed, and the core gates once its contexts are dormant (R236)
  gated : Bool
  suspect : Bool
  late : Bool                     -- it has not acknowledged the newest drift yet (R406)
  deriving DecidableEq, Repr

/-- Operands of a tile command (R278-R284). -/
inductive TileOp where
  | tldb (p0 p1 : Word) (bank : Bool) (af : BitVec 4)
  | tmul (p0 p1 : Word) (bank half : Bool) (arow cb : Nat) (drn : Bool) (acc : AccOp)
  | tpoly (a0 a1 b0 b1 : Word) (half : Bool) (arow : Nat) (drn : Bool) (k : Nat) (u : Bool) (mode : PolyMode)
  | tdrn (clr : Bool) (frow nrow : Nat)
  deriving DecidableEq, Repr

/-- A tile command (R263, R276, R328), with the progress of its drain. -/
structure TileCmd where
  cid : Nat
  seq : Nat
  op : TileOp
  tid : BitVec 16
  cfg0 : Word
  cfg1 : Word
  gen : Nat
  done : Bool               -- its arithmetic has been performed; only the drain remains
  gov : Bool                -- some row written has the GOV mark (R335)
  ovf : Bool                -- it has saturated a digit or a word itself (R336)
  pois : Bool
  drainAt : Nat             -- rows already drained
  begun : Bool              -- the LMU has begun to read its operands (R331)
  deriving DecidableEq, Repr

/-- A member of a copy (R270): its context and command, its core, the queue it was issued to, its completion token and its image. -/
structure Member where
  cid : Nat
  seq : Nat
  core : Nat
  bits : BitVec 4           -- the queue that it counts in: 1, 2 or 8
  ntf : Option (BitVec 32)
  image : Option TileCmd
  deriving DecidableEq, Repr

/-- A copy command (R262, R267): its members (more than one when combined), pairs, progress. -/
structure CopyCmd where
  members : List Member
  dst0 : Word
  dst1 : Word
  src0 : Word
  src1 : Word
  irv : Bool
  dist : Option Word
  comb : Bool
  opened : Option Nat       -- `now` at which its combining group opened, while the group is open (R341)
  pasid : BitVec 20
  priv : BitVec 2
  pos : Nat                 -- stream bytes moved
  started : Bool
  parked : Option Nat
  walking : Option (Nat × Acc)
  missAt : Nat              -- `now` of the miss that it walks for (R376)
  due : Option (BitVec 8)   -- a fault of the queue that waits for room in the CAM (R385)
  deriving DecidableEq, Repr

/-- A write of the hub that found no room: for its windbreak entry (R411: channel, address, context), or in the egress hold (R415: drift). -/
inductive NoRoom where
  | log (ch pa : Nat) (by_ : Option Nat)
  | hold (e : BitVec 32)
  deriving DecidableEq, Repr

/-- What belongs to a cluster (R12): scratchpad, copy queues, combining node, ownership (R315). -/
structure Cluster where
  s : Map Byte
  spois : Map Bool
  q0 : List CopyCmd
  q1 : List CopyCmd
  turn : Bool                     -- the queue that the engine serves next while both have work (R337)
  images : List TileCmd           -- COPYT images held for the tile queue (R343)
  tlb : List Tlb
  owner : Option Nat
  taken : Nat                     -- `now` of the grant, for the quantum
  wanted : Option Nat             -- the launch that is to own it next (R317, R318)
  saves : Map Ctx                 -- firings saved at YIELD, by the CID they left (R205, R305)
  late : Bool                     -- it has not acknowledged the newest drift yet (R406)
  deriving DecidableEq, Repr

/-- A stationary bank (R327). Element (i, n) of the block is stored at key i * 128 + n. -/
structure Bank where
  loaded : Bool
  wA : Nat
  n : Nat                   -- columns N of the block: 256 over the slot width of its format
  bp : Bool                 -- loaded from a bp format: TMUL.HALF applies (R69)
  tid : BitVec 16
  pois : Bool
  elems : Map (BitVec 9)    -- bit 8: an element of the block, not void; an unlisted one is outside the block, or void
  deriving DecidableEq, Repr

/-- States of a device-memory line at its home (R363), and of a host-memory line in its slice (R365). -/
inductive LineSt where
  | i | m | o | e | s
  deriving DecidableEq, Repr

/-- A line's state and its host-presence bit. -/
structure LineInfo where
  st : LineSt
  hp : Bool
  pre : Bool                      -- brought in by PREF and not yet demanded (R370)
  fly : Bool                      -- a prefetch fill of it is in flight, and nothing has demanded it since (R369)
  deriving DecidableEq, Repr

/-- What belongs to a sector (R12): LMU, tile queue, join cells, LLC slice directories. -/
structure Sector where
  accum : Map (BitVec 32)         -- word c of row r at key r * 384 + c (R326)
  gov : Map Bool
  rpois : Map Bool
  bank0 : Bank
  bank1 : Bank
  tileq : List TileCmd
  latch : Map (Quad × Bool)       -- 16-byte words that the LMU has read early for the command it works on: key space * 2^16 + word (R331)
  cells : Map Word                -- the 64 sector join cells (R221)
  sigs : List (Nat × BitVec 256)  -- signature table, most recent first (R355)
  off : Bool                      -- the slice has left (R348)
  late : Bool                     -- it has not acknowledged the newest drift yet (R406)
  deriving DecidableEq, Repr

/-- What belongs to a domain: the bulk queue, held images, the translation cache. -/
structure Domain where
  bulk : List CopyCmd
  images : List TileCmd
  tlb : List Tlb
  ptrs : List PtrEnt
  reserved : List Nat             -- the starving launches that the domain is reserved for (R316)
  late : Bool                     -- it has not acknowledged the newest drift yet (R406)
  deriving DecidableEq, Repr

/-- Metadata of a granule (R394). -/
structure GranMeta where
  dt : BitVec 2
  pois : Bool
  pin : Bool
  deriving DecidableEq, Repr

/-- A windbreak entry (R410). -/
structure WbEntry where
  drift : BitVec 32
  gran : Nat
  old : List Byte
  opois : Bool
  bad : Bool                      -- an uncorrectable entry (R423)
  seq : Nat                       -- SEQ: its number in its channel
  spilt : Bool                    -- it has left the windbreak buffer for the region (R409)
  deriving DecidableEq, Repr

/-- What waits in the egress hold (R414). -/
inductive HeldItem where
  | store (pa : Nat) (bytes : Map Byte) (pois whole : Bool)   -- whole: one write of a whole granule, which clears its poison (R149)
  | msi (vec : Nat)
  | completion (pa : Nat) (bytes : Map Byte) (vec : Option Nat)
  | frame (conn first : Nat) (bytes : List Byte)   -- bytes of a transmit ring, from byte `first` on (R453)
  | ack (conn rxp : Nat)                            -- the acknowledgement of received bytes (R454)
  deriving DecidableEq, Repr

/-- An item of the egress hold with its drift. -/
structure Held where
  stamp : BitVec 32
  item : HeldItem
  by_ : Option Nat                -- the context that issued it (R352)
  page : Option (Nat × Nat)       -- the PASID and virtual address that it was translated from (R388)
  deriving DecidableEq, Repr

/-- Who is parked on a fault-queue entry (R385). -/
inductive Requester where
  | ctx (cid : Nat)
  | engine (e : CopyEngine)
  | work (k : Nat)
  deriving DecidableEq, Repr

/-- A live entry of the fault-queue CAM (R385, R386). -/
structure CamEntry where
  seq : Nat
  pasid : Nat
  page : Nat                      -- VA[59:14]
  acc : Acc                       -- the access of the first request, whose permission a Page Request asks for (R381)
  sub : Nat                       -- VA[13:12] of the first request: the 4 KiB page that a Page Request names
  code : BitVec 8
  trapNo : BitVec 16
  reqs : List Requester
  ftime : Nat
  priSent : Bool
  deriving DecidableEq, Repr

/-- An ATS Translation Request in flight (R382). -/
structure AtsReq where
  who : Walker
  pasid : Nat
  va : Nat
  acc : Acc
  priv : Bool
  dropped : Bool                  -- an invalidation overtook it
  deriving DecidableEq, Repr

/-- A fault record that waits to be sent or sent again (R375). -/
structure FRec where
  pasid : Nat
  w0 : Word
  w1 : Word
  w2 : Word
  w3 : Word
  refused : Bool
  deriving DecidableEq, Repr

/-- A launch's stage (R312, R314). -/
inductive LStage where
  | waiting                       -- slot taken, dependences or grants not yet met
  | running
  | resuming                      -- restarted by a rollback, its instances not yet placed again (R422)
  | failed (status : BitVec 8)
  deriving DecidableEq, Repr

/-- The record of one swapped-out instance (R306). -/
structure InstRec where
  toks : List Flight              -- save-area mailbox, oldest first
  chans : List Token              -- channel tokens of the instance as swapped out (R318)
  entry : BitVec 256
  entry2 : BitVec 256
  credit : Nat
  deriving DecidableEq, Repr

/-- A fork node that still holds chunks (R222). -/
structure Fork where
  id : Nat
  lslot : Nat
  level : Nat                     -- 0 core, 1 cluster, 2 sector, 3 domain, 4 device
  unit : Nat                      -- a core of the node, whose number names it
  pasid : BitVec 20
  n : Word
  m : Word
  e : Word
  j : Word
  ps : List Word                  -- P3 to P7
  prate : Nat
  pri : Nat
  dl : Nat
  inst : BitVec 11
  oedge : BitVec 32
  fromCore : Nat
  next : Nat                      -- the first index never dealt
  total : Nat                     -- N
  back : List Nat                 -- chunks of killed firings, to be dealt again, rising (R303)
  sig : BitVec 256
  deriving DecidableEq, Repr

/-- A live launch (R288, R308-R312). -/
structure Launch where
  pasid : BitVec 20
  tag : Word
  queue : Nat
  idx : Nat
  caddr : Word
  cval : Word
  msie : Bool
  vec : BitVec 11
  hdr : List Word                 -- the 8 doublewords of the header (R308)
  actors : List (List Word)       -- the 16 doublewords of each actor record (R309)
  pcls : Nat
  stage : LStage
  trigged : Option Nat            -- the context that made the TRIG that took effect (R224)
  since : Nat                     -- when it became ready
  startDrift : BitVec 32
  places : Map Word               -- placement table, one PLACE word per instance (R240, R289)
  pending : List Flight           -- pending mailbox (R290)
  insts : Map InstRec
  saved : Nat                     -- firings of it that CTXSV saved (R312)
  sects : Map Sector              -- sectors that it owned whole, as saved with their clusters (R307, R318)
  deriving DecidableEq, Repr

/-- Work of a taken command record other than LAUNCH (R439, R467). -/
inductive WorkKind where
  | signal (a v : Word) (add : Bool)
  | waitv (a c m : Word) (cond : BitVec 2) (t : BitVec 32)
  | copyq (dst src len : Word) (pos : Nat) (eng : Option Nat)   -- `eng`: the domain whose bulk engine copies, once known
  | launch (desc tag : Word) (slot : Option Nat)   -- slot: the launch slot that it has taken (R310)
  | posted (a v : Word) (e : BitVec 32)            -- a SIGNAL whose store waits in the hold of drift e (R439)
  | none_
  deriving DecidableEq, Repr

/-- A command record whose completion has not been written (R437, R467). -/
structure Work where
  queue : Nat
  idx : Nat
  kind : BitVec 8
  pasid : BitVec 20
  caddr : Word
  cval : Word
  msie : Bool
  vec : BitVec 11
  work : WorkKind
  finished : Option (BitVec 8)    -- the status, once the work is performed
  lslot : BitVec 16
  since : Nat
  parked : Option Nat
  walking : Option (Nat × Acc)
  missAt : Nat                    -- `now` of the miss that it walks for (R376)
  due : Option (BitVec 8)         -- a fault of the queue that waits for room in the CAM (R385)
  deriving DecidableEq, Repr

/-- A user queue as the scheduler holds it (R433-R436). -/
structure Queue where
  en : Bool
  head : Nat
  tail : Nat                      -- TAIL as last read
  rbase : Nat
  log2n : Nat
  pasid : BitVec 20
  maxpcls : Nat
  stopped : Bool
  deriving DecidableEq, Repr

/-- A swap slot in use (R307): the state of one cluster of one launch. -/
structure SwapSlot where
  lslot : Nat
  clus : Nat
  base : Nat                        -- where it lies in the pool
  cluster : Option Cluster          -- none for the buffers of a lost core (R397)
  cores : Map Core
  aging : Map Nat                   -- key 32 * position + channel: the aging count, plus one, of each runnable handler (R299, R307)
  deriving DecidableEq, Repr

/-- What the layout of a save record (R304) has no place for, kept beside it: what the firing is, its pending transfer, the whole quota
tokens, its reserved credits and edge, its core, P3 to P7 of each fork in its outbox, the poison marks of its journal, a TGT check that is
still due (R131), its placement level (R220), and the release of a FENCE for its next store (R259) (log entry 14). -/
structure Aside where
  kind : FiringKind
  linked : Bool
  taken : Bool
  toks : List Token
  credits : Nat
  oedge : BitVec 32
  dlEntry : Nat
  core : Nat
  ps : List (List Word)
  jpois : List Bool
  tgtCheck : Bool
  relNext : Option Scope
  free : Bool
  level : Nat                     -- the level at which it forks (R220)
  deriving DecidableEq, Repr

/-- The scheduler's tables, which lie in tracked memory (R314): a rollback restores them (R421). -/
structure Tables where
  launches : Map Launch
  queues : Map Queue
  works : Map Work
  workSeq : Nat                   -- the key of the next work
  slots : Map SwapSlot            -- swap slots in use (R307)
  asides : Map Aside              -- by the address of the save record
  deriving DecidableEq, Repr

/-- Stages of a seal (R406). -/
inductive SealStage where
  | quiet
  | opening                      -- OPEN(d + 1) is out; agents acknowledge
  deriving DecidableEq, Repr

/-- The seal coordinator (R403-R408). The agents that have not acknowledged the newest drift are the `late` ones. -/
structure Seals where
  sealed : BitVec 32
  newest : BitVec 32
  stage : SealStage
  wanted : Bool                  -- a seal request is pending
  holdWant : Bool                -- the egress hold asks for a seal (R408)
  holdReq : Nat                  -- `now` of its last request
  sweeping : List (BitVec 32)    -- sealed drifts whose sweep has not completed (R405)
  lastCommit : Nat
  deriving DecidableEq, Repr

/-- Power states (R455). -/
inductive Power where
  | off | run | cap | toHold | hold | bootStopped
  deriving DecidableEq, Repr

/-- An escalation timer of IRT OWN 3 (R389). -/
structure EscTimer where
  src : Nat
  vec : Nat
  core : Nat
  ch : BitVec 5
  payload : Quad
  due : Nat
  off : Option (Nat × Nat)       -- the token lies in the record of this instance of this launch, and `due` is the time left
  deriving DecidableEq, Repr

/-- A byte-stream connection as the transport holds it (R452-R454). -/
structure Conn where
  sent : Nat                     -- bytes taken from the transmit ring
  deriving DecidableEq, Repr

/-- What has left the package: raised MSI-X vectors, writes into PCIe windows, frames, the boot's report. Newest first. -/
inductive OutEvent where
  | msi (vec : Nat)
  | pcie (pa : Nat) (bytes : List Byte)
  | frames (conn first : Nat) (bytes : List Byte)
  | ack (conn rxp : Nat)
  | pri (pasid va group : Nat) (acc : Acc)
  | atsDone (pasid va : Nat)
  | hostData (addr : Nat) (bytes : List Byte)
  | snpReply (line : Nat) (bytes : Option (List Byte))
  | nvmeData (port : Bool) (addr : Nat) (bytes : List Byte)
  | nvmeUnsupported (port : Bool) (addr : Nat)
  | bisnpData (line : Nat)
  | bisnpInv (line : Nat)
  | rdShared (line : Nat)
  | rdOwn (line : Nat)
  | dirtyEvict (line : Nat) (bytes : List Byte)
  | cleanEvict (line : Nat)
  | barData (off : Nat) (val : Word)
  | dvsec (modules : Nat)
  | debugData (val : Word)
  deriving DecidableEq, Repr

/-- A DAT as loaded: its base and the listed bytes of memory in it (R412). -/
structure Dat where
  base : Nat
  cells : Map Byte
  deriving DecidableEq, Repr

/-- A real-time slot as it runs: the RTS word in force and the budget left in its period (R319, R322). -/
structure RtSlot where
  cfg : Word
  left : Nat                     -- in cluster-cclk
  start : Nat
  deriving DecidableEq, Repr

/-- The hub (R11): registers, tables, fault queue, seal coordinator, egress hold, windbreak, power. -/
structure Hub where
  regs : Map Word                 -- software-written and self-test registers by offset; an unlisted one holds its reset value
  tables : Tables
  snaps : List (BitVec 32 × Tables)  -- the tables as they stood when the hub switched to each drift, newest first (R421)
  cam : Map CamEntry
  camSeq : Nat
  ats : List AtsReq
  priStopped : Bool
  priAlloc : Nat                  -- the page requests that the host lets be outstanding (R383)
  priOut : List (Nat × Nat)       -- page requests without a response: CAM index and sequence number of their entries
  recs : List FRec
  flight : List Flight
  refused : List Flight           -- hub, notify and held tokens that are sent again (R296, R257, R375)
  creditFly : List (BitVec 32 × BitVec 32)   -- credits on their way back: the producer's actor address, OEDGE (R296)
  forks : List Fork
  forkSeq : Nat
  seals : Seals
  wb : Map (List WbEntry)         -- per channel 0 to 31, oldest first (R409)
  wbSeq : Map Nat                 -- per channel: the next SEQ (R410)
  wbBase : Map Nat                -- per domain: the log base in force (R426)
  held : List Held                -- oldest first (R415)
  wbStall : List (Nat × Nat × Option Nat)   -- writes that wait for room: channel, address, context (R411)
  noRoom : List NoRoom            -- writes of the hub in the step under way that found no room: the step is then not made (log entry 12)
  dat : Map Dat                   -- the DAT as the controllers of each domain last loaded it (R412, R413)
  bells : List Nat                -- doorbells that have not reached the scheduler (R434)
  rbDue : Option (BitVec 8)       -- a rollback is to run, with its cause (R420)
  rt : Map RtSlot                 -- real-time slots as they run (R319)
  rtAt : Nat                      -- `now` up to which cluster time has been charged to them (R319)
  watches : List (Nat × Nat)      -- watched tail lines: line, queue (R434)
  esc : List EscTimer
  conns : Map Conn
  out : List OutEvent
  power : Power
  wakePending : Option Nat        -- a wake source fired during Hold entry (R457)
  holdAt : Nat                    -- `now` at Hold entry (R456)
  offReq : Bool                   -- PWRCTL.REQ = 2 has been written (R455)
  svc : BitVec 8                  -- the service positions in service (R16)
  seed : BitVec 256               -- the device seed, in the always-on island (R459)
  helper : List Byte              -- in boot flash: the PUF's helper data (R459)
  find : BootFind                 -- what a cold boot will find that a wake has to run (R458; log entry 77)
  romKey : LmsPub                 -- in boot ROM: the Glipex public key (R459)
  fwHash : BitVec 256             -- SHA-256 of the service firmware as verified (R462)
  fwAddrs : List Nat              -- where the bytes of the service firmware image lie
  measure : BitVec 256            -- the measurement of Hold entry, in the always-on island (R457)
  holdSeal : Option (BitVec 32)   -- the drift whose seal Hold entry has requested (R457)
  macBuf : List (Nat × List Byte × Nat)   -- frames received during Hold: connection, bytes, acknowledgement (R458)
  lms : Nat                       -- LMS index of the always-on island (R461)
  lmsLeft : Nat
  flash : Nat                     -- LMS index in boot flash
  mtvec : Word                    -- the machine entry that boot wrote in every context (R459)
  modules : BitVec 4              -- host-port modules in use (R428)
  hdm : Nat                       -- the base of the HDM range, which host software sets (R430)
  repair : RepairMap              -- the repair map (R425)
  badRows : List Nat              -- in boot flash: granules that took uncorrectable errors in this run (R425)
  lastTick : Nat
  deriving DecidableEq, Repr

/-- An uncorrectable error in some storage, and where it is found (R104, R345, R402, R423). -/
inductive Upset where
  | iline (core k : Nat)                    -- the k-th line of an I-cache
  | dline (core k : Nat)                    -- the k-th line of a D-cache
  | word (core space w : Nat)               -- a 16-byte word of W, X, Y or S
  | slot (core ch k : Nat)                  -- the k-th token of a channel
  | accRow (sect row : Nat)                 -- a row of the accumulator array
  | bank (sect : Nat) (second : Bool)       -- a stationary bank
  | llc (line : Nat)                        -- a line of a slice
  | gran (g : Nat)                          -- a granule of LPDDR-6
  | wbEntry (ch k : Nat)                    -- the k-th entry of a windbreak region
  | tables                                  -- the scheduler's launch, queue or placement tables
  | outbox (cid : Nat)                      -- an entry of an outbox, at the firing's commit
  | journal (cid : Nat)                     -- an entry of a journal, during the firing's kill
  deriving DecidableEq, Repr

/-- A place that an unlocked debug port reaches (R463; log entry 108): 8 bytes of memory, a hub register, P0 to P7, A, PC, STAT and the numbered
special registers (R97) of a context, 8 bytes of W, X, Y or S of a core. -/
inductive DebugPlace where
  | mem (a : Nat)
  | hub (off : Nat)
  | p (cid n : Nat)
  | a (cid : Nat) (high : Bool)
  | pc (cid : Nat)
  | stat (cid : Nat)
  | sreg (cid : Nat) (r : BitVec 16)
  | buf (core space off : Nat)
  deriving DecidableEq, Repr

/-- What a unit of the device, or the host, does at a moment of its own and without an event of the opcode table (log entry 21). -/
inductive OwnMove where
  | fill (core k : Nat)                     -- the k-th prefetched line of a core arrives (R254)
  | unlist (line : Nat)                     -- a slice evicts an entry of its host-presence directory (R363)
  | latch (sect space w : Nat)              -- an LMU reads a 16-byte word of the command that it works on (R331)
  | spill (ch : Nat)                        -- an entry leaves the windbreak buffer for its region (R409)
  | upset (u : Upset)                       -- an uncorrectable error is found
  | hdm (base : Nat)                        -- host software sets the HDM base (R430)
  | hpaRead (hpa n : Nat)                   -- a host read at a host physical address (R430)
  | hpaWrite (hpa : Nat) (bytes : List Byte)
  | barRead (off n : Nat)                   -- a host read through BAR0 (R431)
  | dvsec                                   -- a host read of the module count (R428)
  | debugStatus                             -- a read of ISLST by the debug port (R464)
  | idcode                                  -- the test access port reads IDCODE (R463)
  | scan                                    -- a boundary scan (R463)
  | debugRead (p : DebugPlace)              -- the debug port reads a place, once unlocked (R463)
  | debugWrite (p : DebugPlace) (v : Word)
  | decay (a : Nat) (b : Byte)              -- a byte of memory changes, undetected, in self-refresh (R458)
  | find (f : BootFind)                     -- what the next cold boot will find changes (R458)
  | macFrame                                -- a frame that the MAC has buffered reaches its connection (R458)
  deriving DecidableEq, Repr

/-- One move of the agenda: how many cclk pass, and then what happens: an event of the device, the context that issues, a slice
that evicts a line (R364-R366), or a move of a unit's own. -/
inductive Move where
  | issue (dt cid : Nat)
  | event (dt : Nat) (i : Instr)
  | evict (dt line : Nat)
  | own (dt : Nat) (m : OwnMove)
  deriving DecidableEq, Repr

/-- The state of the KZ-8. `agenda` says which agent moves next; with an empty agenda, context `cur` issues. `tick` is the
model's own counter for free values (log entry 3). -/
structure State where
  agenda : List Move
  now : Nat
  tick : Nat
  cur : Nat
  ctxs : Map Ctx
  cores : Map Core
  clus : Map Cluster
  sects : Map Sector
  doms : Map Domain
  mem : List Host.Cell            -- device LPDDR-6 at its physical address; host memory at 2^60 + HPA
  grans : Map GranMeta
  lines : Map LineInfo            -- home states of lines (R363, R365)
  hostCache : Map (List Byte)     -- lines that host caches hold modified (R364)
  hub : Hub
  deriving DecidableEq, Repr

/-- A context that holds no firing (R72). Its registers hold no defined value; zero is the model's choice (log entry 1). -/
def emptyCtx : Ctx :=
  { status := .dormant, a := 0, p := Vector.replicate 8 0, stat := 0, cir := 0, cira := 0, cnt := 0, ntgt := 0, pc := 0, btgt := 0
    lbeg0 := 0, lend0 := 0, lcnt0 := 0, lbeg1 := 0, lend1 := 0, lcnt1 := 0, mtpc := 0, mtst := 0, mtvec := none, mtcode := 0
    aPois := false, pPois := 0, dleft := 0, dl := 0, dlEntry := 0, taken := false, linked := false, tgtCheck := false
    endTest := false, kind := .actor 0, level := 4, pasid := 0, lslot := 0, inst := 0, live := 0, ch0 := 0, ch1 := none, c0 := 0, c1 := 0
    prate := 0, pop0 := 0, pop1 := 0, produced := 0, quota0 := [], quota1 := [], credits := 0, oedge := 0, outbox := []
    journal := [], sig := 0, relNext := none, defLD := none, defST := none, defCP := none, defTL := none, engG := false, engT := false
    preempt := false, stq := [], aldq := [], rstq := [], landed := [], cmds := [], cmdSeq := 0, qfences := [], parkedAt := 0
    bmov := 0, pairBad := false, free := false }

/-- A channel with no tokens and no valid entry. -/
def emptyChan : Chan := { toks := [], entry := 0, masked := false, prio := none, since := 0 }

/-- A core after cold start: buffers zero (R84), the DIST pattern deals to one core (R274), no tile configuration (R276). -/
def emptyCore : Core :=
  { w := [], x := [], y := [], pois := [], chans := [], savedCh := [], credits := [], lastFired := 0, tileSet := false
    tile0 := 0, tile1 := 0, tileGen := 0, tileOut := 0, dist := 8, serc := 0, dcache := [], icache := [], ibad := [], utlb := [], rows := [], seq := 0, prefs := []
    idleAsk := false, gated := false, suspect := false, late := false }

/-- A cluster after cold start (R84). -/
def emptyCluster : Cluster :=
  { s := [], spois := [], q0 := [], q1 := [], turn := false, images := [], tlb := [], owner := none, taken := 0, wanted := none
    saves := [], late := false }

/-- A stationary bank that no TLDB has loaded (R327). -/
def emptyBank : Bank := { loaded := false, wA := 0, n := 0, bp := false, tid := 0, pois := false, elems := [] }

/-- A sector after cold start (R221, R327). -/
def emptySector : Sector :=
  { accum := [], gov := [], rpois := [], bank0 := emptyBank, bank1 := emptyBank, tileq := [], latch := [], cells := [], sigs := [], off := false
    late := false }

/-- A domain after cold start. -/
def emptyDomain : Domain := { bulk := [], images := [], tlb := [], ptrs := [], reserved := [], late := false }

/-- A granule with no drift tag, no poison and no pin (R394). -/
def cleanGran : GranMeta := { dt := 0, pois := false, pin := false }

/-- A line that no slice and no host cache holds (R363). -/
def absentLine : LineInfo := { st := .i, hp := false, pre := false, fly := false }

/-- The scheduler's tables with no launch, no queue and no work. -/
def emptyTables : Tables := { launches := [], queues := [], works := [], workSeq := 0, slots := [], asides := [] }

/-- A full part whose boot flash holds no firmware that is signed. -/
def emptyFind : BootFind :=
  let none_ : LmsSig := { q := 0, rand := 0, chains := [], path := [] }
  { coresIn := [], spareOut := [], lmuOut := [], svc := 0xFF, puf := [], sig := { top := none_, next := { id := 0, root := 0 }, last := none_ }, flashOk := true
    mtvec := 0, pastb := 0, image := [], entry := 0, repair := noRepair }

/-- The hub after cold start: drift 0 sealed and drift 1 open (R403). -/
def emptyHub : Hub :=
  { regs := [], tables := emptyTables, snaps := [(1, emptyTables)], cam := [], camSeq := 0, ats := [], priStopped := false, priAlloc := 512, priOut := [], recs := []
    flight := [], refused := [], creditFly := [], forks := [], forkSeq := 0
    seals := { sealed := 0, newest := 1, stage := .quiet, wanted := false, holdWant := false, holdReq := 0, sweeping := [], lastCommit := 0 }
    wb := [], wbSeq := [], wbBase := [], held := [], wbStall := [], noRoom := [], dat := [], bells := [], rbDue := none, rt := [], rtAt := 0, watches := [], esc := [], conns := [], out := [], power := .run, wakePending := none, holdAt := 0, offReq := false, svc := 0xFF
    seed := 0, helper := [], find := emptyFind, romKey := { id := 0, root := 0 }, fwHash := 0, fwAddrs := [], measure := 0, holdSeal := none, macBuf := []
    lms := 0, lmsLeft := 1024, flash := 1024, mtvec := 0, modules := 15, hdm := 0
    repair := noRepair, badRows := [], lastTick := 0 }

/-- The machine right after a cold start with every unit in service (log entry 2): every context dormant, memory with nothing
listed. Context 0 of service core 0x7E0 is the one that `cur` names (log entry 1). -/
def State.reset : State :=
  { agenda := [], now := 0, tick := 0, cur := 0x3F00, ctxs := [], cores := [], clus := [], sects := [], doms := [], mem := []
    grans := [], lines := [], hostCache := [], hub := emptyHub }

/-- Why the machine stops with a fault. The spec turns every error into an exception, so the machine has one reason. -/
inductive Fault where
  /-- Raised by the step when the device is in the power state Off or its boot has stopped, and an instruction is to be
  issued: nothing is powered (R455, R464). Safe: nothing executes there. -/
  | notPowered
  deriving DecidableEq, Repr

/-- Why the machine refuses. -/
inductive Refusal where
  /-- An instruction that has no meaning yet. Raised by exec's arms only. Safe. -/
  | notModelled (mnemonic : String)
  deriving DecidableEq, Repr

end Sys2Proof.Machine
end

