-- ==== Sys2Proof/Machine/Store.lean ====
section
/-! DEFINITION. Sparse stores, byte order, and the helpers of R7 (sext, zext, sat_s, sat_z, slices). -/
namespace Sys2Proof.Machine

/-- What key `a` reads as; an unlisted key reads as `d`. -/
def mget {α : Type} (d : α) : Map α → Nat → α
  | [], _ => d
  | (k, v) :: t, a => if k = a then v else mget d t a

/-- Whether key `a` is listed. -/
def mhas {α : Type} : Map α → Nat → Bool
  | [], _ => false
  | (k, _) :: t, a => k == a || mhas t a

/-- The store without key `a`. -/
def mdel {α : Type} : Map α → Nat → Map α
  | [], _ => []
  | (k, v) :: t, a => if k = a then mdel t a else (k, v) :: mdel t a

/-- `x` put at key `a` before the first greater key. -/
def minsert {α : Type} : Map α → Nat → α → Map α
  | [], a, x => [(a, x)]
  | (k, v) :: t, a, x => if a < k then (a, x) :: (k, v) :: t else (k, v) :: minsert t a x

/-- Write `x` at key `a`; the value that an unlisted key reads as removes the entry. -/
def mset {α : Type} [DecidableEq α] (d : α) (m : Map α) (a : Nat) (x : α) : Map α :=
  if x = d then mdel m a else minsert (mdel m a) a x

/-- The store without the keys from `lo` up to but not including `hi`. -/
def mclear {α : Type} : Map α → Nat → Nat → Map α
  | [], _, _ => []
  | (k, v) :: t, lo, hi => if lo ≤ k ∧ k < hi then mclear t lo hi else (k, v) :: mclear t lo hi

/-- Every key is above `lo`, keys rise strictly, and no value is `d`. -/
def mwfFrom {α : Type} [DecidableEq α] (d : α) : Option Nat → Map α → Bool
  | _, [] => true
  | lo, (k, v) :: t => (match lo with | none => true | some l => decide (l < k)) && decide (v ≠ d) && mwfFrom d (some k) t

/-- The canonical form of a store. -/
def mwf {α : Type} [DecidableEq α] (d : α) (m : Map α) : Bool := mwfFrom d none m

/-- Every key is above `lo`, keys rise strictly, and no value is what its key reads as unlisted. -/
def fwfFrom {α : Type} [DecidableEq α] (d : Nat → α) : Option Nat → Map α → Bool
  | _, [] => true
  | lo, (k, v) :: t => (match lo with | none => true | some l => decide (l < k)) && decide (v ≠ d k) && fwfFrom d (some k) t

/-- What a byte of memory that nothing has written reads as: the drift attribute tables hold what boot wrote (R412, R459), pages
of the windbreak log, of the command window and of the table itself untracked; every other byte reads 0 (log entry 7). -/
def memDefault (a : Nat) : Byte :=
  let d := a / 2 ^ 36
  let i := a % 2 ^ 36 - 0xFBFF80000
  if d < 8 ∧ 0xFBFF80000 ≤ a % 2 ^ 36 ∧ a % 2 ^ 36 < 0xFC0000000 ∧ i < 0x3EFFE0 / 8 ∧ (d ≠ 0 ∨ 4096 / 8 ≤ i) then 0xFF else 0

/-- The canonical form of memory. -/
abbrev Memory.wf (m : List Host.Cell) : Prop := fwfFrom memDefault none m = true

/-- What a byte of memory reads as. -/
def ramByte (m : List Host.Cell) (a : Nat) : Byte := mget (memDefault a) m a

/-- `n` bytes of memory from key `a` up. -/
def ramAt (m : List Host.Cell) (a : Nat) : Nat → List Byte
  | 0 => []
  | n + 1 => ramByte m a :: ramAt m (a + 1) n

/-- The bytes put into memory from key `a` up. -/
def ramPut (m : List Host.Cell) (a : Nat) : List Byte → List Host.Cell
  | [] => m
  | b :: t => ramPut (mset (memDefault a) m a b) (a + 1) t

/-- `n` bytes of a buffer from offset `a` up. -/
def bytesAt (m : Map Byte) (a : Nat) : Nat → List Byte
  | 0 => []
  | n + 1 => mget 0 m a :: bytesAt m (a + 1) n

/-- The bytes put into a buffer from offset `a` up. -/
def putBytes (m : Map Byte) (a : Nat) : List Byte → Map Byte
  | [] => m
  | b :: t => putBytes (mset 0 m a b) (a + 1) t

/-- The little-endian value of some bytes (R2). -/
def leVal : List Byte → Nat
  | [] => 0
  | b :: t => b.toNat + 256 * leVal t

/-- The `n` little-endian bytes of a value. -/
def leBytes : Nat → Nat → List Byte
  | 0, _ => []
  | n + 1, v => BitVec.ofNat 8 v :: leBytes n (v / 256)

/-- The 128-bit value of some bytes. -/
def quadOf (bs : List Byte) : Quad := BitVec.ofNat 128 (leVal bs)

/-- sext(x, n): the low n bits of x as a two's-complement integer (R7). -/
def sextI (x : Nat) (n : Nat) : Int :=
  let v := x % 2 ^ n
  if n = 0 then 0 else if v < 2 ^ (n - 1) then (v : Int) else (v : Int) - (2 ^ n : Nat)

/-- sat_s(x, n) (R7). -/
def satS (x : Int) (n : Nat) : Int :=
  if x < -(2 ^ (n - 1) : Nat) then -(2 ^ (n - 1) : Nat) else if x > (2 ^ (n - 1) : Nat) - 1 then (2 ^ (n - 1) : Nat) - 1 else x

/-- sat_z(x, n) (R7). -/
def satZ (x : Int) (n : Nat) : Int :=
  if x < 0 then 0 else if x > (2 ^ n : Nat) - 1 then (2 ^ n : Nat) - 1 else x

/-- The low n bits of an integer, as a number below 2^n (R6). -/
def lowBits (x : Int) (n : Nat) : Nat := (x % (2 ^ n : Nat)).toNat

/-- The slice x[lo + n - 1 : lo] of a number (R2). -/
def bits (x lo n : Nat) : Nat := x / 2 ^ lo % 2 ^ n

/-- Bit i of a number. -/
def bit (x i : Nat) : Bool := x / 2 ^ i % 2 == 1

/-- The slice of a bit vector as a number. -/
def fld {w : Nat} (x : BitVec w) (lo n : Nat) : Nat := bits x.toNat lo n

/-- The bit vector with ones at [lo + n - 1 : lo]. -/
def maskAt (w lo n : Nat) : BitVec w := BitVec.ofNat w (2 ^ n - 1) <<< lo

/-- A bit vector with one slice replaced. -/
def setFld {w : Nat} (x : BitVec w) (lo n v : Nat) : BitVec w :=
  (x &&& ~~~maskAt w lo n) ||| ((BitVec.ofNat w v <<< lo) &&& maskAt w lo n)

/-- A bit vector with bit i set to a Boolean. -/
def setBit {w : Nat} (x : BitVec w) (i : Nat) (b : Bool) : BitVec w :=
  if b then x ||| BitVec.twoPow w i else x &&& ~~~BitVec.twoPow w i

/-- The list without its k-th element. -/
def dropAt {α : Type} : List α → Nat → List α
  | [], _ => []
  | _ :: t, 0 => t
  | h :: t, k + 1 => h :: dropAt t k

/-- The list with its k-th element replaced. -/
def setAt {α : Type} : List α → Nat → α → List α
  | [], _, _ => []
  | _ :: t, 0, x => x :: t
  | h :: t, k + 1, x => h :: setAt t k x

/-- The numbers from 0 up to but not including n, rising. -/
def upto (n : Nat) : List Nat := List.range n

/-- 0xF00_0000_0000, the first hub register (R21). -/
def hubBase : Nat := 0xF0000000000

/-- The key of host physical address 0 in memory. -/
def hostBase : Nat := 2 ^ 60

/-- An element put in its place in a sorted list, before those that do not come before it. -/
def insertBy {α : Type} (le : α → α → Bool) (x : α) : List α → List α
  | [] => [x]
  | y :: ys => if le x y then x :: y :: ys else y :: insertBy le x ys

/-- A list in order; what is equal in it keeps its order. -/
def sortBy {α : Type} (le : α → α → Bool) : List α → List α
  | [] => []
  | x :: xs => insertBy le x (sortBy le xs)

end Sys2Proof.Machine
end

