-- ==== Sys2Proof/Machine/Flags.lean ====
section
/-! DEFINITION. STAT (R89), its flags and every flag computation of the integer instructions (R113, R148, R158-R165). -/
namespace Sys2Proof.Machine

/-- N (R89). -/
def fN (st : Word) : Bool := st.getLsbD 3
/-- Z. -/
def fZ (st : Word) : Bool := st.getLsbD 2
/-- C. -/
def fC (st : Word) : Bool := st.getLsbD 1
/-- V. -/
def fVf (st : Word) : Bool := st.getLsbD 0
/-- GO. -/
def fGO (st : Word) : Bool := st.getLsbD 4
/-- GOE. -/
def fGOE (st : Word) : Bool := st.getLsbD 32
/-- RM. -/
def stRM (st : Word) : Nat := fld st 33 2
/-- LPD. -/
def stLPD (st : Word) : Nat := fld st 40 3
/-- PRIV. -/
def stPRIV (st : Word) : Nat := fld st 43 2
/-- DS. -/
def stDS (st : Word) : Nat := fld st 45 2
/-- PFXV. -/
def stPFXV (st : Word) : Bool := st.getLsbD 47
/-- PFXW. -/
def stPFXW (st : Word) : BitVec 16 := st.extractLsb' 48 16

/-- A word as STAT holds it when all of STAT is written (R5, R89): the reserved bits read 0. A field value that R89 never has (PRIV 3, DS 3,
LPD above 2) is held as the greatest that the field has: the spec names no effect of it (log entry 88). -/
def statHeld (w : Word) : Word :=
  let w1 := setFld w 5 27 0
  setFld (setFld (setFld w1 40 3 (min 2 (stLPD w1))) 43 2 (min 2 (stPRIV w1))) 45 2 (min 2 (stDS w1))

/-- The condition of a predicate on STAT (R113). -/
def condHolds (st : Word) : Cond → Bool
  | .al => true
  | .eq => fZ st
  | .ne => !fZ st
  | .lt => fN st != fVf st
  | .ge => fN st == fVf st
  | .le => fZ st || fN st != fVf st
  | .gt => !fZ st && fN st == fVf st
  | .lo => !fC st
  | .hs => fC st
  | .mi => fN st
  | .pl => !fN st
  | .vs => fVf st
  | .vc => !fVf st
  | .gs => fGO st
  | .gc => !fGO st

/-- What an instruction does to N, Z, C, V and GO: none leaves a flag as it is (R148). -/
structure FlagUp where
  n : Option Bool
  z : Option Bool
  c : Option Bool
  v : Option Bool
  go : Option Bool
  fps : FFlags             -- sticky flags to be raised (R41)
  deriving DecidableEq, Repr

/-- No flag changes. -/
def noFlags : FlagUp := { n := none, z := none, c := none, v := none, go := none, fps := 0 }

/-- One flag written. -/
def putFlag (st : Word) (i : Nat) : Option Bool → Word
  | none => st
  | some b => setBit st i b

/-- STAT after the flags of an instruction. -/
def applyFlags (st : Word) (f : FlagUp) : Word :=
  putFlag (putFlag (putFlag (putFlag (putFlag st 3 f.n) 2 f.z) 1 f.c) 0 f.v) 4 f.go ||| (f.fps.setWidth 64 <<< 35)

/-- N = r[n-1] and Z from r (R148). -/
def nz (r n : Nat) : FlagUp := { noFlags with n := some (bit r (n - 1)), z := some (r % 2 ^ n == 0) }

/-- Whether an exact result lies outside the n-bit signed range (R158). -/
def sOut (s : Int) (n : Nat) : Bool := decide (s < -(2 ^ (n - 1) : Nat)) || decide (s > (2 ^ (n - 1) : Nat) - 1)

/-- ADD and ADC (R158): the result and the flags. -/
def addR (n : Nat) (a b cin : Nat) (sat : Bool) : Nat × FlagUp :=
  let u := a % 2 ^ n + b % 2 ^ n + cin
  let s := sextI a n + sextI b n + cin
  let r := if sat then lowBits (satS s n) n else u % 2 ^ n
  (r, { nz r n with c := some (decide (u ≥ 2 ^ n)), v := some (sOut s n) })

/-- SUB, SBC and CMP (R158, R164). -/
def subR (n : Nat) (a b bin : Nat) (sat : Bool) : Nat × FlagUp :=
  let u : Int := (a % 2 ^ n : Nat) - (b % 2 ^ n : Nat) - (bin : Int)
  let s := sextI a n - sextI b n - bin
  let r := if sat then lowBits (satS s n) n else lowBits u n
  (r, { nz r n with c := some (decide (u ≥ 0)), v := some (sOut s n) })

/-- MUL (R159). -/
def mulR (n : Nat) (a b : Nat) (sat : Bool) : Nat × FlagUp :=
  let p := sextI a n * sextI b n
  let r := if sat then lowBits (satS p n) n else lowBits p n
  (r, { nz r n with c := some (sOut p n), v := some (sOut p n) })

/-- An n-bit operand as an integer, unsigned or signed. -/
def asInt (u : Bool) (x n : Nat) : Int := if u then ((x % 2 ^ n : Nat) : Int) else sextI x n

/-- MULH (R159). -/
def mulhR (n : Nat) (u : Bool) (a b : Nat) : Nat × FlagUp :=
  let r := lowBits (asInt u a n * asInt u b n / (2 ^ n : Nat)) n
  (r, { nz r n with c := some false, v := some false })

/-- DIV and REM (R160). -/
def divR (n : Nat) (u rem : Bool) (a b : Nat) : Nat × FlagUp :=
  let x := asInt u a n
  let y := asInt u b n
  let past := !u && decide (x = -(2 ^ (n - 1) : Nat)) && decide (y = -1)
  let r := if y = 0 then 2 ^ n - 1
    else if past then (if rem then 0 else lowBits x n)
    else lowBits (if rem then x.tmod y else x.tdiv y) n
  (r, { nz r n with c := some false, v := some (decide (y = 0) || past) })

/-- The shifts. -/
inductive ShiftOp where
  | shl | shr | sar | rol
  deriving DecidableEq, Repr

/-- The result of a shift of an n-bit a by m (R162). -/
def shiftVal (op : ShiftOp) (n a m : Nat) : Nat :=
  match op with
  | .shl => if m < n then a % 2 ^ n * 2 ^ m % 2 ^ n else 0
  | .shr => if m < n then a % 2 ^ n / 2 ^ m else 0
  | .sar => if m < n then lowBits (sextI a n / (2 ^ m : Nat)) n else if bit a (n - 1) then 2 ^ n - 1 else 0
  | .rol => let k := m % n; (a % 2 ^ n * 2 ^ k + a % 2 ^ n / 2 ^ (n - k)) % 2 ^ n

/-- sat_s(sext(a, n) × 2^m, n); a shift past the width saturates as a shift by the width does. -/
def shlSat (n a m : Nat) : Int := satS (sextI a n * (2 ^ (min m n) : Nat)) n

/-- SHL under SAT saturates (R162). -/
def shlOut (n a m : Nat) : Bool := sOut (sextI a n * (2 ^ (min m n) : Nat)) n

/-- SHL, SHR, SAR, ROL (R162). -/
def shiftR (op : ShiftOp) (n a m : Nat) (sat : Bool) : Nat × FlagUp :=
  let r := if op = .shl ∧ sat then lowBits (shlSat n a m) n else shiftVal op n a m
  let c : Option Bool :=
    match op with
    | .shl => if m = 0 then none else some (decide (m ≤ n) && bit a (n - m))
    | .shr => if m = 0 then none else some (decide (m ≤ n) && bit a (m - 1))
    | .sar => if m = 0 then none else some (if m ≤ n then bit a (m - 1) else bit a (n - 1))
    | .rol => if m % n = 0 then none else some (bit r 0)
  (r, { nz r n with c := c, v := if op = .shl ∧ sat then some (shlOut n a m) else none })

/-- Number of leading zero bits of x below bit n. -/
def clzR : Nat → Nat → Nat
  | 0, _ => 0
  | n + 1, x => if bit x n then 0 else 1 + clzR n x

/-- Number of trailing zero bits of x among n bits. -/
def ctzR : Nat → Nat → Nat
  | 0, _ => 0
  | n + 1, x => if x % 2 = 1 then 0 else 1 + ctzR n (x / 2)

/-- Number of one bits of x among n bits. -/
def popcR : Nat → Nat → Nat
  | 0, _ => 0
  | n + 1, x => x % 2 + popcR n (x / 2)

/-- CLZ, CTZ and POPC set Z from the result and clear N (R163). -/
def zOnly (r : Nat) : FlagUp := { noFlags with z := some (r == 0), n := some false }

end Sys2Proof.Machine
end

