-- ==== Sys2Proof/Machine/Ops.lean ====
section
/-! DEFINITION. The view of one context on the machine, its registers, its memory accesses, taking a fault, and retiring. -/
namespace Sys2Proof.Machine

/-! ## Numbers of units (R15, R17) -/

/-- The core of a CID. -/
def coreOfCid (cid : Nat) : Nat := cid / 8
/-- The cluster of a core, numbered by its upper bits. -/
def clusOfCore (c : Nat) : Nat := c / 8
/-- The sector of a core. -/
def sectOfCore (c : Nat) : Nat := c / 32
/-- Whether a core is a service core, 0x7E0 to 0x7E7 (R16). -/
def isService (c : Nat) : Bool := c / 8 == 252
/-- The domain of a core; the service cores, which no domain holds, use number 8. -/
def domOfCore (c : Nat) : Nat := if isService c then 8 else c / 256
/-- Whether a core number names a core that can exist (R15, R16). -/
def coreCodeOk (c : Nat) : Bool := decide (c < 2048) && (decide (c / 32 % 8 < 5) || (decide (0x7E0 ≤ c) && decide (c ≤ 0x7E7)))

/-- The value that a hub register holds at reset, by offset (R28, R321, R426, R432, R464 and the other register tables of the spec): what
an unlisted register reads as. DEVCAP and CMAP are those of a part with every unit in service (log entry 2). -/
def regReset (off : Nat) : Word :=
  if off = 0 then BitVec.ofNat 64 (8 * 2 ^ 48 + 40 * 2 ^ 40 + 160 * 2 ^ 32 + 1280 * 2 ^ 21 + 0x108)
  else if 0x1000 ≤ off ∧ off < 0x1280 ∧ off % 4 = 0 then 0x9FF
  else if off = 0x2000 then 200
  else if 0x2100 ≤ off ∧ off < 0x2140 ∧ off % 8 = 0 then 0xFFF0001A4
  else if 0x2200 ≤ off ∧ off < 0x2240 ∧ off % 8 = 0 then BitVec.ofNat 64 (400 * ((off - 0x2200) / 8 + 1))
  else if off = 0x5008 then 250
  else if off = 0x5018 then 24
  else if 0x5100 ≤ off ∧ off < 0x5200 ∧ off % 32 = 0 then BitVec.ofNat 64 (((off - 0x5100) / 32 * 64 + 63) * 2 ^ 30)
  else if 0x5100 ≤ off ∧ off < 0x5200 ∧ off % 32 = 16 then BitVec.ofNat 64 ((off - 0x5100) / 32 * 2 ^ 36 + 0xFBFF80000)
  else if off = 0x6000 then 1
  else if off = 0x7018 then 0x3FFF00000000
  else 0

/-- A hub register. -/
def reg (h : Hub) (off : Nat) : Word := mget (regReset off) h.regs off

/-- A hub register written; a register at its reset value is not listed. -/
def setReg (h : Hub) (off : Nat) (v : Word) : Hub := { h with regs := mset (regReset off) h.regs off v }

/-- CMAP of the cluster of a core (R28). The service cores are in no CMAP; DEVCAP.SVCC counts those in service. -/
def inService (h : Hub) (c : Nat) : Bool :=
  if isService c then h.svc.getLsbD (c % 8)
  else coreCodeOk c && bit (reg h (0x1000 + 4 * (c / 256 * 20 + c / 32 % 8 * 4 + c / 8 % 4))).toNat (c % 8)

/-- LMUOK of the sector of a core (R28, R30). -/
def lmuOk (h : Hub) (c : Nat) : Bool := !isService c && bit (reg h (0x1000 + 4 * (c / 256 * 20 + c / 32 % 8 * 4 + c / 8 % 4))).toNat 8

/-- The drift that an agent stamps its writes with (R403, R406): the newest, or the one before it until the agent has acknowledged. -/
def stampOf (h : Hub) (late : Bool) : BitVec 32 := if late then h.seals.newest - 1 else h.seals.newest

/-! ## The view of one context -/

/-- What an instruction does to the program counter when it retires. -/
inductive Next where
  | seq                    -- the next slot, or the branch target after the second delay slot
  | at_ (pc : Word)        -- a slot that the instruction itself names (LOOP, REP)
  | jump (pc : Word)       -- entry to machine code or return from it: no loop end test
  | gone                   -- the context no longer issues this firing, or its own rules have set everything
  deriving DecidableEq, Repr

/-- What one context reaches by itself: its registers, its core, cluster, sector and domain, and the hub. An instruction that runs
on this view cannot touch memory, another context, or another core. `peers` are the other contexts of the core, to be read. -/
structure Loc where
  cid : Nat
  ctx : Ctx
  core : Core
  clus : Cluster
  sect : Sector
  dom : Domain
  hub : Hub
  peers : List Ctx
  now : Nat
  tick : Nat
  next : Next
  pfx : Bool               -- the value PFXV takes at retirement
  dl : Option Nat          -- a new YIELD deadline
  wakes : List Nat         -- lines of S it has written
  deriving DecidableEq, Repr

/-- The view of context `cid`. -/
def State.loc (s : State) (cid : Nat) : Loc :=
  let c := coreOfCid cid
  { cid := cid, ctx := mget emptyCtx s.ctxs cid, core := mget emptyCore s.cores c, clus := mget emptyCluster s.clus (clusOfCore c)
    sect := mget emptySector s.sects (sectOfCore c), dom := mget emptyDomain s.doms (domOfCore c), hub := s.hub
    peers := (upto 8).filterMap (fun k => if k = cid % 8 then none else some (mget emptyCtx s.ctxs (c * 8 + k)))
    now := s.now, tick := s.tick, next := .seq, pfx := false, dl := none, wakes := [] }

/-- Space code of a pointer. -/
def spaceOf (p : Word) : Nat := fld p 60 4
/-- Address of a pointer. -/
def addrOf (p : Word) : Nat := fld p 0 60

/-- A context that waits on a line is woken (R258). -/
def wakeCtx (hit : WaitaReq → Bool) (c : Ctx) : Ctx :=
  match c.status with
  | .parked (.waita r) => if hit r then { c with status := .parked (.waita { r with woken := true }) } else c
  | _ => c

/-- A write to a line of S of a cluster wakes its waiters. -/
def wakeScratch (s : State) (cl line : Nat) : State :=
  { s with ctxs := s.ctxs.map (fun e =>
      (e.1, wakeCtx (fun r => spaceOf r.va == 4 && r.pa / 64 == line && clusOfCore (coreOfCid e.1) == cl) e.2)) }

/-- The state with the view written back, and the waiters on the lines of S that it wrote woken (R258). Memory is no part of it. -/
def State.putLoc (s : State) (l : Loc) : State :=
  let c := coreOfCid l.cid
  l.wakes.foldl (fun s line => wakeScratch s (clusOfCore c) line)
    { s with ctxs := mset emptyCtx s.ctxs l.cid l.ctx, cores := mset emptyCore s.cores c l.core
             clus := mset emptyCluster s.clus (clusOfCore c) l.clus, sects := mset emptySector s.sects (sectOfCore c) l.sect
             doms := mset emptyDomain s.doms (domOfCore c) l.dom, hub := l.hub, tick := l.tick }

/-- Why an instruction does not retire: a fault, or a park. -/
inductive Stop where
  | fault (l : Loc) (f : FaultInfo)
  | park (l : Loc) (p : Park)
  deriving DecidableEq, Repr

/-- A computation that may stop. -/
abbrev Res (α : Type) := Except Stop α

/-- A fault with a code and nothing else (R376). -/
def faultOf (code : BitVec 8) : FaultInfo :=
  { code := code, addr := 0, acc := 0, kind := 0, dcl := 0, merged := 0, status := 0, tid := 0 }

/-- Raise a code. -/
def flt {α : Type} (l : Loc) (code : BitVec 8) : Res α := .error (.fault l (faultOf code))

/-- The access code of a record (R376). -/
def accCode : Acc → BitVec 2
  | .read => 0 | .write | .atomic => 1 | .fetch => 2

/-- Raise 0x06 with the pointer, for a kind of access (R376). -/
def flt06 {α : Type} (l : Loc) (ptr : Word) (k : Acc) : Res α := .error (.fault l { faultOf 0x06 with addr := ptr, acc := accCode k })

/-- Raise a code unless a condition holds. -/
def need (l : Loc) (ok : Bool) (code : BitVec 8) : Res Unit := if ok then .ok () else flt l code

/-- Park. -/
def parkOn {α : Type} (l : Loc) (p : Park) : Res α := .error (.park l p)

/-! ## Registers -/

/-- Pn (R74). -/
def Loc.p (l : Loc) (n : Reg) : Word := l.ctx.p[n]

/-- Pn written; a register that receives a result without poison loses its poison (R149). -/
def Loc.setP (l : Loc) (n : Reg) (v : Word) (pois : Bool) : Loc :=
  { l with ctx := { l.ctx with p := l.ctx.p.set n v, pPois := setBit l.ctx.pPois n.val pois } }

/-- Whether Pn carries poison. -/
def Loc.pPois (l : Loc) (n : Reg) : Bool := l.ctx.pPois.getLsbD n.val

/-- A written. -/
def Loc.setA (l : Loc) (v : Quad) (pois : Bool) : Loc := { l with ctx := { l.ctx with a := v, aPois := pois } }

/-- STAT written. -/
def Loc.setStat (l : Loc) (v : Word) : Loc := { l with ctx := { l.ctx with stat := v } }

/-- The flags of an instruction applied. -/
def Loc.flags (l : Loc) (f : FlagUp) : Loc := l.setStat (applyFlags l.ctx.stat f)

/-- PRIV. -/
def Loc.priv (l : Loc) : Nat := stPRIV l.ctx.stat

/-- CIR bits: POIS 0, CHKR 1, IRV 2, JOV 3 (R92). -/
def Loc.cirSet (l : Loc) (i : Nat) : Loc := { l with ctx := { l.ctx with cir := setBit l.ctx.cir i true } }

/-- CIR.IRV. -/
def Ctx.irv (c : Ctx) : Bool := c.cir.getLsbD 2
/-- CIR.POIS. -/
def Ctx.pois (c : Ctx) : Bool := c.cir.getLsbD 0

/-- A field of CNT: 0 LD, 1 ST, 2 CP, 3 TL (R94). -/
def Ctx.cntOf (c : Ctx) (k : Nat) : Nat := fld c.cnt (6 * k) 6

/-- One more operation of a class. -/
def Ctx.cntInc (c : Ctx) (k : Nat) : Ctx := { c with cnt := setFld c.cnt (6 * k) 6 (c.cntOf k + 1) }

/-- One operation of a class complete. -/
def Ctx.cntDec (c : Ctx) (k : Nat) : Ctx := { c with cnt := setFld c.cnt (6 * k) 6 (c.cntOf k - 1) }

/-- An issue that would take a CNT field past 63 stalls the context (R94). -/
def cntRoom (l : Loc) (k : Nat) : Res Unit := if l.ctx.cntOf k < 63 then .ok () else parkOn l .stall

/-- Loop set j (R96). -/
def Ctx.lbeg (c : Ctx) (j : Nat) : Word := if j = 0 then c.lbeg0 else c.lbeg1
/-- LEND of set j. -/
def Ctx.lend (c : Ctx) (j : Nat) : Word := if j = 0 then c.lend0 else c.lend1
/-- LCNT of set j. -/
def Ctx.lcnt (c : Ctx) (j : Nat) : Word := if j = 0 then c.lcnt0 else c.lcnt1

/-- The number of slot indices: valid indices lie below it (R108). -/
def slotLimit : Nat := 5 * 2 ^ 54

/-! ## Consumption of poison (R149, R93) -/

/-- The pointer of poison that comes from a register or a token: space code 0xF (R93). -/
def regPtr : Word := 0xF000000000000000

/-- One poisoned operand is consumed. -/
def Loc.consume (l : Loc) (ptr : Word) : Loc :=
  let c := l.ctx
  let cira := if c.pois then c.cira else ptr
  let pc := fld c.cir 8 8
  let cir := setFld (setBit c.cir 0 true) 8 8 (if pc < 255 then pc + 1 else 255)
  { l with ctx := { c with cir := cir, cira := cira } }

/-! ## Pointers and spaces (R78, R80) -/

/-- The pointer that CIRA takes for poison in n bytes at a pointer (R93): space code 0xF where they lie in an LMU result row, which a live row
slot of Y holds (R286). -/
def Loc.poisPtr (l : Loc) (ptr : Word) (n : Nat) : Word :=
  if spaceOf ptr = 3 ∧ l.core.rows.any (fun r => decide (r.off < addrOf ptr + n) && decide (addrOf ptr < r.off + r.len)) then regPtr else ptr

/-- Address arithmetic modulo 2^60 that keeps the space code (R78). -/
def ptrAdd (p : Word) (k : Word) : Word := (p &&& regPtr) ||| ((p + k) &&& ~~~regPtr)

/-- Size of W, X, Y or S (R80). -/
def bufSize (sp : Nat) : Nat := if sp = 1 ∨ sp = 3 then 0x3000 else if sp = 2 then 0x2000 else if sp = 4 then 0x40000 else 0

/-- The bytes of W, X, Y or S. -/
def Loc.buf (l : Loc) (sp : Nat) : Map Byte :=
  if sp = 1 then l.core.w else if sp = 2 then l.core.x else if sp = 3 then l.core.y else l.clus.s

/-- W, X, Y or S replaced. -/
def Loc.setBuf (l : Loc) (sp : Nat) (m : Map Byte) : Loc :=
  if sp = 1 then { l with core := { l.core with w := m } }
  else if sp = 2 then { l with core := { l.core with x := m } }
  else if sp = 3 then { l with core := { l.core with y := m } }
  else { l with clus := { l.clus with s := m } }

/-- The key of a buffer word's poison mark. -/
def poisKey (sp word : Nat) : Nat := sp * 4096 + word

/-- The lines of n bytes from an address. -/
def linesFrom (a n : Nat) : List Nat := (upto ((a % 64 + n + 63) / 64)).map (fun i => a / 64 + i)

/-- The 16-byte words that n bytes at an offset touch. -/
def wordsOf (off n : Nat) : List Nat := (upto ((off + n - 1) / 16 - off / 16 + 1)).map (fun k => off / 16 + k)

/-- Whether any word of W, X, Y or S under some bytes is poisoned. -/
def Loc.bufPois (l : Loc) (sp off n : Nat) : Bool :=
  (wordsOf off n).any (fun w => if sp = 4 then mget false l.clus.spois w else mget false l.core.pois (poisKey sp w))

/-- A poison mark of a buffer word set or cleared. -/
def Loc.setWordPois (l : Loc) (sp w : Nat) (b : Bool) : Loc :=
  if sp = 4 then { l with clus := { l.clus with spois := mset false l.clus.spois w b } }
  else { l with core := { l.core with pois := mset false l.core.pois (poisKey sp w) b } }

/-- The journal entry of a word of the core's own W, X or Y, made before the firing's first write to it (R302). -/
def Loc.journalWord (l : Loc) (sp w : Nat) : Loc :=
  let c := l.ctx
  if c.cir.getLsbD 3 || c.journal.any (fun e => e.space == sp && e.word == w) then l
  else if c.journal.length ≥ 128 then (l.cirSet 3).cirSet 2
  else
    let e : JEntry := { space := sp, word := w, old := bytesAt (l.buf sp) (16 * w) 16, pois := mget false l.core.pois (poisKey sp w) }
    { l with ctx := { c with journal := c.journal ++ [e] } }

/-- Poison of the words under a write (R149): poisoned data poison every word; clean data clear a word that one write covers whole. -/
def Loc.writePois (l : Loc) (sp off n : Nat) (pois : Bool) : Loc :=
  (wordsOf off n).foldl (fun l w =>
    if pois then l.setWordPois sp w true
    else if off ≤ 16 * w ∧ 16 * w + 16 ≤ off + n then l.setWordPois sp w false else l) l

/-- A write of the context to W, X, Y or S: journaled in the core's own buffers (R84, R150), with its poison. -/
def Loc.writeBuf (l : Loc) (sp off : Nat) (bs : List Byte) (pois : Bool) : Loc :=
  let l1 := if sp = 4 then l else (wordsOf off bs.length).foldl (fun l w => l.journalWord sp w) l
  let l2 := l1.setBuf sp (putBytes (l1.buf sp) off bs)
  let l3 := if sp = 4 then { l2 with wakes := l2.wakes ++ linesFrom off bs.length } else l2
  l3.writePois sp off bs.length pois

/-! ## Release signatures (R353, R354) -/

/-- The two bits that the hash of a line sets (R354). -/
def sigBits (key : Nat) : BitVec 256 :=
  let L := (if key ≥ hostBase then key - hostBase else key) / 64
  let h1 := (bits L 0 8) ^^^ (bits L 16 8) ^^^ (bits L 32 8)
  let h2 := (bits L 8 8) ^^^ (bits L 24 8) ^^^ (bits L 40 6)
  BitVec.twoPow 256 h1 ||| BitVec.twoPow 256 h2

/-- Whether a line matches a signature (R354). -/
def sigMatch (sig : BitVec 256) (key : Nat) : Bool := sig &&& sigBits key == sigBits key

/-- The signature folded to 64 bits (R356). -/
def sigFold (s : BitVec 256) : Word :=
  s.extractLsb' 0 64 ||| s.extractLsb' 64 64 ||| s.extractLsb' 128 64 ||| s.extractLsb' 192 64

/-- A folded signature unfolded (R356). -/
def sigUnfold (s : Word) : BitVec 256 := s ++ s ++ s ++ s

/-- An acquire that returns a signature (R356): matching D-cache lines go, and the context takes the signature. The I-cache starts
afresh, so that the context executes code that the acquired store wrote (R107; log entry 13). -/
def Loc.acquire (l : Loc) (sig : BitVec 256) : Loc :=
  { l with core := { l.core with dcache := l.core.dcache.filter (fun d => !sigMatch sig (64 * d.line)), icache := [] }
           ctx := { l.ctx with sig := l.ctx.sig ||| sig } }

/-! ## The fault queue (R376, R385, R386) -/

/-- The four doublewords of a fault record (R376). `lo` is bytes 16 to 23, `hi` bytes 24 to 31. -/
def recordOf (f : FaultInfo) (pasid : BitVec 20) (irv pfx dsl : Bool) (cid : Nat) (lo hi : Word) : FRec :=
  let w1 := f.kind.toNat * 2 ^ 30 + f.acc.toNat * 2 ^ 28 + f.code.toNat * 2 ^ 20 + pasid.toNat
    + 2 ^ 32 * (irv.toNat * 2 ^ 18 + pfx.toNat * 2 ^ 17 + dsl.toNat * 2 ^ 16 + f.dcl.toNat * 2 ^ 14 + cid % 2 ^ 14)
  { pasid := pasid.toNat, w0 := f.addr, w1 := BitVec.ofNat 64 w1, w2 := lo, w3 := hi, refused := false }

/-- The first free index of the CAM (R385). -/
def camFree (h : Hub) : Option Nat := (upto 64).find? (fun i => !mhas h.cam i)

/-- An entry that no one uses: never stored. -/
def noCam : CamEntry := { seq := 0, pasid := 0, page := 0, acc := .read, sub := 0, code := 0, trapNo := 0, reqs := [], ftime := 0, priSent := false }

/-- The replay token of an entry (R386). -/
def replayToken (i : Nat) (e : CamEntry) : Word := BitVec.ofNat 64 (e.seq * 64 + i)

/-- Whether a page request may be sent (R383): PRI has not stopped, and fewer are outstanding than the host's allocation. -/
def priRoom (h : Hub) : Bool := !h.priStopped && decide (h.priOut.length < h.priAlloc)

/-- The page request of an entry goes to the host (R382), with the CAM index as its group index. -/
def priSend (h : Hub) (i : Nat) (e : CamEntry) : Hub :=
  { h with out := .pri e.pasid (e.page * 2 ^ 14 + e.sub * 2 ^ 12) i e.acc :: h.out, priOut := h.priOut ++ [(i, e.seq)] }

/-- Who takes a fault of the queue, as its record says: the PASID, the CID, IRV, PFX and DSL, the hub time of its miss, and how many other
requesters its walk served (R376). -/
structure CamAsk where
  pasid : BitVec 20
  who : Requester
  cidRec : Nat
  irv : Bool
  pfx : Bool
  dsl : Bool
  miss : Nat
  merged : Nat
  acc : Acc

/-- The entries of the CAM whose page request waits unsent, in order of creation. -/
def unsentPri (h : Hub) : List (Nat × CamEntry) :=
  sortBy (fun x y => decide (x.2.seq ≤ y.2.seq)) (h.cam.filter (fun e => e.2.code == 0x12 && !e.2.priSent))

/-- Take or join an entry of the fault queue for code 0x10 or 0x12 (R385): the index, or none when the CAM is full. A new entry of
0x10 sends its record of KIND 1; one of 0x12 asks the host by PRI (R382), after the older ones that wait unsent (R383). -/
def camTake (h : Hub) (q : CamAsk) (va : Nat) (code : BitVec 8) (acc : BitVec 2) : Hub × Option Nat :=
  let page := va / 2 ^ 14
  match h.cam.find? (fun e => e.2.code != 0x40 && e.2.pasid == q.pasid.toNat && e.2.page == page) with
  | some (i, e) => ({ h with cam := mset noCam h.cam i { e with reqs := e.reqs ++ [q.who] } }, some i)
  | none =>
      match camFree h with
      | none => (h, none)
      | some i =>
          let send := code == 0x12 && priRoom h && (unsentPri h).isEmpty
          let e : CamEntry := { seq := h.camSeq + 1, pasid := q.pasid.toNat, page := page, acc := q.acc, sub := va / 2 ^ 12 % 4, code := code
                                trapNo := 0, reqs := [q.who], ftime := q.miss / 16, priSent := send }
          let f := { faultOf code with addr := BitVec.ofNat 64 (page * 2 ^ 14), acc := acc, kind := 1 }
          let r := recordOf f q.pasid q.irv q.pfx q.dsl q.cidRec (BitVec.ofNat 64 (e.ftime * 2 ^ 16 + min q.merged 0xFFFF)) (replayToken i e)
          let h1 := { h with cam := mset noCam h.cam i e, camSeq := h.camSeq + 1 }
          (if code = 0x12 then (if send then priSend h1 i e else h1)
           else { h1 with recs := h1.recs ++ [r] }, some i)

/-- What a context tells the fault queue. The miss is the moment at which it parked, when it waits for a walk. -/
def Loc.ask (l : Loc) (merged : Nat) (k : Acc) : CamAsk :=
  let c := l.ctx
  { pasid := c.pasid, who := .ctx l.cid, cidRec := l.cid, irv := c.irv, pfx := stPFXV c.stat, dsl := stDS c.stat != 0
    miss := (match c.status with | .parked (.walk ..) | .parked (.camWait ..) => c.parkedAt | _ => l.now), merged := merged, acc := k }

/-- A context takes a fault of class Park (R371, R373): it parks on an entry, or in the translation service while the CAM is full. -/
def camPark (l : Loc) (va : Nat) (code : BitVec 8) (k : Acc) (merged : Nat) : Loc × Park :=
  let c := l.ctx
  let (h, r) := camTake l.hub (l.ask merged k) va code (accCode k)
  match r with
  | some i => ({ l with hub := h, ctx := { c with landed := [] } }, .fault i va k)
  | none => (l, .camWait va code k)

/-- Whether a wait is one of the parks that R72 lists. A full counter or queue stalls a context (R94, R329, R337), and END, JOIN and YIELD wait
for CNT; the machine keeps both among the parks, but neither is parked in the sense of R72. -/
def Park.listed : Park → Bool
  | .stall | .finish => false
  | _ => true

/-- A context parks with `p`; its parked time starts when it enters a park of R72. -/
def Loc.parkAs (l : Loc) (p : Park) : Loc :=
  { l with ctx := { l.ctx with status := .parked p
                               parkedAt := (match l.ctx.status with
                                 | .parked q => if q.listed = p.listed then l.ctx.parkedAt else l.now
                                 | _ => l.now) } }

/-- Take a fault (R371-R374). At PRIV 2 the context parks for good and ISLST records it (R462). Codes 0x10 and 0x12 park on the fault
queue, but for one that was deferred, which belongs to an engine command that is gone (R239, R371). Every other code is of class End: the firing
ends once its started engine commands have completed (R372). -/
def raise (l : Loc) (f : FaultInfo) : Loc :=
  if l.priv = 2 then
    let v := setFld (setFld (reg l.hub 0x7018) 32 14 (l.cid % 2 ^ 14)) 24 8 f.code.toNat
    { l with hub := setReg l.hub 0x7018 v }.parkAs .forever
  else if (f.code = 0x10 ∨ f.code = 0x12) ∧ f.kind ≠ 2 then
    let (l1, p) := camPark l f.addr.toNat f.code (if f.acc = 0 then .read else if f.acc = 2 then .fetch else .write) 0
    l1.parkAs p
  else { l with ctx := { l.ctx with status := .ending f l.ctx.irv, landed := [] } }

/-! ## Translation at issue (R380, R381) -/

/-- Whether a cached translation answers for an address of a process. -/
def Tlb.covers (t : Tlb) (pasid va : Nat) : Bool :=
  t.pasid == pasid && t.vpage == va / 2 ^ 14 && (match t.quarter with | none => true | some q => q == va / 2 ^ 12 % 4)

/-- The cached translation of an address at a privilege: of host-filled ones, that with the privileged-mode grant at PRIV 1 and 2 and that without
it at PRIV 0, and else any: what it does not grant is a denial (R381). -/
def tlbPick (ts : List Tlb) (pasid priv va : Nat) : Option Tlb :=
  match ts.find? (fun t => t.covers pasid va && (t.quarter.isNone || t.priv == decide (1 ≤ priv))) with
  | some t => some t
  | none => ts.find? (fun t => t.covers pasid va)

/-- The cached translation of an address for this context. -/
def Loc.tlbFind (l : Loc) (va : Nat) : Option Tlb := tlbPick (l.core.utlb ++ l.clus.tlb ++ l.dom.tlb) l.ctx.pasid.toNat l.priv va

/-- Whether a translation lets a privilege in (R379, R381): U at PRIV 0; in a host-filled one the privileged-mode grant at PRIV 1 and 2. -/
def Tlb.admits (t : Tlb) (priv : Nat) : Bool := if t.quarter.isSome then t.priv || decide (priv = 0) else t.u || decide (1 ≤ priv)

/-- Whether a translation grants a kind of access (R379, R381). -/
def Tlb.grants (t : Tlb) (priv : Nat) : Acc → Bool
  | .read => t.r && t.admits priv
  | .write => t.w && t.admits priv
  | .atomic => t.r && t.w && t.admits priv
  | .fetch => t.x && t.admits priv

/-- Whether an access writes. -/
def Acc.writes : Acc → Bool
  | .write | .atomic => true
  | _ => false

/-- The key in memory of an address under a translation. -/
def Tlb.keyOf (t : Tlb) (va : Nat) : Nat := t.frame + (if t.quarter.isSome then va % 2 ^ 12 else va % 2 ^ 14)

/-- Translate an address of G (R106, R245). A miss parks the context for a walk, as does a write through a leaf whose D is 0 (R379).
A cached translation that does not grant the access is 0x11, or 0x12 where the host gave it (R381). -/
def xlate (l : Loc) (va : Nat) (k : Acc) : Res Tlb :=
  match l.tlbFind va with
  | none => parkOn l (.walk va k)
  | some t =>
      if !t.grants l.priv k then
        (if t.quarter.isNone then .error (.fault l { faultOf 0x11 with addr := BitVec.ofNat 64 (va / 2 ^ 14 * 2 ^ 14), acc := accCode k })
         else if l.priv = 2 then .error (.fault l { faultOf 0x12 with addr := BitVec.ofNat 64 (va / 2 ^ 14 * 2 ^ 14), acc := accCode k })
         else let (l1, p) := camPark l va 0x12 k 0; parkOn l1 p)
      else if k.writes && !t.d && t.quarter.isNone then parkOn l (.walk va k)
      else .ok t

/-! ## Reads and writes of operands (R81, R146, R147) -/

/-- Data of a read with its poison. -/
structure Datum where
  val : Quad
  pois : Bool
  deriving DecidableEq, Repr

/-- Checks of a pointer use (R81): alignment, then the space and the bounds. -/
def checkPtr (l : Loc) (ptr : Word) (n align : Nat) (k : Acc) : Res Unit :=
  if addrOf ptr % align ≠ 0 then flt06 l ptr k
  else if spaceOf ptr = 0 then .ok ()
  else if spaceOf ptr ≤ 4 ∧ addrOf ptr + n ≤ bufSize (spaceOf ptr) then .ok ()
  else flt06 l ptr k

/-- Whether a key lies in the hub register range (R21). -/
def isHub (key : Nat) : Bool := decide (hubBase ≤ key) && decide (key < 2 ^ 44)

/-- An access to the hub register range must be of 4 or 8 bytes (R466). -/
def hubSize (l : Loc) (ptr : Word) (key n : Nat) (k : Acc) : Res Unit := if isHub key ∧ n ≠ 4 ∧ n ≠ 8 then flt06 l ptr k else .ok ()

/-- LDA, STL, atomics and WAITA may not reach the hub register range at all (R466). -/
def notHub (l : Loc) (ptr : Word) (k : Acc) : Res Unit := do
  if spaceOf ptr = 0 then
    let t ← xlate l (addrOf ptr) k
    if isHub (t.keyOf (addrOf ptr)) then flt06 l ptr k else .ok ()
  else .ok ()

/-- The smaller of the size and 16 (R81). -/
def natAlign (n : Nat) : Nat := min n 16

/-- A read of n bytes, n at most 16, at a pointer. A read in G parks until its data has arrived (R146). Sources of one instruction that name the
same bytes are one load (log entry 116). -/
def readPtr (l : Loc) (ptr : Word) (n align : Nat) (home : Bool) (acq : Option Scope) : Res Datum := do
  checkPtr l ptr n align .read
  if spaceOf ptr = 0 then
    match l.ctx.landed.find? (fun d => d.va == ptr && d.n == n && !d.atom) with
    | some d => .ok { val := d.val, pois := d.pois }
    | none => do
        let t ← xlate l (addrOf ptr) .read
        hubSize l ptr (t.keyOf (addrOf ptr)) n .read
        parkOn l (.load ptr (t.keyOf (addrOf ptr)) n home acq t.nc t.trk)
  else
    .ok { val := quadOf (bytesAt (l.buf (spaceOf ptr)) (addrOf ptr) n), pois := l.bufPois (spaceOf ptr) (addrOf ptr) n }

/-- The bytes of a value in the D-cache line that holds a key, when the line is present (R249). -/
def putLine (ds : List DLine) (key : Nat) (bs : List Byte) (pois : Bool) : List DLine :=
  ds.map (fun d =>
    if d.line = key / 64 then
      { d with bytes := (upto 64).map (fun i =>
                 if key % 64 ≤ i ∧ i < key % 64 + bs.length then bs.getD (i - key % 64) 0 else d.bytes.getD i 0)
               pois := d.pois || pois }
    else d)

/-- A place that passed its checks and can be written without a fault. -/
inductive Ready where
  | buf (sp off : Nat)
  | g (va : Word) (key : Nat) (trk : Bool)
  deriving DecidableEq, Repr

/-- Check and translate the destination of a write of n bytes (R81, R245); room in CNT.ST (R94). -/
def readyPtr (l : Loc) (ptr : Word) (n align : Nat) : Res Ready := do
  checkPtr l ptr n align .write
  if spaceOf ptr = 0 then
    let t ← xlate l (addrOf ptr) .write
    hubSize l ptr (t.keyOf (addrOf ptr)) n .write
    cntRoom l 1
    .ok (.g ptr (t.keyOf (addrOf ptr)) t.trk)
  else .ok (.buf (spaceOf ptr) (addrOf ptr))

/-- How a store to G is performed (R249, R250, R244). -/
structure StoreKind where
  irv : Bool
  rel : Option Scope

/-- A plain store: scope core, order rlx, IRV 0. -/
def plainStore : StoreKind := { irv := false, rel := none }

/-- The context retires a store to G (R249): it waits in the context's queue until it is performed, CNT.ST rises, a D-cache line that is
present takes it, and the line joins the context's signature (R353). -/
def Loc.storeG (l : Loc) (va : Word) (key : Nat) (trk : Bool) (bs : List Byte) (pois : Bool) (k : StoreKind) : Loc :=
  let c := l.ctx
  let sig := c.sig ||| sigBits key
  let st : GStore := { pa := key, va := va, bytes := bs, stamp := stampOf l.hub l.core.late, irv := k.irv, rel := k.rel, sig := sig, pois := pois
                       trk := trk, trig := false, seq := l.core.seq }
  let c1 := { c with stq := c.stq ++ [st], sig := sig, cir := if k.irv then setBit c.cir 2 true else c.cir }
  { l with ctx := c1.cntInc 1, core := { l.core with dcache := putLine l.core.dcache key bs pois, seq := l.core.seq + 1 } }

/-- Write bytes at a ready place. -/
def Loc.writeReady (l : Loc) (r : Ready) (bs : List Byte) (pois : Bool) (k : StoreKind) : Loc :=
  match r with
  | .buf sp off => l.writeBuf sp off bs pois
  | .g va key trk => l.storeG va key trk bs pois k

/-! ## Retirement -/

/-- The loop exit rule (R197): the active loops that hold the transferring index and not the target end. -/
def loopExit (c : Ctx) (tr tgt : Word) : Ctx :=
  let lpd := stLPD c.stat
  let ends := (upto lpd).filter (fun j =>
    decide (c.lbeg j ≤ tr) && decide (tr ≤ c.lend j) && !(decide (c.lbeg j ≤ tgt) && decide (tgt ≤ c.lend j)))
  { c with stat := setFld c.stat 40 3 (lpd - ends.length) }

/-- PC after a slot retires in sequence: the next slot, or BTGT after the second delay slot (R127, R195). -/
def advance (c : Ctx) : Ctx :=
  match stDS c.stat with
  | 0 => { c with pc := c.pc + 1, tgtCheck := false }
  | 1 =>
      let c1 := { c with pc := c.btgt, stat := setFld c.stat 45 2 0, tgtCheck := c.taken, taken := false, linked := false }
      if c.linked then c1 else loopExit c1 (c.pc - 2) c.btgt
  | n + 2 => { c with pc := c.pc + 1, stat := setFld c.stat 45 2 (n + 1), tgtCheck := false }

/-- The end test of the innermost active loop (R199), run after the slot at its LEND has retired; `fuel` is the loop depth. -/
def loopTest (c : Ctx) : Nat → Ctx
  | 0 => c
  | fuel + 1 =>
      let lpd := stLPD c.stat
      if lpd = 0 then c
      else
        let j := lpd - 1
        if c.lcnt j ≠ 0 then
          let c1 := if j = 0 then { c with lcnt0 := c.lcnt0 - 1 } else { c with lcnt1 := c.lcnt1 - 1 }
          { c1 with pc := c.lbeg j }
        else
          let c1 := { c with stat := setFld c.stat 40 3 j, pc := c.lend j + 1 }
          if 0 < j ∧ c.lend j = c.lend (j - 1) then loopTest c1 fuel else c1

/-- Whether the slot at `pc` is LEND of the innermost active loop (R199). -/
def atLend (c : Ctx) : Bool := decide (0 < stLPD c.stat) && c.pc == c.lend (stLPD c.stat - 1)

/-- One more illegal pair, saturating (R126). -/
def sercInc (v : BitVec 32) : BitVec 32 := if v = 0xFFFFFFFF then v else v + 1

/-- An instruction that is the first of an illegal pair is counted (R124, R126). -/
def Loc.countPair (l : Loc) : Loc := if l.ctx.pairBad then { l with core := { l.core with serc := sercInc l.core.serc } } else l

/-- An instruction retires: PFXV clears unless it set it (R91), the deadline counts (R206), PC moves, a due loop end test is noted. -/
def retire (l : Loc) : Loc :=
  let c := l.ctx
  let due := atLend c
  let core := if l.next = .gone then l.core else l.countPair.core
  let c1 := { c with status := .issuing, landed := [], pairBad := false, bmov := 0
                     dleft := (match l.dl with | some n => n | none => c.dleft - 1), stat := setBit c.stat 47 l.pfx }
  let c2 :=
    match l.next with
    | .seq => let d := advance c1; if due ∧ stDS c.stat ≠ 1 then { d with endTest := true } else d
    | .at_ pc => { c1 with pc := pc, tgtCheck := false, endTest := due }
    | .jump pc => { c1 with pc := pc }
    | .gone => c
  { l with ctx := c2, core := core }

/-! ## The frame of every instruction (R114, R134, R206) -/

/-- Whether a branch stands where its second delay slot reaches LEND of a loop whose body holds it (R129; log entry 9). -/
def branchBarred (c : Ctx) : Bool :=
  (upto (stLPD c.stat)).any (fun j =>
    decide (c.lbeg j ≤ c.pc) && decide (c.pc ≤ c.lend j) && decide ((c.lend j).toNat ≤ c.pc.toNat + 2))

/-- The decode faults that need the context, in the order of R134: format word, its unused fields, delay slots and loop ends, pair
base, privilege. -/
def decodeFault (c : Ctx) (i : Instr) : Option (BitVec 8) :=
  let fw := stPFXW c.stat
  if stPFXV c.stat && !prefixValuesOk i fw then some 0x01
  else if stPFXV c.stat && !prefixUnusedOk i fw then some 0x02
  else if stDS c.stat ≠ 0 && slotBarred (stDS c.stat == 1) i then some 0x04
  else if isTransfer i && branchBarred c then some 0x04
  else if !pairsOk i then some 0x05
  else if stPRIV c.stat < privOf i then some 0x08
  else none

/-- Whether an instruction is exempt from the deadline test at its retirement: YIELD and END whose predicate holds (R206), and BMOV,
which makes the test before each of its 64-byte steps (R252); REP makes it at each instance (R202). -/
def noDeadline : Instr → Bool
  | .yield .. | .endF .. | .bmov .. | .rep .. => true
  | _ => false

/-- Whether an instruction in a park has still to retire by itself, so that the deadline is tested then (R206). An atomic takes effect at its
home while it is parked, so its test comes before. -/
def Park.pure : Park → Bool
  | .atomic _ => false
  | _ => true

/-- An instruction whose predicate is false (R114, R196): a transfer sets DS and BTGT all the same. -/
def skip (l : Loc) (i : Instr) : Loc :=
  if isTransfer i then
    let c := l.ctx
    retire { l with next := .at_ (c.pc + 1)
                    ctx := { c with stat := setFld c.stat 45 2 2, btgt := c.pc + 3, taken := false, linked := false } }
  else retire l

/-- Raise the watchdog fault (R206). -/
def watchdog (l : Loc) : Loc := raise l (faultOf 0x09)

/-- The outcome of an instruction's own effect: it retires, faults or parks; at a deadline of 0 it takes fault 0x09 instead of
retiring, with no effect (R206). Also says whether it retired. -/
def settle (l : Loc) (i : Instr) (r : Res Loc) : Loc × Bool :=
  match r with
  | .error (.fault l1 f) => (raise l1 f, false)
  | .error (.park l1 p) => if !p.pure && !noDeadline i && l.ctx.dleft == 0 then (watchdog l, false) else (l1.parkAs p, false)
  | .ok l1 => if !noDeadline i && l.ctx.dleft == 0 then (watchdog l, false) else (retire l1, true)

/-- Whether a context can take an issue slot: it issues, or it waits in a park that it leaves by itself. Parks that an event of the
device ends are left alone. -/
def Ctx.runnable (c : Ctx) : Bool :=
  match c.status with
  | .issuing => true
  | .parked p =>
      match p with
      | .wait | .fence | .seal _ | .engine | .service | .stall | .finish | .trapWait _ => true
      | _ => false
  | _ => false

/-! ## Writes of the hub that find no room (R411, R415) -/

/-- A seal of the newest open drift is requested (R408). -/
def wantSeal (h : Hub) : Hub := { h with seals := { h.seals with wanted := true } }

/-- A seal of drift d is requested: one that is sealed, or is being sealed, satisfies the request (R408). -/
def wantSealOf (h : Hub) (d : BitVec 32) : Hub := if d = h.seals.newest then wantSeal h else h

/-- The egress hold asks for a seal of drift d (R408). -/
def wantHold (h : Hub) (d : BitVec 32) : Hub :=
  if d = h.seals.newest then { h with seals := { h.seals with holdWant := true } } else h

/-- A saturating count of one in a field of a register. -/
def bump (h : Hub) (off lo n : Nat) : Hub :=
  let v := reg h off
  if fld v lo n = 2 ^ n - 1 then h else setReg h off (setFld v lo n (fld v lo n + 1))

/-- A write stalls at the home of a channel, counted once (R411): its region is full, or an earlier write to the channel waits. -/
def wbStallAt (h : Hub) (ch pa : Nat) (by_ : Option Nat) : Hub :=
  let old := h.seals.sealed + 1
  if (ch, pa, by_) ∈ h.wbStall then wantSealOf h old
  else wantSealOf { bump h (0x5108 + 32 * (ch / 4)) 32 16 with wbStall := (ch, pa, by_) :: h.wbStall } old

/-- A write that found no room stalls its issuer and asks for a seal (R411, R415). -/
def stallFor (h : Hub) : NoRoom → Hub
  | .log ch pa by_ => wbStallAt h ch pa by_
  | .hold e => wantHold h e

/-- A step of the device is made whole or not at all (log entry 12): when a write of the hub in it has found no room, it waits for the seal
that it asks for, and only the stall shows. -/
def wholeStep (s t : State) : State :=
  if t.hub.noRoom.length ≤ s.hub.noRoom.length then t else { s with hub := (t.hub.noRoom.take 1).foldl stallFor s.hub }

/-- The same for an instruction: its context stalls (R411, R415). -/
def wholeIssue (s t : State) : State :=
  if t.hub.noRoom.length ≤ s.hub.noRoom.length then t
  else let l := s.loc s.cur; s.putLoc ({ l with hub := (t.hub.noRoom.take 1).foldl stallFor l.hub }.parkAs .stall)

/-- Run an instruction on context `cur`: decode faults, predicate, effect (R134, R114). The effect may also ask for a change beyond the
context's view, which `fin` makes when the instruction retires. A context that cannot issue stays as it is. -/
def issueWith (fin : State → (State → State) → State → State) (i : Instr) (body : State → Loc → Res (Loc × (State → State))) (s : State) :
    Host.Outcome State Fault Refusal :=
  let l := s.loc s.cur
  if s.hub.power = .off ∨ s.hub.power = .bootStopped then .fault .notPowered
  else if s.hub.power = .hold ∨ !l.ctx.runnable then .next s
  else
    match decodeFault l.ctx i with
    | some code => .next (s.putLoc (raise l (faultOf code)))
    | none =>
        if !condHolds l.ctx.stat (condOf i) then
          .next (s.putLoc (if l.ctx.dleft = 0 then watchdog l else skip l i))
        else
          match body s l with
          | .error e => .next (s.putLoc (settle l i (.error e)).1)
          | .ok (l1, post) =>
              let (l2, done) := settle l i (.ok l1)
              .next (if done then fin s post (s.putLoc l2) else s.putLoc l2)

/-- An instruction that acts beyond the context's view; a context whose writes find no room stalls. -/
def issueG (i : Instr) (body : State → Loc → Res (Loc × (State → State))) (s : State) : Host.Outcome State Fault Refusal :=
  issueWith (fun s post t => wholeIssue s (post t)) i body s

/-- Whether the units of the device run (R455). -/
def Hub.up (h : Hub) : Bool := match h.power with | .run | .cap | .toHold => true | _ => false

/-- An event of the device: nothing happens while its units are off, and one in which a write of the hub finds no room waits. -/
def live (s t : State) : Host.Outcome State Fault Refusal := .next (if s.hub.up then wholeStep s t else s)

/-- Run an instruction whose effect stays in the context's view. -/
def issue (i : Instr) (body : Loc → Res Loc) (s : State) : Host.Outcome State Fault Refusal :=
  issueWith (fun _ _ t => t) i (fun _ l => do let l1 ← body l; .ok (l1, id)) s

end Sys2Proof.Machine
end

