-- ==== Sys2Proof/Machine/Operands.lean ====
section
/-! DEFINITION. Operand descriptors at work (R85-R88, R144, R145): addresses and values, pointer updates, pops, destinations. -/
namespace Sys2Proof.Machine

/-- The effective address of a memory operand with access size sc (R85). -/
def Loc.ea (l : Loc) (o : Opd) (sc : Nat) : Word :=
  match o with
  | .mem p off => ptrAdd (l.p p) (off.signExtend 64 * BitVec.ofNat 64 sc)
  | .post p _ => l.p p
  | .pre p off => ptrAdd (l.p p) (-(off.setWidth 64 * BitVec.ofNat 64 sc))
  | _ => 0

/-- The pointer update of an operand (R85). -/
def Loc.update (l : Loc) (o : Opd) (sc : Nat) : Option (Reg × Word) :=
  match o with
  | .post p off => some (p, ptrAdd (l.p p) (off.setWidth 64 * BitVec.ofNat 64 sc))
  | .pre p off => some (p, ptrAdd (l.p p) (-(off.setWidth 64 * BitVec.ofNat 64 sc)))
  | _ => none

/-- A value put into every lane of a view. -/
def splat (lw v : Nat) : Quad :=
  BitVec.ofNat 128 ((upto (128 / lw)).foldl (fun acc i => acc + v % 2 ^ lw * 2 ^ (lw * i)) 0)

/-- A lane of a 128-bit value (R76). -/
def lane (lw : Nat) (x : Quad) (i : Nat) : Nat := bits x.toNat (lw * i) lw

/-- The 128-bit value of lanes given by a function. -/
def ofLanes (lw : Nat) (f : Nat → Nat) : Quad :=
  BitVec.ofNat 128 ((upto (128 / lw)).foldl (fun acc i => acc + f i % 2 ^ lw * 2 ^ (lw * i)) 0)

/-- An integer as a lane of a view: its low bits, or rounded into the lane format with no flag (R144). -/
def laneOfInt (v : View) (rm : Nat) (x : Int) : Nat :=
  if View.isFp v then ((fmtOf v).ofVal rm (FVal.ofInt x)).1 else lowBits x (View.lw v)

/-- An operand's value, with the poison that reading it consumes and the pointer of that poison (R149, R93). -/
structure Src where
  val : Quad
  pois : Bool
  ptr : Word
  deriving DecidableEq, Repr

/-- A value that carries no poison. -/
def clean (v : Quad) : Src := { val := v, pois := false, ptr := 0 }

/-- Whether the pointer register of a memory operand carries poison. -/
def Loc.basePois (l : Loc) : Opd → Bool
  | .mem p _ | .post p _ | .pre p _ => l.pPois p
  | _ => false

/-- An operand with the poison of its pointer register, which forming the address reads (R87, R149; log entry 18). -/
def Loc.based (l : Loc) (o : Opd) (s : Src) : Src := if l.basePois o then { s with pois := true, ptr := regPtr } else s

/-- Poison of a register pair that an instruction reads as one operand (R79, R149). -/
def Loc.consumePair (l : Loc) (r : Nat) : Loc :=
  if l.ctx.pPois.getLsbD (r % 8) || l.ctx.pPois.getLsbD ((r + 1) % 8) then l.consume regPtr else l

/-- The head token of one of the firing's inputs (R88): fault 0x18 for another channel, 0x0B past the consumption rate. -/
def chanTok (l : Loc) (ch : BitVec 5) : Res Token := do
  let c := l.ctx
  let isActor : Bool := match c.kind with | .actor _ => true | _ => false
  if isActor ∧ ch = c.ch0 ∧ 0 < c.c0 then
    match c.quota0[c.pop0]? with
    | some t => .ok t
    | none => flt l 0x0B
  else if isActor ∧ c.ch1 = some ch then
    match c.quota1[c.pop1]? with
    | some t => .ok t
    | none => flt l 0x0B
  else flt l 0x18

/-- The value of a source operand in its form (R144, R192). -/
def fetch (l : Loc) (v : View) (rm : Nat) (o : Opd) (f : Form) : Res Src :=
  match f with
  | .reg => .ok (match o with | .preg p => { val := (l.p p).setWidth 128, pois := l.pPois p, ptr := regPtr } | _ => clean 0)
  | .bytes _ => .ok (l.based o (clean 0))
  | .scalar n =>
      match o with
      | .acc => .ok { val := BitVec.ofNat 128 (lowBits (l.ctx.a.toNat : Int) (8 * n)), pois := l.ctx.aPois, ptr := regPtr }
      | .preg p => .ok { val := BitVec.ofNat 128 (lowBits ((l.p p).toNat : Int) (8 * n)), pois := l.pPois p, ptr := regPtr }
      | .chan ch _ => do
          let t ← chanTok l ch
          .ok { val := BitVec.ofNat 128 (lowBits (t.payload.toNat : Int) (8 * n)), pois := t.pois, ptr := regPtr }
      | .imm x => .ok (clean (BitVec.ofNat 128 (lowBits x.toInt (8 * n))))
      | .zeros | .lanes => .ok (clean 0)
      | .ones => .ok (clean (BitVec.ofNat 128 (2 ^ (8 * n) - 1)))
      | o => do
          let d ← readPtr l (l.ea o n) n (natAlign n) false none
          .ok (l.based o { val := d.val, pois := d.pois, ptr := l.poisPtr (l.ea o n) n })
  | .vector =>
      match o with
      | .acc => .ok { val := l.ctx.a, pois := l.ctx.aPois, ptr := regPtr }
      | .preg p => .ok { val := (l.p p).setWidth 128, pois := l.pPois p, ptr := regPtr }
      | .chan ch _ => do
          let t ← chanTok l ch
          .ok { val := t.payload, pois := t.pois, ptr := regPtr }
      | .imm x => .ok (clean (splat (View.lw v) (laneOfInt v rm x.toInt)))
      | .zeros => .ok (clean 0)
      | .ones => .ok (clean (BitVec.allOnes 128))
      | .lanes => .ok (clean (ofLanes (View.lw v) (fun i => laneOfInt v rm i)))
      | o => do
          let d ← readPtr l (l.ea o 16) 16 16 false none
          .ok (l.based o { val := d.val, pois := d.pois, ptr := l.poisPtr (l.ea o 16) 16 })

/-- A source that may be absent. -/
def fetchOpt (l : Loc) (v : View) (rm : Nat) : Option (Opd × Form) → Res Src
  | none => .ok (clean 0)
  | some (o, f) => fetch l v rm o f

/-- A destination that passed its checks. -/
inductive Dst where
  | none_
  | acc
  | preg (p : Reg)
  | mem (r : Ready)
  deriving DecidableEq, Repr

/-- Whether a destination is a P register: the old value of an atomic is zero-extended there (R256). -/
def Dst.isPreg : Dst → Bool
  | .preg _ => true
  | _ => false

/-- Check a destination written in a form (R81, R86, R145). -/
def readyDst (l : Loc) : Option (Opd × Form) → Res Dst
  | none => .ok .none_
  | some (_, .reg) => .ok .none_
  | some (o, f) =>
      match o with
      | .acc => .ok .acc
      | .preg p => .ok (.preg p)
      | o => do
          let r ← readyPtr l (l.ea o f.sc) f.sc (natAlign f.sc)
          .ok (.mem r)

/-- The operands of an instruction, all read (R87): S1, S2, X, the old D where it is read, their poison, and the place of D. -/
structure Args where
  a : Src
  b : Src
  x : Src
  d : Src
  dst : Dst
  deriving DecidableEq, Repr

/-- Rounding mode, saturation and format word in force (R39, R154). -/
structure Env where
  stat : Word
  fw : Option (BitVec 16)
  rm : Nat
  sat : Bool
  deriving DecidableEq, Repr

/-- What the prefix and STAT give an instruction (R39, R154). -/
def envOf (c : Ctx) (i : Instr) : Env :=
  let fw := if stPFXV c.stat then some (stPFXW c.stat) else none
  { stat := c.stat, fw := fw
    rm := (match fw, fmtUse i with | some w, some u => if u.rnd then fwRnd w else stRM c.stat | _, _ => stRM c.stat)
    sat := (match fw with | some w => fwSat w | none => false) }

/-- Read every operand and check the destination, in the order of R87. -/
def fetchArgs (l : Loc) (v : View) (rm : Nat) (sh : Shape) : Res Args := do
  let a ← fetchOpt l v rm sh.s1
  let b ← fetchOpt l v rm sh.s2
  let x ← fetchOpt l v rm sh.x
  let d ← fetchOpt l v rm (if sh.dRead then sh.d else none)
  let dst ← readyDst l sh.d
  .ok { a := a, b := b, x := x, d := (match sh.d with | some (o, _) => l.based o d | none => d), dst := dst }

/-- The poison of every operand read, consumed in operand order (R149). -/
def Loc.consumeAll (l : Loc) (ss : List Src) : Loc := ss.foldl (fun l s => if s.pois then l.consume s.ptr else l) l

/-- The pointer updates of all operands (R87 step 3). -/
def Loc.updateAll (l : Loc) (sh : Shape) : Loc :=
  (sh.opds.filterMap (fun (o, f) => l.update o f.sc)).foldl (fun l (p, w) => l.setP p w (l.pPois p)) l

/-- The pops of the channel operands (R88). -/
def Loc.popAll (l : Loc) (sh : Shape) : Loc :=
  sh.opds.foldl (fun l (o, _) =>
    match o with
    | .chan ch false =>
        if ch = l.ctx.ch0 then { l with ctx := { l.ctx with pop0 := l.ctx.pop0 + 1 } } else { l with ctx := { l.ctx with pop1 := l.ctx.pop1 + 1 } }
    | _ => l) l

/-- Everything an instruction does to its operands before it writes D: poison consumed, pointers updated, tokens popped. -/
def Loc.take (l : Loc) (sh : Shape) (g : Args) : Loc :=
  ((l.consumeAll [g.a, g.b, g.x, g.d]).updateAll sh).popAll sh

/-- Whether any operand read is poisoned: the result carries poison (R149). -/
def Args.pois (g : Args) : Bool := g.a.pois || g.b.pois || g.x.pois || g.d.pois

/-- An n-bit result extended to 64 bits (R145). -/
def extend64 (n : Nat) (uns : Bool) (r : Nat) : Word :=
  if uns then BitVec.ofNat 64 (r % 2 ^ n) else BitVec.ofInt 64 (sextI r n)

/-- Write an n-bit scalar result (R77, R145). -/
def Loc.writeScalar (l : Loc) (dst : Dst) (n : Nat) (uns : Bool) (r : Quad) (pois : Bool) : Loc :=
  match dst with
  | .none_ => l
  | .acc =>
      if n = 128 then l.setA r pois
      else l.setA (l.ctx.a.extractLsb' 64 64 ++ extend64 n uns r.toNat) pois
  | .preg p => l.setP p (extend64 n uns r.toNat) pois
  | .mem q => l.writeReady q (leBytes (n / 8) r.toNat) pois plainStore

/-- Write a 128-bit vector result (R145). -/
def Loc.writeVector (l : Loc) (dst : Dst) (r : Quad) (pois : Bool) : Loc :=
  match dst with
  | .none_ => l
  | .acc => l.setA r pois
  | .preg p => l.setP p (r.setWidth 64) pois
  | .mem q => l.writeReady q (leBytes 16 r.toNat) pois plainStore

/-- The result of a compute instruction: the value, flags, zero extension of a scalar result, and poison of its own (R52). -/
structure Out where
  r : Quad
  flags : FlagUp
  uns : Bool
  pois : Bool
  deriving DecidableEq, Repr

/-- A result with flags, sign-extended. -/
def outN (r : Nat × FlagUp) : Out := { r := BitVec.ofNat 128 r.1, flags := r.2, uns := false, pois := false }
/-- A result without flags. -/
def outQ (r : Quad) : Out := { r := r, flags := noFlags, uns := false, pois := false }

/-- Write a result in the form of D. -/
def Loc.writeOut (l : Loc) (sh : Shape) (dst : Dst) (o : Out) (pois : Bool) : Loc :=
  match sh.d with
  | some (_, .scalar n) => l.writeScalar dst (8 * n) o.uns o.r (pois || o.pois)
  | some (_, .vector) => l.writeVector dst o.r (pois || o.pois)
  | some (_, .bytes n) => l.writeScalar dst (8 * n) o.uns o.r (pois || o.pois)
  | _ => l

/-- A compute instruction (R144-R149): read, compute, update, write D last. -/
def compute (i : Instr) (v : View) (f : Env → Args → Loc → Res Out) (l : Loc) : Res Loc := do
  let e := envOf l.ctx i
  let g ← fetchArgs l v e.rm (shape i)
  let o ← f e g l
  .ok (((l.take (shape i) g).flags o.flags).writeOut (shape i) g.dst o g.pois)

/-- A compute instruction whose function cannot fault. -/
def pureOp (i : Instr) (v : View) (f : Env → Args → Out) (l : Loc) : Res Loc := compute i v (fun e g _ => .ok (f e g)) l

end Sys2Proof.Machine
end

