-- ==== Sys2Proof/Machine/Scalar.lean ====
section
/-! DEFINITION. NOP, FMT and the scalar integer and address instructions (R152-R166). -/
namespace Sys2Proof.Machine
open Sys2Proof

/-- STAT.C as a number. -/
def carry (st : Word) : Nat := (fC st).toNat

/-- A bitwise result with N and Z from it (R161). -/
def outNZ (n : Nat) (r : Nat) : Out := outN (r % 2 ^ n, nz r n)

/-- MIN and MAX (R164): the lesser, or the greater when `mx`. -/
def minR (n : Nat) (u mx : Bool) (a b : Nat) : Nat := if decide (asInt u a n < asInt u b n) != mx then a else b

/-- The effective address that LEA writes (R157). -/
def leaOf (l : Loc) (s1 : Opd) (v : View) : Quad := (l.ea s1 (View.sc v)).setWidth 128

/-- Bits [pos + len - 1 : pos] of d replaced by the low bits of a (R165). -/
def insR (d a len pos : Nat) : Nat := d - bits d pos len * 2 ^ pos + a % 2 ^ len * 2 ^ pos

/-- NOP retires with no effect (R112, R152). -/
def bodyNop : Loc → Res Loc :=
  fun l => .ok l

/-- NOP as an issue of context `cur`. -/
def execNop (s : State) : Host.Outcome State Fault Refusal :=
  issue .nop bodyNop s

/-- FMT sets PFXW and PFXV (R132). -/
def bodyFmt (fw : BitVec 16) : Loc → Res Loc :=
  fun l => .ok { l.setStat (setFld l.ctx.stat 48 16 fw.toNat) with pfx := true }

/-- FMT as an issue of context `cur`. -/
def execFmt (fw : BitVec 16) (s : State) : Host.Outcome State Fault Refusal :=
  issue (.fmt fw) (bodyFmt fw) s

/-- MOV writes D = S1 at width n (R156). -/
def bodyMov (v : View) (c : Cond) (d : Opd) (s1 : Opd) : Loc → Res Loc :=
  pureOp (.mov v c d s1) v (fun _ g => outQ g.a.val)

/-- MOV as an issue of context `cur`. -/
def execMov (v : View) (c : Cond) (d : Opd) (s1 : Opd) (s : State) : Host.Outcome State Fault Refusal :=
  issue (.mov v c d s1) (bodyMov v c d s1) s

/-- MOVI writes the sign-extended immediate (R156). -/
def bodyMovi (v : View) (c : Cond) (d : Opd) (imm : BitVec 48) : Loc → Res Loc :=
  pureOp (.movi v c d imm) v (fun _ _ => outQ (BitVec.ofNat 128 (lowBits imm.toInt (View.lw v))))

/-- MOVI as an issue of context `cur`. -/
def execMovi (v : View) (c : Cond) (d : Opd) (imm : BitVec 48) (s : State) : Host.Outcome State Fault Refusal :=
  issue (.movi v c d imm) (bodyMovi v c d imm) s

/-- MOVHI replaces the upper 16 bits of a 64-bit D (R156). -/
def bodyMovhi (c : Cond) (d : Opd) (imm : BitVec 16) : Loc → Res Loc :=
  pureOp (.movhi c d imm) .d (fun _ g => outQ (BitVec.ofNat 128 (imm.toNat * 2 ^ 48 + g.d.val.toNat % 2 ^ 48)))

/-- MOVHI as an issue of context `cur`. -/
def execMovhi (c : Cond) (d : Opd) (imm : BitVec 16) (s : State) : Host.Outcome State Fault Refusal :=
  issue (.movhi c d imm) (bodyMovhi c d imm) s

/-- LEA writes the effective address and makes no access (R157). -/
def bodyLea (v : View) (c : Cond) (d : Opd) (s1 : Opd) : Loc → Res Loc :=
  compute (.lea v c d s1) v (fun _ _ l => .ok (outQ (leaOf l s1 v)))

/-- LEA as an issue of context `cur`. -/
def execLea (v : View) (c : Cond) (d : Opd) (s1 : Opd) (s : State) : Host.Outcome State Fault Refusal :=
  issue (.lea v c d s1) (bodyLea v c d s1) s

/-- ADD (R158). -/
def bodyAdd (v : View) (c : Cond) (d : Opd) (s1 : Opd) (s2 : Opd) : Loc → Res Loc :=
  pureOp (.add v c d s1 s2) v (fun e g => outN (addR (View.lw v) g.a.val.toNat g.b.val.toNat 0 e.sat))

/-- ADD as an issue of context `cur`. -/
def execAdd (v : View) (c : Cond) (d : Opd) (s1 : Opd) (s2 : Opd) (s : State) : Host.Outcome State Fault Refusal :=
  issue (.add v c d s1 s2) (bodyAdd v c d s1 s2) s

/-- SUB (R158). -/
def bodySub (v : View) (c : Cond) (d : Opd) (s1 : Opd) (s2 : Opd) : Loc → Res Loc :=
  pureOp (.sub v c d s1 s2) v (fun e g => outN (subR (View.lw v) g.a.val.toNat g.b.val.toNat 0 e.sat))

/-- SUB as an issue of context `cur`. -/
def execSub (v : View) (c : Cond) (d : Opd) (s1 : Opd) (s2 : Opd) (s : State) : Host.Outcome State Fault Refusal :=
  issue (.sub v c d s1 s2) (bodySub v c d s1 s2) s

/-- ADC (R158). -/
def bodyAdc (v : View) (c : Cond) (d : Opd) (s1 : Opd) (s2 : Opd) : Loc → Res Loc :=
  pureOp (.adc v c d s1 s2) v (fun e g => outN (addR (View.lw v) g.a.val.toNat g.b.val.toNat (carry e.stat) false))

/-- ADC as an issue of context `cur`. -/
def execAdc (v : View) (c : Cond) (d : Opd) (s1 : Opd) (s2 : Opd) (s : State) : Host.Outcome State Fault Refusal :=
  issue (.adc v c d s1 s2) (bodyAdc v c d s1 s2) s

/-- SBC (R158). -/
def bodySbc (v : View) (c : Cond) (d : Opd) (s1 : Opd) (s2 : Opd) : Loc → Res Loc :=
  pureOp (.sbc v c d s1 s2) v (fun e g => outN (subR (View.lw v) g.a.val.toNat g.b.val.toNat (1 - carry e.stat) false))

/-- SBC as an issue of context `cur`. -/
def execSbc (v : View) (c : Cond) (d : Opd) (s1 : Opd) (s2 : Opd) (s : State) : Host.Outcome State Fault Refusal :=
  issue (.sbc v c d s1 s2) (bodySbc v c d s1 s2) s

/-- MUL (R159). -/
def bodyMul (v : View) (c : Cond) (d : Opd) (s1 : Opd) (s2 : Opd) : Loc → Res Loc :=
  pureOp (.mul v c d s1 s2) v (fun e g => outN (mulR (View.lw v) g.a.val.toNat g.b.val.toNat e.sat))

/-- MUL as an issue of context `cur`. -/
def execMul (v : View) (c : Cond) (d : Opd) (s1 : Opd) (s2 : Opd) (s : State) : Host.Outcome State Fault Refusal :=
  issue (.mul v c d s1 s2) (bodyMul v c d s1 s2) s

/-- MULH (R159). -/
def bodyMulh (v : View) (c : Cond) (u : Bool) (d : Opd) (s1 : Opd) (s2 : Opd) : Loc → Res Loc :=
  pureOp (.mulh v c u d s1 s2) v (fun _ g => { outN (mulhR (View.lw v) u g.a.val.toNat g.b.val.toNat) with uns := u })

/-- MULH as an issue of context `cur`. -/
def execMulh (v : View) (c : Cond) (u : Bool) (d : Opd) (s1 : Opd) (s2 : Opd) (s : State) : Host.Outcome State Fault Refusal :=
  issue (.mulh v c u d s1 s2) (bodyMulh v c u d s1 s2) s

/-- DIV (R160). -/
def bodyDiv (v : View) (c : Cond) (u : Bool) (d : Opd) (s1 : Opd) (s2 : Opd) : Loc → Res Loc :=
  pureOp (.div v c u d s1 s2) v (fun _ g => { outN (divR (View.lw v) u false g.a.val.toNat g.b.val.toNat) with uns := u })

/-- DIV as an issue of context `cur`. -/
def execDiv (v : View) (c : Cond) (u : Bool) (d : Opd) (s1 : Opd) (s2 : Opd) (s : State) : Host.Outcome State Fault Refusal :=
  issue (.div v c u d s1 s2) (bodyDiv v c u d s1 s2) s

/-- REM (R160). -/
def bodyRem (v : View) (c : Cond) (u : Bool) (d : Opd) (s1 : Opd) (s2 : Opd) : Loc → Res Loc :=
  pureOp (.rem v c u d s1 s2) v (fun _ g => { outN (divR (View.lw v) u true g.a.val.toNat g.b.val.toNat) with uns := u })

/-- REM as an issue of context `cur`. -/
def execRem (v : View) (c : Cond) (u : Bool) (d : Opd) (s1 : Opd) (s2 : Opd) (s : State) : Host.Outcome State Fault Refusal :=
  issue (.rem v c u d s1 s2) (bodyRem v c u d s1 s2) s

/-- AND (R161). -/
def bodyAnd (v : View) (c : Cond) (d : Opd) (s1 : Opd) (s2 : Opd) : Loc → Res Loc :=
  pureOp (.and v c d s1 s2) v (fun _ g => outNZ (View.lw v) (g.a.val &&& g.b.val).toNat)

/-- AND as an issue of context `cur`. -/
def execAnd (v : View) (c : Cond) (d : Opd) (s1 : Opd) (s2 : Opd) (s : State) : Host.Outcome State Fault Refusal :=
  issue (.and v c d s1 s2) (bodyAnd v c d s1 s2) s

/-- OR (R161). -/
def bodyOr (v : View) (c : Cond) (d : Opd) (s1 : Opd) (s2 : Opd) : Loc → Res Loc :=
  pureOp (.or v c d s1 s2) v (fun _ g => outNZ (View.lw v) (g.a.val ||| g.b.val).toNat)

/-- OR as an issue of context `cur`. -/
def execOr (v : View) (c : Cond) (d : Opd) (s1 : Opd) (s2 : Opd) (s : State) : Host.Outcome State Fault Refusal :=
  issue (.or v c d s1 s2) (bodyOr v c d s1 s2) s

/-- XOR (R161). -/
def bodyXor (v : View) (c : Cond) (d : Opd) (s1 : Opd) (s2 : Opd) : Loc → Res Loc :=
  pureOp (.xor v c d s1 s2) v (fun _ g => outNZ (View.lw v) (g.a.val ^^^ g.b.val).toNat)

/-- XOR as an issue of context `cur`. -/
def execXor (v : View) (c : Cond) (d : Opd) (s1 : Opd) (s2 : Opd) (s : State) : Host.Outcome State Fault Refusal :=
  issue (.xor v c d s1 s2) (bodyXor v c d s1 s2) s

/-- ANDN writes a AND NOT b (R161). -/
def bodyAndn (v : View) (c : Cond) (d : Opd) (s1 : Opd) (s2 : Opd) : Loc → Res Loc :=
  pureOp (.andn v c d s1 s2) v (fun _ g => outNZ (View.lw v) (g.a.val &&& ~~~g.b.val).toNat)

/-- ANDN as an issue of context `cur`. -/
def execAndn (v : View) (c : Cond) (d : Opd) (s1 : Opd) (s2 : Opd) (s : State) : Host.Outcome State Fault Refusal :=
  issue (.andn v c d s1 s2) (bodyAndn v c d s1 s2) s

/-- SHL (R162). -/
def bodyShl (v : View) (c : Cond) (d : Opd) (s1 : Opd) (s2 : Opd) : Loc → Res Loc :=
  pureOp (.shl v c d s1 s2) v (fun e g => outN (shiftR .shl (View.lw v) g.a.val.toNat g.b.val.toNat e.sat))

/-- SHL as an issue of context `cur`. -/
def execShl (v : View) (c : Cond) (d : Opd) (s1 : Opd) (s2 : Opd) (s : State) : Host.Outcome State Fault Refusal :=
  issue (.shl v c d s1 s2) (bodyShl v c d s1 s2) s

/-- SHR (R162). -/
def bodyShr (v : View) (c : Cond) (d : Opd) (s1 : Opd) (s2 : Opd) : Loc → Res Loc :=
  pureOp (.shr v c d s1 s2) v (fun _ g => outN (shiftR .shr (View.lw v) g.a.val.toNat g.b.val.toNat false))

/-- SHR as an issue of context `cur`. -/
def execShr (v : View) (c : Cond) (d : Opd) (s1 : Opd) (s2 : Opd) (s : State) : Host.Outcome State Fault Refusal :=
  issue (.shr v c d s1 s2) (bodyShr v c d s1 s2) s

/-- SAR (R162). -/
def bodySar (v : View) (c : Cond) (d : Opd) (s1 : Opd) (s2 : Opd) : Loc → Res Loc :=
  pureOp (.sar v c d s1 s2) v (fun _ g => outN (shiftR .sar (View.lw v) g.a.val.toNat g.b.val.toNat false))

/-- SAR as an issue of context `cur`. -/
def execSar (v : View) (c : Cond) (d : Opd) (s1 : Opd) (s2 : Opd) (s : State) : Host.Outcome State Fault Refusal :=
  issue (.sar v c d s1 s2) (bodySar v c d s1 s2) s

/-- ROL (R162). -/
def bodyRol (v : View) (c : Cond) (d : Opd) (s1 : Opd) (s2 : Opd) : Loc → Res Loc :=
  pureOp (.rol v c d s1 s2) v (fun _ g => outN (shiftR .rol (View.lw v) g.a.val.toNat g.b.val.toNat false))

/-- ROL as an issue of context `cur`. -/
def execRol (v : View) (c : Cond) (d : Opd) (s1 : Opd) (s2 : Opd) (s : State) : Host.Outcome State Fault Refusal :=
  issue (.rol v c d s1 s2) (bodyRol v c d s1 s2) s

/-- CLZ (R163). The result is unsigned. -/
def bodyClz (v : View) (c : Cond) (d : Opd) (s1 : Opd) : Loc → Res Loc :=
  pureOp (.clz v c d s1) v (fun _ g => { outN (clzR (View.lw v) g.a.val.toNat, zOnly (clzR (View.lw v) g.a.val.toNat)) with uns := true })

/-- CLZ as an issue of context `cur`. -/
def execClz (v : View) (c : Cond) (d : Opd) (s1 : Opd) (s : State) : Host.Outcome State Fault Refusal :=
  issue (.clz v c d s1) (bodyClz v c d s1) s

/-- CTZ (R163). -/
def bodyCtz (v : View) (c : Cond) (d : Opd) (s1 : Opd) : Loc → Res Loc :=
  pureOp (.ctz v c d s1) v (fun _ g => { outN (ctzR (View.lw v) g.a.val.toNat, zOnly (ctzR (View.lw v) g.a.val.toNat)) with uns := true })

/-- CTZ as an issue of context `cur`. -/
def execCtz (v : View) (c : Cond) (d : Opd) (s1 : Opd) (s : State) : Host.Outcome State Fault Refusal :=
  issue (.ctz v c d s1) (bodyCtz v c d s1) s

/-- POPC (R163). -/
def bodyPopc (v : View) (c : Cond) (d : Opd) (s1 : Opd) : Loc → Res Loc :=
  pureOp (.popc v c d s1) v (fun _ g => { outN (popcR (View.lw v) g.a.val.toNat, zOnly (popcR (View.lw v) g.a.val.toNat)) with uns := true })

/-- POPC as an issue of context `cur`. -/
def execPopc (v : View) (c : Cond) (d : Opd) (s1 : Opd) (s : State) : Host.Outcome State Fault Refusal :=
  issue (.popc v c d s1) (bodyPopc v c d s1) s

/-- CMP sets the flags of SUB and writes nothing (R164). -/
def bodyCmp (v : View) (c : Cond) (s1 : Opd) (s2 : Opd) : Loc → Res Loc :=
  pureOp (.cmp v c s1 s2) v (fun _ g => outN (subR (View.lw v) g.a.val.toNat g.b.val.toNat 0 false))

/-- CMP as an issue of context `cur`. -/
def execCmp (v : View) (c : Cond) (s1 : Opd) (s2 : Opd) (s : State) : Host.Outcome State Fault Refusal :=
  issue (.cmp v c s1 s2) (bodyCmp v c s1 s2) s

/-- TST sets N and Z from S1 AND S2 and writes nothing (R164). -/
def bodyTst (v : View) (c : Cond) (s1 : Opd) (s2 : Opd) : Loc → Res Loc :=
  pureOp (.tst v c s1 s2) v (fun _ g => outNZ (View.lw v) (g.a.val &&& g.b.val).toNat)

/-- TST as an issue of context `cur`. -/
def execTst (v : View) (c : Cond) (s1 : Opd) (s2 : Opd) (s : State) : Host.Outcome State Fault Refusal :=
  issue (.tst v c s1 s2) (bodyTst v c s1 s2) s

/-- MIN (R164). -/
def bodyMin (v : View) (c : Cond) (u : Bool) (d : Opd) (s1 : Opd) (s2 : Opd) : Loc → Res Loc :=
  pureOp (.min v c u d s1 s2) v (fun _ g => { outNZ (View.lw v) (minR (View.lw v) u false g.a.val.toNat g.b.val.toNat) with uns := u })

/-- MIN as an issue of context `cur`. -/
def execMin (v : View) (c : Cond) (u : Bool) (d : Opd) (s1 : Opd) (s2 : Opd) (s : State) : Host.Outcome State Fault Refusal :=
  issue (.min v c u d s1 s2) (bodyMin v c u d s1 s2) s

/-- MAX (R164). -/
def bodyMax (v : View) (c : Cond) (u : Bool) (d : Opd) (s1 : Opd) (s2 : Opd) : Loc → Res Loc :=
  pureOp (.max v c u d s1 s2) v (fun _ g => { outNZ (View.lw v) (minR (View.lw v) u true g.a.val.toNat g.b.val.toNat) with uns := u })

/-- MAX as an issue of context `cur`. -/
def execMax (v : View) (c : Cond) (u : Bool) (d : Opd) (s1 : Opd) (s2 : Opd) (s : State) : Host.Outcome State Fault Refusal :=
  issue (.max v c u d s1 s2) (bodyMax v c u d s1 s2) s

/-- SEL chooses by COND on the flags before it (R164). -/
def bodySel (v : View) (c : Cond) (d : Opd) (s1 : Opd) (s2 : Opd) (cond : Cond) : Loc → Res Loc :=
  pureOp (.sel v c d s1 s2 cond) v (fun e g => outQ (if condHolds e.stat cond then g.a.val else g.b.val))

/-- SEL as an issue of context `cur`. -/
def execSel (v : View) (c : Cond) (d : Opd) (s1 : Opd) (s2 : Opd) (cond : Cond) (s : State) : Host.Outcome State Fault Refusal :=
  issue (.sel v c d s1 s2 cond) (bodySel v c d s1 s2 cond) s

/-- EXT (R165): LEN is len + 1. -/
def bodyExt (v : View) (c : Cond) (d : Opd) (s1 : Opd) (sgn : Bool) (len : BitVec 6) (pos : BitVec 6) : Loc → Res Loc :=
  pureOp (.ext v c d s1 sgn len pos) v (fun _ g => outNZ (View.lw v) (let f := bits g.a.val.toNat pos.toNat (len.toNat + 1); if sgn then lowBits (sextI f (len.toNat + 1)) (View.lw v) else f))

/-- EXT as an issue of context `cur`. -/
def execExt (v : View) (c : Cond) (d : Opd) (s1 : Opd) (sgn : Bool) (len : BitVec 6) (pos : BitVec 6) (s : State) : Host.Outcome State Fault Refusal :=
  issue (.ext v c d s1 sgn len pos) (bodyExt v c d s1 sgn len pos) s

/-- INS (R165): D is read, changed and written back. -/
def bodyIns (v : View) (c : Cond) (d : Opd) (s1 : Opd) (len : BitVec 6) (pos : BitVec 6) : Loc → Res Loc :=
  pureOp (.ins v c d s1 len pos) v (fun _ g => outNZ (View.lw v) (insR g.d.val.toNat g.a.val.toNat (len.toNat + 1) pos.toNat))

/-- INS as an issue of context `cur`. -/
def execIns (v : View) (c : Cond) (d : Opd) (s1 : Opd) (len : BitVec 6) (pos : BitVec 6) (s : State) : Host.Outcome State Fault Refusal :=
  issue (.ins v c d s1 len pos) (bodyIns v c d s1 len pos) s

/-- SPC writes a space code above an address (R157). -/
def bodySpc (c : Cond) (d : Opd) (s1 : Opd) (s2 : Opd) : Loc → Res Loc :=
  pureOp (.spc c d s1 s2) .d (fun _ g => outQ (BitVec.ofNat 128 (g.b.val.toNat % 16 * 2 ^ 60 + g.a.val.toNat % 2 ^ 60)))

/-- SPC as an issue of context `cur`. -/
def execSpc (c : Cond) (d : Opd) (s1 : Opd) (s2 : Opd) (s : State) : Host.Outcome State Fault Refusal :=
  issue (.spc c d s1 s2) (bodySpc c d s1 s2) s

end Sys2Proof.Machine
end

