-- ==== Sys2Proof/Machine/Vector.lean ====
section
/-! DEFINITION. The vector integer instructions (R167-R172). -/
namespace Sys2Proof.Machine
open Sys2Proof

/-- A lane operation on two sources, on every lane of a view. -/
def lanes2 (v : View) (g : Args) (f : Nat → Nat → Nat → Nat) : Out :=
  let w := View.lw v
  outQ (ofLanes w (fun i => f w (lane w g.a.val i) (lane w g.b.val i)))

/-- A lane operation on one source. -/
def lanes1 (v : View) (g : Args) (f : Nat → Nat → Nat) : Out :=
  let w := View.lw v
  outQ (ofLanes w (fun i => f w (lane w g.a.val i)))

/-- The low w bits of an exact result, or its saturation (R35). -/
def narrowS (sat : Bool) (w : Nat) (x : Int) : Nat := if sat then lowBits (satS x w) w else lowBits x w

/-- Saturation to a signed or an unsigned lane (R167). -/
def satLane (u : Bool) (w : Nat) (x : Int) : Nat := if u then lowBits (satZ x w) w else lowBits (satS x w) w

/-- A shift of one lane (R162, R167). -/
def shiftLane (op : ShiftOp) (sat : Bool) (w a b : Nat) : Nat := (shiftR op w a b sat).1

/-- The condition of VCMP on two lanes (R169). -/
def vcmpLane (k : VCond) (w a b : Nat) : Bool :=
  match k with
  | .eq => a == b
  | .ne => a != b
  | .lt => decide (sextI a w < sextI b w)
  | .le => decide (sextI a w ≤ sextI b w)
  | .gt => decide (sextI a w > sextI b w)
  | .ge => decide (sextI a w ≥ sextI b w)
  | .lo => decide (a < b)
  | .ls => decide (a ≤ b)
  | .hi => decide (a > b)
  | .hs => decide (a ≥ b)

/-- Lanes of all ones or zero, with N when every lane holds and Z when none does (R169). -/
def maskOut (w : Nat) (f : Nat → Bool) : Out :=
  let ls := upto (128 / w)
  { outQ (ofLanes w (fun i => if f i then 2 ^ w - 1 else 0)) with
    flags := { noFlags with n := some (ls.all f), z := some (!ls.any f) } }

/-- Element width of VDOT: 8 without a prefix, else that of AFMT (R168). -/
def dotWidth (e : Env) : Nat :=
  match e.fw with
  | none => 8
  | some fw => if fwA fw = 12 then 4 else if fwA fw = 13 then 2 else 8

/-- One 32-bit lane of VDOT (R168). -/
def dotLane (u sat : Bool) (ew : Nat) (d a b : Quad) (i : Nat) : Nat :=
  let E := 32 / ew
  let t := (upto E).foldl (fun t j =>
    t + asInt u (lane ew a (E * i + j)) ew * asInt u (lane ew b (E * i + j)) ew) (asInt u (lane 32 d i) 32)
  if sat then satLane u 32 t else lowBits t 32

/-- Pairwise reduction of a list in the fixed order of R43: one level. -/
def pairUp {α : Type} (f : α → α → α) : List α → List α
  | a :: b :: t => f a b :: pairUp f t
  | t => t

/-- Pairwise reduction until one value is left (R43); 2, 4, 8 or 16 lanes need at most 4 levels. -/
def reduce {α : Type} (f : α → α → α) (d : α) : Nat → List α → α
  | 0, l => l.headD d
  | n + 1, l => reduce f d n (pairUp f l)

/-- VRED (R171): the value of lane 0 and the flags of a floating-point operation. -/
def vredR (v : View) (op : RedOp) (sat : Bool) (rm : Nat) (x : Quad) : Nat × FFlags :=
  let w := View.lw v
  let ls := (upto (View.lanes v)).map (lane w x)
  let F := fmtOf v
  let fp (f : Nat → Nat → Nat × FFlags) : Nat × FFlags :=
    reduce (fun p q => let r := f p.1 q.1; (r.1, p.2 ||| q.2 ||| r.2)) (0, 0) 4 (ls.map (fun l => (l, 0)))
  match op with
  | .add => (narrowS sat w (ls.foldl (fun t l => t + sextI l w) 0), 0)
  | .smin => (reduce (minR w false false) 0 4 ls, 0)
  | .smax => (reduce (minR w false true) 0 4 ls, 0)
  | .umin => (reduce (minR w true false) 0 4 ls, 0)
  | .umax => (reduce (minR w true true) 0 4 ls, 0)
  | .fadd => fp (fun a b => F.addV rm (F.unpack a) (F.unpack b))
  | .fmin => fp (F.minV false)
  | .fmax => fp (F.minV true)

/-- The value that VBCAST puts into every lane (R170). -/
def bcastVal (v : View) (s1 : Opd) (x : Quad) (j : Nat) : Nat :=
  match s1 with
  | .preg _ | .imm _ => x.toNat
  | _ => lane (View.lw v) x j

/-- VADD (R167). -/
def bodyVadd (v : View) (c : Cond) (d : Opd) (s1 : Opd) (s2 : Opd) : Loc → Res Loc :=
  pureOp (.vadd v c d s1 s2) v (fun e g => lanes2 v g (fun w a b => narrowS e.sat w (sextI a w + sextI b w)))

/-- VADD as an issue of context `cur`. -/
def execVadd (v : View) (c : Cond) (d : Opd) (s1 : Opd) (s2 : Opd) (s : State) : Host.Outcome State Fault Refusal :=
  issue (.vadd v c d s1 s2) (bodyVadd v c d s1 s2) s

/-- VSUB (R167). -/
def bodyVsub (v : View) (c : Cond) (d : Opd) (s1 : Opd) (s2 : Opd) : Loc → Res Loc :=
  pureOp (.vsub v c d s1 s2) v (fun e g => lanes2 v g (fun w a b => narrowS e.sat w (sextI a w - sextI b w)))

/-- VSUB as an issue of context `cur`. -/
def execVsub (v : View) (c : Cond) (d : Opd) (s1 : Opd) (s2 : Opd) (s : State) : Host.Outcome State Fault Refusal :=
  issue (.vsub v c d s1 s2) (bodyVsub v c d s1 s2) s

/-- VADDS (R167). -/
def bodyVadds (v : View) (c : Cond) (u : Bool) (d : Opd) (s1 : Opd) (s2 : Opd) : Loc → Res Loc :=
  pureOp (.vadds v c u d s1 s2) v (fun _ g => lanes2 v g (fun w a b => satLane u w (asInt u a w + asInt u b w)))

/-- VADDS as an issue of context `cur`. -/
def execVadds (v : View) (c : Cond) (u : Bool) (d : Opd) (s1 : Opd) (s2 : Opd) (s : State) : Host.Outcome State Fault Refusal :=
  issue (.vadds v c u d s1 s2) (bodyVadds v c u d s1 s2) s

/-- VSUBS (R167). -/
def bodyVsubs (v : View) (c : Cond) (u : Bool) (d : Opd) (s1 : Opd) (s2 : Opd) : Loc → Res Loc :=
  pureOp (.vsubs v c u d s1 s2) v (fun _ g => lanes2 v g (fun w a b => satLane u w (asInt u a w - asInt u b w)))

/-- VSUBS as an issue of context `cur`. -/
def execVsubs (v : View) (c : Cond) (u : Bool) (d : Opd) (s1 : Opd) (s2 : Opd) (s : State) : Host.Outcome State Fault Refusal :=
  issue (.vsubs v c u d s1 s2) (bodyVsubs v c u d s1 s2) s

/-- VMUL (R167). -/
def bodyVmul (v : View) (c : Cond) (d : Opd) (s1 : Opd) (s2 : Opd) : Loc → Res Loc :=
  pureOp (.vmul v c d s1 s2) v (fun e g => lanes2 v g (fun w a b => narrowS e.sat w (sextI a w * sextI b w)))

/-- VMUL as an issue of context `cur`. -/
def execVmul (v : View) (c : Cond) (d : Opd) (s1 : Opd) (s2 : Opd) (s : State) : Host.Outcome State Fault Refusal :=
  issue (.vmul v c d s1 s2) (bodyVmul v c d s1 s2) s

/-- VMULH (R167). -/
def bodyVmulh (v : View) (c : Cond) (u : Bool) (d : Opd) (s1 : Opd) (s2 : Opd) : Loc → Res Loc :=
  pureOp (.vmulh v c u d s1 s2) v (fun _ g => lanes2 v g (fun w a b => lowBits (asInt u a w * asInt u b w / (2 ^ w : Nat)) w))

/-- VMULH as an issue of context `cur`. -/
def execVmulh (v : View) (c : Cond) (u : Bool) (d : Opd) (s1 : Opd) (s2 : Opd) (s : State) : Host.Outcome State Fault Refusal :=
  issue (.vmulh v c u d s1 s2) (bodyVmulh v c u d s1 s2) s

/-- VMAC reads D (R167). -/
def bodyVmac (v : View) (c : Cond) (d : Opd) (s1 : Opd) (s2 : Opd) : Loc → Res Loc :=
  pureOp (.vmac v c d s1 s2) v (fun e g => let w := View.lw v; outQ (ofLanes w (fun i => narrowS e.sat w (sextI (lane w g.d.val i) w + sextI (lane w g.a.val i) w * sextI (lane w g.b.val i) w))))

/-- VMAC as an issue of context `cur`. -/
def execVmac (v : View) (c : Cond) (d : Opd) (s1 : Opd) (s2 : Opd) (s : State) : Host.Outcome State Fault Refusal :=
  issue (.vmac v c d s1 s2) (bodyVmac v c d s1 s2) s

/-- VDOT (R168). -/
def bodyVdot (c : Cond) (u : Bool) (d : Opd) (s1 : Opd) (s2 : Opd) : Loc → Res Loc :=
  pureOp (.vdot c u d s1 s2) .w (fun e g => outQ (ofLanes 32 (dotLane u e.sat (dotWidth e) g.d.val g.a.val g.b.val)))

/-- VDOT as an issue of context `cur`. -/
def execVdot (c : Cond) (u : Bool) (d : Opd) (s1 : Opd) (s2 : Opd) (s : State) : Host.Outcome State Fault Refusal :=
  issue (.vdot c u d s1 s2) (bodyVdot c u d s1 s2) s

/-- VMIN (R167). -/
def bodyVmin (v : View) (c : Cond) (u : Bool) (d : Opd) (s1 : Opd) (s2 : Opd) : Loc → Res Loc :=
  pureOp (.vmin v c u d s1 s2) v (fun _ g => lanes2 v g (fun w a b => minR w u false a b))

/-- VMIN as an issue of context `cur`. -/
def execVmin (v : View) (c : Cond) (u : Bool) (d : Opd) (s1 : Opd) (s2 : Opd) (s : State) : Host.Outcome State Fault Refusal :=
  issue (.vmin v c u d s1 s2) (bodyVmin v c u d s1 s2) s

/-- VMAX (R167). -/
def bodyVmax (v : View) (c : Cond) (u : Bool) (d : Opd) (s1 : Opd) (s2 : Opd) : Loc → Res Loc :=
  pureOp (.vmax v c u d s1 s2) v (fun _ g => lanes2 v g (fun w a b => minR w u true a b))

/-- VMAX as an issue of context `cur`. -/
def execVmax (v : View) (c : Cond) (u : Bool) (d : Opd) (s1 : Opd) (s2 : Opd) (s : State) : Host.Outcome State Fault Refusal :=
  issue (.vmax v c u d s1 s2) (bodyVmax v c u d s1 s2) s

/-- VABS (R167). -/
def bodyVabs (v : View) (c : Cond) (d : Opd) (s1 : Opd) : Loc → Res Loc :=
  pureOp (.vabs v c d s1) v (fun e g => lanes1 v g (fun w a => narrowS e.sat w (sextI a w).natAbs))

/-- VABS as an issue of context `cur`. -/
def execVabs (v : View) (c : Cond) (d : Opd) (s1 : Opd) (s : State) : Host.Outcome State Fault Refusal :=
  issue (.vabs v c d s1) (bodyVabs v c d s1) s

/-- VNEG (R167). -/
def bodyVneg (v : View) (c : Cond) (d : Opd) (s1 : Opd) : Loc → Res Loc :=
  pureOp (.vneg v c d s1) v (fun e g => lanes1 v g (fun w a => narrowS e.sat w (-sextI a w)))

/-- VNEG as an issue of context `cur`. -/
def execVneg (v : View) (c : Cond) (d : Opd) (s1 : Opd) (s : State) : Host.Outcome State Fault Refusal :=
  issue (.vneg v c d s1) (bodyVneg v c d s1) s

/-- VAND (R167). -/
def bodyVand (v : View) (c : Cond) (d : Opd) (s1 : Opd) (s2 : Opd) : Loc → Res Loc :=
  pureOp (.vand v c d s1 s2) v (fun _ g => outQ (g.a.val &&& g.b.val))

/-- VAND as an issue of context `cur`. -/
def execVand (v : View) (c : Cond) (d : Opd) (s1 : Opd) (s2 : Opd) (s : State) : Host.Outcome State Fault Refusal :=
  issue (.vand v c d s1 s2) (bodyVand v c d s1 s2) s

/-- VOR (R167). -/
def bodyVor (v : View) (c : Cond) (d : Opd) (s1 : Opd) (s2 : Opd) : Loc → Res Loc :=
  pureOp (.vor v c d s1 s2) v (fun _ g => outQ (g.a.val ||| g.b.val))

/-- VOR as an issue of context `cur`. -/
def execVor (v : View) (c : Cond) (d : Opd) (s1 : Opd) (s2 : Opd) (s : State) : Host.Outcome State Fault Refusal :=
  issue (.vor v c d s1 s2) (bodyVor v c d s1 s2) s

/-- VXOR (R167). -/
def bodyVxor (v : View) (c : Cond) (d : Opd) (s1 : Opd) (s2 : Opd) : Loc → Res Loc :=
  pureOp (.vxor v c d s1 s2) v (fun _ g => outQ (g.a.val ^^^ g.b.val))

/-- VXOR as an issue of context `cur`. -/
def execVxor (v : View) (c : Cond) (d : Opd) (s1 : Opd) (s2 : Opd) (s : State) : Host.Outcome State Fault Refusal :=
  issue (.vxor v c d s1 s2) (bodyVxor v c d s1 s2) s

/-- VSHL (R162, R167). -/
def bodyVshl (v : View) (c : Cond) (d : Opd) (s1 : Opd) (s2 : Opd) : Loc → Res Loc :=
  pureOp (.vshl v c d s1 s2) v (fun e g => lanes2 v g (shiftLane .shl e.sat))

/-- VSHL as an issue of context `cur`. -/
def execVshl (v : View) (c : Cond) (d : Opd) (s1 : Opd) (s2 : Opd) (s : State) : Host.Outcome State Fault Refusal :=
  issue (.vshl v c d s1 s2) (bodyVshl v c d s1 s2) s

/-- VSHR (R162, R167). -/
def bodyVshr (v : View) (c : Cond) (d : Opd) (s1 : Opd) (s2 : Opd) : Loc → Res Loc :=
  pureOp (.vshr v c d s1 s2) v (fun _ g => lanes2 v g (shiftLane .shr false))

/-- VSHR as an issue of context `cur`. -/
def execVshr (v : View) (c : Cond) (d : Opd) (s1 : Opd) (s2 : Opd) (s : State) : Host.Outcome State Fault Refusal :=
  issue (.vshr v c d s1 s2) (bodyVshr v c d s1 s2) s

/-- VSAR (R162, R167). -/
def bodyVsar (v : View) (c : Cond) (d : Opd) (s1 : Opd) (s2 : Opd) : Loc → Res Loc :=
  pureOp (.vsar v c d s1 s2) v (fun _ g => lanes2 v g (shiftLane .sar false))

/-- VSAR as an issue of context `cur`. -/
def execVsar (v : View) (c : Cond) (d : Opd) (s1 : Opd) (s2 : Opd) (s : State) : Host.Outcome State Fault Refusal :=
  issue (.vsar v c d s1 s2) (bodyVsar v c d s1 s2) s

/-- VCMP (R169). -/
def bodyVcmp (v : View) (c : Cond) (d : Opd) (s1 : Opd) (s2 : Opd) (cond : VCond) : Loc → Res Loc :=
  pureOp (.vcmp v c d s1 s2 cond) v (fun _ g => let w := View.lw v; maskOut w (fun i => vcmpLane cond w (lane w g.a.val i) (lane w g.b.val i)))

/-- VCMP as an issue of context `cur`. -/
def execVcmp (v : View) (c : Cond) (d : Opd) (s1 : Opd) (s2 : Opd) (cond : VCond) (s : State) : Host.Outcome State Fault Refusal :=
  issue (.vcmp v c d s1 s2 cond) (bodyVcmp v c d s1 s2 cond) s

/-- VSEL (R169): the top bit of each mask lane chooses. -/
def bodyVsel (v : View) (c : Cond) (d : Opd) (s1 : Opd) (s2 : Opd) (x : Opd) : Loc → Res Loc :=
  pureOp (.vsel v c d s1 s2 x) v (fun _ g => let w := View.lw v; outQ (ofLanes w (fun i => if bit (lane w g.x.val i) (w - 1) then lane w g.a.val i else lane w g.b.val i)))

/-- VSEL as an issue of context `cur`. -/
def execVsel (v : View) (c : Cond) (d : Opd) (s1 : Opd) (s2 : Opd) (x : Opd) (s : State) : Host.Outcome State Fault Refusal :=
  issue (.vsel v c d s1 s2 x) (bodyVsel v c d s1 s2 x) s

/-- VSHUF (R170). -/
def bodyVshuf (v : View) (c : Cond) (d : Opd) (s1 : Opd) (s2 : Opd) : Loc → Res Loc :=
  pureOp (.vshuf v c d s1 s2) v (fun _ g => let w := View.lw v; outQ (ofLanes w (fun i => if bit (lane w g.b.val i) (w - 1) then 0 else lane w g.a.val (lane w g.b.val i % View.lanes v))))

/-- VSHUF as an issue of context `cur`. -/
def execVshuf (v : View) (c : Cond) (d : Opd) (s1 : Opd) (s2 : Opd) (s : State) : Host.Outcome State Fault Refusal :=
  issue (.vshuf v c d s1 s2) (bodyVshuf v c d s1 s2) s

/-- VBCAST (R170). -/
def bodyVbcast (v : View) (c : Cond) (d : Opd) (s1 : Opd) (lane : BitVec 4) : Loc → Res Loc :=
  pureOp (.vbcast v c d s1 lane) v (fun _ g => outQ (splat (View.lw v) (bcastVal v s1 g.a.val lane.toNat)))

/-- VBCAST as an issue of context `cur`. -/
def execVbcast (v : View) (c : Cond) (d : Opd) (s1 : Opd) (lane : BitVec 4) (s : State) : Host.Outcome State Fault Refusal :=
  issue (.vbcast v c d s1 lane) (bodyVbcast v c d s1 lane) s

/-- VRED writes lane 0 and zeroes the others (R171). -/
def bodyVred (v : View) (c : Cond) (d : Opd) (s1 : Opd) (op : RedOp) : Loc → Res Loc :=
  pureOp (.vred v c d s1 op) v (fun e g => let r := vredR v op e.sat e.rm g.a.val; { outQ (BitVec.ofNat 128 (r.1 % 2 ^ View.lw v)) with flags := { noFlags with fps := r.2 } })

/-- VRED as an issue of context `cur`. -/
def execVred (v : View) (c : Cond) (d : Opd) (s1 : Opd) (op : RedOp) (s : State) : Host.Outcome State Fault Refusal :=
  issue (.vred v c d s1 op) (bodyVred v c d s1 op) s

end Sys2Proof.Machine
end

