-- ==== Sys2Proof/Machine/FloatVec.lean ====
section
/-! DEFINITION. Floating-point instructions and conversions (R173-R180). -/
namespace Sys2Proof.Machine
open Sys2Proof

/-- Floating-point lanes with their flags ORed (R41). -/
def fpLanes (w : Nat) (f : Nat → Nat × FFlags) : Out :=
  let rs := (upto (128 / w)).map f
  { outQ (ofLanes w (fun i => (rs.getD i (0, 0)).1)) with
    flags := { noFlags with fps := rs.foldl (fun a r => a ||| r.2) 0 } }

/-- A unary operation on the lanes of a floating-point view. -/
def fp1 (v : View) (g : Args) (f : Fmt → FVal → Nat × FFlags) : Out :=
  fpLanes (View.lw v) (fun i => f (fmtOf v) ((fmtOf v).unpack (lane (View.lw v) g.a.val i)))

/-- A binary operation on the lanes of a floating-point view. -/
def fp2 (v : View) (g : Args) (f : Fmt → FVal → FVal → Nat × FFlags) : Out :=
  fpLanes (View.lw v) (fun i =>
    f (fmtOf v) ((fmtOf v).unpack (lane (View.lw v) g.a.val i)) ((fmtOf v).unpack (lane (View.lw v) g.b.val i)))

/-- A lane of VFMA (R174). -/
def fmaLane (F : Fmt) (rm : Nat) (np na : Bool) (d a b : Nat) : Nat × FFlags :=
  let dv := F.unpack d
  let av := F.unpack a
  F.fmaV rm (if na then dv.neg else dv) (if np then av.neg else av) (F.unpack b)

/-- Lanes of VFCMP with N and Z as VCMP sets them (R176). -/
def fcmpOut (v : View) (g : Args) (k : FCond) : Out :=
  let w := View.lw v
  let F := fmtOf v
  let r (i : Nat) : Bool × FFlags := fcmp k (F.unpack (lane w g.a.val i)) (F.unpack (lane w g.b.val i))
  let m := maskOut w (fun i => (r i).1)
  { m with flags := { m.flags with fps := (upto (128 / w)).foldl (fun a i => a ||| (r i).2) 0 } }

/-- The source lanes of VCVT as a view: an integer or a floating-point view of the lane width (R179). -/
def cvtSrc (v : View) (e : Env) : View :=
  match v with
  | .h => (match e.fw with | some fw => if fwA fw = 1 then .h else .bf | none => .bf)
  | .bf => (match e.fw with | some fw => if fwA fw = 10 then .bf else .h | none => .h)
  | .w => (match e.fw with | some fw => if fwA fw = 2 then .w else .f | none => .f)
  | .f => (match e.fw with | some fw => if fwA fw = 11 then .f else .w | none => .w)
  | .d => .g
  | .g => .d
  | x => x

/-- One lane of VCVT (R45, R179): equal formats copy the lane, but a signalling NaN becomes the canonical NaN. -/
def cvtLane (src dst : View) (rm : Nat) (x : Nat) : Nat × FFlags :=
  let w := View.lw dst
  if View.isFp src then
    let F := fmtOf src
    if View.isFp dst then
      (match F.unpack x with
       | .nan true => F.bad
       | _ => (x, 0))
    else let r := toIntSat rm w (F.unpack x); (lowBits r.1 w, r.2)
  else if View.isFp dst then (fmtOf dst).ofVal rm (FVal.ofInt (sextI x w))
  else (x, 0)

/-- One lane of VNARR (R180). -/
def narrLane (u sat : Bool) (w x : Nat) : Nat :=
  if sat then (if u then lowBits (satZ ((x % 2 ^ (2 * w) : Nat) : Int) w) w else lowBits (satS (sextI x (2 * w)) w) w) else x % 2 ^ w

/-- The lanes of VNARR (R180). -/
def narrOut (v : View) (u sat : Bool) (g : Args) : Out :=
  let w := View.lw v
  let h := View.lanes v / 2
  outQ (ofLanes w (fun i => narrLane u sat w (if i < h then lane (2 * w) g.a.val i else lane (2 * w) g.b.val (i - h))))

/-- A void scale word (R49). -/
def voidScale (sw : Nat) : Bool := decide (sextI sw 9 = -256) || decide (bits sw 9 7 ≠ 0)

/-- The source lanes of SCALE as a view (R188). -/
def scaleSrc (v : View) (e : Env) : View :=
  match v, e.fw with
  | .bf, some fw => if fwA fw = 1 then .h else .bf
  | .f, some fw => if fwA fw = 2 then .w else .f
  | x, _ => x

/-- SCALE (R188): each lane times 2^s; a void scale word gives poisoned zero lanes. -/
def scaleOut (v : View) (e : Env) (g : Args) : Out :=
  let w := View.lw v
  let sw := g.b.val.toNat % 2 ^ 16
  let src := scaleSrc v e
  if voidScale sw then { outQ 0 with pois := true }
  else fpLanes w (fun i =>
    let x := lane w g.a.val i
    let val := if View.isFp src then (fmtOf src).unpack x else FVal.ofInt (sextI x w)
    (fmtOf v).ofVal e.rm (val.mul2 (sextI sw 9)))

/-- e(x) of BEXP, and whether it is invalid (R189). -/
def bexpLane (F : Fmt) (x : Nat) : Int × Bool :=
  match F.unpack x with
  | .fin _ m e => (e + bitLen m - 1 - 6, false)
  | .zero _ => (-255, false)
  | _ => (255, true)

/-- BEXP (R189). -/
def bexpOut (v : View) (g : Args) : Out :=
  let F := fmtOf v
  let ls := (upto (View.lanes v)).map (fun i => bexpLane F (lane (View.lw v) g.a.val i))
  let r := ls.foldl (fun a x => max a x.1) (sextI g.b.val.toNat 64)
  let r := max (-255) (min 255 r)
  { outQ (BitVec.ofInt 128 r) with flags := { noFlags with fps := if ls.any Prod.snd then fInv else 0 } }

/-- VCVT (R179). -/
def bodyVcvt (v : View) (c : Cond) (d : Opd) (s1 : Opd) : Loc → Res Loc :=
  fun l => pureOp (.vcvt v c d s1) (cvtSrc v (envOf l.ctx (.vcvt v c d s1)))
    (fun e g => fpLanes (View.lw v) (fun i => cvtLane (cvtSrc v e) v e.rm (lane (View.lw v) g.a.val i))) l

/-- VCVT as an issue of context `cur`. -/
def execVcvt (v : View) (c : Cond) (d : Opd) (s1 : Opd) (s : State) : Host.Outcome State Fault Refusal :=
  issue (.vcvt v c d s1) (bodyVcvt v c d s1) s

/-- VNARR (R180). -/
def bodyVnarr (v : View) (c : Cond) (u : Bool) (d : Opd) (s1 : Opd) (s2 : Opd) : Loc → Res Loc :=
  pureOp (.vnarr v c u d s1 s2) v (fun e g => narrOut v u e.sat g)

/-- VNARR as an issue of context `cur`. -/
def execVnarr (v : View) (c : Cond) (u : Bool) (d : Opd) (s1 : Opd) (s2 : Opd) (s : State) : Host.Outcome State Fault Refusal :=
  issue (.vnarr v c u d s1 s2) (bodyVnarr v c u d s1 s2) s

/-- VWIDE (R180). -/
def bodyVwide (v : View) (c : Cond) (u : Bool) (hi : Bool) (d : Opd) (s1 : Opd) : Loc → Res Loc :=
  pureOp (.vwide v c u hi d s1) v (fun _ g => let w := View.lw v; outQ (ofLanes w (fun i => lowBits (asInt u (lane (w / 2) g.a.val (i + hi.toNat * View.lanes v)) (w / 2)) w)))

/-- VWIDE as an issue of context `cur`. -/
def execVwide (v : View) (c : Cond) (u : Bool) (hi : Bool) (d : Opd) (s1 : Opd) (s : State) : Host.Outcome State Fault Refusal :=
  issue (.vwide v c u hi d s1) (bodyVwide v c u hi d s1) s

/-- VFADD (R173). -/
def bodyVfadd (v : View) (c : Cond) (d : Opd) (s1 : Opd) (s2 : Opd) : Loc → Res Loc :=
  pureOp (.vfadd v c d s1 s2) v (fun e g => fp2 v g (fun F a b => F.addV e.rm a b))

/-- VFADD as an issue of context `cur`. -/
def execVfadd (v : View) (c : Cond) (d : Opd) (s1 : Opd) (s2 : Opd) (s : State) : Host.Outcome State Fault Refusal :=
  issue (.vfadd v c d s1 s2) (bodyVfadd v c d s1 s2) s

/-- VFSUB (R173). -/
def bodyVfsub (v : View) (c : Cond) (d : Opd) (s1 : Opd) (s2 : Opd) : Loc → Res Loc :=
  pureOp (.vfsub v c d s1 s2) v (fun e g => fp2 v g (fun F a b => F.addV e.rm a b.neg))

/-- VFSUB as an issue of context `cur`. -/
def execVfsub (v : View) (c : Cond) (d : Opd) (s1 : Opd) (s2 : Opd) (s : State) : Host.Outcome State Fault Refusal :=
  issue (.vfsub v c d s1 s2) (bodyVfsub v c d s1 s2) s

/-- VFMUL (R173). -/
def bodyVfmul (v : View) (c : Cond) (d : Opd) (s1 : Opd) (s2 : Opd) : Loc → Res Loc :=
  pureOp (.vfmul v c d s1 s2) v (fun e g => fp2 v g (fun F a b => F.mulV e.rm a b))

/-- VFMUL as an issue of context `cur`. -/
def execVfmul (v : View) (c : Cond) (d : Opd) (s1 : Opd) (s2 : Opd) (s : State) : Host.Outcome State Fault Refusal :=
  issue (.vfmul v c d s1 s2) (bodyVfmul v c d s1 s2) s

/-- VFMA reads D (R174). -/
def bodyVfma (v : View) (c : Cond) (np : Bool) (na : Bool) (d : Opd) (s1 : Opd) (s2 : Opd) : Loc → Res Loc :=
  pureOp (.vfma v c np na d s1 s2) v (fun e g => let w := View.lw v; fpLanes w (fun i => fmaLane (fmtOf v) e.rm np na (lane w g.d.val i) (lane w g.a.val i) (lane w g.b.val i)))

/-- VFMA as an issue of context `cur`. -/
def execVfma (v : View) (c : Cond) (np : Bool) (na : Bool) (d : Opd) (s1 : Opd) (s2 : Opd) (s : State) : Host.Outcome State Fault Refusal :=
  issue (.vfma v c np na d s1 s2) (bodyVfma v c np na d s1 s2) s

/-- VFDIV (R173). -/
def bodyVfdiv (v : View) (c : Cond) (d : Opd) (s1 : Opd) (s2 : Opd) : Loc → Res Loc :=
  pureOp (.vfdiv v c d s1 s2) v (fun e g => fp2 v g (fun F a b => F.divV e.rm a b))

/-- VFDIV as an issue of context `cur`. -/
def execVfdiv (v : View) (c : Cond) (d : Opd) (s1 : Opd) (s2 : Opd) (s : State) : Host.Outcome State Fault Refusal :=
  issue (.vfdiv v c d s1 s2) (bodyVfdiv v c d s1 s2) s

/-- VFSQRT (R173). -/
def bodyVfsqrt (v : View) (c : Cond) (d : Opd) (s1 : Opd) : Loc → Res Loc :=
  pureOp (.vfsqrt v c d s1) v (fun e g => fp1 v g (fun F a => F.sqrtV e.rm a))

/-- VFSQRT as an issue of context `cur`. -/
def execVfsqrt (v : View) (c : Cond) (d : Opd) (s1 : Opd) (s : State) : Host.Outcome State Fault Refusal :=
  issue (.vfsqrt v c d s1) (bodyVfsqrt v c d s1) s

/-- VFMIN (R175). -/
def bodyVfmin (v : View) (c : Cond) (d : Opd) (s1 : Opd) (s2 : Opd) : Loc → Res Loc :=
  pureOp (.vfmin v c d s1 s2) v (fun _ g => let w := View.lw v; fpLanes w (fun i => (fmtOf v).minV false (lane w g.a.val i) (lane w g.b.val i)))

/-- VFMIN as an issue of context `cur`. -/
def execVfmin (v : View) (c : Cond) (d : Opd) (s1 : Opd) (s2 : Opd) (s : State) : Host.Outcome State Fault Refusal :=
  issue (.vfmin v c d s1 s2) (bodyVfmin v c d s1 s2) s

/-- VFMAX (R175). -/
def bodyVfmax (v : View) (c : Cond) (d : Opd) (s1 : Opd) (s2 : Opd) : Loc → Res Loc :=
  pureOp (.vfmax v c d s1 s2) v (fun _ g => let w := View.lw v; fpLanes w (fun i => (fmtOf v).minV true (lane w g.a.val i) (lane w g.b.val i)))

/-- VFMAX as an issue of context `cur`. -/
def execVfmax (v : View) (c : Cond) (d : Opd) (s1 : Opd) (s2 : Opd) (s : State) : Host.Outcome State Fault Refusal :=
  issue (.vfmax v c d s1 s2) (bodyVfmax v c d s1 s2) s

/-- VFCMP (R176). -/
def bodyVfcmp (v : View) (c : Cond) (d : Opd) (s1 : Opd) (s2 : Opd) (cond : FCond) : Loc → Res Loc :=
  pureOp (.vfcmp v c d s1 s2 cond) v (fun _ g => fcmpOut v g cond)

/-- VFCMP as an issue of context `cur`. -/
def execVfcmp (v : View) (c : Cond) (d : Opd) (s1 : Opd) (s2 : Opd) (cond : FCond) (s : State) : Host.Outcome State Fault Refusal :=
  issue (.vfcmp v c d s1 s2 cond) (bodyVfcmp v c d s1 s2 cond) s

/-- VFRCP (R177). -/
def bodyVfrcp (v : View) (c : Cond) (d : Opd) (s1 : Opd) : Loc → Res Loc :=
  pureOp (.vfrcp v c d s1) v (fun e g => fp1 v g (fun F a => F.rcpV e.rm a))

/-- VFRCP as an issue of context `cur`. -/
def execVfrcp (v : View) (c : Cond) (d : Opd) (s1 : Opd) (s : State) : Host.Outcome State Fault Refusal :=
  issue (.vfrcp v c d s1) (bodyVfrcp v c d s1) s

/-- VFRSQ (R177). -/
def bodyVfrsq (v : View) (c : Cond) (d : Opd) (s1 : Opd) : Loc → Res Loc :=
  pureOp (.vfrsq v c d s1) v (fun e g => fp1 v g (fun F a => F.rsqV e.rm a))

/-- VFRSQ as an issue of context `cur`. -/
def execVfrsq (v : View) (c : Cond) (d : Opd) (s1 : Opd) (s : State) : Host.Outcome State Fault Refusal :=
  issue (.vfrsq v c d s1) (bodyVfrsq v c d s1) s

/-- VFEXP2 (R177). -/
def bodyVfexp2 (v : View) (c : Cond) (d : Opd) (s1 : Opd) : Loc → Res Loc :=
  pureOp (.vfexp2 v c d s1) v (fun e g => fp1 v g (fun F a => F.exp2V e.rm a))

/-- VFEXP2 as an issue of context `cur`. -/
def execVfexp2 (v : View) (c : Cond) (d : Opd) (s1 : Opd) (s : State) : Host.Outcome State Fault Refusal :=
  issue (.vfexp2 v c d s1) (bodyVfexp2 v c d s1) s

/-- VFLOG2 (R177). -/
def bodyVflog2 (v : View) (c : Cond) (d : Opd) (s1 : Opd) : Loc → Res Loc :=
  pureOp (.vflog2 v c d s1) v (fun e g => fp1 v g (fun F a => F.log2V e.rm a))

/-- VFLOG2 as an issue of context `cur`. -/
def execVflog2 (v : View) (c : Cond) (d : Opd) (s1 : Opd) (s : State) : Host.Outcome State Fault Refusal :=
  issue (.vflog2 v c d s1) (bodyVflog2 v c d s1) s

/-- VFRND (R173). -/
def bodyVfrnd (v : View) (c : Cond) (d : Opd) (s1 : Opd) : Loc → Res Loc :=
  pureOp (.vfrnd v c d s1) v (fun e g => fp1 v g (fun F a => F.rndV e.rm a))

/-- VFRND as an issue of context `cur`. -/
def execVfrnd (v : View) (c : Cond) (d : Opd) (s1 : Opd) (s : State) : Host.Outcome State Fault Refusal :=
  issue (.vfrnd v c d s1) (bodyVfrnd v c d s1) s

/-- VFCLS (R178). -/
def bodyVfcls (v : View) (c : Cond) (d : Opd) (s1 : Opd) : Loc → Res Loc :=
  pureOp (.vfcls v c d s1) v (fun _ g => let w := View.lw v; outQ (ofLanes w (fun i => (fmtOf v).cls (lane w g.a.val i))))

/-- VFCLS as an issue of context `cur`. -/
def execVfcls (v : View) (c : Cond) (d : Opd) (s1 : Opd) (s : State) : Host.Outcome State Fault Refusal :=
  issue (.vfcls v c d s1) (bodyVfcls v c d s1) s

end Sys2Proof.Machine
end

