-- ==== Sys2Proof/Machine/LongMul.lean ====
section
/-! DEFINITION. The long-multiply and bit-plane instructions (R181-R190). -/
namespace Sys2Proof.Machine
open Sys2Proof

/-- The first M digits of an integer at spacing k (R61, R183, R184). -/
def digits (u : Bool) (k : Nat) : Nat → Int → List Int
  | 0, _ => []
  | n + 1, t => let c := asInt u (lowBits t k) k; c :: digits u k n ((t - c) / (2 ^ k : Nat))

/-- The carry form of some elements at spacing k (R60). -/
def carryForm (k : Nat) : List Int → Int
  | [] => 0
  | x :: t => x + (2 ^ k : Nat) * carryForm k t

/-- PACK (R182). -/
def packR (C : Nat) (u : Bool) (w k m : Nat) (x : Quad) : Nat :=
  lowBits (carryForm k ((upto m).map (fun i => asInt u (bits x.toNat (w * i) w) w))) C

/-- Digit d of a polynomial product (R56). -/
def polyDigit (as bs : List Int) (d : Nat) : Int :=
  (upto (d + 1)).foldl (fun t i => t + as.getD i 0 * bs.getD (d - i) 0) 0

/-- The fence of a digit of k bits (R58). -/
def fenceLo (u : Bool) (k : Nat) : Int := if u then 0 else -(2 ^ (k - 1) : Nat)
/-- The upper end of the fence. -/
def fenceHi (u : Bool) (k : Nat) : Int := if u then (2 ^ k : Nat) - 1 else (2 ^ (k - 1) : Nat) - 1

/-- A digit held to its fence. -/
def fenced (u : Bool) (k : Nat) (c : Int) : Int := max (fenceLo u k) (min (fenceHi u k) c)

/-- The fenced form of some digits (R59). -/
def fencedForm (u : Bool) (k : Nat) : List Int → Nat
  | [] => 0
  | c :: t => lowBits (fenced u k c) k + 2 ^ k * fencedForm u k t

/-- Fenced PMUL (R183): the result, and whether a digit left its fence. -/
def pmulFen (C : Nat) (u : Bool) (k a b : Nat) : Nat × Bool :=
  let M := C / k
  let as := digits u k M (asInt u a C)
  let bs := digits u k M (asInt u b C)
  let cs := (upto M).map (polyDigit as bs)
  (fencedForm u k cs, cs.any (fun c => fenced u k c != c))

/-- PMUL (R183). A fenced product that leaves a fence faults under GOE and sets GO otherwise. -/
def pmulF (v : View) (u fen : Bool) (k : Nat) (e : Env) (g : Args) (l : Loc) : Res Out :=
  let C := View.lw v
  if fen then
    let r := pmulFen C u k g.a.val.toNat g.b.val.toNat
    if r.2 && fGOE e.stat then flt l 0x0A
    else .ok { outQ (BitVec.ofNat 128 r.1) with flags := { noFlags with go := if r.2 then some true else none } }
  else .ok (outQ (BitVec.ofNat 128 (g.a.val.toNat * g.b.val.toNat % 2 ^ C)))

/-- EXTR (R184). -/
def extrR (v : View) (u cq fen : Bool) (k first : Nat) (x : Quad) : Quad :=
  let C := if cq then 128 else 64
  let y := x.toNat % 2 ^ C
  let L := View.lanes v
  let cs := if fen then [] else digits u k (first + L) (asInt u y C)
  ofLanes (View.lw v) (fun i =>
    lowBits (if fen then asInt u (bits y (k * (first + i)) k) k else cs.getD (first + i) 0) (View.lw v))

/-- tmax(k) of GCHK (R185, R62). -/
def tmax (u : Bool) (w k : Nat) : Nat :=
  if u then (2 ^ k - 1) / ((2 ^ w - 1) * (2 ^ w - 1)) else 2 ^ (k + 1 - 2 * w) - 1

/-- GCHK (R185): the result with N and Z from the headroom. -/
def gchkR (u : Bool) (w k T : Nat) : Out :=
  let t (k : Nat) : Nat := if k + 1 < 2 * w ∧ !u then 0 else tmax u w k
  let kmin := (((upto 33).filter (fun j => decide (2 * w ≤ j ∧ t j ≥ T))).head?).getD 0
  let head : Int := if kmin = 0 then -128 else (k : Int) - kmin
  let r := min (t k) (2 ^ 32 - 1) * 2 ^ 16 + lowBits head 8 * 2 ^ 8 + kmin
  { outQ (BitVec.ofNat 128 r) with flags := { noFlags with n := some (decide (head < 0)), z := some (decide (head = 0)) } }

/-- The plane pitch in bytes of BPRD and BPWR (R186). -/
def planePitch (s2 : Quad) : Nat := s2.toNat % 2 ^ 16 * 64
/-- The group of BPRD and BPWR (R186). -/
def planeGroup (s2 : Quad) : Nat := bits s2.toNat 16 5

/-- The address of plane j (R186). -/
def planePtr (ea : Word) (pp j : Nat) : Word := ptrAdd ea (BitVec.ofNat 64 (j * pp))

/-- The checks of BPRD and BPWR on the pitch and the group (R186, R187): after the operands are read, before the first plane is (log entry 113). -/
def planeChecks (l : Loc) (ea : Word) (pp grp L : Nat) (k : Acc) : Res Unit := if pp = 0 ∨ grp ≥ 128 / L then flt06 l ea k else .ok ()

/-- Planes 0 to n - 1, read in order (R186). -/
def readPlanes (l : Loc) (ea : Word) (pp : Nat) : List Nat → Res (List Src)
  | [] => .ok []
  | j :: t => do
      let d ← readPtr l (planePtr ea pp j) 16 16 false none
      let r ← readPlanes l ea pp t
      .ok ({ val := d.val, pois := d.pois, ptr := l.poisPtr (planePtr ea pp j) 16 } :: r)

/-- The planes as one operand: poisoned when any plane is, by the first pointer that is (R149). -/
def planesSrc (ps : List Src) : Src :=
  match ps.find? Src.pois with
  | some s => s
  | none => clean 0

/-- The element of BPRD: bit 7 - j from plane j, shifted down by the planes not read (R186). -/
def planeElem (ps : List Src) (p e : Nat) : Int :=
  let v := (upto p).foldl (fun t j => t + (bit ((ps.getD j (clean 0)).val.toNat) e).toNat * 2 ^ (7 - j)) 0
  sextI v 8 / (2 ^ (8 - p) : Nat)

/-- The plane count under the prefix (R186). -/
def planeCount (e : Env) : Nat := match e.fw with | some fw => fwA fw - 1 | none => 8

/-- The lanes of BPRD (R186). -/
def bprdOut (v : View) (e : Env) (ps : List Src) (grp sw : Nat) : Out :=
  let half := match e.fw with | some fw => fwHalf fw | none => false
  let L := View.lanes v
  if voidScale sw then { outQ 0 with pois := true }
  else outQ (ofLanes (View.lw v) (fun i =>
    let q := planeElem ps (planeCount e) (grp * L + i)
    lowBits (if half then 2 * q + 1 else q) (View.lw v)))

/-- The lanes of BPWR as stored bytes, with their flags (R187, R53). -/
def bpwrLane (v : View) (rm : Nat) (s : Int) (x : Nat) : Nat × FFlags :=
  let r := if View.isFp v then toIntSat rm 8 (((fmtOf v).unpack x).mul2 (-s))
    else let q := toIntSat rm 8 ((FVal.ofInt (sextI x (View.lw v))).mul2 (-s)); (q.1, 0)
  (lowBits r.1 8, r.2)

/-- Plane j with the bits of the group's elements replaced (R187). -/
def planeMerge (old : Quad) (vs : List Nat) (base j : Nat) : Quad :=
  BitVec.ofNat 128 ((upto 128).foldl (fun t e =>
    let b := if base ≤ e ∧ e < base + vs.length then bit (vs.getD (e - base) 0) (7 - j) else bit old.toNat e
    t + b.toNat * 2 ^ e) 0)

/-- The eight planes of D checked for writing (R187). -/
def readyPlanes (l : Loc) (ea : Word) (pp : Nat) : List Nat → Res (List Ready)
  | [] => .ok []
  | j :: t => do
      let r ← readyPtr l (planePtr ea pp j) 16 16
      let rs ← readyPlanes l ea pp t
      .ok (r :: rs)

/-- PACK (R182): M is idx + 1. -/
def bodyPack (v : View) (c : Cond) (u : Bool) (wc : EWidth) (k : BitVec 6) (idx : BitVec 7) (d : Opd) (s1 : Opd) : Loc → Res Loc :=
  pureOp (.pack v c u wc k idx d s1) v (fun _ g => outQ (BitVec.ofNat 128 (packR (View.lw v) u (EWidth.bits wc) k.toNat (idx.toNat + 1) g.a.val)))

/-- PACK as an issue of context `cur`. -/
def execPack (v : View) (c : Cond) (u : Bool) (wc : EWidth) (k : BitVec 6) (idx : BitVec 7) (d : Opd) (s1 : Opd) (s : State) : Host.Outcome State Fault Refusal :=
  issue (.pack v c u wc k idx d s1) (bodyPack v c u wc k idx d s1) s

/-- EXTR (R184). -/
def bodyExtr (v : View) (c : Cond) (u : Bool) (cq : Bool) (fen : Bool) (k : BitVec 6) (idx : BitVec 7) (d : Opd) (s1 : Opd) : Loc → Res Loc :=
  pureOp (.extr v c u cq fen k idx d s1) v (fun _ g => outQ (extrR v u cq fen k.toNat idx.toNat g.a.val))

/-- EXTR as an issue of context `cur`. -/
def execExtr (v : View) (c : Cond) (u : Bool) (cq : Bool) (fen : Bool) (k : BitVec 6) (idx : BitVec 7) (d : Opd) (s1 : Opd) (s : State) : Host.Outcome State Fault Refusal :=
  issue (.extr v c u cq fen k idx d s1) (bodyExtr v c u cq fen k idx d s1) s

/-- PMUL (R183). -/
def bodyPmul (v : View) (c : Cond) (u : Bool) (fen : Bool) (wc : EWidth) (k : BitVec 6) (d : Opd) (s1 : Opd) (s2 : Opd) : Loc → Res Loc :=
  compute (.pmul v c u fen wc k d s1 s2) v (pmulF v u fen k.toNat)

/-- PMUL as an issue of context `cur`. -/
def execPmul (v : View) (c : Cond) (u : Bool) (fen : Bool) (wc : EWidth) (k : BitVec 6) (d : Opd) (s1 : Opd) (s2 : Opd) (s : State) : Host.Outcome State Fault Refusal :=
  issue (.pmul v c u fen wc k d s1 s2) (bodyPmul v c u fen wc k d s1 s2) s

/-- GCHK (R185). -/
def bodyGchk (c : Cond) (u : Bool) (wc : EWidth) (k : BitVec 6) (d : Opd) (s1 : Opd) : Loc → Res Loc :=
  pureOp (.gchk c u wc k d s1) .d (fun _ g => gchkR u (EWidth.bits wc) k.toNat g.a.val.toNat)

/-- GCHK as an issue of context `cur`. -/
def execGchk (c : Cond) (u : Bool) (wc : EWidth) (k : BitVec 6) (d : Opd) (s1 : Opd) (s : State) : Host.Outcome State Fault Refusal :=
  issue (.gchk c u wc k d s1) (bodyGchk c u wc k d s1) s

/-- BPRD (R186): the planes are read in the place of S1, before D is checked. -/
def bodyBprd (v : View) (c : Cond) (d : Opd) (s1 : Opd) (s2 : Opd) (x : Opd) : Loc → Res Loc :=
  fun l => do
    let i : Instr := (.bprd v c d s1 s2 x)
    let e := envOf l.ctx i
    let sh := shape i
    let b ← fetchOpt l v e.rm sh.s2
    let x' ← fetchOpt l v e.rm sh.x
    let ea := l.ea s1 16
    planeChecks l ea (planePitch b.val) (planeGroup b.val) (View.lanes v) .read
    let ps ← readPlanes l ea (planePitch b.val) (upto (planeCount e))
    let dst ← readyDst l sh.d
    let g : Args := { a := l.based s1 (planesSrc ps), b := b, x := x', d := (match sh.d with | some (o, _) => l.based o (clean 0) | none => clean 0)
                      dst := dst }
    .ok ((l.take sh g).writeOut sh dst (bprdOut v e ps (planeGroup b.val) (x'.val.toNat % 2 ^ 16)) g.pois)

/-- BPRD as an issue of context `cur`. -/
def execBprd (v : View) (c : Cond) (d : Opd) (s1 : Opd) (s2 : Opd) (x : Opd) (s : State) : Host.Outcome State Fault Refusal :=
  issue (.bprd v c d s1 s2 x) (bodyBprd v c d s1 s2 x) s

/-- BPWR (R187): each plane is read, changed in the bits of the group, and written back. With D in G each plane is a store of its own and counts
in CNT.ST (log entry 114). -/
def bodyBpwr (v : View) (c : Cond) (d : Opd) (s1 : Opd) (s2 : Opd) (x : Opd) : Loc → Res Loc :=
  fun l => do
    let i : Instr := (.bpwr v c d s1 s2 x)
    let e := envOf l.ctx i
    let sh := shape i
    let a ← fetchOpt l v e.rm sh.s1
    let b ← fetchOpt l v e.rm sh.s2
    let x' ← fetchOpt l v e.rm sh.x
    let ea := l.ea d 16
    let pp := planePitch b.val
    let grp := planeGroup b.val
    let L := View.lanes v
    planeChecks l ea pp grp L .write
    let ps ← readPlanes l ea pp (upto 8)
    let rs ← readyPlanes l ea pp (upto 8)
    (if spaceOf ea = 0 ∧ 55 < l.ctx.cntOf 1 then parkOn l .stall else .ok ())
    let vs := (upto L).map (fun i => bpwrLane v e.rm (sextI x'.val.toNat 9) (lane (View.lw v) a.val i))
    let g : Args := { a := a, b := b, x := x', d := l.based d (planesSrc ps), dst := .none_ }
    let l1 := (l.take sh g).flags { noFlags with fps := vs.foldl (fun t r => t ||| r.2) 0 }
    .ok ((upto 8).foldl (fun l j =>
      match rs[j]? with
      | some r => l.writeReady r (leBytes 16 (planeMerge (ps.getD j (clean 0)).val (vs.map Prod.fst) (grp * L) j).toNat) g.pois plainStore
      | none => l) l1)

/-- BPWR as an issue of context `cur`. -/
def execBpwr (v : View) (c : Cond) (d : Opd) (s1 : Opd) (s2 : Opd) (x : Opd) (s : State) : Host.Outcome State Fault Refusal :=
  issue (.bpwr v c d s1 s2 x) (bodyBpwr v c d s1 s2 x) s

/-- SCALE (R188). -/
def bodyScale (v : View) (c : Cond) (d : Opd) (s1 : Opd) (s2 : Opd) : Loc → Res Loc :=
  fun l => pureOp (.scale v c d s1 s2) (scaleSrc v (envOf l.ctx (.scale v c d s1 s2))) (fun e g => scaleOut v e g) l

/-- SCALE as an issue of context `cur`. -/
def execScale (v : View) (c : Cond) (d : Opd) (s1 : Opd) (s2 : Opd) (s : State) : Host.Outcome State Fault Refusal :=
  issue (.scale v c d s1 s2) (bodyScale v c d s1 s2) s

/-- BEXP (R189). -/
def bodyBexp (v : View) (c : Cond) (d : Opd) (s1 : Opd) (s2 : Opd) : Loc → Res Loc :=
  pureOp (.bexp v c d s1 s2) v (fun _ g => bexpOut v g)

/-- BEXP as an issue of context `cur`. -/
def execBexp (v : View) (c : Cond) (d : Opd) (s1 : Opd) (s2 : Opd) (s : State) : Host.Outcome State Fault Refusal :=
  issue (.bexp v c d s1 s2) (bodyBexp v c d s1 s2) s

end Sys2Proof.Machine
end

