-- ==== Sys2Proof/Machine/Control.lean ====
section
/-! DEFINITION. Control, tokens of the outbox, TRAP and RTI, system registers (R191-R237). -/
namespace Sys2Proof.Machine
open Sys2Proof

/-- A transfer that is taken (R195): BTGT and DS, and the two delay slots to come. -/
def takeBranch (l : Loc) (t : Word) (linked : Bool) : Loc :=
  { l with ctx := { l.ctx with btgt := t, stat := setFld l.ctx.stat 45 2 2, taken := true, linked := linked }
           next := .at_ (l.ctx.pc + 1) }

/-- A target outside the valid slot indices is fault 0x13 at the transfer (R109, R195). -/
def targetOk (l : Loc) (t : Word) : Res Unit := need l (decide (t.toNat < slotLimit)) 0x13

/-- BR and CALL (R195). -/
def branch (l : Loc) (off : BitVec 32) (lnk : Option Reg) : Res Loc := do
  let t := l.ctx.pc + off.signExtend 64
  targetOk l t
  let l1 := match lnk with
    | some p => l.setP p (l.ctx.pc + 3) false
    | none => l
  .ok (takeBranch l1 t lnk.isSome)

/-- The count of LOOP (R198): an immediate is zero-extended. -/
def loopCount (l : Loc) (cnt : Opd) : Word :=
  match cnt with
  | .imm x => x.setWidth 64
  | .preg p => l.p p
  | _ => 0

/-- LOOP (R198). -/
def loopR (l : Loc) (cnt : Opd) (off : BitVec 32) : Res Loc := do
  let c := loopCount l cnt
  let k := l.ctx
  let last := k.pc + off.signExtend 64
  let lpd := stLPD k.stat
  let l1 := match cnt with | .preg p => if l.pPois p then l.consume regPtr else l | _ => l
  if c = 0 then .ok { l1 with next := .at_ (last + 1) }
  else do
    need l (decide (lpd < 2)) 0x07
    need l (!(lpd == 1 && (decide (k.pc + 1 < k.lbeg0) || decide (last > k.lend0)))) 0x07
    let k1 := l1.ctx
    let k2 := if lpd = 0 then { k1 with lbeg0 := k.pc + 1, lend0 := last, lcnt0 := c - 1 }
      else { k1 with lbeg1 := k.pc + 1, lend1 := last, lcnt1 := c - 1 }
    .ok { l1 with ctx := { k2 with stat := setFld k2.stat 40 3 (lpd + 1) }, next := .at_ (k.pc + 1) }

/-- A pending deferred fault as it is raised (R209, R376): KIND 2. -/
def raised (f : DefFault) (dcl : BitVec 2) : FaultInfo :=
  { code := f.code, addr := f.addr, acc := 3, kind := 2, dcl := dcl, merged := f.merged, status := f.status, tid := f.tid }

/-- The first pending deferred fault among the classes that `cov` covers, in the order TL, CP, ST, LD (R208). -/
def dueFault (c : Ctx) (cov : Nat → Bool) : Option FaultInfo :=
  match (if cov 3 then c.defTL else none), (if cov 2 then c.defCP else none), (if cov 1 then c.defST else none),
      (if cov 0 then c.defLD else none) with
  | some f, _, _, _ => some (raised f 3)
  | none, some f, _, _ => some (raised f 2)
  | none, none, some f, _ => some (raised f 1)
  | none, none, none, some f => some (raised f 0)
  | none, none, none, none => none

/-- Raise a due deferred fault. -/
def raiseDue (l : Loc) (cov : Nat → Bool) : Res Unit :=
  match dueFault l.ctx cov with
  | some f => .error (.fault l f)
  | none => .ok ()

/-- After a WAIT that covers class CP or TL, the signature takes all ones when an engine command of the firing in that class has written G
(R353). -/
def coverG (l : Loc) (cp tl : Bool) : Loc :=
  if cp && l.ctx.engG || tl && l.ctx.engT then
    { l with ctx := { l.ctx with sig := BitVec.allOnes 256, engG := l.ctx.engG && !cp, engT := l.ctx.engT && !tl } }
  else l

/-- A ceiling of WAIT (R208). -/
def ceiling (ceil : BitVec 24) (k : Nat) : Nat := fld ceil (6 * k) 6

/-- WAIT (R208). -/
def waitR (l : Loc) (ceil : BitVec 24) : Res Loc := do
  if (upto 4).all (fun k => decide (l.ctx.cntOf k ≤ ceiling ceil k)) then
    raiseDue l (fun k => decide (ceiling ceil k < 63))
    .ok (coverG l (decide (ceiling ceil 2 < 63)) (decide (ceiling ceil 3 < 63)))
  else parkOn l .wait

/-- The word of a system register (R97, R126, R231, R232). -/
def readSreg (l : Loc) (r : BitVec 16) : Word :=
  let c := l.ctx
  match r.toNat with
  | 0x0 => c.stat
  | 0x1 => c.cir.setWidth 64
  | 0x2 => c.cira
  | 0x3 => c.cnt.setWidth 64
  | 0x4 => c.ntgt.setWidth 64
  | 0x5 => c.pc
  | 0x6 => c.btgt
  | 0x8 => c.lbeg0
  | 0x9 => c.lend0
  | 0xA => c.lcnt0
  | 0xB => c.lbeg1
  | 0xC => c.lend1
  | 0xD => c.lcnt1
  | 0x10 => BitVec.ofNat 64 l.cid
  | 0x11 => BitVec.ofNat 64 c.dleft
  | 0x12 => if l.core.tileSet then l.core.tile0 else 0
  | 0x13 => if l.core.tileSet then l.core.tile1 else 0
  | 0x14 => l.core.dist
  | 0x120 => l.core.serc.setWidth 64
  | 0x1000 => c.mtpc
  | 0x1001 => c.mtst
  | 0x1002 => (match c.mtvec with | some w => w | none => l.hub.mtvec)
  | 0x1003 => c.mtcode.setWidth 64
  | _ => 0

/-- The bits of STAT that MTS writes: FPS, RM, GOE, GO, N, Z, C, V (R89, R90). -/
def statRW : Word := 0xFF0000001F

/-- A system register written (R90, R97, R126, R231, R232). -/
def writeSreg (l : Loc) (r : BitVec 16) (w : Word) : Loc :=
  let c := l.ctx
  match r.toNat with
  | 0x0 => l.setStat ((c.stat &&& ~~~statRW) ||| (w &&& statRW))
  | 0x1 => { l with ctx := { c with cir := w.setWidth 16 &&& 0xFF0F } }
  | 0x2 => { l with ctx := { c with cira := w } }
  | 0x4 => { l with ctx := { c with ntgt := w.setWidth 32 } }
  | 0x6 => { l with ctx := { c with btgt := w } }
  | 0x8 => { l with ctx := { c with lbeg0 := w } }
  | 0x9 => { l with ctx := { c with lend0 := w } }
  | 0xA => { l with ctx := { c with lcnt0 := w } }
  | 0xB => { l with ctx := { c with lbeg1 := w } }
  | 0xC => { l with ctx := { c with lend1 := w } }
  | 0xD => { l with ctx := { c with lcnt1 := w } }
  | 0x120 => { l with core := { l.core with serc := w.setWidth 32 } }
  | 0x1000 => { l with ctx := { c with mtpc := w } }
  | 0x1001 => { l with ctx := { c with mtst := w } }
  | 0x1002 => { l with ctx := { c with mtvec := some w } }
  | 0x1003 => { l with ctx := { c with mtcode := w.setWidth 16 } }
  | _ => l

/-- A TRAP at PRIV 0 takes an entry of the fault queue of its own; TRAP entries never merge (R228, R385). While the CAM is full it
waits in the translation service. -/
def trapPark (l : Loc) (n : BitVec 16) : Loc × Park :=
  match camFree l.hub with
  | none => (l, .trapWait n)
  | some i =>
      let c := l.ctx
      let e : CamEntry := { seq := l.hub.camSeq + 1, pasid := c.pasid.toNat, page := 0, acc := .read, sub := 0, code := 0x40, trapNo := n, reqs := [.ctx l.cid]
                            ftime := l.now / 16, priSent := false }
      let f := { faultOf 0x40 with addr := l.p 0, kind := 1 }
      let r := recordOf f c.pasid c.irv (stPFXV c.stat) (stDS c.stat != 0) l.cid (BitVec.ofNat 64 (e.ftime * 2 ^ 16 + n.toNat))
        (replayToken i e)
      ({ l with hub := { l.hub with cam := mset noCam l.hub.cam i e, camSeq := l.hub.camSeq + 1, recs := l.hub.recs ++ [r] } }, .trap i)

/-- MTVEC as the context holds it: boot set it until a program writes it (R231, R459). -/
def mtvecOf (l : Loc) : Word := match l.ctx.mtvec with | some w => w | none => l.hub.mtvec

/-- Whether a drift number is sealed: numbers wrap modulo 2^32 (R227). -/
def isSealed (s : Seals) (d : BitVec 32) : Bool := decide ((s.sealed - d).toNat < 2 ^ 31)

/-- The core number of a neighbour (R19). -/
def neighbour (core : Nat) (dir : Dir) : Nat :=
  let base := core / 32 * 32
  let c := core / 8 % 4
  let n := core % 8
  match dir with
  | .nx => base + c * 8 + (n + 1) % 8
  | .pv => base + c * 8 + (n + 7) % 8
  | .up => base + (c + 1) % 4 * 8 + n
  | .dn => base + (c + 3) % 4 * 8 + n

/-- Whether a neighbour exists and is in service (R19, R212). -/
def neighbourOk (h : Hub) (core : Nat) (dir : Dir) : Bool :=
  (match dir with | .up | .dn => !isService core | _ => true) && inService h (neighbour core dir)

/-- A token as a firing queues it: its tag, signature and sender are filled in when it is committed (R210, R356). -/
def newToken (payload : Quad) : Token :=
  { payload := payload, tag := 0, sig := 0, pois := false, redeliv := 0, pasid := 0, sender := 0, refCh := none, cred := false
    own := none, row := none }

/-- An item appended to the outbox, counting a token toward p (R210). -/
def Loc.outPush (l : Loc) (o : OutItem) (tok : Bool) : Loc :=
  { l with ctx := { l.ctx with outbox := l.ctx.outbox ++ [o], produced := l.ctx.produced + (if tok then 1 else 0) } }

/-- Whether an outbox item is a table entry (R194). -/
def OutItem.isEntry : OutItem → Bool
  | .bind .. | .unbind _ | .fork .. => true
  | _ => false

/-- Room for one more table entry (R194). -/
def entryRoom (l : Loc) : Res Unit := need l (decide ((l.ctx.outbox.filter OutItem.isEntry).length < 8)) 0x18

/-- The firing's own handler-entry fields of a channel (R292): doubleword 1. -/
def entryW1 (e : BitVec 256) : Word := e.extractLsb' 64 64
/-- Doubleword 2. -/
def entryW2 (e : BitVec 256) : Word := e.extractLsb' 128 64
/-- Owner PASID. -/
def entPasid (e : BitVec 256) : BitVec 20 := e.extractLsb' 108 20
/-- VAL. -/
def entVal (e : BitVec 256) : Bool := e.getLsbD 67
/-- KND: 1 for a mailbox. -/
def entKnd (e : BitVec 256) : Bool := e.getLsbD 68
/-- RENT. -/
def entRent (e : BitVec 256) : Bool := e.getLsbD 69
/-- PRI. -/
def entPri (e : BitVec 256) : Nat := fld e 70 3
/-- DL. -/
def entDl (e : BitVec 256) : Nat := fld e 73 12
/-- INST. -/
def entInst (e : BitVec 256) : Nat := fld e 85 11
/-- LSLOT. -/
def entLslot (e : BitVec 256) : Nat := fld e 96 12
/-- SEC. -/
def entSec (e : BitVec 256) : Bool := e.getLsbD 66
/-- IMG, an X offset. -/
def entImg (e : BitVec 256) : Nat := fld e 179 13
/-- CAP. -/
def entCap (e : BitVec 256) : Nat := fld e 168 8
/-- EDEP. -/
def entEdep (e : BitVec 256) : Nat := fld e 160 8
/-- IN1. -/
def entIn1 (e : BitVec 256) : Nat := fld e 150 5
/-- P. -/
def entP (e : BitVec 256) : Nat := fld e 144 6
/-- C1. -/
def entC1 (e : BitVec 256) : Nat := fld e 139 5
/-- C0. -/
def entC0 (e : BitVec 256) : Nat := fld e 134 5
/-- OEDGE. -/
def entOedge (e : BitVec 256) : BitVec 32 := e.extractLsb' 192 32
/-- ENTRY. -/
def entEntry (e : BitVec 256) : Word := e.extractLsb' 0 64

/-- BR (R119, R195). -/
def bodyBr (c : Cond) (off : BitVec 32) (lnk : Option Reg) : Loc → Res Loc :=
  fun l => branch l off lnk

/-- BR as an issue of context `cur`. -/
def execBr (c : Cond) (off : BitVec 32) (lnk : Option Reg) (s : State) : Host.Outcome State Fault Refusal :=
  issue (.br c off lnk) (bodyBr c off lnk) s

/-- CALL (R119, R195). -/
def bodyCall (c : Cond) (off : BitVec 32) (lnk : Reg) : Loc → Res Loc :=
  fun l => branch l off (some lnk)

/-- CALL as an issue of context `cur`. -/
def execCall (c : Cond) (off : BitVec 32) (lnk : Reg) (s : State) : Host.Outcome State Fault Refusal :=
  issue (.call c off lnk) (bodyCall c off lnk) s

/-- JMP (R195). -/
def bodyJmp (c : Cond) (s1 : Opd) : Loc → Res Loc :=
  fun l => do
    let g ← fetchArgs l .d 0 (shape (.jmp c s1))
    let t : Word := g.a.val.setWidth 64
    targetOk l t
    .ok (takeBranch (l.take (shape (.jmp c s1)) g) t false)

/-- JMP as an issue of context `cur`. -/
def execJmp (c : Cond) (s1 : Opd) (s : State) : Host.Outcome State Fault Refusal :=
  issue (.jmp c s1) (bodyJmp c s1) s

/-- JMPL: S1 is read before the link is written (R195). -/
def bodyJmpl (c : Cond) (d : Opd) (s1 : Opd) : Loc → Res Loc :=
  fun l => do
    let sh := shape (.jmpl c d s1)
    let g ← fetchArgs l .d 0 sh
    let t : Word := g.a.val.setWidth 64
    targetOk l t
    .ok (takeBranch ((l.take sh g).writeScalar g.dst 64 false ((l.ctx.pc + 3).setWidth 128) g.pois) t true)

/-- JMPL as an issue of context `cur`. -/
def execJmpl (c : Cond) (d : Opd) (s1 : Opd) (s : State) : Host.Outcome State Fault Refusal :=
  issue (.jmpl c d s1) (bodyJmpl c d s1) s

/-- LOOP (R198). -/
def bodyLoop (cnt : Opd) (off : BitVec 32) : Loc → Res Loc :=
  fun l => loopR l cnt off

/-- LOOP as an issue of context `cur`. -/
def execLoop (cnt : Opd) (off : BitVec 32) (s : State) : Host.Outcome State Fault Refusal :=
  issue (.loop cnt off) (bodyLoop cnt off) s

/-- WAIT (R208). -/
def bodyWait (c : Cond) (ceil : BitVec 24) : Loc → Res Loc :=
  fun l => waitR l ceil

/-- WAIT as an issue of context `cur`. -/
def execWait (c : Cond) (ceil : BitVec 24) (s : State) : Host.Outcome State Fault Refusal :=
  issue (.wait c ceil) (bodyWait c ceil) s

/-- SEND (R210). It has no view: a payload of KIND 6 or `lanes` is formed in 64-bit lanes, as under view d (log entry 90). -/
def bodySend (c : Cond) (s1 : Opd) (s2 : Opd) (rch : Option (BitVec 5)) : Loc → Res Loc :=
  fun l => do
    let sh := shape (.send c s1 s2 rch)
    let g ← fetchArgs l .d 0 sh
    need l (decide (l.ctx.produced < l.ctx.prate)) 0x0B
    let addr : BitVec 32 := g.b.val.setWidth 32
    need l (decide (fld addr 16 16 < 4096)) 0x18
    .ok ((l.take sh g).outPush (.tok (newToken g.a.val) addr rch) true)

/-- SEND as an issue of context `cur`. -/
def execSend (c : Cond) (s1 : Opd) (s2 : Opd) (rch : Option (BitVec 5)) (s : State) : Host.Outcome State Fault Refusal :=
  issue (.send c s1 s2 rch) (bodySend c s1 s2 rch) s

/-- SENDN (R212). -/
def bodySendn (c : Cond) (s1 : Opd) (dch : BitVec 5) (dir : Dir) : Loc → Res Loc :=
  fun l => do
    let sh := shape (.sendn c s1 dch dir)
    let g ← fetchArgs l .d 0 sh
    need l (decide (l.ctx.produced < l.ctx.prate)) 0x0B
    need l (neighbourOk l.hub (coreOfCid l.cid) dir) 0x18
    .ok ((l.take sh g).outPush (.nbr (newToken g.a.val) dch dir) true)

/-- SENDN as an issue of context `cur`. -/
def execSendn (c : Cond) (s1 : Opd) (dch : BitVec 5) (dir : Dir) (s : State) : Host.Outcome State Fault Refusal :=
  issue (.sendn c s1 dch dir) (bodySendn c s1 dch dir) s

/-- RECV writes the payload to A and the tag to D (R214). -/
def bodyRecv (c : Cond) (d : Opd) (s1 : Opd) : Loc → Res Loc :=
  fun l => do
    let sh := shape (.recv c d s1)
    let ch := match s1 with | .chan n _ => n | _ => 0
    let t ← chanTok l ch
    let g ← fetchArgs l .d 0 sh
    let po := t.pois || g.d.pois
    .ok (((l.take sh { g with a := { g.a with pois := t.pois, ptr := regPtr } }).setA t.payload po).writeScalar g.dst 64 false (t.tag.setWidth 128) po)

/-- RECV as an issue of context `cur`. -/
def execRecv (c : Cond) (d : Opd) (s1 : Opd) (s : State) : Host.Outcome State Fault Refusal :=
  issue (.recv c d s1) (bodyRecv c d s1) s

/-- UNBIND (R217, R219). -/
def bodyUnbind (c : Cond) (s1 : Opd) : Loc → Res Loc :=
  fun l => do
    let sh := shape (.unbind c s1)
    let g ← fetchArgs l .d 0 sh
    need l (decide (g.a.val.toNat < 32)) 0x18
    entryRoom l
    .ok ((l.take sh g).outPush (.unbind g.a.val.toNat) false)

/-- UNBIND as an issue of context `cur`. -/
def execUnbind (c : Cond) (s1 : Opd) (s : State) : Host.Outcome State Fault Refusal :=
  issue (.unbind c s1) (bodyUnbind c s1) s

/-- TRIG (R224): the first of a launch takes effect; the stores made so far are marked, for the scheduler waits for them. In a firing of no
launch it speaks of the launch that stands in its slot number (log entry 119). -/
def bodyTrig (c : Cond) : Loc → Res Loc :=
  fun l =>
    let t := l.hub.tables
    let k := l.ctx.lslot.toNat
    match t.launches.find? (fun e => e.1 == k) with
    | some (_, la) =>
        if la.trigged.isSome then .ok l
        else .ok { l with
          hub := { l.hub with tables := { t with launches := t.launches.map (fun e => if e.1 = k then (k, { e.2 with trigged := some l.cid }) else e) } }
          ctx := { l.ctx with stq := l.ctx.stq.map (fun s => { s with trig := true }), rstq := l.ctx.rstq.map (fun s => { s with trig := true }) } }
    | none => .ok l

/-- TRIG as an issue of context `cur`. -/
def execTrig (c : Cond) (s : State) : Host.Outcome State Fault Refusal :=
  issue (.trig c) (bodyTrig c) s

/-- SEAL (R226). A context that waits for its drift retires when that drift is sealed. -/
def bodySeal (c : Cond) (d : Opd) (num : Bool) (wt : Bool) : Loc → Res Loc :=
  fun l =>
    match l.ctx.status with
    | .parked (.seal d0) => if isSealed l.hub.seals d0 then .ok l else parkOn l (.seal d0)
    | _ => do
        (if l.ctx.cntOf 1 = 0 then .ok () else parkOn l .stall)
        let sh := shape (.seal c d num wt)
        let g ← fetchArgs l .d 0 sh
        let c0 := l.hub.seals.newest
        let l1 := { l.take sh g with hub := { l.hub with seals := { l.hub.seals with wanted := true } } }
        let l2 := if num then l1.writeScalar g.dst 64 true (c0.setWidth 128) g.pois else l1
        if wt then parkOn l2 (.seal c0) else .ok l2

/-- SEAL as an issue of context `cur`. -/
def execSeal (c : Cond) (d : Opd) (num : Bool) (wt : Bool) (s : State) : Host.Outcome State Fault Refusal :=
  issue (.seal c d num wt) (bodySeal c d num wt) s

/-- DRIFT (R227). -/
def bodyDrift (c : Cond) (d : Opd) : Loc → Res Loc :=
  fun l => do
    let sh := shape (.drift c d)
    let g ← fetchArgs l .d 0 sh
    let w : Word := l.hub.seals.sealed ++ l.hub.seals.newest
    .ok ((l.take sh g).writeScalar g.dst 64 true (w.setWidth 128) g.pois)

/-- DRIFT as an issue of context `cur`. -/
def execDrift (c : Cond) (d : Opd) (s : State) : Host.Outcome State Fault Refusal :=
  issue (.drift c d) (bodyDrift c d) s

/-- RTI (R230): all of MTST goes into STAT, which holds what `statHeld` says. -/
def bodyRti (c : Cond) : Loc → Res Loc :=
  fun l => .ok { l.setStat (statHeld l.ctx.mtst) with next := .jump l.ctx.mtpc, pfx := stPFXV l.ctx.mtst }

/-- RTI as an issue of context `cur`. -/
def execRti (c : Cond) (s : State) : Host.Outcome State Fault Refusal :=
  issue (.rti c) (bodyRti c) s

/-- MFS (R232). -/
def bodyMfs (c : Cond) (d : Opd) (sreg : BitVec 16) : Loc → Res Loc :=
  fun l => do
    let sh := shape (.mfs c d sreg)
    let g ← fetchArgs l .d 0 sh
    .ok ((l.take sh g).writeScalar g.dst 64 true ((readSreg l sreg).setWidth 128) g.pois)

/-- MFS as an issue of context `cur`. -/
def execMfs (c : Cond) (d : Opd) (sreg : BitVec 16) (s : State) : Host.Outcome State Fault Refusal :=
  issue (.mfs c d sreg) (bodyMfs c d sreg) s

/-- Whether a system register takes part in the retirement of a slot (R195, R199): BTGT and the loop sets. -/
def flowSreg (r : BitVec 16) : Bool := r == 0x6 || (decide (0x8 ≤ r.toNat) && decide (r.toNat ≤ 0xD))

/-- A loop end test that is due runs at once (R199). -/
def testNow (c : Ctx) : Ctx := if c.status = .issuing ∧ c.endTest then loopTest { c with endTest := false, tgtCheck := false } 2 else c

/-- MTS (R232). Its effect applies from the next instruction: BTGT and the loop sets change after MTS has retired, with the end test of its
slot, by their old values. -/
def mtsBody (c : Cond) (s1 : Opd) (sreg : BitVec 16) (_ : State) (l : Loc) : Res (Loc × (State → State)) := do
  let sh := shape (.mts c s1 sreg)
  let g ← fetchArgs l .d 0 sh
  let w : Word := g.a.val.setWidth 64
  let l1 := l.take sh g
  if flowSreg sreg then
    .ok (l1, fun t =>
      let r := t.loc l.cid
      t.putLoc (writeSreg { r with ctx := testNow r.ctx } sreg w))
  else .ok (writeSreg l1 sreg w, id)

/-- MTS as an issue of context `cur`. -/
def execMts (c : Cond) (s1 : Opd) (sreg : BitVec 16) (s : State) : Host.Outcome State Fault Refusal :=
  issueG (.mts c s1 sreg) (mtsBody c s1 sreg) s

end Sys2Proof.Machine
end

