-- ==== Sys2Proof/Machine/Fetch.lean ====
section
/-! DEFINITION. Fetching and decoding the instruction at a program counter (R102-R109, R124, R131, R134). -/
namespace Sys2Proof.Machine
open Sys2Proof

/-- The virtual address of the line that holds a slot index (R108). -/
def lineVA (pc : Word) : Nat := pc.toNat / 5 * 64

/-- The 96-bit word of slot i of a line (R102). -/
def slotWord (bs : List Byte) (i : Nat) : BitVec 96 := BitVec.ofNat 96 (leVal ((bs.drop (12 * i)).take 12))

/-- The line word (R103). -/
def lineWord (bs : List Byte) : Nat := leVal ((bs.drop 60).take 4)

/-- Whether a number of n bits has even parity. -/
def evenParity (x n : Nat) : Bool := popcR n x % 2 == 0

/-- Whether LPAR and the five SPAR bits of a line hold (R103, R104). -/
def lineSound (bs : List Byte) : Bool :=
  evenParity (lineWord bs % 2 ^ 15) 15 &&
  (upto 5).all (fun i => evenParity ((slotWord bs i).toNat * 2 + bits (lineWord bs) (9 + i) 1) 97)

/-- Registers as bits of a set: P0 to P7 in bits 0 to 7, A in bit 8, the flags N, Z, C, V, GO in bit 9. -/
abbrev RegSet := BitVec 10

/-- The register of an operand, or A. -/
def opdReg : Opd → RegSet
  | .acc => BitVec.twoPow 10 8
  | .mem p _ | .post p _ | .pre p _ | .preg p => BitVec.twoPow 10 p.val
  | _ => 0

/-- A pair of registers named by its base. -/
def pairRegs (p : Nat) : RegSet := BitVec.twoPow 10 (p % 8) ||| BitVec.twoPow 10 ((p + 1) % 8)

/-- What an instruction of class I, V or M reads (R124 condition 2). -/
def readsOf (i : Instr) : RegSet :=
  let sh := shape i
  let src := ((sh.s1.toList ++ sh.s2.toList ++ sh.x.toList).map (fun of_ => opdReg of_.1)).foldl (· ||| ·) 0
  let d := match sh.d with
    | some (o, _) => if sh.dRead || Opd.isMem o then opdReg o else 0
    | none => 0
  let fl := if condOf i ≠ .al then BitVec.twoPow 10 9 else 0
  let more : RegSet := match i with
    | .adc .. | .sbc .. => BitVec.twoPow 10 9
    | .sel _ _ _ _ _ k => if k = .al then 0 else BitVec.twoPow 10 9
    | .rst _ _ _ _ p _ => pairRegs p.val
    | .copy _ _ pa pb .. | .copyt _ _ pa pb .. | .tpoly _ pa pb .. => pairRegs pa.toNat ||| pairRegs pb.toNat
    | .tcfg _ pa | .tldb _ pa .. | .tmul _ pa .. => pairRegs pa.toNat
    | _ => 0
  src ||| d ||| fl ||| more

/-- Whether an instruction of class I, V or M writes any of N, Z, C, V and GO. -/
def writesFlags : Instr → Bool
  | .add .. | .sub .. | .adc .. | .sbc .. | .mul .. | .mulh .. | .div .. | .rem .. | .and .. | .or .. | .xor .. | .andn ..
  | .shl .. | .shr .. | .sar .. | .rol .. | .clz .. | .ctz .. | .popc .. | .cmp .. | .tst .. | .min .. | .max .. | .ext ..
  | .ins .. | .vcmp .. | .vfcmp .. | .gchk .. | .acas .. | .waita .. | .chkerr .. => true
  | .pmul _ _ _ fen .. => fen
  | _ => false

/-- What an instruction of class I, V or M writes (R124 condition 2). -/
def writesOf (i : Instr) : RegSet :=
  let sh := shape i
  let d := match sh.d with
    | some (o, .reg) => (match i with | .bmov .. => opdReg o | _ => 0)
    | some (o, _) => if Opd.isMem o then 0 else opdReg o
    | none => 0
  let up := (sh.opds.filterMap (fun of_ => Opd.updates of_.1)).foldl (fun s p => s ||| BitVec.twoPow 10 p.val) (0 : RegSet)
  let more : RegSet := match i with
    | .bmov _ _ _ s1 s2 => opdReg s1 ||| opdReg s2
    | _ => 0
  d ||| up ||| more ||| (if writesFlags i then BitVec.twoPow 10 9 else 0)

/-- Whether the pair of slots i and i + 1, whose PAIR bit is set, issues together (R124). -/
def pairLegal (c : Ctx) (prevPair : Bool) (i j : Instr) : Bool :=
  classOf i != classOf j && classOf i != .c && classOf j != .c &&
  readsOf j &&& writesOf i == 0 &&
  !(((shape i).opds.any (fun o => Opd.pops o.1)) && ((shape j).opds.any (fun o => Opd.pops o.1))) &&
  !prevPair &&
  !((upto (stLPD c.stat)).any (fun k => c.lend k == c.pc)) &&
  stDS c.stat != 1

/-- What the fetch of a context's next instruction gives. -/
inductive Fetched where
  | run (l : Loc) (i : Instr)
  | done (l : Loc)
  | idle
  deriving DecidableEq, Repr

/-- The line of a slot index in the I-cache of a context's core. One whose page does not let the context's privilege fetch it is not found, so
that its fetch is translated, and faults (R106). -/
def Loc.ilineAt (l : Loc) (pc : Word) : Option ILine :=
  l.core.icache.find? (fun e => e.pasid == l.ctx.pasid.toNat && e.vline == lineVA pc / 64 && (if l.priv = 0 then e.user else e.sup))

/-- Whether a count of mismatches is that of the line of a slot index. -/
def Loc.isBad (l : Loc) (pc : Word) (b : BadLine) : Bool := b.pasid == l.ctx.pasid.toNat && b.vline == lineVA pc / 64

/-- How many fetches of the line of a slot index have mismatched in a row (R104). -/
def Loc.badAt (l : Loc) (pc : Word) : Nat := ((l.core.ibad.find? (l.isBad pc)).map (·.n)).getD 0

/-- The line of a slot index has mismatched n times in a row; with 0, its last read was sound. -/
def Loc.setBad (l : Loc) (pc : Word) (n : Nat) : Loc :=
  let rest := l.core.ibad.filter (fun b => !l.isBad pc b)
  { l with core := { l.core with ibad := if n = 0 then rest else { pasid := l.ctx.pasid.toNat, vline := lineVA pc / 64, n := n } :: rest } }

/-- The line of a context's program counter in its core's I-cache. -/
def Loc.iline (l : Loc) : Option ILine := l.ilineAt l.ctx.pc

/-- The line of the program counter leaves the I-cache. -/
def dropLine (l : Loc) : Loc :=
  { l with core := { l.core with icache := l.core.icache.filter (fun e => !(e.pasid == l.ctx.pasid.toNat && e.vline == lineVA l.ctx.pc / 64)) } }

/-- A fault at fetch carries access code 2 (R376). -/
def fetchFault (code : BitVec 8) (va : Nat) : FaultInfo := { faultOf code with addr := BitVec.ofNat 64 va, acc := 2 }

/-- The instruction at slot index `pc` of a line with the faults of its line and of its word (R134 orders 2 to 5). -/
def decodeAt (l : Loc) (e : ILine) : Fetched :=
  let c := l.ctx
  let k := c.pc.toNat % 5
  let lw := lineWord e.bytes
  if c.tgtCheck && !bit lw k then .done (raise l (faultOf 0x03))
  else if lw / 2 ^ 15 ≠ 0 then .done (raise l (faultOf 0x02))
  else
    match decode (slotWord e.bytes k) with
    | .error .unassigned => .done (raise l (faultOf 0x01))
    | .error (.reserved i) =>
        .done (raise l (faultOf (if stPFXV c.stat && !prefixValuesOk i (stPFXW c.stat) then 0x01 else 0x02)))
    | .ok i =>
        let asked := decide (k < 4) && bit lw (5 + k)
        let bad := asked &&
          (match decode (slotWord e.bytes (k + 1)) with
           | .ok j => !pairLegal c (decide (0 < k) && bit lw (4 + k)) i j
           | .error _ => false)
        .run { l with ctx := { c with tgtCheck := false, pairBad := bad } } i

/-- Fetch the next instruction of a context that can issue. A due loop end test comes first. A line that the I-cache does not hold is
translated and then awaited (LINE_FETCH); one that mismatched three times in a row, or is poisoned, is fault 0x32 (R104). A read that finds the
line sound ends the count of its mismatches. -/
def fetchNext (l : Loc) : Fetched :=
  let c := l.ctx
  if !c.runnable then .idle
  else if c.endTest then .run l (.loopEndTest l.cid)
  else if c.pc.toNat ≥ slotLimit then .done (raise l (faultOf 0x13))
  else
    match l.iline with
    | some e =>
        if e.pois then .done (raise (dropLine l) (fetchFault 0x32 (lineVA c.pc))) else decodeAt (l.setBad c.pc 0) e
    | none =>
        if 3 ≤ l.badAt c.pc then .done (raise (l.setBad c.pc 0) (fetchFault 0x32 (lineVA c.pc)))
        else
        match xlate l (lineVA c.pc) .fetch with
        | .ok _ => .idle
        | .error (.fault l1 f) => .done (raise l1 f)
        | .error (.park l1 p) => .done (l1.parkAs p)

/-- The state in which context `cur` holds one instruction word at its program counter and issues. -/
def placeWord (s : State) (w : BitVec 96) : State :=
  let l := s.loc s.cur
  let k := l.ctx.pc.toNat % 5
  let bs : List Byte := (List.replicate (12 * k) 0 ++ leBytes 12 w.toNat ++ List.replicate 64 0).take 60 ++ List.replicate 4 0
  let e : ILine := { pasid := l.ctx.pasid.toNat, vline := lineVA l.ctx.pc / 64, bytes := bs, pois := false, user := true, sup := true }
  { s with agenda := [] }.putLoc { l with
    ctx := { l.ctx with status := .issuing, dleft := 4095, tgtCheck := false, endTest := false }
    core := { l.core with icache := e :: l.core.icache.filter (fun o => !(o.pasid == e.pasid && o.vline == e.vline)) } }

end Sys2Proof.Machine
end

