-- ==== Sys2Proof/Config.lean ====
section
/-! DEFINITION. The free values of the model: what the spec leaves open and the machine goes on with. Each is an opaque constant
with no body, so nothing in Lean can evaluate it or prove a value of it; each is named in a log entry. -/
namespace Sys2Proof.Config

/-- Bytes the spec leaves open: overlapping copies (R268, R443), a PCIe window read (R21). Applied to State's
counter `tick` and an index. Log entries 3, 4. -/
opaque freeByte : Nat → Nat → Byte

/-- A replacement victim (R346, R347, R355, R363, R380), taken modulo the number of candidates, and whether the host grants E to a RdShared (R365). Applied to State's counter `tick`. Log entry 6. -/
opaque freeChoice : Nat → Nat

/-- The set of a slice that a line belongs to (R347), taken modulo the number of sets: the spec gives the number of ways and not the index. Applied
to the line. Log entry 6. -/
opaque lineSet : Nat → Nat

/-- The ways of a set that the host-presence directory and the signature table of a slice take (R347), modulo 16. Applied to the set. Log entry 6. -/
opaque tableWays : Nat → Nat

/-- The static draw and the real-time reservations of a domain in mW, which PROJ includes (R322) and whose amounts the spec
does not state. Applied to the domain and to State's counter `tick`. Log entry 10. -/
opaque freeDraw : Nat → Nat → Nat

/-- The index of the connection whose descriptor stands at an address (R454), which service firmware assigns. Log entry 15. -/
opaque freeIndex : Nat → BitVec 32

/-- The device seed that the PUF gives (R459): from a reading of the SRAM and the helper data of boot flash. Log entry 112. -/
opaque pufSeed : List Byte → List Byte → BitVec 256

/-- The randomizer of a signature (R460): of the level and the number of its one-time key. Log entry 112. -/
opaque lmsRandom : Nat → Nat → BitVec 256

/-- IDCODE of the test access port (R463), whose value the spec does not give. Log entry 108. -/
opaque idcode : BitVec 32

/-- What a boundary scan reads at the pins (R463). Applied to State's counter `tick`. Log entry 108. -/
opaque pinScan : Nat → BitVec 64

/-- HCHK, the check over a windbreak header (R410), and CHK, the symbol code over a granule and its metadata (R394): the spec gives neither
code. Applied to the bits that they cover. Log entry 89. -/
opaque headerCheck : Nat → Byte

/-- CHK of a granule (R394): see `headerCheck`. -/
opaque granuleCheck : Nat → BitVec 48

end Sys2Proof.Config
end

