-- ==== Sys2Proof/Machine/Memory.lean ====
section
/-! DEFINITION. Loads, stores, block moves, atomics, fences and remote stores (R242-R261). -/
namespace Sys2Proof.Machine
open Sys2Proof

/-- A pointer must lie in one of some spaces (R242). -/
def spaceIn (l : Loc) (ptr : Word) (ok : List Nat) (k : Acc) : Res Unit := if spaceOf ptr ∈ ok then .ok () else flt06 l ptr k

/-- Whether the stores of the context are performed at a scope (R244, R352): those to G at their homes, and at scope sys none of them waits in
the egress hold. -/
def storesReady (l : Loc) (sc : Scope) : Bool :=
  l.ctx.stq.isEmpty && (sc != .sys || l.hub.held.all (fun h => h.by_ != some l.cid))

/-- Whether every earlier access of the context is performed at a scope (R244): its stores, its asynchronous loads and its remote stores. -/
def relReady (l : Loc) (sc : Scope) : Bool := storesReady l sc && l.ctx.aldq.isEmpty && l.ctx.rstq.isEmpty

/-- Whether a scope is clus or wider. -/
def Scope.wide : Scope → Bool
  | .core => false
  | _ => true

/-- The release that an order code asks for. -/
def relOf (o : Ord) (sc : Scope) : Option Scope := match o with | .rel | .ar => some sc | _ => none

/-- The acquire that an order code asks for. -/
def acqOf (o : Ord) (sc : Scope) : Option Scope := match o with | .acq | .ar => some sc | _ => none

/-- The release of an access with its own release and that of an earlier FENCE (R259): the signature goes with it when either scope asks for it. -/
def relWith (own next : Option Scope) : Option Scope :=
  match own, next with
  | some a, some b => some (if Scope.wide a then a else b)
  | some a, none => some a
  | none, b => b

/-- LD into a register (R247): the context parks until the data arrive. -/
def ldSync (l : Loc) (i : Instr) (v : View) (u : Bool) (s1 : Opd) (home : Bool) (acq : Option Scope) (spaces : List Nat)
    (marked : Bool) : Res Loc := do
  let sh := shape i
  let n := View.sc v
  let ptr := l.ea s1 n
  spaceIn l ptr spaces .read
  checkPtr l ptr n n .read
  (if marked ∧ l.ctx.landed.isEmpty then notHub l ptr .read else .ok ())
  let d ← readPtr l ptr n n home acq
  let g ← fetchArgs l v 0 sh
  let src : Src := l.based s1 { val := d.val, pois := d.pois, ptr := ptr }
  let l1 := l.take sh { g with a := src }
  let l2 := match acq with
    | some sc => if spaceOf ptr ≠ 0 ∧ Scope.wide sc then l1.acquire (BitVec.allOnes 256) else l1
    | none => l1
  .ok (l2.writeScalar g.dst (8 * n) u d.val src.pois)

/-- LD into a buffer (R247): it retires after translation, and the data land later. -/
def ldAsync (l : Loc) (i : Instr) (v : View) (d s1 : Opd) : Res Loc := do
  let sh := shape i
  let n := View.sc v
  let ptr := l.ea s1 n
  spaceIn l ptr [0] .read
  checkPtr l ptr n (natAlign n) .read
  let t ← xlate l (addrOf ptr) .read
  hubSize l ptr (t.keyOf (addrOf ptr)) n .read
  let dp := l.ea d n
  spaceIn l dp [1, 2, 3, 4] .write
  checkPtr l dp n (natAlign n) .write
  cntRoom l 0
  let g : Args := { a := l.based s1 (clean 0), b := clean 0, x := clean 0, d := l.based d (clean 0), dst := .none_ }
  let l1 := l.take sh g
  let a : ALoad := { pa := t.keyOf (addrOf ptr), va := ptr, n := n, space := spaceOf dp, off := addrOf dp, trk := t.trk, nc := t.nc, pois := g.pois
                     seq := l1.core.seq }
  .ok { l1 with ctx := { l1.ctx with aldq := l1.ctx.aldq ++ [a] }.cntInc 0, core := { l1.core with seq := l1.core.seq + 1 } }

/-- ST and STL (R249-R251). A release, its own or that of an earlier FENCE (R259), to S waits until the earlier accesses are performed. -/
def storeR (l : Loc) (i : Instr) (v : View) (irv : Bool) (o : Ord) (sc : Scope) (d s1 : Opd) (spaces : List Nat)
    (marked : Bool) : Res Loc := do
  let sh := shape i
  let n := View.sc v
  let a ← fetch l v (stRM l.ctx.stat) s1 (match sh.s1 with | some (_, f) => f | none => .reg)
  let ptr := l.ea d n
  spaceIn l ptr spaces .write
  checkPtr l ptr n n .write
  (if marked then notHub l ptr .write else .ok ())
  let r ← readyPtr l ptr n n
  let rel := relWith (relOf o sc) l.ctx.relNext
  (match r, rel with
   | .buf .., some s => if relReady l s then .ok () else parkOn l .stall
   | _, _ => .ok ())
  let g : Args := { a := a, b := clean 0, x := clean 0, d := l.based d (clean 0), dst := .mem r }
  let l1 := l.take sh g
  let l2 := { l1 with ctx := { l1.ctx with relNext := none } }
  .ok (l2.writeReady r (leBytes n a.val.toNat) g.pois { irv := irv, rel := rel })

/-- The poisoned ones of some P registers are consumed (R149, R92). -/
def Loc.consumeRegs (l : Loc) (rs : List Reg) : Loc := rs.foldl (fun l r => if l.pPois r then l.consume regPtr else l) l

/-- One element of BMOV (R252): both places are checked, then the element is read and written. With the `first` element the registers are
consumed. BMOV is not among the reads that a D-cache serves (R346): it reads the home. -/
def bmovElem (l : Loc) (n : Nat) (pd ps pc : Reg) (first : Bool) : Res Loc := do
  checkPtr l (l.p ps) n n .read
  checkPtr l (l.p pd) n n .write
  let d ← readPtr l (l.p ps) n n true none
  let r ← readyPtr l (l.p pd) n n
  let l0 := if first then l.consumeRegs [pd, ps, pc] else l
  let l1 := if d.pois then l0.consume (l.poisPtr (l.p ps) n) else l0
  let l2 := l1.writeReady r (leBytes n d.val.toNat) (d.pois || l.pPois ps || l.pPois pd) plainStore
  let k : Word := BitVec.ofNat 64 n
  let l3 := l2.setP ps (ptrAdd (l.p ps) k) (l.pPois ps)
  let l4 := l3.setP pd (ptrAdd (l.p pd) k) (l.pPois pd)
  .ok (l4.setP pc (l.p pc - 1) (l.pPois pc))

/-- BMOV (R252), one element an issue: the registers hold the progress. The deadline is tested before each 64 bytes. -/
def bmovR (l : Loc) (n : Nat) (pd ps pc : Reg) : Res Loc := do
  if l.p pc = 0 then
    if l.ctx.bmov = 0 ∧ l.ctx.dleft = 0 then flt l 0x09
    else if l.ctx.bmov = 0 then .ok (l.consumeRegs [pd, ps, pc])
    else .ok { l with dl := some l.ctx.dleft }
  else
    let first := l.ctx.bmov % 64 = 0
    if first ∧ l.ctx.dleft = 0 then flt l 0x09
    else
      let l1 ← bmovElem l n pd ps pc (l.ctx.bmov == 0)
      .ok { l1 with next := .gone
                    ctx := { l1.ctx with status := .issuing, landed := [], bmov := l.ctx.bmov + n
                                         dleft := if first then l.ctx.dleft - 1 else l.ctx.dleft } }

/-- An atomic (R256): checks and translation, then the context parks until its home has performed it and the old value has landed;
then D and the flag are written. -/
def atomicR (l : Loc) (i : Instr) (v : View) (op : AtomOp) (nz : Bool) (o : Ord) (sc : Scope) (s1 : Opd) : Res Loc := do
  let sh := shape i
  let n := View.sc v
  let ptr := l.ea s1 n
  let g ← fetchArgs l v 0 sh
  let flag := spaceOf ptr = 0 ∨ spaceOf ptr = 4
  match l.ctx.landed.find? (fun d => d.va == ptr && d.atom) with
  | some d =>
      let src : Src := l.based s1 { val := d.val, pois := d.pois, ptr := l.poisPtr ptr n }
      let l0 := if flag then { l with ctx := { l.ctx with relNext := none } } else l
      let l1 := l0.take sh { g with a := src }
      let l2 := if op = .cas then l1.flags { noFlags with z := some d.flag } else l1
      .ok ((l2.cirSet 2).writeScalar g.dst (8 * n) (Dst.isPreg g.dst) d.val (src.pois || g.b.pois || g.d.pois))
  | none => do
      checkPtr l ptr n n .atomic
      notHub l ptr .atomic
      let kt ← (if spaceOf ptr = 0 then do let t ← xlate l (addrOf ptr) .atomic; .ok (t.keyOf (addrOf ptr), t.trk) else .ok (addrOf ptr, true))
      let rq : AtomReq := { va := ptr, pa := kt.1, op := op, bytes := n, operand := g.b.val.setWidth 64, expected := g.d.val.setWidth 64
                            ord := o, sc := sc, rel := relWith (relOf o sc) (if flag then l.ctx.relNext else none), nz := nz, ntgt := l.ctx.ntgt
                            pois := g.pois, trk := kt.2, stamp := stampOf l.hub l.core.late }
      parkOn l (.atomic rq)

/-- FENCE (R259). With acq at scope clus or wider it acts as an acquire of all ones (R356). -/
def fenceR (l : Loc) (o : Ord) (sc : Scope) : Res Loc :=
  let rel := o = .rel ∨ o = .ar
  if rel ∧ !(l.ctx.cntOf 1 == 0 && storesReady l sc) then parkOn l .fence
  else
    let l1 := if rel then { l with ctx := { l.ctx with relNext := some sc } } else l
    .ok (if (o = .acq ∨ o = .ar) ∧ Scope.wide sc then l1.acquire (BitVec.allOnes 256) else l1)

/-- RST (R260, R261). -/
def rstR (l : Loc) (i : Instr) (u : Bool) (op : RstOp) (wid : EWidth) (p : Reg) : Res Loc := do
  let sh := shape i
  let g0 ← fetchArgs l .d 0 sh
  let g := { g0 with d := { g0.d with pois := g0.d.pois || l.pPois (p + 1), ptr := regPtr } }
  let ptr := l.p p
  let tgt := fld (l.p (p + 1)) 0 11
  let w := EWidth.bits wid
  let e := addrOf ptr
  let sp := spaceOf ptr
  (if (1 ≤ sp ∧ sp ≤ 4) ∧ inService l.hub tgt ∧ e * w / 8 < bufSize sp then .ok () else flt06 l ptr .write)
  cntRoom l 1
  let m : RstMsg := { core := tgt, space := sp, elem := e, w := w, u := u, op := op, val := g.a.val.setWidth 8, pois := g.pois, trig := false, seq := l.core.seq }
  let l1 := l.take sh g
  let own := decide (tgt = coreOfCid l.cid) && sp != 4
  let c1 := { l1.ctx with rstq := l1.ctx.rstq ++ [m], cir := if own then l1.ctx.cir else setBit l1.ctx.cir 2 true }
  .ok { l1 with ctx := c1.cntInc 1, core := { l1.core with seq := l1.core.seq + 1 } }

/-- The register of a KIND 4 operand. -/
def regOfOpd : Opd → Reg
  | .preg p => p
  | _ => 0

/-- LD (R247). -/
def bodyLd (v : View) (c : Cond) (u : Bool) (d : Opd) (s1 : Opd) : Loc → Res Loc :=
  fun l => if Opd.isMem d then ldAsync l (.ld v c u d s1) v d s1 else ldSync l (.ld v c u d s1) v u s1 false none [0] false

/-- LD as an issue of context `cur`. -/
def execLd (v : View) (c : Cond) (u : Bool) (d : Opd) (s1 : Opd) (s : State) : Host.Outcome State Fault Refusal :=
  issue (.ld v c u d s1) (bodyLd v c u d s1) s

/-- ST (R249, R250). -/
def bodySt (v : View) (c : Cond) (irv : Bool) (o : Ord) (sc : Scope) (d : Opd) (s1 : Opd) : Loc → Res Loc :=
  fun l => storeR l (.st v c irv o sc d s1) v irv o sc d s1 [0] false

/-- ST as an issue of context `cur`. -/
def execSt (v : View) (c : Cond) (irv : Bool) (o : Ord) (sc : Scope) (d : Opd) (s1 : Opd) (s : State) : Host.Outcome State Fault Refusal :=
  issue (.st v c irv o sc d s1) (bodySt v c irv o sc d s1) s

/-- LDA (R248): at scope core it may be served from the D-cache, at a wider scope it reads the home. -/
def bodyLda (v : View) (c : Cond) (u : Bool) (o : Ord) (sc : Scope) (d : Opd) (s1 : Opd) : Loc → Res Loc :=
  fun l => ldSync l (.lda v c u o sc d s1) v u s1 (Scope.wide sc) (acqOf o sc) [0, 4] true

/-- LDA as an issue of context `cur`. -/
def execLda (v : View) (c : Cond) (u : Bool) (o : Ord) (sc : Scope) (d : Opd) (s1 : Opd) (s : State) : Host.Outcome State Fault Refusal :=
  issue (.lda v c u o sc d s1) (bodyLda v c u o sc d s1) s

/-- STL (R251). -/
def bodyStl (v : View) (c : Cond) (o : Ord) (sc : Scope) (d : Opd) (s1 : Opd) : Loc → Res Loc :=
  fun l => storeR l (.stl v c o sc d s1) v false o sc d s1 [0, 4] true

/-- STL as an issue of context `cur`. -/
def execStl (v : View) (c : Cond) (o : Ord) (sc : Scope) (d : Opd) (s1 : Opd) (s : State) : Host.Outcome State Fault Refusal :=
  issue (.stl v c o sc d s1) (bodyStl v c o sc d s1) s

/-- BMOV (R252). -/
def bodyBmov (v : View) (c : Cond) (d : Opd) (s1 : Opd) (s2 : Opd) : Loc → Res Loc :=
  fun l => bmovR l (View.sc v) (regOfOpd d) (regOfOpd s1) (regOfOpd s2)

/-- BMOV as an issue of context `cur`. -/
def execBmov (v : View) (c : Cond) (d : Opd) (s1 : Opd) (s2 : Opd) (s : State) : Host.Outcome State Fault Refusal :=
  issue (.bmov v c d s1 s2) (bodyBmov v c d s1 s2) s

/-- AADD (R256). -/
def bodyAadd (v : View) (c : Cond) (nz : Bool) (o : Ord) (sc : Scope) (d : Opd) (s1 : Opd) (s2 : Opd) : Loc → Res Loc :=
  fun l => atomicR l (.aadd v c nz o sc d s1 s2) v .add nz o sc s1

/-- AADD as an issue of context `cur`. -/
def execAadd (v : View) (c : Cond) (nz : Bool) (o : Ord) (sc : Scope) (d : Opd) (s1 : Opd) (s2 : Opd) (s : State) : Host.Outcome State Fault Refusal :=
  issue (.aadd v c nz o sc d s1 s2) (bodyAadd v c nz o sc d s1 s2) s

/-- AAND (R256). -/
def bodyAand (v : View) (c : Cond) (o : Ord) (sc : Scope) (d : Opd) (s1 : Opd) (s2 : Opd) : Loc → Res Loc :=
  fun l => atomicR l (.aand v c o sc d s1 s2) v .and false o sc s1

/-- AAND as an issue of context `cur`. -/
def execAand (v : View) (c : Cond) (o : Ord) (sc : Scope) (d : Opd) (s1 : Opd) (s2 : Opd) (s : State) : Host.Outcome State Fault Refusal :=
  issue (.aand v c o sc d s1 s2) (bodyAand v c o sc d s1 s2) s

/-- AOR (R256). -/
def bodyAor (v : View) (c : Cond) (o : Ord) (sc : Scope) (d : Opd) (s1 : Opd) (s2 : Opd) : Loc → Res Loc :=
  fun l => atomicR l (.aor v c o sc d s1 s2) v .or false o sc s1

/-- AOR as an issue of context `cur`. -/
def execAor (v : View) (c : Cond) (o : Ord) (sc : Scope) (d : Opd) (s1 : Opd) (s2 : Opd) (s : State) : Host.Outcome State Fault Refusal :=
  issue (.aor v c o sc d s1 s2) (bodyAor v c o sc d s1 s2) s

/-- AXOR (R256). -/
def bodyAxor (v : View) (c : Cond) (o : Ord) (sc : Scope) (d : Opd) (s1 : Opd) (s2 : Opd) : Loc → Res Loc :=
  fun l => atomicR l (.axor v c o sc d s1 s2) v .xor false o sc s1

/-- AXOR as an issue of context `cur`. -/
def execAxor (v : View) (c : Cond) (o : Ord) (sc : Scope) (d : Opd) (s1 : Opd) (s2 : Opd) (s : State) : Host.Outcome State Fault Refusal :=
  issue (.axor v c o sc d s1 s2) (bodyAxor v c o sc d s1 s2) s

/-- AMIN (R256). -/
def bodyAmin (v : View) (c : Cond) (u : Bool) (o : Ord) (sc : Scope) (d : Opd) (s1 : Opd) (s2 : Opd) : Loc → Res Loc :=
  fun l => atomicR l (.amin v c u o sc d s1 s2) v (if u then .umin else .min) false o sc s1

/-- AMIN as an issue of context `cur`. -/
def execAmin (v : View) (c : Cond) (u : Bool) (o : Ord) (sc : Scope) (d : Opd) (s1 : Opd) (s2 : Opd) (s : State) : Host.Outcome State Fault Refusal :=
  issue (.amin v c u o sc d s1 s2) (bodyAmin v c u o sc d s1 s2) s

/-- AMAX (R256). -/
def bodyAmax (v : View) (c : Cond) (u : Bool) (o : Ord) (sc : Scope) (d : Opd) (s1 : Opd) (s2 : Opd) : Loc → Res Loc :=
  fun l => atomicR l (.amax v c u o sc d s1 s2) v (if u then .umax else .max) false o sc s1

/-- AMAX as an issue of context `cur`. -/
def execAmax (v : View) (c : Cond) (u : Bool) (o : Ord) (sc : Scope) (d : Opd) (s1 : Opd) (s2 : Opd) (s : State) : Host.Outcome State Fault Refusal :=
  issue (.amax v c u o sc d s1 s2) (bodyAmax v c u o sc d s1 s2) s

/-- ASWP (R256). -/
def bodyAswp (v : View) (c : Cond) (o : Ord) (sc : Scope) (d : Opd) (s1 : Opd) (s2 : Opd) : Loc → Res Loc :=
  fun l => atomicR l (.aswp v c o sc d s1 s2) v .swp false o sc s1

/-- ASWP as an issue of context `cur`. -/
def execAswp (v : View) (c : Cond) (o : Ord) (sc : Scope) (d : Opd) (s1 : Opd) (s2 : Opd) (s : State) : Host.Outcome State Fault Refusal :=
  issue (.aswp v c o sc d s1 s2) (bodyAswp v c o sc d s1 s2) s

/-- ACAS (R256). -/
def bodyAcas (v : View) (c : Cond) (o : Ord) (sc : Scope) (d : Opd) (s1 : Opd) (s2 : Opd) : Loc → Res Loc :=
  fun l => atomicR l (.acas v c o sc d s1 s2) v .cas false o sc s1

/-- ACAS as an issue of context `cur`. -/
def execAcas (v : View) (c : Cond) (o : Ord) (sc : Scope) (d : Opd) (s1 : Opd) (s2 : Opd) (s : State) : Host.Outcome State Fault Refusal :=
  issue (.acas v c o sc d s1 s2) (bodyAcas v c o sc d s1 s2) s

/-- FENCE (R259). -/
def bodyFence (c : Cond) (o : Ord) (sc : Scope) : Loc → Res Loc :=
  fun l => fenceR l o sc

/-- FENCE as an issue of context `cur`. -/
def execFence (c : Cond) (o : Ord) (sc : Scope) (s : State) : Host.Outcome State Fault Refusal :=
  issue (.fence c o sc) (bodyFence c o sc) s

/-- RST (R260). -/
def bodyRst (c : Cond) (u : Bool) (op : RstOp) (wid : EWidth) (p : Reg) (s1 : Opd) : Loc → Res Loc :=
  fun l => rstR l (.rst c u op wid p s1) u op wid p

/-- RST as an issue of context `cur`. -/
def execRst (c : Cond) (u : Bool) (op : RstOp) (wid : EWidth) (p : Reg) (s1 : Opd) (s : State) : Host.Outcome State Fault Refusal :=
  issue (.rst c u op wid p s1) (bodyRst c u op wid p s1) s

end Sys2Proof.Machine
end

