-- ==== Sys2Proof/Machine/HubRegs.lean ====
section
/-! DEFINITION. The hub registers (R21, R28, R307, R321, R369, R392, R426, R427, R431, R432, R451, R456, R464): reads, writes and what a write starts. -/
namespace Sys2Proof.Machine
open Sys2Proof

/-! ## Helpers -/

/-- The sector number that Sector stores are kept under: DOM * 8 + SEC. -/
def sectKey (dom sec : Nat) : Nat := dom * 8 + sec

/-- Whether a slice has left (R348). -/
def sliceOff (s : State) (k : Nat) : Bool := (mget emptySector s.sects k).off

/-- The sector whose slice serves a sector's lines: its own, or its buddy (R348). -/
def servedBy (s : State) (k : Nat) : Nat :=
  if sliceOff s k then
    match [1, 2, 3, 4].find? (fun j => !sliceOff s (sectKey (k / 8) ((k % 8 + j) % 5))) with
    | some j => sectKey (k / 8) ((k % 8 + j) % 5)
    | none => k
  else k

/-! ## Bytes as agents read them -/

/-- The byte that a held item holds for an address (R352). -/
def itemByte (a : Nat) : HeldItem → Option Byte
  | .store _ m .. => (m.find? (fun e => e.1 == a)).map (·.2)
  | .completion _ m _ => (m.find? (fun e => e.1 == a)).map (·.2)
  | _ => none

/-- The youngest held byte of an address (R352, R414). -/
def heldByte (hs : List Held) (a : Nat) : Option Byte :=
  hs.foldl (fun r h => match itemByte a h.item with | some b => some b | none => r) none

/-- A byte without the held stores: as the host would read it. A line that the host holds modified is the host's. -/
def openByte (s : State) (a : Nat) : Byte :=
  match s.hostCache.find? (fun e => e.1 == a / 64) with
  | some (_, bs) => bs.getD (a % 64) 0
  | none => ramByte s.mem a

/-- A byte as device agents read it. -/
def homeByte (s : State) (a : Nat) : Byte :=
  match heldByte s.hub.held a with
  | some b => b
  | none => openByte s a

/-- n bytes as device agents read them. -/
def homeBytes (s : State) (a n : Nat) : List Byte := (upto n).map (fun i => homeByte s (a + i))

/-- The DAT of a domain at cold start (R412). -/
def datReset (d : Nat) : Dat := { base := d * 2 ^ 36 + 0xFBFF80000, cells := [] }

/-- The DAT that the controllers of a domain hold. -/
def datOf (h : Hub) (d : Nat) : Dat := mget (datReset d) h.dat d

/-- Entries of unsealed drifts in the fullest region of a domain (R411, R426). -/
def wbUsed (h : Hub) (d : Nat) : Nat := (upto 4).foldl (fun m c => max m (mget [] h.wb (d * 4 + c)).length) 0

/-- Entries that a region holds (R409). -/
def regionSize : Nat := 3355443

/-- The energy class of a live launch (R308). -/
def eclsOf (h : Hub) (l : Nat) : Nat :=
  match h.tables.launches.find? (fun e => e.1 == l) with
  | some (_, la) => fld (la.hdr.getD 0 0) 40 3
  | none => 0

/-- EPWR[c].MW (R321). -/
def epwr (h : Hub) (c : Nat) : Nat := fld (reg h (0x2200 + 8 * c)) 0 16

/-- The projected power of a domain in 0.125 W units (R321, R322): its static draw and real-time reservations, which the spec gives no value
for, and its owned clusters. -/
def proj (s : State) (d : Nat) : Nat :=
  let act := s.clus.foldl (fun m e =>
    match e.2.owner with
    | some l => if e.1 / 32 = d then m + epwr s.hub (eclsOf s.hub l) else m
    | none => m) 0
  min 4095 ((Config.freeDraw d s.tick + act) / 125)

/-- PBUD[d].PROJ takes the projection: at each decision, each tick and each change of TLIM (R316, R321; log entry 97). -/
def putProj (s : State) (d : Nat) : State :=
  { s with hub := setReg s.hub (0x2100 + 8 * d) (setFld (reg s.hub (0x2100 + 8 * d)) 36 12 (proj s d)) }

/-- The code of PWRST.STATE (R456). A wake is one step, so 3 is never read. -/
def powerCode : Power → Nat
  | .off | .run | .bootStopped => 0
  | .cap => 1
  | .toHold | .hold => 2

/-! ## Reading -/

/-- The doubleword of the register at an 8-aligned offset, with the fields that the hardware computes. -/
def regWord (s : State) (off : Nat) : Word :=
  let h := s.hub
  let v := reg h off
  if 0x1000 ≤ off ∧ off < 0x1280 then v ||| (reg h (off + 4) <<< 32)
  else if off = 0x2018 then setFld v 0 13 h.tables.slots.length
  else if 0x3000 ≤ off ∧ off < 0x3140 then
    let i := (off - 0x3000) / 8
    let k := sectKey (i / 5) (i % 5)
    BitVec.ofNat 64 ((if sliceOff s k then 0 else 128) + servedBy s k % 8)
  else if off = 0x4008 then setFld v 0 7 h.cam.length
  else if off = 0x5000 then h.seals.sealed ++ h.seals.newest
  else if 0x5100 ≤ off ∧ off < 0x5200 ∧ off % 32 = 8 then
    let u := wbUsed h ((off - 0x5100) / 32)
    setFld (setFld v 24 8 (u * 100 / regionSize)) 0 22 u
  else if off = 0x5020 then 0
  else if off = 0x7008 then setFld v 0 2 (powerCode h.power)
  else v

/-- A read of 4 or 8 bytes at an aligned offset (R431). -/
def regRead (s : State) (off n : Nat) : Nat :=
  let w := regWord s (off / 8 * 8)
  if n = 8 then w.toNat else fld w (8 * (off % 8)) 32

/-! ## Writing -/

/-- The writable bits of a register (the Access columns). WO bits, which act and are not kept, are not among them, but for ERRINJ's GRAN, which
holds between writes of its two halves (R427, R431). -/
def regMask (off : Nat) : Word :=
  if off = 0x2000 then 0x3FFF
  else if off = 0x2008 then 0xFFFFFFFF000
  else if off = 0x2010 then 0xFFFFFE01FFF
  else if off = 0x2018 then 0xFFFFFFFF00000000
  else if 0x2100 ≤ off ∧ off < 0x2140 then 0xFFF
  else if 0x2200 ≤ off ∧ off < 0x2240 then 0xFFFF
  else if 0x2400 ≤ off ∧ off < 0x2500 then 0x0FFFFFFFFFFFF3FF
  else if 0x3200 ≤ off ∧ off < 0x3480 then 0xFFFFFFFFFFFFFFFF
  else if off = 0x4000 then 0xFFFFFFFC000
  else if off = 0x4008 then 0xFFFFFFFF00000000
  else if 0x4800 ≤ off ∧ off < 0x5000 then (if off % 16 = 0 then 0xFFFFFFFFFFFFFFE3 else 0xFFFFFFFFFFFFFFFF)
  else if off = 0x5008 then 0x1FFFF
  else if off = 0x5018 then 0xFFFFFFFFFFFF03FF
  else if off = 0x5020 then 0xFFFFFFFFFC0
  else if 0x5100 ≤ off ∧ off < 0x5200 then
    (if off % 32 = 0 then 0xFFFC0000000 else if off % 32 = 8 then 0xFFFF00000000 else if off % 32 = 16 then 0xFFFFFF80000 else 0xFFFFFFFF)
  else if off = 0x6000 then 0xFFFFC00000F
  else if off = 0x6008 then 1
  else if off = 0x7000 then 0xFFFFFFFF08
  else if off = 0x7010 then 0xFFFFFFFFFFFFFFFF
  else 0

/-- Registers that the host may not write (R427, R432, R451, R456). -/
def hostClosed (off : Nat) : Bool := off == 0x5020 || off == 0x6000 || off == 0x6008 || off == 0x7000 || off == 0x7010

/-- The bits that a write of 4 or 8 bytes reaches in its doubleword (R431). -/
def halfMask (off n : Nat) : Word := if n = 8 then 0xFFFFFFFFFFFFFFFF else if off % 8 = 4 then 0xFFFFFFFF00000000 else 0xFFFFFFFF

/-- The value of a write placed in its doubleword. -/
def halfVal (off n : Nat) (v : Word) : Word := if n = 8 then v else if off % 8 = 4 then v <<< 32 else v &&& 0xFFFFFFFF

/-- The sum of CAP over the domains but one. -/
def capOthers (h : Hub) (d : Nat) : Nat :=
  (upto 8).foldl (fun m k => if k = d then m else m + fld (reg h (0x2100 + 8 * k)) 0 12) 0

/-- A CAP clamped so that the package cap lies between 120 W and 420 W (R322). -/
def clampCap (h : Hub) (d v : Nat) : Nat :=
  let o := capOthers h d
  if o + v > 3360 then 3360 - o else if o + v < 960 then 960 - o else v

/-- Run and Cap follow the sum of CAP (R455). -/
def capState (h : Hub) : Hub :=
  let total := (upto 8).foldl (fun m k => m + fld (reg h (0x2100 + 8 * k)) 0 12) 0
  match h.power with
  | .run | .cap => { h with power := if total < 3360 then .cap else .run }
  | _ => h

/-- A write of PBUD[d] (R322, R455). -/
def writePbud (h : Hub) (d : Nat) (v : Word) : Hub :=
  let off := 0x2100 + 8 * d
  capState (setReg h off (setFld (reg h off) 0 12 (clampCap h d (fld v 0 12))))

/-- A write of RTS[i] (R322): EN stays 0 with NCLU 0. -/
def writeRts (h : Hub) (i : Nat) (v : Word) : Hub :=
  let w := v &&& 0x0FFFFFFFFFFFF3FF
  setReg h (0x2400 + 8 * i) (if fld w 52 8 = 0 then setBit w 9 false else w)

/-- A write of SWPCFG (R307). -/
def writeSwpcfg (h : Hub) (v : Word) : Hub :=
  if h.tables.slots.isEmpty then
    let w := v &&& 0xFFFFFE01FFF
    setReg h 0x2010 (if fld w 0 13 > 4096 then setFld w 0 13 4096 else w)
  else h

/-- The base of the command window. -/
def cwBase (h : Hub) : Nat := fld (reg h 0x6000) 26 18 * 2 ^ 26

/-- The size of the command window. -/
def cwSize (h : Hub) : Nat := fld (reg h 0x6000) 0 4 * 2 ^ 26

/-- The descriptor of a queue. -/
def qDesc (h : Hub) (q : Nat) : Nat := cwBase h + 128 * q

/-- Whether any queue's descriptor reads EN 1 (R432, R433). -/
def anyEn (s : State) : Bool := (upto 512).any (fun q => bit (homeByte s (qDesc s.hub q + 73)).toNat 7)

/-- A write of CWCFG (R432). -/
def writeCwcfg (s : State) (v : Word) : State :=
  if anyEn s then s
  else
    let w := v &&& 0xFFFFC00000F
    { s with hub := setReg s.hub 0x6000 (if fld w 0 4 = 0 then setFld w 0 4 1 else w) }

/-- A write of SEALCFG (R408, R426). -/
def writeSealcfg (h : Hub) (v : Word) : Hub :=
  let per := fld v 0 17
  let h1 := setReg h 0x5008 (BitVec.ofNat 64 (if 20 ≤ per ∧ per ≤ 100000 then per else 250))
  if bit v.toNat 17 then wantSeal h1 else h1

/-- The controllers of a domain load the DAT as device agents read it (R352, R413): from memory, from lines that the host holds modified,
and from held items, the youngest last. -/
def datSync (s : State) (d : Nat) : State :=
  let base := fld (reg s.hub (0x5110 + 32 * d)) 19 25 * 2 ^ 19
  let mine := fun (c : Nat × Byte) => decide (base ≤ c.1) && decide (c.1 < base + 2 ^ 19)
  let host := s.hostCache.reverse.flatMap (fun e => (upto 64).map (fun i => (64 * e.1 + i, e.2.getD i 0)))
  let held := s.hub.held.flatMap (fun h => match h.item with | .store _ m .. | .completion _ m _ => m.reverse | _ => [])
  let t : Dat := { base := base, cells := ((host ++ held).filter mine).foldl (fun m c => mset (memDefault c.1) m c.1 c.2) (s.mem.filter mine) }
  { s with hub := { s.hub with dat := mset (datReset d) s.hub.dat d t } }

/-- A write of DATCFG[d] (R413, R426). -/
def writeDatcfg (s : State) (d : Nat) (v : Word) : State :=
  let s1 := { s with hub := setReg s.hub (0x5110 + 32 * d) (v &&& 0xFFFFFF80000) }
  if bit v.toNat 0 then datSync s1 d else s1

/-- A write of ERRINJ (R427): GRAN as both halves leave it, and whether GO is written as 1. -/
def writeErrinj (s0 : State) (v : Word) (go : Bool) : State :=
  let g := fld v 6 38
  let s := { s0 with hub := setReg s0.hub 0x5020 v }
  if go ∧ g < 2 ^ 33 then
    let m := mget cleanGran s.grans g
    let ln := mget absentLine s.lines g
    { s with grans := mset cleanGran s.grans g { m with pois := true }
             lines := mset absentLine s.lines g { ln with st := .i, pre := false, fly := false } }
  else s

/-- A write of PWRCTL (R455, R456). -/
def writePwrctl (h : Hub) (v : Word) : Hub :=
  let h1 := setReg h 0x7000 (v &&& 0xFFFFFFFF08)
  match fld v 0 2 with
  | 1 => (match h.power with | .run | .cap => { h1 with power := .toHold, wakePending := none, holdSeal := none } | _ => h1)
  | 2 => { h1 with offReq := true }
  | _ => h1

/-- A write to a register, merged with the bits that it does not reach; `wo` is what it writes, for the bits that act. -/
def regApply (s : State) (off : Nat) (v wo : Word) : State :=
  let h := s.hub
  if off = 0x2000 then
    { s with hub := setReg h off (if 10 ≤ fld v 0 14 ∧ fld v 0 14 ≤ 10000 then v else 200) }
  else if off = 0x2010 then { s with hub := writeSwpcfg h v }
  else if 0x2100 ≤ off ∧ off < 0x2140 then { s with hub := writePbud h ((off - 0x2100) / 8) v }
  else if 0x2400 ≤ off ∧ off < 0x2500 then { s with hub := writeRts h ((off - 0x2400) / 8) v }
  else if off = 0x5008 then { s with hub := writeSealcfg h (setBit v 17 (wo.getLsbD 17)) }
  else if off = 0x5020 then writeErrinj s v (wo.getLsbD 0)
  else if 0x5100 ≤ off ∧ off < 0x5200 ∧ off % 32 = 16 then writeDatcfg s ((off - 0x5100) / 32) (setBit v 0 (wo.getLsbD 0))
  else if off = 0x6000 then writeCwcfg s v
  else if off = 0x7000 then { s with hub := writePwrctl h (setFld v 0 2 (fld wo 0 2)) }
  else { s with hub := setReg h off v }

/-- A write of n bytes at an offset of the hub registers (R431, R466). A write that is not 4 or 8 bytes, naturally aligned, writes
nothing. -/
def regStore (s : State) (host : Bool) (off n : Nat) (val : Word) : State :=
  let b := off / 8 * 8
  if (n ≠ 4 ∧ n ≠ 8) ∨ off % n ≠ 0 ∨ (host ∧ hostClosed b) then s
  else
    let reach := halfMask off n
    let wo := halfVal off n val &&& reach
    let m := regMask b &&& reach
    if m = 0 then s
    else regApply s b ((reg s.hub b &&& ~~~m) ||| (wo &&& m)) wo

end Sys2Proof.Machine
end

