-- ==== Sys2Proof/Machine/Home.lean ====
section
/-! DEFINITION. The homes of memory: reads and writes at a home, host coherence, drift logging, the egress hold, release signatures
(R345-R370, R394, R403-R418). -/
namespace Sys2Proof.Machine
open Sys2Proof

/-! ## The address map (R21) -/

/-- LPDDR-6. -/
def isRam (k : Nat) : Bool := decide (k < 2 ^ 39)
/-- The two PCIe windows. -/
def isPcie (k : Nat) : Bool := decide (0xE0000000000 ≤ k) && decide (k < hubBase)
/-- Host memory, at 2^60 + HPA. -/
def isHostMem (k : Nat) : Bool := decide (hostBase ≤ k)
/-- A reserved range of device addresses (R22). -/
def isHole (k : Nat) : Bool := !isRam k && !isPcie k && !isHub k && !isHostMem k

/-- Whether the page of an address is tracked (R412): host memory, windows and registers never are. -/
def tracked (h : Hub) (pa : Nat) : Bool :=
  isRam pa &&
  (let t := datOf h (pa / 2 ^ 36)
   let i := pa % 2 ^ 36 / 2 ^ 14
   let a := t.base + i / 8
   bit (mget (memDefault a) t.cells a).toNat (i % 8))

/-- An access whose tracking claim differs from the DAT is counted (R413). -/
def countClaim (h : Hub) (pa : Nat) (trk : Bool) : Hub :=
  if isRam pa ∧ tracked h pa ≠ trk then bump h (0x5118 + 32 * (pa / 2 ^ 36)) 0 32 else h

/-- The sector whose slice homes a line of device memory (R24), or is assigned a line of host memory (R347). -/
def homeSect (pa : Nat) : Nat :=
  if isHostMem pa then let H := (pa - hostBase) / 64; sectKey (H % 8) (H / 8 % 5)
  else sectKey (pa / 2 ^ 36) (pa % 2 ^ 36 / 64 % 5)

/-- The channel of an address, numbered over the device (R24). -/
def channelOf (pa : Nat) : Nat :=
  let L := pa % 2 ^ 36 / 64
  pa / 2 ^ 36 * 4 + (bits L 0 2 ^^^ bits L 8 2 ^^^ bits L 16 2 ^^^ bits L 24 2)

/-- The index of a slice in the registers of R369. -/
def sliceIndex (k : Nat) : Nat := k / 8 * 5 + k % 8

/-! ## Bytes at a home -/

/-- A line's state. -/
def lineInfo (s : State) (line : Nat) : LineInfo := mget absentLine s.lines line

/-- A line's state set. -/
def setLine (s : State) (line : Nat) (i : LineInfo) : State := { s with lines := mset absentLine s.lines line i }

/-- The data that a host cache holds modified come back to the device (R364). -/
def takeHostData (s : State) (line : Nat) : State :=
  match s.hostCache.find? (fun e => e.1 == line) with
  | some (_, bs) => { s with mem := ramPut s.mem (64 * line) (bs.take 64), hostCache := mdel s.hostCache line }
  | none => s

/-- Something leaves the package. -/
def emit (s : State) (e : OutEvent) : State := { s with hub := { s.hub with out := e :: s.hub.out } }

/-- A demand access, by a read or a write, reaches a line that PREF brought in or is bringing in (R369, R370). -/
def demand (s : State) (line : Nat) (read : Bool) : State :=
  let i := lineInfo s line
  if i.pre || i.fly then
    let k := sliceIndex (servedBy s (homeSect (64 * line)))
    let h := bump s.hub (0x3200 + 16 * k) 0 32
    { setLine s line { i with pre := false, fly := false } with hub := if i.fly && read then bump h (0x3208 + 16 * k) 0 32 else h }
  else s

/-- A slice evicts a line (R364-R366): its data reach the memory behind it, and what the host holds stays. A host-memory line in M leaves by
DirtyEvict, a clean one silently, which R365 lets the slice choose. A prefetched line that nothing demanded is counted (R370). -/
def evictLine (s : State) (line : Nat) : State :=
  let i := lineInfo s line
  if i.st = .i then s
  else
    let k := servedBy s (homeSect (64 * line))
    let s1 := if i.pre then { s with hub := bump s.hub (0x3200 + 16 * sliceIndex k) 32 32 } else s
    let s2 := if isHostMem (64 * line) && i.st == .m then emit s1 (.dirtyEvict line ((upto 64).map (fun j => openByte s (64 * line + j)))) else s1
    setLine s2 line { i with st := .i, pre := false }

/-- The sets of a slice: 512 KiB of 64-byte lines in 16 ways (R347). -/
def sliceSets : Nat := 512

/-- The lines that a slice holds. -/
def linesIn (s : State) (k : Nat) : List Nat := (s.lines.filter (fun e => e.2.st != .i && servedBy s (homeSect (64 * e.1)) == k)).map (·.1)

/-- The set of a slice that a line belongs to. -/
def setOfLine (line : Nat) : Nat := Config.lineSet line % sliceSets

/-- Room for one more line in its set of a slice: a full set, whose directory and signature table leave at least one way to lines, evicts a line
that the spec does not name (R347; log entry 6). -/
def makeRoom (s : State) (line : Nat) : State :=
  match linesIn s (servedBy s (homeSect (64 * line))) with
  | [] => s
  | held =>
      let ls := held.filter (fun x => setOfLine x == setOfLine line)
      if (lineInfo s line).st = .i ∧ 16 ≤ ls.length + Config.tableWays (setOfLine line) % 16 then
        { evictLine s (ls.getD (Config.freeChoice s.tick % ls.length) 0) with tick := s.tick + 1 }
      else s

/-- A slice evicts an entry of its host-presence directory: the host copy is back-invalidated first (R363). -/
def unlistLine (s : State) (line : Nat) : State :=
  let i := lineInfo s line
  if !i.hp then s
  else
    setLine (takeHostData (emit s (.bisnpInv line)) line) line
      { i with st := (match i.st with | .o => .m | .s => .e | x => x), hp := false }

/-- A device read of a line at its home (R364, R365). What the host grants to a RdShared is not the device's choice (log entry 6). -/
def readLine (s0 : State) (line : Nat) : State :=
  let i := lineInfo s0 line
  match i.st with
  | .i =>
      let s := makeRoom s0 line
      if isHostMem (64 * line) then
        { setLine (emit s (.rdShared line)) line { i with st := if Config.freeChoice s.tick % 2 = 0 then .s else .e } with tick := s.tick + 1 }
      else if i.hp then setLine (takeHostData (emit s (.bisnpData line)) line) line { i with st := if mhas s.hostCache line then .o else .s }
      else setLine s line { i with st := .e }
  | _ => s0

/-- The metadata word of a granule (R394): CHK over the data and the other fields, DT, POIS and PIN. A single bad symbol is corrected wherever
it is read, so that nothing but the scrubber's report shows it (R424). -/
def granWord (s : State) (g : Nat) : Word :=
  let m := mget cleanGran s.grans g
  let low := m.pin.toNat * 2 ^ 12 + m.pois.toNat * 2 ^ 13 + m.dt.toNat * 2 ^ 14
  BitVec.ofNat 64 (low + 2 ^ 16 * (Config.granuleCheck (leVal (ramAt s.mem (64 * g) 64) * 2 ^ 16 + low)).toNat)

/-- Poison of a granule after a store (R149): clean data clear it only when one write covers the whole granule. -/
def poisAfter (old whole pois : Bool) : Bool := pois || (old && !whole)

/-- Whether the granule of an address is poisoned, as device agents read it (R352, R394): held stores count as performed. -/
def granPois (s : State) (a : Nat) : Bool :=
  s.hub.held.foldl (fun b h =>
    match h.item with
    | .store pa m p w => if pa / 64 = a / 64 ∧ (w ∨ !m.isEmpty) then poisAfter b w p else b
    | _ => b) (mget cleanGran s.grans (a / 64)).pois

/-- A read of n bytes at a home, within one line: the state after, the bytes, and poison. A PCIe window answers with bytes of the
device behind it, which the spec does not give (log entry 4). -/
def homeRead (s : State) (a n : Nat) : State × List Byte × Bool :=
  if isHub a then (s, leBytes n (regRead s (a - hubBase) n), false)
  else if isPcie a then ({ s with tick := s.tick + 1 }, (upto n).map (fun i => Config.freeByte s.tick i), false)
  else (readLine (demand s (a / 64) true) (a / 64), homeBytes s a n, granPois s a)

/-! ## Drift logging (R404, R410, R411) -/

/-- DT of a drift (R394). -/
def dtOf (e : BitVec 32) : BitVec 2 := BitVec.ofNat 2 (1 + e.toNat % 3)

/-- Whether a drift number is open: above the last sealed one, at most the newest. -/
def isOpenDrift (s : Seals) (e : BitVec 32) : Bool := !isSealed s e && decide ((s.newest - e).toNat < 2 ^ 31)

/-- Whether a granule's DT names an open drift (R417). -/
def granOpen (s : State) (g : Nat) : Bool :=
  let m := mget cleanGran s.grans g
  let o := s.hub.seals
  m.dt != 0 && ((dtOf o.newest == m.dt) || (o.newest != o.sealed + 1 && dtOf (o.sealed + 1) == m.dt))

/-- Room for an entry of drift e in a region (R411). -/
def wbRoom (h : Hub) (ch : Nat) (e : BitVec 32) : Bool :=
  let o := h.seals
  let limit := if o.newest ≠ o.sealed + 1 ∧ e ≠ o.sealed + 1 then regionSize - regionSize / 8 else regionSize
  decide ((mget [] h.wb ch).length < limit)

/-- The header of a windbreak entry (R410). -/
def wbHeader (w : WbEntry) : Nat :=
  let rest := w.seq % 2 ^ 40 + w.opois.toNat * 2 ^ 57 + w.gran % 2 ^ 38 * 2 ^ 58 + w.drift.toNat * 2 ^ 96
  rest + (Config.headerCheck rest).toNat * 2 ^ 40

/-- The 80 bytes of a windbreak entry (R409, R410). -/
def wbBytes (w : WbEntry) : List Byte := w.old.take 64 ++ leBytes 16 (wbHeader w)

/-- The base of a domain's windbreak log in force (R426). -/
def wbBaseOf (h : Hub) (d : Nat) : Nat := mget ((d * 64 + 63) * 2 ^ 30) h.wbBase d

/-- Where an entry lies in the region of its channel, which is a ring (R409). -/
def wbPlace (h : Hub) (ch seq : Nat) : Nat := wbBaseOf h (ch / 4) + ch % 4 * 0x10000000 + seq % regionSize * 80

/-- The entries that a channel's windbreak buffer of 64 KiB holds (R409). -/
def wbBuffer : Nat := 819

/-- The oldest entry in a channel's windbreak buffer is written to its region (R409). -/
def spillEntry (s : State) (ch : Nat) : State :=
  let es := mget [] s.hub.wb ch
  match es.findIdx? (fun w => !w.spilt) with
  | none => s
  | some i =>
      match es[i]? with
      | some w =>
          { s with mem := ramPut s.mem (wbPlace s.hub ch w.seq) (wbBytes w)
                   hub := { s.hub with wb := mset [] s.hub.wb ch (setAt es i { w with spilt := true }) } }
      | none => s

/-- The windbreak entry of a granule is made, in its channel's buffer, and DT names the drift (R404, R409). -/
def logEntry (s0 : State) (pa : Nat) (e : BitVec 32) : State :=
  let g := pa / 64
  let ch := channelOf pa
  let s := if wbBuffer ≤ ((mget [] s0.hub.wb ch).filter (fun w => !w.spilt)).length then spillEntry s0 ch else s0
  let m := mget cleanGran s.grans g
  let n := mget 0 s.hub.wbSeq ch
  let w : WbEntry := { drift := e, gran := g, old := (upto 64).map (fun i => openByte s (64 * g + i)), opois := m.pois, bad := false, seq := n
                       spilt := false }
  let es := mget [] s.hub.wb ch ++ [w]
  let h1 := { s.hub with wb := mset [] s.hub.wb ch es, wbSeq := mset 0 s.hub.wbSeq ch (n + 1) }
  { s with hub := (if es.length * 4 > regionSize * 3 then wantSealOf h1 e else h1), grans := mset cleanGran s.grans g { m with dt := dtOf e } }

/-- The windbreak entry of a write stamped e to a tracked granule, unless its drift has logged the granule already (R404). -/
def logGranule (s : State) (pa : Nat) (e : BitVec 32) : State :=
  if (mget cleanGran s.grans (pa / 64)).dt = dtOf e then s else logEntry s pa e

/-! ## Signatures at the home (R355, R356) -/

/-- The table of a slice after a release to a flag line. -/
def sigRelease (tbl : List (Nat × BitVec 256)) (line : Nat) (sig : BitVec 256) (atomic hub : Bool) : List (Nat × BitVec 256) :=
  let old := tbl.find? (fun e => e.1 == line)
  let v := if hub then BitVec.allOnes 256
    else match old with
      | some (_, o) => if atomic then o ||| sig else sig
      | none => if atomic then BitVec.allOnes 256 else sig
  (line, v) :: tbl.filter (fun e => e.1 != line)

/-- A release to a line of G: its home's table takes the signature; beyond 64 entries the least recently used leaves (R355). -/
def releaseAt (s : State) (line : Nat) (sig : BitVec 256) (atomic hub : Bool) : State :=
  let k := servedBy s (homeSect (64 * line))
  let q := mget emptySector s.sects k
  let t := sigRelease q.sigs line sig atomic hub
  let h := if t.length > 64 then bump s.hub (0x3208 + 16 * sliceIndex k) 32 32 else s.hub
  { s with sects := mset emptySector s.sects k { q with sigs := t.take 64 }, hub := h }

/-- The signature that an acquire of a line returns (R355), which makes its entry the most recently used. -/
def acquireAt (s : State) (line : Nat) : State × BitVec 256 :=
  let k := servedBy s (homeSect (64 * line))
  let q := mget emptySector s.sects k
  match q.sigs.find? (fun e => e.1 == line) with
  | some e => ({ s with sects := mset emptySector s.sects k { q with sigs := e :: q.sigs.filter (fun f => f.1 != line) } }, e.2)
  | none => (s, BitVec.allOnes 256)

/-- A host write or a snoop removes the entry of a line (R355). -/
def dropSig (s : State) (line : Nat) : State :=
  let k := servedBy s (homeSect (64 * line))
  let q := mget emptySector s.sects k
  { s with sects := mset emptySector s.sects k { q with sigs := q.sigs.filter (fun e => e.1 != line) } }

/-! ## Watches (R258, R434) -/

/-- A write to a line of G, or a read for ownership of it, wakes its waiters (R258, R368); a watched tail line rings (R434). -/
def wakeLine (s : State) (line : Nat) (rings : Bool) : State :=
  { s with ctxs := s.ctxs.map (fun e => (e.1, wakeCtx (fun r => spaceOf r.va == 0 && r.pa / 64 == line) e.2))
           hub := if rings then { s.hub with bells := s.hub.bells ++ (s.hub.watches.filter (fun w => w.1 == line)).map (·.2) } else s.hub }

/-! ## Writes at a home -/

/-- A write on its way to a home. -/
structure HWrite where
  pa : Nat
  bytes : List Byte
  stamp : BitVec 32
  rel : Option Scope
  sig : BitVec 256
  pois : Bool
  mayHold : Bool           -- not an atomic, not with IRV (R414, R416)
  atomic : Bool
  hub : Bool
  by_ : Option Nat
  page : Option (Nat × Nat)   -- the PASID and virtual address that it was translated from
  deriving DecidableEq, Repr

/-- The bytes of a list at their addresses. -/
def cellsOf (a : Nat) (bs : List Byte) : Map Byte := (upto bs.length).map (fun i => (a + i, bs.getD i 0))

/-- A held item without some bytes. -/
def cutHeld (a n : Nat) (h : Held) : Held :=
  let cut := fun (m : Map Byte) => m.filter (fun e => !(decide (a ≤ e.1) && decide (e.1 < a + n)))
  match h.item with
  | .store pa m p w => { h with item := .store pa (cut m) p w }
  | .completion pa m v => { h with item := .completion pa (cut m) v }
  | _ => h

/-- A later write in the coherence order of some bytes takes them out of the held stores before it (R359; log entry 11). -/
def dropHeld (hs : List Held) (a n : Nat) : List Held := hs.map (cutHeld a n)

/-- The same for a write that itself enters the hold, of drift e: only items of a newer drift would leave the hold after it. -/
def cutNewer (hs : List Held) (e : BitVec 32) (a n : Nat) : List Held := hs.map (fun h => if h.stamp = e + 1 then cutHeld a n h else h)

/-- A held whole-granule store no longer clears the poison of its granule, which a later write has poisoned (R149). -/
def unwhole (hs : List Held) (g : Nat) : List Held :=
  hs.map (fun h => match h.item with | .store pa m p _ => if pa / 64 = g then { h with item := .store pa m p false } else h | _ => h)

/-- A line taken for a write or an atomic (R364, R365, R368): host copies are back-invalidated, their data merged, and a host-memory line is
owned first; the line is then in M. -/
def ownLine (s : State) (line : Nat) : State :=
  let i := lineInfo s line
  let s0 := makeRoom s line
  let s1 := if i.hp then emit s0 (.bisnpInv line)
    else if isHostMem (64 * line) && (i.st == .i || i.st == .s) then emit s0 (.rdOwn line) else s0
  setLine (takeHostData s1 line) line { i with st := .m, hp := false }

/-- The write reaches the line (R364, R365). -/
def mergeWrite (s : State) (a : Nat) (bs : List Byte) : State :=
  let s1 := ownLine s (a / 64)
  { s1 with mem := ramPut s1.mem a bs }

/-- A write that takes its place in the coherence order at once. -/
def directWrite (s : State) (a : Nat) (bs : List Byte) : State :=
  mergeWrite { s with hub := { s.hub with held := dropHeld s.hub.held a bs.length } } a bs

/-- The poison of a granule after a write (R149). -/
def granWrite (s : State) (a : Nat) (whole pois : Bool) : State :=
  let g := a / 64
  let m := mget cleanGran s.grans g
  { s with grans := mset cleanGran s.grans g { m with pois := poisAfter m.pois whole pois } }

/-- Whether an item waits in the hub's hold of external items rather than in a slice (R415). -/
def isExternal : HeldItem → Bool
  | .store pa .. => isPcie pa
  | .completion .. => false
  | _ => true

/-- The hold of external items is full (R415). -/
def extFull (h : Hub) : Bool := decide ((h.held.filter (fun x => isExternal x.item)).length ≥ 1024)

/-- The line of a held store. -/
def heldLine : HeldItem → Option Nat
  | .store pa .. => if isPcie pa then none else some (pa / 64)
  | .completion pa _ _ => some (pa / 64)
  | _ => none

/-- The hold of a slice is full for a new line (R415). -/
def sliceFull (s : State) (pa : Nat) : Bool :=
  let k := servedBy s (homeSect pa)
  let ls := (s.hub.held.filterMap (fun h => heldLine h.item)).eraseDups
  !(ls.contains (pa / 64)) && decide ((ls.filter (fun l => servedBy s (homeSect (64 * l)) == k)).length ≥ 256)

/-- What follows a write that device agents see from now on: the signature table, waiters. A write of the hub is no demand access (R370). -/
def noteWrite (s : State) (w : HWrite) : State :=
  let line := w.pa / 64
  let s1 := if isPcie w.pa || w.hub then s else demand s line false
  let s2 := match w.rel with
    | some sc => if Scope.wide sc ∧ !isPcie w.pa then releaseAt s1 line w.sig w.atomic w.hub else s1
    | none => s1
  wakeLine s2 line true

/-- What follows a write that its home has merged: the granule's poison, the signature table, waiters. -/
def afterWrite (s : State) (w : HWrite) : State :=
  noteWrite (if isPcie w.pa then s
    else
      let t := granWrite s w.pa (decide (64 ≤ w.bytes.length)) w.pois
      if w.pois then { t with hub := { t.hub with held := unwhole t.hub.held (w.pa / 64) } } else t) w

/-- A store enters the egress hold (R414): device agents see it at once. Its poison reaches the granule when it leaves the hold. -/
def enterHold (s : State) (w : HWrite) : State :=
  let h : Held := { stamp := w.stamp, item := .store w.pa (cellsOf w.pa w.bytes) w.pois (decide (64 ≤ w.bytes.length)), by_ := w.by_, page := w.page }
  noteWrite { s with hub := wantHold { s.hub with held := cutNewer s.hub.held w.stamp w.pa w.bytes.length ++ [h] } w.stamp } w

/-- The old value of an atomic at its home, and its poison (R364, R365, R368): the line is taken in M whether or not the atomic then writes. -/
def homeAtomic (s : State) (a n : Nat) : State × List Byte × Bool :=
  if isPcie a then homeRead s a n else (ownLine (demand s (a / 64) true) (a / 64), homeBytes s a n, granPois s a)

/-- What a write has no room for: an entry of its windbreak region, behind an earlier write to its channel that waits (R411), or its hold
(R415). -/
def lacksRoom (s : State) (w : HWrite) : Option NoRoom :=
  if isHub w.pa then none
  else if tracked s.hub w.pa then
    let ch := channelOf w.pa
    if s.hub.wbStall.any (fun x => x.1 == ch) || ((mget cleanGran s.grans (w.pa / 64)).dt != dtOf w.stamp && !wbRoom s.hub ch w.stamp) then
      some (.log ch w.pa w.by_)
    else none
  else if w.mayHold && (if isPcie w.pa then extFull s.hub else sliceFull s w.pa) then some (.hold w.stamp)
  else none

/-- A write that has room, at its home. -/
def writeThrough (s : State) (w : HWrite) : State :=
  if isHub w.pa then regStore s false (w.pa - hubBase) w.bytes.length (BitVec.ofNat 64 (leVal w.bytes))
  else if tracked s.hub w.pa then afterWrite (directWrite (logGranule s w.pa w.stamp) w.pa w.bytes) w
  else if w.mayHold then enterHold s w
  else if isPcie w.pa then emit s (.pcie w.pa w.bytes)
  else afterWrite (directWrite s w.pa w.bytes) w

/-- A write performed at its home (R351, R404, R414): the state after, and whether it was performed or has to wait. -/
def homeWrite (s : State) (w : HWrite) : State × Bool :=
  match lacksRoom s w with
  | some r => ({ s with hub := stallFor s.hub r }, false)
  | none => (writeThrough s w, true)

/-- A write that an event of the device makes within its step: without room, the step is not made (R411, R415; log entry 12). -/
def hubPut (s : State) (w : HWrite) : State :=
  match lacksRoom s w with
  | some r => { s with hub := { s.hub with noRoom := s.hub.noRoom ++ [r] } }
  | none => writeThrough s w

/-- The runs of consecutive addresses of a sparse byte map, each with its bytes. -/
def runsOf : Map Byte → List (Nat × List Byte)
  | [] => []
  | (a, b) :: t =>
      match runsOf t with
      | (a2, bs) :: rest => if a2 = a + 1 then (a, b :: bs) :: rest else (a, [b]) :: (a2, bs) :: rest
      | [] => [(a, [b])]

/-- A held item leaves the hold (R415): a store reaches its line or its window, a message leaves the device. -/
def releaseItem (s : State) (h : HeldItem) : State :=
  match h with
  | .store pa m p w =>
      if isPcie pa then (runsOf m).foldl (fun s r => emit s (.pcie r.1 r.2)) s
      else
        let t := (runsOf m).foldl (fun s r => mergeWrite s r.1 r.2) s
        if w ∨ !m.isEmpty then granWrite t pa w p else t
  | .msi v => emit s (.msi v)
  | .completion _ m v =>
      let s1 := (runsOf m).foldl (fun s r => mergeWrite s r.1 r.2) s
      (match v with | some n => emit s1 (.msi n) | none => s1)
  | .frame c i bs => emit s (.frames c i bs)
  | .ack c n => emit s (.ack c n)

/-- The hub's drift stamp: it switches with its tables (R403, R421). -/
def hubStamp (h : Hub) : BitVec 32 := match h.snaps with | (e, _) :: _ => e | [] => h.seals.newest

/-- A plain write of the hub to G (R403). -/
def hubWriteOf (h : Hub) (pa : Nat) (bs : List Byte) : HWrite :=
  { pa := pa, bytes := bs, stamp := hubStamp h, rel := none, sig := 0, pois := false, mayHold := true, atomic := false, hub := true
    by_ := none, page := none }

/-- A little-endian doubleword of memory as the hub reads it. -/
def dword (s : State) (pa : Nat) : Word := BitVec.ofNat 64 (leVal (homeBytes s pa 8))

end Sys2Proof.Machine
end

