-- ==== Sys2Proof/Machine/Walk.lean ====
section
/-! DEFINITION. The walk of the page tables (R377-R379), for every requester that translates. -/
namespace Sys2Proof.Machine
open Sys2Proof

/-- SCID of the scheduler and of the hub event paths (R295). -/
def hubScid : Nat := 0x3FFF

/-- A requester as the walk sees it: PASID, address, kind, privilege, CID of a record. -/
structure Asker where
  pasid : BitVec 20
  va : Nat
  acc : Acc
  priv : Nat
  cid : Nat
  deriving DecidableEq, Repr

/-! ## The walk (R377-R379) -/

/-- What a walk finds. -/
inductive Walked where
  | leaf (t : Tlb) (pte : Nat) (word : Word) (ptrs : List PtrEnt)
  | code (c : BitVec 8)
  | host
  | rollback
  deriving DecidableEq, Repr

/-- The lowest VA bit that a level indexes with (R377). -/
def levelShift (n : Nat) : Nat := if n = 0 then 58 else if n = 1 then 47 else if n = 2 then 36 else if n = 3 then 25 else 14

/-- The index of an address at a level. -/
def levelIndex (n va : Nat) : Nat := if n = 0 then bits va 58 2 else bits va (levelShift n) 11

/-- FRAME of an entry (R378). -/
def pteFrame (w : Word) : Nat := fld w 14 30 * 2 ^ 14

/-- Whether a leaf lacks the kind of access (R379). -/
def leafLacks (w : Word) (priv : Nat) : Acc → Bool
  | .read => !bit w.toNat 1 || (!bit w.toNat 4 && priv == 0)
  | .write => !bit w.toNat 2 || (!bit w.toNat 4 && priv == 0)
  | .atomic => !bit w.toNat 1 || !bit w.toNat 2 || (!bit w.toNat 4 && priv == 0)
  | .fetch => !bit w.toNat 3 || (!bit w.toNat 4 && priv == 0)

/-- The translation of a leaf for the 16 KiB page of an address. -/
def leafTlb (a : Asker) (n : Nat) (w : Word) : Tlb :=
  { pasid := a.pasid.toNat, vpage := a.va / 2 ^ 14, frame := pteFrame w + a.va % 2 ^ levelShift n / 2 ^ 14 * 2 ^ 14, quarter := none
    r := bit w.toNat 1, w := bit w.toNat 2, x := bit w.toNat 3, u := bit w.toNat 4, g := bit w.toNat 10, nc := bit w.toNat 6
    trk := bit w.toNat 5, d := bit w.toNat 9 || a.acc.writes, priv := false }

/-- The checks of a leaf, in the order of R379. -/
def walkLeaf (a : Asker) (n pte : Nat) (w : Word) (ptrs : List PtrEnt) : Walked :=
  if isHole (pteFrame w) then .code 0x13
  else if n < 2 ∨ pteFrame w % 2 ^ levelShift n ≠ 0 ∨ fld w 44 18 ≠ 0 ∨ fld w 12 2 ≠ 0 then .code 0x11
  else if leafLacks w a.priv a.acc ∨ (isHub (pteFrame w) ∧ (bit w.toNat 4 ∨ a.priv = 0)) then .code 0x11
  else if bit w.toNat 11 then .code 0x32
  else .leaf (leafTlb a n w) pte w ptrs

/-- The walk from the table of level n down; `fuel` bounds the levels left. -/
def walkFrom (s : State) (a : Asker) : Nat → Nat → Nat → List PtrEnt → Walked
  | 0, _, _, _ => .code 0x11
  | fuel + 1, n, table, ptrs =>
      let pte := table + 8 * levelIndex n a.va
      let w := dword s pte
      let v := bit w.toNat 0
      let leaf := bit w.toNat 1 || bit w.toNat 2 || bit w.toNat 3
      if granPois s pte then .code 0x32
      else if v ∧ leaf then walkLeaf a n pte w ptrs
      else if v ∧ !isRam (pteFrame w) then .code 0x13
      else if fld w 44 18 ≠ 0 ∨ fld w 12 2 ≠ 0 then .code 0x11
      else if !v then (if bit w.toNat 7 then .host else .code 0x10)
      else if n ≥ 4 then .code 0x11
      else
        let p : PtrEnt := { pasid := a.pasid.toNat, level := n, prefx := a.va / 2 ^ levelShift n, table := pteFrame w }
        walkFrom s a fuel (n + 1) (pteFrame w) (if n = 0 then ptrs else p :: ptrs)

/-- A cached pointer of some level for an address (R380). -/
def ptrFind (ps : List PtrEnt) (a : Asker) (n : Nat) : Option PtrEnt :=
  ps.find? (fun p => p.pasid == a.pasid.toNat && p.level == n && p.prefx == a.va / 2 ^ levelShift n)

/-- The walk of an address: from a cached pointer, or from the PASID table (R377, R380). -/
def walk (s : State) (a : Asker) (ps : List PtrEnt) : Walked :=
  match ptrFind ps a 3, ptrFind ps a 2, ptrFind ps a 1 with
  | some p, _, _ => walkFrom s a 1 4 p.table []
  | none, some p, _ => walkFrom s a 2 3 p.table []
  | none, none, some p => walkFrom s a 3 2 p.table []
  | none, none, none =>
      let at_ := fld (reg s.hub 0x4000) 14 30 * 2 ^ 14 + 8 * a.pasid.toNat
      let e := dword s at_
      if !isRam at_ then .code 0x13
      else if granPois s at_ then .rollback
      else if !bit e.toNat 0 ∨ fld e 44 20 ≠ 0 ∨ fld e 1 13 ≠ 0 then .code 0x11
      else if !isRam (pteFrame e) then .code 0x13
      else walkFrom s a 5 0 (pteFrame e) []

/-- The walker sets A, and D for a write, at the entry's home (R379): the state after, and whether it could. -/
def setAD (s : State) (a : Asker) (pte : Nat) (w : Word) : State × Bool :=
  let n := setBit (if a.acc.writes then setBit w 9 true else w) 8 true
  if n = w then (s, true)
  else homeWrite s { hubWriteOf s.hub pte (leBytes 8 n.toNat) with mayHold := false, atomic := true }

/-- The same within a step of the hub: without room, the step is not made. -/
def setADWhole (s : State) (a : Asker) (pte : Nat) (w : Word) : State :=
  let n := setBit (if a.acc.writes then setBit w 9 true else w) 8 true
  if n = w then s else hubPut s { hubWriteOf s.hub pte (leBytes 8 n.toNat) with mayHold := false, atomic := true }

/-- A rollback is to run (R420); one that is already due keeps its cause (R421). -/
def dueRollback (s : State) (cause : BitVec 8) : State :=
  match s.hub.rbDue with
  | none => { s with hub := { s.hub with rbDue := some cause } }
  | some _ => s

end Sys2Proof.Machine
end

