-- ==== Sys2Proof/Machine/Records.lean ====
section
/-! DEFINITION. Routing of tokens by the placement tables (R289, R290), events through the IRT (R389, R447), fault records and dead
letters (R291, R375, R376), uncontained errors (R401, R402). -/
namespace Sys2Proof.Machine
open Sys2Proof

/-! ## Tags and addresses (R288, R295) -/

/-- A tag: source CID, destination channel, and one flag bit (0: none). -/
def mkTag (scid ch flag : Nat) : Word := BitVec.ofNat 64 (scid % 2 ^ 14 * 32 + ch % 32 + (if flag = 0 then 0 else 2 ^ flag))

/-- Whether a tag has a flag bit. -/
def tagBit (t : Token) (b : Nat) : Bool := t.tag.getLsbD b

/-- LSLOT of an actor address. -/
def adSlot (a : BitVec 32) : Nat := fld a 16 16
/-- INST of an actor address. -/
def adInst (a : BitVec 32) : Nat := fld a 5 11
/-- CH of an actor address. -/
def adCh (a : BitVec 32) : Nat := fld a 0 5

/-- The actor address of a launch slot, an instance and a channel. -/
def adOf (slot inst ch : Nat) : BitVec 32 := BitVec.ofNat 32 (slot * 2 ^ 16 + inst * 32 + ch)

/-- The actor address of a firing. -/
def Ctx.actor (c : Ctx) : BitVec 32 := adOf c.lslot.toNat c.inst.toNat c.ch0.toNat

/-- A launch by its slot. -/
def launchOf (h : Hub) (k : Nat) : Option Launch := (h.tables.launches.find? (fun e => e.1 == k)).map (·.2)

/-- Whether a launch has failed: it takes no more tokens (R401, R422). -/
def Launch.failed (la : Launch) : Bool := match la.stage with | .failed _ => true | _ => false

/-- A live launch replaced. -/
def putLaunch (h : Hub) (k : Nat) (la : Launch) : Hub :=
  { h with tables := { h.tables with launches := minsert (mdel h.tables.launches k) k la } }

/-- PST of a placement word (R240). -/
def pst (w : Word) : Nat := fld w 0 2
/-- CORE of a placement word. -/
def plCore (w : Word) : Nat := fld w 2 11

/-- The placement word of an actor address: exited when no live launch has its slot (R289). -/
def placeWordOf (h : Hub) (a : BitVec 32) : Word :=
  match launchOf h (adSlot a) with
  | some la => mget 0 la.places (adInst a)
  | none => 3

/-- An instance record that holds nothing. -/
def emptyInst : InstRec := { toks := [], chans := [], entry := 0, entry2 := 0, credit := 0 }

/-! ## Actors of a launch (R309, R310) -/

/-- Doubleword i of an actor record. -/
def recW (r : List Word) (i : Nat) : Word := r.getD i 0

/-- Whether an actor is a range-fork (R309). -/
def recFork (r : List Word) : Bool := bit (recW r 1).toNat 59

/-- The instances of an actor: a FORK actor has none (R310). -/
def recInsts (r : List Word) : Nat := if recFork r then 0 else fld (recW r 1) 48 11 + 1

/-- The actor record of an instance, with the instance's index within the actor (R310). -/
def actorOf : List (List Word) → Nat → Option (List Word × Nat)
  | [], _ => none
  | r :: t, n => if n < recInsts r then some (r, n) else actorOf t (n - recInsts r)

/-- The placement level of the actor of an instance: device level when no live launch has the instance (R220). -/
def levelOf (h : Hub) (slot inst : Nat) : Nat :=
  match launchOf h slot with
  | some la => (match actorOf la.actors inst with | some (r, _) => fld (recW r 1) 61 3 | none => 4)
  | none => 4

/-- EDEP of the actor that an actor address names (R296). -/
def edepOf (h : Hub) (a : BitVec 32) : Nat :=
  match launchOf h (adSlot a) with
  | some la => (match actorOf la.actors (adInst a) with | some (r, _) => fld (recW r 2) 32 8 | none => 0)
  | none => 0

/-! ## Routing (R289, R290) -/

/-- What routing did with a token. -/
inductive Routed where
  | ok (s : State)
  | exited
  | refused
  deriving DecidableEq, Repr

/-- How many tokens a flight carries. -/
def Flight.count (f : Flight) : Nat := if f.second.isSome then 2 else 1

/-- The tokens of a flight. -/
def Flight.toks (f : Flight) : List Token := f.tok :: f.second.toList

/-! ## The save area in memory (R304, R306) -/

/-- A slot of some bytes padded with zeros. -/
def padTo (n : Nat) (bs : List Byte) : List Byte := (bs ++ List.replicate n 0).take n

/-- A token slot of 32 bytes (R304). -/
def tokSlot (t : Token) : List Byte := padTo 32 (leBytes 16 t.payload.toNat ++ leBytes 8 t.tag.toNat)

/-- Who translates an address of the save area: the scheduler, for the process of the launch. -/
def saveAsker (la : Launch) (off : Nat) (k : Acc) : Asker :=
  { pasid := la.pasid, va := addrOf (recW la.hdr 1) + off, acc := k, priv := if la.pasid = 0 then 1 else 0, cid := hubScid }

/-- The scheduler writes bytes of a launch's save area (R306). A page that its process cannot write takes none (log entry 36). -/
def savePut (la : Launch) (s : State) (off : Nat) (bs : List Byte) : State :=
  let a := saveAsker la off .write
  match walk s a [] with
  | .leaf t pte w _ =>
      let k := t.keyOf a.va
      if isRam k then
        let s1 := setADWhole { s with hub := countClaim s.hub k t.trk } a pte w
        hubPut s1 (hubWriteOf s1.hub k bs)
      else s
  | .rollback => dueRollback s 4
  | _ => s

/-- The scheduler reads a granule of a launch's save area (R306): the walk marks the page, the tracking claim is checked (R413), and an error in
the PASID table, or in a record that is being restored, rolls the device back (R402). -/
def saveRead (la : Launch) (restore : Bool) (s : State) (off : Nat) : State :=
  let a := saveAsker la off .read
  match walk s a [] with
  | .leaf t pte w _ =>
      let k := t.keyOf a.va
      if isRam k then
        let s1 := setADWhole { s with hub := countClaim s.hub k t.trk } a pte w
        if restore && granPois s1 k then dueRollback s1 4 else s1
      else s
  | .rollback => dueRollback s 4
  | _ => s

/-- Where bytes of a launch's save area lie, for a read of the scheduler. -/
def saveKey (s : State) (la : Launch) (off : Nat) : Option Nat :=
  let a := saveAsker la off .read
  match walk s a [] with
  | .leaf t _ _ _ => if isRam (t.keyOf a.va) then some (t.keyOf a.va) else none
  | _ => none

/-- The slots of a mailbox from the k-th on, and its state: the oldest token lies in slot 0 (R306; log entry 36). -/
def putMail (la : Launch) (s : State) (state slots k : Nat) (ts : List Token) : State :=
  let s1 := ((upto ts.length).drop k).foldl (fun s i => match ts[i]? with | some t => savePut la s (slots + 32 * i) (tokSlot t) | none => s) s
  savePut la s1 state (leBytes 8 0 ++ leBytes 8 ts.length)

/-- A held token as its slot gives it back: payload, tag and poison come from memory. -/
def mailTok (s : State) (la : Launch) (off : Nat) (t : Token) : Token :=
  match saveKey s la off with
  | some pa => { t with payload := BitVec.ofNat 128 (leVal (homeBytes s pa 16)), tag := dword s (pa + 16), pois := t.pois || granPois s pa }
  | none => t

/-- The flights that a mailbox holds, as its slots give them back. -/
def mailFlights (s : State) (la : Launch) (slots : Nat) : Nat → List Flight → List Flight
  | _, [] => []
  | k, f :: rest =>
      { f with tok := mailTok s la (slots + 32 * k) f.tok, second := f.second.map (mailTok s la (slots + 32 * (k + 1))) } ::
        mailFlights s la slots (k + f.count) rest

/-- Where the record of an instance starts in the save area (R306). -/
def instOff (inst : Nat) : Nat := 0x9000 + 0x4000 * inst

/-- The tokens of an instance record, oldest first: those that were on its channels, then those of its mailbox. -/
def InstRec.all (r : InstRec) : List Token := r.chans ++ r.toks.flatMap Flight.toks

/-- The save-area mailbox of an instance written from its k-th slot on (R306). -/
def putInstMail (la : Launch) (s : State) (inst k : Nat) (r : InstRec) : State :=
  putMail la s (instOff inst + 0x2000) (instOff inst) k r.all

/-- The whole instance record written (R306, R318). -/
def putInst (la : Launch) (s : State) (inst : Nat) (r : InstRec) : State :=
  let s1 := putInstMail la s inst 0 r
  let s2 := savePut la s1 (instOff inst + 0x2040) (leBytes 32 r.entry.toNat)
  let s3 := savePut la s2 (instOff inst + 0x2060) (leBytes 32 r.entry2.toNat)
  savePut la s3 (instOff inst + 0x2080) (leBytes 8 r.credit)

/-- The pending mailbox of a launch written from its k-th slot on (R306). -/
def putPending (la : Launch) (s : State) (k : Nat) (fs : List Flight) : State := putMail la s 0 0x1000 k (fs.flatMap Flight.toks)

/-- An instance record as memory gives it back (R306): the scheduler reads it when it restores the instance. -/
def readInst (s : State) (la : Launch) (inst : Nat) (r : InstRec) : InstRec :=
  let word := fun (off n v : Nat) => match saveKey s la (instOff inst + off) with | some pa => leVal (homeBytes s pa n) | none => v
  { toks := mailFlights s la (instOff inst) r.chans.length r.toks
    chans := (upto r.chans.length).filterMap (fun i => (r.chans[i]?).map (mailTok s la (instOff inst + 32 * i)))
    entry := BitVec.ofNat 256 (word 0x2040 32 r.entry.toNat), entry2 := BitVec.ofNat 256 (word 0x2060 32 r.entry2.toNat)
    credit := word 0x2080 8 r.credit }

/-- The granules of an instance record that the scheduler reads when it restores the instance (R306, R402). -/
def readInstGrans (la : Launch) (inst : Nat) (r : InstRec) (s : State) : State :=
  ((upto ((r.all.length + 1) / 2)).map (fun i => instOff inst + 64 * i) ++ [instOff inst + 0x2040, instOff inst + 0x2080]).foldl
    (saveRead la true) s

/-- The granules of the pending mailbox that the scheduler reads. -/
def readPendingGrans (la : Launch) (s : State) : State :=
  ((upto (((la.pending.flatMap Flight.toks).length + 1) / 2)).map (fun i => 0x1000 + 64 * i)).foldl (saveRead la false) s

/-- SAVE of a placement word (R240). -/
def plSave (w : Word) : BitVec 32 := w.extractLsb' 16 32

/-- A flight sets out. -/
def launchFlight (s : State) (f : Flight) : State := { s with hub := { s.hub with flight := s.hub.flight ++ [f] } }

/-- A flight is held in the save-area mailbox of an instance (R290, R306). -/
def holdSwapped (s : State) (la : Launch) (a : BitVec 32) (f : Flight) : Routed :=
  let r := mget emptyInst la.insts (adInst a)
  if r.all.length + f.count > 256 then .refused
  else
    let r1 := { r with toks := r.toks ++ [f] }
    .ok (putInstMail la { s with hub := putLaunch s.hub (adSlot a) { la with insts := mset emptyInst la.insts (adInst a) r1 } } (adInst a) r.all.length r1)

/-- A flight is held in the pending mailbox of a launch (R290, R306). -/
def holdPending (s : State) (la : Launch) (a : BitVec 32) (f : Flight) : Routed :=
  let n := (la.pending.flatMap Flight.toks).length
  if n + f.count > 1024 then .refused
  else .ok (putPending la { s with hub := putLaunch s.hub (adSlot a) { la with pending := la.pending ++ [f] } } n (la.pending ++ [f]))

/-- What becomes of a flight at the placement entry of an actor address (R289): a token for a swapped instance is held in a mailbox of the save
area. -/
def routeAt (s : State) (f : Flight) (a : BitVec 32) : Routed :=
  match launchOf s.hub (adSlot a) with
  | none => .exited
  | some la =>
      if la.failed then .exited
      else
      match pst (mget 0 la.places (adInst a)) with
      | 1 => .ok (launchFlight s { f with dest := .addr a })
      | 2 => holdSwapped s la a { f with dest := .addr a }
      | 0 => holdPending s la a { f with dest := .addr a }
      | _ => .exited

/-- The actor whose placement entry decides: that of the destination, or, for a swapped instance, the save-area mailbox actor that SAVE names
(R289, R306); its own mailbox when SAVE is 0. The entry of that actor is not followed further (log entry 36). -/
def routeVia (h : Hub) (a : BitVec 32) : BitVec 32 :=
  let w := placeWordOf h a
  if pst w = 2 ∧ plSave w ≠ 0 ∧ ¬ (adSlot (plSave w) = adSlot a ∧ adInst (plSave w) = adInst a) then plSave w else a

/-- Route a flight by the placement entry of its destination (R289). -/
def routeCore (s : State) (f : Flight) : Routed :=
  match f.dest with
  | .chan .. => .ok (launchFlight s f)
  | .addr a => routeAt s f (routeVia s.hub a)

/-- A flight from the hub. -/
def hubFlight (t : Token) (k : TokKind) (a : BitVec 32) (second : Option Token) (esc : Option EscInfo) : Flight :=
  { tok := t, kind := k, src := 2048, dest := .addr a, second := second, esc := esc }

/-- A token that no firing sent: it carries an all-ones signature (R356). -/
def bareToken (payload : Quad) (tag : Word) : Token :=
  { payload := payload, tag := tag, sig := BitVec.allOnes 64, pois := false, redeliv := 0, pasid := 0, sender := 0, refCh := none
    cred := false, own := none, row := none }

/-! ## Events (R389, R447) -/

/-- IRT[i]. -/
def irt (h : Hub) (i : Nat) : Word := reg h (0x4800 + 16 * i)

/-- MSI-X vector n is raised outside the hold. -/
def raiseMsi (h : Hub) (n : Nat) : Hub := { h with out := .msi n :: h.out }

/-- An event with its tag is routed by its IRT entry (R389). -/
def routeEventTag (s : State) (i : Nat) (payload : Quad) (tagHigh : Word) : State :=
  let e := irt s.hub i
  match fld e 0 2 with
  | 0 => { s with hub := bump s.hub (0x4808 + 16 * i) 0 32 }
  | 2 => { s with hub := raiseMsi s.hub (fld e 21 11) }
  | own =>
      let a : BitVec 32 := e.extractLsb' 32 32
      let info : EscInfo := { src := i, esc := fld e 5 16, vec := fld e 21 11 }
      let f := hubFlight (bareToken payload (mkTag hubScid (adCh a) 24 ||| tagHigh)) .event a none (if own = 3 then some info else none)
      match routeCore s f with
      | .ok s1 => s1
      | .exited => s
      | .refused => { s with hub := { s.hub with refused := s.hub.refused ++ [f] } }

/-- An event of a source with its data (R447). -/
def routeEvent (s : State) (src : Nat) (data : Word) : State :=
  routeEventTag s src (data ++ BitVec.ofNat 64 src) 0

/-! ## Process control blocks, records, dead letters (R291, R375) -/

/-- The control block of a PASID (R291, R321). -/
def pcbOf (s : State) (pasid : Nat) : Option Nat :=
  let base := fld (reg s.hub 0x2008) 12 32 * 2 ^ 12
  if base = 0 then none
  else
    let p := (dword s (base + 8 * pasid)).toNat
    if p = 0 then none else some p

/-- Reading a poisoned control block rolls the device back (R402). -/
def checkPcb (s : State) (pasid : Nat) : State :=
  match pcbOf s pasid with
  | some p => if granPois s p then dueRollback s 4 else s
  | none => s

/-- A bit of FLAGS of a process (R291, R401). -/
def pcbFlag (s : State) (pasid b : Nat) : Bool :=
  match pcbOf s pasid with
  | some p => bit (homeByte s (p + 16)).toNat b
  | none => false

/-- A record is dropped and counted (R375). -/
def frLost (s : State) : State :=
  let h := bump s.hub 0x4008 32 32
  routeEvent { s with hub := h } 4 (BitVec.ofNat 64 (fld (reg h 0x4008) 32 32))

/-- Send a record to the fault channel of its process as two tokens (R375). -/
def sendRec (s0 : State) (r : FRec) : State :=
  let s := checkPcb s0 r.pasid
  match pcbOf s r.pasid with
  | none => frLost s
  | some p =>
      let a : BitVec 32 := (dword s p).setWidth 32
      if a = 0 then frLost s
      else
        let tag := mkTag hubScid (adCh a) 23
        let f := hubFlight (bareToken (r.w1 ++ r.w0) tag) .record a (some (bareToken (r.w3 ++ r.w2) tag)) none
        match routeCore s f with
        | .ok s1 => s1
        | .exited => frLost s
        | .refused => { s with hub := { s.hub with refused := s.hub.refused ++ [f] } }

/-- Send every record that an agent has left with the hub. -/
def sendRecs (s : State) : State := s.hub.recs.foldl sendRec { s with hub := { s.hub with recs := [] } }

/-- n dead letters of a process are counted in DLC (R291, R375). -/
def deadLetters (s0 : State) (pasid n : Nat) : State :=
  if n = 0 then s0
  else
    let s := checkPcb s0 pasid
    match pcbOf s pasid with
    | none => s
    | some p =>
        let v := (dword s (p + 8)).toNat + n
        hubPut s (hubWriteOf s.hub (p + 8) (leBytes 8 (min v (2 ^ 64 - 1))))

/-- A context-free record (R371, R376): KIND 3, with the flags of the context that it names. `lo` is the slot index or 0, `hi` holds the actor
address. -/
def freeRecord (s : State) (code : BitVec 8) (addr : Word) (acc : BitVec 2) (pasid : BitVec 20) (cid : Nat) (lo hi : Word) : State :=
  let c := mget emptyCtx s.ctxs cid
  sendRec s (recordOf { faultOf code with kind := 3, addr := addr, acc := acc } pasid c.irv (stPFXV c.stat) (stDS c.stat != 0) cid lo hi)

/-- Tokens are dropped as dead letters of a process (R289, R296, R372): each sends a record of code 0x18 when `rec` says so, or when
DLREC of the process is set (R291). Those of a process without a control block are counted nowhere and send none (R375). -/
def dropTokens (s : State) (pasid : BitVec 20) (ts : List Token) (rec : Bool) : State :=
  let s1 := deadLetters s pasid.toNat ts.length
  if (pcbOf s pasid.toNat).isSome && (rec || pcbFlag s pasid.toNat 0) then ts.foldl (fun s t => freeRecord s 0x18 0 0 pasid hubScid 0 (t.sender.setWidth 64)) s1 else s1

/-- A token is dropped as a dead letter of its sender. -/
def dropToken (s : State) (t : Token) (rec : Bool) : State := dropTokens s t.pasid [t] rec

/-- A token that names an exited actor (R289). -/
def exitToken (s : State) (f : Flight) : State :=
  match f.kind with
  | .record => frLost s
  | .event | .refusal => s
  | _ => dropToken s f.tok false

/-- A token that finds no room (R211, R257, R296, R297, R375): records, events and notify tokens are sent again, and so is a start, resume or
connection token that an edge channel has no room for. -/
def refuse (s : State) (f : Flight) : State :=
  match f.kind with
  | .record | .event | .notify | .hub => { s with hub := { s.hub with refused := s.hub.refused ++ [f] } }
  | .send =>
      (match f.tok.refCh with
       | some rch =>
           let t : Token := { f.tok with tag := mkTag (fld f.tok.tag 5 14) rch.toNat 19, sig := 0, refCh := none, cred := false }
           let r : Flight := { tok := t, kind := .refusal, src := f.src, dest := .chan f.src rch, second := none, esc := none }
           { s with hub := { s.hub with flight := s.hub.flight ++ [r] } }
       | none => dropToken s f.tok false)
  | _ => dropToken s f.tok false

/-- Route a flight and settle what becomes of it. -/
def route (s : State) (f : Flight) : State :=
  match routeCore s f with
  | .ok s1 => s1
  | .exited => exitToken s f
  | .refused => if f.kind = .hub then dropToken s f.tok false else refuse s f

/-! ## Uncontained errors (R401) -/

/-- A core of the state. -/
def coreAt (s : State) (c : Nat) : Core := mget emptyCore s.cores c
/-- A core replaced. -/
def putCore (s : State) (c : Nat) (k : Core) : State := { s with cores := mset emptyCore s.cores c k }
/-- A channel of a core. -/
def chanAt (s : State) (c n : Nat) : Chan := mget emptyChan (coreAt s c).chans n
/-- A channel replaced. -/
def putChan (s : State) (c n : Nat) (x : Chan) : State :=
  let k := coreAt s c
  putCore s c { k with chans := mset emptyChan k.chans n x }

/-- The launch that a token on its way belongs to (R312): that of its actor address, or of the entry of the channel that it names; on a channel
without one, its sender's, and for a drained row that of the cluster. -/
def tokenOwner (s : State) (f : Flight) : Option Nat :=
  match f.dest with
  | .addr a => some (adSlot a)
  | .chan c n =>
      let e := (chanAt s c n.toNat).entry
      if entVal e then some (entLslot e)
      else match f.kind with
        | .drain => (mget emptyCluster s.clus (clusOfCore c)).owner
        | _ => some (adSlot f.tok.sender)

/-- A requester leaves every entry (R386, R401, R442). -/
def leaveReq (h : Hub) (q : Requester) : Hub :=
  { h with cam := h.cam.map (fun e => (e.1, { e.2 with reqs := e.2.reqs.filter (fun r => r != q) })) }

/-- A context leaves the requesters of every entry. -/
def leaveCam (h : Hub) (cid : Nat) : Hub := leaveReq h (.ctx cid)

/-- Whether a firing belongs to no launch: the launch in its slot, if any, is of another process, as for a handler that service firmware of
boot has bound (R401, R459). -/
def freeFiring (h : Hub) (pasid : BitVec 20) (slot : Nat) : Bool := (launchOf h slot).all (fun la => la.pasid != pasid)

/-- The swap slots without the saved firings and the tokens of a launch (R401, R422). -/
def cutSlots (slots : Map SwapSlot) (k : Nat) : Map SwapSlot :=
  let cutClus := fun (u : Cluster) => { u with saves := u.saves.filter (fun v => v.2.lslot.toNat != k || v.2.free) }
  let cutChan := fun (x : Chan) => { x with toks := x.toks.filter (fun t => t.own != some k) }
  let cutCore := fun (e : Nat × Core) => (e.1, { e.2 with chans := (e.2.chans.map (fun ch => (ch.1, cutChan ch.2))).filter (fun ch => ch.2 != emptyChan) })
  slots.map (fun x => (x.1, { x.2 with cluster := x.2.cluster.map cutClus, cores := x.2.cores.map cutCore }))

/-- The next state of a firing that ends with its launch: it ends without resuming. -/
def endWith (f : FaultInfo) (c : Ctx) : Ctx :=
  match c.status with
  | .dormant => c
  | .ending .. => c
  | _ => { c with status := .ending f c.irv, landed := [] }

/-- Every firing of a launch ends (R401); its saved firings, tokens, wherever they are, and undealt chunks are discarded. -/
def failLaunch (s : State) (k : Nat) (f : FaultInfo) (status : BitVec 8) : State :=
  let mine := fun (c : Ctx) => c.lslot.toNat == k && c.status != .dormant && !c.free
  let away := fun (g : Flight) => tokenOwner s g != some k
  let cids := (s.ctxs.filter (fun e => mine e.2)).map (·.1)
  let ctxs := s.ctxs.map (fun e => (e.1, if mine e.2 then endWith f e.2 else e.2))
  let h1 := cids.foldl leaveCam s.hub
  let h2 := { h1 with forks := h1.forks.map (fun n => if n.lslot = k ∧ !freeFiring s.hub n.pasid k then { n with next := n.total, back := [] } else n)
                      flight := h1.flight.filter away, refused := h1.refused.filter away }
  let h3 : Hub := match launchOf h2 k with
    | some la => putLaunch h2 k { la with stage := .failed status, pending := [], saved := 0
                                          insts := la.insts.map (fun (i : Nat × InstRec) => (i.1, { i.2 with toks := [], chans := [] })) }
    | none => h2
  let cut := fun (u : Cluster) => { u with saves := u.saves.filter (fun v => v.2.lslot.toNat != k || v.2.free) }
  let cutChan := fun (x : Chan) =>
    { x with toks := x.toks.filter (fun t => t.own != some k && !(entVal x.entry && entLslot x.entry == k)) }
  let h4 : Hub := { h3 with tables := { h3.tables with slots := cutSlots h3.tables.slots k } }
  let clus := s.clus.map (fun e => (e.1, cut e.2))
  let cores := s.cores.map (fun e => (e.1, { e.2 with chans := (e.2.chans.map (fun ch => (ch.1, cutChan ch.2))).filter (fun ch => ch.2 != emptyChan) }))
  let s1 := { s with ctxs := ctxs, hub := h4, clus := clus, cores := cores }
  match launchOf s.hub k with
  | some la => if la.pending.isEmpty then s1 else putPending la s1 0 []
  | none => s1

/-- An uncontained error of a firing (R401): with RBK the device rolls back, else the firing and its launch end. -/
def uncontained (s0 : State) (cid : Nat) (code : BitVec 8) (cause : BitVec 8) : State :=
  let c := mget emptyCtx s0.ctxs cid
  let s := checkPcb s0 c.pasid.toNat
  if pcbFlag s c.pasid.toNat 1 then dueRollback s cause
  else
    let f := faultOf code
    let s1 := { s with ctxs := mset emptyCtx s.ctxs cid (endWith f c), hub := leaveCam s.hub cid }
    if c.free then s1 else failLaunch s1 c.lslot.toNat f 2

end Sys2Proof.Machine
end

