-- ==== Sys2Proof/Machine/Translate.lean ====
section
/-! DEFINITION. Page walks, ATS and PRI, the fault queue's outcomes, and the shared state of the engines that translate
(R265, R340, R377-R391). -/
namespace Sys2Proof.Machine
open Sys2Proof

/-! ## Engine queues -/

/-- The queue of an engine, head first. -/
def copyQ (s : State) : CopyEngine → List CopyCmd
  | .clus c second => if second then (mget emptyCluster s.clus c).q1 else (mget emptyCluster s.clus c).q0
  | .bulk d => (mget emptyDomain s.doms d).bulk

/-- The queue of an engine replaced. -/
def setCopyQ (s : State) (e : CopyEngine) (q : List CopyCmd) : State :=
  match e with
  | .clus c second =>
      let u := mget emptyCluster s.clus c
      { s with clus := mset emptyCluster s.clus c (if second then { u with q1 := q } else { u with q0 := q }) }
  | .bulk d => { s with doms := mset emptyDomain s.doms d { mget emptyDomain s.doms d with bulk := q } }

/-- The head command of a queue replaced. -/
def setHead (s : State) (e : CopyEngine) (k : CopyCmd) : State := setCopyQ s e (k :: (copyQ s e).drop 1)

/-- A context of the state. -/
def ctxOf (s : State) (cid : Nat) : Ctx := mget emptyCtx s.ctxs cid

/-- A context replaced. -/
def putCtx (s : State) (cid : Nat) (c : Ctx) : State := { s with ctxs := mset emptyCtx s.ctxs cid c }

/-- A deferred fault of a completed operation (R209): the first stands, later ones are counted in it. -/
def addDef (o : Option DefFault) (f : DefFault) : DefFault :=
  match o with
  | none => f
  | some g => { g with merged := if g.merged = 255 then 255 else g.merged + 1 }

/-- A deferred fault becomes pending in a class: 0 LD, 1 ST, 2 CP, 3 TL. -/
def Ctx.defer (c : Ctx) (cls : Nat) (f : DefFault) : Ctx :=
  match cls with
  | 0 => { c with defLD := some (addDef c.defLD f) }
  | 1 => { c with defST := some (addDef c.defST f) }
  | 2 => { c with defCP := some (addDef c.defCP f) }
  | _ => { c with defTL := some (addDef c.defTL f) }

/-- A part of a command of a context completes: `bits` are the queues it counted in, `cls` its CNT class (R264). -/
def Ctx.cmdDone (c : Ctx) (seq : Nat) (bits : BitVec 4) (cls : Nat) : Ctx :=
  let hit := c.cmds.any (fun k => k.seq == seq)
  let cmds := c.cmds.map (fun k => if k.seq = seq then { k with queues := k.queues &&& ~~~bits } else k)
  let wrote := c.cmds.any (fun k => k.seq == seq && k.writesG)
  if hit then
    { c with cmds := cmds.filter (fun k => k.queues != 0), engG := c.engG || (cls == 2 && wrote)
             engT := c.engT || (cls == 3 && wrote) }.cntDec cls
  else c

/-- The tile status of a command cancelled by KILLF or with its COPYT (R273, R335). -/
def statusCan : BitVec 8 := 8
/-- The tile status of a command that ended on a fault. -/
def statusFlt : BitVec 8 := 4

/-- One member of a copy that ends on a fault (R265, R273): class CP, with tile id 0, and class TL for a COPYT (log entry 120). -/
def memberFault (f : DefFault) (c : Ctx) (m : Member) : Ctx :=
  let c1 := (c.defer 2 f).cmdDone m.seq m.bits 2
  match m.image with
  | some t => (c1.defer 3 { f with status := statusCan, tid := t.tid }).cmdDone m.seq 4 3
  | none => c1

/-- The tile command that a core has outstanding under its configuration falls by one (R276). -/
def tileEnded (s : State) (core : Nat) : State :=
  let k := mget emptyCore s.cores core
  { s with cores := mset emptyCore s.cores core { k with tileOut := k.tileOut - 1 } }

/-- A member of a copy that ends on a fault, with its core's count of tile commands. -/
def memberEnds (f : DefFault) (s : State) (m : Member) : State :=
  let s1 := putCtx s m.cid (memberFault f (ctxOf s m.cid) m)
  if m.image.isSome then tileEnded s1 m.core else s1

/-- The head command of an engine ends with a fault of its class; its writes stand. -/
def engineFault (s : State) (e : CopyEngine) (code : BitVec 8) (addr : Word) : State :=
  match copyQ s e with
  | [] => s
  | k :: rest =>
      let f : DefFault := { code := code, addr := addr, merged := 0, status := 0, tid := 0 }
      setCopyQ (k.members.foldl (memberEnds f) s) e rest

/-! ## Work of command records (R438) -/

/-- The work item of key k. -/
def workOf (s : State) (k : Nat) : Option Work := (s.hub.tables.works.find? (fun e => e.1 == k)).map (·.2)

/-- The work item of key k replaced. -/
def putWork (s : State) (k : Nat) (w : Work) : State :=
  { s with hub := { s.hub with tables := { s.hub.tables with works := minsert (mdel s.hub.tables.works k) k w } } }

/-- The access code of a work item's fault (R376): 3 for the bulk engine of a COPYQ, else that of the access. -/
def workAcc (w : Work) (a : Acc) : BitVec 2 :=
  match w.work, w.finished with
  | .copyq .., none => 3
  | _, _ => accCode a

/-- The access code of the access that a work item waits for. -/
def workAccOf (s : State) (k : Nat) : BitVec 2 :=
  match workOf s k with
  | some w => (match w.walking with | some (_, a) => workAcc w a | none => 0)
  | none => 0

/-- A fault that ends a work item with status FAILED, or drops its completion when the work is done (R438). -/
def workFault (s : State) (k : Nat) (code : BitVec 8) (addr : Word) (acc : BitVec 2) : State :=
  match workOf s k with
  | none => s
  | some w =>
      let w1 := { w with parked := none, walking := none, due := none
                         finished := some (match w.finished with | some x => x | none => 2)
                         caddr := if w.finished.isSome then 0 else w.caddr, msie := w.msie && w.finished.isNone }
      freeRecord (putWork s k w1) code addr acc w.pasid hubScid 0 0

/-! ## Requesters -/

/-- What a walker is to translate. -/
def askerOf (s : State) : Walker → Option Asker
  | .ctx cid =>
      let c := ctxOf s cid
      match c.status with
      | .parked (.walk va k) => some { pasid := c.pasid, va := va, acc := k, priv := stPRIV c.stat, cid := cid }
      | _ => none
  | .engine e =>
      match copyQ s e with
      | k :: _ =>
          (match k.walking, k.parked, k.due with
           | some (va, a), none, none =>
               some { pasid := k.pasid, va := va, acc := a, priv := k.priv.toNat, cid := (k.members.head?.map (·.cid)).getD 0 }
           | _, _, _ => none)
      | [] => none
  | .work n =>
      match workOf s n with
      | some w =>
          (match w.walking, w.parked, w.due with
           | some (va, a), none, none =>
               some { pasid := w.pasid, va := va, acc := a, priv := if w.pasid = 0 then 1 else 0, cid := hubScid }
           | _, _, _ => none)
      | none => none

/-- The requester that a walker is on the fault queue. -/
def requesterOf : Walker → Requester
  | .ctx c => .ctx c
  | .engine e => .engine e
  | .work k => .work k

/-- A walker goes on: a context executes its instruction again, an engine and a work item resume. -/
def resumeWalker (s : State) : Walker → State
  | .ctx cid => putCtx s cid { ctxOf s cid with status := .issuing }
  | .engine e =>
      match copyQ s e with
      | k :: _ => setHead s e { k with walking := none, parked := none }
      | [] => s
  | .work n =>
      match workOf s n with
      | some w => putWork s n { w with walking := none, parked := none }
      | none => s

/-- The hub time at which a walker missed (R376). -/
def missOf (s : State) : Walker → Nat
  | .ctx cid => (ctxOf s cid).parkedAt
  | .engine e => ((copyQ s e).head?.map (·.missAt)).getD 0
  | .work n => ((workOf s n).map (·.missAt)).getD 0

/-- The requesters that a walker stands for (R340, R385): each member of a combined copy is one. -/
def headCount (s : State) : Walker → Nat
  | .engine e => max 1 (((copyQ s e).head?.map (·.members.length)).getD 1)
  | _ => 1

/-- What an engine or a work item tells the fault queue; a context says it by itself (`Loc.ask`). The flags are those of the context that the
record names (R376); `others` requesters wait on the same walk. -/
def askOf (s : State) (w : Walker) (pasid : BitVec 20) (cid others : Nat) (k : Acc) : CamAsk :=
  let c := ctxOf s cid
  { pasid := pasid, who := requesterOf w, cidRec := cid, irv := c.irv, pfx := stPFXV c.stat, dsl := stDS c.stat != 0, miss := missOf s w
    merged := others + headCount s w - 1, acc := k }

/-- An engine or a work item parks on an entry, or waits for room in the CAM with its fault (R385). -/
def parkWalker (s : State) (w : Walker) (r : Option Nat) (code : BitVec 8) : State :=
  let due := if r.isNone then some code else none
  match w with
  | .engine e => (match copyQ s e with | k :: _ => setHead s e { k with parked := r, due := due } | [] => s)
  | .work n => (match workOf s n with | some x => putWork s n { x with parked := r, due := due } | none => s)
  | .ctx _ => s

/-- The access code of the fault of an engine or of a work item (R376). -/
def walkerAcc (s : State) : Walker → BitVec 2
  | .work n => workAccOf s n
  | _ => 3

/-- A walker takes a fault of the queue, code 0x10 or 0x12, with the number of other requesters that its walk served (R340, R371, R385).
At PRIV 2 it stops the context (R462). -/
def queueFault (s : State) (w : Walker) (a : Asker) (code : BitVec 8) (merged : Nat) : State :=
  match w with
  | .ctx cid =>
      let l := s.loc cid
      if l.priv = 2 then s.putLoc (raise l { faultOf code with addr := BitVec.ofNat 64 (a.va / 2 ^ 14 * 2 ^ 14), acc := accCode a.acc })
      else let (l1, p) := camPark l a.va code a.acc merged; sendRecs (s.putLoc (l1.parkAs p))
  | _ =>
      let (h, r) := camTake s.hub (askOf s w a.pasid a.cid merged a.acc) a.va code (walkerAcc s w)
      sendRecs (parkWalker { s with hub := h } w r code)

/-- A walker takes a fault (R340, R371, R438). -/
def walkerFault (s : State) (w : Walker) (a : Asker) (code : BitVec 8) (merged : Nat) : State :=
  if code = 0x10 ∨ code = 0x12 then queueFault s w a code merged
  else
    let addr : Word := BitVec.ofNat 64 (if code = 0x32 then a.va else a.va / 2 ^ 14 * 2 ^ 14)
    match w with
    | .ctx cid => s.putLoc (raise (s.loc cid) { faultOf code with addr := addr, acc := accCode a.acc })
    | .engine e => engineFault s e code addr
    | .work n => workFault s n code addr (workAccOf s n)

/-! ## Filling the caches (R380, R381) -/

/-- Whether two cached translations answer for the same addresses and requester. -/
def sameTlb (t u : Tlb) : Bool := t.pasid == u.pasid && t.vpage == u.vpage && t.quarter == u.quarter && t.priv == u.priv

/-- A translation put into a cache of `cap` entries; a full cache loses one that the spec does not name. -/
def fillTlb (cap tick : Nat) (ts : List Tlb) (t : Tlb) : List Tlb :=
  let rest := ts.filter (fun u => !sameTlb t u)
  t :: (if rest.length ≥ cap then dropAt rest (Config.freeChoice tick % rest.length) else rest)

/-- The domain whose translation cache serves a walker; works use the hub's, kept under number 8. -/
def walkDom : Walker → Nat
  | .ctx cid => domOfCore (coreOfCid cid)
  | .engine (.clus c _) => domOfCore (c * 8)
  | .engine (.bulk d) => d
  | .work _ => 8

/-- The number of leaves and pointers that a translation cache holds (R380). -/
def domCap : Nat := 8192

/-- One of the leaves and pointers of a translation cache leaves it. -/
def dropOne (x : List Tlb × List PtrEnt) (choice : Nat) : List Tlb × List PtrEnt :=
  let n := x.1.length + x.2.length
  if n = 0 then x
  else if choice % n < x.1.length then (dropAt x.1 (choice % n), x.2) else (x.1, dropAt x.2 (choice % n - x.1.length))

/-- Whether two cached pointers answer for the same walk. -/
def samePtr (p q : PtrEnt) : Bool := q.pasid == p.pasid && q.level == p.level && q.prefx == p.prefx

/-- A leaf and pointers put into a translation cache, which holds 8,192 leaves and pointers together (R380); a full one loses entries that the
spec does not name. -/
def fillDom (tick : Nat) (m : Domain) (t : Tlb) (ptrs : List PtrEnt) : Domain :=
  let old := (m.tlb.filter (fun u => !sameTlb t u), m.ptrs.filter (fun p => !ptrs.any (samePtr p)))
  let excess := old.1.length + old.2.length + 1 + ptrs.length - domCap
  let x := (upto excess).foldl (fun x i => dropOne x (Config.freeChoice (tick + i))) old
  { m with tlb := t :: x.1, ptrs := ptrs ++ x.2 }

/-- A translation reaches every cache on the walker's way. -/
def fillCaches (s : State) (w : Walker) (t : Tlb) (ptrs : List PtrEnt) : State :=
  let d := walkDom w
  let s1 := { s with doms := mset emptyDomain s.doms d (fillDom s.tick (mget emptyDomain s.doms d) t ptrs), tick := s.tick + 4 }
  let clusFill := fun (s : State) (c : Nat) =>
    let u := mget emptyCluster s.clus c
    { s with clus := mset emptyCluster s.clus c { u with tlb := fillTlb 256 s.tick u.tlb t } }
  match w with
  | .ctx cid =>
      let k := coreOfCid cid
      let s2 := clusFill s1 (clusOfCore k)
      let co := mget emptyCore s2.cores k
      { s2 with cores := mset emptyCore s2.cores k { co with utlb := fillTlb 16 s2.tick co.utlb t } }
  | .engine (.clus c _) => clusFill s1 c
  | _ => s1

/-- A request to the host for a translation (R382), unless one is out already. -/
def askHost (s : State) (w : Walker) (a : Asker) : State :=
  let r : AtsReq := { who := w, pasid := a.pasid.toNat, va := a.va, acc := a.acc, priv := decide (1 ≤ a.priv), dropped := false }
  if s.hub.ats.any (fun x => x.who == w) then s else { s with hub := { s.hub with ats := s.hub.ats ++ [r] } }

/-- A walk ends for one walker (R379). -/
def endWalk (s : State) (w : Walker) (a : Asker) (merged : Nat) : State :=
  match walk s a (mget emptyDomain s.doms (walkDom w)).ptrs with
  | .leaf t pte word ptrs =>
      let (s1, done) := setAD s a pte word
      if done then resumeWalker (fillCaches s1 w t ptrs) w else s1
  | .code c => walkerFault s w a c merged
  | .host => askHost s w a
  | .rollback => dueRollback s 4

/-- Every walker of the device that may wait for a walk. -/
def allWalkers (s : State) : List Walker :=
  s.ctxs.map (fun e => .ctx e.1) ++ s.clus.flatMap (fun e => [.engine (.clus e.1 false), .engine (.clus e.1 true)]) ++
  s.doms.map (fun e => .engine (.bulk e.1)) ++ s.hub.tables.works.map (fun e => .work e.1)

/-- The walkers that share the walk of one: misses of the same PASID and page within its domain (R380), the first to miss first. -/
def sharers (s : State) (w : Walker) (a : Asker) : List Walker :=
  let same := fun (x : Walker) =>
    walkDom x == walkDom w && !s.hub.ats.any (fun r => r.who == x) && (match askerOf s x with | some b => b.pasid == a.pasid && b.va / 2 ^ 14 == a.va / 2 ^ 14 | none => false)
  sortBy (fun x y => decide (missOf s x ≤ missOf s y)) ((allWalkers s).filter same)

/-- A shared walk ends for one of its walkers, with the number of the others. -/
def endShared (n : Nat) (s : State) (x : Walker) : State :=
  match askerOf s x with
  | some b => endWalk s x b n
  | none => s

/-- How many requesters some walkers stand for. -/
def headCounts (s : State) (ws : List Walker) : Nat := ws.foldl (fun n w => n + headCount s w) 0

/-- PAGE_WALK: nothing happens unless the walker waits for a walk, which every miss of its page in the domain shares (R380). The record that the
first of them makes counts all the others (R385). -/
def pageWalkS (s : State) (w : Walker) : State :=
  match askerOf s w with
  | some a =>
      let ws := sharers s w a
      let all := headCounts s ws
      ws.foldl (fun s x => endShared (all - headCount s x) s x) s
  | none => s

/-! ## ATS and PRI (R381-R383, R388) -/

/-- Whether a host answer grants an access (R381). -/
def AtsAnswer.grants (x : AtsAnswer) : Acc → Bool
  | .read => x.r
  | .write => x.w
  | .atomic => x.r && x.w
  | .fetch => x.x

/-- The translation that a host answer fills for one quarter of a page (R381). -/
def hostTlb (r : AtsReq) (x : AtsAnswer) : Tlb :=
  { pasid := r.pasid, vpage := r.va / 2 ^ 14, frame := hostBase + x.hpa / 2 ^ 12 * 2 ^ 12, quarter := some (r.va / 2 ^ 12 % 4)
    r := x.r, w := x.w, x := x.x, u := false, g := false, nc := false, trk := false, d := true, priv := x.priv }

/-- ATS_COMPLETION of the k-th request (R382). A request that an invalidation overtook is walked again. -/
def atsDone (s : State) (k : Nat) (ans : Option AtsAnswer) : State :=
  match s.hub.ats[k]? with
  | none => s
  | some r =>
      let s1 := { s with hub := { s.hub with ats := dropAt s.hub.ats k } }
      match askerOf s1 r.who with
      | none => s1
      | some a =>
          if r.dropped then s1
          else
            match ans with
            | some x =>
                if AtsAnswer.grants x r.acc && (!r.priv || x.priv) then resumeWalker (fillCaches s1 r.who (hostTlb r x) []) r.who
                else walkerFault s1 r.who a 0x12 0
            | none => walkerFault s1 r.who a 0x12 0

/-- A requester of an entry that REPLAY or a PRI Success takes resumes (R228, R238): its access walks again (R384). A TRAP retires as it
resumes: it counts toward its deadline, which stops it with 0x09 when nothing is left of it (R206; log entry 92), and an illegal pair that it
heads is counted (R124). No loop end test follows it (log entry 54). -/
def resumeReq (ret : Word) (s : State) : Requester → State
  | .ctx cid =>
      let c := ctxOf s cid
      (match c.status with
       | .parked (.fault _ va k) => putCtx s cid { c with status := .parked (.walk va k), parkedAt := s.now }
       | .parked (.trap _) =>
           let l := s.loc cid
           if c.dleft = 0 then s.putLoc (watchdog l)
           else
             s.putLoc { l.countPair with
               ctx := { c with status := .issuing, a := c.a.extractLsb' 64 64 ++ ret, pc := c.pc + 1, tgtCheck := false, pairBad := false
                               dleft := c.dleft - 1 } }
       | _ => s)
  | .engine e => (match copyQ s e with | k :: _ => setHead s e { k with parked := none, missAt := s.now } | [] => s)
  | .work n => (match workOf s n with | some w => putWork s n { w with parked := none, missAt := s.now } | none => s)

/-- The code with which a walker waits for room in the CAM (R385). -/
def waitsCam (s : State) : Walker → Option (Asker × BitVec 8)
  | .ctx cid =>
      let c := ctxOf s cid
      (match c.status with
       | .parked (.camWait va code k) => some ({ pasid := c.pasid, va := va, acc := k, priv := stPRIV c.stat, cid := cid }, code)
       | _ => none)
  | .engine e =>
      (match copyQ s e with
       | k :: _ =>
           (match k.walking, k.due with
            | some (va, a), some code =>
                some ({ pasid := k.pasid, va := va, acc := a, priv := k.priv.toNat, cid := (k.members.head?.map (·.cid)).getD 0 }, code)
            | _, _ => none)
       | [] => none)
  | .work n =>
      (match workOf s n with
       | some w =>
           (match w.walking, w.due with
            | some (va, a), some code =>
                some ({ pasid := w.pasid, va := va, acc := a, priv := if w.pasid = 0 then 1 else 0, cid := hubScid }, code)
            | _, _ => none)
       | none => none)

/-- How many requesters wait for room in the CAM with a fault of the same page as an asker (R385). -/
def waitCount (s : State) (ws : List Walker) (a : Asker) : Nat :=
  headCounts s (ws.filter (fun x => match waitsCam s x with | some (b, _) => b.pasid == a.pasid && b.va / 2 ^ 14 == a.va / 2 ^ 14 | none => false))

/-- Those that wait for room in the CAM take it, the first to miss first (R385; log entry 100); a record counts all that wait on its page. -/
def serveCam (s : State) : State :=
  let ws := sortBy (fun x y => decide (missOf s x ≤ missOf s y)) ((allWalkers s).filter (fun w => (waitsCam s w).isSome))
  ws.foldl (fun s w => match waitsCam s w with | some (a, code) => queueFault s w a code (waitCount s ws a - headCount s w) | none => s) s

/-- An entry leaves the CAM, and a fault that waits takes its place (R385). -/
def freeCam (s : State) (i : Nat) : State := serveCam { s with hub := { s.hub with cam := mdel s.hub.cam i } }

/-- A requester takes 0x11 (R383). -/
def denyReq (page : Nat) (s : State) (q : Requester) : State :=
  let addr : Word := BitVec.ofNat 64 (page * 2 ^ 14)
  match q with
  | .ctx cid =>
      let l := s.loc cid
      (match l.ctx.status with
       | .parked (.fault _ _ k) => s.putLoc (raise l { faultOf 0x11 with addr := addr, acc := accCode k })
       | _ => s)
  | .engine e => engineFault s e 0x11 addr
  | .work k => workFault s k 0x11 addr (workAccOf s k)

/-- The response to the oldest page request of a group is taken (R383): the entry, which leaves the CAM, unless it is live no longer. -/
def priTake (s : State) (i : Nat) : State × Option CamEntry :=
  match s.hub.priOut.find? (fun x => x.1 == i) with
  | none => (s, none)
  | some x =>
      let s1 := { s with hub := { s.hub with priOut := s.hub.priOut.eraseP (fun y => y.1 == i) } }
      match s1.hub.cam.find? (fun e => e.1 == i && e.2.seq == x.2 && e.2.code == 0x12) with
      | some e => ({ s1 with hub := { s1.hub with cam := mdel s1.hub.cam i } }, some e.2)
      | none => (s1, none)

/-- Waiting page requests go out in order of creation while there is room (R383). -/
def priPump (s : State) : State :=
  { s with hub := (unsentPri s.hub).foldl (fun h e =>
      if priRoom h then priSend { h with cam := mset noCam h.cam e.1 { e.2 with priSent := true } } e.1 e.2 else h) s.hub }

/-- PRI Success (R383): the hub replays the entry. -/
def priOk (s : State) (i : Nat) : State :=
  match priTake s i with
  | (s1, some e) => serveCam (priPump (e.reqs.foldl (resumeReq 0) s1))
  | (s1, none) => priPump s1

/-- What a denied page request does to its entry (R383). -/
def priDeny (s : State) (i : Nat) : State :=
  match priTake s i with
  | (s1, some e) => e.reqs.foldl (denyReq e.page) s1
  | (s1, none) => s1

/-- PRI Invalid Request (R383). -/
def priBad (s : State) (i : Nat) : State := serveCam (priPump (priDeny s i))

/-- PRI Response Failure (R383): as Invalid Request, and no further page requests. A response for an entry that is no longer live is discarded. -/
def priFail (s : State) (i : Nat) : State :=
  match priTake s i with
  | (s1, some e) => let s2 := e.reqs.foldl (denyReq e.page) s1; serveCam { s2 with hub := { s2.hub with priStopped := true } }
  | (s1, none) => priPump s1

/-- PRI is cleared and enabled again with an allocation (R383): the waiting requests go out in order. -/
def priAgain (alloc : Nat) (s : State) : State := priPump { s with hub := { s.hub with priStopped := false, priAlloc := alloc } }

/-! ## Dropping translations (R233, R388) -/

/-- Every translation structure of the device filtered. I-caches name lines by virtual address, so they start afresh. -/
def dropTlbs (s : State) (keep : Tlb → Bool) (keepPtr : PtrEnt → Bool) : State :=
  { s with cores := s.cores.map (fun e => (e.1, { e.2 with utlb := e.2.utlb.filter keep, icache := [] }))
           clus := s.clus.map (fun e => (e.1, { e.2 with tlb := e.2.tlb.filter keep }))
           doms := s.doms.map (fun e => (e.1, { e.2 with tlb := e.2.tlb.filter keep, ptrs := e.2.ptrs.filter keepPtr })) }

/-- Whether a host-filled translation overlaps a range of a PASID (R388). -/
def hostHit (pasid va len : Nat) (t : Tlb) : Bool :=
  match t.quarter with
  | none => false
  | some q =>
      let a := t.vpage * 2 ^ 14 + q * 2 ^ 12
      t.pasid == pasid && decide (a < va + len) && decide (va < a + 2 ^ 12)

/-- Whether n bytes at an address meet a range. -/
def rangeHit (va len a n : Nat) : Bool := decide (a < va + len) && decide (va < a + n)

/-- Whether a context has an access in flight that reaches the host through a page of a range (R388). -/
def hostInFlight (pasid va len : Nat) (c : Ctx) : Bool :=
  c.pasid.toNat == pasid &&
  (c.stq.any (fun g => isHostMem g.pa && rangeHit va len (addrOf g.va) g.bytes.length) ||
   c.aldq.any (fun g => isHostMem g.pa && rangeHit va len (addrOf g.va) g.n) ||
   (match c.status with
    | .parked (.load a pa n ..) => isHostMem pa && rangeHit va len (addrOf a) n
    | .parked (.atomic r) => isHostMem r.pa && rangeHit va len (addrOf r.va) r.bytes
    | _ => false))

/-- Whether a held store reaches the host through a page of a range (R351, R388). -/
def heldInFlight (pasid va len : Nat) (h : Held) : Bool :=
  match h.item, h.page with
  | .store pa m .., some (p, a) | .completion pa m _, some (p, a) => isHostMem pa && p == pasid && !m.isEmpty && rangeHit va len a m.length
  | _, _ => false

/-- Whether a prefetch of a core reaches the host through a page of a range. -/
def prefInFlight (pasid va len : Nat) (f : PrefFill) : Bool := isHostMem f.key && f.pasid == pasid && rangeHit va len f.va 64

/-- Whether any access that used a translation of a range is in flight to the host (R388). -/
def hostBusy (s : State) (pasid va len : Nat) : Bool :=
  s.ctxs.any (fun e => hostInFlight pasid va len e.2) || s.hub.held.any (heldInFlight pasid va len) ||
  s.cores.any (fun k => k.2.prefs.any (prefInFlight pasid va len))

end Sys2Proof.Machine
end

