-- ==== Sys2Proof/Machine/Perform.lean ====
section
/-! DEFINITION. When accesses are performed: load data, stores, atomics, remote stores, WAITA, prefetches, line fetches, walks (R104,
R107, R199, R206, R247-R261, R346, R356, R359). -/
namespace Sys2Proof.Machine
open Sys2Proof

/-! ## The D-cache (R346) -/

/-- A line put into a D-cache of 16 sets of 4; a full set loses a line that the spec does not name. -/
def fillD (tick : Nat) (ds : List DLine) (d : DLine) : List DLine :=
  let rest := ds.filter (fun e => e.line != d.line)
  let set := rest.filter (fun e => e.line % 16 == d.line % 16)
  if set.length ≥ 4 then
    let v := (dropAt set (Config.freeChoice tick % set.length)).map (·.line)
    d :: rest.filter (fun e => e.line % 16 != d.line % 16 || v.contains e.line)
  else d :: rest

/-- The D-cache line of a core that holds a key. -/
def dlineOf (s : State) (core key : Nat) : Option DLine := (mget emptyCore s.cores core).dcache.find? (fun d => d.line == key / 64)

/-- The stores to G of some contexts that are not performed yet, in the order in which they retired. -/
def pendingOf (cs : List Ctx) : List GStore := sortBy (fun x y => decide (x.seq ≤ y.seq)) (cs.flatMap (fun c => c.stq))

/-- The stores of a core that are not performed yet. -/
def corePending (s : State) (core : Nat) : List GStore := pendingOf ((upto 8).map (fun i => ctxOf s (core * 8 + i)))

/-- The line of a key as its home holds it, with the core's own pending stores, which a present line has taken (R249). -/
def lineAtHome (s : State) (core key : Nat) : DLine :=
  let d : DLine := { line := key / 64, bytes := homeBytes s (key / 64 * 64) 64, pois := granPois s key }
  ((corePending s core).foldl (fun ds g => putLine ds g.pa g.bytes g.pois) [d]).headD d

/-- A read served by the home refreshes the core's copy of the line (R359); with `alloc` it brings the line in (R346). -/
def refreshD (s : State) (core key : Nat) (alloc : Bool) : State :=
  if isHub key ∨ isPcie key then s
  else
    let c := mget emptyCore s.cores core
    if alloc ∨ c.dcache.any (fun d => d.line == key / 64) then
      { s with cores := mset emptyCore s.cores core { c with dcache := fillD s.tick c.dcache (lineAtHome s core key) }, tick := s.tick + 1 }
    else s

/-! ## Order within a context -/

/-- Whether one of some stores writes some of these bytes (R244, R249). -/
def ownPending (q : List GStore) (pa n : Nat) : Bool := q.any (fun g => decide (pa < g.pa + g.bytes.length) && decide (g.pa < pa + n))

/-- Whether the earlier stores of a context have left the hold (R352). -/
def holdClear (h : Hub) (cid : Nat) : Bool := h.held.all (fun x => x.by_ != some cid)

/-- Whether nothing that a context issued before its access number `seq` is in flight (R244): stores, asynchronous loads, remote stores. -/
def quietBefore (c : Ctx) (seq : Nat) : Bool :=
  c.stq.all (fun g => decide (seq ≤ g.seq)) && c.aldq.all (fun a => decide (seq ≤ a.seq)) && c.rstq.all (fun m => decide (seq ≤ m.seq))

/-- Whether a release of a context may be performed at a scope, when `quiet` says that its earlier accesses have been performed. -/
def relMay (h : Hub) (cid : Nat) (quiet : Bool) : Option Scope → Bool
  | none => true
  | some sc => quiet && (sc != .sys || holdClear h cid)

/-- An acquire by a context of a line of G (R355, R356). -/
def acquireLine (s : State) (cid pa : Nat) : Option Scope → State
  | some sc =>
      if Scope.wide sc then
        let (s1, sig) := acquireAt s (pa / 64)
        s1.putLoc ((s1.loc cid).acquire sig)
      else s
  | none => s

/-- A datum lands and the context executes its instruction again. -/
def land (s : State) (cid : Nat) (ds : List Landed) : State :=
  let c := ctxOf s cid
  putCtx s cid { c with status := .issuing, landed := c.landed ++ ds }

/-- The 16-byte pieces of a read. -/
def pieces (va : Word) (bs : List Byte) (pois : Bool) : List Landed :=
  if bs.length ≤ 16 then [{ va := va, n := bs.length, val := quadOf bs, pois := pois, flag := false, atom := false, eq := false }]
  else (upto (bs.length / 16)).map (fun i =>
    { va := va + BitVec.ofNat 64 (16 * i), n := 16, val := quadOf ((bs.drop (16 * i)).take 16), pois := pois, flag := false, atom := false, eq := false })

/-! ## LOAD_DATA_ARRIVAL (R247, R248) -/

/-- The read of a parked context: from its D-cache where it may, else from the home, once the core's own stores to its bytes are performed
there (R359). -/
def loadSync (s : State) (cid : Nat) : State :=
  let core := coreOfCid cid
  match (ctxOf s cid).status with
  | .parked (.load va pa n home acq nc trk) =>
      let s0 := { s with hub := countClaim s.hub pa trk }
      (match (if home then none else dlineOf s core pa) with
       | some d => land s0 cid (pieces va ((d.bytes.drop (pa % 64)).take n) d.pois)
       | none =>
           if ownPending (corePending s core) pa n then s
           else
             let (s1, bs, po) := homeRead s0 pa n
             let s2 := refreshD s1 core pa (!home && !nc)
             land (acquireLine s2 cid pa acq) cid (pieces va bs po))
  | _ => s

/-- The k-th asynchronous load of a context lands in its buffer (R247), after the core's earlier stores to its bytes. -/
def loadAsync (s : State) (cid k : Nat) : State :=
  let core := coreOfCid cid
  match (ctxOf s cid).aldq[k]? with
  | none => s
  | some a =>
      if ownPending ((corePending s core).filter (fun g => decide (g.seq < a.seq))) a.pa a.n then s
      else
        let (s1, bs, po) := homeRead { s with hub := countClaim s.hub a.pa a.trk } a.pa a.n
        let s2 := refreshD s1 core a.pa (!a.nc)
        let l := s2.loc cid
        let l1 := { l with ctx := { l.ctx with aldq := dropAt l.ctx.aldq k }.cntDec 0 }
        s2.putLoc (l1.writeBuf a.space a.off bs (po || a.pois))

/-! ## STORE_PERFORMED (R244, R249, R250) -/

/-- Whether an access that a store may not overtake is in flight: an earlier store of the core, or an earlier asynchronous load of the context,
to some of its bytes (R244, R249, R359). -/
def storeBarred (s : State) (cid : Nat) (g : GStore) : Bool :=
  ownPending ((corePending s (coreOfCid cid)).filter (fun x => decide (x.seq < g.seq))) g.pa g.bytes.length ||
  (ctxOf s cid).aldq.any (fun a => decide (a.seq < g.seq) && decide (a.pa < g.pa + g.bytes.length) && decide (g.pa < a.pa + a.n))

/-- The write of a store at its home. -/
def storeWrite (cid : Nat) (pasid : BitVec 20) (g : GStore) : HWrite :=
  { pa := g.pa, bytes := g.bytes, stamp := g.stamp, rel := g.rel, sig := g.sig, pois := g.pois, mayHold := !g.irv, atomic := false, hub := false
    by_ := some cid, page := some (pasid.toNat, addrOf g.va) }

/-- The k-th store of a context reaches its home. -/
def storePerf (s : State) (cid k : Nat) : State :=
  let c := ctxOf s cid
  match c.stq[k]? with
  | none => s
  | some g =>
      if storeBarred s cid g ∨ !relMay s.hub cid (quietBefore c g.seq) g.rel then s
      else
        let free := !isHub g.pa && !tracked s.hub g.pa
        let (s1, done) := homeWrite s (storeWrite cid c.pasid g)
        if done then
          let c1 := ctxOf s1 cid
          let c2 := { c1 with stq := dropAt c1.stq k, cir := if free then setBit c1.cir 2 true else c1.cir }
          putCtx { s1 with hub := countClaim s1.hub g.pa g.trk } cid (c2.cntDec 1)
        else { s with hub := s1.hub }

/-! ## ATOMIC_PERFORMED (R256, R257) -/

/-- The new value of an atomic. -/
def atomNew (op : AtomOp) (n : Nat) (old x expected : Nat) : Nat :=
  match op with
  | .add => (old + x) % 2 ^ n
  | .and => old &&& x
  | .or => old ||| x
  | .xor => old ^^^ x
  | .min => if sextI old n ≤ sextI x n then old else x
  | .max => if sextI old n ≥ sextI x n then old else x
  | .umin => Nat.min old x
  | .umax => Nat.max old x
  | .swp => x
  | .cas => if old = expected then x else old

/-- Whether the atomic writes: ACAS does not when it fails. -/
def atomStores (op : AtomOp) (old expected : Nat) : Bool := op != .cas || old == expected

/-- The notify token of an AADD with NZ (R257). -/
def notify (s : State) (cid : Nat) (r : AtomReq) : State :=
  let c := ctxOf s cid
  let t : Token := { bareToken (r.va.setWidth 128) (mkTag cid (adCh r.ntgt) 20) with pasid := c.pasid, sender := c.actor }
  route s { tok := t, kind := .notify, src := coreOfCid cid, dest := .addr r.ntgt, second := none, esc := none }

/-- The old value lands; with NZ, a zero sends the notify token. -/
def atomEnd (s : State) (cid : Nat) (r : AtomReq) (old new : Nat) (po : Bool) : State :=
  let d : Landed := { va := r.va, n := r.bytes, val := BitVec.ofNat 128 old, pois := po, flag := atomStores r.op old (r.expected.toNat % 2 ^ (8 * r.bytes))
                      atom := true, eq := false }
  let s1 := land s cid [d]
  if r.op = .add ∧ r.nz ∧ new = 0 ∧ r.ntgt ≠ 0 then notify s1 cid r else s1

/-- Whether nothing that a context issued is in flight. -/
def quietAll (c : Ctx) : Bool := c.stq.isEmpty && c.aldq.isEmpty && c.rstq.isEmpty

/-- Whether an access that an atomic may not overtake is in flight (R244, R249, R359): a store of the core, or an asynchronous load of the
context, to some of its bytes. -/
def atomBarred (s : State) (cid : Nat) (r : AtomReq) : Bool :=
  ownPending (corePending s (coreOfCid cid)) r.pa r.bytes ||
  (ctxOf s cid).aldq.any (fun a => decide (a.pa < r.pa + r.bytes) && decide (r.pa < a.pa + a.n))

/-- The write of an atomic at its home. -/
def atomWrite (cid : Nat) (c : Ctx) (r : AtomReq) (bs : List Byte) (pois : Bool) : HWrite :=
  { pa := r.pa, bytes := bs, stamp := r.stamp, rel := r.rel, sig := c.sig ||| sigBits r.pa, pois := pois, mayHold := false, atomic := true
    hub := false, by_ := some cid, page := some (c.pasid.toNat, addrOf r.va) }

/-- An atomic in G at its home. One that is to write waits while its write has no room (R411). A failed ACAS writes nothing, and its line joins
no signature. -/
def atomG (s : State) (cid : Nat) (r : AtomReq) : State :=
  let n := 8 * r.bytes
  let old := leVal (homeBytes s r.pa r.bytes)
  let stores := isPcie r.pa || atomStores r.op old (r.expected.toNat % 2 ^ n)
  if atomBarred s cid r ∨ !relMay s.hub cid (quietAll (ctxOf s cid)) r.rel then s
  else
    match (if stores then lacksRoom s (atomWrite cid (ctxOf s cid) r (leBytes r.bytes old) r.pois) else none) with
    | some w => { s with hub := stallFor s.hub w }
    | none =>
        let (s1, bs, po) := homeAtomic s r.pa r.bytes
        let old := leVal bs
        let e := r.expected.toNat % 2 ^ n
        let new := atomNew r.op n old (r.operand.toNat % 2 ^ n) e
        let s2 := acquireLine s1 cid r.pa (acqOf r.ord r.sc)
        let w := atomWrite cid (ctxOf s2 cid) r (leBytes r.bytes new) (po || r.pois)
        let s3 := if atomStores r.op old e then writeThrough s2 w else s2
        let c := ctxOf s3 cid
        let s4 := putCtx s3 cid { c with sig := (if atomStores r.op old e then w.sig else c.sig), cir := setBit c.cir 2 true }
        let s5 := { s4 with hub := countClaim s4.hub r.pa r.trk }
        atomEnd (refreshD s5 (coreOfCid cid) r.pa false) cid r old new po

/-- An atomic in S, or in W, X or Y of the issuing core, which journals it. -/
def atomBuf (s : State) (cid : Nat) (r : AtomReq) : State :=
  let l := s.loc cid
  let sp := spaceOf r.va
  let n := 8 * r.bytes
  if !relMay s.hub cid (quietAll l.ctx) r.rel then s
  else
    let old := leVal (bytesAt (l.buf sp) r.pa r.bytes)
    let po := l.bufPois sp r.pa r.bytes
    let e := r.expected.toNat % 2 ^ n
    let new := atomNew r.op n old (r.operand.toNat % 2 ^ n) e
    let l1 := if atomStores r.op old e then l.writeBuf sp r.pa (leBytes r.bytes new) (po || r.pois) else l
    let l2 := match acqOf r.ord r.sc with
      | some sc => if Scope.wide sc then l1.acquire (BitVec.allOnes 256) else l1
      | none => l1
    atomEnd (s.putLoc (l2.cirSet 2)) cid r old new po

/-- The atomic of a parked context is performed. -/
def atomPerf (s : State) (cid : Nat) : State :=
  match (ctxOf s cid).status with
  | .parked (.atomic r) => if spaceOf r.va = 0 then atomG s cid r else atomBuf s cid r
  | _ => s

/-! ## RST_PERFORM (R260, R261) -/

/-- The element that an RST leaves. -/
def rstNew (op : RstOp) (u : Bool) (w f v : Nat) : Nat :=
  match op with
  | .st => v
  | .add => if u then lowBits (satZ ((f : Int) + v) w) w else lowBits (satS (sextI f w + sextI v w) w) w
  | .or => f ||| v
  | .and => f &&& v

/-- The byte of an element after an RST. -/
def rstByte (m : RstMsg) (old : Byte) : Byte :=
  let lo := m.elem * m.w % 8
  setFld old lo m.w (rstNew m.op m.u m.w (fld old lo m.w) (m.val.toNat % 2 ^ m.w))

/-- The k-th RST of a context is performed at its target. -/
def rstPerf (s : State) (cid k : Nat) : State :=
  let c := ctxOf s cid
  match c.rstq[k]? with
  | none => s
  | some m =>
      let same := fun (x : RstMsg) =>
        if m.space = 4 then x.space == 4 && clusOfCore x.core == clusOfCore m.core else x.space != 4 && x.core == m.core
      if (c.rstq.take k).any same then s
      else
        let c1 := { c with rstq := dropAt c.rstq k }.cntDec 1
        let s1 := putCtx s cid c1
        let off := m.elem * m.w / 8
        if !inService s.hub m.core then s1
        else
          let own := decide (m.core = coreOfCid cid)
          let l := s1.loc (if own then cid else m.core * 8)
          let b := rstByte m (mget 0 (l.buf m.space) off)
          let l1 := if own ∧ m.space ≠ 4 then l.journalWord m.space (off / 16) else l
          let l2 := l1.setBuf m.space (putBytes (l1.buf m.space) off [b])
          let l3 := if m.pois then l2.setWordPois m.space (off / 16) true else l2
          let s2 := s1.putLoc l3
          if m.space = 4 then wakeScratch s2 (clusOfCore m.core) (off / 64) else s2

/-! ## WAITA (R258) -/

/-- The value of a WAITA at its home. -/
def waitaRead (s : State) (cid : Nat) (r : WaitaReq) : State × Nat × Bool :=
  if spaceOf r.va = 0 then
    let (s1, bs, po) := homeRead { s with hub := countClaim s.hub r.pa r.trk } r.pa r.bytes
    (refreshD s1 (coreOfCid cid) r.pa false, leVal bs, po)
  else
    let l := s.loc cid
    (s, leVal (bytesAt (l.buf 4) r.pa r.bytes), l.bufPois 4 r.pa r.bytes)

/-- A WAITA reads its value again and wakes (R258). -/
def waitaLand (s : State) (cid : Nat) (r : WaitaReq) (timedOut : Bool) : State :=
  let (s1, v, po) := waitaRead s cid r
  let s2 := if spaceOf r.va = 0 then acquireLine s1 cid r.pa r.acq
    else match r.acq with
      | some sc => if Scope.wide sc then s1.putLoc ((s1.loc cid).acquire (BitVec.allOnes 256)) else s1
      | none => s1
  land s2 cid [{ va := r.va, n := r.bytes, val := BitVec.ofNat 128 v, pois := po, flag := timedOut, atom := true
                 eq := v % 2 ^ (8 * r.bytes) == r.cmp.toNat % 2 ^ (8 * r.bytes) }]

/-- Whether a store of the waiter's core to its bytes is on its way: the home's value is then older than one that the core has seen (R359). -/
def waitaBusy (s : State) (cid : Nat) (r : WaitaReq) : Bool :=
  spaceOf r.va == 0 && ownPending (corePending s (coreOfCid cid)) r.pa r.bytes

/-- The WAITA of a context that is parked in one. -/
def waitaOf (s : State) (cid : Nat) : Option WaitaReq :=
  match (ctxOf s cid).status with
  | .parked (.waita r) => some r
  | _ => none

/-- WAITA (R258): D, Z and C once a value has landed; else the read and the watch at the home. -/
def waitaR (l : Loc) (i : Instr) (v : View) (tmo : BitVec 5) (o : Ord) (sc : Scope) (s1 : Opd) : Res Loc := do
  let sh := shape i
  let n := View.sc v
  let ptr := l.ea s1 n
  spaceIn l ptr [0, 4] .read
  checkPtr l ptr n n .read
  match l.ctx.landed.find? (fun d => d.va == ptr && d.atom) with
  | some d =>
      let g ← fetchArgs l v 0 sh
      let src : Src := l.based s1 { val := d.val, pois := d.pois, ptr := ptr }
      let l1 := l.take sh { g with a := src }
      let l2 := l1.flags { noFlags with z := some d.eq, c := some d.flag }
      .ok (l2.writeScalar g.dst (8 * n) false d.val src.pois)
  | none => do
      notHub l ptr .read
      let kt ← (if spaceOf ptr = 0 then do let t ← xlate l (addrOf ptr) .read; .ok (t.keyOf (addrOf ptr), t.trk) else .ok (addrOf ptr, true))
      let g ← fetchArgs l v 0 sh
      (if spaceOf ptr = 0 ∧ ownPending (pendingOf (l.ctx :: l.peers)) kt.1 n then parkOn l .stall else .ok ())
      parkOn l (.waita { va := ptr, pa := kt.1, bytes := n, cmp := g.b.val.setWidth 64, tmo := tmo, acq := acqOf o sc, trk := kt.2
                         since := l.now, woken := false })

/-- The read that WAITA makes together with its watch: a value that differs from the comparand lands at once. -/
def waitaFirst (before after : State) : State :=
  match waitaOf before before.cur, waitaOf after before.cur with
  | none, some r =>
      let (_, v, _) := waitaRead after before.cur r
      if v % 2 ^ (8 * r.bytes) ≠ r.cmp.toNat % 2 ^ (8 * r.bytes) then waitaLand after before.cur r false else (waitaRead after before.cur r).1
  | _, _ => after

/-- WAITA (R258). -/
def bodyWaita (v : View) (c : Cond) (tmo : BitVec 5) (o : Ord) (sc : Scope) (d : Opd) (s1 : Opd) (s2 : Opd) : Loc → Res Loc :=
  fun l => waitaR l (.waita v c tmo o sc d s1 s2) v tmo o sc s1

/-- WAITA as an issue of context `cur`. -/
def execWaita (v : View) (c : Cond) (tmo : BitVec 5) (o : Ord) (sc : Scope) (d : Opd) (s1 : Opd) (s2 : Opd) (s : State) :
    Host.Outcome State Fault Refusal :=
  match issue (.waita v c tmo o sc d s1 s2) (bodyWaita v c tmo o sc d s1 s2) s with
  | .next t => .next (waitaFirst s t)
  | r => r

/-- WAITA_WAKE: after a write to the line (R258). -/
def effWaitaWake (cid : Nat) (s : State) : State :=
  match waitaOf s cid with
  | some r => if r.woken ∧ !waitaBusy s cid r then waitaLand s cid r false else s
  | none => s

/-- WAITA_TIMEOUT: 2^(TMO+6) cclk after the park; TMO 31 never times out (R258). -/
def effWaitaTimeout (cid : Nat) (s : State) : State :=
  match waitaOf s cid with
  | some r => if r.tmo.toNat < 31 ∧ r.since + 2 ^ (r.tmo.toNat + 6) ≤ s.now ∧ !waitaBusy s cid r then waitaLand s cid r true else s
  | none => s

/-- WAITA_REREAD: a home whose watch table is full reads again, and may wake the waiter without a write (R258). -/
def effWaitaReread (cid : Nat) (s : State) : State :=
  match waitaOf s cid with
  | some r => if waitaBusy s cid r then s else waitaLand s cid r false
  | none => s

/-- The contexts that wait on a page whose translation goes read their value again at the home and wake, as a home whose watch table is full may
have them (R258), so that none of them reads through the dropped entry later (R233, R388; log entry 32). -/
def landWaits (hit : Ctx → WaitaReq → Bool) (s : State) : State :=
  (s.ctxs.map (·.1)).foldl (fun s cid =>
    match waitaOf s cid with
    | some r => if spaceOf r.va = 0 && hit (ctxOf s cid) r then waitaLand s cid r false else s
    | none => s) s

/-- ATS_INVALIDATION_REQUEST (R388): the entries go; requests in flight for the range are walked again; the completion is sent once no
access that used a dropped entry is in flight, so the event waits while one is. -/
def atsInvalidate (s : State) (pasid va len : Nat) : State :=
  let s0 := landWaits (fun c r => c.pasid.toNat == pasid && isHostMem r.pa && rangeHit va len (addrOf r.va) r.bytes) s
  let s1 := dropTlbs s0 (fun t => !hostHit pasid va len t) (fun _ => true)
  let ats := s1.hub.ats.map (fun r =>
    if r.pasid = pasid ∧ r.va < va + len ∧ va < r.va + 2 ^ 12 then { r with dropped := true } else r)
  let s2 := { s1 with hub := { s1.hub with ats := ats } }
  if hostBusy s2 pasid va len then s2 else emit s2 (.atsDone pasid va)

/-! ## PREF and L1INV (R254, R255) -/

/-- The translation that PREF finds for a line (R254): a cached one, or that of a walk, which fills the caches. A page that is not mapped, or
that the host would have to translate, gives none. -/
def prefXlate (s : State) (cid va : Nat) : State × Option Tlb :=
  let l := s.loc cid
  match l.tlbFind va with
  | some t => (s, if t.grants l.priv .read then some t else none)
  | none =>
      let a : Asker := { pasid := l.ctx.pasid, va := va, acc := .read, priv := l.priv, cid := cid }
      match walk s a l.dom.ptrs with
      | .leaf t pte w ptrs => let (s1, done) := setAD s a pte w; (if done then fillCaches s1 (.ctx cid) t ptrs else s1, some t)
      | .rollback => (dueRollback s 4, none)
      | _ => (s, none)

/-- One line of PREF is asked for: it goes into the LLC, and into the D-cache. -/
def prefLine (cid : Nat) (llc : Bool) (s0 : State) (va : Nat) : State :=
  let (s, r) := prefXlate s0 cid va
  match r with
  | none => s
  | some t =>
      let key := t.keyOf va
      if isHub key ∨ isPcie key then s
      else
        let i := lineInfo s (key / 64)
        let s1 := if i.st = .i then setLine s (key / 64) { i with fly := true } else s
        let c := mget emptyCore s1.cores (coreOfCid cid)
        let f : PrefFill := { pasid := (ctxOf s cid).pasid.toNat, va := va, key := key, trk := t.trk, alloc := !llc && !t.nc }
        { s1 with cores := mset emptyCore s1.cores (coreOfCid cid) { c with prefs := c.prefs ++ [f] } }

/-- The k-th prefetched line of a core arrives (R254): a line that nothing has demanded meanwhile counts as brought in by PREF (R370). -/
def fillMove (core k : Nat) (s : State) : State :=
  let c := mget emptyCore s.cores core
  match c.prefs[k]? with
  | none => s
  | some f =>
      let s1 := { s with cores := mset emptyCore s.cores core { c with prefs := dropAt c.prefs k }, hub := countClaim s.hub f.key f.trk }
      let i := lineInfo s1 (f.key / 64)
      let s2 := if i.st = .i then readLine s1 (f.key / 64) else s1
      let s3 := if i.fly then setLine s2 (f.key / 64) { lineInfo s2 (f.key / 64) with pre := true, fly := false } else s2
      if f.alloc then refreshD s3 core f.key true else s3

/-- PREF of NL lines of G; other spaces are skipped (R254). -/
def prefAll (cid : Nat) (llc : Bool) (ptr : Word) (nl : Nat) (s : State) : State :=
  if spaceOf ptr ≠ 0 then s
  else (upto nl).foldl (fun s i => prefLine cid llc s (addrOf (ptrAdd ptr (BitVec.ofNat 64 (64 * i))) / 64 * 64)) s

/-- PREF (R254). -/
def bodyPref (c : Cond) (s1 : Opd) (nl : BitVec 6) (llc : Bool) : State → Loc → Res (Loc × (State → State)) :=
  fun _ l =>
    let sh := shape (.pref c s1 nl llc)
    let g : Args := { a := l.based s1 (clean 0), b := clean 0, x := clean 0, d := clean 0, dst := .none_ }
    .ok (l.take sh g, prefAll l.cid llc (l.ea s1 64) (nl.toNat + 1))

/-- PREF as an issue of context `cur`. -/
def execPref (c : Cond) (s1 : Opd) (nl : BitVec 6) (llc : Bool) (s : State) : Host.Outcome State Fault Refusal :=
  issueG (.pref c s1 nl llc) (bodyPref c s1 nl llc) s

/-- L1INV (R255). A line whose translation the core no longer holds is reached by invalidating every line, which an eviction may do. -/
def bodyL1inv (c : Cond) (s1 : Opd) (all : Bool) : Loc → Res Loc :=
  fun l => do
    let sh := shape (.l1inv c s1 all)
    let g ← fetchArgs l .d 0 sh
    let l1 := l.take sh g
    let keep := fun (d : DLine) =>
      if all then false
      else match l.tlbFind (fld g.a.val 0 60) with
        | some t => d.line != t.keyOf (fld g.a.val 0 60) / 64
        | none => false
    .ok { l1 with core := { l1.core with dcache := l1.core.dcache.filter keep } }

/-- L1INV as an issue of context `cur`. -/
def execL1inv (c : Cond) (s1 : Opd) (all : Bool) (s : State) : Host.Outcome State Fault Refusal :=
  issue (.l1inv c s1 all) (bodyL1inv c s1 all) s

/-! ## LINE_FETCH (R104, R107) -/

/-- A line that arrives put into the I-cache of 128 lines. -/
def fillI (tick : Nat) (is : List ILine) (e : ILine) : List ILine :=
  let rest := is.filter (fun o => !(o.pasid == e.pasid && o.vline == e.vline))
  e :: (if rest.length ≥ 128 then dropAt rest (Config.freeChoice tick % rest.length) else rest)

/-- Whether the line of a slot index is still to arrive: it is absent, and mismatched fewer than three times in a row. -/
def awaited (l : Loc) (pc : Word) : Bool := (l.ilineAt pc).isNone && decide (l.badAt pc < 3)

/-- The slot after a REP at the program counter, which REP executes (R201). -/
def repSlot (l : Loc) : Option Word :=
  match l.iline with
  | some e => (match decode (slotWord e.bytes (l.ctx.pc.toNat % 5)) with | .ok (.rep _) => some (l.ctx.pc + 1) | _ => none)
  | none => none

/-- The slot whose line a context waits for: its program counter, or the slot that a REP there executes. -/
def awaitedSlot (l : Loc) : Option Word :=
  if l.ctx.status ≠ .issuing ∧ l.ctx.status ≠ .parked .stall then none
  else if awaited l l.ctx.pc then some l.ctx.pc
  else match repSlot l with
    | some pc => if awaited l pc then some pc else none
    | none => none

/-- The line that a context waits for arrives (R104): one that mismatches is discarded and counted. -/
def effLineFetch (cid : Nat) (find : FetchFind) (s : State) : State :=
  let l := s.loc cid
  match awaitedSlot l with
  | none => s
  | some pc =>
      let va := lineVA pc
      match l.tlbFind va with
      | some t =>
          if !t.grants l.priv .fetch ∨ pc.toNat ≥ slotLimit then s
          else if isHub (t.keyOf va) then s.putLoc (raise l (fetchFault 0x06 va))
          else
            let (s1, bs, po) := homeRead { s with hub := countClaim s.hub (t.keyOf va) t.trk } (t.keyOf va) 64
            let ok := (match find with | .sound => lineSound bs | .mismatch => false) || po
            let e : ILine := { pasid := l.ctx.pasid.toNat, vline := va / 64, bytes := bs, pois := po
                               user := t.x && t.admits 0, sup := t.x && t.admits 1 }
            let l1 := s1.loc cid
            if ok then { s1.putLoc { l1 with core := { l1.core with icache := fillI s1.tick l1.core.icache e } } with tick := s1.tick + 1 }
            else s1.putLoc (l1.setBad pc (l1.badAt pc + 1))
      | none => s

/-! ## The events -/

/-- LOOP_END_TEST (R199): the end test that the slot at LEND made due. -/
def effLoopEndTest (cid : Nat) (s : State) : State :=
  let c := ctxOf s cid
  if c.status = .issuing ∧ c.endTest then putCtx s cid (testNow c) else s

/-- LOOP_END_TEST as an event. -/
def execLoopEndTest (cid : Nat) (s : State) : Host.Outcome State Fault Refusal := live s (effLoopEndTest cid s)

/-- LOAD_DATA_ARRIVAL: of the parked read, or of the k-th asynchronous load. -/
def execLoadDataArrival (cid : Nat) (k : Option Nat) (s : State) : Host.Outcome State Fault Refusal :=
  live s (match k with | none => loadSync s cid | some j => loadAsync s cid j)

/-- STORE_PERFORMED. -/
def execStorePerformed (cid k : Nat) (s : State) : Host.Outcome State Fault Refusal := live s (storePerf s cid k)

/-- ATOMIC_PERFORMED. -/
def execAtomicPerformed (cid : Nat) (s : State) : Host.Outcome State Fault Refusal := live s (atomPerf s cid)

/-- RST_PERFORM. -/
def execRstPerform (cid k : Nat) (s : State) : Host.Outcome State Fault Refusal := live s (rstPerf s cid k)

/-- WAITA_WAKE as an event. -/
def execWaitaWake (cid : Nat) (s : State) : Host.Outcome State Fault Refusal := live s (effWaitaWake cid s)

/-- WAITA_TIMEOUT as an event. -/
def execWaitaTimeout (cid : Nat) (s : State) : Host.Outcome State Fault Refusal := live s (effWaitaTimeout cid s)

/-- WAITA_REREAD as an event. -/
def execWaitaReread (cid : Nat) (s : State) : Host.Outcome State Fault Refusal := live s (effWaitaReread cid s)

/-- LINE_FETCH as an event. -/
def execLineFetch (cid : Nat) (find : FetchFind) (s : State) : Host.Outcome State Fault Refusal := live s (effLineFetch cid find s)

/-- PAGE_WALK (R379). -/
def execPageWalk (w : Walker) (s : State) : Host.Outcome State Fault Refusal := live s (pageWalkS s w)

/-- ATS_COMPLETION (R382). -/
def execAtsCompletion (k : Nat) (ans : Option AtsAnswer) (s : State) : Host.Outcome State Fault Refusal := live s (atsDone s k ans)

/-- PRI_SUCCESS (R383). -/
def execPriSuccess (cam : Nat) (s : State) : Host.Outcome State Fault Refusal := live s (priOk s cam)

/-- PRI_INVALID_REQUEST (R383). -/
def execPriInvalidRequest (cam : Nat) (s : State) : Host.Outcome State Fault Refusal := live s (sendRecs (priBad s cam))

/-- PRI_RESPONSE_FAILURE (R383). -/
def execPriResponseFailure (cam : Nat) (s : State) : Host.Outcome State Fault Refusal := live s (sendRecs (priFail s cam))

/-- PRI_REENABLE (R383). -/
def execPriReenable (alloc : Nat) (s : State) : Host.Outcome State Fault Refusal := live s (priAgain alloc s)

/-- ATS_INVALIDATION_REQUEST (R388). -/
def execAtsInvalidationRequest (pasid va len : Nat) (s : State) : Host.Outcome State Fault Refusal := live s (atsInvalidate s pasid va len)

/-- UNDEFINED_OPCODE (R136): fault 0x01 at decode. -/
def execUndefinedOpcode (opc : BitVec 8) (s : State) : Host.Outcome State Fault Refusal :=
  let l := s.loc s.cur
  if s.hub.power = .off ∨ s.hub.power = .bootStopped then .fault .notPowered
  else if s.hub.power = .hold ∨ !l.ctx.runnable then .next s
  else .next (s.putLoc (raise l (faultOf 0x01)))

end Sys2Proof.Machine
end

