-- ==== Sys2Proof/Machine/Tokens.lean ====
section
/-! DEFINITION. Tokens at a core: arrival, refusal, credits, selection of firings, chunks of forks (R75, R211-R213, R222, R294-R300). -/
namespace Sys2Proof.Machine
open Sys2Proof

/-! ## Channels (R294) -/

/-- The credits left in the counter of an OEDGE; none without a counter (R296). -/
def Core.credit (k : Core) (oe : Nat) : Nat := mget 0 k.credits oe - 1
/-- Whether a core holds a counter for an OEDGE. -/
def Core.hasCredit (k : Core) (oe : Nat) : Bool := mget 0 k.credits oe != 0
/-- The counter of an OEDGE set. -/
def Core.setCredit (k : Core) (oe n : Nat) : Core := { k with credits := mset 0 k.credits oe (n + 1) }

/-- Whether a token is a refusal, which lies in the slots reserved for refusals (R211, R294). -/
def isRefusal (t : Token) : Bool := tagBit t 19

/-- The tokens of a firing's quota that it has not popped, on one channel (R300). -/
def quotaOn (c : Ctx) (n : Nat) : List Token :=
  match c.kind with
  | .actor _ =>
      if c.status = .dormant then []
      else (if c.ch0.toNat = n then c.quota0.drop c.pop0 else []) ++ (if c.ch1.map (·.toNat) = some n then c.quota1.drop c.pop1 else [])
  | _ => []

/-- The tokens that lie in the store for a channel: waiting ones and unpopped quota. -/
def heldOn (s : State) (c n : Nat) : List Token :=
  (chanAt s c n).toks ++ (upto 8).flatMap (fun i => quotaOn (ctxOf s (c * 8 + i)) n)

/-- Slots of a channel that are in use, refusals apart. -/
def slotsUsed (s : State) (c n : Nat) : Nat := ((heldOn s c n).filter (fun t => !isRefusal t)).length

/-- The slots of a valid entry: CAP of a mailbox, EDEP of an edge (R294). -/
def entSlots (e : BitVec 256) : Nat := if !entVal e then 0 else if entKnd e then entCap e else entEdep e

/-- Tokens in the shared pool of a core (R294, R296). -/
def poolUsed (s : State) (c : Nat) : Nat :=
  (upto 32).foldl (fun m n => m + (slotsUsed s c n - entSlots (chanAt s c n).entry)) 0

/-! ## Runnability (R298, R299) -/

/-- Whether a firing of channel h is in progress on a core, or saved from it (R298, R305). -/
def firingOf (s : State) (c h : Nat) : Bool :=
  let is := fun (x : Ctx) => (match x.kind with | .actor ch => ch.toNat == h | _ => false) && x.status != .dormant
  (upto 8).any (fun i => is (ctxOf s (c * 8 + i))) ||
  (mget emptyCluster s.clus (clusOfCore c)).saves.any (fun v => v.1 / 8 == c && (match v.2.kind with | .actor ch => ch.toNat == h | _ => false)) ||
  mget 0 (coreAt s c).savedCh h != 0

/-- Whether handler h is runnable (R298). -/
def isRunnable (s : State) (c h : Nat) : Bool :=
  let x := chanAt s c h
  let e := x.entry
  let y := chanAt s c (entIn1 e)
  entVal e && !entSec e && !x.masked && decide (entC0 e ≤ x.toks.length) &&
  (entC1 e == 0 || (entVal y.entry && entSec y.entry && entIn1 y.entry == h && decide (entC1 e ≤ y.toks.length))) &&
  (entOedge e == 0 || decide (entP e ≤ (coreAt s c).credit (entOedge e).toNat)) &&
  (entRent e || !firingOf s c h)

/-- A channel whose handler has just become runnable starts to wait (R299). -/
def noteRunnable (before after : State) (c : Nat) : State :=
  (upto 32).foldl (fun s h =>
    if isRunnable after c h && !isRunnable before c h then putChan s c h { chanAt s c h with since := s.now } else s) after

/-- EP of a handler (R299). -/
def effPri (s : State) (c h : Nat) : Nat :=
  let x := chanAt s c h
  Nat.min 7 (entPri x.entry + (s.now - x.since) / 4096)

/-! ## Arrival (R211, R212, R294, R296, R297) -/

/-- What becomes of a token at its core. -/
inductive Arrival where
  | take | refuse | wait
  | drop (rec : Bool)
  deriving DecidableEq, Repr

/-- The PASID that owns a destination: its launch, or the entry of a neighbour's channel (R211, R212). -/
def ownerOf (s : State) (f : Flight) (c n : Nat) : Option (BitVec 20 × Bool) :=
  let e := (chanAt s c n).entry
  let box := entVal e && entKnd e
  match f.dest with
  | .addr a => (launchOf s.hub (adSlot a)).map (fun la => (la.pasid, la.pasid == 0 && box))
  | .chan .. => if entVal e then some (entPasid e, entPasid e == 0 && box) else none

/-- Whether a token is kept out by the PASID test (R211, R212). A mailbox of service firmware is open to every SEND, not to a SENDN.
Notify tokens are tested as well (log entry 122). -/
def pasidBars (s : State) (f : Flight) (c n : Nat) : Bool :=
  match f.kind with
  | .send | .notify | .copied => (match ownerOf s f c n with | some (p, fw) => p != f.tok.pasid && !fw | none => false)
  | .sendn => (match ownerOf s f c n with | some (p, _) => p != f.tok.pasid | none => false)
  | _ => false

/-- Whether the shared pool of a core has room for what a flight would leave above the slots of its channel (R294, R375). -/
def poolFits (s : State) (c n count : Nat) : Bool :=
  let slots := entSlots (chanAt s c n).entry
  let used := slotsUsed s c n
  decide (poolUsed s c - (used - slots) + (used + count - slots) ≤ 16)

/-- Whether a flight is for a launch that has failed, whose tokens are discarded (R401). -/
def toFailed (s : State) (f : Flight) : Bool := ((tokenOwner s f).bind (launchOf s.hub)).any (fun la => la.failed)

/-- What becomes of a flight that reaches channel n of core c. A start, resume or connection token that a mailbox, or the pool of an unbound
channel, has no room for is dropped, for a mailbox's refusal is never retried (R297). -/
def arrivalOf (s : State) (f : Flight) (c n : Nat) : Arrival :=
  let e := (chanAt s c n).entry
  let full : Arrival := if f.kind = .hub then .drop false else .refuse
  if toFailed s f then .drop false
  else if f.kind = .refusal then .take
  else if pasidBars s f c n then .drop false
  else if !entVal e then (if poolFits s c n f.count then .take else full)
  else if entKnd e then (if slotsUsed s c n + f.count ≤ entCap e then .take else full)
  else
    match f.kind with
    | .send | .sendn => if f.tok.cred then .take else .drop true
    | k => if poolFits s c n f.count then .take else match k with | .copied | .drain => .wait | _ => .refuse

/-- A flight is stored in a channel; the core's clock runs again (R236). Under OWN 3 the escalation time starts, by the IRT entry as it stood
when the event arrived (R389, R392). -/
def storeToken (s : State) (f : Flight) (c n : Nat) : State :=
  let k := coreAt s c
  let x := mget emptyChan k.chans n
  let own := tokenOwner s f
  let toks := x.toks ++ f.toks.map (fun t => { t with own := own })
  let s1 := putCore s c { k with gated := false, chans := mset emptyChan k.chans n { x with toks := toks } }
  let s2 := noteRunnable s s1 c
  match f.esc with
  | some i =>
      let t : EscTimer := { src := i.src, vec := i.vec, core := c, ch := BitVec.ofNat 5 n, payload := f.tok.payload, due := s.now + 2900 * i.esc
                            off := none }
      { s2 with hub := { s2.hub with esc := s2.hub.esc ++ [t] } }
  | none => s2

/-- The core and channel that a flight is on its way to. -/
def targetOf (h : Hub) (f : Flight) : Option (Nat × Nat) :=
  match f.dest with
  | .chan c n => some (c, n.toNat)
  | .addr a => let w := placeWordOf h a; if pst w = 1 then some (plCore w, adCh a) else none

/-- Whether an earlier flight of the same core to the same channel is still on its way (R213), or a refused record waits before a record
(R375). -/
def overtakes (h : Hub) (k : Nat) (f : Flight) : Bool :=
  (h.flight.take k).any (fun g => g.src == f.src && targetOf h g == targetOf h f) ||
  (f.kind == .record && h.refused.any (fun g => g.kind == .record && targetOf h g == targetOf h f))

/-- Deliver a flight at its core. -/
def deliver (s : State) (f : Flight) (c n : Nat) : Option State :=
  if !inService s.hub c then some (dropToken s f.tok false)
  else
    match arrivalOf s f c n with
    | .take => some (storeToken s f c n)
    | .refuse => some (refuse s f)
    | .drop rec => some (dropToken s f.tok rec)
    | .wait => none

/-- TOKEN_ARRIVAL of the k-th flight: it is delivered where its placement entry says now, or forwarded, held or dropped (R240, R289). -/
def effTokenArrival (k : Nat) (s : State) : State :=
  match s.hub.flight[k]? with
  | none => s
  | some f =>
      if overtakes s.hub k f then s
      else
        let s1 := { s with hub := { s.hub with flight := dropAt s.hub.flight k } }
        match targetOf s.hub f with
        | some (c, n) => (deliver s1 f c n).getD s
        | none => route s1 f

/-- CREDIT_RETURN (R296): to the core that holds the producer, or to its instance record. -/
def effCreditReturn (k : Nat) (s : State) : State :=
  match s.hub.creditFly[k]? with
  | none => s
  | some (a, oe) =>
      let s1 := { s with hub := { s.hub with creditFly := dropAt s.hub.creditFly k } }
      let w := placeWordOf s.hub a
      if pst w = 1 then
        let c := plCore w
        let core := coreAt s1 c
        if core.hasCredit oe.toNat then noteRunnable s1 (putCore s1 c (core.setCredit oe.toNat (core.credit oe.toNat + 1))) c else s1
      else if pst w = 2 then
        match launchOf s1.hub (adSlot a) with
        | some la =>
            let r := mget emptyInst la.insts (adInst a)
            let s2 := { s1 with hub := putLaunch s1.hub (adSlot a)
                                  { la with insts := mset emptyInst la.insts (adInst a) { r with credit := r.credit + 1 } } }
            savePut la s2 (instOff (adInst a) + 0x2080) (leBytes 8 (r.credit + 1))
        | none => s1
      else s1

/-- A refused token of some kinds is sent again (R257, R296, R375): it goes in when there is room, and keeps its place among the refused ones
when there is none. Of the records for one channel the oldest goes first. -/
def resend (ok : TokKind → Bool) (k : Nat) (s : State) : State :=
  match s.hub.refused[k]? with
  | none => s
  | some f =>
      let older := (s.hub.refused.take k).any (fun g => g.kind == .record && f.kind == .record && targetOf s.hub g == targetOf s.hub f)
      let s1 := { s with hub := { s.hub with refused := dropAt s.hub.refused k } }
      if !ok f.kind ∨ older then s
      else
        match targetOf s.hub f with
        | some (c, n) =>
            if inService s.hub c ∧ (arrivalOf s f c n = .refuse ∨ arrivalOf s f c n = .wait) then s else (deliver s1 f c n).getD s
        | none => route s1 f

/-! ## Selection (R75, R299, R300) -/

/-- The 8 doublewords of an initial image in X (R75, R292). -/
def imageOf (x : Map Byte) (off : Nat) : Vector Word 8 :=
  Vector.ofFn (fun (i : Fin 8) => BitVec.ofNat 64 (leVal (bytesAt x (off + 8 * i.val) 8)))

/-- A context that wakes: its registers as R75 says. The machine trap registers stay with the context (R231). -/
def wakeState (old : Ctx) (pc : Word) (p : Vector Word 8) (priv dl : Nat) (pasid : BitVec 20) (lslot : BitVec 12) (inst : BitVec 11)
    (kind : FiringKind) : Ctx :=
  { emptyCtx with
    status := .issuing, p := p, stat := BitVec.ofNat 64 (priv * 2 ^ 43), pc := pc, tgtCheck := true, dleft := dl, dl := dl, dlEntry := dl
    kind := kind, pasid := pasid, lslot := lslot, inst := inst
    mtpc := old.mtpc, mtst := old.mtst, mtvec := old.mtvec, mtcode := old.mtcode }

/-- Service firmware runs at PRIV 1, every other process at PRIV 0 (R89, R374). -/
def wakePriv (pasid : BitVec 20) : Nat := if pasid = 0 then 1 else 0

/-- The lowest-numbered dormant context of a core. -/
def freeCtx (s : State) (c : Nat) : Option Nat := ((upto 8).find? (fun i => (ctxOf s (c * 8 + i)).status == .dormant)).map (c * 8 + ·)

/-- The signature of a wake: the unfolded signatures of the quota (R356). -/
def quotaSig (ts : List Token) : BitVec 256 := ts.foldl (fun m t => m ||| sigUnfold t.sig) 0

/-- The entry slot of a firing: a token with EOV replaces its low half (R295). -/
def entrySlot (e : BitVec 256) (ts : List Token) : Word :=
  match ts.find? (fun t => tagBit t 25) with
  | some t => (entEntry e).extractLsb' 32 32 ++ t.tag.extractLsb' 32 32
  | none => entEntry e

/-- Whether a handler entry belongs to a launch that has failed: none of its firings is to start (R401). -/
def entFailed (s : State) (e : BitVec 256) : Bool := (launchOf s.hub (entLslot e)).any (fun la => la.failed && la.pasid == entPasid e)

/-- The picked handler: the highest EP, and among equals the first channel after last_fired (R299). -/
def pickHandler (s : State) (c : Nat) : Option Nat :=
  let last := (coreAt s c).lastFired.toNat
  let order := (upto 32).map (fun i => (last + 1 + i) % 32)
  let run := order.filter (fun h => isRunnable s c h && !entFailed s (chanAt s c h).entry)
  let best := run.foldl (fun m h => Nat.max m (effPri s c h)) 0
  run.find? (fun h => effPri s c h == best)

/-- The firing of handler h wakes context `cid`: quota, credits, registers, acquire (R75, R299, R300, R356). A core that was gated with tokens
in its channels runs again (R236; log entry 109). -/
def fire (s : State) (c h cid : Nat) : State :=
  let x := chanAt s c h
  let e := x.entry
  let q0 := x.toks.take (entC0 e)
  let s1 := putChan s c h { x with toks := x.toks.drop (entC0 e), since := s.now }
  let y := chanAt s1 c (entIn1 e)
  let two := decide (0 < entC1 e)
  let q1 := if two then y.toks.take (entC1 e) else []
  let s2 := if two then putChan s1 c (entIn1 e) { y with toks := y.toks.drop (entC1 e) } else s1
  let core := coreAt s2 c
  let oe := (entOedge e).toNat
  let paid := if oe = 0 then core else core.setCredit oe (core.credit oe - entP e)
  let s3 := putCore s2 c { paid with lastFired := BitVec.ofNat 5 h, gated := false }
  let ch0 := BitVec.ofNat 5 h
  let w := wakeState (ctxOf s3 cid) (entrySlot e (q0 ++ q1)) (imageOf core.x (entImg e)) (wakePriv (entPasid e)) (entDl e) (entPasid e)
    (BitVec.ofNat 12 (entLslot e)) (BitVec.ofNat 11 (entInst e)) (.actor ch0)
  let w1 := { w with ch0 := ch0, ch1 := (if two then some (BitVec.ofNat 5 (entIn1 e)) else none), c0 := entC0 e, c1 := entC1 e
                     prate := entP e, quota0 := q0, quota1 := q1, level := levelOf s3.hub (entLslot e) (entInst e)
                     credits := (if oe = 0 then 0 else entP e), oedge := entOedge e
                     free := freeFiring s3.hub (entPasid e) (entLslot e) }
  let s4 := putCtx s3 cid w1
  s4.putLoc ((s4.loc cid).acquire (quotaSig (q0 ++ q1)))

/-- Whether the selection of a core is open: the core is sound and in service, and no change of owner is due (R318, R396, R457). -/
def mayselect (s : State) (c : Nat) : Bool :=
  inService s.hub c && !(coreAt s c).suspect && (mget emptyCluster s.clus (clusOfCore c)).wanted.isNone &&
  (s.hub.power != .toHold || isService c)

/-- FIRING_SELECTION (R299). -/
def effFiringSelection (c : Nat) (s : State) : State :=
  if !mayselect s c then s
  else
    match freeCtx s c, pickHandler s c with
    | some cid, some h => fire s c h cid
    | _, _ => s

/-! ## Chunks (R222, R313) -/

/-- Whether a cluster belongs to a launch; the service cores form the firmware's own cluster (R16). -/
def owns (s : State) (lslot cl fromCore : Nat) : Bool :=
  let u := mget emptyCluster s.clus cl
  (u.owner == some lslot && u.wanted.isNone) || (isService (cl * 8) && isService fromCore)

/-- The unit of a level that holds a core: level 0 core to 4 device (R309). The service cores form one unit at every level from cluster to device
(R393). -/
def unitOf (level c : Nat) : Nat :=
  if isService c then (if level = 0 then c else 2048)
  else
  match level with
  | 0 => c
  | 1 => clusOfCore c
  | 2 => sectOfCore c
  | 3 => domOfCore c
  | _ => 0

/-- How far a core lies from the forking core: same cluster, sector, domain, device (R222). -/
def hedgeDist (f c : Nat) : Nat :=
  if clusOfCore f = clusOfCore c then 0 else if sectOfCore f = sectOfCore c then 1 else if domOfCore f = domOfCore c then 2 else 3

/-- Whether every context of a core is dormant. -/
def coreIdle (s : State) (c : Nat) : Bool := (upto 8).all (fun i => (ctxOf s (c * 8 + i)).status == .dormant)

/-- The nearest idle core for a chunk of a fork (R222). -/
def chunkCore (s : State) (n : Fork) : Option Nat :=
  let ok := (upto 2048).filter (fun c =>
    unitOf n.level c == unitOf n.level n.unit && isService c == (n.pasid == 0) && inService s.hub c && !(coreAt s c).suspect && coreIdle s c &&
    owns s n.lslot (clusOfCore c) n.fromCore)
  let best := ok.foldl (fun m c => Nat.min m (hedgeDist n.fromCore c)) 4
  ok.find? (fun c => hedgeDist n.fromCore c == best)

/-- The P registers of chunk i (R222). -/
def chunkRegs (n m j : Word) (ps : List Word) (i : Nat) : Vector Word 8 :=
  let lo := i * m.toNat
  Vector.ofFn (fun (k : Fin 8) =>
    match k.val with
    | 0 => BitVec.ofNat 64 lo
    | 1 => BitVec.ofNat 64 (Nat.min n.toNat (lo + m.toNat))
    | 2 => j
    | r => ps.getD (r - 3) 0)

/-- Chunk i of a fork fires on a context (R222). In a cluster that is to change hands it is pre-empted as the others are (R317).
It holds no credit for its output edge (log entry 118). -/
def fireChunk (s : State) (n : Fork) (i cid : Nat) : State :=
  let w := wakeState (ctxOf s cid) n.e (chunkRegs n.n n.m n.j n.ps i) (wakePriv n.pasid) n.dl n.pasid (BitVec.ofNat 12 n.lslot) n.inst
    (.chunk i n.n n.m n.e n.j n.ps n.id)
  let c := coreOfCid cid
  let s0 := putCore s c { coreAt s c with gated := false }
  let late := (mget emptyCluster s.clus (clusOfCore c)).wanted.isSome
  let s1 := putCtx s0 cid { w with prate := n.prate, oedge := n.oedge, level := n.level, preempt := late, free := freeFiring s.hub n.pasid n.lslot }
  s1.putLoc ((s1.loc cid).acquire (BitVec.allOnes 256))

/-- The first undealt chunk of a fork, and the fork without it (R222). -/
def takeChunk (n : Fork) : Option (Nat × Fork) :=
  match n.back with
  | i :: rest => some (i, { n with back := rest })
  | [] => if n.next < n.total then some (n.next, { n with next := n.next + 1 }) else none

/-- The k-th fork gives its first undealt chunk to a context. -/
def dealTo (s : State) (k cid : Nat) : State :=
  match s.hub.forks[k]? with
  | some n =>
      (match takeChunk n with
       | some (i, n1) => fireChunk { s with hub := { s.hub with forks := setAt s.hub.forks k n1 } } n i cid
       | none => s)
  | none => s

/-- CHUNK_DEAL (R222). -/
def effChunkDeal (k : Nat) (s : State) : State :=
  match s.hub.forks[k]? with
  | some n =>
      (match (if (takeChunk n).isNone then none else chunkCore s n) with
       | some c => dealTo s k (c * 8)
       | none => s)
  | none => s

/-- TOKEN_ARRIVAL. -/
def execTokenArrival (k : Nat) (s : State) : Host.Outcome State Fault Refusal := live s (effTokenArrival k s)

/-- CREDIT_RETURN. -/
def execCreditReturn (k : Nat) (s : State) : Host.Outcome State Fault Refusal := live s (effCreditReturn k s)

/-- HUB_TOKEN_RESEND (R296). -/
def execHubTokenResend (k : Nat) (s : State) : Host.Outcome State Fault Refusal := live s (resend (fun t => t == .event || t == .hub) k s)

/-- NOTIFY_RETRY (R257). -/
def execNotifyRetry (k : Nat) (s : State) : Host.Outcome State Fault Refusal := live s (resend (fun t => t == .notify) k s)

/-- FAULT_RECORD_RESEND (R375): both halves go together. -/
def execFaultRecordResend (k : Nat) (s : State) : Host.Outcome State Fault Refusal := live s (resend (fun t => t == .record) k s)

/-- FIRING_SELECTION. -/
def execFiringSelection (core : Nat) (s : State) : Host.Outcome State Fault Refusal := live s (effFiringSelection core s)

/-- CHUNK_DEAL. -/
def execChunkDeal (k : Nat) (s : State) : Host.Outcome State Fault Refusal := live s (effChunkDeal k s)

end Sys2Proof.Machine
end

