-- ==== Sys2Proof/Machine/Firing.lean ====
section
/-! DEFINITION. The life of a firing: END, JOIN, YIELD, RFORK, BIND, CHST, CHKERR, IDLE, and how a firing is killed or ended by a fault
(R194, R203-R207, R215-R225, R236, R286, R293, R302, R303, R372, R398, R399). -/
namespace Sys2Proof.Machine
open Sys2Proof

/-! ## Leaving a context -/

/-- A context that no longer holds a firing. The machine trap registers stay (R231). -/
def dormantOf (c : Ctx) : Ctx := { emptyCtx with mtpc := c.mtpc, mtst := c.mtst, mtvec := c.mtvec, mtcode := c.mtcode }

/-- The buffers of a core after the journal of a firing is written back, newest entry first (R302). -/
def undoJournal (l : Loc) : Loc :=
  l.ctx.journal.reverse.foldl (fun l e =>
    let l1 := l.setBuf e.space (putBytes (l.buf e.space) (16 * e.word) e.old)
    l1.setWordPois e.space e.word e.pois) l

/-- Reserved credits that the firing did not use go back to their counter (R296). -/
def returnCredits (s : State) (cid : Nat) : State :=
  let c := ctxOf s cid
  if c.oedge = 0 ∨ c.credits = 0 then s
  else
    let k := coreAt s (coreOfCid cid)
    putCtx (putCore s (coreOfCid cid) (k.setCredit c.oedge.toNat (k.credit c.oedge.toNat + c.credits))) cid { c with credits := 0 }

/-- The row slots that some drain tokens name are released (R286). -/
def releaseRows (rows : List RowSlot) (ts : List Token) : List RowSlot := rows.filter (fun r => !ts.any (fun t => t.row == some r.id))

/-- The escalation timers of some event tokens end (R389). -/
def endTimers (ts : List EscTimer) (core : Nat) (toks : List Token) : List EscTimer :=
  toks.foldl (fun es t =>
    if tagBit t 24 then
      (match es.findIdx? (fun e => e.off.isNone && e.core == core && e.ch.toNat == fld t.tag 0 5 && e.payload == t.payload) with
       | some i => dropAt es i | none => es)
    else es) ts

/-- The edge that a credited token came over: the actor address of its channel (R296). -/
def edgeOf (s : State) (core : Nat) (t : Token) : BitVec 32 :=
  let e := (chanAt s core (fld t.tag 0 5)).entry
  adOf (entLslot e) (entInst e) (fld t.tag 0 5)

/-- What the commit of a firing does with its quota (R203, R286, R296, R389): the tokens leave, credits go home, rows and timers end. -/
def consumeQuota (s : State) (cid : Nat) : State :=
  let core := coreOfCid cid
  let c := ctxOf s cid
  let ts := c.quota0 ++ c.quota1
  let back := (ts.filter (fun t => t.cred)).map (fun t => (t.sender, edgeOf s core t))
  let k := coreAt s core
  let s1 := putCore s core { k with rows := releaseRows k.rows ts }
  let s2 := { s1 with hub := { s1.hub with creditFly := s1.hub.creditFly ++ back, esc := endTimers s1.hub.esc core ts } }
  putCtx s2 cid { c with quota0 := [], quota1 := [], pop0 := 0, pop1 := 0 }

/-! ## The commit of the outbox (R194, R210-R220, R293, R296) -/

/-- A token as a firing commits it (R210, R295, R356). -/
def stampToken (cid : Nat) (c : Ctx) (t : Token) (ch : Nat) (rch : Option (BitVec 5)) (cred : Bool) : Token :=
  { t with tag := mkTag cid ch 0, sig := sigFold c.sig, pasid := c.pasid, sender := c.actor, refCh := rch, cred := cred }

/-- One reserved credit is used. -/
def useCredit (s : State) (cid : Nat) (yes : Bool) : State :=
  if yes then putCtx s cid { ctxOf s cid with credits := (ctxOf s cid).credits - 1 } else s

/-- A SEND token is committed. -/
def commitSend (s : State) (cid : Nat) (t : Token) (dest : BitVec 32) (rch : Option (BitVec 5)) : State :=
  let c := ctxOf s cid
  let cred := dest == c.oedge && c.oedge != 0 && decide (0 < c.credits)
  let tok := stampToken cid c t (adCh dest) rch cred
  route (useCredit s cid cred) { tok := tok, kind := .send, src := coreOfCid cid, dest := .addr dest, second := none, esc := none }

/-- A SENDN token is committed; a neighbour that has become vacant drops it (R212). -/
def commitSendn (s : State) (cid : Nat) (t : Token) (dch : BitVec 5) (dir : Dir) : State :=
  let c := ctxOf s cid
  let n := neighbour (coreOfCid cid) dir
  let w := placeWordOf s.hub c.oedge
  let cred := c.oedge != 0 && pst w == 1 && plCore w == n && adCh c.oedge == dch.toNat && decide (0 < c.credits)
  let tok := stampToken cid c t dch.toNat none cred
  if neighbourOk s.hub (coreOfCid cid) dir then
    route (useCredit s cid cred) { tok := tok, kind := .sendn, src := coreOfCid cid, dest := .chan n dch, second := none, esc := none }
  else dropToken s tok false

/-- A context-free record about a discarded table entry (R219, R293). -/
def discardRecord (s : State) (cid : Nat) (code : BitVec 8) : State :=
  let c := ctxOf s cid
  freeRecord s code 0 0 c.pasid hubScid 0 (c.actor.setWidth 64)

/-- Whether a firing may change an entry (R219). An entry with VAL 0 is owned by nobody (log entry 117). -/
def mayRebind (c : Ctx) (e : BitVec 256) : Bool := stPRIV c.stat != 0 || !entVal e || entPasid e == c.pasid

/-- The sum of CAP and EDEP over the valid entries of a core, with one entry replaced (R293). -/
def slotSum (s : State) (core ch : Nat) (img : BitVec 256) : Nat :=
  (upto 32).foldl (fun m n => m + entSlots (if n = ch then img else (chanAt s core n).entry)) 0

/-- An entry is installed in a handler table; a new output edge gets its credit counter (R292, R296). The mask bit of the channel, which an
image does not have, stays as PRIO left it (log entry 91). -/
def installEntry (s : State) (core ch : Nat) (img : BitVec 256) : State :=
  let x := chanAt s core ch
  let s1 := putChan s core ch { x with entry := img, prio := none }
  let k := coreAt s1 core
  let oe := entOedge img
  if oe = 0 ∨ k.hasCredit oe.toNat then s1 else putCore s1 core (k.setCredit oe.toNat (edepOf s.hub oe))

/-- A bind entry is committed (R216, R219, R293). -/
def commitBind (s : State) (cid : Nat) (img : BitVec 256) (ch : Nat) : State :=
  let core := coreOfCid cid
  if !mayRebind (ctxOf s cid) (chanAt s core ch).entry then discardRecord s cid 0x08
  else if slotSum s core ch img > 176 then discardRecord s cid 0x18
  else installEntry s core ch img

/-- An unbind entry is committed (R217, R219): the tokens stay, parked. -/
def commitUnbind (s : State) (cid ch : Nat) : State :=
  let core := coreOfCid cid
  let x := chanAt s core ch
  if !mayRebind (ctxOf s cid) x.entry then discardRecord s cid 0x08
  else putChan s core ch { x with entry := setBit x.entry 67 false }

/-- The index of a sector join cell (R221). -/
def cellIndex (j : Word) : Nat := (addrOf j - 0x40000) / 8

/-- Whether a pointer names a sector join cell. -/
def isSectCell (j : Word) : Bool := spaceOf j == 4 && decide (0x40000 ≤ addrOf j)

/-- A join cell of G is taken for its decrement (R223, R256): the line is owned at its home, and the tracking claim is checked (R413). -/
def cellOwn (s : State) (j : Word) (key : Nat × Bool) : State :=
  if spaceOf j = 0 then let t := (homeAtomic s key.1 8).1; { t with hub := countClaim t.hub key.1 key.2 } else s

/-- The value of a join cell (R221). -/
def cellRead (s : State) (core : Nat) (j : Word) (key : Nat) : Word :=
  if spaceOf j = 0 then dword s key
  else if isSectCell j then mget 0 (mget emptySector s.sects (sectOfCore core)).cells (cellIndex j)
  else BitVec.ofNat 64 (leVal (bytesAt (mget emptyCluster s.clus (clusOfCore core)).s (addrOf j) 8))

/-- A join cell written with release order at scope dev, performed at once (R220). A cell of G joins the writer's signature (R353), and its
core's copy of the line takes the value (R359). -/
def cellWrite (s : State) (cid : Nat) (j : Word) (key : Nat) (v : Word) (atomic : Bool) : State :=
  let core := coreOfCid cid
  if spaceOf j = 0 then
    let c := ctxOf s cid
    let sig := c.sig ||| sigBits key
    let s1 := hubPut s { pa := key, bytes := leBytes 8 v.toNat, stamp := stampOf s.hub (coreAt s core).late, rel := some .dev, sig := sig
                         pois := false, mayHold := false, atomic := atomic, hub := false, by_ := some cid
                         page := some (c.pasid.toNat, addrOf j) }
    refreshD (putCtx s1 cid { ctxOf s1 cid with sig := sig }) core key false
  else if isSectCell j then
    let q := mget emptySector s.sects (sectOfCore core)
    { s with sects := mset emptySector s.sects (sectOfCore core) { q with cells := mset 0 q.cells (cellIndex j) v } }
  else
    let u := mget emptyCluster s.clus (clusOfCore core)
    wakeScratch { s with clus := mset emptyCluster s.clus (clusOfCore core) { u with s := putBytes u.s (addrOf j) (leBytes 8 v.toNat) } }
      (clusOfCore core) (addrOf j / 64)

/-- A fork entry is committed (R220, R222): the cell holds N, and the fork node of the actor's level asks for the chunks. -/
def commitFork (s : State) (cid : Nat) (n m e j : Word) (chunks : Nat) (ps : List Word) (key : Nat) (trk : Bool) : State :=
  let s0 := if spaceOf j = 0 then { s with hub := countClaim s.hub key trk } else s
  let s1 := cellWrite s0 cid j key (BitVec.ofNat 64 chunks) false
  let c := ctxOf s1 cid
  let core := coreOfCid cid
  let f : Fork := { id := s1.hub.forkSeq, lslot := c.lslot.toNat, level := c.level, unit := core, pasid := c.pasid, n := n, m := m, e := e
                    j := j, ps := ps, prate := c.prate, pri := entPri (chanAt s core c.ch0.toNat).entry, dl := c.dlEntry, inst := c.inst
                    oedge := c.oedge, fromCore := core, next := 0, total := chunks, back := [], sig := c.sig }
  { s1 with hub := { s1.hub with forks := s1.hub.forks ++ [f], forkSeq := s1.hub.forkSeq + 1 } }

/-- One item of the outbox is committed. -/
def commitItem (cid : Nat) (s : State) : OutItem → State
  | .tok t dest rch => commitSend s cid t dest rch
  | .nbr t dch dir => commitSendn s cid t dch dir
  | .bind img ch => commitBind s cid img ch
  | .unbind ch => commitUnbind s cid ch
  | .fork n m e j chunks ps key trk => commitFork s cid n m e j chunks ps key trk

/-- The commit at END or JOIN (R203): quota, outbox in program order, unused credits, journal. -/
def commitFiring (s : State) (cid : Nat) : State :=
  let s1 := consumeQuota s cid
  let s2 := (ctxOf s1 cid).outbox.foldl (commitItem cid) s1
  let s3 := returnCredits s2 cid
  putCtx s3 cid { ctxOf s3 cid with outbox := [], journal := [] }

/-- Refusable tokens that the core would have in flight after the commit (R211). -/
def refusable (s : State) (l : Loc) : Nat :=
  (s.hub.flight.filter (fun f => f.kind == .send && f.tok.refCh.isSome && f.src == coreOfCid l.cid)).length +
  (l.ctx.outbox.filter (fun o => match o with | .tok _ _ (some _) => true | _ => false)).length

/-- A core on which IDLE has executed gates its clock once all of its contexts are dormant (R236). -/
def gateCore (c : Nat) (s : State) : State :=
  let k := coreAt s c
  if k.idleAsk && coreIdle s c then putCore s c { k with gated := true, idleAsk := false } else s

/-- The firing leaves its context. -/
def leave (s : State) (cid : Nat) : State := gateCore (coreOfCid cid) (putCtx s cid (dormantOf (ctxOf s cid)))

/-! ## END, JOIN, IDLE (R203, R223, R236) -/

/-- The quota of a firing is discarded when its ending completes: dead letters, and the row slots of its drain tokens are released (R286, R372 step 4). -/
def discardQuota (s : State) (cid : Nat) : State :=
  let c := ctxOf s cid
  let ts := c.quota0 ++ c.quota1
  let s1 := dropTokens s c.pasid ts false
  let k := coreAt s1 (coreOfCid cid)
  putCore s1 (coreOfCid cid) { k with rows := releaseRows k.rows ts }

/-- The disposal of a firing that has consumed poison (R203, R398, R399). Its quota is discarded with the firing's end (R286, R372). -/
def dispose (cid : Nat) (s : State) : State :=
  let c := ctxOf s cid
  if c.irv || (c.quota0 ++ c.quota1).any (fun t => decide (2 ≤ t.redeliv)) then uncontained s cid 0x30 1
  else putCtx s cid { c with status := .killing 0x30 false }

/-- What END and JOIN wait for (R203, R211). -/
def finishWait (s : State) (l : Loc) : Res Unit := do
  (if l.ctx.cnt = 0 then .ok () else parkOn l .finish)
  raiseDue l (fun _ => true)
  (if l.ctx.pois ∨ refusable s l ≤ 64 then .ok () else parkOn l .finish)

/-- The end of a firing at END. -/
def endNow (cid : Nat) (s : State) : State :=
  noteRunnable s (leave (commitFiring s cid) cid) (coreOfCid cid)

/-- END (R203). -/
def endBody (s : State) (l : Loc) : Res (Loc × (State → State)) := do
  finishWait s l
  let l1 := { l with next := .gone, ctx := { l.ctx with status := .issuing } }
  if l.ctx.pois then .ok (l1, dispose l.cid) else .ok (l1, endNow l.cid)

/-- IDLE (R236): the core is to gate. -/
def idleBody (s : State) (l : Loc) : Res (Loc × (State → State)) := do
  let (l1, post) ← endBody s l
  .ok ({ l1 with core := { l1.core with idleAsk := true } }, post)

/-- Whether a pointer names a join cell that a level may use (R221). -/
def cellLevelOk (j : Word) (level : Nat) : Bool :=
  spaceOf j == 0 || (if isSectCell j then decide (level ≤ 2) else decide (level ≤ 1))

/-- A join cell pointer (R221): fault 0x06 for any other pointer, also one that leads out of device memory; the key of a cell in G, with the
tracking claim of its page. -/
def cellKey (l : Loc) (j : Word) (k : Acc) : Res (Nat × Bool) :=
  if spaceOf j = 0 ∧ addrOf j % 8 = 0 then do
    let t ← xlate l (addrOf j) k
    if isRam (t.keyOf (addrOf j)) then .ok (t.keyOf (addrOf j), t.trk) else flt06 l j k
  else if spaceOf j = 4 ∧ addrOf j % 8 = 0 ∧ addrOf j ≤ 0x3FFF8 then .ok (0, false)
  else if isSectCell j ∧ addrOf j % 8 = 0 ∧ addrOf j ≤ 0x401F8 ∧ !isService (coreOfCid l.cid) then .ok (0, false)
  else flt06 l j k

/-- The continuation of a JOIN (R223): a new firing on the same context, registers kept, loop state and flags among them; it holds no credit for
its output edge (log entry 118). -/
def continueAt (c : Ctx) (pc : Word) : Ctx :=
  { c with status := .issuing, pc := pc, tgtCheck := true, cir := 0, cira := 0, pop0 := 0, pop1 := 0, produced := 0, journal := []
           outbox := [], quota0 := [], quota1 := [], c0 := 0, c1 := 0, dleft := c.dlEntry, dl := c.dlEntry, taken := false, linked := false
           endTest := false, stat := setFld (setBit c.stat 47 false) 45 2 0, landed := [], pairBad := false
           kind := .cont pc c.a c.p.toList }

/-- The decrement of JOIN and what follows it (R223). -/
def joinNow (cid : Nat) (j : Word) (key : Nat × Bool) (at_ : Word) (s0 : State) : State :=
  let s := cellOwn (commitFiring s0 cid) j key
  let core := coreOfCid cid
  let v := cellRead s core j key.1
  if v = 0 then
    let c := ctxOf s cid
    noteRunnable s0 (leave (freeRecord s 0x19 0 0 c.pasid cid c.pc (c.actor.setWidth 64)) cid) core
  else
    let s1 := if spaceOf j = 0 then acquireLine s cid key.1 (some .dev)
      else s.putLoc ((s.loc cid).acquire (BitVec.allOnes 256))
    let s2 := cellWrite s1 cid j key.1 (v - 1) true
    if v = 1 then noteRunnable s0 (putCtx s2 cid (continueAt (ctxOf s2 cid) at_)) core
    else
      let c := ctxOf s2 cid
      let node := match c.kind with
        | .chunk _ _ _ _ _ _ id => s2.hub.forks.findIdx? (fun f => f.id == id)
        | _ => s2.hub.forks.findIdx? (fun f => f.lslot == c.lslot.toNat && f.pasid == c.pasid && f.j == j && (takeChunk f).isSome)
      let s3 := noteRunnable s0 (leave s2 cid) core
      match node with
      | some k => dealTo s3 k cid
      | none => s3

/-- JOIN (R223). -/
def joinBody (i : Instr) (d : Opd) (s : State) (l : Loc) : Res (Loc × (State → State)) := do
  finishWait s l
  if l.ctx.pois then .ok ({ l with next := .gone, ctx := { l.ctx with status := .issuing } }, dispose l.cid)
  else
    let g ← fetchArgs l .d 0 (shape i)
    let j := l.p (regOfOpd d)
    let key ← cellKey l j .atomic
    need l (cellLevelOk j l.ctx.level) 0x19
    let l1 := l.take (shape i) g
    .ok ({ l1 with next := .gone, ctx := { l1.ctx with status := .issuing } }, joinNow l.cid j key (g.a.val.setWidth 64))

/-! ## YIELD (R205-R207) -/

/-- The registers of a context outside a live mask read zero, and no register carries poison (R100, R205). -/
def maskLive (c : Ctx) (live : BitVec 9) : Ctx :=
  { c with a := (if live.getLsbD 0 then c.a else 0), aPois := false, pPois := 0
           p := Vector.ofFn (fun (k : Fin 8) => if live.getLsbD (k.val + 1) then c.p[k] else 0) }

/-- A firing as YIELD saves it (R100, R205). A saved quota token carries no signature (R356). -/
def savedAt (c : Ctx) (live : BitVec 9) (dl : Nat) : Ctx :=
  let due := atLend c
  let plain := fun (t : Token) => { t with sig := 0 }
  let c1 := maskLive { c with quota0 := c.quota0.map plain, quota1 := c.quota1.map plain, status := .issuing, pc := c.pc + 1, tgtCheck := false, dl := dl, dleft := dl, live := live, preempt := false
                              landed := [], pairBad := false, bmov := 0, cmds := [], qfences := [], relNext := none
                              stat := setBit c.stat 47 false } live
  if due then loopTest c1 2 else c1

/-- The save at YIELD (R205, R305). -/
def yieldSave (cid : Nat) (live : BitVec 9) (dl : Nat) (s : State) : State :=
  let k := clusOfCore (coreOfCid cid)
  let u := mget emptyCluster s.clus k
  let s1 := { s with clus := mset emptyCluster s.clus k { u with saves := mset emptyCtx u.saves cid (savedAt (ctxOf s cid) live dl) } }
  leave s1 cid

/-- YIELD (R205). -/
def yieldBody (live : BitVec 9) (dl : BitVec 12) (_ : State) (l : Loc) : Res (Loc × (State → State)) :=
  if dl = 0 then flt l 0x01
  else if l.ctx.preempt then do
    (if l.ctx.cnt = 0 then .ok () else parkOn l .finish)
    raiseDue l (fun _ => true)
    .ok ({ l.countPair with next := .gone, ctx := { l.ctx with status := .issuing } }, yieldSave l.cid live dl.toNat)
  else .ok ({ l with dl := some dl.toNat, ctx := { l.ctx with dl := dl.toNat } }, id)

/-! ## RFORK (R220, R221) -/

/-- RFORK (R220). -/
def rforkR (l : Loc) (i : Instr) (d : Opd) : Res Loc := do
  let g ← fetchArgs l .d 0 (shape i)
  let n : Word := g.a.val.setWidth 64
  let m : Word := g.b.val.setWidth 64
  let e : Word := g.x.val.setWidth 64
  let j := l.p (regOfOpd d)
  need l (m != 0) 0x19
  let chunks := (n.toNat + m.toNat - 1) / m.toNat
  need l (decide (chunks ≤ 2 ^ 32 - 1)) 0x19
  let key ← cellKey l j .write
  need l (cellLevelOk j l.ctx.level) 0x19
  (if 0 < chunks then entryRoom l else .ok ())
  let l1 := (l.take (shape i) g).flags { noFlags with z := some (chunks == 0) }
  .ok (if chunks = 0 then l1
    else l1.outPush (.fork n m e j chunks [l.p 3, l.p 4, l.p 5, l.p 6, l.p 7] key.1 key.2) false)

/-! ## PRIO, BIND and CHST (R215, R216, R218, R219, R293) -/

/-- PRIO acts at once (R218, R219). -/
def bodyPrio (c : Cond) (s1 : Opd) (s2 : Opd) : Loc → Res Loc :=
  fun l => do
    let sh := shape (.prio c s1 s2)
    let g ← fetchArgs l .d 0 sh
    need l (decide (g.a.val.toNat < 32)) 0x18
    let n := g.a.val.toNat
    let ch := mget emptyChan l.core.chans n
    need l (l.priv != 0 || entPasid ch.entry == l.ctx.pasid) 0x08
    let pri : BitVec 3 := g.b.val.setWidth 3
    let ch1 := { ch with entry := setFld ch.entry 70 3 pri.toNat, masked := bit g.b.val.toNat 3, prio := some pri }
    let l1 := l.take sh g
    .ok { l1 with core := { l1.core with chans := mset emptyChan l1.core.chans n ch1 } }

/-- PRIO as an issue of context `cur`: a handler that its clear mask bit makes runnable starts to wait (R299). -/
def execPrio (c : Cond) (s1 : Opd) (s2 : Opd) (s : State) : Host.Outcome State Fault Refusal :=
  issueG (.prio c s1 s2) (fun s l => do let l1 ← bodyPrio c s1 s2 l; .ok (l1, fun t => noteRunnable s t (coreOfCid l.cid))) s


/-- The 32 bytes of a BIND image (R216). BIND is not among the reads that a D-cache serves (R346): it reads the home. -/
def readImage (l : Loc) (ptr : Word) : Res (BitVec 256 × Bool) := do
  checkPtr l ptr 32 32 .read
  if spaceOf ptr = 0 then
    match l.ctx.landed.find? (fun d => d.va == ptr && d.n == 16), l.ctx.landed.find? (fun d => d.va == ptr + 16 && d.n == 16) with
    | some x, some y => .ok (y.val ++ x.val, x.pois || y.pois)
    | _, _ => do
        let t ← xlate l (addrOf ptr) .read
        hubSize l ptr (t.keyOf (addrOf ptr)) 32 .read
        parkOn l (.load ptr (t.keyOf (addrOf ptr)) 32 true none t.nc t.trk)
  else
    .ok (BitVec.ofNat 256 (leVal (bytesAt (l.buf (spaceOf ptr)) (addrOf ptr) 32)), l.bufPois (spaceOf ptr) (addrOf ptr) 32)

/-- The fields of an entry with VAL 1 for channel ch (R292, R293). -/
def imageOk (e : BitVec 256) (ch : Nat) : Bool :=
  fld e 64 2 == 0 && fld e 128 6 == 0 && fld e 155 5 == 0 && fld e 176 3 == 0 && fld e 224 32 == 0 &&
  (if entKnd e then decide (1 ≤ entCap e) && decide (entCap e ≤ 176) && entEdep e == 0
   else entCap e == 0 && decide (1 ≤ entEdep e) && decide (entEdep e ≤ 64)) &&
  (if entSec e then
     entEntry e == 0 && entDl e == 0 && entPri e == 0 && !entRent e && entImg e == 0 && entP e == 0 && entC1 e == 0 && entC0 e == 0 &&
     entOedge e == 0
   else
     decide ((entEntry e).toNat < slotLimit) && decide (1 ≤ entDl e) && entImg e % 64 == 0 && decide (entP e ≤ 32) &&
     decide (entC1 e ≤ 16) && decide (1 ≤ entC0 e) && decide (entC0 e ≤ 16) && (entC1 e == 0 || entIn1 e != ch))

/-- BIND (R216, R219, R293). -/
def bindR (l : Loc) (i : Instr) (s1 s2 : Opd) : Res Loc := do
  let sh := shape i
  let ptr := l.ea s1 32
  let (img, po) ← readImage l ptr
  let b ← fetch l .d 0 s2 (.scalar 8)
  let ch := b.val.toNat
  need l (decide (ch < 32)) 0x18
  need l (entVal img) 0x18
  need l (l.priv != 0 || entPasid img == l.ctx.pasid) 0x08
  need l (imageOk img ch) 0x02
  entryRoom l
  let g : Args := { a := l.based s1 { val := 0, pois := po, ptr := l.poisPtr ptr 32 }, b := b, x := clean 0, d := clean 0, dst := .none_ }
  .ok ((l.take sh g).outPush (.bind img ch) false)

/-- The word of CHST (R215). -/
def chstWord (s : State) (core ch : Nat) : Word :=
  let x := chanAt s core ch
  let e := x.entry
  let run := (upto 8).any (fun i =>
    let c := ctxOf s (core * 8 + i)
    (match c.kind with | .actor n => n.toNat == ch | _ => false) && c.status != .dormant)
  BitVec.ofNat 64 (run.toNat * 2 ^ 27 + x.masked.toNat * 2 ^ 26 + (entRent e).toNat * 2 ^ 25 + (entKnd e).toNat * 2 ^ 24
    + (entVal e).toNat * 2 ^ 23 + effPri s core ch * 2 ^ 20 + entPri e * 2 ^ 17 + Nat.min 256 (heldOn s core ch).length * 2 ^ 8 + entCap e)

/-- CHST (R215). -/
def chstBody (i : Instr) (s : State) (l : Loc) : Res (Loc × (State → State)) := do
  let g ← fetchArgs l .d 0 (shape i)
  need l (decide (g.a.val.toNat < 32)) 0x18
  let w := chstWord s (coreOfCid l.cid) g.a.val.toNat
  let l1 := (l.take (shape i) g).flags { noFlags with z := some (fld w 8 9 == 0), n := some (!bit w.toNat 23) }
  .ok (l1.writeScalar g.dst 64 true (w.setWidth 128) g.pois, id)

/-! ## CHKERR (R225) -/

/-- CHKERR: CIR, Z and N; with KILL a poisoned firing is disposed of as at END. -/
def chkerrBody (i : Instr) (kill : Bool) (_ : State) (l : Loc) : Res (Loc × (State → State)) := do
  let sh := shape i
  let g ← fetchArgs l .d 0 sh
  let c := l.ctx
  let l1 := ((l.take sh g).flags { noFlags with z := some (!c.pois), n := some c.irv }).writeScalar g.dst 64 true (c.cir.setWidth 128) g.pois
  if kill && c.pois then .ok ({ l1 with next := .gone }, dispose l.cid) else .ok (l1, id)

/-! ## FIRING_KILL and FIRING_END_ON_FAULT (R302, R303, R372) -/

/-- A queue of copies without the members of a context whose commands have not started; a command without members leaves. -/
def cutCopies (cid : Nat) (seqs : List Nat) (q : List CopyCmd) : List CopyCmd :=
  (q.map (fun k => { k with members := k.members.filter (fun m => !(m.cid == cid && seqs.contains m.seq)) })).filter
    (fun k => !k.members.isEmpty)

/-- The engine commands of a context that have not started leave their queues, and their counts fall (R265, R302 step 1). -/
def discardUnstarted (s : State) (cid : Nat) : State :=
  let core := coreOfCid cid
  let c := ctxOf s cid
  let gone := c.cmds.filter (fun k => !k.started)
  let seqs := gone.map (·.seq)
  let cp := (gone.filter (fun k => k.queues &&& 11 != 0)).length
  let tl := (gone.filter (fun k => k.queues &&& 4 != 0)).length
  let u := mget emptyCluster s.clus (clusOfCore core)
  let d := mget emptyDomain s.doms (domOfCore core)
  let q := mget emptySector s.sects (sectOfCore core)
  let k := coreAt s core
  let s1 := { s with
    clus := mset emptyCluster s.clus (clusOfCore core) { u with q0 := cutCopies cid seqs u.q0, q1 := cutCopies cid seqs u.q1 }
    doms := mset emptyDomain s.doms (domOfCore core) { d with bulk := cutCopies cid seqs d.bulk }
    sects := mset emptySector s.sects (sectOfCore core)
      { q with tileq := q.tileq.filter (fun t => !(t.cid == cid && seqs.contains t.seq)) } }
  let s2 := putCore s1 core { k with tileOut := k.tileOut - tl }
  putCtx s2 cid { c with cmds := c.cmds.filter (fun k => k.started), cnt := setFld (setFld c.cnt 12 6 (c.cntOf 2 - cp)) 18 6 (c.cntOf 3 - tl) }

/-- Whether a firing on its way out has nothing left in flight. -/
def quietCtx (c : Ctx) : Bool := c.cmds.isEmpty && c.stq.isEmpty && c.aldq.isEmpty && c.rstq.isEmpty

/-- The quota of a killed firing goes back to the head of its channels, in its original order (R302 step 4, R399). -/
def redeliver (s : State) (cid : Nat) (count : Bool) : State :=
  let core := coreOfCid cid
  let c := ctxOf s cid
  let up := fun (t : Token) => if count then { t with redeliv := t.redeliv + 1 } else t
  let x := chanAt s core c.ch0.toNat
  let s1 := if c.quota0.isEmpty then s else putChan s core c.ch0.toNat { x with toks := c.quota0.map up ++ x.toks }
  match c.ch1 with
  | some n =>
      if c.quota1.isEmpty then s1
      else let y := chanAt s1 core n.toNat; putChan s1 core n.toNat { y with toks := c.quota1.map up ++ y.toks }
  | none => s1

/-- A chunk goes back to its fork node (R303). -/
def returnChunk (s : State) (i id : Nat) : State :=
  let f := s.hub.forks.map (fun n => if n.id = id then { n with back := (n.back.filter (· < i)) ++ [i] ++ n.back.filter (i < ·) } else n)
  { s with hub := { s.hub with forks := f } }

/-- The record of a firing that ended, with IRV as it stood at the fault (R376). -/
def endRecord (s : State) (cid : Nat) (f : FaultInfo) (irv : Bool) : State :=
  let c := ctxOf s cid
  let hi := f.merged.toNat * 2 ^ 56 + f.status.toNat * 2 ^ 48 + f.tid.toNat * 2 ^ 32 + c.actor.toNat
  sendRec s (recordOf f c.pasid irv (stPFXV c.stat) (stDS c.stat != 0) cid c.pc (BitVec.ofNat 64 hi))

/-- The end of a kill (R302 steps 2 to 5, R303). -/
def finishKill (s : State) (cid : Nat) (cause : BitVec 8) (drop : Bool) : State :=
  let s1 := s.putLoc (undoJournal (s.loc cid))
  let s2 := returnCredits s1 cid
  let s3 := if cause = 0x30 ∨ cause = 0x31 then endRecord s2 cid (faultOf cause) false else s2
  let c := ctxOf s3 cid
  let core := coreOfCid cid
  match c.kind with
  | .actor _ =>
      let s4 := if drop then discardQuota s3 cid else redeliver s3 cid (cause != 0)
      noteRunnable s (leave s4 cid) core
  | .chunk i _ _ _ _ _ id => noteRunnable s (leave (if drop then s3 else returnChunk s3 i id) cid) core
  | .cont pc a ps =>
      if drop then leave s3 cid
      else
        let w := wakeState c pc (Vector.ofFn (fun (k : Fin 8) => ps.getD k.val 0)) (wakePriv c.pasid) c.dlEntry c.pasid c.lslot c.inst c.kind
        putCtx s3 cid { w with a := a, ch0 := c.ch0, prate := c.prate, preempt := c.preempt, free := c.free, oedge := c.oedge, level := c.level, sig := BitVec.allOnes 256 }

/-- FIRING_KILL: it finishes once the firing has nothing started and nothing in flight (R302). -/
def effFiringKill (cid : Nat) (s : State) : State :=
  match (ctxOf s cid).status with
  | .killing cause drop =>
      let s1 := discardUnstarted s cid
      if quietCtx (ctxOf s1 cid) then finishKill s1 cid cause drop else s1
  | _ => s

/-- FIRING_END_ON_FAULT (R372). -/
def effFiringEndOnFault (cid : Nat) (s : State) : State :=
  match (ctxOf s cid).status with
  | .ending f irv =>
      let s1 := discardUnstarted s cid
      if quietCtx (ctxOf s1 cid) then
        let s2 := s1.putLoc (undoJournal (s1.loc cid))
        let s3 := discardQuota (returnCredits s2 cid) cid
        noteRunnable s (leave (endRecord s3 cid f irv) cid) (coreOfCid cid)
      else s1
  | _ => s

/-! ## Instructions and events -/

/-- END as an issue of context `cur`. -/
def execEndF (c : Cond) (s : State) : Host.Outcome State Fault Refusal := issueG (.endF c) endBody s

/-- JOIN as an issue of context `cur`. -/
def execJoin (c : Cond) (d : Opd) (s1 : Opd) (s : State) : Host.Outcome State Fault Refusal :=
  issueG (.join c d s1) (joinBody (.join c d s1) d) s

/-- IDLE as an issue of context `cur`. -/
def execIdle (c : Cond) (s : State) : Host.Outcome State Fault Refusal := issueG (.idle c) idleBody s

/-- YIELD as an issue of context `cur`. -/
def execYield (c : Cond) (live : BitVec 9) (dl : BitVec 12) (s : State) : Host.Outcome State Fault Refusal :=
  issueG (.yield c live dl) (yieldBody live dl) s

/-- RFORK as an issue of context `cur`. -/
def execRfork (c : Cond) (d : Opd) (s1 : Opd) (s2 : Opd) (x : Opd) (s : State) : Host.Outcome State Fault Refusal :=
  issue (.rfork c d s1 s2 x) (fun l => rforkR l (.rfork c d s1 s2 x) d) s

/-- BIND as an issue of context `cur`. -/
def execBind (c : Cond) (s1 : Opd) (s2 : Opd) (s : State) : Host.Outcome State Fault Refusal :=
  issue (.bind c s1 s2) (fun l => bindR l (.bind c s1 s2) s1 s2) s

/-- CHST as an issue of context `cur`. -/
def execChst (c : Cond) (d : Opd) (s1 : Opd) (s : State) : Host.Outcome State Fault Refusal :=
  issueG (.chst c d s1) (chstBody (.chst c d s1)) s

/-- CHKERR (R225). -/
def bodyChkerr (c : Cond) (d : Opd) (kill : Bool) : State → Loc → Res (Loc × (State → State)) := chkerrBody (.chkerr c d kill) kill

/-- CHKERR as an issue of context `cur`. -/
def execChkerr (c : Cond) (d : Opd) (kill : Bool) (s : State) : Host.Outcome State Fault Refusal :=
  issueG (.chkerr c d kill) (bodyChkerr c d kill) s

/-- FIRING_KILL. -/
def execFiringKill (cid : Nat) (s : State) : Host.Outcome State Fault Refusal := live s (effFiringKill cid s)

/-- FIRING_END_ON_FAULT. -/
def execFiringEndOnFault (cid : Nat) (s : State) : Host.Outcome State Fault Refusal := live s (effFiringEndOnFault cid s)

end Sys2Proof.Machine
end

