-- ==== Sys2Proof/Machine/Hss.lean ====
section
/-! DEFINITION. SHA-256 (R458, R462) and the HSS signatures of R460: two levels, each LMS_SHA256_M32_H15 with LMOTS_SHA256_N32_W4, as RFC 8554
and SP 800-208 set them out (log entry 112). -/
namespace Sys2Proof.Machine
open Sys2Proof

/-- The `n` big-endian bytes of a value. -/
def beBytes (n v : Nat) : List Byte := (leBytes n v).reverse

/-! ## SHA-256 -/

/-- The round constants, in two halves. -/
def shaK0 : List Nat :=
  [0x428a2f98, 0x71374491, 0xb5c0fbcf, 0xe9b5dba5, 0x3956c25b, 0x59f111f1, 0x923f82a4, 0xab1c5ed5, 0xd807aa98, 0x12835b01, 0x243185be,
   0x550c7dc3, 0x72be5d74, 0x80deb1fe, 0x9bdc06a7, 0xc19bf174, 0xe49b69c1, 0xefbe4786, 0x0fc19dc6, 0x240ca1cc, 0x2de92c6f, 0x4a7484aa,
   0x5cb0a9dc, 0x76f988da, 0x983e5152, 0xa831c66d, 0xb00327c8, 0xbf597fc7, 0xc6e00bf3, 0xd5a79147, 0x06ca6351, 0x14292967]
/-- The second half. -/
def shaK1 : List Nat :=
  [0x27b70a85, 0x2e1b2138, 0x4d2c6dfc, 0x53380d13, 0x650a7354, 0x766a0abb, 0x81c2c92e, 0x92722c85, 0xa2bfe8a1, 0xa81a664b, 0xc24b8b70,
   0xc76c51a3, 0xd192e819, 0xd6990624, 0xf40e3585, 0x106aa070, 0x19a4c116, 0x1e376c08, 0x2748774c, 0x34b0bcb5, 0x391c0cb3, 0x4ed8aa4a,
   0x5b9cca4f, 0x682e6ff3, 0x748f82ee, 0x78a5636f, 0x84c87814, 0x8cc70208, 0x90befffa, 0xa4506ceb, 0xbef9a3f7, 0xc67178f2]

/-- The eight chaining words. -/
structure ShaState where
  a : BitVec 32
  b : BitVec 32
  c : BitVec 32
  d : BitVec 32
  e : BitVec 32
  f : BitVec 32
  g : BitVec 32
  h : BitVec 32
  deriving DecidableEq, Repr

/-- The initial hash value. -/
def shaInit : ShaState :=
  { a := 0x6a09e667, b := 0xbb67ae85, c := 0x3c6ef372, d := 0xa54ff53a, e := 0x510e527f, f := 0x9b05688c, g := 0x1f83d9ab, h := 0x5be0cd19 }

/-- The message schedule, newest word first, with n more words. -/
def shaSched : Nat → List (BitVec 32) → List (BitVec 32)
  | 0, w => w
  | n + 1, w =>
      let x := w.getD 1 0
      let y := w.getD 14 0
      let s1 := x.rotateRight 17 ^^^ x.rotateRight 19 ^^^ (x >>> 10)
      let s0 := y.rotateRight 7 ^^^ y.rotateRight 18 ^^^ (y >>> 3)
      shaSched n ((s1 + w.getD 6 0 + s0 + w.getD 15 0) :: w)

/-- One round. -/
def shaRound (s : ShaState) (k : Nat) (w : BitVec 32) : ShaState :=
  let t1 := s.h + (s.e.rotateRight 6 ^^^ s.e.rotateRight 11 ^^^ s.e.rotateRight 25) + ((s.e &&& s.f) ^^^ (~~~s.e &&& s.g)) + BitVec.ofNat 32 k + w
  let t2 := (s.a.rotateRight 2 ^^^ s.a.rotateRight 13 ^^^ s.a.rotateRight 22) + ((s.a &&& s.b) ^^^ (s.a &&& s.c) ^^^ (s.b &&& s.c))
  { a := t1 + t2, b := s.a, c := s.b, d := s.c, e := s.d + t1, f := s.e, g := s.f, h := s.g }

/-- The rounds of one block. -/
def shaRounds : List Nat → List (BitVec 32) → ShaState → ShaState
  | k :: ks, w :: ws, s => shaRounds ks ws (shaRound s k w)
  | _, _, s => s

/-- The big-endian value of some bytes. -/
def beVal (bs : List Byte) : Nat := leVal bs.reverse

/-- One 64-byte block. -/
def shaBlock (s : ShaState) (bs : List Byte) : ShaState :=
  let w := (upto 16).map (fun i => BitVec.ofNat 32 (beVal ((bs.drop (4 * i)).take 4)))
  let r := shaRounds (shaK0 ++ shaK1) (shaSched 48 w.reverse).reverse s
  { a := s.a + r.a, b := s.b + r.b, c := s.c + r.c, d := s.d + r.d, e := s.e + r.e, f := s.f + r.f, g := s.g + r.g, h := s.h + r.h }

/-- SHA-256 of some bytes. -/
def sha256 (bs : List Byte) : BitVec 256 :=
  let m := bs ++ [0x80] ++ List.replicate ((119 - bs.length % 64) % 64) 0 ++ beBytes 8 (8 * bs.length)
  let s := (upto (m.length / 64)).foldl (fun s i => shaBlock s ((m.drop (64 * i)).take 64)) shaInit
  s.a ++ s.b ++ s.c ++ s.d ++ s.e ++ s.f ++ s.g ++ s.h

/-! ## LMOTS_SHA256_N32_W4 -/

/-- The 32 bytes of a digest. -/
def digBytes (d : BitVec 256) : List Byte := beBytes 32 d.toNat

/-- The hash of a tagged preimage: the key's identifier, a node or key number, a 16-bit tag, and what is hashed. -/
def lmsHash (id : BitVec 128) (n tag : Nat) (bs : List Byte) : BitVec 256 := sha256 (beBytes 16 id.toNat ++ beBytes 4 n ++ beBytes 2 tag ++ bs)

/-- A tree's private key: its identifier and the seed that its one-time keys derive from. -/
structure LmsKey where
  id : BitVec 128
  seed : BitVec 256
  deriving DecidableEq, Repr

/-- The secret start of chain i of one-time key q. -/
def otsSecret (k : LmsKey) (q i : Nat) : BitVec 256 := lmsHash k.id q i ([0xFF] ++ digBytes k.seed)

/-- n steps of a chain from step a on. -/
def chainFrom (f : Nat → BitVec 256 → BitVec 256) : Nat → Nat → BitVec 256 → BitVec 256
  | _, 0, x => x
  | a, n + 1, x => chainFrom f (a + 1) n (f a x)

/-- One step of chain i of one-time key q. -/
def otsStep (id : BitVec 128) (q i a : Nat) (x : BitVec 256) : BitVec 256 := lmsHash id q i ([BitVec.ofNat 8 a] ++ digBytes x)

/-- n steps of chain i of one-time key q, from step a on. -/
def otsChain (id : BitVec 128) (q i : Nat) : Nat → Nat → BitVec 256 → BitVec 256 := chainFrom (otsStep id q i)

/-- The 64 digits of a digest, most significant first. -/
def otsDigits (d : BitVec 256) : List Nat := (upto 64).map (fun i => d.toNat / 16 ^ (63 - i) % 16)

/-- The digits that are signed: those of a digest, and three of their checksum. -/
def otsCoded (d : BitVec 256) : List Nat :=
  let sum := ((otsDigits d).map (fun x => 15 - x)).sum
  otsDigits d ++ [sum / 256 % 16, sum / 16 % 16, sum % 16]

/-- Digit i of what is signed. -/
def otsDigit (d : BitVec 256) (i : Nat) : Nat := (otsCoded d).getD i 0 % 16

/-- The one-time public key that the ends of the 67 chains give. -/
def otsKeyOf (id : BitVec 128) (q : Nat) (ends : List (BitVec 256)) : BitVec 256 := lmsHash id q 0x8080 (ends.flatMap digBytes)

/-- The public key of one-time key q. -/
def otsKey (k : LmsKey) (q : Nat) : BitVec 256 := otsKeyOf k.id q ((upto 67).map (fun i => otsChain k.id q i 0 15 (otsSecret k q i)))

/-- What one-time key q signs of a message, with its randomizer. -/
def otsDigest (id : BitVec 128) (q : Nat) (rand : BitVec 256) (msg : List Byte) : BitVec 256 := lmsHash id q 0x8181 (digBytes rand ++ msg)

/-- The chain values of a signature. -/
def otsSign (k : LmsKey) (q : Nat) (d : BitVec 256) : List (BitVec 256) :=
  (upto 67).map (fun i => otsChain k.id q i 0 (otsDigit d i) (otsSecret k q i))

/-- The public key that the chain values of a signature lead to. -/
def otsCandidate (id : BitVec 128) (q : Nat) (d : BitVec 256) (vals : List (BitVec 256)) : BitVec 256 :=
  otsKeyOf id q ((upto 67).map (fun i => otsChain id q i (otsDigit d i) (15 - otsDigit d i) (vals.getD i 0)))

/-! ## LMS_SHA256_M32_H15 -/

/-- The leaf of a one-time public key. -/
def lmsLeaf (id : BitVec 128) (q : Nat) (key : BitVec 256) : BitVec 256 := lmsHash id (2 ^ 15 + q) 0x8282 (digBytes key)

/-- An inner node. -/
def lmsJoin (id : BitVec 128) (r : Nat) (x y : BitVec 256) : BitVec 256 := lmsHash id r 0x8383 (digBytes x ++ digBytes y)

/-- Node r of a tree, h levels above the leaves. -/
def treeNode (leaf : Nat → BitVec 256) (join : Nat → BitVec 256 → BitVec 256 → BitVec 256) : Nat → Nat → BitVec 256
  | 0, r => leaf r
  | h + 1, r => join r (treeNode leaf join h (2 * r)) (treeNode leaf join h (2 * r + 1))

/-- Node r of a key's tree, h levels above the leaves. -/
def lmsNode (k : LmsKey) : Nat → Nat → BitVec 256 := treeNode (fun r => lmsLeaf k.id (r - 2 ^ 15) (otsKey k (r - 2 ^ 15))) (lmsJoin k.id)

/-- The public key of a tree. -/
def lmsPub (k : LmsKey) : LmsPub := { id := k.id, root := lmsNode k 15 1 }

/-- The siblings on the way from node r, h levels above the leaves, n levels up. -/
def treePath (node : Nat → Nat → BitVec 256) : Nat → Nat → Nat → List (BitVec 256)
  | 0, _, _ => []
  | n + 1, h, r => node h (if r % 2 = 0 then r + 1 else r - 1) :: treePath node n (h + 1) (r / 2)

/-- The node that a path leads to. -/
def treeClimb (join : Nat → BitVec 256 → BitVec 256 → BitVec 256) : List (BitVec 256) → Nat → BitVec 256 → BitVec 256
  | [], _, x => x
  | p :: ps, r, x => treeClimb join ps (r / 2) (if r % 2 = 0 then join (r / 2) x p else join (r / 2) p x)

/-- A message signed with one-time key q of a tree. -/
def lmsSign (k : LmsKey) (q : Nat) (rand : BitVec 256) (msg : List Byte) : LmsSig :=
  { q := q, rand := rand, chains := otsSign k q (otsDigest k.id q rand msg), path := treePath (lmsNode k) 15 0 (2 ^ 15 + q) }

/-- Whether a signature of a message stands under a tree's public key. -/
def lmsVerify (p : LmsPub) (msg : List Byte) (s : LmsSig) : Bool :=
  decide (s.q < 2 ^ 15) && s.chains.length == 67 && s.path.length == 15 &&
  treeClimb (lmsJoin p.id) s.path (2 ^ 15 + s.q) (lmsLeaf p.id s.q (otsCandidate p.id s.q (otsDigest p.id s.q s.rand msg) s.chains)) == p.root

/-! ## HSS with two levels -/

/-- The bytes of a tree's public key: its two type codes, identifier and root. -/
def lmsPubBytes (p : LmsPub) : List Byte := beBytes 4 7 ++ beBytes 4 3 ++ beBytes 16 p.id.toNat ++ digBytes p.root

/-- The bytes of a tree's signature. -/
def lmsSigBytes (s : LmsSig) : List Byte :=
  beBytes 4 s.q ++ beBytes 4 3 ++ digBytes s.rand ++ s.chains.flatMap digBytes ++ beBytes 4 7 ++ s.path.flatMap digBytes

/-- The bytes of an HSS signature: one signed public key, then the message's signature. -/
def hssSigBytes (s : HssSig) : List Byte := beBytes 4 1 ++ lmsSigBytes s.top ++ lmsPubBytes s.next ++ lmsSigBytes s.last

/-- The key of a tree below one-time key q of another (log entry 112). -/
def childKey (k : LmsKey) (q : Nat) : LmsKey :=
  { id := (lmsHash k.id q 65535 ([0xFF] ++ digBytes k.seed)).extractLsb' 128 128, seed := lmsHash k.id q 65534 ([0xFF] ++ digBytes k.seed) }

/-- The top tree of the device's key pair, from the PUF seed. -/
def deviceKey (seed : BitVec 256) : LmsKey := childKey { id := 0, seed := seed } 0

/-- The device's public key. -/
def devicePub (seed : BitVec 256) : LmsPub := lmsPub (deviceKey seed)

/-- One-time keys of a two-level key pair. -/
def hssKeys : Nat := 2 ^ 30

/-- A message signed with one-time key n of a two-level key pair. -/
def hssSign (k : LmsKey) (n : Nat) (msg : List Byte) : HssSig :=
  let q := n / 2 ^ 15
  let c := childKey k q
  { top := lmsSign k q (Config.lmsRandom 0 q) (lmsPubBytes (lmsPub c)), next := lmsPub c, last := lmsSign c (n % 2 ^ 15) (Config.lmsRandom 1 n) msg }

/-- Whether an HSS signature of a message stands under a public key. -/
def hssVerify (p : LmsPub) (msg : List Byte) (s : HssSig) : Bool := lmsVerify p (lmsPubBytes s.next) s.top && lmsVerify s.next msg s.last

end Sys2Proof.Machine
end

