-- ==== Sys2Proof/Machine/System.lean ====
section
/-! DEFINITION. System instructions: TRAP, SIGH, TLBI, CTXSV, CTXLD, REPLAY, KILLF, PLACE (R100, R101, R228, R229, R233-R241, R304, R386,
R387, R391, R461, R462). -/
namespace Sys2Proof.Machine
open Sys2Proof

/-! ## TRAP (R228, R229, R462) -/

/-- Bytes of the HSS signature of R460: two levels of LMS_SHA256_M32_H15 with LMOTS_SHA256_N32_W4. -/
def hssBytes : Nat := 5396

/-- Bytes 0 to 127 of the attestation report (R462). -/
def reportHead (h : Hub) (nonce : List Byte) : List Byte :=
  nonce ++ digBytes h.fwHash ++ leBytes 8 (reg h 0).toNat ++ leBytes 4 h.lms ++ [BitVec.ofNat 8 (fld (reg h 0x7018) 0 8)] ++ List.replicate 51 0

/-- The attestation report (R462): its head, and the device's signature over it with the current index. -/
def reportBytes (h : Hub) (nonce : List Byte) : List Byte :=
  reportHead h nonce ++ hssSigBytes (hssSign (deviceKey h.seed) h.lms (reportHead h nonce))

/-- Whether an index is left to sign with (R460, R461). -/
def indexLeft (h : Hub) : Bool := h.lmsLeft != 0 && decide (h.lms < hssKeys)

/-- Bytes of a report. -/
def reportLen : Nat := 128 + hssBytes

/-- The bytes at a pointer of a context, through its translation. -/
def bytesOf (s : State) (l : Loc) (ptr : Word) (n : Nat) : List Byte :=
  if spaceOf ptr = 0 then
    (upto n).flatMap (fun i =>
      let va := addrOf (ptrAdd ptr (BitVec.ofNat 64 i))
      match l.tlbFind va with | some t => [homeByte s (t.keyOf va)] | none => [0])
  else bytesAt (l.buf (spaceOf ptr)) (addrOf ptr) n

/-- A write of a context to G that is performed in the same step: one 64-byte piece. -/
def putG (cid : Nat) (rel : Option Scope) (page : Option (Nat × Nat)) (s : State) (key : Nat) (bs : List Byte) : State :=
  let c := ctxOf s cid
  let core := coreAt s (coreOfCid cid)
  let s1 := hubPut s { pa := key, bytes := bs, stamp := stampOf s.hub core.late, rel := rel, sig := c.sig ||| sigBits key, pois := false, mayHold := true
                       atomic := false, hub := false, by_ := some cid, page := page }
  let core1 := coreAt s1 (coreOfCid cid)
  let s2 := putCore s1 (coreOfCid cid) { core1 with dcache := core1.dcache.filter (fun d => d.line != key / 64) }
  let c2 := ctxOf s2 cid
  putCtx s2 cid { c2 with sig := c2.sig ||| sigBits key }

/-- Bytes written at a 64-aligned pointer of a context in 64-byte pieces; a page without a translation takes none. -/
def putAt (cid : Nat) (rel : Option Scope) (ptr : Word) (bs : List Byte) (s : State) : State :=
  if spaceOf ptr = 0 then
    (upto ((bs.length + 63) / 64)).foldl (fun s i =>
      let va := addrOf (ptrAdd ptr (BitVec.ofNat 64 (64 * i)))
      match (s.loc cid).tlbFind va with
      | some t =>
          let s1 := putG cid rel (some ((ctxOf s cid).pasid.toNat, va)) s (t.keyOf va) ((bs.drop (64 * i)).take 64)
          { s1 with hub := countClaim s1.hub (t.keyOf va) t.trk }
      | none => s) s
  else s.putLoc ((s.loc cid).writeBuf (spaceOf ptr) (addrOf ptr) bs false)

/-- Every page of n bytes of G from a pointer is translated for a kind of access. -/
def pagesOk (l : Loc) (ptr : Word) (n : Nat) (k : Acc) : Res Unit :=
  (upto ((addrOf ptr % 2 ^ 12 + n + 2 ^ 12 - 1) / 2 ^ 12)).foldlM (fun (_ : Unit) i => do
    let va := addrOf (ptrAdd ptr (BitVec.ofNat 64 (if i = 0 then 0 else 2 ^ 12 * i - addrOf ptr % 2 ^ 12)))
    let t ← xlate l va k
    if isHub (t.keyOf va) then flt06 l ptr k else .ok ()) ()

/-- A place of n bytes that machine code reaches: a buffer, or pages of G. -/
def placeOk (l : Loc) (ptr : Word) (n align : Nat) (k : Acc) : Res Unit := do
  checkPtr l ptr n align k
  if spaceOf ptr = 0 then pagesOk l ptr n k else .ok ()

/-- The machine code that boot installed serves TRAP 0x0100 at PRIV 1 (R462): the report at P1, A[63:0] 0, or 1 when no index is left. -/
def attest (l : Loc) : Res (Loc × (State → State)) := do
  let c := l.ctx
  placeOk l (l.p 0) 32 1 .read
  placeOk l (l.p 1) reportLen 64 .write
  let c1 := { c with mtpc := c.pc + 1, mtst := c.stat, mtcode := 0x0100 }
  let code : Word := if indexLeft l.hub then 0 else 1
  let l1 := { l with ctx := { c1 with a := c.a.extractLsb' 64 64 ++ code } }
  if !indexLeft l.hub then .ok (l1, id)
  else
    .ok ({ l1 with hub := { l.hub with lms := l.hub.lms + 1, lmsLeft := l.hub.lmsLeft - 1 } }, fun t =>
      putAt l.cid none (l.p 1) (reportBytes l.hub (bytesOf t (t.loc l.cid) (l.p 0) 32)) t)

/-- TRAP (R228, R229). -/
def trapBody (n : BitVec 16) (_ : State) (l : Loc) : Res (Loc × (State → State)) :=
  let c := l.ctx
  match c.status with
  | .parked (.trapWait m) => let (l1, p) := trapPark l m; parkOn l1 p
  | _ =>
      if l.priv = 0 then let (l1, p) := trapPark l n; parkOn l1 p
      else if l.priv = 1 then
        if n = 0x0100 ∧ c.mtvec = none then attest l
        else
          let c1 := { c with mtpc := c.pc + 1, mtst := c.stat, mtcode := n, stat := setFld (setBit c.stat 47 false) 43 2 2, tgtCheck := true }
          .ok ({ l with ctx := c1, next := .jump (mtvecOf l) }, id)
      else flt l 0x01

/-- TRAP as an issue of context `cur`; a record that it makes is sent. -/
def execTrap (c : Cond) (n : BitVec 16) (s : State) : Host.Outcome State Fault Refusal :=
  match issueG (.trap c n) (trapBody n) s with
  | .next t => .next (wholeIssue s (sendRecs t))
  | r => r

/-! ## SIGH (R237) -/

/-- SIGH (R237). The MSI-X table has all 2,048 entries, so every vector of 11 bits is in it. A full hold stalls the context (R415). With IRV 1
the message leaves at once, ahead of messages of the context that wait in the hold (log entry 93). The record of a vector out of range has the
operand word as its ADDR (log entry 121). -/
def bodySigh (c : Cond) (s1 : Opd) (irv : Bool) : Loc → Res Loc :=
  fun l => do
    let sh := shape (.sigh c s1 irv)
    let g ← fetchArgs l .d 0 sh
    let w : Word := g.a.val.setWidth 64
    (if w.toNat < 2048 then .ok () else flt06 l w .read)
    (if irv ∨ !extFull l.hub then .ok () else parkOn { l with hub := wantHold l.hub (stampOf l.hub l.core.late) } .stall)
    let l1 := l.take sh g
    .ok (if irv then { l1.cirSet 2 with hub := { l1.hub with out := .msi w.toNat :: l1.hub.out } }
      else
        let e := stampOf l1.hub l1.core.late
        { l1 with hub := wantHold { l1.hub with held := l1.hub.held ++ [{ stamp := e, item := .msi w.toNat, by_ := some l1.cid, page := none }] } e })

/-- SIGH as an issue of context `cur`. -/
def execSigh (c : Cond) (s1 : Opd) (irv : Bool) (s : State) : Host.Outcome State Fault Refusal :=
  issue (.sigh c s1 irv) (bodySigh c s1 irv) s

/-! ## TLBI (R233) -/

/-- Whether TLBI drops a translation. -/
def tlbiHit (ty : TlbiType) (page pasid : Nat) (t : Tlb) : Bool :=
  match ty with
  | .page => t.vpage == page && (t.pasid == pasid || t.g)
  | .pasid => t.pasid == pasid && !t.g
  | .nonglobal => !t.g
  | .all => true

/-- Whether TLBI drops a cached table pointer: every pointer that may lead to a dropped entry. -/
def tlbiPtr (ty : TlbiType) (page pasid : Nat) (p : PtrEnt) : Bool :=
  match ty with
  | .page => p.prefx == page * 2 ^ 14 / 2 ^ levelShift p.level
  | .pasid => p.pasid == pasid
  | _ => true

/-- Whether an access of a process to a page may have used an entry that TLBI drops. -/
def tlbiUse (ty : TlbiType) (page pasid : Nat) (who : Nat) (va n : Nat) : Bool :=
  match ty with
  | .page => decide (va < (page + 1) * 2 ^ 14) && decide (page * 2 ^ 14 < va + n)
  | .pasid => who == pasid
  | _ => true

/-- Whether a context has an access in flight that used a dropped entry. -/
def tlbiBusy (ty : TlbiType) (page pasid : Nat) (c : Ctx) : Bool :=
  let use := fun (va : Word) (n : Nat) => tlbiUse ty page pasid c.pasid.toNat (addrOf va) n
  c.stq.any (fun g => use g.va g.bytes.length) || c.aldq.any (fun a => use a.va a.n) ||
  (match c.status with
   | .parked (.load va _ n ..) => use va n
   | .parked (.atomic r) => spaceOf r.va == 0 && use r.va r.bytes
   | _ => false)

/-- Whether a prefetch of a core that used a dropped entry is on its way. -/
def tlbiPref (ty : TlbiType) (page pasid : Nat) (k : Core) : Bool := k.prefs.any (fun f => tlbiUse ty page pasid f.pasid f.va 64)

/-- TLBI (R233): it waits for the accesses in flight, and retires as every structure drops its entries; those that wait on an address through
one of them read it again (log entry 32). -/
def tlbiBody (i : Instr) (ty : TlbiType) (s : State) (l : Loc) : Res (Loc × (State → State)) := do
  let g ← fetchArgs l .d 0 (shape i)
  let page := fld g.a.val 14 46
  let pasid := fld g.b.val 0 20
  if s.ctxs.any (fun e => tlbiBusy ty page pasid e.2) || s.cores.any (fun k => tlbiPref ty page pasid k.2) then parkOn l .service
  else .ok (l.take (shape i) g, fun t =>
    dropTlbs (landWaits (fun c r => tlbiUse ty page pasid c.pasid.toNat (addrOf r.va) r.bytes) t) (fun x => !tlbiHit ty page pasid x)
      (fun p => !tlbiPtr ty page pasid p))

/-- TLBI as an issue of context `cur`. -/
def execTlbi (c : Cond) (s1 : Opd) (s2 : Opd) (ty : TlbiType) (s : State) : Host.Outcome State Fault Refusal :=
  issueG (.tlbi c s1 s2 ty) (tlbiBody (.tlbi c s1 s2 ty) ty) s

/-! ## The save record (R100, R304) -/

/-- The bytes of the eight P registers of a live mask. -/
def liveP (c : Ctx) (live : BitVec 9) : List Byte :=
  (upto 8).flatMap (fun i => leBytes 8 (if live.getLsbD (i + 1) then (c.p.toList.getD i 0).toNat else 0))

/-- The firing word of an image (R100). -/
def firingWord (c : Ctx) (live : BitVec 9) : Nat :=
  c.ch0.toNat + c.pop0 * 2 ^ 5 + (match c.ch1 with | some n => n.toNat * 2 ^ 10 + 2 ^ 20 | none => 0) + c.pop1 * 2 ^ 15 +
  c.produced * 2 ^ 21 + live.toNat * 2 ^ 27 + c.dl * 2 ^ 36

/-- The context image of 192 bytes (R100). -/
def imageBytes (c : Ctx) (live : BitVec 9) : List Byte :=
  leBytes 16 (if live.getLsbD 0 then c.a.toNat else 0) ++ liveP c live ++ leBytes 8 c.stat.toNat ++ leBytes 8 c.cira.toNat ++
  leBytes 4 c.cir.toNat ++ leBytes 4 c.ntgt.toNat ++ leBytes 8 c.pc.toNat ++ leBytes 8 c.btgt.toNat ++
  leBytes 8 c.lbeg0.toNat ++ leBytes 8 c.lend0.toNat ++ leBytes 8 c.lcnt0.toNat ++
  leBytes 8 c.lbeg1.toNat ++ leBytes 8 c.lend1.toNat ++ leBytes 8 c.lcnt1.toNat ++ leBytes 8 (firingWord c live) ++
  leBytes 8 (c.outbox.length + c.journal.length * 2 ^ 6 + c.dleft * 2 ^ 14 + c.prate * 2 ^ 26 + c.c0 * 2 ^ 32 + c.c1 * 2 ^ 37) ++
  leBytes 8 (1 + 2 ^ 8 + c.pasid.toNat * 2 ^ 9 + c.lslot.toNat * 2 ^ 29 + c.inst.toNat * 2 ^ 41)

/-- The code of a direction in a slot. -/
def dirCode : Dir → Nat
  | .nx => 0 | .pv => 1 | .up => 2 | .dn => 3

/-- The direction of a code. -/
def dirOf (n : Nat) : Dir := match n % 4 with | 0 => .nx | 1 => .pv | 2 => .up | _ => .dn

/-- An outbox slot of 64 bytes (R304). The record gives the places of a SEND token and of a bound image; byte 63 tells the kinds apart, and
the other kinds have places of the model's choice (log entry 14). -/
def outSlot : OutItem → List Byte
  | .tok t dest rch =>
      padTo 63 (leBytes 16 t.payload.toNat ++ leBytes 4 dest.toNat ++ leBytes 1 (match rch with | some c => 32 + c.toNat | none => 0)) ++ [1]
  | .nbr t dch dir => padTo 63 (leBytes 16 t.payload.toNat ++ leBytes 4 0 ++ leBytes 1 dch.toNat ++ leBytes 1 (dirCode dir)) ++ [2]
  | .bind img ch => padTo 63 (leBytes 32 img.toNat ++ leBytes 1 ch) ++ [3]
  | .unbind ch => padTo 63 (leBytes 32 0 ++ leBytes 1 ch) ++ [4]
  | .fork n m e j _ _ key trk =>
      padTo 63 (leBytes 8 n.toNat ++ leBytes 8 m.toNat ++ leBytes 8 e.toNat ++ leBytes 8 j.toNat ++ leBytes 8 key ++ leBytes 1 trk.toNat) ++ [5]

/-- A journal slot of 32 bytes (R304). -/
def journalSlot (e : JEntry) : List Byte := padTo 32 (e.old ++ leBytes 4 (16 * e.word + e.space * 2 ^ 16))

/-- The record of a context: 8 KiB (R304). -/
def recordBytes (c : Ctx) (live : BitVec 9) : List Byte :=
  padTo 8192 (padTo 192 (imageBytes c live) ++ padTo 1024 ((c.quota0 ++ c.quota1).flatMap tokSlot) ++ padTo 2560 (c.outbox.flatMap outSlot) ++
    padTo 4096 (c.journal.flatMap journalSlot))

/-- What is kept beside the record of a context. -/
def asideOf (core : Nat) (c : Ctx) : Aside :=
  { kind := c.kind, linked := c.linked, taken := c.taken, toks := c.quota0 ++ c.quota1, credits := c.credits, oedge := c.oedge
    dlEntry := c.dlEntry, core := core, ps := c.outbox.filterMap (fun o => match o with | .fork _ _ _ _ _ ps _ _ => some ps | _ => none)
    jpois := c.journal.map (·.pois), tgtCheck := c.tgtCheck, relNext := c.relNext, free := c.free, level := c.level }

/-! ## CTXSV (R234) -/

/-- The parks in which CTXSV saves a context (R72, R234). -/
def savable : Status → Bool
  | .parked .wait | .parked (.waita _) | .parked (.seal _) | .parked (.fault ..) | .parked (.camWait ..) | .parked (.trap _)
  | .parked (.trapWait _) => true
  | _ => false

/-- A CID as an operand (R18): fault 0x06 for a reserved code or a vacant position, with the operand word as ADDR (log entry 121). -/
def cidOk (l : Loc) (w : Word) : Res Nat :=
  if inService l.hub (coreOfCid (fld w 0 14)) then .ok (fld w 0 14) else flt06 l w .read

/-- A firing more, or less, is saved from a channel of a core, and from a launch (R305, R312); the first firmware belongs to none. -/
def countSaved (s : State) (core : Nat) (kind : FiringKind) (lslot : Option Nat) (more : Bool) : State :=
  let upd := fun (n : Nat) => if more then n + 1 else n - 1
  let s1 := match kind with
    | .actor ch =>
        let k := coreAt s core
        putCore s core { k with savedCh := mset 0 k.savedCh ch.toNat (upd (mget 0 k.savedCh ch.toNat)) }
    | _ => s
  match lslot.bind (fun k => (launchOf s1.hub k).map (fun la => (k, la))) with
  | some (k, la) => { s1 with hub := putLaunch s1.hub k { la with saved := upd la.saved } }
  | none => s1

/-- The launch slot of a firing; none for the first firmware. -/
def Ctx.slotOf (c : Ctx) : Option Nat := if c.free then none else some c.lslot.toNat

/-- The save of context `t` by context `by_` at a pointer (R234). -/
def saveNow (by_ t : Nat) (ptr : Word) (live : BitVec 9) (s : State) : State :=
  let c := ctxOf s t
  let key := match (s.loc by_).tlbFind (addrOf ptr) with | some x => x.keyOf (addrOf ptr) | none => 0
  let s1 := putAt by_ (some .dev) ptr (recordBytes c live) s
  let h := leaveCam s1.hub t
  let h1 := { h with tables := { h.tables with asides := minsert (mdel h.tables.asides key) key (asideOf (coreOfCid t) c) } }
  countSaved (leave { s1 with hub := h1 } t) (coreOfCid t) c.kind c.slotOf true

/-- A pending deferred fault of a context that is to be saved is raised there instead (R390). -/
def raiseAt (t : Nat) (f : FaultInfo) (s : State) : State :=
  let l := s.loc t
  s.putLoc (raise { l with hub := leaveCam l.hub t } f)

/-- A pointer to a record in G (R234): 64-aligned. -/
def recordPtr (l : Loc) (ptr : Word) (k : Acc) : Res Unit :=
  if spaceOf ptr ≠ 0 ∨ addrOf ptr % 64 ≠ 0 then flt06 l ptr k else pagesOk l ptr 8192 k

/-- CTXSV (R234). -/
def ctxsvBody (i : Instr) (live : BitVec 9) (s : State) (l : Loc) : Res (Loc × (State → State)) := do
  let sh := shape i
  let g ← fetchArgs l .d 0 sh
  let ptr : Word := g.b.val.setWidth 64
  let t ← cidOk l (g.a.val.setWidth 64)
  let c := ctxOf s t
  let done := fun (z : Bool) => (l.take sh g).flags { noFlags with z := some z }
  if !savable c.status then .ok (done false, id)
  else if c.cnt ≠ 0 then parkOn l .service
  else match dueFault c (fun _ => true) with
    | some f => .ok (done false, raiseAt t f)
    | none => do
        recordPtr l ptr .write
        (if relReady l .dev then .ok () else parkOn l .service)
        .ok (done true, saveNow l.cid t ptr live)

/-- CTXSV as an issue of context `cur`. -/
def execCtxsv (c : Cond) (s1 : Opd) (s2 : Opd) (live : BitVec 9) (s : State) : Host.Outcome State Fault Refusal :=
  issueG (.ctxsv c s1 s2 live) (ctxsvBody (.ctxsv c s1 s2 live) live) s

/-! ## CTXLD (R235, R101) -/

/-- The little-endian doubleword at an offset of a record. -/
def recDw (bs : List Byte) (off n : Nat) : Nat := leVal ((bs.drop off).take n)

/-- Whether an image is valid (R100, R101): its version, its valid bit, the bits that must be zero, and its counts. -/
def imageValid (bs : List Byte) : Bool :=
  let fw := recDw bs 168 8
  let cw := recDw bs 176 8
  let vw := recDw bs 184 8
  bits vw 0 8 == 1 && bit vw 8 && bits vw 52 12 == 0 && bits cw 42 22 == 0 && bits fw 48 16 == 0 && recDw bs 98 2 == 0 &&
  decide (bits cw 0 6 ≤ 40) && decide (bits cw 6 8 ≤ 128) && decide (bits cw 26 6 ≤ 32) && decide (bits cw 32 5 ≤ 16) &&
  decide (bits cw 37 5 ≤ 16) && decide (bits fw 21 6 ≤ 32) && decide (bits fw 5 5 ≤ 16) && decide (bits fw 15 5 ≤ 16)

/-- A quota token of a record; what its slot has no place for comes from beside it. -/
def loadTok (bs : List Byte) (pasid : BitVec 20) (side : Option Token) (k : Nat) : Token :=
  let p := BitVec.ofNat 128 (recDw bs (192 + 32 * k) 16)
  let g := BitVec.ofNat 64 (recDw bs (192 + 32 * k + 16) 8)
  match side with
  | some t => { t with payload := p, tag := g, sig := 0 }
  | none => { bareToken p g with sig := 0, pasid := pasid }

/-- An outbox item of a record. `ps` are P3 to P7 of the forks from beside it, `img` those of the image. -/
def loadOut (bs : List Byte) (ps : List (List Word)) (img : List Word) (k : Nat) : OutItem × List (List Word) :=
  let o := 1216 + 64 * k
  let t := newToken (BitVec.ofNat 128 (recDw bs o 16))
  let b := recDw bs (o + 20) 1
  match recDw bs (o + 63) 1 with
  | 2 => (.nbr t (BitVec.ofNat 5 b) (dirOf (recDw bs (o + 21) 1)), ps)
  | 3 => (.bind (BitVec.ofNat 256 (recDw bs o 32)) (recDw bs (o + 32) 1 % 32), ps)
  | 4 => (.unbind (recDw bs (o + 32) 1 % 32), ps)
  | 5 =>
      let n := recDw bs o 8
      let m := recDw bs (o + 8) 8
      (.fork (BitVec.ofNat 64 n) (BitVec.ofNat 64 m) (BitVec.ofNat 64 (recDw bs (o + 16) 8)) (BitVec.ofNat 64 (recDw bs (o + 24) 8))
        ((n + m - 1) / m) (ps.head?.getD img) (recDw bs (o + 32) 8) (recDw bs (o + 40) 1 == 1), ps.drop 1)
  | _ => (.tok t (BitVec.ofNat 32 (recDw bs (o + 16) 4)) (if b / 32 % 2 = 1 then some (BitVec.ofNat 5 b) else none), ps)

/-- The outbox of a record, from its k-th slot on. -/
def loadOuts (bs : List Byte) (img : List Word) : Nat → Nat → List (List Word) → List OutItem
  | 0, _, _ => []
  | n + 1, k, ps => let (o, rest) := loadOut bs ps img k; o :: loadOuts bs img n (k + 1) rest

/-- A journal entry of a record; its poison mark comes from beside it. -/
def loadJ (bs : List Byte) (marks : List Bool) (k : Nat) : JEntry :=
  let o := 3776 + 32 * k
  let w := recDw bs (o + 16) 4
  { space := bits w 16 2, word := bits w 0 14 / 16, old := (bs.drop o).take 16, pois := marks.getD k false }

/-- The context that a record describes, on a context whose machine trap registers stay (R75, R100, R235): registers outside the live mask are
zero, and reserved bits of STAT and CIR read 0 (R5). -/
def loadCtx (s : State) (t : Nat) (bs : List Byte) (side : Option Aside) : Ctx :=
  let old := ctxOf s t
  let core := coreOfCid t
  let dw := fun (o : Nat) => BitVec.ofNat 64 (recDw bs o 8)
  let fw := recDw bs 168 8
  let cw := recDw bs 176 8
  let vw := recDw bs 184 8
  let pasid := BitVec.ofNat 20 (bits vw 9 20)
  let ch0 := BitVec.ofNat 5 (bits fw 0 5)
  let c0 := bits cw 32 5
  let c1 := bits cw 37 5
  let stat := statHeld (dw 80)
  let live := BitVec.ofNat 9 (bits fw 27 9)
  let p : Vector Word 8 := Vector.ofFn (fun (k : Fin 8) => if live.getLsbD (k.val + 1) then dw (16 + 8 * k.val) else 0)
  let tok := fun (k : Nat) => loadTok bs pasid (side.bind (fun a => a.toks[k]?)) k
  let prate := bits cw 26 6
  let produced := bits fw 21 6
  let lslot := bits vw 29 12
  let inst := bits vw 41 11
  let oedge : BitVec 32 := match side with | some a => a.oedge | none => entOedge (chanAt s core ch0.toNat).entry
  { emptyCtx with
    status := .issuing, a := if live.getLsbD 0 then BitVec.ofNat 128 (recDw bs 0 16) else 0, p := p, stat := stat, cira := dw 88
    cir := BitVec.ofNat 16 (recDw bs 96 2) &&& 0xFF0F
    ntgt := BitVec.ofNat 32 (recDw bs 100 4), pc := dw 104, btgt := dw 112, lbeg0 := dw 120, lend0 := dw 128, lcnt0 := dw 136
    lbeg1 := dw 144, lend1 := dw 152, lcnt1 := dw 160, dl := bits fw 36 12, dleft := bits cw 14 12
    dlEntry := (match side with | some a => a.dlEntry | none => bits fw 36 12)
    live := live, produced := produced, prate := prate, ch0 := ch0
    ch1 := (if bit fw 20 then some (BitVec.ofNat 5 (bits fw 10 5)) else none), pop0 := bits fw 5 5, pop1 := bits fw 15 5, c0 := c0, c1 := c1
    quota0 := (upto c0).map tok, quota1 := (upto c1).map (fun k => tok (c0 + k))
    outbox := loadOuts bs (p.toList.drop 3) (bits cw 0 6) 0 ((side.map (·.ps)).getD []), journal := (upto (bits cw 6 8)).map (loadJ bs ((side.map (·.jpois)).getD []))
    pasid := pasid, lslot := BitVec.ofNat 12 lslot, inst := BitVec.ofNat 11 inst, level := (match side with | some a => a.level | none => levelOf s.hub lslot inst)
    kind := (match side with | some a => a.kind | none => .actor ch0)
    tgtCheck := (match side with | some a => a.tgtCheck | none => false), relNext := side.bind (·.relNext)
    free := (match side with | some a => a.free | none => false)
    linked := (match side with | some a => a.linked | none => false)
    taken := (match side with | some a => a.taken | none => stDS stat != 0)
    credits := (match side with | some a => a.credits | none => if oedge = 0 then 0 else prate - produced), oedge := oedge
    sig := BitVec.allOnes 256, mtpc := old.mtpc, mtst := old.mtst, mtvec := old.mtvec, mtcode := old.mtcode }

/-- The granules of a record at a pointer of a context, with the tracking claims of their pages. -/
def recordKeys (l : Loc) (ptr : Word) : List (Nat × Bool) :=
  (upto 128).filterMap (fun i =>
    let va := addrOf (ptrAdd ptr (BitVec.ofNat 64 (64 * i)))
    (l.tlbFind va).map (fun t => (t.keyOf va, t.trk)))

/-- A granule of a record is read at its home, which refreshes the core's copy of the line (R359); its tracking claim is checked (R413). -/
def recordRead (core : Nat) (s : State) (k : Nat × Bool) : State :=
  let t := (homeRead s k.1 64).1
  refreshD { t with hub := countClaim t.hub k.1 k.2 } core k.1 false

/-- The load of a record into context `t` (R235) by context `by_`, from its granules `ks`; the record's firing no longer counts as saved. In a
cluster that is to change hands the firing is pre-empted as the others are (R317). A poisoned record rolls the device back (R402). -/
def loadNow (by_ t : Nat) (ks : List (Nat × Bool)) (bs : List Byte) (s0 : State) : State :=
  let s := ks.foldl (recordRead (coreOfCid by_)) s0
  let key := (ks.headD (0, false)).1
  if ks.any (fun k => granPois s k.1) then dueRollback s 4
  else
    let side := (s.hub.tables.asides.find? (fun e => e.1 == key)).map (·.2)
    let c := loadCtx s t bs side
    let core := match side with | some a => a.core | none => coreOfCid t
    let home := coreOfCid t
    let wake := { c with preempt := (mget emptyCluster s.clus (clusOfCore home)).wanted.isSome }
    let s0 := putCore s home { coreAt s home with gated := false }
    let s1 := countSaved (putCtx s0 t wake) core c.kind c.slotOf false
    { s1 with hub := { s1.hub with tables := { s1.hub.tables with asides := mdel s1.hub.tables.asides key } } }

/-- CTXLD (R235). -/
def ctxldBody (i : Instr) (s : State) (l : Loc) : Res (Loc × (State → State)) := do
  let sh := shape i
  let g ← fetchArgs l .d 0 sh
  let ptr : Word := g.b.val.setWidth 64
  let t ← cidOk l (g.a.val.setWidth 64)
  let done := fun (z : Bool) => (l.take sh g).flags { noFlags with z := some z }
  if (ctxOf s t).status ≠ .dormant then .ok (done false, id)
  else do
    recordPtr l ptr .read
    (if l.ctx.stq.isEmpty then .ok () else parkOn l .stall)
    let bs := bytesOf s l ptr 8192
    need l (imageValid bs) 0x02
    .ok (done true, loadNow l.cid t (recordKeys l ptr) bs)

/-- CTXLD as an issue of context `cur`. -/
def execCtxld (c : Cond) (s1 : Opd) (s2 : Opd) (s : State) : Host.Outcome State Fault Refusal :=
  issueG (.ctxld c s1 s2) (ctxldBody (.ctxld c s1 s2)) s

/-! ## REPLAY and KILLF (R238, R239, R241, R386, R387) -/

/-- The live entry of a replay token (R386). -/
def camOf (h : Hub) (w : Word) : Option (Nat × CamEntry) :=
  h.cam.find? (fun e => e.1 == fld w 0 6 && e.2.seq == fld w 6 58)

/-- REPLAY (R238): after the context's earlier stores have been performed. -/
def replayBody (i : Instr) (_ : State) (l : Loc) : Res (Loc × (State → State)) := do
  let sh := shape i
  let g ← fetchArgs l .d 0 sh
  (if l.ctx.stq.isEmpty ∧ l.ctx.rstq.isEmpty then .ok () else parkOn l .stall)
  let done := fun (z : Bool) => (l.take sh g).flags { noFlags with z := some z }
  match camOf l.hub (g.a.val.setWidth 64) with
  | none => .ok (done false, id)
  | some (k, e) => .ok (done true, fun t => e.reqs.foldl (resumeReq (g.b.val.setWidth 64)) (freeCam t k))

/-- REPLAY as an issue of context `cur`. -/
def execReplay (c : Cond) (s1 : Opd) (s2 : Opd) (s : State) : Host.Outcome State Fault Refusal :=
  issueG (.replay c s1 s2) (replayBody (.replay c s1 s2)) s

/-- The work of a command record that KILLF ends (R438): FAILED, or its completion dropped. -/
def killWork (s : State) (k : Nat) : State :=
  match workOf s k with
  | none => s
  | some w =>
      putWork s k { w with parked := none, walking := none, due := none, finished := some (match w.finished with | some x => x | none => 2)
                           caddr := if w.finished.isSome then 0 else w.caddr, msie := w.msie && w.finished.isNone }

/-- What KILLF does to one requester (R239). An engine that merged into an entry of the other code takes the entry's (log entry 94). -/
def killReq (e : CamEntry) (drop : Bool) (s : State) (q : Requester) : State :=
  match q with
  | .ctx cid =>
      let c := ctxOf s cid
      let parked := match c.status with | .parked (.fault ..) | .parked (.trap _) => true | _ => false
      if !parked then s
      else if c.irv then uncontained s cid 0x30 3
      else putCtx s cid { c with status := .killing 0 drop, landed := [] }
  | .engine x => engineFault s x e.code (BitVec.ofNat 64 (e.page * 2 ^ 14))
  | .work k => killWork s k

/-- KILLF (R239). -/
def killfBody (i : Instr) (drop : Bool) (_ : State) (l : Loc) : Res (Loc × (State → State)) := do
  let sh := shape i
  let g ← fetchArgs l .d 0 sh
  let done := fun (z : Bool) => (l.take sh g).flags { noFlags with z := some z }
  match camOf l.hub (g.a.val.setWidth 64) with
  | none => .ok (done false, id)
  | some (k, e) => .ok (done true, fun t => e.reqs.foldl (killReq e drop) (freeCam t k))

/-- KILLF as an issue of context `cur`. -/
def execKillf (c : Cond) (s1 : Opd) (drop : Bool) (s : State) : Host.Outcome State Fault Refusal :=
  issueG (.killf c s1 drop) (killfBody (.killf c s1 drop) drop) s

/-! ## PLACE (R240, R290) -/

/-- A token that a mailbox releases reaches its channel, or sets out again by the entry in force. -/
def handOver (s : State) (f : Flight) : State :=
  match targetOf s.hub f with
  | some (c, n) => (deliver s f c n).getD { s with hub := { s.hub with flight := s.hub.flight ++ [f] } }
  | none => route s f

/-- The escalation timer of a token that was swapped out runs again when the token is back in a channel store (R389). -/
def resumeTimer (s : State) (slot inst core : Nat) (t : Token) : State :=
  match s.hub.esc.findIdx? (fun e => e.off == some (slot, inst) && e.ch.toNat == fld t.tag 0 5 && e.payload == t.payload) with
  | some i =>
      let up := fun (e : EscTimer) => { e with core := core, due := s.now + e.due, off := none }
      { s with hub := { s.hub with esc := (upto s.hub.esc.length).filterMap (fun j => (s.hub.esc[j]?).map (fun e => if j = i then up e else e)) } }
  | none => s

/-- A token of a swapped-out instance goes back into its channel of the core that now holds the instance (R318), or is dropped when
the instance has exited. -/
def restoreTok (slot inst : Nat) (s : State) (t : Token) : State :=
  let w := placeWordOf s.hub (adOf slot inst 0)
  let ch := fld t.tag 0 5
  if pst w = 1 then
    let s1 := noteRunnable s (putChan s (plCore w) ch { chanAt s (plCore w) ch with toks := (chanAt s (plCore w) ch).toks ++ [t] }) (plCore w)
    resumeTimer s1 slot inst (plCore w) t
  else dropToken s t false

/-- The tokens held for an instance of a launch leave its instance record and the pending mailbox, in order of arrival, unless the
instance is not placed yet (R240, R290, R306); its channel tokens come first. -/
def releaseMail (s : State) (slot inst : Nat) : State :=
  match launchOf s.hub slot with
  | none => s
  | some la =>
      let st := pst (mget 0 la.places inst)
      if st = 0 then s
      else
        let mine := fun (f : Flight) => match f.dest with | .addr a => adInst a == inst | .chan .. => false
        let r0 := mget emptyInst la.insts inst
        let r := readInst s la inst r0
        let held := (mailFlights s la 0x1000 0 la.pending).filter mine
        let s0 := if held.isEmpty then s else readPendingGrans la s
        let rest := la.pending.filter (fun f => !mine f)
        let swapped := if st = 2 then [] else r.toks
        let s0 := if st = 2 ∨ r0.all.isEmpty then s0 else readInstGrans la inst r0 s0
        let la1 := { la with pending := rest, insts := if st = 2 then la.insts else mset emptyInst la.insts inst { r0 with toks := [], chans := [] } }
        let s1 := { s0 with hub := putLaunch s0.hub slot la1 }
        let s2 := if held.isEmpty then s1 else putPending la s1 0 rest
        let s3 := if st = 2 ∨ r0.all.isEmpty then s2 else putInstMail la s2 inst 0 emptyInst
        let s4 := if st = 2 then s3 else r.chans.foldl (restoreTok slot inst) s3
        (swapped ++ held).foldl handOver s4

/-- A placement word is written (R240). A launch slot without a live launch has no table. -/
def placeNow (slot inst : Nat) (w : Word) (s : State) : State :=
  match launchOf s.hub slot with
  | none => s
  | some la => releaseMail { s with hub := putLaunch s.hub slot { la with places := mset 0 la.places inst w } } slot inst

/-- Whether a placement word has a nonzero bit that must be zero (R240). -/
def placeBad (w : Word) : Bool :=
  fld w 48 16 != 0 || fld w 13 3 != 0 || (pst w != 2 && fld w 16 32 != 0) || (pst w != 1 && plCore w != 0)

/-- PLACE (R240). The record of a word with a bit that must be zero has that word as its ADDR (log entry 121). -/
def placeBody (i : Instr) (_ : State) (l : Loc) : Res (Loc × (State → State)) := do
  let sh := shape i
  let g ← fetchArgs l .d 0 sh
  let a : BitVec 32 := g.a.val.setWidth 32
  let w : Word := g.b.val.setWidth 64
  need l (decide (adSlot a < 4096) && !placeBad w) 0x18
  (if pst w ≠ 1 ∨ inService l.hub (plCore w) then .ok () else flt06 l w .read)
  .ok (l.take sh g, placeNow (adSlot a) (adInst a) w)

/-- PLACE as an issue of context `cur`. -/
def execPlace (c : Cond) (s1 : Opd) (s2 : Opd) (s : State) : Host.Outcome State Fault Refusal :=
  issueG (.place c s1 s2) (placeBody (.place c s1 s2)) s

end Sys2Proof.Machine
end

