-- ==== Sys2Proof/Machine/Engines.lean ====
section
/-! DEFINITION. Tensors, the copy engines, the combining node, QFENCE and DIST (R48, R262-R274, R287, R337-R343). -/
namespace Sys2Proof.Machine
open Sys2Proof

/-! ## Tensors (R48, R262) -/

/-- A descriptor pair (R262). -/
structure Tens where
  sp : Nat
  base : Nat
  fmt : Nat
  cols : Nat
  rows : Nat
  brot : Nat
  tp : Nat
  rp : Nat
  deriving DecidableEq, Repr

/-- The tensor of a pair. -/
def tensOf (p w : Word) : Tens :=
  { sp := spaceOf p, base := addrOf p, fmt := fld w 60 4, cols := fld w 48 12, rows := fld w 36 12, brot := fld w 32 4, tp := fld w 16 16
    rp := fld w 0 16 }

/-- Planes that a bpN format reads; 0 for the dense formats (R32). -/
def planesOf (fmt : Nat) : Nat := if 3 ≤ fmt ∧ fmt ≤ 9 then fmt - 1 else 0

/-- Element bits (R262). -/
def elemBits (fmt : Nat) : Nat := match fmt with | 1 | 10 => 16 | 2 | 11 => 32 | 12 => 4 | 13 => 2 | _ => 8

/-- The LMU slot width of a format (R32): 0 for none. -/
def slotWidth (fmt : Nat) : Nat := match fmt with | 0 | 6 | 7 | 8 | 9 => 8 | 4 | 5 | 12 => 4 | 3 | 13 => 2 | _ => 0

/-- Whether a tensor is a bit-plane tensor. -/
def Tens.bp (t : Tens) : Bool := planesOf t.fmt != 0
/-- Blocks of 128 elements in a row. -/
def Tens.blocks (t : Tens) : Nat := (t.cols + 127) / 128
/-- The plane pitch PP. -/
def Tens.pp (t : Tens) : Nat := t.tp * 64
/-- RB of a dense format; for bpN, the bytes that a copy moves per row (R268). -/
def Tens.rowBytes (t : Tens) : Nat :=
  if t.bp then (planesOf t.fmt * 16 + 2) * t.blocks else t.cols * elemBits t.fmt / 8
/-- The start of row r (R262). -/
def Tens.row (t : Tens) (r : Nat) : Nat := t.base + r * t.rp + (if t.sp = 4 then 64 * (r * t.brot % 16) else 0)
/-- How far a row reaches from its start. -/
def Tens.reach (t : Tens) : Nat := if t.bp then 8 * t.pp + 2 * t.blocks else t.rowBytes
/-- Bytes in the stream of a copy. -/
def Tens.total (t : Tens) : Nat := t.rows * t.rowBytes

/-- The place of stream byte x, and how many bytes of the stream follow it in place (R339). -/
def Tens.at_ (t : Tens) (x : Nat) : Nat × Nat :=
  let row := t.row (x / t.rowBytes)
  let y := x % t.rowBytes
  let p := 16 * t.blocks
  if !t.bp then (row + y, t.rowBytes - y)
  else if y < planesOf t.fmt * p then (row + y / p * t.pp + y % p, p - y % p)
  else (row + 8 * t.pp + (y - planesOf t.fmt * p), t.rowBytes - y)

/-- Whether the form of a tensor is allowed (R262): fault 0x21 where not. `dest` for a destination. -/
def Tens.formOk (t : Tens) (dest : Bool) : Bool :=
  t.rows != 0 && t.cols != 0 && decide (t.fmt < 14) && (t.brot == 0 || t.sp == 4) &&
  (if t.bp then decide (16 * t.blocks ≤ t.pp) else t.cols * elemBits t.fmt % 8 == 0 && (!dest || decide (t.rowBytes ≤ t.rp))) &&
  (t.sp == 0 || (t.base % (if t.bp then 64 else 16) == 0 && t.rp % 16 == 0))

/-- Whether every byte of every row lies inside its buffer (R263). -/
def Tens.inside (t : Tens) : Bool := t.sp == 0 || (upto t.rows).all (fun r => decide (t.row r + t.reach ≤ bufSize t.sp))

/-- The checks of a tensor at issue (R80, R83, R262, R263). -/
def tensOk (l : Loc) (p : Word) (t : Tens) (spaces : List Nat) (dest bounds : Bool) : Res Unit := do
  (if t.sp ≤ 4 then .ok () else flt06 l p (if dest then .write else .read))
  need l (spaces.contains t.sp) 0x21
  need l (t.formOk dest) 0x21
  (if !bounds ∨ t.inside then .ok () else flt06 l p (if dest then .write else .read))

/-! ## Commands of a context (R264, R287) -/

/-- Whether no QFENCE holds a command back (R287): `seq` is its number and `bits` its queues. -/
def fenceOk (c : Ctx) (seq : Nat) (bits : BitVec 4) : Bool :=
  c.qfences.all (fun f =>
    decide (seq < f.1) || f.2 &&& bits == 0 || c.cmds.all (fun k => decide (f.1 ≤ k.seq) || k.queues &&& f.2 == 0))

/-- A command of a context starts. -/
def Ctx.start (c : Ctx) (seq : Nat) : Ctx := { c with cmds := c.cmds.map (fun k => if k.seq = seq then { k with started := true } else k) }

/-- A command issues: it takes a number and counts in its queues and classes (R264). -/
def Ctx.newCmd (c : Ctx) (bits : BitVec 4) (writesG : Bool) : Ctx :=
  let c1 := { c with cmds := c.cmds ++ [{ seq := c.cmdSeq, queues := bits, started := false, writesG := writesG }], cmdSeq := c.cmdSeq + 1 }
  let c2 := if bits &&& 11 = 0 then c1 else c1.cntInc 2
  if bits &&& 4 = 0 then c2 else c2.cntInc 3

/-- Whether a QFENCE still holds commands back. -/
def fenceLive (c : Ctx) (f : Nat × BitVec 4) : Bool := c.cmds.any (fun k => decide (k.seq < f.1) && k.queues &&& f.2 != 0)

/-- QFENCE (R287). -/
def bodyQfence (_c : Cond) (mask : BitVec 4) : Loc → Res Loc :=
  fun l => .ok { l with ctx := { l.ctx with qfences := (l.ctx.qfences ++ [(l.ctx.cmdSeq, mask)]).filter (fenceLive l.ctx) } }

/-- QFENCE as an issue of context `cur`. -/
def execQfence (c : Cond) (mask : BitVec 4) (s : State) : Host.Outcome State Fault Refusal :=
  issue (.qfence c mask) (bodyQfence c mask) s

/-! ## DIST (R271, R274) -/

/-- Cores dealt to. -/
def distNC (w : Word) : Nat := fld w 3 4
/-- Block size. -/
def distBS (w : Word) : Nat := (fld w 8 8 + 1) * 64
/-- The core of a cluster that block b is dealt to. -/
def distCore (w : Word) (cl b : Nat) : Nat := cl * 8 + (fld w 0 3 + b % distNC w) % 8

/-- DIST (R274). -/
def bodyDist (c : Cond) (s1 : Opd) : Loc → Res Loc :=
  fun l => do
    let sh := shape (.dist c s1)
    let g ← fetchArgs l .d 0 sh
    let w : Word := g.a.val.setWidth 64
    need l (fld w 16 48 == 0 && !bit w.toNat 7 && decide (1 ≤ distNC w) && decide (distNC w ≤ 8)) 0x01
    (if (upto (distNC w)).all (fun b => inService l.hub (distCore w (clusOfCore (coreOfCid l.cid)) b)) then .ok () else flt06 l w .read)
    let l1 := l.take sh g
    .ok { l1 with core := { l1.core with dist := w } }

/-- DIST as an issue of context `cur`. -/
def execDist (c : Cond) (s1 : Opd) (s : State) : Host.Outcome State Fault Refusal :=
  issue (.dist c s1) (bodyDist c s1) s

/-- The bytes that block b of a stream of T bytes reaches from the destination base (R271). -/
def distEnd (w : Word) (total b : Nat) : Nat := b / distNC w * distBS w + Nat.min (distBS w) (total - b * distBS w)

/-- The checks of a distributing copy (R271). -/
def distOk (l : Loc) (p : Word) (d : Tens) (w : Word) (q : CopyQ) : Res Unit := do
  need l ((d.sp == 1 || d.sp == 2) && d.brot == 0 && d.rp == d.rowBytes && q != .q3) 0x21
  let n := (d.total + distBS w - 1) / distBS w
  (if (upto (distNC w)).all (fun j => decide (d.base + distEnd w d.total (n - 1 - j) ≤ bufSize d.sp)) then .ok () else flt06 l p .write)

/-! ## COPY at issue (R263, R266-R268, R270, R329, R337, R341) -/

/-- The queue bit of a copy queue. -/
def copyBit : CopyQ → BitVec 4
  | .q0 => 1 | .q1 => 2 | .q3 => 8

/-- The queue of a copy in the view of a context. -/
def Loc.copyQ (l : Loc) : CopyQ → List CopyCmd
  | .q0 => l.clus.q0 | .q1 => l.clus.q1 | .q3 => l.dom.bulk

/-- The queue replaced. -/
def Loc.setCopyQ (l : Loc) (q : CopyQ) (ks : List CopyCmd) : Loc :=
  match q with
  | .q0 => { l with clus := { l.clus with q0 := ks } }
  | .q1 => { l with clus := { l.clus with q1 := ks } }
  | .q3 => { l with dom := { l.dom with bulk := ks } }

/-- Commands that a queue holds (R337). -/
def copyCap : CopyQ → Nat
  | .q3 => 64 | _ => 16

/-- A pair of registers as values. -/
def Loc.pairAt (l : Loc) (r : BitVec 4) : Word × Word := (l.p ⟨r.toNat % 8, Nat.mod_lt _ (by decide)⟩, l.p ⟨(r.toNat + 1) % 8, Nat.mod_lt _ (by decide)⟩)

/-- Whether a command may use the combining node (R270): a destination in W or X. The source must be one that its cluster shares: X and Y
name the buffers of each issuing core (log entry 16). -/
def mayCombine (k : CopyCmd) : Bool := k.comb && (spaceOf k.dst0 == 1 || spaceOf k.dst0 == 2) && (spaceOf k.src0 == 0 || spaceOf k.src0 == 4)

/-- Whether a command's combining group is open (R341): for 64 cclk, unless it has closed before. -/
def CopyCmd.isOpen (k : CopyCmd) (now : Nat) : Bool := match k.opened with | some t => decide (now < t + 64) | none => false

/-- Whether a command joins an open group (R270, R341). -/
def joins (now : Nat) (k g : CopyCmd) (m : Member) : Bool :=
  g.isOpen now && mayCombine k && g.src0 == k.src0 && g.src1 == k.src1 && g.dst0 == k.dst0 && g.dst1 == k.dst1 && g.pasid == k.pasid &&
  g.priv == k.priv && !g.members.any (fun x => x.core == m.core)

/-- A group with one more member; it closes as soon as it holds 8. -/
def joinGroup (g : CopyCmd) (m : Member) : CopyCmd :=
  let ms := g.members ++ [m]
  { g with members := ms, opened := if ms.length ≥ 8 then none else g.opened }

/-- The first matching group of a queue takes the member. -/
def joinFirst (now : Nat) (k : CopyCmd) (m : Member) : List CopyCmd → Option (List CopyCmd)
  | [] => none
  | g :: t => if joins now k g m then some (joinGroup g m :: t) else (joinFirst now k m t).map (g :: ·)

/-- Whether the context has an earlier command in the same queue that has not started (R341). -/
def unstartedIn (c : Ctx) (bits : BitVec 4) : Bool := c.cmds.any (fun k => !k.started && k.queues &&& bits != 0)

/-- A copy enters its queue, or joins a group, or opens one (R337, R341); a full queue stalls the context. A command that a QFENCE holds back
runs alone, so that it holds no other context's command (R287). -/
def submitCopy (l : Loc) (q : CopyQ) (k : CopyCmd) (m : Member) : Res Loc :=
  let free := mayCombine k && q != .q3 && !unstartedIn l.ctx (copyBit q) &&
    fenceOk l.ctx l.ctx.cmdSeq (if m.image.isSome then copyBit q ||| 4 else copyBit q)
  let groups := ((l.clus.q0 ++ l.clus.q1).filter (fun g => g.isOpen l.now)).length
  if (l.copyQ q).length ≥ copyCap q then parkOn l .stall
  else
  match (if free then joinFirst l.now k m l.clus.q0 else none), (if free then joinFirst l.now k m l.clus.q1 else none) with
  | some q0, _ => .ok { l with clus := { l.clus with q0 := q0 } }
  | none, some q1 => .ok { l with clus := { l.clus with q1 := q1 } }
  | none, none => .ok (l.setCopyQ q (l.copyQ q ++ [{ k with members := [m], opened := if free ∧ groups < 4 then some l.now else none }]))

/-- The tensors of a COPY or COPYT, checked (R263, R266, R268, R271). -/
def copyPair (l : Loc) (q : CopyQ) (pa pb : BitVec 4) (dist comb : Bool) : Res (Word × Word × Word × Word) := do
  let (d0, d1) := l.pairAt pa
  let (s0, s1) := l.pairAt pb
  let d := tensOf d0 d1
  let s := tensOf s0 s1
  tensOk l d0 d (if q = .q3 then [0, 4] else [0, 1, 2, 4]) true (!dist)
  tensOk l s0 s (if q = .q3 then [0, 4] else [0, 2, 3, 4]) false true
  need l (d.fmt == s.fmt && d.rows == s.rows && d.cols == s.cols && !(dist && comb)) 0x21
  (if dist then distOk l d0 d l.core.dist q else .ok ())
  .ok (d0, d1, s0, s1)

/-- A COPY or COPYT of a context enters (R264, R267). `img` is the tile command of a COPYT; `fin` applies what the instruction does to its
operands, once nothing stalls it any more (R87, R94). -/
def enterCopy (l : Loc) (fin : Loc → Loc) (q : CopyQ) (pr : Word × Word × Word × Word) (ntf : Option (BitVec 32)) (img : Option TileCmd)
    (irv dist comb : Bool) : Res Loc := do
  let (d0, d1, s0, s1) := pr
  cntRoom l 2
  (if img.isSome then cntRoom l 3 else .ok ())
  let c := l.ctx
  let m : Member := { cid := l.cid, seq := c.cmdSeq, core := coreOfCid l.cid, bits := copyBit q, ntf := ntf
                      image := img.map (fun t => { t with seq := c.cmdSeq }) }
  let k : CopyCmd := { members := [], dst0 := d0, dst1 := d1, src0 := s0, src1 := s1, irv := irv
                       dist := (if dist then some l.core.dist else none), comb := comb, opened := none, pasid := c.pasid
                       priv := BitVec.ofNat 2 (stPRIV c.stat), pos := 0, started := false, parked := none, walking := none, missAt := 0
                       due := none }
  let l0 ← submitCopy l q k m
  let l1 := fin l0
  let bits := if img.isSome then copyBit q ||| 4 else copyBit q
  let l2 := { l1 with ctx := l1.ctx.newCmd bits (spaceOf d0 == 0)
                      core := if img.isSome then { l1.core with tileOut := l1.core.tileOut + 1 } else l1.core }
  .ok (if irv then l2.cirSet 2 else l2)

/-- COPY (R267, R268). -/
def bodyCopy (c : Cond) (q : CopyQ) (pa pb : BitVec 4) (ntf : Option Opd) (irv dist comb : Bool) : Loc → Res Loc :=
  fun l => do
    let sh := shape (.copy c q pa pb ntf irv dist comb)
    let g ← fetchArgs l .d 0 sh
    let pr ← copyPair l q pa pb dist comb
    enterCopy l (fun l => ((l.take sh g).consumePair pa.toNat).consumePair pb.toNat) q pr (ntf.map (fun _ => g.a.val.setWidth 32)) none irv dist comb

/-- COPY as an issue of context `cur`. -/
def execCopy (c : Cond) (q : CopyQ) (pa pb : BitVec 4) (ntf : Option Opd) (irv dist comb : Bool) (s : State) :
    Host.Outcome State Fault Refusal :=
  issue (.copy c q pa pb ntf irv dist comb) (bodyCopy c q pa pb ntf irv dist comb) s

/-! ## The copy engine (R265, R268, R337, R339, R340) -/

/-- The cluster of an engine's buffers; the bulk engine has none. -/
def engClus : CopyEngine → Nat
  | .clus c _ => c
  | .bulk _ => 0

/-- The stamp of an engine. -/
def engStamp (s : State) : CopyEngine → BitVec 32
  | .clus c _ => stampOf s.hub (mget emptyCluster s.clus c).late
  | .bulk d => stampOf s.hub (mget emptyDomain s.doms d).late

/-- The translations that an engine's caches hold. -/
def engTlbs (s : State) : CopyEngine → List Tlb
  | .clus c _ => (mget emptyCluster s.clus c).tlb ++ (mget emptyDomain s.doms (domOfCore (c * 8))).tlb
  | .bulk d => (mget emptyDomain s.doms d).tlb

/-- What an engine's translation of an address gives. -/
inductive EngXlat where
  | key (k : Nat) (trk : Bool)
  | miss
  | code (c : BitVec 8)
  deriving DecidableEq, Repr

/-- Translate for a process at a privilege from some cached translations (R340, R379, R381). -/
def xlateIn (ts : List Tlb) (pasid priv va : Nat) (k : Acc) : EngXlat :=
  match tlbPick ts pasid priv va with
  | none => .miss
  | some t =>
      if !t.grants priv k then .code (if t.quarter.isSome then 0x12 else 0x11)
      else if k.writes && !t.d && t.quarter.isNone then .miss
      else if isHub (t.keyOf va) then .code 0x06
      else .key (t.keyOf va) t.trk

/-- The translation of an address for a command. -/
def engXlate (s : State) (e : CopyEngine) (k : CopyCmd) (va : Nat) (a : Acc) : EngXlat :=
  xlateIn (engTlbs s e) k.pasid.toNat k.priv.toNat va a

/-- The place of the next destination byte of a command: core, offset or address, and how many stream bytes follow it in place. -/
def dstAt (e : CopyEngine) (k : CopyCmd) (core x : Nat) : Nat × Nat × Nat :=
  let d := tensOf k.dst0 k.dst1
  match k.dist with
  | none => let (a, n) := d.at_ x; (core, a, n)
  | some w =>
      let b := x / distBS w
      (distCore w (engClus e) b, d.base + b / distNC w * distBS w + x % distBS w, distBS w - x % distBS w)

/-- Whether an address is a source byte of a command: an overlapped destination byte is unspecified (R268). -/
def inSource (t : Tens) (a : Nat) : Bool :=
  (upto t.rows).any (fun r =>
    let x := t.row r
    if !t.bp then decide (x ≤ a) && decide (a < x + t.rowBytes)
    else (upto (planesOf t.fmt)).any (fun j => decide (x + j * t.pp ≤ a) && decide (a < x + j * t.pp + 16 * t.blocks)) ||
      (decide (x + 8 * t.pp ≤ a) && decide (a < x + 8 * t.pp + 2 * t.blocks)))

/-- A byte of the source of a copy: its place in G with the tracking claim of its page, its value, its poison. -/
structure SrcByte where
  key : Nat
  trk : Bool
  val : Byte
  pois : Bool
  deriving DecidableEq, Repr

/-- A byte of the source, or why it cannot be read. -/
def srcByte (s : State) (e : CopyEngine) (k : CopyCmd) (core x : Nat) : Except EngXlat SrcByte :=
  let t := tensOf k.src0 k.src1
  let a := (t.at_ x).1
  if t.sp = 0 then
    match engXlate s e k (a % 2 ^ 60) .read with
    | .key key trk => .ok { key := key, trk := trk, val := if isPcie key then Config.freeByte s.tick x else homeByte s key, pois := granPois s key }
    | r => .error r
  else
    let l := s.loc (core * 8)
    .ok { key := 0, trk := false, val := mget 0 (l.buf t.sp) a, pois := l.bufPois t.sp a 1 }

/-- The bytes of the source from stream byte x on, up to n of them, until one cannot be read. -/
def srcBytes (s : State) (e : CopyEngine) (k : CopyCmd) (core : Nat) : Nat → Nat → List SrcByte
  | 0, _ => []
  | n + 1, x => match srcByte s e k core x with | .ok b => b :: srcBytes s e k core n (x + 1) | .error _ => []

/-- The lines of G that some source bytes lie in, each with the tracking claim of its page. -/
def srcLines (bs : List SrcByte) : List (Nat × Bool) := ((bs.filter (fun b => !isPcie b.key)).map (fun b => (b.key / 64, b.trk))).eraseDups

/-- An engine reads a line of G: a demand access at its home, with its tracking claim (R365, R370, R413). -/
def engRead (s : State) (x : Nat × Bool) : State :=
  readLine (demand { s with hub := countClaim s.hub (64 * x.1) x.2 } x.1 true) x.1

/-- A write of an engine to a buffer: whole words lose their poison, words that poisoned bytes reach take it (R149, R265). Engine writes are
not journaled. -/
def engBuf (s : State) (core sp off : Nat) (bs : List (Byte × Bool)) : State :=
  let l := s.loc (core * 8)
  let l1 := l.setBuf sp (putBytes (l.buf sp) off (bs.map (·.1)))
  let l2 := (wordsOf off bs.length).foldl (fun l w =>
    let mine := (upto bs.length).filter (fun i => (off + i) / 16 == w)
    if mine.any (fun i => (bs.getD i (0, false)).2) then l.setWordPois sp w true
    else if mine.length = 16 then l.setWordPois sp w false else l) l1
  let s1 := s.putLoc l2
  if sp = 4 then wakeScratch s1 (clusOfCore core) (off / 64) else s1

/-- The number of an engine among the senders of tokens. -/
def engSrc : CopyEngine → Nat
  | .clus c q => 4096 + 2 * c + q.toNat
  | .bulk d => 8192 + d

/-- Whether a flight of some kind and sender waits at its edge channel for a slot (R296). -/
def tokenWaits (s : State) (k : TokKind) (src : Nat) : Bool :=
  s.hub.flight.any (fun f => f.kind == k && f.src == src &&
    (match targetOf s.hub f with | some (c, n) => inService s.hub c && arrivalOf s f c n == .wait | none => false))

/-- Whether a completion token that waits for a slot holds an engine's queue back (R296). -/
def engHeld (s : State) (e : CopyEngine) : Bool := tokenWaits s .copied (engSrc e)

/-- Whether the head command of a queue has started and can move its next piece: it is not parked, and no completion token holds the queue. -/
def headLive (s : State) (e : CopyEngine) : Bool :=
  match copyQ s e with
  | k :: _ => k.started && k.walking.isNone && k.parked.isNone && decide (k.pos < (tensOf k.src0 k.src1).total) && !engHeld s e
  | [] => false

/-- Whether a queue is served next (R337): a cluster engine serves its two heads alternately. -/
def myTurn (s : State) : CopyEngine → Bool
  | .clus c q => (mget emptyCluster s.clus c).turn == q || !headLive s (.clus c !q)
  | .bulk _ => true

/-- The other queue of a cluster engine is served next. -/
def passTurn (s : State) : CopyEngine → State
  | .clus c q => { s with clus := mset emptyCluster s.clus c { mget emptyCluster s.clus c with turn := !q } }
  | .bulk _ => s

/-- The head command goes on after the bytes that it has moved. -/
def moved (s : State) (e : CopyEngine) (n : Nat) : State :=
  match copyQ s e with
  | k :: _ => passTurn (setHead s e { k with pos := k.pos + n }) e
  | [] => s

/-- A write of an engine to G (R264): stamped by the engine, held or tracked as its page says; on an untracked page the issuing context
becomes irrevocable (R400). The issuing core's D-cache does not keep the line. `s0` is the state once the source has been read, which a write
that has to wait leaves unread. -/
def engG (s s0 : State) (e : CopyEngine) (k : CopyCmd) (m : Member) (va key : Nat) (trk : Bool) (bs : List Byte) (pois : Bool) : State :=
  let w : HWrite := { pa := key, bytes := bs, stamp := engStamp s e, rel := none, sig := 0, pois := pois, mayHold := !k.irv, atomic := false
                      hub := false, by_ := some m.cid, page := some (k.pasid.toNat, va) }
  let (s1, done) := homeWrite s0 w
  if done then
    let core := mget emptyCore s1.cores m.core
    let s2 := { s1 with cores := mset emptyCore s1.cores m.core { core with dcache := core.dcache.filter (fun d => d.line != key / 64) }
                        hub := countClaim s1.hub key trk }
    let c := ctxOf s2 m.cid
    moved (putCtx s2 m.cid (if tracked s.hub key then c else { c with cir := setBit c.cir 2 true })) e bs.length
  else { s with hub := (homeWrite s w).1.hub }

/-- The head command cannot go on at an address: it waits for a walk, parks on the fault queue, or ends on a fault (R340). -/
def engStop (s : State) (e : CopyEngine) (k : CopyCmd) (va : Nat) (a : Acc) : EngXlat → State
  | .miss => setHead s e { k with walking := some (va, a), missAt := s.now }
  | .code c =>
      if c = 0x12 then
        let q : Asker := { pasid := k.pasid, va := va, acc := a, priv := k.priv.toNat, cid := (k.members.head?.map (·.cid)).getD 0 }
        queueFault (setHead s e { k with walking := some (va, a), missAt := s.now }) (.engine e) q 0x12 0
      else engineFault s e c (BitVec.ofNat 64 (if c = 0x06 then va else va / 2 ^ 14 * 2 ^ 14))
  | .key .. => s

/-- The bytes of one piece reach their destination. -/
def engPut (s : State) (e : CopyEngine) (k : CopyCmd) (m : Member) (bs : List SrcByte) : State :=
  let d := tensOf k.dst0 k.dst1
  let t := tensOf k.src0 k.src1
  let (core, a, _) := dstAt e k m.core k.pos
  let out := (upto bs.length).map (fun i =>
    let b := bs.getD i { key := 0, trk := false, val := 0, pois := false }
    if d.sp = t.sp ∧ (d.sp = 0 ∨ d.sp = 4 ∨ core = m.core) ∧ inSource t (a + i) then (Config.freeByte s.tick i, b.pois) else (b.val, b.pois))
  let s0 := { (if t.sp = 0 then (srcLines bs).foldl engRead s else s) with tick := s.tick + 1 }
  if d.sp = 0 then
    match engXlate s e k (a % 2 ^ 60) .write with
    | .key key trk => engG s s0 e k m (a % 2 ^ 60) key trk (out.map (·.1)) (out.any (·.2))
    | r => engStop s e k (a % 2 ^ 60) .write r
  else if k.dist.isSome ∧ !inService s.hub core then engineFault s e 0x06 (BitVec.ofNat 64 a)
  else
    let cores := if k.dist.isSome then [core] else k.members.map (·.core)
    moved (cores.foldl (fun s c => engBuf s c d.sp a out) s0) e bs.length

/-- One piece of the head command of a queue: at most the rest of a 64-byte line of the destination (R339). -/
def copyPiece (s : State) (e : CopyEngine) : State :=
  match copyQ s e with
  | [] => s
  | k :: _ =>
      match k.members with
      | [] => s
      | m :: _ =>
          let t := tensOf k.src0 k.src1
          if !headLive s e ∨ !myTurn s e then s
          else
            let (_, a, run) := dstAt e k m.core k.pos
            let n := Nat.min (Nat.min run (64 - a % 64)) (t.total - k.pos)
            match srcByte s e k m.core k.pos with
            | .error r => engStop s e k ((t.at_ k.pos).1 % 2 ^ 60) .read r
            | .ok _ => engPut s e k m (srcBytes s e k m.core n k.pos)

/-- The images that an engine holds for the tile queue (R343). -/
def imagesOf (s : State) : CopyEngine → List TileCmd
  | .clus c _ => (mget emptyCluster s.clus c).images
  | .bulk d => (mget emptyDomain s.doms d).images

/-- The images of an engine replaced. -/
def setImages (s : State) (e : CopyEngine) (is : List TileCmd) : State :=
  match e with
  | .clus c _ => { s with clus := mset emptyCluster s.clus c { mget emptyCluster s.clus c with images := is } }
  | .bulk d => { s with doms := mset emptyDomain s.doms d { mget emptyDomain s.doms d with images := is } }

/-- Images that an engine has room for. -/
def imageCap : CopyEngine → Nat
  | .clus .. => 4
  | .bulk _ => 8

/-- Commands of an engine's other queue that have started and carry an image. -/
def imagesDue (s : State) : CopyEngine → Nat
  | .clus c q => ((copyQ s (.clus c !q)).filter (fun k => k.started && k.members.any (fun m => m.image.isSome))).length
  | .bulk _ => 0

/-- Whether a QFENCE of a member holds a copy back (R287). -/
def copyHeld (s : State) (k : CopyCmd) : Bool :=
  !k.members.all (fun m => fenceOk (ctxOf s m.cid) m.seq (if m.image.isSome then m.bits ||| 4 else m.bits))

/-- Whether an engine has a place for one more image. -/
def imageRoom (s : State) (e : CopyEngine) : Bool := decide ((imagesOf s e).length + imagesDue s e < imageCap e)

/-- Whether the head command of a queue may start (R287, R342, R343). -/
def copyMayStart (s : State) (e : CopyEngine) (k : CopyCmd) : Bool :=
  !k.isOpen s.now && !copyHeld s k && (!k.members.any (fun m => m.image.isSome) || imageRoom s e)

/-- A queue with its first command that nothing holds back in front: a QFENCE holds no command of another context (R287). -/
def bringFree {α : Type} (held : α → Bool) (xs : List α) : List α :=
  let a := xs.takeWhile held
  match xs.drop a.length with
  | k :: t => k :: (a ++ t)
  | [] => xs

/-- The head command of a queue starts, if it may; commands that a QFENCE holds back are passed. -/
def copyStart (s : State) (e : CopyEngine) : State :=
  if (copyQ s e).head?.any (·.started) ∨ engHeld s e then s
  else
    match bringFree (copyHeld s) (copyQ s e) with
    | [] => s
    | k :: rest =>
        if !copyMayStart s e k then s
        else k.members.foldl (fun s m => putCtx s m.cid ((ctxOf s m.cid).start m.seq))
          (setCopyQ s e ({ k with started := true, opened := none } :: rest))

/-- COPY_ENGINE_TRANSFER: the head command starts, and n pieces of it move. -/
def effCopyTransfer (e : CopyEngine) : Nat → State → State
  | 0, s => copyStart s e
  | n + 1, s => copyPiece (effCopyTransfer e n s) e

/-- The completion token of a copy (R269). -/
def ntfToken (s : State) (e : CopyEngine) (k : CopyCmd) (m : Member) : State :=
  match m.ntf with
  | none => s
  | some a =>
      let c := ctxOf s m.cid
      let t : Token := { bareToken (k.dst0.setWidth 128) (mkTag m.cid (adCh a) 21) with pasid := c.pasid, sender := c.actor }
      route s { tok := t, kind := .copied, src := engSrc e, dest := .addr a, second := none, esc := none }

/-- One member of a copy completes (R264, R269, R273). -/
def memberDone (e : CopyEngine) (k : CopyCmd) (s : State) (m : Member) : State :=
  let s1 := ntfToken s e k m
  let s2 := putCtx s1 m.cid ((ctxOf s1 m.cid).cmdDone m.seq m.bits 2)
  match m.image with
  | some t => setImages s2 e (imagesOf s2 e ++ [t])
  | none => s2

/-- The members of a copy complete in order; one whose image finds no place in the engine's store completes later (R343). -/
def membersDone (e : CopyEngine) (k : CopyCmd) (s : State) (ms : List Member) : State × List Member :=
  ms.foldl (fun r m => if m.image.isSome ∧ !imageRoom r.1 e then (r.1, r.2 ++ [m]) else (memberDone e k r.1 m, r.2)) (s, [])

/-- COPY_COMPLETION: every destination byte is written. -/
def effCopyCompletion (e : CopyEngine) (s : State) : State :=
  match copyQ s e with
  | [] => s
  | k :: rest =>
      if k.started ∧ k.pos ≥ (tensOf k.src0 k.src1).total ∧ !engHeld s e then
        let (s1, left) := membersDone e k (setCopyQ s e rest) k.members
        if left.isEmpty then s1 else setCopyQ s1 e ({ k with members := left } :: copyQ s1 e)
      else s

/-- Close the g-th open group of a queue; the count left for the next queue. -/
def closeNth (now : Nat) : List CopyCmd → Nat → List CopyCmd × Nat
  | [], g => ([], g)
  | k :: t, g =>
      match k.opened with
      | some at_ =>
          if g = 0 then ((if at_ + 64 ≤ now then { k with opened := none } else k) :: t, t.length + 2 ^ 16)
          else let (t1, g1) := closeNth now t (g - 1); (k :: t1, g1)
      | none => let (t1, g1) := closeNth now t g; (k :: t1, g1)

/-- COMBINE_GROUP_CLOSE (R341): 64 cclk after the group opened. -/
def effGroupClose (c g : Nat) (s : State) : State :=
  let u := mget emptyCluster s.clus c
  let (q0, g1) := closeNth s.now u.q0 g
  let (q1, _) := closeNth s.now u.q1 g1
  { s with clus := mset emptyCluster s.clus c { u with q0 := q0, q1 := q1 } }

/-- COPYT_IMAGE_ENQUEUE (R343): the first image of an engine enters its sector's tile queue when there is room. -/
def effImageEnqueue (e : CopyEngine) (s : State) : State :=
  match imagesOf s e with
  | [] => s
  | t :: rest =>
      let k := sectOfCore (coreOfCid t.cid)
      let q := mget emptySector s.sects k
      if q.tileq.length ≥ 32 then s
      else { setImages s e rest with sects := mset emptySector s.sects k { q with tileq := q.tileq ++ [t] } }

/-- COPY_ENGINE_TRANSFER. -/
def execCopyEngineTransfer (e : CopyEngine) (n : Nat) (s : State) : Host.Outcome State Fault Refusal := live s (sendRecs (effCopyTransfer e n s))

/-- COPY_COMPLETION. -/
def execCopyCompletion (e : CopyEngine) (s : State) : Host.Outcome State Fault Refusal := live s (effCopyCompletion e s)

/-- COMBINE_GROUP_CLOSE. -/
def execCombineGroupClose (c g : Nat) (s : State) : Host.Outcome State Fault Refusal := live s (effGroupClose c g s)

/-- COPYT_IMAGE_ENQUEUE. -/
def execCopytImageEnqueue (e : CopyEngine) (s : State) : Host.Outcome State Fault Refusal := live s (effImageEnqueue e s)

end Sys2Proof.Machine
end

