-- ==== Sys2Proof/Machine/Queues.lean ====
section
/-! DEFINITION. User queues and command records: doorbells, SIGNAL, WAITV, BARRIER, COPYQ, NOP, completions (R434-R446, R467). -/
namespace Sys2Proof.Machine
open Sys2Proof

/-! ## Queues and their descriptors (R432, R433) -/

/-- The doubleword of a descriptor at a byte offset. -/
def qWord (s : State) (q off : Nat) : Word := dword s (qDesc s.hub q + off)

/-- A queue as the scheduler holds it. -/
def queueOf (s : State) (q : Nat) : Option Queue := (s.hub.tables.queues.find? (fun e => e.1 == q)).map (·.2)

/-- The queue table with one queue replaced. -/
def putQueue (s : State) (q : Nat) (x : Queue) : State :=
  { s with hub := { s.hub with tables := { s.hub.tables with queues := minsert (mdel s.hub.tables.queues q) q x } } }

/-- A store of the scheduler to the command window (R435), visible at scope sys. -/
def cwStore (s : State) (pa : Nat) (v : Word) : State :=
  hubPut s { hubWriteOf s.hub pa (leBytes 8 v.toNat) with rel := some .sys }

/-- The queue stops taking records; ERRIDX, QERR and IRT source 0 say why (R436). -/
def queueError (s : State) (q code : Nat) : State :=
  match queueOf s q with
  | none => s
  | some x =>
      let s1 := cwStore (putQueue s q { x with stopped := true }) (qDesc s.hub q + 88) (BitVec.ofNat 64 (x.head * 2 ^ 8 + code))
      routeEvent s1 0 (BitVec.ofNat 64 q)

/-- A record is taken: the head moves on and is published (R435). A head that has already passed the record stays. -/
def takeRecord (s : State) (q idx : Nat) : State :=
  match queueOf s q with
  | none => s
  | some x =>
      if x.head = idx then cwStore (putQueue s q { x with head := idx + 1 }) (qDesc s.hub q + 80) (BitVec.ofNat 64 (idx + 1)) else s

/-! ## Records (R437, R440-R444) -/

/-- The eight doublewords of record n of a queue. -/
def recordAt (s : State) (x : Queue) (n : Nat) : List Word :=
  (upto 8).map (fun i => dword s (x.rbase + 64 * (n % 2 ^ x.log2n) + 8 * i))

/-- KIND of a record. -/
def rKind (r : List Word) : Nat := fld (recW r 0) 0 8

/-- Whether an address of a record is a virtual address of G with an alignment. -/
def rAddr (a : Word) (align : Nat) : Bool := decide (a.toNat < 2 ^ 60) && a.toNat % align == 0

/-- Whether a record is well formed (R437, R440-R444). -/
def recordOk (r : List Word) : Bool :=
  let zero := fun (i : Nat) => recW r i == 0
  fld (recW r 0) 20 44 == 0 && rAddr (recW r 1) 16 &&
  (match rKind r with
   | 1 => zero 5 && zero 6 && zero 7
   | 2 => rAddr (recW r 3) 8 && decide ((recW r 5).toNat ≤ 1) && zero 6 && zero 7
   | 3 => rAddr (recW r 3) 8 && decide (fld (recW r 6) 0 32 ≤ 3) && zero 7
   | 5 => rAddr (recW r 3) 1 && rAddr (recW r 4) 1 && decide (1 ≤ (recW r 5).toNat) && decide ((recW r 5).toNat ≤ 2 ^ 40) && zero 6 && zero 7
   | k => (k == 4 || k == 6) && zero 3 && zero 4 && zero 5 && zero 6 && zero 7)

/-- The work of a record. -/
def recordWork (r : List Word) : WorkKind :=
  match rKind r with
  | 1 => .launch (recW r 3) (recW r 4) none
  | 2 => .signal (recW r 3) (recW r 4) (bit (recW r 5).toNat 0)
  | 3 => .waitv (recW r 3) (recW r 4) (recW r 5) ((recW r 6).extractLsb' 0 2) ((recW r 6).extractLsb' 32 32)
  | 5 => .copyq (recW r 3) (recW r 4) (recW r 5) 0 none
  | _ => .none_

/-- The work item of a record; `done` is its status when there is nothing left to perform. -/
def workFor (s : State) (q : Nat) (x : Queue) (r : List Word) (work : WorkKind) (done : Option (BitVec 8)) : Work :=
  { queue := q, idx := x.head, kind := BitVec.ofNat 8 (rKind r), pasid := x.pasid, caddr := recW r 1, cval := recW r 2
    msie := bit (recW r 0).toNat 8, vec := (recW r 0).extractLsb' 9 11, work := work, finished := done, lslot := 0, since := s.now
    parked := none, walking := none, missAt := 0, due := none }

/-- A new work item, under the next key. -/
def addWork (s : State) (w : Work) : State × Nat :=
  let t := s.hub.tables
  ({ s with hub := { s.hub with tables := { t with works := minsert (mdel t.works t.workSeq) t.workSeq w, workSeq := t.workSeq + 1 } } },
   t.workSeq)

/-- A work item leaves the table. -/
def dropWork (s : State) (k : Nat) : State :=
  { s with hub := { s.hub with tables := { s.hub.tables with works := mdel s.hub.tables.works k } } }

/-! ## Translation for a work item (R438) -/

/-- The translation of an address for a process, from the hub's translation cache. -/
def hubXlate (s : State) (pasid : BitVec 20) (va : Nat) (a : Acc) : EngXlat :=
  xlateIn (mget emptyDomain s.doms 8).tlb pasid.toNat (wakePriv pasid) va a

/-- A work item cannot go on at an address: it waits for a walk, parks, or ends on a fault. -/
def workStop (s : State) (k : Nat) (w : Work) (va : Nat) (a : Acc) : EngXlat → State
  | .miss => putWork s k { w with walking := some (va, a), missAt := s.now }
  | .code c =>
      if c = 0x12 then
        let q : Asker := { pasid := w.pasid, va := va, acc := a, priv := wakePriv w.pasid, cid := hubScid }
        queueFault (putWork s k { w with walking := some (va, a), missAt := s.now }) (.work k) q 0x12 0
      else workFault s k c (BitVec.ofNat 64 (if c = 0x06 then va else va / 2 ^ 14 * 2 ^ 14)) (workAcc w a)
  | .key .. => s

/-! ## Completions (R445, R446) -/

/-- The 16 bytes of a completion. -/
def completionBytes (w : Work) (status : BitVec 8) : List Byte :=
  leBytes 8 w.cval.toNat ++ leBytes 8 (status.toNat + w.kind.toNat * 2 ^ 8 + w.lslot.toNat * 2 ^ 16)

/-- Items enter the egress hold with the hub's stamp. -/
def holdHub (s : State) (page : Option (Nat × Nat)) (is : List HeldItem) : State :=
  let e := hubStamp s.hub
  { s with hub := wantHold { s.hub with held := s.hub.held ++ is.map (fun i => { stamp := e, item := i, by_ := none, page := page }) } e }

/-- Whether a record of this kind is begun before it is taken (R439). -/
def lateTaken : WorkKind → Bool
  | .waitv .. | .launch .. => true
  | _ => false

/-- Whether a record that has been begun is not to be taken: its queue has stopped taking records (R436). -/
def heldBack (s : State) (w : Work) : Bool := lateTaken w.work && (queueOf s w.queue).any (fun x => x.stopped && x.head == w.idx)

/-- The completion of a work item whose work is performed enters the hold, and the item leaves the table; a full hold lets it wait. -/
def completeWork (s0 : State) (k : Nat) (w : Work) (status : BitVec 8) : State :=
  if heldBack s0 w then s0
  else
  let s := if lateTaken w.work then takeRecord s0 w.queue w.idx else s0
  let msi := if w.msie then [HeldItem.msi w.vec.toNat] else []
  if w.caddr = 0 then
    if w.msie ∧ extFull s.hub then { s with hub := wantHold s.hub (hubStamp s.hub) } else dropWork (holdHub s none msi) k
  else
    match hubXlate s w.pasid w.caddr.toNat .write with
    | .key key trk =>
        let bs := completionBytes w status
        let page := some (w.pasid.toNat, w.caddr.toNat)
        let s1 := { s with hub := countClaim s.hub key trk }
        if isPcie key then
          if extFull s.hub then { s with hub := wantHold s.hub (hubStamp s.hub) }
          else dropWork (holdHub s1 page ([.store key (cellsOf key bs) false false] ++ msi)) k
        else if sliceFull s key then { s with hub := wantHold s.hub (hubStamp s.hub) }
        else
          let item := HeldItem.completion key (cellsOf key bs) (if w.msie then some w.vec.toNat else none)
          let wr : HWrite := { hubWriteOf s1.hub key bs with rel := some .sys }
          dropWork (noteWrite (holdHub { s1 with hub := { s1.hub with held := cutNewer s1.hub.held (hubStamp s1.hub) key 16 } } page [item]) wr) k
    | r => workStop s k w w.caddr.toNat .write r

/-- The work of an item is performed with a status: its completion is tried at once. -/
def finishWork (s : State) (k : Nat) (status : BitVec 8) : State :=
  match workOf s k with
  | none => s
  | some w =>
      let w1 := { w with finished := some status }
      completeWork (putWork s k w1) k w1 status

/-! ## Work (R441-R443) -/

/-- Whether a store of the hub waits in the egress hold once its home has accepted it (R414). -/
def goesToHold (s : State) (key : Nat) : Bool := !isHub key && !tracked s.hub key

/-- The work of a SIGNAL (R441): performed unless its home makes it wait. It completes when its write is performed at scope sys, so that a store
which is held completes once it has left the hold (R351, R439). -/
def doSignal (s : State) (k : Nat) (w : Work) (a v : Word) (add : Bool) : State :=
  match hubXlate s w.pasid a.toNat (if add then .atomic else .write) with
  | .key key trk =>
      let wr : HWrite := { hubWriteOf s.hub key (leBytes 8 v.toNat) with rel := some .sys, page := some (w.pasid.toNat, a.toNat) }
      (match lacksRoom s { wr with mayHold := !add } with
       | some n => { s with hub := stallFor s.hub n }
       | none =>
           let s0 := { s with hub := countClaim s.hub key trk }
           if add then
             let (s1, bs, po) := homeAtomic s0 key 8
             finishWork (writeThrough s1 { wr with bytes := leBytes 8 (leVal bs + v.toNat), pois := po, mayHold := false, atomic := true }) k 0
           else
             let s1 := writeThrough s0 wr
             if goesToHold s key then putWork s1 k { w with work := .posted a v wr.stamp, walking := none, parked := none, due := none }
             else finishWork s1 k 0)
  | r => workStop s k w a.toNat (if add then .atomic else .write) r

/-- The condition of a WAITV (R442). -/
def waitvHolds (cond : BitVec 2) (x c m : Word) : Bool :=
  let l := x &&& m
  let r := c &&& m
  if cond = 0 then l == r else if cond = 1 then l != r else if cond = 2 then decide (r ≤ l) else decide (l < r)

/-- The work of a WAITV (R442): it reads its doubleword, and ends when the condition holds. -/
def doWaitv (s : State) (k : Nat) (w : Work) (a c m : Word) (cond : BitVec 2) : State :=
  match hubXlate s w.pasid a.toNat .read with
  | .key key trk =>
      let (s1, bs, _) := homeRead { s with hub := countClaim s.hub key trk } key 8
      if waitvHolds cond (BitVec.ofNat 64 (leVal bs)) c m then finishWork s1 k 0 else s1
  | r => workStop s k w a.toNat .read r

/-- The stamp of a COPYQ: that of the bulk engine of the domain that homes its first destination byte, or of domain 0 (R443). -/
def copyqDom (key : Nat) : Nat := if isRam key then key / 2 ^ 36 else 0

/-- Whether the hub still stamps with an older drift than a write that stands at its home. What it marks performed is not to seal before
that write (R445, R467; log entry 105). -/
def hubTrails (h : Hub) (e : BitVec 32) : Bool := e == h.seals.newest && hubStamp h != e

/-- The source bytes of one piece of a COPYQ, from one line or two: the state after, the bytes, their poison, and each page's claim. What lies
past a byte that cannot be read is not part of the piece (R340). -/
def copyqSource (s : State) (w : Work) (sa n : Nat) : Except EngXlat (State × List Byte × Bool × List (Nat × Bool)) :=
  let m := Nat.min n (64 - sa % 64)
  match hubXlate s w.pasid sa .read with
  | .key k trk =>
      let (s1, bs, po) := homeRead s k m
      if m = n then .ok (s1, bs, po, [(k, trk)])
      else
        match hubXlate s w.pasid ((sa + m) % 2 ^ 60) .read with
        | .key k2 trk2 => let (s2, bs2, po2) := homeRead s1 k2 (n - m); .ok (s2, bs ++ bs2, po || po2, [(k, trk), (k2, trk2)])
        | _ => .ok (s1, bs, po, [(k, trk)])
  | r => .error r

/-- One piece of a COPYQ (R339, R443): at most the rest of a 64-byte line of the destination. The last one waits while the hub's stamp is
older than the engine's. -/
def doCopyq (s : State) (k : Nat) (w : Work) (dst src len : Word) (pos : Nat) (eng : Option Nat) : State :=
  let da := (dst.toNat + pos) % 2 ^ 60
  let sa := (src.toNat + pos) % 2 ^ 60
  match copyqSource s w sa (Nat.min (64 - da % 64) (len.toNat - pos)), hubXlate s w.pasid da .write with
  | .ok (s1, bs, po, claims), .key dk trk =>
      let lap := fun (i : Nat) => decide (src.toNat ≤ da + i) && decide (da + i < src.toNat + len.toNat)
      let out := (upto bs.length).map (fun i => if lap i then Config.freeByte s1.tick i else bs.getD i 0)
      let d := eng.getD (copyqDom dk)
      let e := stampOf s.hub (mget emptyDomain s.doms d).late
      let wr : HWrite := { pa := dk, bytes := out, stamp := e, rel := none, sig := 0, pois := po, mayHold := true, atomic := false, hub := true
                           by_ := none, page := some (w.pasid.toNat, da) }
      let last := decide (pos + bs.length ≥ len.toNat)
      if last && hubTrails s.hub e then s
      else
        match lacksRoom s wr with
        | some n => { s with hub := stallFor s.hub n }
        | none =>
          let s2 := writeThrough { s1 with tick := s1.tick + 1 } wr
          let h := (claims ++ [(dk, trk)]).foldl (fun h c => countClaim h c.1 c.2) s2.hub
          let s3 := putWork { s2 with hub := h } k { w with work := .copyq dst src len (pos + bs.length) (some d) }
          if last then finishWork s3 k 0 else s3
  | .ok _, r => workStop s k w da .write r
  | .error r, _ => workStop s k w sa .read r

/-- A work item goes on: its completion when its work is performed, else its work. -/
def runWork (s : State) (k : Nat) : State :=
  match workOf s k with
  | none => s
  | some w =>
      if w.parked.isSome ∨ w.walking.isSome ∨ heldBack s w then s
      else
        match w.finished, w.work with
        | some st, _ => completeWork s k w st
        | none, .signal a v add => doSignal s k w a v add
        | none, .waitv a c m cond _ => doWaitv s k w a c m cond
        | none, .copyq d r n pos eng => doCopyq s k w d r n pos eng
        | none, .posted _ _ e => if isSealed s.hub.seals e then finishWork s k 0 else s
        | none, _ => s

/-! ## Taking records (R434, R436, R439) -/

/-- Whether the scheduler takes records at all: Hold entry stops it (R457). -/
def queuesRun (s : State) : Bool := s.hub.power == .run || s.hub.power == .cap

/-- Whether a record of a queue has been begun but not taken: a WAITV whose condition is awaited or whose fault ended it, or a LAUNCH
that has not started. -/
def queueWaits (s : State) (q : Nat) : Bool :=
  let head := (queueOf s q).map (·.head)
  s.hub.tables.works.any (fun e => e.2.queue == q && lateTaken e.2.work && (e.2.finished.isNone || head == some e.2.idx)) ||
  s.hub.tables.launches.any (fun e => e.2.queue == q && e.2.stage == .waiting)

/-- The next record of a queue, when the scheduler may take it. -/
def nextRecord (s : State) (q : Nat) : Option (Queue × List Word) :=
  match queueOf s q with
  | none => none
  | some x => if x.en ∧ !x.stopped ∧ x.head < x.tail ∧ queuesRun s ∧ !queueWaits s q then some (x, recordAt s x x.head) else none

/-- A record that fails is taken at once and completes with FAILED, and a record of KIND 3 and code 0x02 is sent (R444). A completion address
that is itself malformed counts as none (log entry 83). -/
def failRecord (s : State) (q : Nat) (x : Queue) (r : List Word) : State :=
  let w := workFor s q x r .none_ (some 2)
  let (s1, k) := addWork s (if rAddr w.caddr 16 then w else { w with caddr := 0 })
  runWork (freeRecord (takeRecord s1 q x.head) 0x02 0 0 x.pasid hubScid 0 0) k

/-- The next record is taken if it is one that is taken at once, or begun if it is a WAITV; none when the queue waits for another step. -/
def takeNext (s : State) (q : Nat) : Option State :=
  match nextRecord s q with
  | none => none
  | some (x, r) =>
      if !recordOk r then some (failRecord s q x r)
      else
        match rKind r with
        | 2 | 5 => some (takeRecord (addWork s (workFor s q x r (recordWork r) none)).1 q x.head)
        | 3 => some (addWork s (workFor s q x r (recordWork r) none)).1
        | _ => none

/-- The scheduler takes records up to TAIL. -/
def takeAll (q : Nat) : Nat → State → State
  | 0, s => s
  | n + 1, s => match takeNext s q with | some t => takeAll q n t | none => s

/-- More records than a ring holds: a bound on what one step takes. -/
def takeFuel : Nat := 2 ^ 16 + 1

/-- The queue goes on after one of its records was taken. -/
def queueOn (s : State) (q : Nat) : State := takeAll q takeFuel s

/-- TAIL is read and checked, and records are taken (R434, R436). -/
def ring (s : State) (q : Nat) : State :=
  match queueOf s q with
  | none => s
  | some x =>
      if !x.en ∨ x.stopped then s
      else
        let tail := (qWord s q 0).toNat
        let s1 := putQueue s q { x with tail := tail }
        if tail < x.head then queueError s1 q 1
        else if tail - x.head > 2 ^ x.log2n then queueError s1 q 2
        else queueOn s1 q

/-- DOORBELL of a queue. -/
def effDoorbell (q : Nat) (s : State) : State :=
  if q ∈ s.hub.bells then ring { s with hub := { s.hub with bells := s.hub.bells.erase q } } q else s

/-- Whether the second line of a descriptor passes the checks of an enable (R436). -/
def descChecks (s : State) (q : Nat) : Bool :=
  let rb := (qWord s q 64).toNat
  let w := qWord s q 72
  let n := fld w 0 5
  decide (4 ≤ n) && decide (n ≤ 16) && rb % 64 == 0 && decide (cwBase s.hub + 0x10000 ≤ rb) &&
  decide (rb + 64 * 2 ^ n ≤ cwBase s.hub + cwSize s.hub) &&
  fld w 5 3 == 0 && fld w 11 4 == 0 && fld w 16 16 == 0 && fld w 52 12 == 0 &&
  (upto 4).all (fun i => qWord s q (96 + 8 * i) == 0)

/-- A queue whose descriptor reads EN 1 is newly enabled (R434). -/
def enableQueue (s : State) (q : Nat) : State :=
  let w := qWord s q 72
  let x : Queue := { en := true, head := (qWord s q 80).toNat, tail := (qWord s q 80).toNat, rbase := (qWord s q 64).toNat, log2n := fld w 0 5
                     pasid := w.extractLsb' 32 20, maxpcls := fld w 8 3, stopped := false }
  let line := qDesc s.hub q / 64
  let s1 := putQueue { s with hub := { s.hub with watches := (line, q) :: s.hub.watches.filter (fun e => e.2 != q) } } q x
  if descChecks s q then ring s1 q else queueError s1 q 3

/-- Whether the descriptor of a queue reads EN 1. -/
def descEn (s : State) (q : Nat) : Bool := bit (qWord s q 72).toNat 15

/-- QUEUE_ENABLE: EN has changed to 1. -/
def effQueueEnable (q : Nat) (s : State) : State :=
  if q < 512 ∧ descEn s q ∧ (queueOf s q).isNone then enableQueue s q else s

/-- A cluster without the launches that leave the table: one that it was to be granted to stays with its holder. -/
def freeClus (gone : Nat → Bool) (u : Cluster) : Cluster :=
  { u with owner := (if u.owner.any gone then none else u.owner), wanted := (if u.wanted.any gone then some 4097 else u.wanted) }

/-- A queue leaves the scheduler: its watch is cleared, and what it had begun and not taken is forgotten, with the clusters that had been granted
to it (R393). -/
def forgetQueue (s : State) (q : Nat) : State :=
  let t := s.hub.tables
  let untaken := fun (w : Work) => w.queue == q && w.finished.isNone && lateTaken w.work
  let cut := fun (w : Work) => if w.queue = q ∧ lateTaken w.work then { w with queue := 512 } else w
  let gone := fun (l : Nat) => (launchOf s.hub l).any (fun la => la.queue == q && la.stage == .waiting)
  let h := { s.hub with
    watches := s.hub.watches.filter (fun e => e.2 != q), bells := s.hub.bells.filter (· != q)
    tables := { t with queues := mdel t.queues q, works := (t.works.filter (fun e => !untaken e.2)).map (fun e => (e.1, cut e.2))
                       launches := t.launches.filter (fun e => !(e.2.queue == q && e.2.stage == .waiting)) } }
  { s with hub := h, clus := (s.clus.map (fun e => (e.1, freeClus gone e.2))).filter (fun e => e.2 != emptyCluster) }

/-- QUEUE_DISABLE: EN has changed to 0. -/
def effQueueDisable (q : Nat) (s : State) : State :=
  if (queueOf s q).isSome ∧ !descEn s q then forgetQueue s q else s

/-! ## The steps of records -/

/-- A work item of some kind goes on, then its queue. -/
def stepWork (mine : WorkKind → Bool) (k : Nat) (s : State) : State :=
  match workOf s k with
  | none => s
  | some w => if mine w.work ∨ w.finished.isSome then queueOn (runWork s k) w.queue else s

/-- SIGNAL_RECORD. -/
def effSignal (k : Nat) (s : State) : State := stepWork (fun w => match w with | .signal .. | .posted .. => true | _ => false) k s

/-- WAITV_RECORD. -/
def effWaitv (k : Nat) (s : State) : State := stepWork (fun w => match w with | .waitv .. => true | _ => false) k s

/-- COPYQ_RECORD. -/
def effCopyq (k : Nat) (s : State) : State := stepWork (fun w => match w with | .copyq .. => true | _ => false) k s

/-- WAITV_TIMEOUT: T µs have passed (R442). A wait for its page is over too: the work leaves its fault-queue entry. -/
def effWaitvTimeout (k : Nat) (s : State) : State :=
  match workOf s k with
  | none => s
  | some w =>
      match w.work, w.finished with
      | .waitv _ _ _ _ t, none =>
          if t ≠ 0 ∧ w.since + 2900 * t.toNat ≤ s.now ∧ !heldBack s w then
            let s1 := putWork { s with hub := leaveReq s.hub (.work k) } k { w with parked := none, walking := none, due := none }
            queueOn (finishWork s1 k 3) w.queue
          else s
      | _, _ => s

/-- A record that completes when it is taken. -/
def takeDone (s : State) (q : Nat) (x : Queue) (r : List Word) : State :=
  let (s1, k) := addWork (takeRecord s q x.head) (workFor s q x r .none_ (some 0))
  queueOn (runWork s1 k) q

/-- Whether an earlier LAUNCH or COPYQ of a queue has not completed (R439). -/
def earlierWork (s : State) (q : Nat) : Bool :=
  s.hub.tables.launches.any (fun e => e.2.queue == q) ||
  s.hub.tables.works.any (fun e => e.2.queue == q && e.2.finished.isNone && (match e.2.work with | .copyq .. => true | _ => false))

/-- BARRIER_RECORD. -/
def effBarrier (q : Nat) (s : State) : State :=
  match nextRecord s q with
  | some (x, r) => if recordOk r ∧ rKind r = 4 ∧ !earlierWork s q then takeDone s q x r else s
  | none => s

/-- NOP_RECORD. -/
def effNopRecord (q : Nat) (s : State) : State :=
  match nextRecord s q with
  | some (x, r) => if recordOk r ∧ rKind r = 6 then takeDone s q x r else s
  | none => s

/-- DOORBELL. -/
def execDoorbell (q : Nat) (s : State) : Host.Outcome State Fault Refusal := live s (effDoorbell q s)
/-- QUEUE_ENABLE. -/
def execQueueEnable (q : Nat) (s : State) : Host.Outcome State Fault Refusal := live s (effQueueEnable q s)
/-- QUEUE_DISABLE. -/
def execQueueDisable (q : Nat) (s : State) : Host.Outcome State Fault Refusal := live s (effQueueDisable q s)
/-- SIGNAL_RECORD. -/
def execSignalRecord (k : Nat) (s : State) : Host.Outcome State Fault Refusal := live s (sendRecs (effSignal k s))
/-- WAITV_RECORD. -/
def execWaitvRecord (k : Nat) (s : State) : Host.Outcome State Fault Refusal := live s (sendRecs (effWaitv k s))
/-- WAITV_TIMEOUT. -/
def execWaitvTimeout (k : Nat) (s : State) : Host.Outcome State Fault Refusal := live s (sendRecs (effWaitvTimeout k s))
/-- BARRIER_RECORD. -/
def execBarrierRecord (q : Nat) (s : State) : Host.Outcome State Fault Refusal := live s (sendRecs (effBarrier q s))
/-- COPYQ_RECORD. -/
def execCopyqRecord (k : Nat) (s : State) : Host.Outcome State Fault Refusal := live s (sendRecs (effCopyq k s))
/-- NOP_RECORD. -/
def execNopRecord (q : Nat) (s : State) : Host.Outcome State Fault Refusal := live s (sendRecs (effNopRecord q s))

end Sys2Proof.Machine
end

