-- ==== Sys2Proof/Machine/Sched.lean ====
section
/-! DEFINITION. The queue scheduler: launches, placement, completion, grants, owner changes, real-time slots, events (R305-R322, R389). -/
namespace Sys2Proof.Machine
open Sys2Proof

/-! ## Descriptors (R308-R310) -/

/-- Why a descriptor cannot be read at an address. -/
structure NoLine where
  va : Nat
  why : EngXlat
  deriving DecidableEq, Repr

/-- The keys of n lines of a process's memory, with the tracking claims of their pages. -/
def lineKeys (s : State) (pasid : BitVec 20) (va : Nat) : Nat → Except NoLine (List (Nat × Bool))
  | 0 => .ok []
  | n + 1 =>
      match hubXlate s pasid va .read with
      | .key k trk => (lineKeys s pasid (va + 64) n).map ((k, trk) :: ·)
      | r => .error { va := va, why := r }

/-- The eight doublewords of a line. -/
def lineWords (s : State) (key : Nat) : List Word :=
  (upto 8).map (fun i =>
    if isPcie key then BitVec.ofNat 64 (leVal ((upto 8).map (fun j => Config.freeByte s.tick (8 * i + j)))) else dword s (key + 8 * i))

/-- NACT of a header. -/
def hdNact (h : List Word) : Nat := fld (recW h 0) 16 16
/-- PCLS of a header. -/
def hdPcls (h : List Word) : Nat := fld (recW h 0) 32 3
/-- NDEP of a header. -/
def hdNdep (h : List Word) : Nat := fld (recW h 3) 0 3
/-- Whether a header names a resume actor. -/
def hdResume (h : List Word) : Option Nat := if bit (recW h 0).toNat 63 then some (fld (recW h 0) 48 8) else none

/-- The 16 doublewords of each actor record. -/
def actorRecs : Nat → List Word → List (List Word)
  | 0, _ => []
  | n + 1, ws => ws.take 16 :: actorRecs n (ws.drop 16)

/-- The instances of a list of actors. -/
def instCount (as : List (List Word)) : Nat := (as.map recInsts).sum

/-- PLV of an actor. -/
def recPlv (r : List Word) : Nat := fld (recW r 1) 61 3
/-- CH0 of an actor. -/
def recCh0 (r : List Word) : Nat := fld (recW r 3) 27 5
/-- Whether an actor has an output edge. -/
def recOev (r : List Word) : Bool := bit (recW r 1).toNat 39
/-- Whether an actor's instances get start tokens. -/
def recStart (r : List Word) : Bool := bit (recW r 1).toNat 60

/-- The handler entry of an instance (R292, R311). -/
def actorEntry (r : List Word) (pasid : BitVec 20) (slot inst : Nat) (oedge : BitVec 32) : BitVec 256 :=
  let w1 : Word := BitVec.ofNat 64 (pasid.toNat * 2 ^ 44 + slot % 2 ^ 12 * 2 ^ 32 + inst % 2 ^ 11 * 2 ^ 21 + fld (recW r 3) 4 17 * 2 ^ 4 + 8)
  (0 : BitVec 32) ++ oedge ++ recW r 2 ++ w1 ++ recW r 0

/-- The SEC entry that goes with a handler entry (R311). -/
def secEntry (e : BitVec 256) (ch0 : Nat) : BitVec 256 :=
  let w1 : Word := BitVec.ofNat 64 ((entPasid e).toNat * 2 ^ 44 + entLslot e * 2 ^ 32 + entInst e * 2 ^ 21 + (entKnd e).toNat * 2 ^ 4 + 12)
  let w2 : Word := BitVec.ofNat 64 (entCap e * 2 ^ 40 + entEdep e * 2 ^ 32 + ch0 * 2 ^ 22)
  (0 : BitVec 64) ++ w2 ++ w1 ++ (0 : BitVec 64)

/-- The chunks of a fork actor. -/
def recChunks (r : List Word) : Nat := ((recW r 4).toNat + (recW r 5).toNat - 1) / (recW r 5).toNat

/-- Whether a join cell pointer is one of R221 at a level. -/
def cellOk (j : Word) (level : Nat) : Bool :=
  addrOf j % 8 == 0 && cellLevelOk j level &&
  (spaceOf j == 0 || (spaceOf j == 4 && (decide (addrOf j ≤ 0x3FFF8) || (isSectCell j && decide (addrOf j ≤ 0x401F8)))))

/-- The checks of an actor record (R309, R310). -/
def actorOk (as : List (List Word)) (r : List Word) : Bool :=
  let w1 := recW r 1
  decide ((recW r 0).toNat < slotLimit) && decide (recPlv r ≤ 4) && fld w1 0 33 == 0 && fld (recW r 3) 32 32 == 0 &&
  fld (recW r 3) 21 6 == 0 && fld (recW r 3) 0 4 == 0 && recW r 7 == 0 &&
  (!recOev r || (match as[fld w1 40 8]? with
    | some t => !recFork t && (bit w1.toNat 38 || decide (recInsts r ≤ recInsts t))
    | none => false)) &&
  (if recFork r then
     recW r 5 != 0 && decide (recChunks r ≤ 2 ^ 32 - 1) && cellOk (recW r 6) (recPlv r) && !recStart r && !recOev r && fld w1 48 11 == 0 &&
     decide (fld (recW r 2) 16 6 ≤ 32) && decide (1 ≤ fld (recW r 3) 9 12)
   else imageOk (actorEntry r 0 0 0 0) (recCh0 r))

/-- The checks of a header and its actors (R308, R310). -/
def descOk (h : List Word) (as : List (List Word)) : Bool :=
  let w := recW h 0
  fld w 0 16 == 1 && fld w 35 5 == 0 && fld w 43 5 == 0 && fld w 56 7 == 0 &&
  (match hdResume h with | some k => (match as[k]? with | some r => !recFork r | none => false) | none => true) &&
  rAddr (recW h 1) 8192 && decide (0x9000 + 0x4000 * instCount as ≤ (recW h 2).toNat) && decide (hdNdep h ≤ 4) && fld (recW h 3) 3 61 == 0 &&
  decide (instCount as ≤ 2048) && as.all (actorOk as)

/-- The tracking claims of some lines are checked as they are read (R413). -/
def countLines (s : State) (ks : List (Nat × Bool)) : State :=
  { s with hub := ks.foldl (fun h k => countClaim h k.1 k.2) s.hub }

/-- A descriptor that has been read, with the lines that the scheduler read: none when it fails before its actors can be. -/
def readDesc (s : State) (pasid : BitVec 20) (desc : Nat) : Except NoLine (List (Nat × Bool) × Option (List Word × List (List Word))) :=
  if desc % 64 ≠ 0 ∨ 2 ^ 60 ≤ desc then .ok ([], none)
  else
    match lineKeys s pasid desc 1 with
    | .error e => .error e
    | .ok ks =>
        let h := ks.flatMap (fun k => lineWords s k.1)
        if hdNact h = 0 ∨ 256 < hdNact h then .ok (ks, none)
        else
          match lineKeys s pasid (desc + 64) (2 * hdNact h) with
          | .error e => .error e
          | .ok as => .ok (ks ++ as, some (h, actorRecs (hdNact h) (as.flatMap (fun k => lineWords s k.1))))

/-! ## LAUNCH_RECORD (R310, R439, R440) -/

/-- Whether a work item holds a launch slot: a LAUNCH that has taken it, or one whose completion is still to be written (R288, R310). -/
def holdsSlot (k : Nat) (w : Work) : Bool :=
  (match w.work with | .launch _ _ n => n == some k | _ => false) || (w.kind == 1 && w.finished.isSome && w.lslot.toNat == k)

/-- The lowest launch slot that is free: its launch has completed, and its completion has been written (R288). -/
def freeSlot (h : Hub) : Option Nat := (upto 4096).find? (fun k => (launchOf h k).isNone && !h.tables.works.any (fun e => holdsSlot k e.2))

/-- A launch as its record and descriptor say (R308, R440). -/
def newLaunch (s : State) (w : Work) (maxp : Nat) (tag : Word) (h : List Word) (as : List (List Word)) : Launch :=
  { pasid := w.pasid, tag := tag, queue := w.queue, idx := w.idx, caddr := w.caddr, cval := w.cval, msie := w.msie, vec := w.vec, hdr := h
    actors := as, pcls := Nat.min (hdPcls h) maxp, stage := .waiting, trigged := none, since := s.now, startDrift := 0, places := []
    pending := [], insts := [], saved := 0, sects := [] }

/-- A LAUNCH takes a slot, and then its descriptor is checked (R310); one that fails completes with the slot that it took (R445). -/
def tryLaunch (s0 : State) (k : Nat) (w0 : Work) (desc tag : Word) (had : Option Nat) : State :=
  match queueOf s0 w0.queue, had.orElse (fun _ => freeSlot s0.hub) with
  | some x, some n =>
      let w := { w0 with work := .launch desc tag (some n), lslot := BitVec.ofNat 16 n }
      let s := putWork s0 k w
      let fails := fun (s : State) => finishWork (freeRecord s 0x02 0 0 w.pasid hubScid 0 0) k 2
      (match readDesc s w.pasid desc.toNat with
       | .error e => workStop s k w e.va .read e.why
       | .ok (ks, none) => fails (countLines s ks)
       | .ok (ks, some (h, as)) =>
           let t := countLines s ks
           if !descOk h as then fails t else dropWork { t with hub := putLaunch t.hub n (newLaunch t w x.maxpcls tag h as) } k)
  | _, _ => s0

/-- The LAUNCH of a queue that is under way. -/
def launchWork (s : State) (q : Nat) : Option (Nat × Work) :=
  s.hub.tables.works.find? (fun e => e.2.queue == q && (match e.2.work with | .launch .. => true | _ => false))

/-- LAUNCH_RECORD. -/
def effLaunchRecord (q : Nat) (s : State) : State :=
  let go := fun (s : State) (k : Nat) (w : Work) =>
    match w.finished, w.work with
    | some _, _ => runWork s k
    | none, .launch d t n => if w.parked.isSome ∨ w.walking.isSome ∨ heldBack s w then s else tryLaunch s k w d t n
    | none, _ => s
  match launchWork s q with
  | some (k, w) => queueOn (go s k w) q
  | none =>
      match nextRecord s q with
      | some (x, r) =>
          if recordOk r ∧ rKind r = 1 then
            let w := workFor s q x r (recordWork r) none
            let (s1, k) := addWork s w
            queueOn (go s1 k w) q
          else s
      | none => s

/-! ## LAUNCH_START (R311, R312, R323) -/

/-- Whether a TRIG of a launch has taken effect: every write before it has been performed (R224). -/
def trigDone (s : State) (la : Launch) : Bool :=
  match la.trigged with
  | some cid => !(ctxOf s cid).stq.any (fun g => g.trig) && !(ctxOf s cid).rstq.any (fun g => g.trig)
  | none => false

/-- Whether the dependences of a launch are met (R312, R440). -/
def depsMet (s : State) (slot : Nat) (la : Launch) : Bool :=
  (upto (hdNdep la.hdr)).all (fun i =>
    s.hub.tables.launches.all (fun e =>
      e.1 == slot || e.2.pasid != la.pasid || e.2.tag != recW la.hdr (4 + i) || trigDone s e.2))

/-- The first instance of actor k (R310). -/
def firstInst (as : List (List Word)) (k : Nat) : Nat := instCount (as.take k)

/-- OEDGE of instance i of an actor (R311). -/
def outEdge (as : List (List Word)) (slot : Nat) (r : List Word) (i : Nat) : BitVec 32 :=
  if recOev r then
    let w := recW r 1
    adOf slot (firstInst as (fld w 40 8) + (if bit w.toNat 38 then 0 else i)) (fld w 33 5)
  else 0

/-- The entries of an instance with their channels. -/
def instEntries (la : Launch) (slot inst : Nat) : List (Nat × BitVec 256) :=
  match actorOf la.actors inst with
  | none => []
  | some (r, i) =>
      let e := actorEntry r la.pasid slot inst (outEdge la.actors slot r i)
      (recCh0 r, e) :: (if entC1 e = 0 then [] else [(entIn1 e, secEntry e (recCh0 r))])

/-- Whether a core may take instances of a launch (R311): a service core for PASID 0, a core of the launch's clusters for another (R393). -/
def coreTakes (s : State) (slot : Nat) (la : Launch) (c : Nat) : Bool :=
  inService s.hub c && !(coreAt s c).suspect && (if la.pasid = 0 then isService c else !isService c && owns s slot (clusOfCore c) 0)

/-- The entries that a placement binds on a core. -/
def coreEntries (la : Launch) (slot : Nat) (pl : List Placing) (c : Nat) : List (Nat × BitVec 256) :=
  (pl.filter (fun p => p.core == c)).flatMap (fun p => instEntries la slot p.inst)

/-- Whether the entries of a core fit it: no channel twice, none bound already, at most 176 slots in all (R293, R311). -/
def coreFits (s : State) (la : Launch) (slot : Nat) (pl : List Placing) (c : Nat) : Bool :=
  let es := coreEntries la slot pl c
  let chs := es.map (·.1)
  chs.eraseDups.length == chs.length && chs.all (fun n => !entVal (chanAt s c n).entry) &&
  decide ((upto 32).foldl (fun m n => m + entSlots (chanAt s c n).entry) 0 + (es.map (fun e => entSlots e.2)).sum ≤ 176)

/-- Whether all instances of each actor lie in one unit of its level (R311). -/
def inUnits (la : Launch) (pl : List Placing) : Bool :=
  pl.all (fun p => pl.all (fun o =>
    match actorOf la.actors p.inst, actorOf la.actors o.inst with
    | some (r, i), some (_, j) => p.inst - i != o.inst - j || unitOf (recPlv r) p.core == unitOf (recPlv r) o.core
    | _, _ => false))

/-- Whether a placement is one that R311 allows. -/
def placementOk (s : State) (slot : Nat) (la : Launch) (pl : List Placing) : Bool :=
  (pl.map (·.inst)) == upto (instCount la.actors) && pl.all (fun p => coreTakes s slot la p.core) &&
  (pl.map (·.core)).eraseDups.all (coreFits s la slot pl) && inUnits la pl

/-- The credit counter of an entry's edge is set to EDEP as its producer is placed (R296). -/
def setEdge (s : State) (core : Nat) (e : BitVec 256) : State :=
  let oe := entOedge e
  if oe = 0 then s else putCore s core ((coreAt s core).setCredit oe.toNat (edepOf s.hub oe))

/-- An entry of an instance is bound on its core. One that a rollback places again keeps the priority that PRIO gave its channel (R218, R422;
log entry 111). -/
def placeEntry (la : Launch) (core : Nat) (s : State) (e : Nat × BitVec 256) : State :=
  match (chanAt s core e.1).prio with
  | some p =>
      if la.stage = .resuming then
        let s1 := installEntry s core e.1 (setFld e.2 70 3 p.toNat)
        putChan s1 core e.1 { chanAt s1 core e.1 with prio := some p }
      else installEntry s core e.1 e.2
  | none => installEntry s core e.1 e.2

/-- PIMG of an instance goes to X at IMG, not journaled; its entries are installed, with their credits; its placement entry is written (R311). -/
def placeInst (slot : Nat) (la : Launch) (s : State) (p : Placing) : State :=
  match actorOf la.actors p.inst with
  | none => s
  | some (r, _) =>
      let k := coreAt s p.core
      let off := fld (recW r 2) 51 13
      let img := ((upto 8).flatMap (fun i => leBytes 8 (recW r (8 + i)).toNat))
      let pois := (wordsOf off 64).foldl (fun m w => mset false m (poisKey 2 w) false) k.pois
      let s1 := putCore s p.core { k with x := putBytes k.x off img, pois := pois }
      let s2 := (instEntries la slot p.inst).foldl (placeEntry la p.core) s1
      let s3 := (instEntries la slot p.inst).foldl (fun s e => setEdge s p.core e.2) s2
      let s4 := placeNow slot p.inst (BitVec.ofNat 64 (1 + p.core * 4)) s3
      noteRunnable s s4 p.core

/-- A start token (R311, R323). -/
def startToken (slot inst i : Nat) (extra : Word) (ch0 : Nat) : Flight :=
  let low : Word := BitVec.ofNat 64 (i + inst * 2 ^ 16 + slot * 2 ^ 32)
  hubFlight (bareToken (extra ++ low) (mkTag hubScid ch0 24)) .hub (adOf slot inst ch0) none none

/-- The start token of an instance, if it gets one. -/
def startInst (slot : Nat) (la : Launch) (s : State) (inst : Nat) : State :=
  match actorOf la.actors inst with
  | some (r, i) => if recStart r then route s (startToken slot inst i 0 (recCh0 r)) else s
  | none => s

/-- The lowest core of the lowest cluster that a launch owns: where its fork actors fork from. -/
def homeCore (s : State) (slot : Nat) (la : Launch) : Option Nat := (upto 2048).find? (coreTakes s slot la)

/-- The key of a fork actor's join cell, with the tracking claim of its page; none for one that its process cannot write. -/
def forkKey (s : State) (la : Launch) (j : Word) : Option (Nat × Bool) :=
  if spaceOf j ≠ 0 then some (0, false)
  else
    match walk s { pasid := la.pasid, va := addrOf j, acc := .write, priv := wakePriv la.pasid, cid := hubScid } [] with
    | .leaf t _ _ _ => if isRam (t.keyOf (addrOf j)) then some (t.keyOf (addrOf j), t.trk) else none
    | _ => none

/-- Whether the walk to a fork actor's join cell meets an uncorrectable PASID table entry, which rolls the device back (R402). -/
def forkRolls (s : State) (la : Launch) (r : List Word) : Bool :=
  recFork r && recChunks r != 0 && spaceOf (recW r 6) == 0 &&
  (match walk s { pasid := la.pasid, va := addrOf (recW r 6), acc := .write, priv := wakePriv la.pasid, cid := hubScid } [] with
   | .rollback => true
   | _ => false)

/-- The scheduler performs RFORK for a fork actor (R220, R311). -/
def forkActor (slot : Nat) (la : Launch) (core : Nat) (s : State) (r : List Word) : State :=
  if !recFork r ∨ recChunks r = 0 then s
  else
    let j := recW r 6
    let v : Word := BitVec.ofNat 64 (recChunks r)
    let s1 :=
      if spaceOf j = 0 then
        let key := (forkKey s la j).getD (0, false)
        let t := { s with hub := countClaim s.hub key.1 key.2 }
        hubPut t { hubWriteOf t.hub key.1 (leBytes 8 v.toNat) with rel := some .dev, mayHold := false }
      else if isSectCell j then
        let q := mget emptySector s.sects (sectOfCore core)
        { s with sects := mset emptySector s.sects (sectOfCore core) { q with cells := mset 0 q.cells (cellIndex j) v } }
      else
        let u := mget emptyCluster s.clus (clusOfCore core)
        wakeScratch { s with clus := mset emptyCluster s.clus (clusOfCore core) { u with s := putBytes u.s (addrOf j) (leBytes 8 v.toNat) } }
          (clusOfCore core) (addrOf j / 64)
    let f : Fork := { id := s1.hub.forkSeq, lslot := slot, level := recPlv r, unit := core, pasid := la.pasid, n := recW r 4, m := recW r 5
                      e := recW r 0, j := j, ps := (upto 5).map (fun i => recW r (11 + i)), prate := fld (recW r 2) 16 6
                      pri := fld (recW r 3) 6 3, dl := fld (recW r 3) 9 12, inst := 0, oedge := 0, fromCore := core, next := 0
                      total := recChunks r, back := [], sig := BitVec.allOnes 256 }
    { s1 with hub := { s1.hub with forks := s1.hub.forks ++ [f], forkSeq := s1.hub.forkSeq + 1 } }

/-- The instances of a launch are placed; with `start`, start tokens and forks follow. -/
def startLaunch (s : State) (slot : Nat) (la : Launch) (pl : List Placing) (start : Bool) : State :=
  let s1 := { s with hub := putLaunch s.hub slot { la with stage := .running, startDrift := hubStamp s.hub } }
  let s2 := pl.foldl (placeInst slot la) s1
  if !start then s2
  else
    let s3 := (pl.map (·.inst)).foldl (startInst slot la) s2
    match homeCore s3 slot la with
    | some c => la.actors.foldl (forkActor slot la c) s3
    | none => s3

/-- A launch that cannot start completes with FAILED, and gives back the clusters that it had been granted (R393). -/
def failStart (s : State) (slot : Nat) (la : Launch) : State :=
  let s1 := { s with clus := s.clus.map (fun e => (e.1, freeClus (· == slot) e.2))
                     hub := { s.hub with tables := { s.hub.tables with launches := mdel s.hub.tables.launches slot } } }
  let w : Work := { queue := la.queue, idx := la.idx, kind := 1, pasid := la.pasid, caddr := la.caddr, cval := la.cval, msie := la.msie
                    vec := la.vec, work := .none_, finished := some 2, lslot := BitVec.ofNat 16 slot, since := s.now, parked := none
                    walking := none, missAt := 0, due := none }
  let (s2, k) := addWork (takeRecord s1 la.queue la.idx) w
  queueOn (runWork (freeRecord s2 0x02 0 0 la.pasid hubScid 0 0) k) la.queue

/-- The token that a restarted launch's resume actor gets (R422). -/
def resumeToken (s : State) (slot : Nat) (la : Launch) : State :=
  match (hdResume la.hdr).bind (fun k => (la.actors[k]?).map (fun r => (k, r))) with
  | some (k, r) =>
      let f := startToken slot (firstInst la.actors k) 0 (s.hub.seals.sealed.setWidth 64) (recCh0 r)
      route s { f with tok := { f.tok with payload := f.tok.payload ||| BitVec.ofNat 128 (2 ^ 48) } }
  | none => s

/-- Whether the queue of a launch lets it start: nothing else of its queue stands before its record. -/
def queueLets (s : State) (la : Launch) : Bool :=
  match queueOf s la.queue with
  | some x => x.en && !x.stopped && x.head == la.idx && queuesRun s
  | none => false

/-- Entries of a restarted launch that a restored swap slot brought back give way to its placement as at launch start (R307, R422). -/
def unbindOwn (s : State) (slot : Nat) : State :=
  { s with cores := (s.cores.map (fun e =>
      (e.1, { e.2 with chans := e.2.chans.filter (fun ch => !(entVal ch.2.entry && entLslot ch.2.entry == slot))
                       credits := e.2.credits.filter (fun x => x.1 / 2 ^ 16 != slot) }))).filter (fun e => e.2 != emptyCore) }

/-- LAUNCH_START with a placement. -/
def effLaunchStart (slot : Nat) (pl : List Placing) (s : State) : State :=
  match launchOf s.hub slot with
  | none => s
  | some la =>
      if la.stage = .resuming then
        let s1 := unbindOwn s slot
        if placementOk s1 slot la pl then resumeToken (startLaunch s1 slot la pl false) slot la else s
      else if la.stage ≠ .waiting ∨ !depsMet s slot la ∨ !queueLets s la then s
      else if la.actors.any (forkRolls s la) then dueRollback s 4
      else if la.actors.any (fun r => recFork r && recChunks r != 0 && (forkKey s la (recW r 6)).isNone) then failStart s slot la
      else if (homeCore s slot la).isNone ∨ !placementOk s slot la pl then s
      else queueOn (takeRecord (startLaunch s slot la pl true) la.queue la.idx) la.queue

/-! ## LAUNCH_COMPLETION (R312) -/

/-- Whether a flight is a token of a launch. -/
def flightOf (s : State) (slot : Nat) (f : Flight) : Bool := tokenOwner s f == some slot

/-- Whether a core holds a token of a launch in a channel: one that was sent to it, wherever it lies. -/
def coreHolds (slot : Nat) (k : Core) : Bool :=
  k.chans.any (fun ch => ch.2.toks.any (fun t =>
    match t.own with
    | some o => o == slot
    | none => entVal ch.2.entry && entLslot ch.2.entry == slot))

/-- Whether writes of a newer drift than the hub's own stand at their homes: a completion that the hub issued now could seal before them
(R445; log entry 105). -/
def hubBehind (s : State) : Bool :=
  hubTrails s.hub s.hub.seals.newest &&
  (s.hub.held.any (fun x => x.stamp == s.hub.seals.newest) || s.hub.wb.any (fun r => r.2.any (fun w => w.drift == s.hub.seals.newest)))

/-- Whether a launch is quiescent (R312), and what it wrote seals no later than its completion (R445). -/
def quiescent (s : State) (slot : Nat) (la : Launch) : Bool :=
  let mine := fun (c : Ctx) => c.lslot.toNat == slot && c.pasid == la.pasid && !c.free
  !hubBehind s && la.saved == 0 && la.pending.isEmpty && la.insts.all (fun i => i.2.toks.isEmpty && i.2.chans.isEmpty) &&
  !s.ctxs.any (fun e => e.2.status != .dormant && mine e.2) && !s.clus.any (fun u => u.2.saves.any (fun v => mine v.2)) &&
  !s.hub.tables.slots.any (fun x => x.2.lslot == slot && x.2.cluster.any (fun u => !u.saves.isEmpty)) && !s.cores.any (fun k => coreHolds slot k.2) &&
  !s.hub.tables.slots.any (fun x => x.2.cores.any (fun k => coreHolds slot k.2)) &&
  !s.hub.flight.any (flightOf s slot) && !s.hub.refused.any (flightOf s slot) &&
  !s.hub.forks.any (fun f => f.lslot == slot && (takeChunk f).isSome)

/-- The cluster time of a real-time slot's queue from a moment on, in cluster-cclk (R319). -/
def rtTime (s : State) (q from_ : Nat) : Nat :=
  s.clus.foldl (fun m e =>
    if (e.2.owner.bind (launchOf s.hub)).any (fun la => la.queue == q) then m + (s.now - Nat.max from_ e.2.taken) else m) 0

/-- Cluster time up to now is charged to the real-time slots: at each tick, and whenever a cluster changes hands or a period ends (R319). -/
def chargeRt (s : State) : State :=
  { s with hub := { s.hub with rt := s.hub.rt.map (fun e => (e.1, { e.2 with left := e.2.left - rtTime s (fld e.2.cfg 0 9) s.hub.rtAt }))
                               rtAt := s.now } }

/-- A launch leaves the table: its clusters, swap slots and fork nodes are free. The clusters that it waited for stay with their holders. -/
def endLaunch (s0 : State) (slot : Nat) : State :=
  let s := chargeRt s0
  let t := s.hub.tables
  { s with clus := s.clus.map (fun e => (e.1, freeClus (· == slot) e.2))
           doms := (s.doms.map (fun e => (e.1, { e.2 with reserved := e.2.reserved.filter (· != slot) }))).filter (fun e => e.2 != emptyDomain)
           hub := { s.hub with
             forks := s.hub.forks.filter (fun f => f.lslot != slot)
             tables := { t with launches := mdel t.launches slot, slots := t.slots.filter (fun x => x.2.lslot != slot) } } }

/-- A launch completes with a status: its completion is written (R445). -/
def completeLaunch (s : State) (slot : Nat) (la : Launch) (status : BitVec 8) : State :=
  let w : Work := { queue := la.queue, idx := la.idx, kind := 1, pasid := la.pasid, caddr := la.caddr, cval := la.cval, msie := la.msie
                    vec := la.vec, work := .none_, finished := some status, lslot := BitVec.ofNat 16 slot, since := s.now, parked := none
                    walking := none, missAt := 0, due := none }
  let (s1, k) := addWork (endLaunch s slot) w
  runWork s1 k

/-- LAUNCH_COMPLETION. -/
def effLaunchCompletion (slot : Nat) (s : State) : State :=
  match launchOf s.hub slot with
  | none => s
  | some la =>
      if la.stage = .waiting ∨ la.stage = .resuming ∨ !quiescent s slot la then s
      else completeLaunch s slot la (match la.stage with | .failed st => st | _ => 0)

/-! ## Decisions (R316, R317, R320) -/

/-- The quantum in cclk (R321). -/
def quantum (h : Hub) : Nat := 2900 * fld (reg h 0x2000) 0 14

/-- Whether a launch owns a cluster or is about to. -/
def granted (s : State) (slot : Nat) : Bool := s.clus.any (fun e => e.2.wanted == some slot || (e.2.owner == some slot && e.2.wanted.isNone))

/-- Whether a launch is ready: its dependences are met (R316). -/
def isReady (s : State) (slot : Nat) (la : Launch) : Bool :=
  match la.stage with
  | .waiting => depsMet s slot la
  | .running | .resuming => true
  | .failed _ => false

/-- The effective class of a launch (R316). -/
def effClass (s : State) (slot : Nat) (la : Launch) : Nat :=
  if granted s slot then la.pcls else Nat.min 7 (la.pcls + (s.now - la.since) / (8 * quantum s.hub))

/-- The real-time slot of a launch: enabled, of its queue, with budget left (R316, R319). -/
def rtOf (s : State) (la : Launch) : Option RtSlot :=
  (s.hub.rt.find? (fun e => bit e.2.cfg.toNat 9 && fld e.2.cfg 0 9 == la.queue && decide (0 < e.2.left))).map (·.2)

/-- Clusters of a domain that are due to a new owner, in mW by the owner's class. -/
def dueMw (s : State) (d : Nat) : Nat :=
  s.clus.foldl (fun m e =>
    match e.2.wanted with | some l => if e.1 / 32 = d ∧ l < 4096 then m + epwr s.hub (eclsOf s.hub l) else m | none => m) 0

/-- capE of a domain in mW (R316). -/
def capE (h : Hub) (d : Nat) : Nat := 125 * Nat.min (fld (reg h (0x2100 + 8 * d)) 0 12) (fld (reg h (0x2100 + 8 * d)) 24 12)

/-- Clusters that the launches of a queue hold or are to hold. -/
def queueClus (s : State) (q : Nat) : Nat :=
  (s.clus.filter (fun e =>
    match (match e.2.wanted with | some w => some w | none => e.2.owner) with
    | some l => (launchOf s.hub l).any (fun la => la.queue == q)
    | none => false)).length

/-- Whether the energy and reservation tests of R316 let a launch take a cluster of a domain. -/
def mayGrant (s : State) (d slot : Nat) (la : Launch) : Bool :=
  let mw := 125 * proj s d + dueMw s d + epwr s.hub (eclsOf s.hub slot)
  match rtOf s la with
  | some r => decide (queueClus s la.queue < fld r.cfg 52 8) && decide (mw ≤ capE s.hub d)
  | none =>
      decide (mw + Config.freeDraw (8 + d) s.tick ≤ capE s.hub d) &&
      (mget emptyDomain s.doms d).reserved.all (fun o =>
        o == slot || (launchOf s.hub o).all (fun lo => decide (effClass s o lo < effClass s slot la)))

/-- Swap slots that are in use or promised to clusters on their way out. -/
def slotsDue (s : State) : Nat :=
  s.hub.tables.slots.length + (s.clus.filter (fun e => e.2.wanted.isSome && (e.2.owner.any (fun l => (launchOf s.hub l).isSome)))).length

/-- A taking that finds no free swap slot is counted (R307). -/
def refuseTaking (s : State) : State := { s with hub := bump s.hub 0x2018 32 32 }

/-- Pre-emption of a cluster's contexts is requested, for a launch that is to own it next (R317). -/
def preemptFor (s : State) (c w : Nat) : State :=
  let u := mget emptyCluster s.clus c
  { s with clus := mset emptyCluster s.clus c { u with wanted := some w }
           ctxs := s.ctxs.map (fun e => if clusOfCore (coreOfCid e.1) = c ∧ e.2.status ≠ .dormant then (e.1, { e.2 with preempt := true }) else e) }

/-- The holder of a cluster loses it, if a swap slot is free (R307). -/
def takeFrom (s : State) (c w : Nat) : State :=
  if slotsDue s < fld (reg s.hub 0x2010) 0 13 then preemptFor s c w else refuseTaking s

/-- Whether a launch may take a cluster from its holder (R317, R319). -/
def mayTake (s : State) (c slot : Nat) (la : Launch) (o : Nat) (lo : Launch) : Bool :=
  let u := mget emptyCluster s.clus c
  let quantumOver := decide (u.taken + quantum s.hub ≤ s.now) && decide (effClass s o lo ≤ effClass s slot la)
  (rtOf s lo).isNone && (quantumOver || (rtOf s la).isSome)

/-- The starving reservation of a launch that has waited 16 quanta (R316); a real-time launch makes none. -/
def reserve (s : State) (d slot : Nat) (la : Launch) : State :=
  let m := mget emptyDomain s.doms d
  if !granted s slot ∧ la.since + 16 * quantum s.hub ≤ s.now ∧ (rtOf s la).isNone ∧ slot ∉ m.reserved then
    { s with doms := mset emptyDomain s.doms d { m with reserved := m.reserved ++ [slot] } }
  else s

/-- A launch that is granted a cluster holds no reservation any more. -/
def clearReserve (s : State) (slot : Nat) : State :=
  if granted s slot then
    { s with doms := (s.doms.map (fun e => (e.1, { e.2 with reserved := e.2.reserved.filter (· != slot) }))).filter (fun e => e.2 != emptyDomain) }
  else s

/-- One grant of a decision (R316, R317). A launch of PASID 0 runs on the service cores and is granted no cluster (R393). -/
def grantOne (s : State) (g : Grant) : State :=
  let c := g.clus
  let d := c / 32
  let u := mget emptyCluster s.clus c
  match launchOf s.hub g.lslot with
  | none => s
  | some la =>
      if la.pasid = 0 ∨ isService (8 * c) ∨ !(upto 8).any (fun k => inService s.hub (8 * c + k)) ∨ u.wanted.isSome ∨ !isReady s g.lslot la ∨
         u.owner = some g.lslot then s
      else if !mayGrant s d g.lslot la then reserve s d g.lslot la
      else
        match u.owner.bind (fun o => (launchOf s.hub o).map (fun lo => (o, lo))) with
        | none => clearReserve { s with clus := mset emptyCluster s.clus c { u with wanted := some g.lslot } } g.lslot
        | some (o, lo) => if mayTake s c g.lslot la o lo then clearReserve (takeFrom s c g.lslot) g.lslot else s

/-- The order of grants (R316): real-time slots with budget first, then by effective class, then by age. -/
def before (s : State) (g h : Grant) : Bool :=
  match launchOf s.hub g.lslot, launchOf s.hub h.lslot with
  | some x, some y =>
      let rx := (rtOf s x).isSome
      let ry := (rtOf s y).isSome
      if rx ≠ ry then rx
      else
        let cx := effClass s g.lslot x
        let cy := effClass s h.lslot y
        if rx ∨ cx = cy then decide (x.since ≤ y.since) else decide (cy < cx)
  | _, _ => true

/-- The clusters of a domain with live holders, the first to lose theirs first (R320): no real-time budget, then the lowest class. -/
def shedOrder (s : State) (d : Nat) : List Nat :=
  let held := s.clus.filterMap (fun e =>
    if e.1 / 32 = d ∧ e.2.wanted = none then (e.2.owner.bind (launchOf s.hub)).map (fun la => (e.1, (rtOf s la).isSome, effClass s (e.2.owner.getD 0) la))
    else none)
  (sortBy (fun x y => if x.2.1 = y.2.1 then decide (x.2.2 ≤ y.2.2) else !x.2.1) held).map (·.1)

/-- Clusters leave their holders until the domain's projection meets its cap (R317, R320). -/
def shed (d : Nat) : List Nat → Nat → State → State
  | [], _, s => s
  | c :: rest, saved, s =>
      if 125 * proj s d ≤ capE s.hub d + saved then s
      else
        let o := (mget emptyCluster s.clus c).owner.getD 0
        shed d rest (saved + epwr s.hub (eclsOf s.hub o)) (takeFrom s c 4096)

/-- The clusters of a domain on their way to no owner, in mW. -/
def leavingMw (s : State) (d : Nat) : Nat :=
  s.clus.foldl (fun m e => if e.2.wanted = some 4096 ∧ e.1 / 32 = d then m + epwr s.hub (eclsOf s.hub (e.2.owner.getD 4096)) else m) 0

/-- Every domain whose projection exceeds its cap sheds clusters. -/
def shedAll (s : State) : State := (upto 8).foldl (fun s d => shed d (shedOrder s d) (leavingMw s d) s) s

/-- The age of a launch that is not ready starts afresh. -/
def noteReady (s : State) : State :=
  let ls := s.hub.tables.launches.map (fun e => if isReady s e.1 e.2 then e else (e.1, { e.2 with since := s.now }))
  { s with hub := { s.hub with tables := { s.hub.tables with launches := ls } } }

/-- PROJ of every domain is brought up to date. -/
def putProjs (s : State) : State := (upto 8).foldl putProj s

/-- The clusters of the device, by number. -/
def allClusters : List Nat := (upto 256).filter (fun c => decide (c / 4 % 8 < 5))

/-- A ready launch that no grant names, in its turn: the lowest cluster that may be granted to it, or a starving reservation of the first domain
that its energy test bars it from (R316; log entry 110). -/
def serveLaunch (s : State) (slot : Nat) : State :=
  match launchOf s.hub slot with
  | none => s
  | some la =>
      let t := allClusters.foldl (fun s c => if granted s slot || !mayGrant s (c / 32) slot la then s else grantOne s { clus := c, lslot := slot }) s
      if granted t slot then t
      else
        match (upto 8).find? (fun d => !mayGrant t d slot la) with
        | some d => if t.doms.any (fun m => slot ∈ m.2.reserved) then t else reserve t d slot la
        | none => t

/-- The turns of a decision (R316): its grants and the ready launches that none of them names, in the order of precedence. -/
def turns (s : State) (gs : List Grant) : List (Grant × Bool) :=
  let rest := (s.hub.tables.launches.filter (fun e =>
    e.2.pasid != 0 && isReady s e.1 e.2 && !granted s e.1 && !gs.any (fun g => g.lslot == e.1))).map
    (fun e => (({ clus := 0, lslot := e.1 } : Grant), false))
  sortBy (fun x y => before s x.1 y.1) (gs.map (fun g => (g, true)) ++ rest)

/-- SCHEDULER_DECISION: every ready launch has its turn, in the order of precedence; the decision names clusters for some of them. Budgets are
charged first (R319). No grant while Hold is being entered (R457). -/
def effDecision (gs : List Grant) (s : State) : State :=
  let s1 := shedAll (putProjs (noteReady (chargeRt s)))
  if queuesRun s then (turns s1 gs).foldl (fun s t => if t.2 then grantOne s t.1 else serveLaunch s t.1.lslot) s1 else s1

/-- SCHEDULER_TICK, every 10 µs. -/
def effTick (s : State) : State :=
  if s.hub.lastTick + 29000 ≤ s.now then
    let t := shedAll (putProjs (chargeRt s))
    { t with hub := { t.hub with lastTick := s.now } }
  else s

/-- The ready launches that wait for a cluster, the first to be served first. -/
def waiting (s : State) (c : Nat) : List Grant :=
  sortBy (before s) ((s.hub.tables.launches.filter (fun e => e.2.pasid != 0 && isReady s e.1 e.2 && !granted s e.1)).map
    (fun e => ({ clus := c, lslot := e.1 } : Grant)))

/-- QUANTUM_EXPIRY of the holder of a cluster: the first waiting launch takes it; when none may be granted it now, the holder is pre-empted all
the same for a waiting launch of equal or higher class (R317). -/
def effQuantum (c : Nat) (s0 : State) : State :=
  let s := chargeRt s0
  let u := mget emptyCluster s.clus c
  if u.owner.isSome ∧ u.wanted.isNone ∧ u.taken + quantum s.hub ≤ s.now ∧ queuesRun s then
    match (waiting s c).head?, u.owner.bind (fun o => (launchOf s.hub o).map (fun lo => (o, lo))) with
    | some g, some (o, lo) =>
        match launchOf s.hub g.lslot with
        | some la =>
            if mayGrant s (c / 32) g.lslot la then grantOne s g
            else
              let t := reserve s (c / 32) g.lslot la
              if mayTake s c g.lslot la o lo then takeFrom t c 4096 else t
        | none => s
    | some g, none => grantOne s g
    | none, _ => s
  else s

/-- PARK_NOTICE (R317): a context of a cluster that is to change hands, or of any while Hold is entered, has stayed parked for two quanta. -/
def effParkNotice (cid : Nat) (s : State) : State :=
  let c := ctxOf s cid
  match c.status with
  | .parked p =>
      if p.listed ∧ c.preempt ∧ c.parkedAt + 2 * quantum s.hub ≤ s.now then
        freeRecord (putCtx s cid { c with parkedAt := s.now }) 0x00 0 0 c.pasid cid c.pc (c.actor.setWidth 64)
      else s
  | _ => s

/-- RT_PERIOD_START of a slot (R319, R322): the register's word comes into force and the budget is refilled. -/
def effRtPeriod (i : Nat) (s0 : State) : State :=
  let v := reg s0.hub (0x2400 + 8 * i)
  let go := match s0.hub.rt.find? (fun e => e.1 == i) with | some (_, r) => decide (r.start + 2900 * fld r.cfg 12 20 ≤ s0.now) | none => true
  if i < 32 ∧ go = true then
    let s := chargeRt s0
    let rest := mdel s.hub.rt i
    { s with hub := { s.hub with rt := if bit v.toNat 9 then minsert rest i { cfg := v, left := 2900 * fld v 32 20, start := s.now } else rest } }
  else s0

/-- THERMAL_LIMIT_CHANGE of a domain (R320). -/
def effThermal (d : Nat) (tlim : BitVec 12) (s0 : State) : State :=
  let s := chargeRt s0
  if d < 8 then
    let s1 := { s with hub := setReg s.hub (0x2100 + 8 * d) (setFld (reg s.hub (0x2100 + 8 * d)) 24 12 tlim.toNat) }
    let s1 := putProj s1 d
    if tlim.toNat < proj s1 d then shed d (shedOrder s1 d) (leavingMw s1 d) (routeEvent s1 5 (BitVec.ofNat 64 d)) else s1
  else s

/-! ## CLUSTER_OWNER_CHANGE (R318) -/

/-- Whether every context of a cluster is dormant. -/
def clusIdle (s : State) (c : Nat) : Bool := (upto 8).all (fun p => coreIdle s (8 * c + p))

/-- Whether a launch owns all four clusters of a sector (R315). -/
def ownsSector (s : State) (slot sect : Nat) : Bool := (upto 4).all (fun k => (mget emptyCluster s.clus (4 * sect + k)).owner == some slot)

/-- The channels of a core whose entries belong to an instance. -/
def instChans (k : Core) (slot inst : Nat) : List (Nat × Chan) :=
  k.chans.filter (fun ch => entVal ch.2.entry && entLslot ch.2.entry == slot && entInst ch.2.entry == inst)

/-- The escalation timers of tokens that go to an instance record stand still (R389). -/
def pauseTimers (s : State) (slot inst core : Nat) (chs : List Nat) : State :=
  let pause := fun (e : EscTimer) => if e.off.isNone ∧ e.core = core ∧ e.ch.toNat ∈ chs then { e with due := e.due - s.now, off := some (slot, inst) } else e
  { s with hub := { s.hub with esc := s.hub.esc.map pause } }

/-- Step 1 for one instance: it becomes swapped, with its own mailbox in SAVE, and its tokens, entries and credits go to its record in the
save area (R306). -/
def swapInst (slot : Nat) (s : State) (inst : Nat) : State :=
  match launchOf s.hub slot with
  | none => s
  | some la =>
      let c := plCore (mget 0 la.places inst)
      let k := coreAt s c
      let own := instChans k slot inst
      let e := ((own.find? (fun ch => !entSec ch.2.entry)).map (·.2.entry)).getD 0
      let e2 := ((own.find? (fun ch => entSec ch.2.entry)).map (·.2.entry)).getD 0
      let r : InstRec := { toks := (mget emptyInst la.insts inst).toks, chans := own.flatMap (fun ch => ch.2.toks), entry := e, entry2 := e2
                           credit := k.credit (entOedge e).toNat }
      let chans := own.foldl (fun m ch => mset emptyChan m ch.1 { ch.2 with toks := [] }) k.chans
      let w : Word := BitVec.ofNat 64 (2 + (adOf slot inst 0).toNat * 2 ^ 16)
      let la1 := { la with places := mset 0 la.places inst w, insts := mset emptyInst la.insts inst r }
      let s1 := putCore { s with hub := putLaunch s.hub slot la1 } c { k with chans := chans }
      putInst la1 (pauseTimers s1 slot inst c (own.map (·.1))) inst r

/-- The instances of a launch that are placed on a cluster. -/
def placedOn (la : Launch) (c : Nat) : List Nat := (la.places.filter (fun e => pst e.2 == 1 && clusOfCore (plCore e.2) == c)).map (·.1)

/-- What a core keeps when its cluster changes hands (R318 step 3): everything that a program left in it goes. -/
def blankCore (k : Core) : Core :=
  { emptyCore with serc := k.serc, utlb := k.utlb, seq := k.seq, prefs := k.prefs, gated := k.gated, suspect := k.suspect, late := k.late }

/-- What a sector keeps when its owner changes. -/
def blankSector (q : Sector) : Sector :=
  { q with accum := [], gov := [], rpois := [], bank0 := emptyBank, bank1 := emptyBank, cells := [] }

/-- The bytes of a list that are not zero, with their offsets from `at_` up. -/
def cellsAt (at_ : Nat) : List Byte → List (Nat × Byte)
  | [] => []
  | b :: rest => if b = 0 then cellsAt (at_ + 1) rest else (at_, b) :: cellsAt (at_ + 1) rest

/-- Listed bytes moved up. -/
def shiftCells (by_ : Nat) (m : Map Byte) : List (Nat × Byte) := m.map (fun e => (by_ + e.1, e.2))

/-- The part of a swap slot that holds the core of a position (R307). The slot gives the places of the parts; the order within the
channel store and the per-position state is the model's (log entry 36). -/
def slotCore (x : SwapSlot) (p : Nat) (k : Core) : List (Nat × Byte) :=
  let state := leBytes 8 k.dist.toNat ++ leBytes 8 k.tile0.toNat ++ leBytes 8 k.tile1.toNat ++ leBytes 8 k.lastFired.toNat ++
    (upto 32).flatMap (fun c => leBytes 8 (mget 0 x.aging (32 * p + c) - 1)) ++ k.credits.flatMap (fun e => leBytes 4 e.1 ++ leBytes 4 (e.2 - 1))
  shiftCells (0x8000 * p) k.w ++ shiftCells (0x8000 * p + 0x3000) k.x ++ shiftCells (0x8000 * p + 0x5000) k.y ++
  cellsAt (0x80000 + 0x2000 * p) (k.chans.flatMap (fun ch => ch.2.toks.flatMap tokSlot)) ++
  k.chans.flatMap (fun ch => cellsAt (0x90000 + 0x400 * p + 32 * ch.1) (leBytes 32 ch.2.entry.toNat)) ++ cellsAt (0x92000 + 0x400 * p) state

/-- The part of a swap slot that holds a sector's LMU and join cells (R307). At slot width 2 the two banks fill their 8 KiB, so that their width and
tile-id records find no byte there; the scheduler's own state keeps them (log entry 36). -/
def slotSect (q : Sector) : List (Nat × Byte) :=
  let bankBits := fun (b : Bank) (i : Nat) =>
    let w := 256 / b.n
    (upto b.n).foldl (fun m n => m + fld (mget 0 b.elems (i * 128 + n)) 0 8 % 2 ^ w * 2 ^ (w * n)) 0
  let bank := fun (b : Bank) => if b.loaded then (upto 128).flatMap (fun i => leBytes 32 (bankBits b i)) else List.replicate 4096 0
  q.accum.flatMap (fun e => cellsAt (0x114000 + 4 * e.1) (leBytes 4 e.2.toNat)) ++ cellsAt 0x15C000 (bank q.bank0 ++ bank q.bank1) ++
  q.cells.flatMap (fun e => cellsAt (0x15E000 + 8 * e.1) (leBytes 8 e.2.toNat))

/-- The bytes of a swap slot that are not zero (R307). -/
def slotCells (h : Hub) (x : SwapSlot) : List (Nat × Byte) :=
  x.cores.flatMap (fun k => slotCore x k.1 k.2) ++
  (match x.cluster with
   | some u =>
       shiftCells 0x40000 u.s ++
       u.saves.flatMap (fun v => cellsAt (0x94000 + 0x2000 * (v.1 % 64)) (recordBytes v.2 v.2.live))
   | none => []) ++
  (if x.clus % 4 = 0 then
    (match (launchOf h x.lslot).bind (fun la => (la.sects.find? (fun e => e.1 == x.clus / 4)).map (·.2)) with | some q => slotSect q | none => [])
   else [])

/-- Where a swap slot lies in the pool (R307). -/
def slotBase (h : Hub) (i : Nat) : Nat := fld (reg h 0x2010) 21 23 * 2 ^ 21 + i * 2 ^ 21

/-- The granules of a swap slot whose bytes are to change: those that hold a byte now, or are to hold one. -/
def slotGrans (s : State) (base : Nat) (cells : List (Nat × Byte)) : List Nat :=
  let old := (s.mem.filter (fun (c : Nat × Byte) => decide (base ≤ c.1) && decide (c.1 < base + 2 ^ 21))).map (fun (c : Nat × Byte) => (c.1 - base) / 64)
  (cells.map (fun (c : Nat × Byte) => c.1 / 64) ++ old).eraseDups

/-- A swap slot is written to the pool by writes of the hub, a granule each (R307, R403). The scheduler's state keeps the same data, from which it
loads them (log entry 36). -/
def writeSlot (s : State) (x : SwapSlot) : State :=
  let base := x.base
  if !isRam base then s
  else
    let cells := slotCells s.hub x
    (slotGrans s base cells).foldl (fun s g =>
      hubPut s (hubWriteOf s.hub (base + 64 * g) ((upto 64).map (fun j => mget 0 cells (64 * g + j))))) s

/-- Whether the save record of a context in a swap slot is poisoned (R402). -/
def slotRecordBad (s : State) (x : SwapSlot) (cid : Nat) : Bool :=
  (upto 128).any (fun g => granPois s (x.base + 0x94000 + 0x2000 * (cid % 64) + 64 * g))

/-- The aging counts of the runnable handlers of a cluster (R299, R307). -/
def agingOf (s : State) (c : Nat) : Map Nat :=
  (upto 8).flatMap (fun p => (upto 32).filterMap (fun h =>
    if isRunnable s (8 * c + p) h then some (32 * p + h, s.now - (chanAt s (8 * c + p) h).since + 1) else none))

/-- Steps 1 to 3 for a live holder: its state goes to a swap slot, and with the sector to the launch's own record. -/
def swapOut (s : State) (c o slot : Nat) : State :=
  let sect := c / 4
  let whole := ownsSector s o sect
  let s1 := match launchOf s.hub o with | some la => (placedOn la c).foldl (swapInst o) s | none => s
  let x : SwapSlot := { lslot := o, clus := c, base := slotBase s1.hub slot, cluster := some (mget emptyCluster s1.clus c), cores := (upto 8).map (fun p => (p, coreAt s1 (8 * c + p)))
                        aging := agingOf s c }
  let h := s1.hub
  let keep := fun (la : Launch) => if whole then minsert (mdel la.sects sect) sect (mget emptySector s1.sects sect) else la.sects
  let h1 := match launchOf h o with | some la => putLaunch h o { la with since := s.now, sects := keep la } | none => h
  let s2 := { s1 with hub := { h1 with tables := { h1.tables with slots := minsert (mdel h1.tables.slots slot) slot x } } }
  (s2.hub.tables.slots.filter (fun e => e.2.lslot == o && e.2.clus / 4 == sect)).foldl (fun s e => writeSlot s e.2) s2

/-- Step 3: the cluster and the sector's join cells read zero, and the sector's LMU when its owner loses it. -/
def zeroClus (s : State) (c : Nat) (whole : Bool) : State :=
  let u := mget emptyCluster s.clus c
  let s1 := { s with clus := mset emptyCluster s.clus c { u with s := [], spois := [], saves := [], owner := none } }
  let s2 := (upto 8).foldl (fun s p => putCore s (8 * c + p) (blankCore (coreAt s (8 * c + p)))) s1
  let q := mget emptySector s2.sects (c / 4)
  { s2 with sects := mset emptySector s2.sects (c / 4) (if whole then blankSector q else { q with cells := [] }) }

/-- A core's state comes back from a swap slot. Its row slots were released when the owner changed (R286). -/
def loadCore (c : Nat) (s : State) (e : Nat × Core) : State :=
  let k := coreAt s (8 * c + e.1)
  putCore s (8 * c + e.1) { e.2 with serc := k.serc, utlb := k.utlb, dcache := [], icache := [], rows := [], seq := k.seq, prefs := k.prefs
                                     idleAsk := false, gated := k.gated, suspect := k.suspect, late := k.late }

/-- The aging counts go on from where they stood (R307): a handler that was runnable and is so again. -/
def restoreAging (c : Nat) (m : Map Nat) (s : State) : State :=
  m.foldl (fun s e =>
    let core := 8 * c + e.1 / 32
    let h := e.1 % 32
    if isRunnable s core h then putChan s core h { chanAt s core h with since := s.now - (e.2 - 1) } else s) s

/-- A firing saved at YIELD wakes again on its context (R205, R305). -/
def resumeSave (s : State) (e : Nat × Ctx) : State :=
  let old := ctxOf s e.1
  if old.status = .dormant then
    let c := { e.2 with sig := BitVec.allOnes 256, mtpc := old.mtpc, mtst := old.mtst, mtvec := old.mtvec, mtcode := old.mtcode }
    let s1 := putCtx s e.1 c
    s1.putLoc ((s1.loc e.1).acquire (BitVec.allOnes 256))
  else s

/-- The instances whose entries a core holds. -/
def coreInsts (k : Core) (slot : Nat) : List Nat :=
  (k.chans.filterMap (fun ch => if entVal ch.2.entry && !entSec ch.2.entry && entLslot ch.2.entry == slot then some (entInst ch.2.entry) else none)).eraseDups

/-- A swapped instance is placed again on the core that holds its entry, with the credits of its record (R318 step 4). -/
def restoreInst (slot core : Nat) (s : State) (inst : Nat) : State :=
  match launchOf s.hub slot with
  | none => s
  | some la =>
      if pst (mget 0 la.places inst) ≠ 2 then s
      else
        let r0 := mget emptyInst la.insts inst
        let r := readInst s la inst r0
        let oe := (entOedge r.entry).toNat
        let s0 := readInstGrans la inst r0 s
        let s1 := if oe = 0 then s0 else putCore s0 core ((coreAt s0 core).setCredit oe r.credit)
        placeNow slot inst (BitVec.ofNat 64 (1 + core * 4)) s1

/-- Step 4: the new owner's state is loaded from the swap slot that holds it, which is freed. A poisoned save record in it rolls the device back
(R402). -/
def loadOwner (s : State) (c w : Nat) : State :=
  match s.hub.tables.slots.findSome? (fun e => if e.2.lslot = w ∧ e.2.clus = c then e.2.cluster.map (fun u => (e.1, e.2, u)) else none) with
  | none => s
  | some (i, x, u0) =>
      if u0.saves.any (fun v => slotRecordBad s x v.1) then dueRollback s 4
      else
      let u := mget emptyCluster s.clus c
      let t := s.hub.tables
      let s1 := { s with clus := mset emptyCluster s.clus c { u with s := u0.s, spois := u0.spois }
                         hub := { s.hub with tables := { t with slots := mdel t.slots i } } }
      let s2 := x.cores.foldl (loadCore c) s1
      let s4 := (upto 8).foldl (fun s p => (coreInsts (coreAt s (8 * c + p)) w).foldl (restoreInst w (8 * c + p)) s) s2
      u0.saves.foldl resumeSave (restoreAging c x.aging s4)

/-- A launch that now owns all four clusters of a sector gets its LMU blank, or as it left it (R315, R318). -/
def gainSector (s : State) (c w : Nat) : State :=
  let sect := c / 4
  if !ownsSector s w sect then s
  else
    let q := blankSector (mget emptySector s.sects sect)
    match (launchOf s.hub w).bind (fun la => (la.sects.find? (fun e => e.1 == sect)).map (fun e => (la, e.2))) with
    | some (la, o) =>
        { s with sects := mset emptySector s.sects sect { o with tileq := q.tileq, sigs := q.sigs, off := q.off, late := q.late }
                 hub := putLaunch s.hub w { la with sects := mdel la.sects sect } }
    | none => { s with sects := mset emptySector s.sects sect q }

/-- A change that is called off: the holder keeps the cluster, and its saved firings wake again. -/
def keepOwner (s : State) (c : Nat) : State :=
  let u := mget emptyCluster s.clus c
  let s1 := { s with clus := mset emptyCluster s.clus c { u with wanted := none, saves := [] }
                     ctxs := s.ctxs.map (fun e => if clusOfCore (coreOfCid e.1) = c then (e.1, { e.2 with preempt := false }) else e) }
  u.saves.foldl resumeSave s1

/-- Step 5: the new owner holds the cluster; 4096 stands for no owner. -/
def grantTo (s : State) (c w : Nat) : State :=
  let u := mget emptyCluster s.clus c
  { s with clus := mset emptyCluster s.clus c { u with owner := if w < 4096 then some w else none, taken := s.now, wanted := none } }

/-- CLUSTER_OWNER_CHANGE: `slot` is the swap slot for a live holder's state. Cluster time is charged first (R319). -/
def effOwnerChange (c slot : Nat) (s0 : State) : State :=
  let s := chargeRt s0
  let u := mget emptyCluster s.clus c
  match u.wanted with
  | none => s
  | some w =>
      if !clusIdle s c then s
      else if w > 4096 ∨ (w < 4096 ∧ (launchOf s.hub w).isNone) then keepOwner s c
      else
        let load := fun (t : State) => let t1 := grantTo t c w; if w < 4096 then loadOwner (gainSector t1 c w) c w else t1
        match u.owner.bind (fun o => (launchOf s.hub o).map (fun _ => o)) with
        | some o =>
            let whole := ownsSector s o (c / 4)
            if fld (reg s.hub 0x2010) 0 13 ≤ slot ∨ s.hub.tables.slots.any (fun e => e.1 == slot) ∨
               (whole ∧ !(mget emptySector s.sects (c / 4)).tileq.isEmpty) then s
            else load (zeroClus (swapOut s c o slot) c whole)
        | none => load (zeroClus s c false)

/-! ## Events -/

/-- The data of an event of a source (R447): those that its unit holds, or that the source alone gives; for the others those that the event
names, when they name one of its units. None for a source that is never raised. -/
def eventData (s : State) (src : Nat) (data : Word) : Option Word :=
  match src with
  | 0 => if data.toNat < 512 then some data else none
  | 1 => some (BitVec.ofNat 64 (fld (reg s.hub 0x5010) 32 32))
  | 2 => if data.toNat < 2 ^ 33 then some data else none
  | 3 => if coreCodeOk data.toNat then some data else none
  | 4 => some (BitVec.ofNat 64 (fld (reg s.hub 0x4008) 32 32))
  | 5 => if data.toNat < 8 then some data else none
  | 40 => some (reg s.hub 0x6008)
  | 41 => some 0
  | n => if 8 ≤ n ∧ n ≤ 39 then some (BitVec.ofNat 64 ((n - 8) % 16)) else none

/-- EXTERNAL_EVENT of a source that R447 lists, with the data that it lists for it. -/
def effExternal (src : Nat) (data : Word) (s : State) : State :=
  match eventData s src data with | some d => routeEvent s src d | none => s

/-- IRT_ESCALATION of the k-th timer (R389): the vector is raised once, not held, and ESCC counts it. -/
def effEscalation (k : Nat) (s : State) : State :=
  match s.hub.esc[k]? with
  | some t =>
      if t.off.isNone ∧ t.due ≤ s.now then
        let h := { s.hub with esc := dropAt s.hub.esc k }
        { s with hub := bump (raiseMsi h t.vec) (0x4808 + 16 * t.src) 32 32 }
      else s
  | none => s

/-- LAUNCH_RECORD. -/
def execLaunchRecord (q : Nat) (s : State) : Host.Outcome State Fault Refusal := live s (sendRecs (effLaunchRecord q s))
/-- LAUNCH_START. -/
def execLaunchStart (lslot : Nat) (pl : List Placing) (s : State) : Host.Outcome State Fault Refusal :=
  live s (sendRecs (effLaunchStart lslot pl s))
/-- LAUNCH_COMPLETION. -/
def execLaunchCompletion (lslot : Nat) (s : State) : Host.Outcome State Fault Refusal := live s (sendRecs (effLaunchCompletion lslot s))
/-- SCHEDULER_DECISION. -/
def execSchedulerDecision (gs : List Grant) (s : State) : Host.Outcome State Fault Refusal := live s (effDecision gs s)
/-- SCHEDULER_TICK. -/
def execSchedulerTick (s : State) : Host.Outcome State Fault Refusal := live s (effTick s)
/-- QUANTUM_EXPIRY. -/
def execQuantumExpiry (c : Nat) (s : State) : Host.Outcome State Fault Refusal := live s (effQuantum c s)
/-- PARK_NOTICE. -/
def execParkNotice (cid : Nat) (s : State) : Host.Outcome State Fault Refusal := live s (effParkNotice cid s)
/-- RT_PERIOD_START. -/
def execRtPeriodStart (i : Nat) (s : State) : Host.Outcome State Fault Refusal := live s (effRtPeriod i s)
/-- CLUSTER_OWNER_CHANGE. -/
def execClusterOwnerChange (c slot : Nat) (s : State) : Host.Outcome State Fault Refusal := live s (effOwnerChange c slot s)
/-- THERMAL_LIMIT_CHANGE. -/
def execThermalLimitChange (d : Nat) (tlim : BitVec 12) (s : State) : Host.Outcome State Fault Refusal := live s (effThermal d tlim s)
/-- EXTERNAL_EVENT. -/
def execExternalEvent (src : Nat) (data : Word) (s : State) : Host.Outcome State Fault Refusal := live s (effExternal src data s)
/-- IRT_ESCALATION. -/
def execIrtEscalation (k : Nat) (s : State) : Host.Outcome State Fault Refusal := live s (effEscalation k s)

end Sys2Proof.Machine
end

