-- ==== Sys2Proof/Machine/Drift.lean ====
section
/-! DEFINITION. Drifts and recovery: seals, sweeps, rollback, the checker, spare cores, the scrubber (R14, R29, R395-R397, R403-R411,
R415, R420-R424, R467). -/
namespace Sys2Proof.Machine
open Sys2Proof

/-! ## Seals (R405-R408) -/

/-- Every agent that the state lists turns late: it stamps with the older drift until it acknowledges (R406 step 2). -/
def allLate (s : State) : State :=
  { s with cores := s.cores.map (fun e => (e.1, { e.2 with late := true })), clus := s.clus.map (fun e => (e.1, { e.2 with late := true }))
           sects := s.sects.map (fun e => (e.1, { e.2 with late := true })), doms := s.doms.map (fun e => (e.1, { e.2 with late := true })) }

/-- Whether the egress hold's wish is a request now: no sooner than 1 µs after its previous one (R408). -/
def holdAsks (s : State) : Bool := s.hub.seals.holdWant && decide (s.hub.seals.holdReq + 2900 ≤ s.now)

/-- Whether a seal request stands (R408). -/
def sealAsked (s : State) : Bool := s.hub.seals.wanted || holdAsks s

/-- SEAL_START: OPEN(d + 1), unless the sweep of d - 2 is still under way (R405, R406 step 1). Every request so far is for the drift that
this seal seals, and is satisfied by it (R408). -/
def effSealStart (s : State) : State :=
  let o := s.hub.seals
  let n := o.newest + 1
  if o.stage = .quiet ∧ sealAsked s ∧ !(n - 3 ∈ o.sweeping) ∧ s.hub.rbDue.isNone then
    let req := if holdAsks s then s.now else o.holdReq
    let o1 := { o with newest := n, stage := .opening, wanted := false, holdWant := false, holdReq := req }
    allLate { s with hub := { s.hub with seals := o1 } }
  else s

/-- DRIFT_ACK of an agent: it switches its stamp. The hub switches with its tables (R421). -/
def effDriftAck (a : Stamper) (s : State) : State :=
  if s.hub.seals.stage ≠ .opening then s
  else
    match a with
    | .core n => putCore s n { coreAt s n with late := false }
    | .engine (.clus c _) => { s with clus := mset emptyCluster s.clus c { mget emptyCluster s.clus c with late := false } }
    | .engine (.bulk d) => { s with doms := mset emptyDomain s.doms d { mget emptyDomain s.doms d with late := false } }
    | .lmu k => { s with sects := mset emptySector s.sects k { mget emptySector s.sects k with late := false } }
    | .hub =>
        if hubStamp s.hub = s.hub.seals.newest then s
        else { s with hub := { s.hub with snaps := (s.hub.seals.newest, s.hub.tables) :: s.hub.snaps } }

/-- Whether some agent has not acknowledged the newest drift. -/
def someLate (s : State) : Bool :=
  s.cores.any (fun e => e.2.late) || s.clus.any (fun e => e.2.late) || s.sects.any (fun e => e.2.late) || s.doms.any (fun e => e.2.late) ||
  hubStamp s.hub != s.hub.seals.newest

/-- Whether a context has a write of a drift that has not reached its home. -/
def stampedBy (d : BitVec 32) (c : Ctx) : Bool :=
  c.stq.any (fun g => g.stamp == d) || (match c.status with | .parked (.atomic r) => r.stamp == d | _ => false)

/-- SEAL_COMMIT: the drift is sealed, its held items leave in order, its entries are freed and its sweep starts (R406 steps 3 and 4, R415). -/
def effSealCommit (s : State) : State :=
  let o := s.hub.seals
  let d := o.newest - 1
  if o.stage = .opening ∧ !someLate s ∧ !s.ctxs.any (fun e => stampedBy d e.2) ∧ s.hub.rbDue.isNone then
    let mine := s.hub.held.filter (fun x => x.stamp == d)
    let h := { s.hub with
      seals := { o with sealed := d, stage := .quiet, sweeping := o.sweeping ++ [d], lastCommit := s.now }
      held := s.hub.held.filter (fun x => x.stamp != d), wbStall := []
      wb := (s.hub.wb.map (fun r => (r.1, r.2.filter (fun e => e.drift != d)))).filter (fun r => !r.2.isEmpty)
      snaps := s.hub.snaps.filter (fun e => e.1 != d) }
    (mine.map (·.item)).foldl releaseItem { s with hub := h }
  else s

/-- SWEEP_COMPLETE of the oldest sweep: DT and PIN of its granules read 0 (R405). -/
def effSweep (s : State) : State :=
  match s.hub.seals.sweeping with
  | [] => s
  | d :: rest =>
      { s with hub := { s.hub with seals := { s.hub.seals with sweeping := rest } }
               grans := (s.grans.map (fun g => (g.1, if g.2.dt = dtOf d then { g.2 with dt := 0, pin := false } else g.2))).filter
                 (fun g => g.2 != cleanGran) }

/-- Whether the newest open drift holds anything that a seal would settle (R408): a stamped write, a held item, an entry or a SEAL with WT. What
belongs to a drift that is being sealed is that seal's. -/
def openHolds (s : State) : Bool :=
  let d := s.hub.seals.newest
  s.hub.held.any (fun x => x.stamp == d) || s.hub.wb.any (fun r => r.2.any (fun w => w.drift == d)) || s.ctxs.any (fun e => stampedBy d e.2) ||
  s.ctxs.any (fun e => e.2.status == .parked (.seal d))

/-- SEAL_TIMER: PER µs after the last commit point (R408). -/
def effSealTimer (s : State) : State :=
  if s.hub.seals.lastCommit + 2900 * fld (reg s.hub 0x5008) 0 17 ≤ s.now ∧ openHolds s then { s with hub := wantSeal s.hub } else s

/-! ## Rollback (R421-R423, R467) -/

/-- Copies of a restored line leave the slice, and the host's by a back-invalidation (R421 step 5). -/
def dropCopies (s0 : State) (g : Nat) : State :=
  let s := if (lineInfo s0 g).hp then emit s0 (.bisnpInv g) else s0
  { s with hostCache := mdel s.hostCache g, lines := mset absentLine s.lines g absentLine }

/-- A granule takes its old contents from an entry; one that a host write pinned keeps its own, and one whose entry is uncorrectable is
poisoned (R421 steps 4 and 5, R423). -/
def restoreGran (pins : Map GranMeta) (s : State) (w : WbEntry) : State :=
  let m := mget cleanGran s.grans w.gran
  if (mget cleanGran pins w.gran).pin then { s with grans := mset cleanGran s.grans w.gran { m with dt := 0, pin := false } }
  else
    let t := dropCopies s w.gran
    if w.bad then { t with grans := mset cleanGran t.grans w.gran { dt := 0, pois := true, pin := false } }
    else { t with mem := ramPut t.mem (64 * w.gran) w.old, grans := mset cleanGran t.grans w.gran { dt := 0, pois := w.opois, pin := false } }

/-- The entries of a channel in the order of R421 step 4: newest drift first, and within a drift in descending SEQ. -/
def undoOrder (newest : BitVec 32) (es : List WbEntry) : List WbEntry :=
  (es.filter (fun w => w.drift == newest)).reverse ++ (es.filter (fun w => w.drift != newest)).reverse

/-- Step 4: every entry of the unsealed drifts is restored. -/
def restoreAll (s : State) : State :=
  s.hub.wb.foldl (fun t r => (undoOrder s.hub.seals.newest r.2).foldl (restoreGran s.grans) t) s

/-- A channel after a rollback: empty, its entry zeroed. What PRIO set in it is not undone (R218; log entry 111). -/
def rolledChan (x : Chan) : Chan := { emptyChan with masked := x.masked, prio := x.prio }

/-- A core after a rollback: buffers, handler table, channel store and caches gone. DIST and the tile configuration are not among them. -/
def rolledCore (k : Core) : Core :=
  { k with w := [], x := [], y := [], pois := [], chans := (k.chans.map (fun e => (e.1, rolledChan e.2))).filter (fun e => e.2 != emptyChan)
           savedCh := [], credits := [], tileOut := 0, dcache := [], icache := [], utlb := []
           rows := [], prefs := [], idleAsk := false, late := false }

/-- A work item as the restored table resumes it (R467): one that had only been begun is forgotten, the rest start afresh. -/
def rolledWork (now : Nat) (w : Work) : Option Work :=
  match w.finished with
  | some _ => some { w with parked := none, walking := none, due := none }
  | none =>
      if lateTaken w.work then none
      else
        some { w with parked := none, walking := none, due := none, since := now
                      work := (match w.work with
                               | .copyq d r n _ _ => .copyq d r n 0 none
                               | .posted a v _ => .signal a v false
                               | x => x) }

/-- A launch as the restored table treats it (R422): a started one is placed again with its resume actor, or ends ROLLED_BACK. A TRIG that
the table holds stays made (R224). -/
def rolledLaunch (la : Launch) : Option Launch :=
  match la.stage with
  | .waiting => none
  | _ =>
      if (hdResume la.hdr).isSome then some { la with stage := .resuming, places := [] }
      else some { la with stage := .failed 1, places := [], pending := [], saved := 0
                          insts := la.insts.map (fun i => (i.1, { i.2 with toks := [], chans := [] })) }

/-- A list of pairs with some values replaced and others dropped. -/
def mapSome {α : Type} (f : α → Option α) (m : Map α) : Map α := m.filterMap (fun e => (f e.2).map (fun x => (e.1, x)))

/-- The tables after a rollback: as they stood when the first unsealed drift opened, the swap slots among them (R307, R421). The queues follow
from their descriptors. -/
def rolledTables (s : State) : Tables :=
  let e := s.hub.seals.sealed + 1
  let t := match s.hub.snaps.find? (fun x => x.1 == e) with | some x => x.2 | none => s.hub.tables
  let ls := mapSome rolledLaunch t.launches
  let ended := (ls.filter (fun l => l.2.stage == .failed 1)).map (·.1)
  { t with launches := ls, works := mapSome (rolledWork s.now) t.works, queues := [], slots := ended.foldl cutSlots t.slots }

/-- The escalation timers after a rollback (R389): they run on. One whose token lay in an instance record that the restored tables do not hold
runs again. -/
def rolledTimer (now : Nat) (t : Tables) (e : EscTimer) : EscTimer :=
  match e.off with
  | none => e
  | some (slot, inst) =>
      let kept := ((t.launches.find? (fun x => x.1 == slot)).map (·.2)).any (fun la =>
        (mget emptyInst la.insts inst).chans.any (fun k => fld k.tag 0 5 == e.ch.toNat && k.payload == e.payload))
      if kept then e else { e with off := none, due := now + e.due }

/-- Every queue whose descriptor reads EN 1 is newly enabled (R434). -/
def enableAll (s : State) : State := (upto 512).foldl (fun s q => if descEn s q then enableQueue s q else s) s

/-- Steps 1 to 3 and 5 to 6: everything in flight and every unsealed held item is dropped, and the buffers read zero. -/
def dropAll (s : State) (t : Tables) : State :=
  let o := s.hub.seals
  let live := fun (w : Option Nat) => match w with | some l => t.launches.any (fun e => e.1 == l) | none => false
  let swapped := fun (c : Nat) (w : Option Nat) => t.slots.any (fun e => e.2.clus == c && e.2.cluster.isSome && some e.2.lslot == w)
  let h := { s.hub with
    tables := t, snaps := [(o.sealed + 1, t)], cam := [], ats := [], recs := [], flight := [], refused := [], creditFly := [], forks := []
    wb := [], held := [], wbStall := [], bells := [], watches := [], noRoom := [], esc := s.hub.esc.map (rolledTimer s.now t), conns := [], rbDue := none, wakePending := none, holdSeal := none
    seals := { o with newest := o.sealed + 1, stage := .quiet, wanted := false, holdWant := false }
    power := (match s.hub.power with | .toHold => .run | p => p) }
  { s with
    ctxs := (s.ctxs.map (fun e => (e.1, dormantOf e.2))).filter (fun e => e.2 != emptyCtx)
    cores := s.cores.map (fun e => (e.1, rolledCore e.2))
    clus := s.clus.map (fun e => (e.1, { e.2 with s := [], spois := [], q0 := [], q1 := [], images := [], tlb := [], wanted := none, saves := []
                                                  late := false, owner := if live e.2.owner && !swapped e.1 e.2.owner then e.2.owner else none }))
    sects := s.sects.map (fun e => (e.1, { blankSector e.2 with tileq := [], latch := [], late := false }))
    doms := s.doms.map (fun e => (e.1, { e.2 with bulk := [], images := [], tlb := [], ptrs := [], reserved := [], late := false }))
    lines := (s.lines.map (fun e => (e.1, { e.2 with fly := false }))).filter (fun e => e.2 != absentLine)
    hub := capState h }

/-- ROLLBACK: when one is due (R421). -/
def effRollback (s : State) : State :=
  match s.hub.rbDue with
  | none => s
  | some cause =>
      let bad := s.hub.wb.any (fun r => r.2.any (fun e => e.bad && !(mget cleanGran s.grans e.gran).pin))
      let t := rolledTables s
      let s1 := enableAll (dropAll (restoreAll s) t)
      let n := fld (reg s1.hub 0x5010) 32 32 + 1
      let h := setReg s1.hub 0x5010 (BitVec.ofNat 64 (n * 2 ^ 32 + (if bad then 6 else cause.toNat)))
      routeEvent { s1 with hub := h } 1 (BitVec.ofNat 64 n)

/-! ## Checker and spares (R14, R29, R395-R397) -/

/-- The disposal of a firing on a suspect core (R396 step 2): as one that has consumed poison, with code 0x31. -/
def disposeChecked (s : State) (cid : Nat) : State :=
  let c := ctxOf s cid
  let ts := c.quota0 ++ c.quota1
  match c.status with
  | .dormant | .ending .. | .killing .. => s
  | _ =>
      let s0 := { s with hub := leaveCam s.hub cid }
      if c.irv then uncontained s0 cid 0x31 2
      else if ts.any (fun t => decide (2 ≤ t.redeliv)) then uncontained s0 cid 0x31 2
      else putCtx s0 cid { c with status := .killing 0x31 false, landed := [] }

/-- CHECKER_MISMATCH at an instruction of a context: the first is retried, a second one makes the core suspect (R395, R396). -/
def effChecker (cid : Nat) (again : Bool) (s : State) : State :=
  let c := ctxOf s cid
  if c.status ≠ .issuing then s
  else
    let s1 := putCtx s cid { c with cir := setBit c.cir 1 true }
    if !again then s1
    else
      let n := coreOfCid cid
      let s2 := putCore s1 n { coreAt s1 n with suspect := true }
      (upto 8).foldl (fun s i => disposeChecked s (n * 8 + i)) s2

/-- The CMAP register of a core's cluster (R28). -/
def cmapOff (c : Nat) : Nat := 0x1000 + 4 * (c / 256 * 20 + c / 32 % 8 * 4 + c / 8 % 4)

/-- The spare serves the position of a core (R28, R396). -/
def spareIn (h : Hub) (c : Nat) : Hub :=
  let v := reg h (cmapOff c)
  setReg h (cmapOff c) (setFld (setBit (setBit v 11 false) 12 true) 13 3 (c % 8))

/-- A position is lost (R14, R28, R29): CMAP and DEVCAP say so, or SVCC for a service core. A spare that served it is out of service. -/
def loseCore (h : Hub) (c : Nat) : Hub :=
  let d := reg h 0
  if isService c then
    { setReg h 0 (setFld d 48 4 (fld d 48 4 - 1)) with svc := setBit h.svc (c % 8) false }
  else
    let v0 := setBit (reg h (cmapOff c)) (c % 8) false
    let v := if bit v0.toNat 12 ∧ fld v0 13 3 = c % 8 then setFld v0 12 4 0 else v0
    let d1 := setFld d 21 11 (fld d 21 11 - 1)
    setReg (setReg h (cmapOff c) v) 0 (if fld v 0 8 = 0 then setFld d1 32 8 (fld d1 32 8 - 1) else d1)

/-- The instances of a launch that stand on a core. -/
def instsOn (la : Launch) (c : Nat) : List Nat := (la.places.filter (fun e => pst e.2 == 1 && plCore e.2 == c)).map (·.1)

/-- The saved entries of an instance are bound on a core, with the credits of its record (R306, R397): the entry at CH0, the SEC entry at IN1. -/
def bindSaved (la : Launch) (inst core : Nat) (r : InstRec) (s : State) : State :=
  match actorOf la.actors inst with
  | none => s
  | some (a, _) =>
      let s1 := if entVal r.entry then installEntry s core (recCh0 a) r.entry else s
      let s2 := if entVal r.entry2 then installEntry s1 core (entIn1 r.entry) r.entry2 else s1
      let oe := (entOedge r.entry).toNat
      if oe = 0 then s2 else putCore s2 core ((coreAt s2 core).setCredit oe r.credit)

/-- An instance of a lost core is placed again on a core that its launch owns and that fits it, with what its record saved (R397, R311). -/
def replaceInst (slot : Nat) (s : State) (inst : Nat) : State :=
  match launchOf s.hub slot with
  | none => s
  | some la =>
      match (upto 2048).find? (fun c => coreTakes s slot la c && coreFits s la slot [{ inst := inst, core := c }] c) with
      | some c =>
          let r0 := mget emptyInst la.insts inst
          let s0 := readInstGrans la inst r0 s
          noteRunnable s (bindSaved la inst c (readInst s la inst r0) (placeInst slot la s0 { inst := inst, core := c })) c
      | none => s

/-- The instances of one launch leave a lost core and are placed again. -/
def moveInsts (c : Nat) (s : State) (slot : Nat) : State :=
  match launchOf s.hub slot with
  | none => s
  | some la =>
      let is := instsOn la c
      is.foldl (replaceInst slot) (is.foldl (swapInst slot) s)

/-- A free swap slot (R307). -/
def freeSwap (h : Hub) : Option Nat := (upto (fld (reg h 0x2010) 0 13)).find? (fun i => !h.tables.slots.any (fun e => e.1 == i))

/-- The launch that lives on the cluster of a core. -/
def liveOwner (s : State) (c : Nat) : Option Nat :=
  (mget emptyCluster s.clus (clusOfCore c)).owner.bind (fun o => (launchOf s.hub o).map (fun _ => o))

/-- The buffers of a lost core go to a swap slot (R397, R307). -/
def saveLost (s : State) (c : Nat) : State :=
  match liveOwner s c, freeSwap s.hub with
  | some o, some i =>
      let x : SwapSlot := { lslot := o, clus := clusOfCore c, base := slotBase s.hub i, cluster := none, cores := [(c % 8, coreAt s c)], aging := [] }
      writeSlot { s with hub := { s.hub with tables := { s.hub.tables with slots := minsert (mdel s.hub.tables.slots i) i x } } } x
  | _, _ => s

/-- SPARE_TAKEOVER of a suspect core whose firings have all ended: the spare takes its state, position and number, or the position is
lost (R396, R397). A lost core whose buffers find no free swap slot waits for one, and each refusal is counted (R307). -/
def effSpare (c : Nat) (s : State) : State :=
  let k := coreAt s c
  let spare := !isService c && bit (reg s.hub (cmapOff c)).toNat 11
  if !k.suspect ∨ !inService s.hub c ∨ !coreIdle s c then s
  else if !spare ∧ (liveOwner s c).isSome ∧ (freeSwap s.hub).isNone then refuseTaking s
  else
    let s1 :=
      if spare then putCore { s with hub := spareIn s.hub c } c { k with suspect := false, dcache := [], icache := [], utlb := [] }
      else
        let slots := s.hub.tables.launches.map (·.1)
        let s2 := saveLost { s with hub := loseCore s.hub c } c
        let s3 := slots.foldl (moveInsts c) s2
        putCore s3 c { blankCore (coreAt s3 c) with utlb := [] }
    routeEvent s1 3 (BitVec.ofNat 64 c)

/-! ## Scrubber (R424) -/

/-- SCRUB_READ of a granule. A row that takes an uncorrectable error is noted for the next self-test (R425). -/
def effScrub (g : Nat) (find : ScrubFind) (s : State) : State :=
  if 2 ^ 33 ≤ g then s
  else
    match find with
    | .clean => s
    | .correctable raced => if raced then { s with hub := bump s.hub 0x5018 16 16 } else s
    | .uncorrectable =>
        let m := mget cleanGran s.grans g
        let h := bump s.hub 0x5018 32 32
        let s1 := { s with grans := mset cleanGran s.grans g { m with pois := true }
                           hub := if g ∈ h.badRows then h else { h with badRows := h.badRows ++ [g] } }
        routeEvent s1 2 (BitVec.ofNat 64 g)

/-- SEAL_START. -/
def execSealStart (s : State) : Host.Outcome State Fault Refusal := live s (effSealStart s)
/-- DRIFT_ACK. -/
def execDriftAck (a : Stamper) (s : State) : Host.Outcome State Fault Refusal := live s (effDriftAck a s)
/-- SEAL_COMMIT. -/
def execSealCommit (s : State) : Host.Outcome State Fault Refusal := live s (effSealCommit s)
/-- SWEEP_COMPLETE. -/
def execSweepComplete (s : State) : Host.Outcome State Fault Refusal := live s (effSweep s)
/-- SEAL_TIMER. -/
def execSealTimer (s : State) : Host.Outcome State Fault Refusal := live s (effSealTimer s)
/-- ROLLBACK. -/
def execRollback (s : State) : Host.Outcome State Fault Refusal := live s (effRollback s)
/-- CHECKER_MISMATCH. -/
def execCheckerMismatch (cid : Nat) (again : Bool) (s : State) : Host.Outcome State Fault Refusal := live s (effChecker cid again s)
/-- SPARE_TAKEOVER. -/
def execSpareTakeover (core : Nat) (s : State) : Host.Outcome State Fault Refusal := live s (effSpare core s)
/-- SCRUB_READ. -/
def execScrubRead (gran : Nat) (find : ScrubFind) (s : State) : Host.Outcome State Fault Refusal := live s (effScrub gran find s)

end Sys2Proof.Machine
end

