-- ==== Sys2Proof/Machine/HostPort.lean ====
section
/-! DEFINITION. The outside of the device: the host port, snoops, slices that leave and return, NVMe drives, connections, the Ethernet
ports (R348, R352, R364-R368, R417-R419, R428-R430, R447-R454). -/
namespace Sys2Proof.Machine
open Sys2Proof

/-! ## Host accesses to device memory (R352, R364, R417-R419, R430) -/

/-- Whether the host port serves a request: a module works, and no rollback is due (R419, R428). -/
def hostServes (s : State) : Bool := s.hub.modules != 0 && s.hub.rbDue.isNone

/-- Whether a granule's line answers a host read now: no held store, and no open drift (R352, R417). -/
def hostReadable (s : State) (line : Nat) : Bool :=
  !granOpen s line && !(s.hub.held.any (fun h => heldLine h.item == some line))

/-- The drift whose seal a read of a line waits for (R352, R417): the newest of the granule's and of its held stores'. -/
def exportDrift (s : State) (line : Nat) : BitVec 32 :=
  let o := s.hub.seals
  let newest := (mget cleanGran s.grans line).dt == dtOf o.newest || s.hub.held.any (fun h => heldLine h.item == some line && h.stamp == o.newest)
  if newest then o.newest else o.sealed + 1

/-- A host read that has to wait requests a seal of that drift (R408, R417). -/
def hostWaits (line : Nat) (s : State) : State := { s with hub := wantSealOf s.hub (exportDrift s line) }

/-- Whether n bytes at an address lie in LPDDR-6 and in one line. -/
def oneLine (a n : Nat) : Bool := decide (0 < n) && isRam a && decide (a % 64 + n ≤ 64)

/-- A line's state after a host shared read (R364). -/
def sharedRead (i : LineInfo) : LineInfo :=
  { i with st := (match i.st with | .m => .o | .e => .s | x => x), hp := true }

/-- HOST_READ of n bytes of a line. -/
def effHostRead (a n : Nat) (s : State) : State :=
  let line := a / 64
  if !oneLine a n ∨ !hostServes s then s
  else if !hostReadable s line then hostWaits line s
  else
    let s1 := demand s line true
    let s2 := setLine s1 line (sharedRead (lineInfo s1 line))
    emit s2 (.hostData a ((upto n).map (fun i => openByte s2 (a + i))))

/-- HOST_READ_OWNERSHIP of a line: its data are supplied, the host takes it, and may change it in its cache (R364, R368). -/
def effHostOwn (line : Nat) (dirty : Option (List Byte)) (s : State) : State :=
  if 2 ^ 33 ≤ line ∨ !hostServes s then s
  else if !hostReadable s line then hostWaits line s
  else
    let s0 := demand s line true
    let s1 := emit s0 (.hostData (64 * line) ((upto 64).map (fun i => openByte s0 (64 * line + i))))
    let s2 := wakeLine (setLine s1 line { st := .i, hp := true, pre := false, fly := false }) line false
    match dirty with
    | some bs => if bs.length = 64 then dropSig { s2 with hostCache := minsert (mdel s2.hostCache line) line bs } line else s2
    | none => s2

/-- A host write pins a granule of an open drift (R418). -/
def pinGran (s : State) (g : Nat) : State :=
  if granOpen s g then { s with grans := mset cleanGran s.grans g { mget cleanGran s.grans g with pin := true } } else s

/-- A write of the host, or of a drive, to bytes of one line (R364, R418): merged into a line that a slice holds, else in memory. -/
def outsideWrite (s : State) (a : Nat) (bs : List Byte) : State :=
  let line := a / 64
  let s1 := pinGran (takeHostData s line) line
  let i := lineInfo s1 line
  let s2 := setLine s1 line { i with st := (match i.st with | .i => .i | _ => if i.hp then .o else .m) }
  let s3 := { s2 with mem := ramPut s2.mem a bs, hub := { s2.hub with held := dropHeld s2.hub.held a bs.length } }
  wakeLine (dropSig (granWrite s3 a (bs.length == 64) false) line) line true

/-- HOST_WRITE of bytes of one line: a demand access (R370). -/
def effHostWrite (a : Nat) (bs : List Byte) (s : State) : State :=
  if oneLine a bs.length ∧ hostServes s then outsideWrite (demand s (a / 64) false) a bs else s

/-- HOST_WRITEBACK of a line that the host owns. -/
def effHostWriteback (line : Nat) (bs : List Byte) (s : State) : State :=
  let i := lineInfo s line
  if 2 ^ 33 ≤ line ∨ bs.length ≠ 64 ∨ i.st ≠ .i ∨ !i.hp ∨ !hostServes s then s
  else
    let s1 := pinGran { s with hostCache := mdel s.hostCache line } line
    let s2 := setLine { s1 with mem := ramPut s1.mem (64 * line) bs } line { i with hp := false }
    wakeLine (dropSig (granWrite s2 (64 * line) true false) line) line true

/-! ## Snoops of host-memory lines (R365, R366, R368) -/

/-- Whether a line is one of host memory. -/
def hostLine (line : Nat) : Bool := isHostMem (64 * line)

/-- A snoop is answered with the line's data, without held bytes, or with none. -/
def snpAnswer (s : State) (line : Nat) (data : Bool) : State :=
  let bs := if data then some ((upto 64).map (fun i => openByte s (64 * line + i))) else none
  emit s (.snpReply line bs)

/-- SNP_INV: the host takes the line, and may change it before the device reads it again (R365, R367). -/
def effSnpInv (line : Nat) (dirty : Option (List Byte)) (s : State) : State :=
  if !hostLine line then s
  else
    let i := lineInfo s line
    let s1 := snpAnswer s line (i.st == .m)
    let s2 := wakeLine (dropSig (setLine s1 line { i with st := .i, pre := false }) line) line false
    match dirty with
    | some bs => if bs.length = 64 then { s2 with mem := ramPut s2.mem (64 * line) bs } else s2
    | none => s2

/-- SNP_DATA. -/
def effSnpData (line : Nat) (s : State) : State :=
  if !hostLine line then s
  else
    let i := lineInfo s line
    let s1 := snpAnswer s line (i.st == .m)
    if i.st = .i then s1 else setLine s1 line { i with st := .s }

/-- SNP_CUR. -/
def effSnpCur (line : Nat) (s : State) : State :=
  if !hostLine line then s else snpAnswer s line ((lineInfo s line).st != .i)

/-! ## Slices (R348) -/

/-- Lines that a slice serves for a sector. -/
def linesOf (s : State) (k home : Nat) : List Nat :=
  (s.lines.filter (fun e => homeSect (64 * e.1) == home && servedBy s home == k)).map (·.1)

/-- A line leaves a slice that is cleaned (R348): a host copy is back-invalidated, changed data reach memory or the host. -/
def cleanLine (s : State) (line : Nat) : State := setLine (evictLine (unlistLine s line) line) line absentLine

/-- The signature entries of a home's lines leave a slice. -/
def cleanSigs (s : State) (k home : Nat) : State :=
  let q := mget emptySector s.sects k
  { s with sects := mset emptySector s.sects k { q with sigs := q.sigs.filter (fun e => homeSect (64 * e.1) != home) } }

/-- The sectors of a domain, as slices are numbered. -/
def slicesOf (k : Nat) : List Nat := (upto 5).map (sectKey (k / 8))

/-- A slice cleans and invalidates what it serves for one home. -/
def cleanFor (k : Nat) (s : State) (home : Nat) : State :=
  if servedBy s home = k then cleanSigs ((linesOf s k home).foldl cleanLine s) k home else s

/-- A slice in or out of service. -/
def setSlice (s : State) (k : Nat) (off : Bool) : State :=
  { s with sects := mset emptySector s.sects k { mget emptySector s.sects k with off := off } }

/-- Whether a number names a slice. -/
def isSlice (k : Nat) : Bool := decide (k < 64) && decide (k % 8 < 5)

/-- SLICE_LEAVE: at least one slice of the domain stays in service. -/
def effSliceLeave (k : Nat) (s : State) : State :=
  if isSlice k ∧ !sliceOff s k ∧ (slicesOf k).any (fun j => j != k && !sliceOff s j) then
    setSlice ((slicesOf k).foldl (cleanFor k) s) k true
  else s

/-- SLICE_RETURN: the buddy runs the same steps for the lines that go back. -/
def effSliceReturn (k : Nat) (s : State) : State :=
  if isSlice k ∧ sliceOff s k then
    let after := setSlice s k false
    let moved := (slicesOf k).filter (fun h => servedBy after h == k)
    setSlice (moved.foldl (fun s h => cleanFor (servedBy s h) s h) s) k false
  else s

/-! ## NVMe drives (R448, R450) -/

/-- NVME_MSI: a drive's message raises its source. -/
def effNvmeMsi (port : Bool) (data : BitVec 4) (s : State) : State := routeEvent s (8 + 16 * port.toNat + data.toNat) (data.setWidth 64)

/-- NVME_INBOUND_READ: as a host read for drifts; outside LPDDR-6 it is unsupported. -/
def effNvmeRead (port : Bool) (a n : Nat) (s : State) : State :=
  if n = 0 then s
  else if !isRam a ∨ !isRam (a + n - 1) then emit s (.nvmeUnsupported port a)
  else
    let wait := (linesFrom a n).filter (fun l => !hostReadable s l)
    if !wait.isEmpty then wait.foldl (fun s l => hostWaits l s) s
    else emit s (.nvmeData port a ((upto n).map (fun i => openByte s (a + i))))

/-- The part of some bytes at an address that falls in one line. -/
def pieceOf (a : Nat) (bs : List Byte) (line : Nat) : Nat × List Byte :=
  let lo := Nat.max a (64 * line)
  (lo, (bs.drop (lo - a)).take (64 * line + 64 - lo))

/-- NVME_INBOUND_WRITE, line by line: for drifts as a host write; a host copy of the line is back-invalidated first, as for a write of the
device (R364). -/
def effNvmeWrite (port : Bool) (a : Nat) (bs : List Byte) (s : State) : State :=
  if bs.isEmpty then s
  else if !isRam a ∨ !isRam (a + bs.length - 1) then emit s (.nvmeUnsupported port a)
  else (linesFrom a bs.length).foldl (fun s l => let p := pieceOf a bs l; outsideWrite (unlistLine s l) p.1 p.2) s

/-! ## Connections (R452-R454) -/

/-- The doubleword of a connection descriptor at an offset; a connection is named by the line of its descriptor. -/
def connW (s : State) (conn off : Nat) : Word := dword s (64 * conn + off)

/-- Whether a connection's descriptor lies in device memory and FLG.UP says that it is open. -/
def connUp (s : State) (conn : Nat) : Bool := isRam (64 * conn) && bit (connW s conn 56).toNat 17

/-- A ring's size. -/
def ringSize (s : State) (conn shift : Nat) : Nat := 2 ^ fld (connW s conn 56) shift 5

/-- A store of the transport. -/
def connStore (s : State) (conn off : Nat) (bs : List Byte) (rel : Option Scope) : State :=
  hubPut s { hubWriteOf s.hub (64 * conn + off) bs with rel := rel }

/-- A receive token of a connection (R454). -/
def rxToken (s : State) (conn : Nat) (rxp : Word) : State :=
  let w := connW s conn 48
  let a : BitVec 32 := w.setWidth 32
  let eov := bit (connW s conn 56).toNat 16
  let tag := mkTag hubScid (adCh a) 24 ||| (if eov then BitVec.ofNat 64 (fld w 32 32 * 2 ^ 32 + 2 ^ 25) else 0)
  route s (hubFlight (bareToken (BitVec.ofNat 128 ((Config.freeIndex conn).toNat * 2 ^ 64 + rxp.toNat)) tag) .hub a none none)

/-- Bytes written into a ring, one at a time, from count n on. -/
def ringPut (base size : Nat) : Nat → List Byte → State → State
  | _, [], s => s
  | n, b :: bs, s => ringPut base size (n + 1) bs (hubPut s (hubWriteOf s.hub (base + n % size) [b]))

/-- n bytes of a ring from count i on (R452). -/
def ringGet (s : State) (base size i n : Nat) : List Byte := (upto n).map (fun j => homeByte s (base + (i + j) % size))

/-- What a connection has taken from its transmit ring: TXC until it has taken more. -/
def connSent (s : State) (conn : Nat) : Nat :=
  match s.hub.conns.find? (fun e => e.1 == conn) with
  | some (_, c) => c.sent
  | none => (connW s conn 40).toNat

/-- The bytes of a connection that have left the device: all that it has taken but those whose frames still wait. -/
def connLeft (s : State) (conn : Nat) : Nat :=
  (s.hub.held.findSome? (fun h => match h.item with | .frame c i _ => if c = conn then some i else none | _ => none)).getD (connSent s conn)

/-- An item of the transport waits in the hold for its drift (R414, R415). -/
def holdFrame (s : State) (e : BitVec 32) (x : HeldItem) : State :=
  if extFull s.hub then { s with hub := { s.hub with noRoom := s.hub.noRoom ++ [.hold e] } }
  else { s with hub := wantHold { s.hub with held := s.hub.held ++ [{ stamp := e, item := x, by_ := none, page := none }] } e }

/-- NET_RECEIVE: the peer's bytes go into the receive ring, RXP is stored with order rel at scope dev, a token is sent, and the peer is acknowledged
by a frame that waits for the drift of the RXP store; TXC takes what the peer acknowledges. Bytes that the ring has no room for are not
taken. -/
def effNetReceive (conn : Nat) (bytes : List Byte) (ack : Nat) (s : State) : State :=
  if !connUp s conn then s
  else
    let s1 :=
      if (connW s conn 40).toNat < ack ∧ ack ≤ connLeft s conn then connStore s conn 40 (leBytes 8 ack) none else s
    let rxp := (connW s1 conn 8).toNat
    let rxc := (connW s1 conn 16).toNat
    if bytes.isEmpty ∨ ringSize s1 conn 0 < rxp + bytes.length - rxc then s1
    else
      let s2 := ringPut (connW s1 conn 0).toNat (ringSize s1 conn 0) rxp bytes s1
      let n := rxp + bytes.length
      let s3 := holdFrame (connStore s2 conn 8 (leBytes 8 n) (some .dev)) (hubStamp s2.hub) (.ack conn n)
      rxToken s3 conn (BitVec.ofNat 64 n)

/-- The drift of the last store to TXP: that of the held store, or of the hub when it has left the hold. -/
def txpStamp (s : State) (conn : Nat) : BitVec 32 :=
  s.hub.held.foldl (fun e h => if (itemByte (64 * conn + 32) h.item).isSome then h.stamp else e) (hubStamp s.hub)

/-- NET_TRANSMIT: the transport takes the published bytes from the transmit ring, and their frames wait for the seal; a TXP beyond the limit closes
the connection (R453). -/
def effNetTransmit (conn : Nat) (s : State) : State :=
  let txp := (connW s conn 32).toNat
  if !connUp s conn ∨ txp ≤ connSent s conn then s
  else if (connW s conn 40).toNat + ringSize s conn 8 < txp then
    let flg := BitVec.ofNat 8 (fld (connW s conn 56) 16 8)
    rxToken (connStore s conn 58 [setBit flg 1 false] none) conn (BitVec.allOnes 64)
  else
    let n := connSent s conn
    let bs := ringGet s (connW s conn 24).toNat (ringSize s conn 8) n (txp - n)
    let s1 := holdFrame s (txpStamp s conn) (.frame conn n bs)
    { s1 with hub := { s1.hub with conns := minsert (mdel s1.hub.conns conn) conn { sent := txp } } }

/-- The oldest frame that the MAC has buffered reaches its connection (R458), unless the hold has no room for what it writes. -/
def macDeliver (s : State) : State :=
  match s.hub.macBuf with
  | [] => s
  | (c, bs, k) :: rest =>
      let t := effNetReceive c bs k { s with hub := { s.hub with macBuf := rest } }
      if t.hub.noRoom.isEmpty then sendRecs t else s

/-- A frame during Hold: the MAC buffers up to 64 KiB (R458). -/
def macTake (c : Nat) (bs : List Byte) (k : Nat) (s : State) : State :=
  if (s.hub.macBuf.map (fun f => f.2.1.length)).sum + bs.length ≤ 65536 then { s with hub := { s.hub with macBuf := s.hub.macBuf ++ [(c, bs, k)] } } else s

/-- A frame arrives: at its connection, or behind the frames that the MAC still buffers. -/
def netArrive (c : Nat) (bs : List Byte) (k : Nat) (s : State) : State :=
  if s.hub.macBuf.isEmpty ∧ s.hub.power ≠ .hold then sendRecs (effNetReceive c bs k s) else macTake c bs k s

/-! ## Links (R428, R447, R451) -/

/-- ETHERNET_LINK_CHANGE: a port that comes up has trained, under the mode that NETCFG now holds; port 1 exists in mode 1 only. -/
def effEthLink (port up : Bool) (s : State) : State :=
  let v := reg s.hub 0x6008
  if port ∧ up ∧ !v.getLsbD 0 then s
  else
    let v1 := setBit v (if port then 3 else 2) up
    let v2 := if !port ∧ up ∧ !v.getLsbD 0 then setBit v1 3 false else v1
    routeEvent { s with hub := setReg s.hub 0x6008 v2 } 40 v2

/-- HOST_PORT_LINK_TRAINING: the port runs on the modules that trained. -/
def effTraining (up : BitVec 4) (s : State) : State := { s with hub := { s.hub with modules := up } }

/-- HOST_READ. -/
def execHostRead (addr n : Nat) (s : State) : Host.Outcome State Fault Refusal := live s (effHostRead addr n s)
/-- HOST_READ_OWNERSHIP. -/
def execHostReadOwnership (line : Nat) (dirty : Option (List Byte)) (s : State) : Host.Outcome State Fault Refusal := live s (effHostOwn line dirty s)
/-- HOST_WRITE. -/
def execHostWrite (addr : Nat) (bytes : List Byte) (s : State) : Host.Outcome State Fault Refusal := live s (effHostWrite addr bytes s)
/-- HOST_WRITEBACK. -/
def execHostWriteback (line : Nat) (bytes : List Byte) (s : State) : Host.Outcome State Fault Refusal := live s (effHostWriteback line bytes s)
/-- SNP_INV. -/
def execSnpInv (line : Nat) (dirty : Option (List Byte)) (s : State) : Host.Outcome State Fault Refusal := live s (effSnpInv line dirty s)
/-- SNP_DATA. -/
def execSnpData (line : Nat) (s : State) : Host.Outcome State Fault Refusal := live s (effSnpData line s)
/-- SNP_CUR. -/
def execSnpCur (line : Nat) (s : State) : Host.Outcome State Fault Refusal := live s (effSnpCur line s)
/-- SLICE_LEAVE. -/
def execSliceLeave (sect : Nat) (s : State) : Host.Outcome State Fault Refusal := live s (effSliceLeave sect s)
/-- SLICE_RETURN. -/
def execSliceReturn (sect : Nat) (s : State) : Host.Outcome State Fault Refusal := live s (effSliceReturn sect s)
/-- NVME_MSI. -/
def execNvmeMsi (port : Bool) (data : BitVec 4) (s : State) : Host.Outcome State Fault Refusal := live s (effNvmeMsi port data s)
/-- NVME_INBOUND_READ. -/
def execNvmeInboundRead (port : Bool) (addr n : Nat) (s : State) : Host.Outcome State Fault Refusal := live s (effNvmeRead port addr n s)
/-- NVME_INBOUND_WRITE. -/
def execNvmeInboundWrite (port : Bool) (addr : Nat) (bytes : List Byte) (s : State) : Host.Outcome State Fault Refusal :=
  live s (effNvmeWrite port addr bytes s)
/-- NET_RECEIVE. -/
def execNetReceive (conn : Nat) (bytes : List Byte) (ack : Nat) (s : State) : Host.Outcome State Fault Refusal :=
  if s.hub.power = .hold then .next (macTake conn bytes ack s) else live s (netArrive conn bytes ack s)
/-- NET_TRANSMIT. -/
def execNetTransmit (conn : Nat) (s : State) : Host.Outcome State Fault Refusal := live s (sendRecs (effNetTransmit conn s))
/-- ETHERNET_LINK_CHANGE. -/
def execEthernetLinkChange (port up : Bool) (s : State) : Host.Outcome State Fault Refusal := live s (effEthLink port up s)
/-- Whether the host port's CXL.io function answers: also after a boot that has stopped (R464). -/
def ioUp (h : Hub) : Bool := h.up || h.power == .bootStopped

/-- HOST_PORT_LINK_TRAINING. -/
def execHostPortLinkTraining (up : BitVec 4) (s : State) : Host.Outcome State Fault Refusal := .next (if ioUp s.hub then effTraining up s else s)

end Sys2Proof.Machine
end

