-- ==== Sys2Proof/Machine/Lmu.lean ====
section
/-! DEFINITION. The long-multiply units: tile configuration, tile commands, COPYT, matrix and polynomial products, drains (R47-R70,
R272-R286, R324-R336). -/
namespace Sys2Proof.Machine
open Sys2Proof

/-! ## Tile configuration (R275-R277, R315) -/

/-- ACCF. -/
def cfACCF (w : Word) : Nat := fld w 60 4
/-- MCOL. -/
def cfMCOL (w : Word) : Nat := fld w 48 12
/-- MROW. -/
def cfMROW (w : Word) : Nat := fld w 36 12
/-- ECH. -/
def cfECH (w : Word) : Nat := fld w 24 6
/-- NCORE. -/
def cfNCORE (w : Word) : Nat := fld w 18 6
/-- FIRST. -/
def cfFIRST (w : Word) : Nat := fld w 13 5
/-- RS, the bytes of a row slot (R275). -/
def cfRS (w : Word) : Nat := cfMCOL w * 4
/-- Bytes of the Y region of a configuration in each receiving core. -/
def cfRegion (w : Word) : Nat := (cfMROW w + cfNCORE w - 1) / cfNCORE w * cfRS w
/-- The core that receives accumulator row r for a core of the same sector (R284). -/
def rowCore (w : Word) (core r : Nat) : Nat := core / 32 * 32 + cfFIRST w + r % cfNCORE w
/-- The Y offset of accumulator row r (R284). -/
def rowY (base w : Word) (r : Nat) : Nat := addrOf base + r / cfNCORE w * cfRS w

/-- Whether the fields of a configuration lie in their ranges (R275). -/
def cfgOk (h : Hub) (core : Nat) (p w : Word) : Bool :=
  decide (cfACCF w ≤ 2) && decide (1 ≤ cfMCOL w) && decide (cfMCOL w ≤ 384) && decide (1 ≤ cfMROW w) && decide (cfMROW w ≤ 192) &&
  decide (cfECH w ≤ 31) && decide (1 ≤ cfNCORE w) && decide (cfNCORE w ≤ 32) && decide (cfFIRST w + cfNCORE w ≤ 32) &&
  (upto (cfNCORE w)).all (fun i => inService h (core / 32 * 32 + cfFIRST w + i)) && spaceOf p == 3 && addrOf p % 16 == 0 &&
  decide (addrOf p + cfRegion w ≤ 0x3000)

/-- Whether the launch of a context owns the whole sector of its core, whose LMU is in service (R30, R315). -/
def ownsLmu (s : State) (c : Ctx) (core : Nat) : Bool :=
  lmuOk s.hub core && (upto 4).all (fun k => (mget emptyCluster s.clus (sectOfCore core * 4 + k)).owner == some c.lslot.toNat)

/-- TCFG (R275, R276). -/
def tcfgBody (pa : BitVec 4) (s : State) (l : Loc) : Res (Loc × (State → State)) := do
  let (p, w) := l.pairAt pa
  need l (fld w 30 6 == 0 && fld w 0 13 == 0) 0x02
  need l (!isService (coreOfCid l.cid) && cfgOk l.hub (coreOfCid l.cid) p w && ownsLmu s l.ctx (coreOfCid l.cid)) 0x20
  (if l.core.tileOut = 0 then .ok () else parkOn l .engine)
  .ok ({ l.consumePair pa.toNat with core := { l.core with tileSet := true, tile0 := p, tile1 := w, tileGen := l.core.tileGen + 1 } }, id)

/-- TCFG. -/
def bodyTcfg (_c : Cond) (pa : BitVec 4) : State → Loc → Res (Loc × (State → State)) := tcfgBody pa

/-- TCFG as an issue of context `cur`. -/
def execTcfg (c : Cond) (pa : BitVec 4) (s : State) : Host.Outcome State Fault Refusal := issueG (.tcfg c pa) (bodyTcfg c pa) s

/-- The Y region of a configuration zeroed in one core (R277). -/
def zeroY (p w : Word) (s : State) (core : Nat) : State :=
  if inService s.hub core then engBuf s core 3 (addrOf p) (List.replicate (cfRegion w) (0, false)) else s

/-- TREL (R277). -/
def bodyTrel (_c : Cond) : State → Loc → Res (Loc × (State → State)) := fun s l =>
  let k := l.core
  let core := coreOfCid l.cid
  if !k.tileSet then .ok (l, id)
  else
    let cores := (upto (cfNCORE k.tile1)).map (fun i => core / 32 * 32 + cfFIRST k.tile1 + i)
    if k.tileOut ≠ 0 ∨ cores.any (fun c => (coreAt s c).rows.any (fun r => r.core == core && r.gen == k.tileGen)) then parkOn l .engine
    else .ok ({ l with core := { k with tileSet := false, tile0 := 0, tile1 := 0 } }, fun t => cores.foldl (zeroY k.tile0 k.tile1) t)

/-- TREL as an issue of context `cur`. -/
def execTrel (c : Cond) (s : State) : Host.Outcome State Fault Refusal := issueG (.trel c) (bodyTrel c) s

/-! ## Tile commands at issue (R278-R284, R328, R329) -/

/-- Commands that the tile queue of a core's sector holds, images included (R329). -/
def tileCount (s : State) (core : Nat) : Nat :=
  let k := sectOfCore core
  let mine := fun (t : TileCmd) => sectOfCore (coreOfCid t.cid) == k
  (mget emptySector s.sects k).tileq.length + ((upto 4).map (fun c => (mget emptyCluster s.clus (k * 4 + c)).images.length)).sum +
  ((mget emptyDomain s.doms (domOfCore core)).images.filter mine).length

/-- N of the block that a TMUL will find in a bank: of the last TLDB into it in the queue, else of the block that stands there, else of a
block of the A operand's own slot width (R281; log entry 17). -/
def bankN (q : Sector) (bank : Bool) (wA : Nat) : Nat :=
  let ns := q.tileq.filterMap (fun t => match t.op with
    | .tldb _ p1 b _ => if b = bank then some (256 / slotWidth (fld p1 60 4)) else none
    | _ => none)
  let k := if bank then q.bank1 else q.bank0
  match ns.getLast? with
  | some n => n
  | none => if k.loaded then k.n else 256 / wA

/-- F of the carry form (R60): k × D + 2w + 8, rounded up to a multiple of 32. -/
def carryBits (k d w : Nat) : Nat := (k * d + 2 * w + 8 + 31) / 32 * 32

/-- A tile command, checked with some pairs (R33, R64, R263, R278-R284). Faults 0x20 and 0x21, or 0x06 for a row outside its space.
A TMUL whose COLS exceeds K is a malformed pair, 0x21 at issue: R281 names no code for it (log entry 95). -/
def tileCheck (l : Loc) (op : TileOp) : Res Unit := do
  need l l.core.tileSet 0x20
  let w := l.core.tile1
  match op with
  | .tldb p0 p1 _ af => do
      let t := tensOf p0 p1
      tensOk l p0 t [1, 4] false true
      need l (slotWidth af.toNat != 0 && slotWidth t.fmt != 0) 0x21
      need l (decide (t.rows ≤ 256 / slotWidth af.toNat) && decide (t.cols ≤ 256 / slotWidth t.fmt)) 0x21
  | .tmul p0 p1 bank _ arow cb _ _ => do
      let t := tensOf p0 p1
      tensOk l p0 t [2, 4] false true
      need l (slotWidth t.fmt != 0) 0x21
      need l (decide (t.cols ≤ 256 / slotWidth t.fmt)) 0x21
      need l (decide (arow + t.rows ≤ cfMROW w) && decide ((cb + 1) * bankN l.sect bank (slotWidth t.fmt) ≤ cfMCOL w) && cfACCF w != 2) 0x20
  | .tpoly a0 a1 b0 b1 _ arow _ k u mode => do
      let a := tensOf a0 a1
      let b := tensOf b0 b1
      tensOk l a0 a [2, 4] false true
      tensOk l b0 b [1, 4] false true
      let wa := slotWidth a.fmt
      need l (wa != 0 && wa == slotWidth b.fmt && decide (2 ≤ k) && decide (k ≤ 32) && (mode == .carry || decide (2 * wa ≤ k)) &&
        !(u && (a.bp || b.bp))) 0x21
      let n := 256 / wa
      need l (decide (a.cols ≤ n) && decide (b.cols ≤ n) && (b.rows == 1 || b.rows == a.rows)) 0x21
      let width := if mode = .carry then carryBits k (2 * n - 1) wa else k * (2 * n - 1)
      need l (cfACCF w == 2 && decide (arow + a.rows ≤ cfMROW w) && decide (width ≤ cfMCOL w * 32)) 0x20
  | .tdrn _ frow nrow => need l (decide (frow + nrow ≤ cfMROW w)) 0x20

/-- The tile command of an instruction, with its pairs taken from a function of the register selector. -/
def tileOpOf (pr : BitVec 4 → Word × Word) : Instr → Option TileOp
  | .tldb _ pa _ bank af => some (.tldb (pr pa).1 (pr pa).2 bank af)
  | .tmul _ pa _ bank half arow cb drn acc => some (.tmul (pr pa).1 (pr pa).2 bank half arow.toNat cb.toNat drn acc)
  | .tpoly _ pa pb _ half arow drn k u mode =>
      some (.tpoly (pr pa).1 (pr pa).2 (pr pb).1 (pr pb).2 half arow.toNat drn k.toNat u mode)
  | .tdrn _ _ clr nrow frow => some (.tdrn clr frow.toNat (nrow.toNat + 1))
  | _ => none

/-- A tile command of a context under its core's configuration. -/
def tileCmd (l : Loc) (op : TileOp) (tid : BitVec 16) : TileCmd :=
  { cid := l.cid, seq := l.ctx.cmdSeq, op := op, tid := tid, cfg0 := l.core.tile0, cfg1 := l.core.tile1, gen := l.core.tileGen
    done := false, gov := false, ovf := false, pois := false, drainAt := 0, begun := false }

/-- The pairs that a tile command reads (R121). -/
def pairsRead : Instr → List (BitVec 4)
  | .tldb _ pa .. | .tmul _ pa .. => [pa]
  | .tpoly _ pa pb .. => [pa, pb]
  | _ => []

/-- A TLDB, TMUL, TPOLY or TDRN issues (R263, R264, R329). -/
def tileBody (i : Instr) (s : State) (l : Loc) : Res (Loc × (State → State)) := do
  let sh := shape i
  let g ← fetchArgs l .d 0 sh
  match tileOpOf l.pairAt i with
  | none => .ok (l, id)
  | some op => do
      tileCheck l op
      cntRoom l 3
      (if tileCount s (coreOfCid l.cid) < 32 then .ok () else parkOn l .stall)
      let t := tileCmd l op (g.a.val.setWidth 16)
      let l1 := (pairsRead i).foldl (fun l p => l.consumePair p.toNat) (l.take sh g)
      .ok ({ l1 with ctx := l1.ctx.newCmd 4 false, core := { l1.core with tileOut := l1.core.tileOut + 1 }
                     sect := { l1.sect with tileq := l1.sect.tileq ++ [t] } }, id)

/-- TLDB (R278). -/
def bodyTldb (c : Cond) (pa : BitVec 4) (s1 : Opd) (bank : Bool) (af : BitVec 4) : State → Loc → Res (Loc × (State → State)) :=
  tileBody (.tldb c pa s1 bank af)

/-- TLDB as an issue of context `cur`. -/
def execTldb (c : Cond) (pa : BitVec 4) (s1 : Opd) (bank : Bool) (af : BitVec 4) (s : State) : Host.Outcome State Fault Refusal :=
  issueG (.tldb c pa s1 bank af) (bodyTldb c pa s1 bank af) s

/-- TMUL (R280, R281). -/
def bodyTmul (c : Cond) (pa : BitVec 4) (s1 : Opd) (bank half : Bool) (arow : BitVec 12) (cb : BitVec 7) (drn : Bool) (acc : AccOp) :
    State → Loc → Res (Loc × (State → State)) := tileBody (.tmul c pa s1 bank half arow cb drn acc)

/-- TMUL as an issue of context `cur`. -/
def execTmul (c : Cond) (pa : BitVec 4) (s1 : Opd) (bank half : Bool) (arow : BitVec 12) (cb : BitVec 7) (drn : Bool) (acc : AccOp) (s : State) :
    Host.Outcome State Fault Refusal :=
  issueG (.tmul c pa s1 bank half arow cb drn acc) (bodyTmul c pa s1 bank half arow cb drn acc) s

/-- TPOLY (R282, R283). -/
def bodyTpoly (c : Cond) (pa pb : BitVec 4) (s1 : Opd) (half : Bool) (arow : BitVec 12) (drn : Bool) (k : BitVec 6) (u : Bool)
    (mode : PolyMode) : State → Loc → Res (Loc × (State → State)) := tileBody (.tpoly c pa pb s1 half arow drn k u mode)

/-- TPOLY as an issue of context `cur`. -/
def execTpoly (c : Cond) (pa pb : BitVec 4) (s1 : Opd) (half : Bool) (arow : BitVec 12) (drn : Bool) (k : BitVec 6) (u : Bool)
    (mode : PolyMode) (s : State) : Host.Outcome State Fault Refusal :=
  issueG (.tpoly c pa pb s1 half arow drn k u mode) (bodyTpoly c pa pb s1 half arow drn k u mode) s

/-- TDRN (R284). -/
def bodyTdrn (c : Cond) (s1 : Opd) (clr : Bool) (nrow frow : BitVec 8) : State → Loc → Res (Loc × (State → State)) :=
  tileBody (.tdrn c s1 clr nrow frow)

/-- TDRN as an issue of context `cur`. -/
def execTdrn (c : Cond) (s1 : Opd) (clr : Bool) (nrow frow : BitVec 8) (s : State) : Host.Outcome State Fault Refusal :=
  issueG (.tdrn c s1 clr nrow frow) (bodyTdrn c s1 clr nrow frow) s

/-! ## COPYT (R272, R273) -/

/-- The 48 bytes of a follow-on record, read in three pieces of 16. -/
def readRecord (l : Loc) (ptr : Word) : Res (List Byte × Bool) := do
  checkPtr l ptr 48 16 .read
  let a ← readPtr l ptr 16 16 false none
  let b ← readPtr l (ptrAdd ptr 16) 16 16 false none
  let c ← readPtr l (ptrAdd ptr 32) 16 16 false none
  .ok (leBytes 16 a.val.toNat ++ leBytes 16 b.val.toNat ++ leBytes 16 c.val.toNat, a.pois || b.pois || c.pois)

/-- The pair selectors that an image uses. -/
def imageSels : Instr → List Nat
  | .tldb _ pa .. | .tmul _ pa .. => [pa.toNat]
  | .tpoly _ pa pb .. => [pa.toNat, pb.toNat]
  | _ => []

/-- The operand of an image's tile id. -/
def imageS1 : Instr → Opd
  | .tldb _ _ s1 .. | .tmul _ _ s1 .. | .tpoly _ _ _ s1 .. => s1
  | .tdrn _ s1 .. => s1
  | _ => .imm 0

/-- Whether an image's S1 may stand there: KIND 0, 4, 6 or 7. -/
def imageS1Ok : Opd → Bool
  | .acc | .preg _ | .imm _ | .zeros | .ones | .lanes => true
  | _ => false

/-- Raise 0x21 for any fault of a check. -/
def as21 {α : Type} (l : Loc) (r : Res α) : Res α :=
  match r with
  | .error (.fault ..) => flt l 0x21
  | r => r

/-- What a follow-on record stands for: its tile command, and what the command reads of the context, the pairs that the record does not replace and
the tile id. -/
structure Image where
  cmd : TileCmd
  pairs : List Nat
  tid : Src
  deriving DecidableEq, Repr

/-- The image's poisoned registers are consumed (R92, R149). -/
def Loc.consumeImage (l : Loc) (m : Image) : Loc := m.pairs.foldl Loc.consumePair (l.consumeAll [m.tid])

/-- The tile command of a follow-on record (R272, R273). -/
def recordImage (l : Loc) (bs : List Byte) : Res Image := do
  let hd := recDw bs 12 4
  let np := bits hd 0 2
  let s0 := bits hd 2 4
  let s1 := bits hd 6 4
  need l (bits hd 10 22 == 0) 0x02
  match decode (BitVec.ofNat 96 (recDw bs 0 12)) with
  | .error _ => flt l 0x21
  | .ok i => do
      let sels := imageSels i
      let used := fun (n : Nat) => n % 2 == 0 && sels.contains n
      need l (condOf i == .al && pairsOk i && imageS1Ok (imageS1 i)) 0x21
      need l (np != 3 && (np == 0 || used s0) && (np != 2 || (used s1 && s0 != s1))) 0x21
      let dw := fun (o : Nat) => BitVec.ofNat 64 (recDw bs o 8)
      let pr := fun (r : BitVec 4) =>
        if 1 ≤ np ∧ r.toNat = s0 then (dw 16, dw 24) else if np = 2 ∧ r.toNat = s1 then (dw 32, dw 40) else l.pairAt r
      match tileOpOf pr i with
      | none => flt l 0x21
      | some op => do
          as21 l (tileCheck l op)
          let t ← as21 l (fetch l .d 0 (imageS1 i) (.scalar 8))
          let own := fun (n : Nat) => !((1 ≤ np && n == s0) || (np == 2 && n == s1))
          .ok { cmd := tileCmd l op (t.val.setWidth 16), pairs := sels.filter own, tid := t }

/-- COPYT (R273). The registers that its image reads are operands of it. -/
def bodyCopyt (c : Cond) (q : CopyQ) (pa pb : BitVec 4) (s1 : Opd) (irv dist comb : Bool) : Loc → Res Loc :=
  fun l => do
    let sh := shape (.copyt c q pa pb s1 irv dist comb)
    let ptr := l.ea s1 48
    let (bs, po) ← readRecord l ptr
    let pr ← copyPair l q pa pb dist comb
    let m ← recordImage l bs
    let g : Args := { a := l.based s1 { val := 0, pois := po, ptr := l.poisPtr ptr 48 }, b := clean 0, x := clean 0, d := clean 0, dst := .none_ }
    enterCopy l (fun l => (((l.take sh g).consumePair pa.toNat).consumePair pb.toNat).consumeImage m) q pr none (some m.cmd) irv dist comb

/-- COPYT as an issue of context `cur`. -/
def execCopyt (c : Cond) (q : CopyQ) (pa pb : BitVec 4) (s1 : Opd) (irv dist comb : Bool) (s : State) : Host.Outcome State Fault Refusal :=
  issue (.copyt c q pa pb s1 irv dist comb) (bodyCopyt c q pa pb s1 irv dist comb) s

/-! ## Elements (R47-R55, R67, R69) -/

/-- A row of a tensor as the LMU reads it: a byte function, its elements, and poison. -/
structure RowIn where
  elems : List (Option Int)      -- none: no element, or one of a void block
  pois : Bool
  deriving DecidableEq, Repr

/-- A byte of a buffer of the issuing core or cluster. -/
def Loc.byteAt (l : Loc) (sp off : Nat) : Nat := (mget 0 (l.buf sp) off).toNat

/-- Element e of row r (R50, R51, R54): none in a void block. -/
def elemAt (l : Loc) (t : Tens) (u : Bool) (r e : Nat) : Option Int :=
  let row := t.row r
  if t.bp then
    let n := planesOf t.fmt
    let b := e / 128
    let sc := l.byteAt t.sp (row + 8 * t.pp + 2 * b) + 256 * l.byteAt t.sp (row + 8 * t.pp + 2 * b + 1)
    if voidScale sc then none
    else
      let v := (upto n).foldl (fun v j => 2 * v + bits (l.byteAt t.sp (row + j * t.pp + 16 * b + e % 128 / 8)) (e % 8) 1) 0
      some (sextI v n)
  else
    let eb := elemBits t.fmt
    let v := bits (l.byteAt t.sp (row + e * eb / 8)) (e * eb % 8) eb
    some (if u then (v : Int) else sextI v eb)

/-- The 16-byte words that the LMU reads for row r. -/
def rowPois (l : Loc) (t : Tens) (r : Nat) : Bool :=
  let row := t.row r
  if t.bp then
    (upto (planesOf t.fmt)).any (fun j => l.bufPois t.sp (row + j * t.pp) (16 * t.blocks)) || l.bufPois t.sp (row + 8 * t.pp) (2 * t.blocks)
  else l.bufPois t.sp row t.rowBytes

/-- Row r read as `n` slots. Slots beyond COLS are zero (R278, R281), for TPOLY too (log entry 115). -/
def rowIn (l : Loc) (t : Tens) (u : Bool) (n r : Nat) : RowIn :=
  let es := (upto n).map (fun e => if e < t.cols then elemAt l t u r e else none)
  { elems := es, pois := rowPois l t r || (upto t.cols).any (fun e => (elemAt l t u r e).isNone) }

/-- The factor that an element contributes (R51, R52, R69): 2q + 1 for a bp element under HALF, 0 for none. -/
def factor (half bp : Bool) : Option Int → Int
  | none => 0
  | some q => if half && bp then 2 * q + 1 else q

/-! ## The tile queue (R266, R330, R335, R336) -/

/-- The tile queue of a sector. -/
def tileQ (s : State) (k : Nat) : List TileCmd := (mget emptySector s.sects k).tileq

/-- A sector changed. -/
def modSect (s : State) (k : Nat) (f : Sector → Sector) : State := { s with sects := mset emptySector s.sects k (f (mget emptySector s.sects k)) }

/-- The status byte of a command (R335). -/
def tileStatus (t : TileCmd) : BitVec 8 := BitVec.ofNat 8 (t.pois.toNat * 2 + t.gov.toNat)

/-- The head tile command of a sector completes; `fs` are its deferred faults. -/
def tileDone (s : State) (k : Nat) (t : TileCmd) (fs : List DefFault) : State :=
  let s1 := modSect s k (fun q => { q with tileq := q.tileq.drop 1, latch := [] })
  let c := ctxOf s1 t.cid
  let c1 := fs.foldl (fun c d => c.defer 3 d) c
  tileEnded (putCtx s1 t.cid (c1.cmdDone t.seq 4 3)) (coreOfCid t.cid)

/-- The deferred fault of a command that ends on a code. -/
def tileFault (t : TileCmd) (code : BitVec 8) : DefFault :=
  { code := code, addr := 0, merged := 0, status := statusFlt ||| tileStatus t, tid := t.tid }

/-- The deferred fault 0x0A of a guard overflow, under ACCF 1 or TPOLY mode 0 (R63, R281, R336). -/
def govFault (t : TileCmd) : Option DefFault :=
  let reports := match t.op with | .tmul .. => cfACCF t.cfg1 == 1 | .tpoly _ _ _ _ _ _ _ _ _ m => m == .fault | _ => false
  if t.ovf && reports then some { code := 0x0A, addr := 0, merged := 0, status := tileStatus t, tid := t.tid } else none

/-- Whether a QFENCE of its context holds a tile command back. -/
def tileHeld (s : State) (t : TileCmd) : Bool := !fenceOk (ctxOf s t.cid) t.seq 4

/-- Whether two commands meet in a stationary bank: one loads the bank that the other loads or reads (R279). -/
def bankClash : TileOp → TileOp → Bool
  | .tldb _ _ b _, .tldb _ _ c _ => b == c
  | .tldb _ _ b _, .tmul _ _ c _ _ _ _ _ => b == c
  | .tmul _ _ b _ _ _ _ _, .tldb _ _ c _ => b == c
  | _, _ => false

/-- A queue with its first command in front that is not held back and meets none of those that it passes in a bank. -/
def tileFirst (held : TileCmd → Bool) : List TileCmd → List TileCmd → List TileCmd
  | passed, [] => passed.reverse
  | passed, t :: rest =>
      if held t || passed.any (fun p => bankClash p.op t.op) then tileFirst held (t :: passed) rest else t :: (passed.reverse ++ rest)

/-- The tile queue in the order in which it runs: a command that a QFENCE holds back is passed by those that it must not hold, its own
context's images among them (R287, R343), until one has begun. A load of a bank waits for the earlier commands that read it (R279). -/
def tileOrder (s : State) (k : Nat) : List TileCmd :=
  match tileQ s k with
  | t :: rest => if t.begun ∨ t.done ∨ t.drainAt ≠ 0 then t :: rest else tileFirst (tileHeld s) [] (t :: rest)
  | [] => []

/-- Whether a drain token that waits for a slot holds a tile queue back (R296). -/
def drainHeld (s : State) (k : Nat) : Bool := tokenWaits s .drain (16384 + k)

/-- The first command of a tile queue, when it has not run, its context's QFENCEs let it start, and no drain token holds the queue back. -/
def tileReady (s : State) (k : Nat) : Option TileCmd :=
  match tileOrder s k with
  | t :: _ => if !t.done ∧ !tileHeld s t ∧ !drainHeld s k then some t else none
  | [] => none

/-- A tile command starts, at the head of its queue. -/
def tileStart (s : State) (k : Nat) (t : TileCmd) : State :=
  let s1 := modSect s k (fun q => { q with tileq := tileOrder s k })
  putCtx s1 t.cid ((ctxOf s1 t.cid).start t.seq)

/-- The key of a word that the LMU has read early. -/
def latchKey (sp w : Nat) : Nat := sp * 2 ^ 16 + w

/-- The buffers of a command's context as the LMU reads them (R331): words that it has read early hold what they held then. -/
def lmuView (s : State) (k cid : Nat) : Loc :=
  (mget emptySector s.sects k).latch.foldl (fun l e =>
    let sp := e.1 / 2 ^ 16
    let w := e.1 % 2 ^ 16
    (l.setBuf sp (putBytes (l.buf sp) (16 * w) (leBytes 16 e.2.1.toNat))).setWordPois sp w e.2.2) (s.loc cid)

/-- The LMU reads one 16-byte word of its next command's operands now (R331); what is written there before the command executes comes too
late for it. A word is read once. -/
def effLatch (k sp w : Nat) (s : State) : State :=
  match tileReady s k with
  | none => s
  | some t =>
      let l := s.loc t.cid
      if sp < 1 ∨ 4 < sp ∨ bufSize sp ≤ 16 * w ∨ mhas (mget emptySector s.sects k).latch (latchKey sp w) then s
      else
        let d : Quad × Bool := (quadOf (bytesAt (l.buf sp) (16 * w) 16), l.bufPois sp (16 * w) 16)
        modSect (tileStart s k t) k (fun q => { q with latch := minsert q.latch (latchKey sp w) d, tileq := { t with begun := true } :: q.tileq.drop 1 })

/-- The arithmetic of the head command is performed: with DRN its drain follows, else it completes. -/
def tileRan (s : State) (k : Nat) (t : TileCmd) (drn ovf gov pois : Bool) : State :=
  let t1 := { t with done := true, ovf := ovf, gov := gov, pois := pois }
  if drn then modSect s k (fun q => { q with tileq := t1 :: q.tileq.drop 1, latch := [] }) else tileDone s k t1 (govFault t1).toList

/-! ## TLDB (R278, R279, R327) -/

/-- The block of a TLDB as a bank holds it. -/
def loadBank (l : Loc) (t : Tens) (wA : Nat) (tid : BitVec 16) : Bank :=
  let n := 256 / slotWidth t.fmt
  let rows := (upto t.rows).map (fun r => rowIn l t false n r)
  let elems := ((upto t.rows).flatMap (fun r => (upto t.cols).filterMap (fun c =>
    match elemAt l t false r c with
    | some q => some (r * 128 + c, BitVec.ofNat 9 (256 + lowBits q 8))
    | none => none)))
  { loaded := true, wA := wA, n := n, bp := t.bp, tid := tid, pois := rows.any (·.pois), elems := elems }

/-- TLDB_EXECUTE (R278). -/
def effTldb (k : Nat) (s : State) : State :=
  match tileReady s k with
  | some t =>
      (match t.op with
       | .tldb p0 p1 bank af =>
           let b := loadBank (lmuView s k t.cid) (tensOf p0 p1) (slotWidth af.toNat) t.tid
           let s1 := modSect (tileStart s k t) k (fun q => if bank then { q with bank1 := b } else { q with bank0 := b })
           tileDone s1 k { t with pois := b.pois } []
       | _ => s)
  | none => s

/-! ## TMUL (R66-R70, R281, R326) -/

/-- y_n of an A row against a bank (R66, R69). -/
def dotCol (as : List (Option Int)) (bpA half : Bool) (b : Bank) (n : Nat) : Int :=
  (upto as.length).foldl (fun y i =>
    let e := mget 0 b.elems (i * 128 + n)
    let q : Option Int := if e.getLsbD 8 then some (sextI e.toNat 8) else none
    y + factor half bpA (as.getD i none) * factor half b.bp q) 0

/-- One accumulator word after a step (R68, R281): the word, and whether it was clamped. -/
def accStep (accf : Nat) (op : AccOp) (acc : BitVec 32) (y : Int) : BitVec 32 × Bool :=
  let t := match op with | .overwrite => y | .add => acc.toInt + y | .sub => acc.toInt - y
  if accf = 1 then (BitVec.ofInt 32 (satS t 32), satS t 32 != t) else (BitVec.ofInt 32 t, false)

/-- What a command has done so far: the sector, whether it has saturated, and the marks of the rows that it wrote. -/
structure TileRun where
  q : Sector
  ovf : Bool
  gov : Bool
  pois : Bool
  deriving DecidableEq, Repr

/-- One row of a TMUL into the accumulator array (R281, R326). -/
def tmulRow (st : TileRun) (b : Bank) (t : TileCmd) (a : RowIn) (bpA half : Bool) (row cb : Nat) (op : AccOp) : TileRun :=
  let q := st.q
  let cols := (upto b.n).filter (fun n => decide (cb * b.n + n < 384))
  let (accum, ovf) := cols.foldl (fun (st : Map (BitVec 32) × Bool) n =>
    let key := row * 384 + cb * b.n + n
    let (w, g) := accStep (cfACCF t.cfg1) op (mget 0 st.1 key) (dotCol a.elems bpA half b n)
    (mset 0 st.1 key w, st.2 || g)) (q.accum, false)
  let old := op != .overwrite
  let g := ovf || (old && mget false q.gov row)
  let p := a.pois || b.pois || (old && mget false q.rpois row)
  { q := { q with accum := accum, gov := mset false q.gov row g, rpois := mset false q.rpois row p }, ovf := st.ovf || ovf
    gov := st.gov || g, pois := st.pois || p }

/-- TMUL_EXECUTE (R281). -/
def effTmul (k : Nat) (s : State) : State :=
  match tileReady s k with
  | some t =>
      (match t.op with
       | .tmul p0 p1 bank half arow cb drn op =>
           let a := tensOf p0 p1
           let s1 := tileStart s k t
           let q := mget emptySector s1.sects k
           let b := if bank then q.bank1 else q.bank0
           if !b.loaded ∨ slotWidth a.fmt ≠ b.wA then tileDone s1 k t [tileFault t 0x21]
           else
             let l := lmuView s k t.cid
             let r := (upto a.rows).foldl (fun st m => tmulRow st b t (rowIn l a false (256 / b.wA) m) a.bp half (arow + m) cb op)
               { q := q, ovf := false, gov := false, pois := false }
             tileRan (modSect s1 k (fun _ => r.q)) k t drn r.ovf r.gov r.pois
       | _ => s)
  | none => s

/-! ## TPOLY (R55-R60, R283) -/

/-- A digit at its fence (R58): saturated, and whether it was outside. -/
def fence (u : Bool) (k : Nat) (c : Int) : Int × Bool :=
  let v := if u then satZ c k else satS c k
  (v, v != c)

/-- The result of a polynomial product as a number, its width, and whether a digit left its fence (R58-R60). -/
def polyProduct (as bs : List Int) (w k : Nat) (u : Bool) (mode : PolyMode) : Nat × Bool :=
  let d := as.length + bs.length - 1
  let cs := (upto d).map (polyDigit as bs)
  if mode = .carry then
    let x := (upto d).foldl (fun (x : Int) i => x + cs.getD i 0 * ((2 ^ (k * i) : Nat) : Int)) 0
    (lowBits x (carryBits k d w), false)
  else
    (upto d).foldl (fun (st : Nat × Bool) i =>
      let (v, g) := fence u k (cs.getD i 0)
      (st.1 + lowBits v k * 2 ^ (k * i), st.2 || g)) (0, false)

/-- An accumulator row that holds a number from word 0 upward. -/
def putRow (m : Map (BitVec 32)) (row v : Nat) : Map (BitVec 32) :=
  (upto 384).foldl (fun m c => mset 0 m (row * 384 + c) (BitVec.ofNat 32 (bits v (32 * c) 32))) (mclear m (row * 384) (row * 384 + 384))

/-- TPOLY_EXECUTE (R283). -/
def effTpoly (k : Nat) (s : State) : State :=
  match tileReady s k with
  | some t =>
      (match t.op with
       | .tpoly a0 a1 b0 b1 half arow drn kk u mode =>
           let a := tensOf a0 a1
           let b := tensOf b0 b1
           let w := slotWidth a.fmt
           let l := lmuView s k t.cid
           let s1 := tileStart s k t
           let r := (upto a.rows).foldl (fun (st : TileRun) m =>
             let x := rowIn l a u (256 / w) m
             let y := rowIn l b u (256 / w) (if b.rows = 1 then 0 else m)
             let (v, g) := polyProduct (x.elems.map (factor half a.bp)) (y.elems.map (factor half b.bp)) w kk u mode
             let p := x.pois || y.pois
             let q := st.q
             { q := { q with accum := putRow q.accum (arow + m) v, gov := mset false q.gov (arow + m) g
                             rpois := mset false q.rpois (arow + m) p }
               ovf := st.ovf || g, gov := st.gov || g, pois := st.pois || p })
             { q := mget emptySector s1.sects k, ovf := false, gov := false, pois := false }
           tileRan (modSect s1 k (fun _ => r.q)) k t drn r.ovf r.gov r.pois
       | _ => s)
  | none => s

/-! ## Drains (R284-R286, R333, R334) -/

/-- First row and rows of a command's drain, and CLR. -/
def drainOf (t : TileCmd) : Option (Nat × Nat × Bool) :=
  match t.op with
  | .tdrn clr frow nrow => some (frow, nrow, clr)
  | .tmul _ p1 _ _ arow _ drn _ => if t.done ∧ drn then some (arow, fld p1 36 12, false) else none
  | .tpoly _ a1 _ _ _ arow drn _ _ _ => if t.done ∧ drn then some (arow, fld a1 36 12, false) else none
  | .tldb .. => none

/-- The bytes of an accumulator row as a drain writes them. -/
def rowBytesOf (q : Sector) (row mcol : Nat) : List Byte := (upto mcol).flatMap (fun c => leBytes 4 (mget 0 q.accum (row * 384 + c)).toNat)

/-- The payload of a drain token (R285). -/
def drainPayload (tid : BitVec 16) (yoff row : Nat) (pois gov : Bool) : Quad :=
  BitVec.ofNat 128 (tid.toNat * 2 ^ 32 + yoff * 2 ^ 16 + row * 2 ^ 8 + pois.toNat * 2 + gov.toNat)

/-- The row slots of a core replaced. -/
def setRows (s : State) (core : Nat) (rs : List RowSlot) : State := putCore s core { coreAt s core with rows := rs }

/-- The next row of the head command's drain: it waits for a live slot that it overlaps. Its token carries the number of the slot, so that it
releases that one alone (R286). -/
def drainNext (s : State) (k : Nat) (t : TileCmd) (frow nrow : Nat) (clr : Bool) : State :=
  let r := frow + t.drainAt
  let core := rowCore t.cfg1 (coreOfCid t.cid) r
  let y := rowY t.cfg0 t.cfg1 r
  let len := cfRS t.cfg1
  let q := mget emptySector s.sects k
  let gov := mget false q.gov r
  let pois := mget false q.rpois r
  let s0 := tileStart s k t
  if !inService s.hub core then tileDone s0 k t (tileFault t 0x20 :: (govFault t).toList)
  else if (coreAt s core).rows.any (fun x => decide (x.off < y + len) && decide (y < x.off + x.len)) then s
  else
    let s1 := engBuf s0 core 3 y ((rowBytesOf q r (cfMCOL t.cfg1)).map (fun b => (b, pois)))
    let s2 := setRows { s1 with tick := s1.tick + 1 } core
      ((coreAt s1 core).rows ++ [{ off := y, len := len, core := coreOfCid t.cid, gen := t.gen, id := s1.tick }])
    let tok := bareToken (drainPayload t.tid y r pois gov) (mkTag t.cid (cfECH t.cfg1) 22)
    let f : Flight := { tok := { tok with pasid := (ctxOf s t.cid).pasid, row := some s1.tick }, kind := .drain, src := 16384 + k
                        dest := .chan core (BitVec.ofNat 5 (cfECH t.cfg1)), second := none, esc := none }
    let s3 := { s2 with hub := { s2.hub with flight := s2.hub.flight ++ [f] } }
    let t1 := { t with drainAt := t.drainAt + 1, pois := t.pois || pois, gov := t.gov || gov }
    let s4 := modSect s3 k (fun q =>
      { q with tileq := t1 :: q.tileq.drop 1, accum := (if clr then mclear q.accum (r * 384) (r * 384 + 384) else q.accum)
               gov := (if clr then mset false q.gov r false else q.gov), rpois := (if clr then mset false q.rpois r false else q.rpois) })
    if t1.drainAt ≥ nrow then tileDone s4 k t1 (govFault t1).toList else s4

/-- DRAIN_ROW (R284). A drain that ends at a vacant core reports 0x20, and counts the overflow of its command in that record (R336). -/
def effDrainRow (k : Nat) (s : State) : State :=
  match tileOrder s k with
  | t :: _ =>
      (match drainOf t with
       | some (frow, nrow, clr) => if !tileHeld s t ∧ !drainHeld s k then drainNext s k t frow nrow clr else s
       | none => s)
  | [] => s

/-- TLDB_EXECUTE. -/
def execTldbExecute (sect : Nat) (s : State) : Host.Outcome State Fault Refusal := live s (effTldb sect s)

/-- TMUL_EXECUTE. -/
def execTmulExecute (sect : Nat) (s : State) : Host.Outcome State Fault Refusal := live s (effTmul sect s)

/-- TPOLY_EXECUTE. -/
def execTpolyExecute (sect : Nat) (s : State) : Host.Outcome State Fault Refusal := live s (effTpoly sect s)

/-- DRAIN_ROW. -/
def execDrainRow (sect : Nat) (s : State) : Host.Outcome State Fault Refusal := live s (effDrainRow sect s)

end Sys2Proof.Machine
end

