-- ==== Sys2Proof/Machine/Power.lean ====
section
/-! DEFINITION. Power states, Hold and wake, Off, cold boot, the debug port, and writes of hub registers (R28, R307, R322, R392, R413, R426,
R427, R431, R432, R455-R464). -/
namespace Sys2Proof.Machine
open Sys2Proof

/-! ## Off (R455) -/

/-- The device without power: everything is lost but what boot flash and boot ROM keep; what has left the package has left it. Host memory is the
host's, and keeps its power. -/
def offState (s : State) : State :=
  { State.reset with
    agenda := s.agenda, now := s.now, tick := s.tick, cur := s.cur, mem := s.mem.filter (fun c => isHostMem c.1)
    hub := { emptyHub with power := .off, flash := s.hub.flash, badRows := s.hub.badRows, out := s.hub.out, helper := s.hub.helper
                           romKey := s.hub.romKey, find := s.hub.find } }

/-- POWER_OFF: PWRCTL.REQ = 2 has been written. -/
def effPowerOff (s : State) : State := if s.hub.offReq then offState s else s

/-! ## Cold boot (R28, R459, R461, R464) -/

/-- The lowest of the eight positions of a cluster that has no sound core. -/
def firstBad (ins : Nat) : Option Nat := (upto 8).find? (fun p => !bit ins p)

/-- Whether self-test leaves an LMU out of service (R30): it finds it bad, or more than two of its rows or of its columns have failed. -/
def lmuLost (f : BootFind) (k : Nat) : Bool :=
  let many := fun (m : List (Nat × Nat)) => decide (2 < (m.filter (fun e => e.1 == k)).eraseDups.length)
  f.lmuOut.contains k || many f.repair.lmuRows || many f.repair.lmuCols

/-- CMAP of a cluster as self-test leaves it (R14, R28): a sound spare takes the lowest position that has no sound core (log entry 98). -/
def bootCmap (f : BootFind) (i : Nat) : Word :=
  let ins := f.coresIn.getD i 0xFF % 256
  let lmu := (!lmuLost f (i / 4)).toNat * 2 ^ 8
  let sound := !(f.spareOut.contains i)
  match firstBad ins with
  | some p => if sound then BitVec.ofNat 64 (ins + 2 ^ p + lmu + 2 ^ 12 + p * 2 ^ 13) else BitVec.ofNat 64 (ins + lmu)
  | none => BitVec.ofNat 64 (ins + lmu + sound.toNat * 2 ^ 11)

/-- The number of ones in a byte. -/
def ones (n : Nat) : Nat := ((upto 8).filter (fun i => bit n i)).length

/-- DEVCAP as self-test finds it. -/
def bootDevcap (f : BootFind) : Word :=
  let cs := (upto 160).map (fun i => fld (bootCmap f i) 0 8)
  let lm := (upto 40).filter (fun k => !lmuLost f k)
  BitVec.ofNat 64 (ones f.svc.toNat * 2 ^ 48 + lm.length * 2 ^ 40 + (cs.filter (· != 0)).length * 2 ^ 32 + (cs.map ones).sum * 2 ^ 21 + 0x108)

/-- The hub registers that self-test writes. -/
def bootRegs (h : Hub) (f : BootFind) : Hub :=
  setReg ((upto 160).foldl (fun h i => setReg h (0x1000 + 4 * i) (bootCmap f i)) h) 0 (bootDevcap f)

/-- The repair map that self-test builds (R425): the spares in service, the repairs that it finds, and the rows that boot flash names. An LMU that
is lost is not repaired (R30). -/
def bootRepair (f : BootFind) (rows : List Nat) : RepairMap :=
  { f.repair with lmuRows := f.repair.lmuRows.filter (fun e => !lmuLost f e.1), lmuCols := f.repair.lmuCols.filter (fun e => !lmuLost f e.1)
                  spares := (upto 160).filter (fun i => bit (bootCmap f i).toNat 12), dramRows := f.repair.dramRows ++ rows }

/-- Service firmware starts on context 0 of a service core at PRIV 1 (R459 step 6). -/
def startFirmware (entry : Word) (s : State) (c : Nat) : State :=
  if inService s.hub (0x7E0 + c) then
    let cid := (0x7E0 + c) * 8
    putCtx s cid { wakeState (ctxOf s cid) entry (Vector.replicate 8 0) 1 4095 0 0 0 (.actor 0) with free := true }
  else s

/-- A boot that has stopped: ISLST.BST says why, and nothing runs (R464). -/
def bootStop (s : State) (bst : Nat) : State :=
  { s with hub := { setReg s.hub 0x7018 (setFld (reg s.hub 0x7018) 0 7 bst) with power := .bootStopped } }

/-- The bytes of service firmware as boot reads them from flash. -/
def fwBytes (f : BootFind) : List Byte := f.image.map (·.2)

/-- Steps 1 and 2: the device seed from the PUF (R459), and the LMS index of the run (R461). -/
def bootSeed (f : BootFind) (s : State) : State :=
  let o := offState s
  let old := s.hub.flash
  { o with hub := { o.hub with power := .run, badRows := [], seed := Config.pufSeed f.puf s.hub.helper, lms := old, lmsLeft := 0, mtvec := f.mtvec } }

/-- Step 3: the flash copy of the index has advanced; self-test and its registers. -/
def bootTest (f : BootFind) (rows : List Nat) (s : State) : State :=
  { s with hub := bootRegs { s.hub with flash := s.hub.lms + 1024, lmsLeft := 1024, svc := f.svc, repair := bootRepair f rows } f }

/-- Steps 5 and 6, with firmware whose signature stands: its hash is kept for reports (R462), its image is loaded, the defaults are written, and it
starts. -/
def bootRun (f : BootFind) (s : State) : State :=
  let h := { setReg s.hub 0x4000 (f.pastb &&& regMask 0x4000) with fwHash := sha256 (fwBytes f), fwAddrs := f.image.map (·.1) }
  (upto 8).foldl (startFirmware f.entry) { s with hub := h, mem := f.image.foldl (fun m c => ramPut m c.1 [c.2]) s.mem }

/-- COLD_BOOT, from Off (R459). -/
def effColdBoot (f : BootFind) (s : State) : State :=
  if s.hub.power ≠ .off then s
  else if !f.flashOk then bootStop (bootSeed f s) 2
  else
    let t := bootTest f s.hub.badRows (bootSeed f s)
    if hssVerify s.hub.romKey (fwBytes f) f.sig then bootRun f t else bootStop t 1

/-! ## Hold (R457) -/

/-- Hold takes every cluster from its launch (R307, R457 step 1). -/
def holdTake (s : State) : State :=
  (s.clus.filter (fun e => e.2.owner.any (fun l => (launchOf s.hub l).isSome) && e.2.wanted != some 4096)).foldl
    (fun s e => match e.2.wanted with | some _ => preemptFor s e.1 4096 | none => takeFrom s e.1 4096) s

/-- Whether step 1 has ended: no launch holds a cluster, and no firing remains outside the service cores. -/
def holdQuiet (s : State) : Bool :=
  !s.clus.any (fun e => e.2.owner.any (fun l => (launchOf s.hub l).isSome)) &&
  !s.ctxs.any (fun e => e.2.status != .dormant && !isService (coreOfCid e.1))

/-- Whether step 2 has ended: the seal that it requested has been made, every drift but the newest is sealed, and the hold is empty. -/
def holdSealed (s : State) : Bool :=
  s.hub.holdSeal.any (isSealed s.hub.seals) && s.hub.seals.newest == s.hub.seals.sealed + 1 && s.hub.seals.stage == .quiet && s.hub.held.isEmpty

/-- Step 2: a seal of the newest drift is requested, and of a later one that held items belong to. -/
def holdRequest (s : State) : State :=
  let o := s.hub.seals
  match s.hub.holdSeal with
  | none => { s with hub := { wantSeal s.hub with holdSeal := some o.newest } }
  | some _ => if s.hub.held.any (fun h => h.stamp == o.newest) then { s with hub := wantSeal s.hub } else s

/-- SHA-256 of the service firmware image as it lies in memory (R457 step 4, R458 step 3). -/
def imageHash (s : State) : BitVec 256 := sha256 (s.hub.fwAddrs.map (openByte s))

/-- Every slice cleans itself, down to the last (R457 step 3). -/
def cleanAll (s : State) : State :=
  let s1 := s.lines.foldl (fun s e => cleanLine s e.1) s
  { s1 with sects := s1.sects.map (fun e => (e.1, { e.2 with sigs := [] })) }

/-- Whether the always-on island keeps a hub register through Hold (R457): all but those of the swap pool (R307), of the slices (R369) and of
ERRINJ (R427). Log entry 123. -/
def holdKeeps (off : Nat) : Bool :=
  !(off == 0x2010 || off == 0x2018 || off == 0x5020 || (decide (0x3000 ≤ off) && decide (off < 0x3480)))

/-- The caches and the registers that lose power (R457 step 5); a slice that had left serves again after the wake (R458 step 4). -/
def dropCaches (s : State) : State :=
  { s with cores := s.cores.map (fun e => (e.1, { e.2 with dcache := [], icache := [], ibad := [], utlb := [], prefs := [] }))
           clus := s.clus.map (fun e => (e.1, { e.2 with tlb := [] }))
           sects := s.sects.map (fun e => (e.1, { e.2 with off := false }))
           doms := s.doms.map (fun e => (e.1, { e.2 with tlb := [], ptrs := [] }))
           hub := { s.hub with ats := [], regs := s.hub.regs.filter (fun e => holdKeeps e.1) } }

/-- The bases of the windbreak logs come into force (R426). -/
def takeWbBase (h : Hub) : Hub :=
  { h with wbBase := (upto 8).foldl (fun m d => mset ((d * 64 + 63) * 2 ^ 30) m d (fld (reg h (0x5100 + 32 * d)) 30 14 * 2 ^ 30)) [] }

/-- The device is in Run or Cap, as the sum of CAP says (R455). -/
def runOrCap (h : Hub) : Hub := capState { h with power := .run }

/-- Hold ends on a source: 1 frame, 2 host, 3 timer (R456, R458). The service cores go on; a frame raises IRT source 41, and the frames that the
MAC has buffered reach their connections. -/
def wakeUp (s : State) (src : Nat) : State :=
  let v := reg s.hub 0x7008
  let h := setReg s.hub 0x7008 (setFld (setFld v 32 32 (fld v 32 32 + 1)) 16 4 src)
  let s1 := { s with hub := takeWbBase (runOrCap { h with wakePending := none, holdSeal := none }) }
  let s2 := if src = 1 then routeEvent s1 41 0 else s1
  s2.hub.macBuf.foldl (fun t _ => macDeliver t) s2

/-- A wake from Hold (R458): a firmware image that is not the one measured runs a cold boot instead (log entry 77). -/
def wake (s : State) (src : Nat) : State :=
  if imageHash s = s.hub.measure then wakeUp s src else effColdBoot s.hub.find (offState s)

/-- HOLD_ENTRY: one of its steps, or the end of it (R457). A rollback that is due abandons the entry. -/
def effHoldEntry (s : State) : State :=
  if s.hub.power ≠ .toHold ∨ s.hub.rbDue.isSome then s
  else if !holdQuiet s then holdTake s
  else if !holdSealed s then holdRequest s
  else
    let s0 := cleanAll s
    let s1 := dropCaches { s0 with hub := { s0.hub with measure := imageHash s0 } }
    let s2 := { s1 with hub := { s1.hub with power := .hold, holdAt := s.now } }
    match s.hub.wakePending with
    | some src => wakeUp s2 src
    | none => s2

/-- A wake source fires: in Hold it wakes the device, while Hold is entered it waits for the end of the entry (R457). -/
def wakeBy (src : Nat) (s : State) : State :=
  match s.hub.power with
  | .hold => wake s src
  | .toHold => if s.hub.wakePending.isSome then s else { s with hub := { s.hub with wakePending := some src } }
  | _ => s

/-- Whether a good frame matches WAKEF, with WETH 1 (R456, R458). -/
def frameMatches (h : Hub) (mac : BitVec 48) (etype : BitVec 16) : Bool := (reg h 0x7000).getLsbD 3 && reg h 0x7010 == etype ++ mac

/-- WAKE_FRAME: a frame, which the MAC takes, and which wakes the device when it matches (R456, R458). One whose check sequence is bad is no
frame. -/
def effWakeFrame (mac : BitVec 48) (etype : BitVec 16) (fr : Option RxFrame) (s : State) : State :=
  match fr with
  | none => s
  | some f =>
      if s.hub.up || s.hub.power == .hold then
        let s1 := wholeStep s (netArrive f.conn f.bytes f.ack s)
        if frameMatches s.hub mac etype then wakeBy 1 s1 else s1
      else s

/-- WAKE_TIMER: WTIM seconds after Hold entry (R456, R458). -/
def effWakeTimer (s : State) : State :=
  let t := fld (reg s.hub 0x7000) 8 32
  if t ≠ 0 ∧ s.hub.power = .hold ∧ s.hub.holdAt + 2900000000 * t ≤ s.now then wakeBy 3 s else s

/-- COLD_BOOT and SUPPLY_LOSS happen whatever the power state. -/
def anytime (t : State) : Host.Outcome State Fault Refusal := .next t

/-! ## Debug port (R463) -/

/-- What a debug token's signature covers: the device's public key and the index (log entry 108). -/
def tokenBytes (t : DebugToken) : List Byte := lmsPubBytes t.pub ++ beBytes 4 t.index

/-- Whether a debug token unlocks this run (R463): it names the current LMS index and the device's public key, and its signature stands under the key
in boot ROM. -/
def tokenOk (h : Hub) (t : DebugToken) : Bool := t.index == h.lms && t.pub == devicePub h.seed && hssVerify h.romKey (tokenBytes t) t.sig

/-- DEBUG_UNLOCK with a token. -/
def effDebugUnlock (t : DebugToken) (s : State) : State :=
  if tokenOk s.hub t then { s with hub := setReg s.hub 0x7018 (setBit (reg s.hub 0x7018) 7 true) } else s

/-- Whether the debug port reaches the state of the device: it has been unlocked for this run (R463). -/
def debugOpen (h : Hub) : Bool := h.up && (reg h 0x7018).getLsbD 7

/-- What the debug port reads at a place. -/
def debugValue (s : State) : DebugPlace → Word
  | .mem a => BitVec.ofNat 64 (leVal (homeBytes s a 8))
  | .hub off => regWord s (off / 8 * 8)
  | .p cid n => (ctxOf s cid).p.toList.getD n 0
  | .a cid high => (ctxOf s cid).a.extractLsb' (if high then 64 else 0) 64
  | .pc cid => (ctxOf s cid).pc
  | .stat cid => (ctxOf s cid).stat
  | .sreg cid r => readSreg (s.loc cid) r
  | .buf core sp off => BitVec.ofNat 64 (leVal (bytesAt ((s.loc (8 * core)).buf sp) off 8))

/-- The debug port writes a place (log entry 108). -/
def debugPut (s : State) (v : Word) : DebugPlace → State
  | .mem a => if isHub a ∨ isHub (a + 7) then s else { s with mem := ramPut s.mem a (leBytes 8 v.toNat) }
  | .hub off => { s with hub := setReg s.hub (off / 8 * 8) v }
  | .p cid n => let c := ctxOf s cid; putCtx s cid { c with p := c.p.setIfInBounds n v }
  | .a cid high =>
      let c := ctxOf s cid
      putCtx s cid { c with a := if high then v ++ c.a.extractLsb' 0 64 else c.a.extractLsb' 64 64 ++ v }
  | .pc cid => let c := ctxOf s cid; putCtx s cid { c with pc := v }
  | .stat cid => let c := ctxOf s cid; putCtx s cid { c with stat := v }
  | .sreg cid r => s.putLoc (writeSreg (s.loc cid) r v)
  | .buf core sp off =>
      if bufSize sp < off + 8 then s else s.putLoc ((s.loc (8 * core)).writeBuf sp off (leBytes 8 v.toNat) false)

/-! ## Register writes (R431) -/

/-- A write of a register by supervisor or machine code, of 8 bytes. -/
def supWrite (off : Nat) (v : Word) (s : State) : State := regStore s false off 8 v

/-- REGISTER_WRITE. A register whose write has an event of its own is reached by this one too (R321, R392, R431). -/
def effRegWrite (host : Bool) (off size : Nat) (v : Word) (s : State) : State := regStore s host off size v

/-- HOLD_ENTRY. -/
def execHoldEntry (s : State) : Host.Outcome State Fault Refusal := live s (effHoldEntry s)
/-- POWER_OFF. -/
def execPowerOff (s : State) : Host.Outcome State Fault Refusal := live s (effPowerOff s)
/-- SUPPLY_LOSS. -/
def execSupplyLoss (s : State) : Host.Outcome State Fault Refusal := anytime (offState s)
/-- WAKE_FRAME. -/
def execWakeFrame (mac : BitVec 48) (etype : BitVec 16) (frame : Option RxFrame) (s : State) : Host.Outcome State Fault Refusal :=
  anytime (effWakeFrame mac etype frame s)
/-- WAKE_TIMER. -/
def execWakeTimer (s : State) : Host.Outcome State Fault Refusal := anytime (effWakeTimer s)
/-- HOST_WAKE. -/
def execHostWake (s : State) : Host.Outcome State Fault Refusal := anytime (wakeBy 2 s)
/-- COLD_BOOT. -/
def execColdBoot (found : BootFind) (s : State) : Host.Outcome State Fault Refusal := anytime (effColdBoot found s)
/-- DEBUG_UNLOCK. -/
def execDebugUnlock (token : DebugToken) (s : State) : Host.Outcome State Fault Refusal := live s (effDebugUnlock token s)
/-- PBUD_CAP_WRITE of domain d. -/
def execPbudCapWrite (d : Nat) (val : Word) (s : State) : Host.Outcome State Fault Refusal :=
  live s (if d < 8 then supWrite (0x2100 + 8 * d) val s else s)
/-- RTS_WRITE of slot i. -/
def execRtsWrite (i : Nat) (val : Word) (s : State) : Host.Outcome State Fault Refusal :=
  live s (if i < 32 then supWrite (0x2400 + 8 * i) val s else s)
/-- SWPCFG_WRITE. -/
def execSwpcfgWrite (val : Word) (s : State) : Host.Outcome State Fault Refusal := live s (supWrite 0x2010 val s)
/-- CWCFG_WRITE. -/
def execCwcfgWrite (val : Word) (s : State) : Host.Outcome State Fault Refusal := live s (supWrite 0x6000 val s)
/-- SEALCFG_REQ. -/
def execSealcfgReq (val : Word) (s : State) : Host.Outcome State Fault Refusal := live s (supWrite 0x5008 val s)
/-- DATCFG_SYNC of domain d. -/
def execDatcfgSync (d : Nat) (val : Word) (s : State) : Host.Outcome State Fault Refusal :=
  live s (if d < 8 then supWrite (0x5110 + 32 * d) val s else s)
/-- ERRINJ_GO. -/
def execErrinjGo (val : Word) (s : State) : Host.Outcome State Fault Refusal := live s (supWrite 0x5020 val s)
/-- IRT_WRITE at an offset in the table. -/
def execIrtWrite (off : Nat) (val : Word) (s : State) : Host.Outcome State Fault Refusal :=
  live s (if off < 0x800 then supWrite (0x4800 + off) val s else s)
/-- REGISTER_WRITE. -/
def execRegisterWrite (host : Bool) (off size : Nat) (val : Word) (s : State) : Host.Outcome State Fault Refusal :=
  live s (effRegWrite host off size val s)

end Sys2Proof.Machine
end

