-- ==== Sys2Proof/Machine/Rep.lean ====
section
/-! DEFINITION. REP (R201, R202). -/
namespace Sys2Proof.Machine
open Sys2Proof

/-- What one execution of an instruction of class I, V or M does to a context, with the change that follows beyond its view (R123, R201). -/
def bodyOf : Instr → Option (State → Loc → Res (Loc × (State → State)))
  | .mov v c d s1 => some (fun _ l => do let l1 ← bodyMov v c d s1 l; .ok (l1, id))
  | .movi v c d imm => some (fun _ l => do let l1 ← bodyMovi v c d imm l; .ok (l1, id))
  | .movhi c d imm => some (fun _ l => do let l1 ← bodyMovhi c d imm l; .ok (l1, id))
  | .lea v c d s1 => some (fun _ l => do let l1 ← bodyLea v c d s1 l; .ok (l1, id))
  | .add v c d s1 s2 => some (fun _ l => do let l1 ← bodyAdd v c d s1 s2 l; .ok (l1, id))
  | .sub v c d s1 s2 => some (fun _ l => do let l1 ← bodySub v c d s1 s2 l; .ok (l1, id))
  | .adc v c d s1 s2 => some (fun _ l => do let l1 ← bodyAdc v c d s1 s2 l; .ok (l1, id))
  | .sbc v c d s1 s2 => some (fun _ l => do let l1 ← bodySbc v c d s1 s2 l; .ok (l1, id))
  | .mul v c d s1 s2 => some (fun _ l => do let l1 ← bodyMul v c d s1 s2 l; .ok (l1, id))
  | .mulh v c u d s1 s2 => some (fun _ l => do let l1 ← bodyMulh v c u d s1 s2 l; .ok (l1, id))
  | .div v c u d s1 s2 => some (fun _ l => do let l1 ← bodyDiv v c u d s1 s2 l; .ok (l1, id))
  | .rem v c u d s1 s2 => some (fun _ l => do let l1 ← bodyRem v c u d s1 s2 l; .ok (l1, id))
  | .and v c d s1 s2 => some (fun _ l => do let l1 ← bodyAnd v c d s1 s2 l; .ok (l1, id))
  | .or v c d s1 s2 => some (fun _ l => do let l1 ← bodyOr v c d s1 s2 l; .ok (l1, id))
  | .xor v c d s1 s2 => some (fun _ l => do let l1 ← bodyXor v c d s1 s2 l; .ok (l1, id))
  | .andn v c d s1 s2 => some (fun _ l => do let l1 ← bodyAndn v c d s1 s2 l; .ok (l1, id))
  | .shl v c d s1 s2 => some (fun _ l => do let l1 ← bodyShl v c d s1 s2 l; .ok (l1, id))
  | .shr v c d s1 s2 => some (fun _ l => do let l1 ← bodyShr v c d s1 s2 l; .ok (l1, id))
  | .sar v c d s1 s2 => some (fun _ l => do let l1 ← bodySar v c d s1 s2 l; .ok (l1, id))
  | .rol v c d s1 s2 => some (fun _ l => do let l1 ← bodyRol v c d s1 s2 l; .ok (l1, id))
  | .clz v c d s1 => some (fun _ l => do let l1 ← bodyClz v c d s1 l; .ok (l1, id))
  | .ctz v c d s1 => some (fun _ l => do let l1 ← bodyCtz v c d s1 l; .ok (l1, id))
  | .popc v c d s1 => some (fun _ l => do let l1 ← bodyPopc v c d s1 l; .ok (l1, id))
  | .cmp v c s1 s2 => some (fun _ l => do let l1 ← bodyCmp v c s1 s2 l; .ok (l1, id))
  | .tst v c s1 s2 => some (fun _ l => do let l1 ← bodyTst v c s1 s2 l; .ok (l1, id))
  | .min v c u d s1 s2 => some (fun _ l => do let l1 ← bodyMin v c u d s1 s2 l; .ok (l1, id))
  | .max v c u d s1 s2 => some (fun _ l => do let l1 ← bodyMax v c u d s1 s2 l; .ok (l1, id))
  | .sel v c d s1 s2 cond => some (fun _ l => do let l1 ← bodySel v c d s1 s2 cond l; .ok (l1, id))
  | .ext v c d s1 sgn len pos => some (fun _ l => do let l1 ← bodyExt v c d s1 sgn len pos l; .ok (l1, id))
  | .ins v c d s1 len pos => some (fun _ l => do let l1 ← bodyIns v c d s1 len pos l; .ok (l1, id))
  | .spc c d s1 s2 => some (fun _ l => do let l1 ← bodySpc c d s1 s2 l; .ok (l1, id))
  | .vadd v c d s1 s2 => some (fun _ l => do let l1 ← bodyVadd v c d s1 s2 l; .ok (l1, id))
  | .vsub v c d s1 s2 => some (fun _ l => do let l1 ← bodyVsub v c d s1 s2 l; .ok (l1, id))
  | .vadds v c u d s1 s2 => some (fun _ l => do let l1 ← bodyVadds v c u d s1 s2 l; .ok (l1, id))
  | .vsubs v c u d s1 s2 => some (fun _ l => do let l1 ← bodyVsubs v c u d s1 s2 l; .ok (l1, id))
  | .vmul v c d s1 s2 => some (fun _ l => do let l1 ← bodyVmul v c d s1 s2 l; .ok (l1, id))
  | .vmulh v c u d s1 s2 => some (fun _ l => do let l1 ← bodyVmulh v c u d s1 s2 l; .ok (l1, id))
  | .vmac v c d s1 s2 => some (fun _ l => do let l1 ← bodyVmac v c d s1 s2 l; .ok (l1, id))
  | .vdot c u d s1 s2 => some (fun _ l => do let l1 ← bodyVdot c u d s1 s2 l; .ok (l1, id))
  | .vmin v c u d s1 s2 => some (fun _ l => do let l1 ← bodyVmin v c u d s1 s2 l; .ok (l1, id))
  | .vmax v c u d s1 s2 => some (fun _ l => do let l1 ← bodyVmax v c u d s1 s2 l; .ok (l1, id))
  | .vabs v c d s1 => some (fun _ l => do let l1 ← bodyVabs v c d s1 l; .ok (l1, id))
  | .vneg v c d s1 => some (fun _ l => do let l1 ← bodyVneg v c d s1 l; .ok (l1, id))
  | .vand v c d s1 s2 => some (fun _ l => do let l1 ← bodyVand v c d s1 s2 l; .ok (l1, id))
  | .vor v c d s1 s2 => some (fun _ l => do let l1 ← bodyVor v c d s1 s2 l; .ok (l1, id))
  | .vxor v c d s1 s2 => some (fun _ l => do let l1 ← bodyVxor v c d s1 s2 l; .ok (l1, id))
  | .vshl v c d s1 s2 => some (fun _ l => do let l1 ← bodyVshl v c d s1 s2 l; .ok (l1, id))
  | .vshr v c d s1 s2 => some (fun _ l => do let l1 ← bodyVshr v c d s1 s2 l; .ok (l1, id))
  | .vsar v c d s1 s2 => some (fun _ l => do let l1 ← bodyVsar v c d s1 s2 l; .ok (l1, id))
  | .vcmp v c d s1 s2 cond => some (fun _ l => do let l1 ← bodyVcmp v c d s1 s2 cond l; .ok (l1, id))
  | .vsel v c d s1 s2 x => some (fun _ l => do let l1 ← bodyVsel v c d s1 s2 x l; .ok (l1, id))
  | .vshuf v c d s1 s2 => some (fun _ l => do let l1 ← bodyVshuf v c d s1 s2 l; .ok (l1, id))
  | .vbcast v c d s1 lane => some (fun _ l => do let l1 ← bodyVbcast v c d s1 lane l; .ok (l1, id))
  | .vred v c d s1 op => some (fun _ l => do let l1 ← bodyVred v c d s1 op l; .ok (l1, id))
  | .vcvt v c d s1 => some (fun _ l => do let l1 ← bodyVcvt v c d s1 l; .ok (l1, id))
  | .vnarr v c u d s1 s2 => some (fun _ l => do let l1 ← bodyVnarr v c u d s1 s2 l; .ok (l1, id))
  | .vwide v c u hi d s1 => some (fun _ l => do let l1 ← bodyVwide v c u hi d s1 l; .ok (l1, id))
  | .vfadd v c d s1 s2 => some (fun _ l => do let l1 ← bodyVfadd v c d s1 s2 l; .ok (l1, id))
  | .vfsub v c d s1 s2 => some (fun _ l => do let l1 ← bodyVfsub v c d s1 s2 l; .ok (l1, id))
  | .vfmul v c d s1 s2 => some (fun _ l => do let l1 ← bodyVfmul v c d s1 s2 l; .ok (l1, id))
  | .vfma v c np na d s1 s2 => some (fun _ l => do let l1 ← bodyVfma v c np na d s1 s2 l; .ok (l1, id))
  | .vfdiv v c d s1 s2 => some (fun _ l => do let l1 ← bodyVfdiv v c d s1 s2 l; .ok (l1, id))
  | .vfsqrt v c d s1 => some (fun _ l => do let l1 ← bodyVfsqrt v c d s1 l; .ok (l1, id))
  | .vfmin v c d s1 s2 => some (fun _ l => do let l1 ← bodyVfmin v c d s1 s2 l; .ok (l1, id))
  | .vfmax v c d s1 s2 => some (fun _ l => do let l1 ← bodyVfmax v c d s1 s2 l; .ok (l1, id))
  | .vfcmp v c d s1 s2 cond => some (fun _ l => do let l1 ← bodyVfcmp v c d s1 s2 cond l; .ok (l1, id))
  | .vfrcp v c d s1 => some (fun _ l => do let l1 ← bodyVfrcp v c d s1 l; .ok (l1, id))
  | .vfrsq v c d s1 => some (fun _ l => do let l1 ← bodyVfrsq v c d s1 l; .ok (l1, id))
  | .vfexp2 v c d s1 => some (fun _ l => do let l1 ← bodyVfexp2 v c d s1 l; .ok (l1, id))
  | .vflog2 v c d s1 => some (fun _ l => do let l1 ← bodyVflog2 v c d s1 l; .ok (l1, id))
  | .vfrnd v c d s1 => some (fun _ l => do let l1 ← bodyVfrnd v c d s1 l; .ok (l1, id))
  | .vfcls v c d s1 => some (fun _ l => do let l1 ← bodyVfcls v c d s1 l; .ok (l1, id))
  | .pack v c u wc k idx d s1 => some (fun _ l => do let l1 ← bodyPack v c u wc k idx d s1 l; .ok (l1, id))
  | .extr v c u cq fen k idx d s1 => some (fun _ l => do let l1 ← bodyExtr v c u cq fen k idx d s1 l; .ok (l1, id))
  | .pmul v c u fen wc k d s1 s2 => some (fun _ l => do let l1 ← bodyPmul v c u fen wc k d s1 s2 l; .ok (l1, id))
  | .gchk c u wc k d s1 => some (fun _ l => do let l1 ← bodyGchk c u wc k d s1 l; .ok (l1, id))
  | .bprd v c d s1 s2 x => some (fun _ l => do let l1 ← bodyBprd v c d s1 s2 x l; .ok (l1, id))
  | .bpwr v c d s1 s2 x => some (fun _ l => do let l1 ← bodyBpwr v c d s1 s2 x l; .ok (l1, id))
  | .scale v c d s1 s2 => some (fun _ l => do let l1 ← bodyScale v c d s1 s2 l; .ok (l1, id))
  | .bexp v c d s1 s2 => some (fun _ l => do let l1 ← bodyBexp v c d s1 s2 l; .ok (l1, id))
  | .ld v c u d s1 => some (fun _ l => do let l1 ← bodyLd v c u d s1 l; .ok (l1, id))
  | .st v c irv o sc d s1 => some (fun _ l => do let l1 ← bodySt v c irv o sc d s1 l; .ok (l1, id))
  | .lda v c u o sc d s1 => some (fun _ l => do let l1 ← bodyLda v c u o sc d s1 l; .ok (l1, id))
  | .stl v c o sc d s1 => some (fun _ l => do let l1 ← bodyStl v c o sc d s1 l; .ok (l1, id))
  | .bmov v c d s1 s2 => some (fun _ l => do let l1 ← bodyBmov v c d s1 s2 l; .ok (l1, id))
  | .pref c s1 nl llc => some (bodyPref c s1 nl llc)
  | .aadd v c nz o sc d s1 s2 => some (fun _ l => do let l1 ← bodyAadd v c nz o sc d s1 s2 l; .ok (l1, id))
  | .aand v c o sc d s1 s2 => some (fun _ l => do let l1 ← bodyAand v c o sc d s1 s2 l; .ok (l1, id))
  | .aor v c o sc d s1 s2 => some (fun _ l => do let l1 ← bodyAor v c o sc d s1 s2 l; .ok (l1, id))
  | .axor v c o sc d s1 s2 => some (fun _ l => do let l1 ← bodyAxor v c o sc d s1 s2 l; .ok (l1, id))
  | .amin v c u o sc d s1 s2 => some (fun _ l => do let l1 ← bodyAmin v c u o sc d s1 s2 l; .ok (l1, id))
  | .amax v c u o sc d s1 s2 => some (fun _ l => do let l1 ← bodyAmax v c u o sc d s1 s2 l; .ok (l1, id))
  | .aswp v c o sc d s1 s2 => some (fun _ l => do let l1 ← bodyAswp v c o sc d s1 s2 l; .ok (l1, id))
  | .acas v c o sc d s1 s2 => some (fun _ l => do let l1 ← bodyAcas v c o sc d s1 s2 l; .ok (l1, id))
  | .waita v c tmo o sc d s1 s2 => some (fun _ l => do let l1 ← bodyWaita v c tmo o sc d s1 s2 l; .ok (l1, id))
  | .fence c o sc => some (fun _ l => do let l1 ← bodyFence c o sc l; .ok (l1, id))
  | .rst c u op wid p s1 => some (fun _ l => do let l1 ← bodyRst c u op wid p s1 l; .ok (l1, id))
  | .l1inv c s1 all => some (fun _ l => do let l1 ← bodyL1inv c s1 all l; .ok (l1, id))
  | .copy c q pa pb ntf irv dist comb => some (fun _ l => do let l1 ← bodyCopy c q pa pb ntf irv dist comb l; .ok (l1, id))
  | .copyt c q pa pb s1 irv dist comb => some (fun _ l => do let l1 ← bodyCopyt c q pa pb s1 irv dist comb l; .ok (l1, id))
  | .tcfg c pa => some (bodyTcfg c pa)
  | .trel c => some (bodyTrel c)
  | .tldb c pa s1 bank af => some (bodyTldb c pa s1 bank af)
  | .tmul c pa s1 bank half arow cb drn acc => some (bodyTmul c pa s1 bank half arow cb drn acc)
  | .tpoly c pa pb s1 half arow drn k u mode => some (bodyTpoly c pa pb s1 half arow drn k u mode)
  | .tdrn c s1 clr nrow frow => some (bodyTdrn c s1 clr nrow frow)
  | .qfence c mask => some (fun _ l => do let l1 ← bodyQfence c mask l; .ok (l1, id))
  | .dist c s1 => some (fun _ l => do let l1 ← bodyDist c s1 l; .ok (l1, id))
  | .chkerr c d kill => some (bodyChkerr c d kill)
  | .seal c d num wt => some (fun _ l => do let l1 ← bodySeal c d num wt l; .ok (l1, id))
  | .drift c d => some (fun _ l => do let l1 ← bodyDrift c d l; .ok (l1, id))
  | _ => none

/-- Whether any operand of an instruction names Pn. -/
def namesReg (i : Instr) (p : Reg) : Bool :=
  (shape i).opds.any (fun o => opdReg o.1 == BitVec.twoPow 10 p.val) || (readsOf i ||| writesOf i).getLsbD p.val

/-- What the slot after a REP holds; `barred` is a word of class C that does not decode. -/
inductive RepSlot where
  | await
  | fault (f : FaultInfo)
  | barred
  | instr (i : Instr)
  deriving DecidableEq, Repr

/-- The instruction at the slot after a REP of Pn, with the faults of its line and of its word (R104, R105, R134). Its class comes before any
other fault of its word (R201). -/
def repInstr (l : Loc) (p : Reg) : RepSlot :=
  let pc := l.ctx.pc + 1
  if pc.toNat ≥ slotLimit then .fault (faultOf 0x13)
  else
    match l.ilineAt pc with
    | none => if 3 ≤ l.badAt pc then .fault (fetchFault 0x32 (lineVA pc)) else .await
    | some e =>
        if e.pois then .fault (fetchFault 0x32 (lineVA pc))
        else if lineWord e.bytes / 2 ^ 15 ≠ 0 then .fault (faultOf 0x02)
        else
          let w := slotWord e.bytes (pc.toNat % 5)
          match decode w with
          | .ok i => .instr i
          | .error .unassigned => if opClass (fld w 88 8) = .c then .barred else .fault (faultOf 0x01)
          | .error (.reserved i) => if opClass (fld w 88 8) = .c then .barred else .fault (faultOf (if namesReg i p then 0x01 else 0x02))

/-- Whether the repeated instruction is the first of a pair, which is illegal (R124 condition 5). -/
def repPair (l : Loc) : Bool :=
  let pc := l.ctx.pc + 1
  let k := pc.toNat % 5
  match l.ilineAt pc with
  | some e => decide (k < 4) && bit (lineWord e.bytes) (5 + k) && (match decode (slotWord e.bytes (k + 1)) with | .ok _ => true | .error _ => false)
  | none => false

/-- Whether a slot is LEND of any active loop (R201). -/
def atAnyLend (c : Ctx) : Bool := (upto (stLPD c.stat)).any (fun j => c.pc == c.lend j)

/-- The decode faults of the repeated instruction (R134): format, pair base, privilege. It takes no prefix. -/
def repFault (c : Ctx) (i : Instr) : Option (BitVec 8) :=
  if !pairsOk i then some 0x05 else if stPRIV c.stat < privOf i then some 0x08 else none

/-- REP has run its last instance (R201): it retires, and the end test of a loop whose LEND is the repeated slot is due (R199). As the first
of a pair it is counted (R124 condition 1). -/
def repEnd (l : Loc) (p : Reg) : Loc :=
  let l1 := if l.pPois p then l.consume regPtr else l
  let c := l1.ctx
  let due := decide (0 < stLPD c.stat) && c.lend (stLPD c.stat - 1) == c.pc + 1
  { l1 with next := .gone
            core := if c.pairBad then { l1.core with serc := sercInc l1.core.serc } else l1.core
            ctx := { c with status := .issuing, pc := c.pc + 2, tgtCheck := false, endTest := due, landed := [], pairBad := false, bmov := 0
                            dleft := c.dleft - 1 } }

/-- One instance has been executed: it counts as a retired instruction, and Pn falls by one (R201, R202). With the last instance the illegal
pair that the repeated instruction heads is counted (R124). -/
def repStep (l : Loc) (p : Reg) (pair : Bool) : Loc :=
  match l.next with
  | .gone => l
  | _ =>
      let l1 := l.setP p (l.p p - 1) (l.pPois p)
      let left := match l.dl with | some n => n | none => l.ctx.dleft - 1
      { l1 with next := .gone, dl := none
                core := if pair ∧ l.p p = 1 then { l1.core with serc := sercInc l1.core.serc } else l1.core
                ctx := { l1.ctx with status := .issuing, landed := [], bmov := 0, dleft := left } }

/-- Whether an instance makes the deadline test by itself. -/
def ownDeadline : Instr → Bool
  | .bmov .. => true
  | _ => false

/-- One instance of the repeated instruction: its predicate, then its effect. A fault leaves Pn counting it. -/
def repInst (i : Instr) (p : Reg) (s : State) (l : Loc) : Res (Loc × (State → State)) :=
  if !condHolds l.ctx.stat (condOf i) then
    if l.ctx.dleft = 0 then flt l 0x09 else .ok (repStep l p (repPair l), id)
  else
    match bodyOf i with
    | none => flt l 0x01
    | some f =>
        match f s l with
        | .ok (l1, post) => if !ownDeadline i && l.ctx.dleft == 0 then flt l 0x09 else .ok (repStep l1 p (repPair l), post)
        | .error (.park l1 k) => if !k.pure && !ownDeadline i && l.ctx.dleft == 0 then flt l 0x09 else .error (.park l1 k)
        | .error e => .error e

/-- REP with Pn = 0: nothing is executed (R201). -/
def repNone (l : Loc) (p : Reg) : Res (Loc × (State → State)) :=
  if atAnyLend l.ctx then flt l 0x04 else if l.ctx.dleft = 0 then flt l 0x09 else .ok (repEnd l p, id)

/-- REP (R201), one instance an issue; Pn holds the progress. The class of the next word comes first, then its operands, then the place of the
REP, then every other fault of that word. -/
def repBody (s1 : Opd) (s : State) (l : Loc) : Res (Loc × (State → State)) :=
  let p := regOfOpd s1
  let n := l.p p
  match repInstr l p with
  | .await =>
      match xlate l (lineVA (l.ctx.pc + 1)) .fetch with
      | .ok _ => parkOn l .stall
      | .error (.fault l1 f) => if n = 0 then repNone l p else .error (.fault l1 f)
      | .error e => .error e
  | .fault f => if n = 0 then repNone l p else if atAnyLend l.ctx then flt l 0x04 else .error (.fault l f)
  | .barred => flt l 0x01
  | .instr i =>
      if classOf i = .c then flt l 0x01
      else if n ≠ 0 ∧ namesReg i p then flt l 0x01
      else if atAnyLend l.ctx then flt l 0x04
      else if n = 0 then repNone l p
      else
        match repFault l.ctx i with
        | some code => flt l code
        | none => repInst i p s (l.setBad (l.ctx.pc + 1) 0)

/-- What an instruction does to a context that issues it when its predicate holds, with the change that follows beyond its view. REP is told
of instance by instance (R202). -/
def effectOf (i : Instr) : Option (State → Loc → Res (Loc × (State → State))) :=
  let own : (Loc → Res Loc) → Option (State → Loc → Res (Loc × (State → State))) := fun f => some (fun _ l => do let l1 ← f l; .ok (l1, id))
  match i with
  | .nop => own bodyNop
  | .fmt fw => own (bodyFmt fw)
  | .br c off lnk => own (bodyBr c off lnk)
  | .call c off lnk => own (bodyCall c off lnk)
  | .jmp c s1 => own (bodyJmp c s1)
  | .jmpl c d s1 => own (bodyJmpl c d s1)
  | .loop cnt off => own (bodyLoop cnt off)
  | .wait c ceil => own (bodyWait c ceil)
  | .send c s1 s2 rch => own (bodySend c s1 s2 rch)
  | .sendn c s1 dch dir => own (bodySendn c s1 dch dir)
  | .recv c d s1 => own (bodyRecv c d s1)
  | .bind c s1 s2 => own (fun l => bindR l (.bind c s1 s2) s1 s2)
  | .unbind c s1 => own (bodyUnbind c s1)
  | .rfork c d s1 s2 x => own (fun l => rforkR l (.rfork c d s1 s2 x) d)
  | .trig c => own (bodyTrig c)
  | .rti c => own (bodyRti c)
  | .mfs c d r => own (bodyMfs c d r)
  | .sigh c s1 irv => own (bodySigh c s1 irv)
  | .prio c s1 s2 => some (fun s l => do let l1 ← bodyPrio c s1 s2 l; .ok (l1, fun t => noteRunnable s t (coreOfCid l.cid)))
  | .chst c d s1 => some (chstBody (.chst c d s1))
  | .trap c n => some (trapBody n)
  | .mts c s1 r => some (mtsBody c s1 r)
  | .endF _ => some endBody
  | .join c d s1 => some (joinBody (.join c d s1) d)
  | .yield _ live dl => some (yieldBody live dl)
  | .idle _ => some idleBody
  | .tlbi c s1 s2 ty => some (tlbiBody (.tlbi c s1 s2 ty) ty)
  | .ctxsv c s1 s2 live => some (ctxsvBody (.ctxsv c s1 s2 live) live)
  | .ctxld c s1 s2 => some (ctxldBody (.ctxld c s1 s2))
  | .replay c s1 s2 => some (replayBody (.replay c s1 s2))
  | .killf c s1 drop => some (killfBody (.killf c s1 drop) drop)
  | .place c s1 s2 => some (placeBody (.place c s1 s2))
  | j => bodyOf j

/-- Whether an instruction that a context carries out would retire now (R206): its predicate is false, or its effect completes. -/
def wouldRetire (i : Instr) (s : State) (l : Loc) : Bool :=
  !condHolds l.ctx.stat (condOf i) ||
  (match effectOf i with
   | some f => (match f s l with | .ok _ => true | .error _ => false)
   | none => false)

/-- WATCHDOG_EXPIRY (R206): the context is about to retire an instruction with no retirements left. -/
def effWatchdogExpiry (cid : Nat) (s : State) : State :=
  let l := s.loc cid
  match fetchNext l with
  | .run l1 i =>
      if l.ctx.status = .issuing ∧ l.ctx.dleft = 0 ∧ !l.ctx.endTest ∧ decodeFault l1.ctx i = none ∧
          !(noDeadline i && condHolds l1.ctx.stat (condOf i)) ∧ wouldRetire i s l1 then s.putLoc (watchdog l)
      else s
  | _ => s

/-- WATCHDOG_EXPIRY as an event. -/
def execWatchdogExpiry (cid : Nat) (s : State) : Host.Outcome State Fault Refusal := live s (effWatchdogExpiry cid s)

/-- REP as an issue of context `cur`; a WAITA among the instances reads its value as it parks. -/
def execRep (s1 : Opd) (s : State) : Host.Outcome State Fault Refusal :=
  match issueG (.rep s1) (repBody s1) s with
  | .next t => .next (waitaFirst s t)
  | r => r

end Sys2Proof.Machine
end

