-- ==== Sys2Proof/Machine/Dispatch.lean ====
section
/-! DEFINITION. One arm per row of spec/opcode_table.json: a direct call of its meaning. -/
namespace Sys2Proof.Machine
open Sys2Proof

/-- What each step does (spec/opcode_table.json). -/
def exec (i : Instr) (s : State) : Host.Outcome State Fault Refusal :=
  match i with
  | .nop => Sys2Proof.Machine.execNop s
  | .fmt fw => Sys2Proof.Machine.execFmt fw s
  | .mov v c d s1 => Sys2Proof.Machine.execMov v c d s1 s
  | .movi v c d imm => Sys2Proof.Machine.execMovi v c d imm s
  | .movhi c d imm => Sys2Proof.Machine.execMovhi c d imm s
  | .lea v c d s1 => Sys2Proof.Machine.execLea v c d s1 s
  | .add v c d s1 s2 => Sys2Proof.Machine.execAdd v c d s1 s2 s
  | .sub v c d s1 s2 => Sys2Proof.Machine.execSub v c d s1 s2 s
  | .adc v c d s1 s2 => Sys2Proof.Machine.execAdc v c d s1 s2 s
  | .sbc v c d s1 s2 => Sys2Proof.Machine.execSbc v c d s1 s2 s
  | .mul v c d s1 s2 => Sys2Proof.Machine.execMul v c d s1 s2 s
  | .mulh v c u d s1 s2 => Sys2Proof.Machine.execMulh v c u d s1 s2 s
  | .div v c u d s1 s2 => Sys2Proof.Machine.execDiv v c u d s1 s2 s
  | .rem v c u d s1 s2 => Sys2Proof.Machine.execRem v c u d s1 s2 s
  | .and v c d s1 s2 => Sys2Proof.Machine.execAnd v c d s1 s2 s
  | .or v c d s1 s2 => Sys2Proof.Machine.execOr v c d s1 s2 s
  | .xor v c d s1 s2 => Sys2Proof.Machine.execXor v c d s1 s2 s
  | .andn v c d s1 s2 => Sys2Proof.Machine.execAndn v c d s1 s2 s
  | .shl v c d s1 s2 => Sys2Proof.Machine.execShl v c d s1 s2 s
  | .shr v c d s1 s2 => Sys2Proof.Machine.execShr v c d s1 s2 s
  | .sar v c d s1 s2 => Sys2Proof.Machine.execSar v c d s1 s2 s
  | .rol v c d s1 s2 => Sys2Proof.Machine.execRol v c d s1 s2 s
  | .clz v c d s1 => Sys2Proof.Machine.execClz v c d s1 s
  | .ctz v c d s1 => Sys2Proof.Machine.execCtz v c d s1 s
  | .popc v c d s1 => Sys2Proof.Machine.execPopc v c d s1 s
  | .cmp v c s1 s2 => Sys2Proof.Machine.execCmp v c s1 s2 s
  | .tst v c s1 s2 => Sys2Proof.Machine.execTst v c s1 s2 s
  | .min v c u d s1 s2 => Sys2Proof.Machine.execMin v c u d s1 s2 s
  | .max v c u d s1 s2 => Sys2Proof.Machine.execMax v c u d s1 s2 s
  | .sel v c d s1 s2 cond => Sys2Proof.Machine.execSel v c d s1 s2 cond s
  | .ext v c d s1 sgn len pos => Sys2Proof.Machine.execExt v c d s1 sgn len pos s
  | .ins v c d s1 len pos => Sys2Proof.Machine.execIns v c d s1 len pos s
  | .spc c d s1 s2 => Sys2Proof.Machine.execSpc c d s1 s2 s
  | .vadd v c d s1 s2 => Sys2Proof.Machine.execVadd v c d s1 s2 s
  | .vsub v c d s1 s2 => Sys2Proof.Machine.execVsub v c d s1 s2 s
  | .vadds v c u d s1 s2 => Sys2Proof.Machine.execVadds v c u d s1 s2 s
  | .vsubs v c u d s1 s2 => Sys2Proof.Machine.execVsubs v c u d s1 s2 s
  | .vmul v c d s1 s2 => Sys2Proof.Machine.execVmul v c d s1 s2 s
  | .vmulh v c u d s1 s2 => Sys2Proof.Machine.execVmulh v c u d s1 s2 s
  | .vmac v c d s1 s2 => Sys2Proof.Machine.execVmac v c d s1 s2 s
  | .vdot c u d s1 s2 => Sys2Proof.Machine.execVdot c u d s1 s2 s
  | .vmin v c u d s1 s2 => Sys2Proof.Machine.execVmin v c u d s1 s2 s
  | .vmax v c u d s1 s2 => Sys2Proof.Machine.execVmax v c u d s1 s2 s
  | .vabs v c d s1 => Sys2Proof.Machine.execVabs v c d s1 s
  | .vneg v c d s1 => Sys2Proof.Machine.execVneg v c d s1 s
  | .vand v c d s1 s2 => Sys2Proof.Machine.execVand v c d s1 s2 s
  | .vor v c d s1 s2 => Sys2Proof.Machine.execVor v c d s1 s2 s
  | .vxor v c d s1 s2 => Sys2Proof.Machine.execVxor v c d s1 s2 s
  | .vshl v c d s1 s2 => Sys2Proof.Machine.execVshl v c d s1 s2 s
  | .vshr v c d s1 s2 => Sys2Proof.Machine.execVshr v c d s1 s2 s
  | .vsar v c d s1 s2 => Sys2Proof.Machine.execVsar v c d s1 s2 s
  | .vcmp v c d s1 s2 cond => Sys2Proof.Machine.execVcmp v c d s1 s2 cond s
  | .vsel v c d s1 s2 x => Sys2Proof.Machine.execVsel v c d s1 s2 x s
  | .vshuf v c d s1 s2 => Sys2Proof.Machine.execVshuf v c d s1 s2 s
  | .vbcast v c d s1 lane => Sys2Proof.Machine.execVbcast v c d s1 lane s
  | .vred v c d s1 op => Sys2Proof.Machine.execVred v c d s1 op s
  | .vcvt v c d s1 => Sys2Proof.Machine.execVcvt v c d s1 s
  | .vnarr v c u d s1 s2 => Sys2Proof.Machine.execVnarr v c u d s1 s2 s
  | .vwide v c u hi d s1 => Sys2Proof.Machine.execVwide v c u hi d s1 s
  | .vfadd v c d s1 s2 => Sys2Proof.Machine.execVfadd v c d s1 s2 s
  | .vfsub v c d s1 s2 => Sys2Proof.Machine.execVfsub v c d s1 s2 s
  | .vfmul v c d s1 s2 => Sys2Proof.Machine.execVfmul v c d s1 s2 s
  | .vfma v c np na d s1 s2 => Sys2Proof.Machine.execVfma v c np na d s1 s2 s
  | .vfdiv v c d s1 s2 => Sys2Proof.Machine.execVfdiv v c d s1 s2 s
  | .vfsqrt v c d s1 => Sys2Proof.Machine.execVfsqrt v c d s1 s
  | .vfmin v c d s1 s2 => Sys2Proof.Machine.execVfmin v c d s1 s2 s
  | .vfmax v c d s1 s2 => Sys2Proof.Machine.execVfmax v c d s1 s2 s
  | .vfcmp v c d s1 s2 cond => Sys2Proof.Machine.execVfcmp v c d s1 s2 cond s
  | .vfrcp v c d s1 => Sys2Proof.Machine.execVfrcp v c d s1 s
  | .vfrsq v c d s1 => Sys2Proof.Machine.execVfrsq v c d s1 s
  | .vfexp2 v c d s1 => Sys2Proof.Machine.execVfexp2 v c d s1 s
  | .vflog2 v c d s1 => Sys2Proof.Machine.execVflog2 v c d s1 s
  | .vfrnd v c d s1 => Sys2Proof.Machine.execVfrnd v c d s1 s
  | .vfcls v c d s1 => Sys2Proof.Machine.execVfcls v c d s1 s
  | .pack v c u wc k idx d s1 => Sys2Proof.Machine.execPack v c u wc k idx d s1 s
  | .extr v c u cq fen k idx d s1 => Sys2Proof.Machine.execExtr v c u cq fen k idx d s1 s
  | .pmul v c u fen wc k d s1 s2 => Sys2Proof.Machine.execPmul v c u fen wc k d s1 s2 s
  | .gchk c u wc k d s1 => Sys2Proof.Machine.execGchk c u wc k d s1 s
  | .bprd v c d s1 s2 x => Sys2Proof.Machine.execBprd v c d s1 s2 x s
  | .bpwr v c d s1 s2 x => Sys2Proof.Machine.execBpwr v c d s1 s2 x s
  | .scale v c d s1 s2 => Sys2Proof.Machine.execScale v c d s1 s2 s
  | .bexp v c d s1 s2 => Sys2Proof.Machine.execBexp v c d s1 s2 s
  | .br c off lnk => Sys2Proof.Machine.execBr c off lnk s
  | .call c off lnk => Sys2Proof.Machine.execCall c off lnk s
  | .jmp c s1 => Sys2Proof.Machine.execJmp c s1 s
  | .jmpl c d s1 => Sys2Proof.Machine.execJmpl c d s1 s
  | .loop cnt off => Sys2Proof.Machine.execLoop cnt off s
  | .loopEndTest cid => Sys2Proof.Machine.execLoopEndTest cid s
  | .rep s1 => Sys2Proof.Machine.execRep s1 s
  | .endF c => Sys2Proof.Machine.execEndF c s
  | .yield c live dl => Sys2Proof.Machine.execYield c live dl s
  | .watchdogExpiry cid => Sys2Proof.Machine.execWatchdogExpiry cid s
  | .wait c ceil => Sys2Proof.Machine.execWait c ceil s
  | .send c s1 s2 rch => Sys2Proof.Machine.execSend c s1 s2 rch s
  | .sendn c s1 dch dir => Sys2Proof.Machine.execSendn c s1 dch dir s
  | .recv c d s1 => Sys2Proof.Machine.execRecv c d s1 s
  | .chst c d s1 => Sys2Proof.Machine.execChst c d s1 s
  | .bind c s1 s2 => Sys2Proof.Machine.execBind c s1 s2 s
  | .unbind c s1 => Sys2Proof.Machine.execUnbind c s1 s
  | .prio c s1 s2 => Sys2Proof.Machine.execPrio c s1 s2 s
  | .rfork c d s1 s2 x => Sys2Proof.Machine.execRfork c d s1 s2 x s
  | .join c d s1 => Sys2Proof.Machine.execJoin c d s1 s
  | .trig c => Sys2Proof.Machine.execTrig c s
  | .chkerr c d kill => Sys2Proof.Machine.execChkerr c d kill s
  | .seal c d num wt => Sys2Proof.Machine.execSeal c d num wt s
  | .drift c d => Sys2Proof.Machine.execDrift c d s
  | .trap c n => Sys2Proof.Machine.execTrap c n s
  | .rti c => Sys2Proof.Machine.execRti c s
  | .mfs c d sreg => Sys2Proof.Machine.execMfs c d sreg s
  | .mts c s1 sreg => Sys2Proof.Machine.execMts c s1 sreg s
  | .tlbi c s1 s2 ty => Sys2Proof.Machine.execTlbi c s1 s2 ty s
  | .ctxsv c s1 s2 live => Sys2Proof.Machine.execCtxsv c s1 s2 live s
  | .ctxld c s1 s2 => Sys2Proof.Machine.execCtxld c s1 s2 s
  | .idle c => Sys2Proof.Machine.execIdle c s
  | .sigh c s1 irv => Sys2Proof.Machine.execSigh c s1 irv s
  | .replay c s1 s2 => Sys2Proof.Machine.execReplay c s1 s2 s
  | .killf c s1 drop => Sys2Proof.Machine.execKillf c s1 drop s
  | .place c s1 s2 => Sys2Proof.Machine.execPlace c s1 s2 s
  | .ld v c u d s1 => Sys2Proof.Machine.execLd v c u d s1 s
  | .loadDataArrival cid k => Sys2Proof.Machine.execLoadDataArrival cid k s
  | .st v c irv o sc d s1 => Sys2Proof.Machine.execSt v c irv o sc d s1 s
  | .storePerformed cid k => Sys2Proof.Machine.execStorePerformed cid k s
  | .lda v c u o sc d s1 => Sys2Proof.Machine.execLda v c u o sc d s1 s
  | .stl v c o sc d s1 => Sys2Proof.Machine.execStl v c o sc d s1 s
  | .bmov v c d s1 s2 => Sys2Proof.Machine.execBmov v c d s1 s2 s
  | .pref c s1 nl llc => Sys2Proof.Machine.execPref c s1 nl llc s
  | .aadd v c nz o sc d s1 s2 => Sys2Proof.Machine.execAadd v c nz o sc d s1 s2 s
  | .aand v c o sc d s1 s2 => Sys2Proof.Machine.execAand v c o sc d s1 s2 s
  | .aor v c o sc d s1 s2 => Sys2Proof.Machine.execAor v c o sc d s1 s2 s
  | .axor v c o sc d s1 s2 => Sys2Proof.Machine.execAxor v c o sc d s1 s2 s
  | .amin v c u o sc d s1 s2 => Sys2Proof.Machine.execAmin v c u o sc d s1 s2 s
  | .amax v c u o sc d s1 s2 => Sys2Proof.Machine.execAmax v c u o sc d s1 s2 s
  | .aswp v c o sc d s1 s2 => Sys2Proof.Machine.execAswp v c o sc d s1 s2 s
  | .acas v c o sc d s1 s2 => Sys2Proof.Machine.execAcas v c o sc d s1 s2 s
  | .atomicPerformed cid => Sys2Proof.Machine.execAtomicPerformed cid s
  | .notifyRetry k => Sys2Proof.Machine.execNotifyRetry k s
  | .waita v c tmo o sc d s1 s2 => Sys2Proof.Machine.execWaita v c tmo o sc d s1 s2 s
  | .waitaWake cid => Sys2Proof.Machine.execWaitaWake cid s
  | .waitaTimeout cid => Sys2Proof.Machine.execWaitaTimeout cid s
  | .waitaReread cid => Sys2Proof.Machine.execWaitaReread cid s
  | .fence c o sc => Sys2Proof.Machine.execFence c o sc s
  | .rst c u op wid p s1 => Sys2Proof.Machine.execRst c u op wid p s1 s
  | .rstPerform cid k => Sys2Proof.Machine.execRstPerform cid k s
  | .l1inv c s1 all => Sys2Proof.Machine.execL1inv c s1 all s
  | .copy c q pa pb ntf irv dist comb => Sys2Proof.Machine.execCopy c q pa pb ntf irv dist comb s
  | .copyt c q pa pb s1 irv dist comb => Sys2Proof.Machine.execCopyt c q pa pb s1 irv dist comb s
  | .tcfg c pa => Sys2Proof.Machine.execTcfg c pa s
  | .trel c => Sys2Proof.Machine.execTrel c s
  | .tldb c pa s1 bank af => Sys2Proof.Machine.execTldb c pa s1 bank af s
  | .tmul c pa s1 bank half arow cb drn acc => Sys2Proof.Machine.execTmul c pa s1 bank half arow cb drn acc s
  | .tpoly c pa pb s1 half arow drn k u mode => Sys2Proof.Machine.execTpoly c pa pb s1 half arow drn k u mode s
  | .tdrn c s1 clr nrow frow => Sys2Proof.Machine.execTdrn c s1 clr nrow frow s
  | .qfence c mask => Sys2Proof.Machine.execQfence c mask s
  | .dist c s1 => Sys2Proof.Machine.execDist c s1 s
  | .copyEngineTransfer e n => Sys2Proof.Machine.execCopyEngineTransfer e n s
  | .copyCompletion e => Sys2Proof.Machine.execCopyCompletion e s
  | .combineGroupClose c g => Sys2Proof.Machine.execCombineGroupClose c g s
  | .copytImageEnqueue e => Sys2Proof.Machine.execCopytImageEnqueue e s
  | .tldbExecute sect => Sys2Proof.Machine.execTldbExecute sect s
  | .tmulExecute sect => Sys2Proof.Machine.execTmulExecute sect s
  | .tpolyExecute sect => Sys2Proof.Machine.execTpolyExecute sect s
  | .drainRow sect => Sys2Proof.Machine.execDrainRow sect s
  | .tokenArrival k => Sys2Proof.Machine.execTokenArrival k s
  | .creditReturn k => Sys2Proof.Machine.execCreditReturn k s
  | .hubTokenResend k => Sys2Proof.Machine.execHubTokenResend k s
  | .firingSelection core => Sys2Proof.Machine.execFiringSelection core s
  | .chunkDeal k => Sys2Proof.Machine.execChunkDeal k s
  | .firingKill cid => Sys2Proof.Machine.execFiringKill cid s
  | .firingEndOnFault cid => Sys2Proof.Machine.execFiringEndOnFault cid s
  | .faultRecordResend k => Sys2Proof.Machine.execFaultRecordResend k s
  | .pageWalk w => Sys2Proof.Machine.execPageWalk w s
  | .atsCompletion k ans => Sys2Proof.Machine.execAtsCompletion k ans s
  | .priSuccess cam => Sys2Proof.Machine.execPriSuccess cam s
  | .priInvalidRequest cam => Sys2Proof.Machine.execPriInvalidRequest cam s
  | .priResponseFailure cam => Sys2Proof.Machine.execPriResponseFailure cam s
  | .atsInvalidationRequest pasid va len => Sys2Proof.Machine.execAtsInvalidationRequest pasid va len s
  | .externalEvent src data => Sys2Proof.Machine.execExternalEvent src data s
  | .irtEscalation k => Sys2Proof.Machine.execIrtEscalation k s
  | .doorbell q => Sys2Proof.Machine.execDoorbell q s
  | .queueEnable q => Sys2Proof.Machine.execQueueEnable q s
  | .launchRecord q => Sys2Proof.Machine.execLaunchRecord q s
  | .launchStart lslot pl => Sys2Proof.Machine.execLaunchStart lslot pl s
  | .launchCompletion lslot => Sys2Proof.Machine.execLaunchCompletion lslot s
  | .signalRecord k => Sys2Proof.Machine.execSignalRecord k s
  | .waitvRecord k => Sys2Proof.Machine.execWaitvRecord k s
  | .waitvTimeout k => Sys2Proof.Machine.execWaitvTimeout k s
  | .barrierRecord q => Sys2Proof.Machine.execBarrierRecord q s
  | .copyqRecord k => Sys2Proof.Machine.execCopyqRecord k s
  | .nopRecord q => Sys2Proof.Machine.execNopRecord q s
  | .schedulerDecision gs => Sys2Proof.Machine.execSchedulerDecision gs s
  | .schedulerTick => Sys2Proof.Machine.execSchedulerTick s
  | .quantumExpiry c => Sys2Proof.Machine.execQuantumExpiry c s
  | .parkNotice cid => Sys2Proof.Machine.execParkNotice cid s
  | .rtPeriodStart slot => Sys2Proof.Machine.execRtPeriodStart slot s
  | .clusterOwnerChange c slot => Sys2Proof.Machine.execClusterOwnerChange c slot s
  | .thermalLimitChange d tlim => Sys2Proof.Machine.execThermalLimitChange d tlim s
  | .sealStart => Sys2Proof.Machine.execSealStart s
  | .driftAck a => Sys2Proof.Machine.execDriftAck a s
  | .sealCommit => Sys2Proof.Machine.execSealCommit s
  | .sweepComplete => Sys2Proof.Machine.execSweepComplete s
  | .sealTimer => Sys2Proof.Machine.execSealTimer s
  | .rollback => Sys2Proof.Machine.execRollback s
  | .checkerMismatch cid again => Sys2Proof.Machine.execCheckerMismatch cid again s
  | .spareTakeover core => Sys2Proof.Machine.execSpareTakeover core s
  | .scrubRead gran find => Sys2Proof.Machine.execScrubRead gran find s
  | .lineFetch cid find => Sys2Proof.Machine.execLineFetch cid find s
  | .hostRead addr n => Sys2Proof.Machine.execHostRead addr n s
  | .hostReadOwnership line dirty => Sys2Proof.Machine.execHostReadOwnership line dirty s
  | .hostWrite addr bytes => Sys2Proof.Machine.execHostWrite addr bytes s
  | .hostWriteback line bytes => Sys2Proof.Machine.execHostWriteback line bytes s
  | .snpInv line dirty => Sys2Proof.Machine.execSnpInv line dirty s
  | .snpData line => Sys2Proof.Machine.execSnpData line s
  | .snpCur line => Sys2Proof.Machine.execSnpCur line s
  | .sliceLeave sect => Sys2Proof.Machine.execSliceLeave sect s
  | .sliceReturn sect => Sys2Proof.Machine.execSliceReturn sect s
  | .nvmeMsi port data => Sys2Proof.Machine.execNvmeMsi port data s
  | .nvmeInboundRead port addr n => Sys2Proof.Machine.execNvmeInboundRead port addr n s
  | .nvmeInboundWrite port addr bytes => Sys2Proof.Machine.execNvmeInboundWrite port addr bytes s
  | .netReceive conn bytes ack => Sys2Proof.Machine.execNetReceive conn bytes ack s
  | .netTransmit conn => Sys2Proof.Machine.execNetTransmit conn s
  | .ethernetLinkChange port up => Sys2Proof.Machine.execEthernetLinkChange port up s
  | .holdEntry => Sys2Proof.Machine.execHoldEntry s
  | .powerOff => Sys2Proof.Machine.execPowerOff s
  | .supplyLoss => Sys2Proof.Machine.execSupplyLoss s
  | .wakeFrame mac etype frame => Sys2Proof.Machine.execWakeFrame mac etype frame s
  | .wakeTimer => Sys2Proof.Machine.execWakeTimer s
  | .hostWake => Sys2Proof.Machine.execHostWake s
  | .coldBoot found => Sys2Proof.Machine.execColdBoot found s
  | .debugUnlock token => Sys2Proof.Machine.execDebugUnlock token s
  | .pbudCapWrite d val => Sys2Proof.Machine.execPbudCapWrite d val s
  | .rtsWrite slot val => Sys2Proof.Machine.execRtsWrite slot val s
  | .swpcfgWrite val => Sys2Proof.Machine.execSwpcfgWrite val s
  | .cwcfgWrite val => Sys2Proof.Machine.execCwcfgWrite val s
  | .sealcfgReq val => Sys2Proof.Machine.execSealcfgReq val s
  | .datcfgSync d val => Sys2Proof.Machine.execDatcfgSync d val s
  | .errinjGo val => Sys2Proof.Machine.execErrinjGo val s
  | .irtWrite off val => Sys2Proof.Machine.execIrtWrite off val s
  | .registerWrite host off size val => Sys2Proof.Machine.execRegisterWrite host off size val s
  | .undefinedOpcode opc => Sys2Proof.Machine.execUndefinedOpcode opc s
  | .queueDisable q => Sys2Proof.Machine.execQueueDisable q s
  | .priReenable alloc => Sys2Proof.Machine.execPriReenable alloc s
  | .hostPortLinkTraining up => Sys2Proof.Machine.execHostPortLinkTraining up s

end Sys2Proof.Machine
end

