-- ==== Sys2Proof/Machine/Own.lean ====
section
/-! DEFINITION. What a unit of the device, or the host, does at a moment of its own: prefetched lines that arrive, directory evictions, early
operand reads of the LMU, windbreak buffers, uncorrectable errors, the host's reads by physical address, by BAR0 and of the DVSEC, and the debug port's
(R104, R254, R326, R331, R345, R363, R398, R402, R409, R423, R428, R430, R431, R458, R463, R464). -/
namespace Sys2Proof.Machine
open Sys2Proof

/-! ## Uncorrectable errors (R345) -/

/-- A 16-byte word of W, X, Y or S is poisoned (R345). -/
def upsetWord (core sp w : Nat) (s : State) : State :=
  if bufSize sp ≤ 16 * w then s
  else if sp = 4 then
    let u := mget emptyCluster s.clus (clusOfCore core)
    { s with clus := mset emptyCluster s.clus (clusOfCore core) { u with spois := mset false u.spois w true } }
  else
    let k := coreAt s core
    putCore s core { k with pois := mset false k.pois (poisKey sp w) true }

/-- A token's slot is poisoned: popping it consumes the poison (R398). -/
def upsetSlot (core ch k : Nat) (s : State) : State :=
  let x := chanAt s core ch
  match x.toks[k]? with
  | some t => putChan s core ch { x with toks := setAt x.toks k { t with pois := true } }
  | none => s

/-- A row of the accumulator array is poisoned (R326). -/
def upsetRow (sect row : Nat) (s : State) : State :=
  if row < 192 then modSect s sect (fun q => { q with rpois := mset false q.rpois row true }) else s

/-- A stationary bank is poisoned (R345). -/
def upsetBank (sect : Nat) (second : Bool) (s : State) : State :=
  modSect s sect (fun q =>
    if second then { q with bank1 := { q.bank1 with pois := q.bank1.pois || q.bank1.loaded } }
    else { q with bank0 := { q.bank0 with pois := q.bank0.pois || q.bank0.loaded } })

/-- A line of a slice is poisoned (R345). -/
def upsetLine (line : Nat) (s : State) : State :=
  if (lineInfo s line).st = .i then s else { s with grans := mset cleanGran s.grans line { mget cleanGran s.grans line with pois := true } }

/-- A granule of LPDDR-6 is uncorrectable (R345, R394): what is read from memory is poisoned. A line that its slice holds is not read there. -/
def upsetGran (g : Nat) (s : State) : State :=
  if 2 ^ 33 ≤ g ∨ (lineInfo s g).st ≠ .i then s
  else { s with grans := mset cleanGran s.grans g { mget cleanGran s.grans g with pois := true } }

/-- A windbreak entry is uncorrectable (R423). -/
def upsetEntry (ch k : Nat) (s : State) : State :=
  let es := mget [] s.hub.wb ch
  match es[k]? with
  | some w => { s with hub := { s.hub with wb := mset [] s.hub.wb ch (setAt es k { w with bad := true }) } }
  | none => s

/-- A line of an I-cache mismatches as it is read: it is discarded, and its fetch counts as one that mismatched (R104). -/
def upsetIline (core k : Nat) (s : State) : State :=
  let c := coreAt s core
  match c.icache[k]? with
  | some e =>
      let mine := fun (b : BadLine) => b.pasid == e.pasid && b.vline == e.vline
      let n := ((c.ibad.find? mine).map (·.n)).getD 0
      putCore s core { c with icache := dropAt c.icache k
                              ibad := { pasid := e.pasid, vline := e.vline, n := n + 1 } :: c.ibad.filter (fun b => !mine b) }
  | none => s

/-- An uncorrectable error is found (R104, R345, R402, R423; log entry 96). -/
def upset (u : Upset) (s : State) : State :=
  match u with
  | .iline core k => upsetIline core k s
  | .dline core k => let c := coreAt s core; putCore s core { c with dcache := dropAt c.dcache k }
  | .word core sp w => upsetWord core sp w s
  | .slot core ch k => upsetSlot core ch k s
  | .accRow sect row => upsetRow sect row s
  | .bank sect second => upsetBank sect second s
  | .llc line => upsetLine line s
  | .gran g => upsetGran g s
  | .wbEntry ch k => upsetEntry ch k s
  | .tables => dueRollback s 4
  | .outbox cid => if (ctxOf s cid).outbox.isEmpty then s else dueRollback s 4
  | .journal cid =>
      (match (ctxOf s cid).status with
       | .killing .. => if (ctxOf s cid).journal.isEmpty then s else dueRollback s 4
       | _ => s)

/-! ## The host's reads (R428, R430, R431) -/

/-- The device address of a host physical address in the HDM range (R430). -/
def hdmAddr (s : State) (hpa : Nat) : Option Nat := if s.hub.hdm ≤ hpa ∧ hpa < s.hub.hdm + 2 ^ 39 then some (hpa - s.hub.hdm) else none

/-- What a host read through BAR0 returns (R431, R464): all ones for a bad access, 0 for a register closed to the host, and after a boot that
stopped ISLST alone. -/
def barValue (s : State) (off n : Nat) : Word :=
  let b := off / 8 * 8
  if (n ≠ 4 ∧ n ≠ 8) ∨ off % n ≠ 0 ∨ 2 ^ 24 < off + n then BitVec.allOnes 64
  else if b = 0x7010 ∨ (s.hub.power = .bootStopped ∧ b ≠ 0x7018) then 0
  else BitVec.ofNat 64 (regRead s off n)

/-- A host read through BAR0, which a device without power does not answer. -/
def barRead (off n : Nat) (s : State) : State :=
  if s.hub.up ∨ s.hub.power = .bootStopped then emit s (.barData off (barValue s off n)) else s

/-- The debug port reads ISLST, whether access is locked or not (R463, R464); without power it answers nothing. -/
def debugStatus (s : State) : State := if s.hub.power = .off then s else emit s (.debugData (regWord s 0x7018))

/-- The test access port reads IDCODE, or scans the pins (R463); without power it answers nothing. -/
def tapRead (s : State) (v : Word) : State := if s.hub.power = .off then s else { emit s (.debugData v) with tick := s.tick + 1 }

/-- A byte of LPDDR-6 changes in self-refresh without being detected (R458 step 3; log entry 77). -/
def decay (a : Nat) (b : Byte) (s : State) : State :=
  if s.hub.power = .hold ∧ isRam a then { s with mem := ramPut s.mem a [b] } else s

/-- The number of host-port modules in use, which the CXL DVSEC gives (R428). -/
def modulesUsed (h : Hub) : Nat := ((upto 4).filter (fun i => h.modules.getLsbD i)).length

/-- The moves that the opcode table has no event for (log entry 21). -/
def ownMove (m : OwnMove) (s : State) : State :=
  match m with
  | .fill core k => fillMove core k s
  | .unlist line => unlistLine s line
  | .latch sect sp w => effLatch sect sp w s
  | .spill ch => spillEntry s ch
  | .upset u => upset u s
  | .hdm base => { s with hub := { s.hub with hdm := base } }
  | .hpaRead hpa n => (match hdmAddr s hpa with | some a => effHostRead a n s | none => s)
  | .hpaWrite hpa bs => (match hdmAddr s hpa with | some a => effHostWrite a bs s | none => s)
  | .barRead off n => barRead off n s
  | .dvsec => if ioUp s.hub then emit s (.dvsec (modulesUsed s.hub)) else s
  | .debugStatus => debugStatus s
  | .idcode => tapRead s (Config.idcode.setWidth 64)
  | .scan => tapRead s (Config.pinScan s.tick)
  | .debugRead p => if debugOpen s.hub then emit s (.debugData (debugValue s p)) else s
  | .debugWrite p v => if debugOpen s.hub then debugPut s v p else s
  | .decay a b => decay a b s
  | .find f => { s with hub := { s.hub with find := f } }
  | .macFrame => macDeliver s

/-- A move of a unit's own: as an event, but for those that a device in Hold, or after a boot that stopped, makes too (R458, R463, R464). -/
def ownStep (m : OwnMove) (s : State) : Host.Outcome State Fault Refusal :=
  match m with
  | .barRead .. | .debugStatus | .dvsec | .idcode | .scan | .decay .. | .find _ => .next (ownMove m s)
  | _ => live s (ownMove m s)

end Sys2Proof.Machine
end

