-- ==== Sys2Proof/Machine/Step.lean ====
section
/-! DEFINITION. One step of the machine: the next move of the agenda, or with an empty agenda the issue of context `cur`. -/
namespace Sys2Proof.Machine
open Sys2Proof

/-- Context `cur` issues: its next instruction is fetched and run. -/
def stepIssue (s : State) : Host.Outcome State Fault Refusal :=
  if s.hub.power = .off ∨ s.hub.power = .bootStopped then .fault .notPowered
  else if s.hub.power = .hold then .next s
  else
    match fetchNext (s.loc s.cur) with
    | .run l i => exec i (s.putLoc l)
    | .done l => .next (wholeStep s (sendRecs (s.putLoc l)))
    | .idle => .next s

/-- One step. A move says how many cclk pass before it. An instruction is issued from memory only, never as an event. -/
def step (s : State) : Host.Outcome State Fault Refusal :=
  match s.agenda with
  | [] => stepIssue s
  | .issue dt cid :: rest => stepIssue { s with agenda := rest, now := s.now + dt, cur := cid }
  | .event dt i :: rest =>
      if isWord i then .next { s with agenda := rest, now := s.now + dt } else exec i { s with agenda := rest, now := s.now + dt }
  | .evict dt line :: rest =>
      let s1 := { s with agenda := rest, now := s.now + dt }
      live s1 (evictLine s1 line)
  | .own dt m :: rest => ownStep m { s with agenda := rest, now := s.now + dt }

/-- `s` with the instruction whose bits are `w` where the step fetches next. -/
def State.withFetchWord (s : State) (nbits w : Nat) : State := placeWord s (BitVec.ofNat 96 (w % 2 ^ nbits))

end Sys2Proof.Machine
end

