-- ==== Sys2Proof/Safety.lean ====
section
/-! DEFINITION. What claims are made in: when an instruction is carried out, what its retirement leaves, what it may not change. -/
namespace Sys2Proof.Machine
open Sys2Proof

/-- The view of the context that issues. -/
abbrev State.here (s : State) : Loc := s.loc s.cur

/-- Context `cur` carries out `i` if its operands let it: the units run, the context issues, `i` breaks no decode rule (R134), its
predicate holds (R114), and the deadline leaves a retirement or `i` is exempt from it (R206). -/
def goes (s : State) (i : Instr) : Bool :=
  s.hub.up && s.here.ctx.status == .issuing && decodeFault s.here.ctx i == none && condHolds s.here.ctx.stat (condOf i)
    && (noDeadline i || s.here.ctx.dleft != 0)

/-- The state in which context `cur` has retired an instruction with the view `l`. -/
def State.retired (s : State) (l : Loc) : State := s.putLoc (retire l)

/-- The operands of `i` are readable and its destination can be written; `g` is what they give (R81, R87). -/
def reads (s : State) (v : View) (i : Instr) (g : Args) : Prop := fetchArgs s.here v 0 (shape i) = .ok g

/-- As `reads`, with the rounding of immediates that the format word or STAT asks for (R144). -/
def readsFor (s : State) (v : View) (i : Instr) (g : Args) : Prop := fetchArgs s.here v (envOf s.here.ctx i).rm (shape i) = .ok g

/-- The view after a compute instruction with operands `g` and result `o`: poison consumed, pointers updated and tokens popped, flags
written, D written last (R87). -/
def Loc.result (l : Loc) (i : Instr) (g : Args) (o : Out) : Loc := ((l.take (shape i) g).flags o.flags).writeOut (shape i) g.dst o g.pois

/-- `i` computes `f` of its environment and operands: whenever it is carried out with readable operands, it retires with that result. -/
def Computes (i : Instr) (v : View) (f : Env → Args → Out) : Prop :=
  ∀ s g, goes s i → readsFor s v i g → exec i s = .next (s.retired (s.here.result i g (f (envOf s.here.ctx i) g)))

/-- A result in one lane per index, with nothing else changed (R166). -/
def byLane (v : View) (f : Nat → Nat) : Out := outQ (ofLanes (View.lw v) f)

/-- The Porwen instructions whose effect stays in the view of the context: all but the ones that reach a launch, another context, the
sector's queue, a translation structure or a line of another unit. -/
def ownEffect (i : Instr) : Bool :=
  isWord i && (match i with
    | .pref .. | .tlbi .. | .ctxsv .. | .ctxld .. | .replay .. | .killf .. | .place .. | .endF .. | .join .. | .idle .. | .yield ..
    | .chst .. | .chkerr .. | .tcfg .. | .trel .. | .tldb .. | .tmul .. | .tpoly .. | .tdrn .. | .waita .. | .trap .. | .rep .. => false
    | _ => true)

/-- The instructions of classes I and V (R123): arithmetic, logic, vectors, conversions, long multiplication. -/
def computes (i : Instr) : Bool := match classOf i with | .i | .v => true | _ => false

/-- Context k of a state. -/
abbrev State.ctx (s : State) (k : Nat) : Ctx := mget emptyCtx s.ctxs k

/-- Everything about one context but whether it waits is as before: another context's write to S may wake it (R258). -/
def Ctx.alike (a b : Ctx) : Prop := { a with status := b.status } = b

/-- Everything outside contexts, cores, clusters, sectors, domains and the hub is as before. -/
def State.outsideAlike (s t : State) : Prop :=
  t.mem = s.mem ∧ t.grans = s.grans ∧ t.lines = s.lines ∧ t.hostCache = s.hostCache ∧ t.agenda = s.agenda ∧ t.now = s.now ∧ t.cur = s.cur

/-- A pointer to n bytes that lie in W, X, Y or S, aligned as R81 asks. -/
def inBuffer (ptr : Word) (n align : Nat) : Prop :=
  1 ≤ spaceOf ptr ∧ spaceOf ptr ≤ 4 ∧ addrOf ptr % align = 0 ∧ addrOf ptr + n ≤ bufSize (spaceOf ptr)

/-- A pointer into G, aligned, that the context's translations grant for a kind of access, outside the hub registers (R81, R245, R466). -/
def Loc.reaches (l : Loc) (ptr : Word) (align : Nat) (k : Acc) (t : Tlb) : Prop :=
  spaceOf ptr = 0 ∧ addrOf ptr % align = 0 ∧ l.tlbFind (addrOf ptr) = some t ∧ t.grants l.priv k = true ∧
    (k.writes = true → t.d = true ∨ t.quarter.isSome = true) ∧ isHub (t.keyOf (addrOf ptr)) = false

/-- n bytes of LPDDR-6 within one line that no host cache holds modified (R21, R364). -/
def State.plain (s : State) (a n : Nat) : Prop := isRam a ∧ a % 64 + n ≤ 64 ∧ mhas s.hostCache (a / 64) = false

/-- Whether an address lies in the windbreak region of the channel of `pa`, to which the log of a tracked write may spill (R409). -/
def inLog (h : Hub) (pa a : Nat) : Prop :=
  let b := wbBaseOf h (channelOf pa / 4) + channelOf pa % 4 * 0x10000000
  b ≤ a ∧ a < b + 0x10000000

/-- A write of a context stamped e to `pa` meets no full windbreak region and no write that waits for one (R411). -/
def State.logs (s : State) (pa : Nat) (e : BitVec 32) : Prop :=
  tracked s.hub pa → ((mget cleanGran s.grans (pa / 64)).dt = dtOf e ∨ wbRoom s.hub (channelOf pa) e = true) ∧
    s.hub.wbStall.any (fun x => x.1 == channelOf pa) = false

/-- The placement entry of an actor address names a core, and its launch has not failed: a token for it sets out (R289, R401). -/
def placed (h : Hub) (a : BitVec 32) : Bool := pst (placeWordOf h a) == 1 && (launchOf h (adSlot a)).all (fun la => !la.failed)

/-- n bytes of LPDDR-6 from `key` up that one cached translation of a context gives for a pointer, which no host cache holds modified and to which
no log of them spills (R21, R364, R409). -/
def State.window (s : State) (l : Loc) (ptr : Word) (n key : Nat) : Prop :=
  spaceOf ptr = 0 ∧ addrOf ptr + n ≤ 2 ^ 60 ∧ ∀ i < n, ((l.tlbFind (addrOf ptr + i)).map (fun t => t.keyOf (addrOf ptr + i))) = some (key + i) ∧
    isRam (key + i) ∧ mhas s.hostCache ((key + i) / 64) = false ∧ ∀ j < n, ¬ inLog s.hub (key + j) (key + i)

/-- What every byte of a place holds after n bytes from `a` up have been written with `bs`. -/
def wrote (bs : List Byte) (a : Nat) (old : Nat → Byte) (x : Nat) : Byte := if a ≤ x ∧ x < a + bs.length then bs.getD (x - a) 0 else old x

/-! ## The arithmetic of the entries, said in integers (R2, R7, R148) -/

/-- sext(x, n) (R7). -/
def signed (n x : Nat) : Int := if x % 2 ^ n < 2 ^ (n - 1) then (x % 2 ^ n : Nat) else (x % 2 ^ n : Nat) - (2 ^ n : Nat)

/-- An n-bit operand as a number: unsigned when UNS is set. -/
def number (uns : Bool) (n x : Nat) : Int := if uns then (x % 2 ^ n : Nat) else signed n x

/-- sat_s(x, n) (R7). -/
def heldS (n : Nat) (x : Int) : Int := max (-(2 ^ (n - 1) : Nat)) (min ((2 ^ (n - 1) : Nat) - 1) x)

/-- sat_z(x, n) (R7). -/
def heldZ (n : Nat) (x : Int) : Int := max 0 (min ((2 ^ n : Nat) - 1) x)

/-- The low n bits of an exact result. -/
def wrapped (n : Nat) (x : Int) : Nat := (x % (2 ^ n : Nat)).toNat

/-- N and Z of an n-bit result (R148), with what the entry says of C and V. -/
def flagsOf (n r : Nat) (c v : Option Bool) : FlagUp :=
  { n := some (decide (2 ^ (n - 1) ≤ r)), z := some (decide (r = 0)), c := c, v := v, go := none, fps := 0 }

/-- An n-bit scalar result with its flags. -/
def scalarOut (n : Nat) (x : Int) (c v : Option Bool) (uns : Bool) : Out :=
  { r := BitVec.ofNat 128 (wrapped n x), flags := flagsOf n (wrapped n x) c v, uns := uns, pois := false }

/-- A value that an instruction writes without touching a flag. -/
def plainOut (r : Nat) (uns : Bool) : Out := { r := BitVec.ofNat 128 r, flags := noFlags, uns := uns, pois := false }

/-- The value whose lanes of width w are given, lane 0 lowest (R76). -/
def lanesOut (w : Nat) (f : Nat → Int) : Out :=
  { r := BitVec.ofNat 128 (((List.range (128 / w)).map (fun i => wrapped w (f i) * 2 ^ (w * i))).sum), flags := noFlags, uns := false
    pois := false }

/-- Lane i of a vector operand as bits. -/
def laneAt (w : Nat) (x : Src) (i : Nat) : Nat := x.val.toNat / 2 ^ (w * i) % 2 ^ w

/-- One operation on each pair of lanes, read signed or, when `uns`, unsigned (R167). -/
def eachLane (v : View) (uns : Bool) (g : Args) (f : Int → Int → Int) : Out :=
  lanesOut (View.lw v) (fun i => f (number uns (View.lw v) (laneAt (View.lw v) g.a i)) (number uns (View.lw v) (laneAt (View.lw v) g.b i)))

/-- Lanes of all ones where `f` holds, N when it holds on every lane and Z when on none (R169, R176). -/
def maskLanes (w : Nat) (f : Nat → Bool) (fps : FFlags) : Out :=
  { lanesOut w (fun i => if f i then -1 else 0) with
    flags := { noFlags with n := some (decide (∀ i < 128 / w, f i = true)), z := some (decide (∀ i < 128 / w, f i = false)), fps := fps } }

/-- Floating-point lanes with their sticky flags ORed (R41). -/
def floatLanes (w : Nat) (f : Nat → Nat × FFlags) : Out :=
  { lanesOut w (fun i => (f i).1) with
    flags := { noFlags with fps := (List.range (128 / w)).foldr (fun i t => (f i).2 ||| t) 0 } }

/-! ## Floating-point operations, said as exact arithmetic and one rounding (R38-R42, R173-R177) -/

/-- The sign of a value. -/
def FVal.below : FVal → Bool
  | .nan _ => false
  | .inf s | .zero s | .fin s _ _ => s

/-- A finite value as a multiple of 2^q. -/
def FVal.over (q : Int) : FVal → Int
  | .fin s m e => (if s then -1 else 1) * (m * 2 ^ (e - q).toNat : Nat)
  | _ => 0

/-- The NaN result of NaN operands: invalid when one of them signals (R40). -/
def nanOf (F : Fmt) (xs : List FVal) : Nat × FFlags := (F.nan, if .nan true ∈ xs then 16 else 0)

/-- Whether a value is a NaN. -/
def FVal.nan? : FVal → Bool
  | .nan _ => true
  | _ => false

/-- The rounded sum: ∞ - ∞ is invalid, and an exact zero has the sign of both operands or +, - under RD (R173). -/
def ieeeAdd (F : Fmt) (rm : Nat) (a b : FVal) : Nat × FFlags :=
  if a.nan? || b.nan? then nanOf F [a, b]
  else
    match a, b with
    | .inf s, .inf t => if s = t then (F.inf s, 0) else (F.nan, 16)
    | .inf s, _ => (F.inf s, 0)
    | _, .inf t => (F.inf t, 0)
    | _, _ =>
        let q : Int := match a, b with | .fin _ _ e, .fin _ _ f => min e f | .fin _ _ e, _ => e | _, .fin _ _ f => f | _, _ => 0
        let v := a.over q + b.over q
        if v = 0 then (F.zero (if a.below = b.below then a.below else decide (rm = 3)), 0)
        else F.round rm (decide (v < 0)) v.natAbs q false

/-- The exact product of two values that are no NaN; none for ∞ × 0. -/
def exactProduct (a b : FVal) : Option FVal :=
  let s := a.below != b.below
  match a, b with
  | .inf _, .zero _ | .zero _, .inf _ => none
  | .inf _, _ | _, .inf _ => some (.inf s)
  | .fin _ m e, .fin _ n f => some (.fin s (m * n) (e + f))
  | _, _ => some (.zero s)

/-- An exact value rounded into a format. -/
def rounded (F : Fmt) (rm : Nat) : FVal → Nat × FFlags
  | .nan g => nanOf F [.nan g]
  | .inf s => (F.inf s, 0)
  | .zero s => (F.zero s, 0)
  | .fin s m e => F.round rm s m e false

/-- The rounded product; ∞ × 0 is invalid. -/
def ieeeMul (F : Fmt) (rm : Nat) (a b : FVal) : Nat × FFlags :=
  if a.nan? || b.nan? then nanOf F [a, b] else match exactProduct a b with | some p => rounded F rm p | none => (F.nan, 16)

/-- c + a × b with one rounding; ∞ × 0 is invalid whatever c is (R174). -/
def ieeeFma (F : Fmt) (rm : Nat) (c a b : FVal) : Nat × FFlags :=
  if a.nan? || b.nan? then nanOf F [a, b, c]
  else match exactProduct a b with | some p => if c.nan? then nanOf F [c] else ieeeAdd F rm c p | none => (F.nan, 16)

/-- The rounded quotient: 0/0 and ∞/∞ are invalid, a finite number over zero divides by zero (R41, R173). The quotient of the magnitudes is
formed with more bits than the format holds, and its remainder says whether it is exact. -/
def ieeeDiv (F : Fmt) (rm : Nat) (a b : FVal) : Nat × FFlags :=
  let s := a.below != b.below
  if a.nan? || b.nan? then nanOf F [a, b]
  else
    match a, b with
    | .inf _, .inf _ | .zero _, .zero _ => (F.nan, 16)
    | .inf _, _ => (F.inf s, 0)
    | .fin .., .zero _ => (F.inf s, 8)
    | .fin _ m e, .fin _ n f =>
        let k := bitLen n + F.mb + 4
        F.round rm s (m * 2 ^ k / n) (e - f - k) (m * 2 ^ k % n != 0)
    | _, _ => (F.zero s, 0)

/-- The rounded square root: -0 stays, a negative operand is invalid (R173). -/
def ieeeSqrt (F : Fmt) (rm : Nat) (a : FVal) : Nat × FFlags :=
  match a with
  | .nan g => nanOf F [.nan g]
  | .zero s => (F.zero s, 0)
  | .inf false => (F.inf false, 0)
  | .fin false m e =>
      let k := 2 * (F.mb + 4) + (e % 2).toNat
      let r := Nat.sqrt (m * 2 ^ k)
      F.round rm false r ((e - k) / 2) (r * r != m * 2 ^ k)
  | _ => (F.nan, 16)

/-- The rounded 1/√a, with the special operands of R177. -/
def ieeeRsq (F : Fmt) (rm : Nat) (a : FVal) : Nat × FFlags :=
  match a with
  | .nan g => nanOf F [.nan g]
  | .zero s => (F.inf s, 8)
  | .inf false => (F.zero false, 0)
  | .fin false m e =>
      let k := 2 * (F.mb + 4) + bitLen m + ((bitLen m + e) % 2).toNat
      let r := Nat.sqrt (2 ^ k / m)
      F.round rm false r ((-e - k) / 2) (r * r * m != 2 ^ k)
  | _ => (F.nan, 16)

/-- The integer next to m / d that a rounding mode selects for a magnitude with a sign (R39, R46). -/
def nearInt (rm : Nat) (s : Bool) (m d : Nat) : Nat :=
  let up := match rm with
    | 0 => decide (d < 2 * (m % d)) || (decide (2 * (m % d) = d) && m / d % 2 == 1)
    | 1 => false
    | 2 => !s && decide (m % d ≠ 0)
    | _ => s && decide (m % d ≠ 0)
  m / d + (if up then 1 else 0)

/-- A value rounded to an integral value of its format (R46, R173). -/
def ieeeRnd (F : Fmt) (rm : Nat) (a : FVal) : Nat × FFlags :=
  match a with
  | .fin s m e =>
      let r := if 0 ≤ e then m * 2 ^ e.toNat else nearInt rm s m (2 ^ (-e).toNat)
      (if r = 0 then F.zero s else (F.round rm s r 0 false).1, if e < 0 ∧ m % 2 ^ (-e).toNat ≠ 0 then 1 else 0)
  | x => rounded F rm x

/-- The rounded 2^a, with the special operands of R177; 2^n of an integer n is exact before it is rounded. -/
def ieeeExp2 (F : Fmt) (rm : Nat) (a : FVal) : Nat × FFlags :=
  match a with
  | .nan g => nanOf F [.nan g]
  | .zero _ => (F.bias * 2 ^ F.mb, 0)
  | .inf s => (if s then F.zero false else F.inf false, 0)
  | .fin s m e =>
      if 0 ≤ e ∨ m % 2 ^ (-e).toNat = 0 then
        let n : Int := if 0 ≤ e then m * 2 ^ e.toNat else m / 2 ^ (-e).toNat
        F.round rm false 1 (if s then -n else n) false
      else F.exp2V rm a

/-- The rounded log2 a, with the special operands of R177; the logarithm of a power of two is an integer. -/
def ieeeLog2 (F : Fmt) (rm : Nat) (a : FVal) : Nat × FFlags :=
  match a with
  | .nan g => nanOf F [.nan g]
  | .zero _ => (F.inf true, 8)
  | .inf false => (F.inf false, 0)
  | .fin false m e =>
      if m = 2 ^ (bitLen m - 1) then
        let n : Int := e + (bitLen m - 1 : Nat)
        if n = 0 then (F.zero false, 0) else F.round rm (decide (n < 0)) n.natAbs 0 false
      else F.log2V rm a
  | _ => (F.nan, 16)

/-- Lane i of a source as a floating-point value. -/
def fpAt (v : View) (x : Src) (i : Nat) : FVal := (fmtOf v).unpack (laneAt (View.lw v) x i)

/-- One level of a pairwise reduction (R43): value i joins values 2i and 2i + 1 of the level before, and the flags raised for them. -/
def joinPairs (f : Nat → Nat → Nat × FFlags) (x : Nat → Nat × FFlags) (i : Nat) : Nat × FFlags :=
  let a := x (2 * i)
  let b := x (2 * i + 1)
  let r := f a.1 b.1
  (r.1, a.2 ||| b.2 ||| r.2)

/-- The pairwise reduction of the lanes of a floating-point view: 8 lanes of bf, 4 of f, 2 of g (R43, R171). -/
def joinLanes (v : View) (f : Nat → Nat → Nat × FFlags) (x : Src) : Nat × FFlags :=
  let l0 : Nat → Nat × FFlags := fun i => (laneAt (View.lw v) x i, 0)
  match v with
  | .bf => joinPairs f (joinPairs f (joinPairs f l0)) 0
  | .f => joinPairs f (joinPairs f l0) 0
  | _ => joinPairs f l0 0

/-- The digit of weight d of a product of two digit lists (R183). -/
def convolution (as bs : List Int) (d : Nat) : Int := ((List.range (d + 1)).map (fun i => as.getD i 0 * bs.getD (d - i) 0)).sum

end Sys2Proof.Machine
end

