-- ==== Sys2Proof/Certificates/Slice0/Obligations.lean ====
section
/-! DEFINITION. The statements for the provers. -/
open Sys2Proof Sys2Proof.Machine

/-- R158, R164. ADD, ADC, SUB, SBC and CMP: the sum or difference of the operands at the width of the view, modulo 2^n or saturated
under SAT; N and Z from the result, C the carry or the absence of a borrow, V a signed result out of range. CMP writes no destination. -/
def Obligations.AddAndSubtractResults : Prop :=
  ∀ (v : View) (c : Cond) (d s1 s2 : Opd),
    let n := View.lw v
    Computes (.add v c d s1 s2) v (fun e g =>
      let a := g.a.val.toNat
      let b := g.b.val.toNat
      let s := signed n a + signed n b
      scalarOut n (if e.sat then heldS n s else s) (some (decide (2 ^ n ≤ a % 2 ^ n + b % 2 ^ n))) (some (decide (heldS n s ≠ s))) false) ∧
    Computes (.adc v c d s1 s2) v (fun e g =>
      let a := g.a.val.toNat
      let b := g.b.val.toNat
      let k : Nat := if e.stat.getLsbD 1 then 1 else 0
      let s := signed n a + signed n b + k
      scalarOut n s (some (decide (2 ^ n ≤ a % 2 ^ n + b % 2 ^ n + k))) (some (decide (heldS n s ≠ s))) false) ∧
    Computes (.sub v c d s1 s2) v (fun e g =>
      let a := g.a.val.toNat
      let b := g.b.val.toNat
      let s := signed n a - signed n b
      scalarOut n (if e.sat then heldS n s else s) (some (decide (b % 2 ^ n ≤ a % 2 ^ n))) (some (decide (heldS n s ≠ s))) false) ∧
    Computes (.sbc v c d s1 s2) v (fun e g =>
      let a := g.a.val.toNat
      let b := g.b.val.toNat
      let k : Nat := if e.stat.getLsbD 1 then 0 else 1
      let s := signed n a - signed n b - k
      scalarOut n s (some (decide (b % 2 ^ n + k ≤ a % 2 ^ n))) (some (decide (heldS n s ≠ s))) false) ∧
    Computes (.cmp v c s1 s2) v (fun _ g =>
      let a := g.a.val.toNat
      let b := g.b.val.toNat
      let s := signed n a - signed n b
      scalarOut n s (some (decide (b % 2 ^ n ≤ a % 2 ^ n))) (some (decide (heldS n s ≠ s))) false) ∧
    (shape (.cmp v c s1 s2)).d = none

/-- R159, R160. MUL, MULH, DIV and REM with their corners: a product out of range sets C and V, a zero divisor gives all ones with V, the
most negative number over -1 gives itself (remainder 0) with V. -/
def Obligations.MultiplyAndDivideResults : Prop :=
  ∀ (v : View) (c : Cond) (u : Bool) (d s1 s2 : Opd),
    let n := View.lw v
    let past : Int → Int → Bool := fun x y => !u && decide (x = -(2 ^ (n - 1) : Nat)) && decide (y = -1)
    Computes (.mul v c d s1 s2) v (fun e g =>
      let p := signed n g.a.val.toNat * signed n g.b.val.toNat
      scalarOut n (if e.sat then heldS n p else p) (some (decide (heldS n p ≠ p))) (some (decide (heldS n p ≠ p))) false) ∧
    Computes (.mulh v c u d s1 s2) v (fun _ g =>
      scalarOut n (Int.fdiv (number u n g.a.val.toNat * number u n g.b.val.toNat) (2 ^ n : Nat)) (some false) (some false) u) ∧
    Computes (.div v c u d s1 s2) v (fun _ g =>
      let x := number u n g.a.val.toNat
      let y := number u n g.b.val.toNat
      scalarOut n (if y = 0 then -1 else if past x y then x else x.tdiv y) (some false) (some (decide (y = 0) || past x y)) u) ∧
    Computes (.rem v c u d s1 s2) v (fun _ g =>
      let x := number u n g.a.val.toNat
      let y := number u n g.b.val.toNat
      scalarOut n (if y = 0 then -1 else if past x y then 0 else x - y * x.tdiv y) (some false) (some (decide (y = 0) || past x y)) u)

/-- R161, R164. AND, OR, XOR, ANDN and TST: the bitwise result at the width of the view, with N and Z; C and V stay. TST writes no
destination. -/
def Obligations.LogicResults : Prop :=
  ∀ (v : View) (c : Cond) (d s1 s2 : Opd),
    let n := View.lw v
    let out : Quad → Out := fun q => scalarOut n q.toNat none none false
    Computes (.and v c d s1 s2) v (fun _ g => out (g.a.val &&& g.b.val)) ∧
    Computes (.or v c d s1 s2) v (fun _ g => out (g.a.val ||| g.b.val)) ∧
    Computes (.xor v c d s1 s2) v (fun _ g => out (g.a.val ^^^ g.b.val)) ∧
    Computes (.andn v c d s1 s2) v (fun _ g => out (g.a.val &&& ~~~g.b.val)) ∧
    Computes (.tst v c s1 s2) v (fun _ g => out (g.a.val &&& g.b.val)) ∧
    (shape (.tst v c s1 s2)).d = none

/-- R162. SHL, SHR, SAR and ROL for every shift amount m: the result, the flag C, and V of a saturating SHL. -/
def Obligations.ShiftResults : Prop :=
  ∀ (v : View) (c : Cond) (d s1 s2 : Opd),
    let n := View.lw v
    let cOf : Nat → Nat → Nat → Bool → Option Bool := fun m a i past => if m = 0 then none else some (if m ≤ n then a.testBit i else past)
    Computes (.shl v c d s1 s2) v (fun e g =>
      let a := g.a.val.toNat
      let m := g.b.val.toNat
      let x := signed n a * (2 : Int) ^ m
      scalarOut n (if e.sat then heldS n x else x) (cOf m a (n - m) false) (if e.sat then some (decide (heldS n x ≠ x)) else none) false) ∧
    Computes (.shr v c d s1 s2) v (fun _ g =>
      let a := g.a.val.toNat
      let m := g.b.val.toNat
      scalarOut n ((a % 2 ^ n / 2 ^ m : Nat) : Int) (cOf m a (m - 1) false) none false) ∧
    Computes (.sar v c d s1 s2) v (fun _ g =>
      let a := g.a.val.toNat
      let m := g.b.val.toNat
      scalarOut n (Int.fdiv (signed n a) ((2 : Int) ^ m)) (cOf m a (m - 1) (a.testBit (n - 1))) none false) ∧
    Computes (.rol v c d s1 s2) v (fun _ g =>
      let a := g.a.val.toNat % 2 ^ n
      let k := g.b.val.toNat % n
      let r := a * 2 ^ k + a / 2 ^ (n - k)
      scalarOut n r (if k = 0 then none else some (r.testBit 0)) none false)

/-- R163-R165. CLZ, CTZ, POPC, MIN, MAX, SEL, EXT and INS. -/
def Obligations.CountSelectAndFieldResults : Prop :=
  ∀ (v : View) (c : Cond) (u : Bool) (d s1 s2 : Opd) (k : Cond) (len pos : BitVec 6),
    let n := View.lw v
    let zf : FlagUp → Nat → FlagUp := fun f r => { f with n := some false, z := some (decide (r = 0)) }
    let count : (Nat → Nat) → Args → Out := fun f g => let r := f g.a.val.toNat; { plainOut r true with flags := zf noFlags r }
    let ones : Nat → Nat := fun a => ((List.range n).filter (fun i => a.testBit i)).length
    Computes (.clz v c d s1) v (fun _ g => count (fun a => ((List.range n).takeWhile (fun i => !a.testBit (n - 1 - i))).length) g) ∧
    Computes (.ctz v c d s1) v (fun _ g => count (fun a => ((List.range n).takeWhile (fun i => !a.testBit i)).length) g) ∧
    Computes (.popc v c d s1) v (fun _ g => count ones g) ∧
    Computes (.min v c u d s1 s2) v (fun _ g =>
      scalarOut n (min (number u n g.a.val.toNat) (number u n g.b.val.toNat)) none none u) ∧
    Computes (.max v c u d s1 s2) v (fun _ g =>
      scalarOut n (max (number u n g.a.val.toNat) (number u n g.b.val.toNat)) none none u) ∧
    Computes (.sel v c d s1 s2 k) v (fun e g => { plainOut 0 false with r := if condHolds e.stat k then g.a.val else g.b.val }) ∧
    Computes (.ext v c d s1 u len pos) v (fun _ g =>
      scalarOut n (number (!u) (len.toNat + 1) (g.a.val.toNat / 2 ^ pos.toNat)) none none false) ∧
    Computes (.ins v c d s1 len pos) v (fun _ g =>
      let old := g.d.val.toNat
      let w := 2 ^ (len.toNat + 1)
      scalarOut n (old / (2 ^ pos.toNat * w) * (2 ^ pos.toNat * w) + g.a.val.toNat % w * 2 ^ pos.toNat + old % 2 ^ pos.toNat : Nat) none none false)

/-- R112, R132, R156, R157. MOV, MOVI, MOVHI, SPC and LEA write their value and no flag; NOP has no effect; FMT sets PFXW and PFXV. -/
def Obligations.MoveAndAddressResults : Prop :=
  ∀ (v : View) (c : Cond) (d s1 s2 : Opd) (imm : BitVec 48) (hi fw : BitVec 16),
    Computes (.mov v c d s1) v (fun _ g => { plainOut 0 false with r := g.a.val }) ∧
    Computes (.movi v c d imm) v (fun _ _ => plainOut (wrapped (View.lw v) imm.toInt) false) ∧
    Computes (.movhi c d hi) .d (fun _ g => plainOut (hi.toNat * 2 ^ 48 + g.d.val.toNat % 2 ^ 48) false) ∧
    Computes (.spc c d s1 s2) .d (fun _ g => plainOut (g.b.val.toNat % 16 * 2 ^ 60 + g.a.val.toNat % 2 ^ 60) false) ∧
    (∀ s g, goes s (.lea v c d s1) → readsFor s v (.lea v c d s1) g →
      exec (.lea v c d s1) s = .next (s.retired (s.here.result (.lea v c d s1) g (plainOut (s.here.ea s1 (View.sc v)).toNat false)))) ∧
    (∀ s, goes s .nop → exec .nop s = .next (s.retired s.here)) ∧
    (∀ s, goes s (.fmt fw) → exec (.fmt fw) s =
      .next (s.retired { s.here with pfx := true, ctx := { s.here.ctx with stat := setFld s.here.ctx.stat 48 16 fw.toNat } }))

/-- R167. The lane operations of VADD, VSUB, VADDS, VSUBS, VMUL, VMULH, VMAC, VMIN, VMAX, VABS, VNEG, VAND, VOR, VXOR, VSHL, VSHR and VSAR;
no flag changes. -/
def Obligations.VectorArithmeticResults : Prop :=
  ∀ (v : View) (c : Cond) (u : Bool) (d s1 s2 : Opd),
    let n := View.lw v
    let sat : Env → Int → Int := fun e x => if e.sat then heldS n x else x
    let held : Int → Int := fun x => if u then heldZ n x else heldS n x
    let by_ : Args → (Int → Nat → Int) → Out := fun g f =>
      lanesOut n (fun i => f (signed n (laneAt n g.a i)) (laneAt n g.b i))
    Computes (.vadd v c d s1 s2) v (fun e g => eachLane v false g (fun a b => sat e (a + b))) ∧
    Computes (.vsub v c d s1 s2) v (fun e g => eachLane v false g (fun a b => sat e (a - b))) ∧
    Computes (.vadds v c u d s1 s2) v (fun _ g => eachLane v u g (fun a b => held (a + b))) ∧
    Computes (.vsubs v c u d s1 s2) v (fun _ g => eachLane v u g (fun a b => held (a - b))) ∧
    Computes (.vmul v c d s1 s2) v (fun e g => eachLane v false g (fun a b => sat e (a * b))) ∧
    Computes (.vmulh v c u d s1 s2) v (fun _ g => eachLane v u g (fun a b => Int.fdiv (a * b) (2 ^ n : Nat))) ∧
    Computes (.vmac v c d s1 s2) v (fun e g => lanesOut n (fun i =>
      sat e (signed n (laneAt n g.d i) + signed n (laneAt n g.a i) * signed n (laneAt n g.b i)))) ∧
    Computes (.vmin v c u d s1 s2) v (fun _ g => eachLane v u g min) ∧
    Computes (.vmax v c u d s1 s2) v (fun _ g => eachLane v u g max) ∧
    Computes (.vabs v c d s1) v (fun e g => by_ g (fun a _ => sat e (max a (-a)))) ∧
    Computes (.vneg v c d s1) v (fun e g => by_ g (fun a _ => sat e (-a))) ∧
    Computes (.vand v c d s1 s2) v (fun _ g => { plainOut 0 false with r := g.a.val &&& g.b.val }) ∧
    Computes (.vor v c d s1 s2) v (fun _ g => { plainOut 0 false with r := g.a.val ||| g.b.val }) ∧
    Computes (.vxor v c d s1 s2) v (fun _ g => { plainOut 0 false with r := g.a.val ^^^ g.b.val }) ∧
    Computes (.vshl v c d s1 s2) v (fun e g => by_ g (fun a m => sat e (a * (2 : Int) ^ m))) ∧
    Computes (.vshr v c d s1 s2) v (fun _ g => lanesOut n (fun i => (laneAt n g.a i / 2 ^ laneAt n g.b i : Nat))) ∧
    Computes (.vsar v c d s1 s2) v (fun _ g => by_ g (fun a m => Int.fdiv a ((2 : Int) ^ m)))

/-- R168-R171. VDOT with its element widths, VCMP, VSEL, VSHUF, VBCAST and VRED. -/
def Obligations.VectorDotCompareAndMoveResults : Prop :=
  ∀ (v : View) (c : Cond) (u : Bool) (d s1 s2 x : Opd) (k : VCond) (j : BitVec 4),
    let n := View.lw v
    let s : Src → Nat → Int := fun q i => signed n (laneAt n q i)
    Computes (.vdot c u d s1 s2) .w (fun e g =>
      let w := match e.fw with
        | none => 8
        | some fw => if fw.toNat % 16 = 12 then 4 else if fw.toNat % 16 = 13 then 2 else 8
      lanesOut 32 (fun i =>
        let t := number u 32 (laneAt 32 g.d i) +
          ((List.range (32 / w)).map (fun m => number u w (laneAt w g.a (32 / w * i + m)) * number u w (laneAt w g.b (32 / w * i + m)))).sum
        if e.sat then (if u then heldZ 32 t else heldS 32 t) else t)) ∧
    Computes (.vcmp v c d s1 s2 k) v (fun _ g => maskLanes n (fun i =>
      match k with
      | .eq => laneAt n g.a i == laneAt n g.b i
      | .ne => laneAt n g.a i != laneAt n g.b i
      | .lt => decide (s g.a i < s g.b i)
      | .le => decide (s g.a i ≤ s g.b i)
      | .gt => decide (s g.b i < s g.a i)
      | .ge => decide (s g.b i ≤ s g.a i)
      | .lo => decide (laneAt n g.a i < laneAt n g.b i)
      | .ls => decide (laneAt n g.a i ≤ laneAt n g.b i)
      | .hi => decide (laneAt n g.b i < laneAt n g.a i)
      | .hs => decide (laneAt n g.b i ≤ laneAt n g.a i)) 0) ∧
    Computes (.vsel v c d s1 s2 x) v (fun _ g =>
      lanesOut n (fun i => if (laneAt n g.x i).testBit (n - 1) then laneAt n g.a i else laneAt n g.b i)) ∧
    Computes (.vshuf v c d s1 s2) v (fun _ g =>
      lanesOut n (fun i => if (laneAt n g.b i).testBit (n - 1) then 0 else laneAt n g.a (laneAt n g.b i % (128 / n)))) ∧
    Computes (.vbcast v c d s1 j) v (fun _ g =>
      lanesOut n (fun _ => match s1 with | .preg _ | .imm _ => g.a.val.toNat | _ => laneAt n g.a j.toNat)) ∧
    Computes (.vred v c d s1 .add) v (fun e g =>
      let t := ((List.range (128 / n)).map (s g.a)).sum
      plainOut (wrapped n (if e.sat then heldS n t else t)) false) ∧
    (View.bhwd v → ∀ (mx : Bool), Computes (.vred v c d s1 (if u then (if mx then .umax else .umin) else (if mx then .smax else .smin))) v
      (fun _ g =>
        let l := (List.range (128 / n)).map (fun i => number u n (laneAt n g.a i))
        plainOut (wrapped n (l.foldl (if mx then max else min) (l.headD 0))) false))

/-- R38, R40, R173, R174, R177. Each lane of VFADD, VFSUB, VFMUL, VFMA, VFDIV, VFSQRT, VFRCP, VFRSQ, VFEXP2, VFLOG2 and VFRND is the exact result
on the lane values, rounded once under the mode in force, with the special operands of the tables; the flags are ORed over the lanes. Between the
exact cases 2^a and log2 a are formed as log entry 8 says. VRED.fadd adds pairwise (R43, R171) and puts the sum into lane 0. -/
def Obligations.FloatArithmeticResults : Prop :=
  ∀ (v : View) (c : Cond) (np na : Bool) (d s1 s2 : Opd),
    let n := View.lw v
    let F := fmtOf v
    let flip : Bool → FVal → FVal := fun b x => match x with | .nan g => .nan g | .inf s => .inf (s != b) | .zero s => .zero (s != b) | .fin s m e => .fin (s != b) m e
    let two : (Env → FVal → FVal → Nat × FFlags) → Env → Args → Out := fun f e g => floatLanes n (fun i => f e (fpAt v g.a i) (fpAt v g.b i))
    let one : (Env → FVal → Nat × FFlags) → Env → Args → Out := fun f e g => floatLanes n (fun i => f e (fpAt v g.a i))
    Computes (.vfadd v c d s1 s2) v (two (fun e a b => ieeeAdd F e.rm a b)) ∧
    Computes (.vfsub v c d s1 s2) v (two (fun e a b => ieeeAdd F e.rm a (flip true b))) ∧
    Computes (.vfmul v c d s1 s2) v (two (fun e a b => ieeeMul F e.rm a b)) ∧
    Computes (.vfma v c np na d s1 s2) v (fun e g => floatLanes n (fun i =>
      ieeeFma F e.rm (flip na (fpAt v g.d i)) (flip np (fpAt v g.a i)) (fpAt v g.b i))) ∧
    Computes (.vfdiv v c d s1 s2) v (two (fun e a b => ieeeDiv F e.rm a b)) ∧
    Computes (.vfsqrt v c d s1) v (one (fun e a => ieeeSqrt F e.rm a)) ∧
    Computes (.vfrcp v c d s1) v (one (fun e a => ieeeDiv F e.rm (.fin false 1 0) a)) ∧
    Computes (.vfrsq v c d s1) v (one (fun e a => ieeeRsq F e.rm a)) ∧
    Computes (.vfexp2 v c d s1) v (one (fun e a => ieeeExp2 F e.rm a)) ∧
    Computes (.vflog2 v c d s1) v (one (fun e a => ieeeLog2 F e.rm a)) ∧
    Computes (.vfrnd v c d s1) v (one (fun e a => ieeeRnd F e.rm a)) ∧
    (View.isFp v → Computes (.vred v c d s1 .fadd) v (fun e g =>
      let r := joinLanes v (fun x y => ieeeAdd F e.rm (F.unpack x) (F.unpack y)) g.a
      { plainOut (r.1 % 2 ^ n) false with flags := { noFlags with fps := r.2 } })) ∧
    Computes (.vred .g c d s1 .fadd) .g (fun e g =>
      let r := ieeeAdd f64 e.rm (fpAt .g g.a 0) (fpAt .g g.a 1)
      { plainOut (r.1 % 2 ^ 64) false with flags := { noFlags with fps := r.2 } })

/-- R175, R176, R178, R171. VFMIN and VFMAX (a NaN beside a number gives the number, -0 lies below +0), VRED.fmin and VRED.fmax by the same rule on the
pairs of R43, VFCMP under each condition, and the class bit of VFCLS; the signalling and ordered cases raise invalid. -/
def Obligations.FloatCompareAndClassResults : Prop :=
  ∀ (v : View) (c : Cond) (d s1 s2 : Opd) (k : FCond),
    View.isFp v →
    let n := View.lw v
    let F := fmtOf v
    let inv : Bool → FFlags := fun b => if b then 16 else 0
    let nan : FVal → Bool := fun x => match x with | .nan _ => true | _ => false
    let sig : FVal → Bool := fun x => x == .nan true
    let choose : Bool → Nat → Nat → Nat × FFlags := fun mx x y =>
      let a := F.unpack x
      let b := F.unpack y
      (if nan a && nan b then F.nan else if nan a then y else if nan b then x
        else if a.lt b || (a == .zero true && b == .zero false) then (if mx then y else x)
        else if b.lt a || (b == .zero true && a == .zero false) then (if mx then x else y) else if mx then x else y, inv (sig a || sig b))
    Computes (.vfmin v c d s1 s2) v (fun _ g => floatLanes n (fun i => choose false (laneAt n g.a i) (laneAt n g.b i))) ∧
    Computes (.vfmax v c d s1 s2) v (fun _ g => floatLanes n (fun i => choose true (laneAt n g.a i) (laneAt n g.b i))) ∧
    (∀ mx : Bool, Computes (.vred v c d s1 (if mx then .fmax else .fmin)) v (fun _ g =>
      let r := joinLanes v (choose mx) g.a
      { plainOut (r.1 % 2 ^ n) false with flags := { noFlags with fps := r.2 } })) ∧
    Computes (.vfcmp v c d s1 s2 k) v (fun _ g =>
      let hold : Nat → Bool := fun i =>
        let a := fpAt v g.a i
        let b := fpAt v g.b i
        let un := nan a || nan b
        match k with
        | .eq => !un && !a.lt b && !b.lt a
        | .ne => un || a.lt b || b.lt a
        | .lt => !un && a.lt b
        | .le => !un && !b.lt a
        | .gt => !un && b.lt a
        | .ge => !un && !a.lt b
        | .un => un
        | .ord => !un
      let ordered : Bool := match k with | .lt | .le | .gt | .ge => true | _ => false
      maskLanes n hold (inv ((List.range (128 / n)).any (fun i =>
        sig (fpAt v g.a i) || sig (fpAt v g.b i) || (ordered && (nan (fpAt v g.a i) || nan (fpAt v g.b i))))))) ∧
    Computes (.vfcls v c d s1) v (fun _ g => lanesOut n (fun i => (F.cls (laneAt n g.a i) : Nat)))

/-- R40. Each floating-point operation on a NaN gives the canonical quiet NaN of the format, and raises invalid when a NaN operand signals
and no other flag. -/
def Obligations.NanResultsAreCanonical : Prop :=
  ∀ (F : Fmt) (rm : Nat) (a b x : FVal) (g : Bool),
    let inv : List FVal → FFlags := fun xs => if .nan true ∈ xs then 16 else 0
    F.addV rm (.nan g) b = (F.nan, inv [.nan g, b]) ∧
    F.addV rm a (.nan g) = (F.nan, inv [a, .nan g]) ∧
    F.mulV rm (.nan g) b = (F.nan, inv [.nan g, b]) ∧
    F.mulV rm a (.nan g) = (F.nan, inv [a, .nan g]) ∧
    F.divV rm (.nan g) b = (F.nan, inv [.nan g, b]) ∧
    F.divV rm a (.nan g) = (F.nan, inv [a, .nan g]) ∧
    (mulExact a b ≠ none → F.fmaV rm (.nan g) a b = (F.nan, inv [a, b, .nan g])) ∧
    F.fmaV rm x (.nan g) b = (F.nan, inv [.nan g, b, x]) ∧
    F.fmaV rm x a (.nan g) = (F.nan, inv [a, .nan g, x]) ∧
    F.sqrtV rm (.nan g) = (F.nan, inv [.nan g]) ∧
    F.rcpV rm (.nan g) = (F.nan, inv [.nan g]) ∧
    F.rsqV rm (.nan g) = (F.nan, inv [.nan g]) ∧
    F.exp2V rm (.nan g) = (F.nan, inv [.nan g]) ∧
    F.log2V rm (.nan g) = (F.nan, inv [.nan g]) ∧
    F.rndV rm (.nan g) = (F.nan, inv [.nan g])

/-- R38, R41. A finite value that the format holds rounds to itself in every mode and raises no flag; so reading the bits of a number and
rounding them gives the bits back. -/
def Obligations.RoundingKeepsRepresentableValues : Prop :=
  ∀ (F : Fmt) (rm x : Nat), F = bf16 ∨ F = f32 ∨ F = f64 → x < 2 ^ F.width →
    match F.unpack x with
    | .fin s m e => F.round rm s m e false = (x, 0)
    | .zero s => F.zero s = x
    | .inf s => F.inf s = x
    | .nan g => F.inf false < x % 2 ^ (F.width - 1) ∧ g = !x.testBit (F.mb - 1)

/-- R179, R180, R188, R189. VCVT, VNARR, VWIDE, SCALE and BEXP. VCVT and SCALE read an immediate or `lanes` in the format that they convert from
(log entry 56, DEDUCED). -/
def Obligations.ConversionResults : Prop :=
  ∀ (v : View) (c : Cond) (u hi : Bool) (d s1 s2 : Opd),
    let n := View.lw v
    let F := fmtOf v
    let src : Instr → State → View := fun i s => cvtSrc v (envOf s.here.ctx i)
    (∀ s g, goes s (.vcvt v c d s1) → readsFor s (src (.vcvt v c d s1) s) (.vcvt v c d s1) g →
      exec (.vcvt v c d s1) s = .next (s.retired (s.here.result (.vcvt v c d s1) g
        (let e := envOf s.here.ctx (.vcvt v c d s1)
         let from_ := cvtSrc v e
         floatLanes n (fun i =>
          let x := laneAt n g.a i
          match View.isFp from_, View.isFp v with
          | true, true => if (fmtOf from_).unpack x = .nan true then (F.nan, 16) else (x, 0)
          | true, false => let r := toIntSat e.rm n ((fmtOf from_).unpack x); (wrapped n r.1, r.2)
          | false, true => F.ofVal e.rm (FVal.ofInt (signed n x))
          | false, false => (x, 0)))))) ∧
    Computes (.vnarr v c u d s1 s2) v (fun e g =>
      let wide : Nat → Nat := fun i => if i < 128 / n / 2 then laneAt (2 * n) g.a i else laneAt (2 * n) g.b (i - 128 / n / 2)
      lanesOut n (fun i => if e.sat then (if u then heldZ n (wide i) else heldS n (signed (2 * n) (wide i))) else wide i)) ∧
    Computes (.vwide v c u hi d s1) v (fun _ g =>
      lanesOut n (fun i => number u (n / 2) (laneAt (n / 2) g.a (i + (if hi then 128 / n else 0))))) ∧
    (∀ s g, goes s (.scale v c d s1 s2) → readsFor s (scaleSrc v (envOf s.here.ctx (.scale v c d s1 s2))) (.scale v c d s1 s2) g →
      exec (.scale v c d s1 s2) s = .next (s.retired (s.here.result (.scale v c d s1 s2) g
        (let e := envOf s.here.ctx (.scale v c d s1 s2)
         let from_ := scaleSrc v e
         let sw := g.b.val.toNat % 2 ^ 16
         if sw % 2 ^ 9 = 256 ∨ 2 ^ 9 ≤ sw then { plainOut 0 false with pois := true }
         else floatLanes n (fun i =>
          let x := laneAt n g.a i
          F.ofVal e.rm ((if View.isFp from_ then (fmtOf from_).unpack x else FVal.ofInt (signed n x)).mul2 (signed 9 sw))))))) ∧
    Computes (.bexp v c d s1 s2) v (fun _ g =>
      let ex : Nat → Int := fun i => match fpAt v g.a i with
        | .fin _ m e => e + (Nat.log2 m : Int) - 6
        | .zero _ => -255
        | _ => 255
      let top := (List.range (128 / n)).foldr (fun i t => max (ex i) t) (signed 64 g.b.val.toNat)
      let bad : FVal → Bool := fun x => match x with | .nan _ | .inf _ => true | _ => false
      { plainOut 0 false with r := BitVec.ofInt 128 (max (-255) (min 255 top)),
                              flags := { noFlags with fps := if (List.range (128 / n)).any (fun i => bad (fpAt v g.a i)) then 16 else 0 } })

/-- R182-R185. PACK writes the carry form of its elements, PMUL the carry product or the fenced product (fault 0x0A under GOE, else GO),
EXTR the digits from FIRST on, GCHK the safe spacing with N and Z from the headroom. -/
def Obligations.LongMultiplyResults : Prop :=
  ∀ (v : View) (c : Cond) (u cq fen : Bool) (wc : EWidth) (k : BitVec 6) (idx : BitVec 7) (d s1 s2 : Opd),
    let C := View.lw v
    let K := k.toNat
    let w := EWidth.bits wc
    Computes (.pack v c u wc k idx d s1) v (fun _ g =>
      plainOut (wrapped C ((List.range (idx.toNat + 1)).map (fun i => number u w (laneAt w g.a i) * 2 ^ (K * i))).sum) false) ∧
    Computes (.extr v c u cq fen k idx d s1) v (fun _ g =>
      let y := g.a.val.toNat % 2 ^ (if cq then 128 else 64)
      let rest : Nat → Int := fun j => Nat.rec (number u (if cq then 128 else 64) y)
        (fun _ t => (t - number u K (wrapped K t)) / 2 ^ K) j
      lanesOut C (fun i => if fen then number u K (y / 2 ^ (K * (idx.toNat + i))) else number u K (wrapped K (rest (idx.toNat + i))))) ∧
    (∀ s g, goes s (.pmul v c u false wc k d s1 s2) → readsFor s v (.pmul v c u false wc k d s1 s2) g →
      exec (.pmul v c u false wc k d s1 s2) s = .next (s.retired (s.here.result (.pmul v c u false wc k d s1 s2) g
        (plainOut (g.a.val.toNat * g.b.val.toNat % 2 ^ C) false)))) ∧
    (∀ s g, goes s (.pmul v c u true wc k d s1 s2) → readsFor s v (.pmul v c u true wc k d s1 s2) g →
      let as := digits u K (C / K) (number u C g.a.val.toNat)
      let bs := digits u K (C / K) (number u C g.b.val.toNat)
      let lo : Int := if u then 0 else -(2 ^ (K - 1) : Nat)
      let hi : Int := if u then (2 ^ K : Nat) - 1 else (2 ^ (K - 1) : Nat) - 1
      let cs := (List.range (C / K)).map (convolution as bs)
      let ovf := cs.any (fun x => decide (x < lo) || decide (hi < x))
      let r := ((List.range (C / K)).map (fun j => wrapped K (max lo (min hi (cs.getD j 0))) * 2 ^ (K * j))).sum
      exec (.pmul v c u true wc k d s1 s2) s = .next (
        if ovf ∧ s.here.ctx.stat.getLsbD 32 then s.putLoc (raise s.here (faultOf 0x0A))
        else s.retired (s.here.result (.pmul v c u true wc k d s1 s2) g
          { plainOut r false with flags := { noFlags with go := if ovf then some true else none } }))) ∧
    Computes (.gchk c u wc k d s1) .d (fun _ g =>
      let t : Nat → Nat := fun j => if u then (2 ^ j - 1) / (2 ^ w - 1) ^ 2 else ((2 : Int) ^ (j + 1 - 2 * w) - 1).toNat
      let T := g.a.val.toNat
      let kmin := ((List.range 33).find? (fun j => decide (2 * w ≤ j) && decide (T ≤ t j))).getD 0
      let head : Int := if kmin = 0 then -128 else (K : Int) - kmin
      { plainOut (min (if K + 1 < 2 * w ∧ !u then 0 else t K) (2 ^ 32 - 1) * 2 ^ 16 + wrapped 8 head * 2 ^ 8 + kmin) false with
        flags := { noFlags with n := some (decide (head < 0)), z := some (decide (head = 0)) } })

/-- R186, R187, R53, R81, R149. BPRD gathers the bits of group g from planes 0 to p-1 into lanes, or writes poisoned zeros for a void scale; BPWR
rounds its lanes into bytes and puts their bits into the eight planes, changing no other bit of a plane: in a buffer at once, in G as eight queued
stores. A pitch of zero or a group past the end is fault 0x06; a plane that cannot be read faults, or waits for its data, with no effect. That 0x06
comes after the faults of S2 and X and before those of a plane is log entry 113's; that the planes are eight stores, log entry 114's. -/
def Obligations.BitPlaneResults : Prop :=
  ∀ (v : View) (c : Cond) (d s1 s2 x : Opd) (s : State) (ds : Nat → Datum) (f : FaultInfo) (w : Loc) (pk : Park) (j0 : Nat),
    let bprd : Instr := .bprd v c d s1 s2 x
    let bpwr : Instr := .bpwr v c d s1 s2 x
    let l := s.here
    let L := 128 / View.lw v
    let pitch : Src → Nat := fun b => b.val.toNat % 2 ^ 16 * 64
    let group : Src → Nat := fun b => b.val.toNat / 2 ^ 16 % 32
    let at_ : Word → Nat → Nat → Word := fun ea pp j => ptrAdd ea (BitVec.ofNat 64 (j * pp))
    let read : Word → Nat → Nat → Res Datum := fun ea pp j => readPtr l (at_ ea pp j) 16 16 false none
    let inside : Word → Nat → Nat → Prop := fun ea pp p =>
      1 ≤ spaceOf ea ∧ spaceOf ea ≤ 4 ∧ addrOf ea % 16 = 0 ∧ addrOf ea + (p - 1) * pp + 16 ≤ bufSize (spaceOf ea)
    let plane : Loc → Word → Nat → Nat → Nat := fun l ea pp j => leVal (bytesAt (l.buf (spaceOf ea)) (addrOf ea + j * pp) 16)
    let e := envOf l.ctx bprd
    let p := match e.fw with | some fw => fw.toNat % 16 - 1 | none => 8
    let half : Bool := match e.fw with | some fw => fw.getLsbD 10 | none => false
    let valid : Src → Prop := fun b => pitch b ≠ 0 ∧ group b < 128 / L
    let lanes : Args → (Nat → Nat) → Out := fun g pl =>
      let sw := g.x.val.toNat % 2 ^ 16
      let value : Nat → Int := fun k =>
        Int.fdiv (signed 8 ((List.range p).map (fun j => if (pl j).testBit k then 2 ^ (7 - j) else 0)).sum) ((2 : Int) ^ (8 - p))
      if sw % 2 ^ 9 = 256 ∨ 2 ^ 9 ≤ sw then { plainOut 0 false with pois := true }
      else lanesOut (View.lw v) (fun i => if half then 2 * value (group g.b * L + i) + 1 else value (group g.b * L + i))
    let gathers : Args → (Nat → Nat) → (Nat → Bool) → Prop := fun g pl po =>
      ∃ a : Src, a.pois = (l.basePois s1 || (List.range p).any po) ∧
        exec bprd s = .next (s.retired ((l.take (shape bprd) { g with a := a }).writeOut (shape bprd) g.dst (lanes g pl) (Args.pois { g with a := a })))
    let writes : Src → Src → Src → Prop := fun a b y => fetchOpt l v (envOf l.ctx bpwr).rm (shape bpwr).s1 = .ok a ∧
      fetchOpt l v 0 (shape bpwr).s2 = .ok b ∧ fetchOpt l v 0 (shape bpwr).x = .ok y
    let bitOf : Src → Src → Src → Nat → Nat → Bool → Bool := fun a b y j k old =>
      if group b * L ≤ k ∧ k < group b * L + L then
        let q := laneAt (View.lw v) a (k - group b * L)
        (wrapped 8 (toIntSat (envOf l.ctx bpwr).rm 8
          ((if View.isFp v then (fmtOf v).unpack q else FVal.ofInt (signed (View.lw v) q)).mul2 (-(signed 9 y.val.toNat)))).1).testBit (7 - j)
      else old
    (∀ g, goes s bprd → readsFor s v bprd g → ¬ valid g.b →
      exec bprd s = .next (s.putLoc (raise l { faultOf 0x06 with addr := l.ea s1 16, acc := 0 }))) ∧
    (∀ g, goes s bprd → readsFor s v bprd g → valid g.b → inside (l.ea s1 16) (pitch g.b) p →
      gathers g (plane l (l.ea s1 16) (pitch g.b)) (fun j => l.bufPois (spaceOf (l.ea s1 16)) (addrOf (l.ea s1 16) + j * pitch g.b) 16)) ∧
    (∀ g, goes s bprd → readsFor s v bprd g → valid g.b → (∀ j < p, read (l.ea s1 16) (pitch g.b) j = .ok (ds j)) →
      gathers g (fun j => (ds j).val.toNat) (fun j => (ds j).pois)) ∧
    (∀ g, goes s bprd → readsFor s v bprd g → valid g.b → j0 < p → (∀ j < j0, read (l.ea s1 16) (pitch g.b) j = .ok (ds j)) →
      (read (l.ea s1 16) (pitch g.b) j0 = .error (.fault w f) → exec bprd s = .next (s.putLoc (raise w f))) ∧
      (read (l.ea s1 16) (pitch g.b) j0 = .error (.park w pk) → pk.pure → exec bprd s = .next (s.putLoc (w.parkAs pk)))) ∧
    (∀ a b y, goes s bpwr → writes a b y → ¬ valid b →
      exec bpwr s = .next (s.putLoc (raise l { faultOf 0x06 with addr := l.ea d 16, acc := 1 }))) ∧
    (∀ a b y, goes s bpwr → writes a b y → valid b → inside (l.ea d 16) (pitch b) 8 →
      ∃ t, exec bpwr s = .next t ∧ ∀ j < 8, ∀ k < 128, (plane (t.loc s.cur) (l.ea d 16) (pitch b) j).testBit k =
        bitOf a b y j k ((plane l (l.ea d 16) (pitch b) j).testBit k)) ∧
    (∀ a b y, goes s bpwr → writes a b y → valid b → spaceOf (l.ea d 16) = 0 → l.ctx.cntOf 1 ≤ 55 →
      (∀ j < 8, read (l.ea d 16) (pitch b) j = .ok (ds j) ∧ ∃ r, readyPtr l (at_ (l.ea d 16) (pitch b) j) 16 16 = .ok r) →
      ∃ t, exec bpwr s = .next t ∧ (t.ctx s.cur).stq.length = l.ctx.stq.length + 8 ∧ (t.ctx s.cur).cntOf 1 = l.ctx.cntOf 1 + 8 ∧
        ∀ j < 8, ∃ g, (t.ctx s.cur).stq[l.ctx.stq.length + j]? = some g ∧ g.va = at_ (l.ea d 16) (pitch b) j ∧ g.bytes.length = 16 ∧
          ∀ k < 128, (leVal g.bytes).testBit k = bitOf a b y j k ((ds j).val.toNat.testBit k)) ∧
    (∀ a b y, goes s bpwr → writes a b y → valid b → j0 < 8 → (∀ j < j0, read (l.ea d 16) (pitch b) j = .ok (ds j)) →
      (read (l.ea d 16) (pitch b) j0 = .error (.fault w f) → exec bpwr s = .next (s.putLoc (raise w f))) ∧
      (read (l.ea d 16) (pitch b) j0 = .error (.park w pk) → pk.pure → exec bpwr s = .next (s.putLoc (w.parkAs pk))))

/-- R85, R144. What each kind of source operand reads as, in scalar form at n bytes and in vector form under an integer view: A, Pn, an
immediate, the constants, and bytes of a buffer at the effective address, which keeps the space code and adds modulo 2^60. That a memory operand
carries its pointer register's poison is log entry 18's (DEDUCED). -/
def Obligations.OperandValues : Prop :=
  ∀ (l : Loc) (v : View) (rm n : Nat) (p : Reg) (off : BitVec 14),
    let ea := l.ea (.mem p off) n
    let val : Res Src → Nat → Bool → Prop := fun r x po => ∃ q, r = .ok q ∧ q.val = BitVec.ofNat 128 x ∧ q.pois = po
    n ∈ [1, 2, 4, 8, 16] →
    val (fetch l v rm .acc (.scalar n)) (l.ctx.a.toNat % 2 ^ (8 * n)) l.ctx.aPois ∧
    val (fetch l v rm (.preg p) (.scalar n)) ((l.p p).toNat % 2 ^ (8 * n)) (l.ctx.pPois.getLsbD p.val) ∧
    val (fetch l v rm (.imm off) (.scalar n)) (wrapped (8 * n) off.toInt) false ∧
    val (fetch l v rm .zeros (.scalar n)) 0 false ∧
    val (fetch l v rm .ones (.scalar n)) (2 ^ (8 * n) - 1) false ∧
    val (fetch l v rm .lanes (.scalar n)) 0 false ∧
    val (fetch l v rm .acc .vector) l.ctx.a.toNat l.ctx.aPois ∧
    (View.isFp v = false → val (fetch l v rm (.imm off) .vector) (lanesOut (View.lw v) (fun _ => off.toInt)).r.toNat false) ∧
    (View.isFp v = false → val (fetch l v rm .lanes .vector) (lanesOut (View.lw v) (fun i => (i : Int))).r.toNat false) ∧
    val (fetch l v rm .ones .vector) (2 ^ 128 - 1) false ∧
    spaceOf ea = spaceOf (l.p p) ∧
    (addrOf ea : Int) = ((addrOf (l.p p) : Int) + off.toInt * n) % (2 ^ 60 : Nat) ∧
    l.ea (.post p off) n = l.p p ∧
    (addrOf (l.ea (.pre p off) n) : Int) = ((addrOf (l.p p) : Int) - off.toNat * n) % (2 ^ 60 : Nat) ∧
    (inBuffer ea n n →
      val (fetch l v rm (.mem p off) (.scalar n)) (leVal (bytesAt (l.buf (spaceOf ea)) (addrOf ea) n))
        (l.ctx.pPois.getLsbD p.val || l.bufPois (spaceOf ea) (addrOf ea) n))

/-- R80, R81. A read or a write through a pointer of a reserved space, outside a buffer, or not aligned to the smaller of its size and 16
bytes is fault 0x06 with that pointer, and changes nothing; the check of alignment comes before translation. -/
def Obligations.PointerFaults : Prop :=
  ∀ (l : Loc) (ptr : Word) (n : Nat) (home : Bool) (acq : Option Scope),
    let bad := addrOf ptr % min n 16 ≠ 0 ∨ 5 ≤ spaceOf ptr ∨ (1 ≤ spaceOf ptr ∧ bufSize (spaceOf ptr) < addrOf ptr + n)
    (bad → readPtr l ptr n (min n 16) home acq = .error (.fault l { faultOf 0x06 with addr := ptr, acc := 0 })) ∧
    (bad → readyPtr l ptr n (min n 16) = .error (.fault l { faultOf 0x06 with addr := ptr, acc := 1 })) ∧
    (¬ bad → spaceOf ptr ≠ 0 → readyPtr l ptr n (min n 16) = .ok (.buf (spaceOf ptr) (addrOf ptr)) ∧
      ∃ d, readPtr l ptr n (min n 16) home acq = .ok d)

/-- R77, R145. A scalar result of n bits goes to the low half of A, sign- or zero-extended, and leaves the upper half; to Pn extended to 64
bits and to no other register; to memory as n/8 little-endian bytes, and to no other byte. A vector result is 16 bytes. -/
def Obligations.DestinationWrites : Prop :=
  ∀ (l : Loc) (n : Nat) (uns : Bool) (r : Quad) (po : Bool) (p q : Reg) (sp off a : Nat),
    let x : Int := number uns n r.toNat
    n ∈ [8, 16, 32, 64] → sp ∈ [1, 2, 3, 4] → a < bufSize sp →
    let la := l.writeScalar .acc n uns r po
    let lp := l.writeScalar (.preg p) n uns r po
    let lm := l.writeScalar (.mem (.buf sp off)) n uns r po
    let lv := l.writeVector (.mem (.buf sp off)) r po
    la.ctx.a.toNat = l.ctx.a.toNat / 2 ^ 64 * 2 ^ 64 + wrapped 64 x ∧
    la.ctx.p = l.ctx.p ∧
    (l.writeScalar .acc 128 uns r po).ctx.a = r ∧
    (l.writeVector .acc r po).ctx.a = r ∧
    lp.ctx.p[q] = (if p = q then BitVec.ofInt 64 x else l.ctx.p[q]) ∧
    lp.ctx.a = l.ctx.a ∧
    mget 0 (lm.buf sp) a =
      (if off ≤ a ∧ a < off + n / 8 then BitVec.ofNat 8 (r.toNat / 2 ^ (8 * (a - off))) else mget 0 (l.buf sp) a) ∧
    mget 0 (lv.buf sp) a = (if off ≤ a ∧ a < off + 16 then BitVec.ofNat 8 (r.toNat / 2 ^ (8 * (a - off))) else mget 0 (l.buf sp) a) ∧
    (∀ sp' ∈ [1, 2, 3, 4], sp' ≠ sp → lm.buf sp' = l.buf sp' ∧ lv.buf sp' = l.buf sp') ∧
    lm.ctx.p = l.ctx.p ∧ lm.ctx.a = l.ctx.a ∧ lm.ctx.stat = l.ctx.stat

/-- R77, R87, R148. What an instruction of class I or V leaves as it was in the next state, whether it retires, faults or parks: memory and
everything outside the units; every other context but for its wait on S; every other core; the P registers that are neither D nor an
updated pointer; A unless D is A; the loop, link, machine and token state; the bits of STAT outside FPS, DS, LPD, PFXV, N, Z, C, V, GO. And every
floating-point instruction on readable operands retires, whatever their values: no flag condition faults (R173). -/
def Obligations.ComputeInstructionsFrame : Prop :=
  (∀ (i : Instr) (s t : State), isWord i → computes i → s.hub.up → s.here.ctx.status = .issuing → exec i s = .next t →
    let c := s.ctx s.cur
    let e := t.ctx s.cur
    State.outsideAlike s t ∧
    (∀ k, k ≠ s.cur → Ctx.alike (t.ctx k) (s.ctx k)) ∧
    (∀ k, k ≠ coreOfCid s.cur → mget emptyCore t.cores k = mget emptyCore s.cores k) ∧
    (∀ p : Reg, (∀ o ∈ (shape i).opds, Opd.updates o.1 ≠ some p) → (∀ o, (shape i).d = some o → o.1 ≠ .preg p) → e.p[p] = c.p[p]) ∧
    ((∀ o, (shape i).d = some o → o.1 ≠ .acc) → e.a = c.a) ∧
    e.lbeg0 = c.lbeg0 ∧ e.lend0 = c.lend0 ∧ e.lcnt0 = c.lcnt0 ∧ e.lbeg1 = c.lbeg1 ∧ e.lend1 = c.lend1 ∧ e.lcnt1 = c.lcnt1 ∧
    e.btgt = c.btgt ∧ e.ntgt = c.ntgt ∧ e.mtpc = c.mtpc ∧ e.mtst = c.mtst ∧ e.mtvec = c.mtvec ∧ e.mtcode = c.mtcode ∧
    e.outbox = c.outbox ∧ e.produced = c.produced ∧ e.quota0 = c.quota0 ∧ e.quota1 = c.quota1 ∧
    e.stat &&& 0xFFFF1807FFFFFFE0#64 = c.stat &&& 0xFFFF1807FFFFFFE0#64) ∧
  (∀ (s : State) (v : View) (c : Cond) (np na : Bool) (d s1 s2 : Opd) (k : FCond) (i : Instr) (g : Args), View.isFp v →
    i ∈ [.vfadd v c d s1 s2, .vfsub v c d s1 s2, .vfmul v c d s1 s2, .vfma v c np na d s1 s2, .vfdiv v c d s1 s2, .vfsqrt v c d s1,
         .vfmin v c d s1 s2, .vfmax v c d s1 s2, .vfcmp v c d s1 s2 k, .vfrcp v c d s1, .vfrsq v c d s1, .vfexp2 v c d s1, .vflog2 v c d s1,
         .vfrnd v c d s1, .vfcls v c d s1] →
    goes s i → readsFor s v i g → ∃ t, exec i s = .next t ∧
      let e := t.ctx s.cur
      e.dleft = s.here.ctx.dleft - 1 ∧ e.status = .issuing ∧ stPFXV e.stat = false ∧
      e.pc = if stDS s.here.ctx.stat = 1 then s.here.ctx.btgt else s.here.ctx.pc + 1)

/-- R84, R146, R249. An instruction whose effect stays in its context (class I and V, branches, loads, stores, atomics, fences, copies and
more) changes no byte of memory, no granule, no line and nothing of the host: stores to G wait in the context until they are performed. -/
def Obligations.OwnEffectsLeaveMemory : Prop :=
  ∀ (i : Instr) (s t : State), ownEffect i → exec i s = .next t → State.outsideAlike s t ∧
    ∀ a, ramByte t.mem a = ramByte s.mem a

/-- R119, R195. BR, CALL, JMP and JMPL whose predicate holds: BTGT becomes the target, DS 2, PC the next slot, the link register or D
receives PC + 3, a D in memory as eight bytes; a target past the last slot index is fault 0x13 at the transfer. No P register changes but the link
register, D and a pointer that an operand updates, and no memory. -/
def Obligations.TransfersRedirect : Prop :=
  ∀ (s : State) (c : Cond) (off : BitVec 32) (lnk : Option Reg) (r : Reg) (d s1 : Opd) (g : Args),
    let k := s.here.ctx
    let T := k.pc + off.signExtend 64
    let taken : State → Word → Prop := fun t T =>
      (t.ctx s.cur).pc = k.pc + 1 ∧ (t.ctx s.cur).btgt = T ∧ stDS (t.ctx s.cur).stat = 2 ∧ (t.ctx s.cur).taken = true ∧
      (t.ctx s.cur).status = .issuing ∧ State.outsideAlike s t
    let fault13 := s.putLoc (raise s.here (faultOf 0x13))
    (goes s (.br c off lnk) → T.toNat < 5 * 2 ^ 54 → ∃ t, exec (.br c off lnk) s = .next t ∧ taken t T ∧
      ∀ p : Reg, (t.ctx s.cur).p[p] = if lnk = some p then k.pc + 3 else k.p[p]) ∧
    (goes s (.br c off lnk) → 5 * 2 ^ 54 ≤ T.toNat → exec (.br c off lnk) s = .next fault13) ∧
    (goes s (.call c off r) → T.toNat < 5 * 2 ^ 54 → ∃ t, exec (.call c off r) s = .next t ∧ taken t T ∧
      ∀ p : Reg, (t.ctx s.cur).p[p] = if p = r then k.pc + 3 else k.p[p]) ∧
    (goes s (.call c off r) → 5 * 2 ^ 54 ≤ T.toNat → exec (.call c off r) s = .next fault13) ∧
    (goes s (.jmp c s1) → reads s .d (.jmp c s1) g →
      let J : Word := g.a.val.setWidth 64
      (J.toNat < 5 * 2 ^ 54 → ∃ t, exec (.jmp c s1) s = .next t ∧ taken t J ∧
        ∀ p : Reg, Opd.updates s1 ≠ some p → (t.ctx s.cur).p[p] = k.p[p]) ∧
      (5 * 2 ^ 54 ≤ J.toNat → exec (.jmp c s1) s = .next fault13)) ∧
    (goes s (.jmpl c d s1) → reads s .d (.jmpl c d s1) g →
      let J : Word := g.a.val.setWidth 64
      (J.toNat < 5 * 2 ^ 54 → ∃ t, exec (.jmpl c d s1) s = .next t ∧ taken t J ∧
        (∀ p, d = .preg p → (t.ctx s.cur).p[p] = k.pc + 3) ∧ (d = .acc → (t.ctx s.cur).a.setWidth 64 = k.pc + 3) ∧
        (∀ p : Reg, Opd.updates s1 ≠ some p → Opd.updates d ≠ some p → d ≠ .preg p → (t.ctx s.cur).p[p] = k.p[p]) ∧
        (Opd.isMem d → let ptr := s.here.ea d 8
          (spaceOf ptr ≠ 0 → ∀ a, mget 0 ((t.loc s.cur).buf (spaceOf ptr)) a =
            wrote (leBytes 8 (k.pc + 3).toNat) (addrOf ptr) (mget 0 (s.here.buf (spaceOf ptr))) a) ∧
          (spaceOf ptr = 0 → ∃ q : GStore, (t.ctx s.cur).stq = k.stq ++ [q] ∧ q.va = ptr ∧ q.bytes = leBytes 8 (k.pc + 3).toNat))) ∧
      (5 * 2 ^ 54 ≤ J.toNat → exec (.jmpl c d s1) s = .next fault13))

/-- R127, R195, R197, R206, R91, R152. A NOP retires in any slot: PC moves to the next slot, or after the second delay slot to BTGT, where
loops that hold the transferring slot and not the target end unless the transfer linked; DS falls, PFXV clears, one retirement counts. -/
def Obligations.SlotsAdvanceAndDelaySlotsEnd : Prop :=
  ∀ s : State, goes s .nop →
    let c := s.here.ctx
    ∃ t, exec .nop s = .next t ∧
      let e := t.ctx s.cur
      let inBody : Nat → Word → Prop := fun j x => c.lbeg j ≤ x ∧ x ≤ c.lend j
      (stDS c.stat = 0 → e.pc = c.pc + 1 ∧ stDS e.stat = 0 ∧ stLPD e.stat = stLPD c.stat ∧ e.endTest = (c.endTest || atLend c)) ∧
      (stDS c.stat = 2 → e.pc = c.pc + 1 ∧ stDS e.stat = 1 ∧ stLPD e.stat = stLPD c.stat) ∧
      (stDS c.stat = 1 → e.pc = c.btgt ∧ stDS e.stat = 0 ∧ e.tgtCheck = c.taken ∧
        (c.linked = true → stLPD e.stat = stLPD c.stat) ∧
        (c.linked = false → stLPD c.stat = 1 →
          stLPD e.stat = if inBody 0 (c.pc - 2) ∧ ¬ inBody 0 c.btgt then 0 else 1) ∧
        (c.linked = false → stLPD c.stat = 2 → stLPD e.stat = 2 - ((if inBody 0 (c.pc - 2) ∧ ¬ inBody 0 c.btgt then 1 else 0) +
          (if inBody 1 (c.pc - 2) ∧ ¬ inBody 1 c.btgt then 1 else 0))) ∧
        (c.linked = false → stLPD c.stat = 0 → stLPD e.stat = 0)) ∧
      e.dleft = c.dleft - 1 ∧ stPFXV e.stat = false ∧ e.p = c.p ∧ e.a = c.a ∧ State.outsideAlike s t

/-- R198, R199. LOOP: a zero count skips the body, otherwise the next set takes the body and the count less one, or fault 0x07 past two levels
or outside the enclosing body. The end test goes back to the body while the count is above zero and else leaves it; where the outer loop ends in the
same slot, the test runs again for it. -/
def Obligations.LoopsSetUpAndRepeat : Prop :=
  ∀ (s : State) (cnt : Opd) (off : BitVec 32) (cid : Nat),
    let c := s.here.ctx
    let last := c.pc + off.signExtend 64
    let n : Word := match cnt with | .imm x => x.setWidth 64 | .preg p => c.p[p] | _ => 0
    let fits := stLPD c.stat = 1 ∧ c.lbeg0 ≤ c.pc + 1 ∧ last ≤ c.lend0
    let i : Instr := .loop cnt off
    (goes s i → n = 0 → ∃ t, exec i s = .next t ∧ (t.ctx s.cur).pc = last + 1 ∧ stLPD (t.ctx s.cur).stat = stLPD c.stat) ∧
    (goes s i → n ≠ 0 → stLPD c.stat = 0 → ∃ t, exec i s = .next t ∧
      let e := t.ctx s.cur
      e.pc = c.pc + 1 ∧ stLPD e.stat = 1 ∧ e.lbeg0 = c.pc + 1 ∧ e.lend0 = last ∧ e.lcnt0 = n - 1 ∧
      e.lbeg1 = c.lbeg1 ∧ e.lend1 = c.lend1 ∧ e.lcnt1 = c.lcnt1 ∧ e.p = c.p ∧ State.outsideAlike s t) ∧
    (goes s i → n ≠ 0 → fits → ∃ t, exec i s = .next t ∧
      let e := t.ctx s.cur
      e.pc = c.pc + 1 ∧ stLPD e.stat = 2 ∧ e.lbeg1 = c.pc + 1 ∧ e.lend1 = last ∧ e.lcnt1 = n - 1 ∧
      e.lbeg0 = c.lbeg0 ∧ e.lend0 = c.lend0 ∧ e.lcnt0 = c.lcnt0) ∧
    (goes s i → n ≠ 0 → stLPD c.stat ≠ 0 → ¬ fits → exec i s = .next (s.putLoc (raise s.here (faultOf 0x07)))) ∧
    (s.hub.up → (s.ctx cid).status = .issuing → (s.ctx cid).endTest →
      let c := s.ctx cid
      let j := stLPD c.stat - 1
      ∃ t, exec (.loopEndTest cid) s = .next t ∧
        let e := t.ctx cid
        e.endTest = false ∧
        (stLPD c.stat = 0 → e.pc = c.pc) ∧
        (stLPD c.stat ≠ 0 → c.lcnt j ≠ 0 → e.pc = c.lbeg j ∧ e.lcnt j = c.lcnt j - 1 ∧ stLPD e.stat = stLPD c.stat) ∧
        (stLPD c.stat = 1 → c.lcnt 0 = 0 → e.pc = c.lend 0 + 1 ∧ stLPD e.stat = 0) ∧
        (stLPD c.stat = 2 → c.lcnt 1 = 0 → c.lend 1 ≠ c.lend 0 → e.pc = c.lend 1 + 1 ∧ stLPD e.stat = 1) ∧
        (stLPD c.stat = 2 → c.lcnt 1 = 0 → c.lend 1 = c.lend 0 →
          (c.lcnt 0 ≠ 0 → e.pc = c.lbeg 0 ∧ e.lcnt 0 = c.lcnt 0 - 1 ∧ stLPD e.stat = 1) ∧
          (c.lcnt 0 = 0 → e.pc = c.lend 0 + 1 ∧ stLPD e.stat = 0)))

/-- R201, R202, R124. REP runs the instruction of the next slot once an issue: Pn falls by one, PC stays and one retirement counts; with Pn = 0
it ends at PC + 2. A word of class C, or with Pn above 0 one that names Pn, is fault 0x01, and a slot that is LEND of an active loop 0x04. Only
the result of the instance itself changes anything else, and the last instance counts an illegal pair that the repeated slot heads (the model's
reading: log entry 101). The class of the word comes first, then its naming of Pn, then the place of the REP, then every other fault of the word
(the model's order: log entry 28). The repeated line, read sound, ends the count of its mismatches (R104). -/
def Obligations.RepRunsOneInstance : Prop :=
  ∀ (s : State) (p : Reg) (i : Instr) (f : Env → Args → Out) (v : View) (g : Args),
    let r : Instr := .rep (.preg p)
    let c := s.here.ctx
    let h := s.here.setBad (c.pc + 1) 0
    (∀ x, goes s r → repInstr s.here p = .fault x → c.p[p] ≠ 0 →
      exec r s = .next (s.putLoc (raise s.here (if atAnyLend c then faultOf 0x04 else x)))) ∧
    (goes s r → repInstr s.here p = .barred → exec r s = .next (s.putLoc (raise s.here (faultOf 0x01)))) ∧
    (goes s r → repInstr s.here p = .instr i → classOf i ≠ .c → (c.p[p] = 0 ∨ namesReg i p = false) → atAnyLend c →
      exec r s = .next (s.putLoc (raise s.here (faultOf 0x04)))) ∧
    (goes s r → repInstr s.here p = .instr i → atAnyLend c = false → c.dleft ≠ 0 →
    (c.p[p] = 0 → classOf i ≠ .c → ∃ t, exec r s = .next t ∧ (t.ctx s.cur).pc = c.pc + 2 ∧ (t.ctx s.cur).dleft = c.dleft - 1 ∧
      (t.ctx s.cur).p = c.p) ∧
    (classOf i = .c ∨ (c.p[p] ≠ 0 ∧ namesReg i p) → exec r s = .next (s.putLoc (raise s.here (faultOf 0x01)))) ∧
    (c.p[p] ≠ 0 → classOf i ≠ .c → namesReg i p = false → pairsOk i → stPRIV c.stat ≥ privOf i → condHolds c.stat (condOf i) →
      bodyOf i = some (fun _ l => do let l1 ← pureOp i v f l; .ok (l1, id)) → fetchArgs h v (envOf c i).rm (shape i) = .ok g →
      let l := h.result i g (f (envOf c i) g)
      let p' := l.ctx.p.set p (c.p[p] - 1)
      let c' : Ctx := { l.ctx with p := p', landed := [], bmov := 0, status := .issuing, dleft := c.dleft - 1 }
      let core' : Core := if repPair s.here ∧ c.p[p] = 1 then { l.core with serc := sercInc l.core.serc } else l.core
      exec r s = .next (s.putLoc { l with next := .gone, ctx := c', core := core' })))

/-- R208, R209, R259, R287, R356. WAIT parks until every count is at or below its ceiling; then it raises the deferred fault of the first class that
it covers in the order TL, CP, ST, LD, with KIND 2 and the class in DCL, and else retires, whatever classes it does not cover hold. A FENCE with
rel waits for the stores of the context and binds the next store; an acquire wider than the core empties the D-cache and takes a signature of all
ones (R356), and it empties the I-cache too, which is the model's choice (log entry 13). QFENCE takes no time. -/
def Obligations.WaitsAndEngineFences : Prop :=
  ∀ (s : State) (c : Cond) (ceil : BitVec 24) (o : Ord) (sc : Scope) (m : BitVec 4),
    let k := s.here.ctx
    let low : Prop := ∀ j < 4, k.cnt.toNat / 2 ^ (6 * j) % 64 ≤ ceil.toNat / 2 ^ (6 * j) % 64
    let covers : Nat → Prop := fun j => ceil.toNat / 2 ^ (6 * j) % 64 < 63
    let deferred : Nat → Option DefFault := fun j => [k.defLD, k.defST, k.defCP, k.defTL].getD j none
    (goes s (.wait c ceil) → low → (∀ j < 4, covers j → deferred j = none) → ∃ t, exec (.wait c ceil) s = .next t ∧
      (t.ctx s.cur).pc = (retire s.here).ctx.pc ∧ (t.ctx s.cur).cnt = k.cnt ∧ (t.ctx s.cur).p = k.p ∧ State.outsideAlike s t) ∧
    (goes s (.wait c ceil) → ¬ low → exec (.wait c ceil) s = .next (s.putLoc (s.here.parkAs .wait))) ∧
    (∀ j < 4, ∀ f, goes s (.wait c ceil) → low → covers j → deferred j = some f → (∀ i < 4, j < i → covers i → deferred i = none) →
      exec (.wait c ceil) s = .next (s.putLoc (raise s.here
        { code := f.code, addr := f.addr, acc := 3, kind := 2, dcl := BitVec.ofNat 2 j, merged := f.merged, status := f.status, tid := f.tid }))) ∧
    (goes s (.fence c .acq sc) → exec (.fence c .acq sc) s = .next (s.retired
      (if sc = .core then s.here
       else { s.here with core := { s.here.core with dcache := [], icache := [] }, ctx := { k with sig := BitVec.allOnes 256 } }))) ∧
    (goes s (.fence c o sc) → o = .rel ∨ o = .ar → k.stq = [] → k.cnt.toNat / 2 ^ 6 % 64 = 0 →
      (sc = .sys → ∀ h ∈ s.hub.held, h.by_ ≠ some s.cur) →
      ∃ t, exec (.fence c o sc) s = .next t ∧ (t.ctx s.cur).relNext = some sc ∧ (t.ctx s.cur).status = .issuing) ∧
    (goes s (.fence c o sc) → o = .rel ∨ o = .ar → k.stq ≠ [] →
      exec (.fence c o sc) s = .next (s.putLoc (s.here.parkAs .fence))) ∧
    (goes s (.qfence c m) → ∃ t, exec (.qfence c m) s = .next t ∧ (t.ctx s.cur).pc = (retire s.here).ctx.pc ∧
      (t.ctx s.cur).p = k.p ∧ State.outsideAlike s t)

/-- R114, R196. An instruction whose condition is false retires with no effect but PFXV, the retirement count and PC; a transfer sets DS to 2
and BTGT to the slot after its second delay slot, and writes no link. -/
def Obligations.FalsePredicateOnlyRetires : Prop :=
  ∀ (i : Instr) (s : State), ownEffect i → s.hub.up → s.here.ctx.status = .issuing → decodeFault s.here.ctx i = none →
    condHolds s.here.ctx.stat (condOf i) = false → s.here.ctx.dleft ≠ 0 →
    ∃ t, exec i s = .next t ∧
      let c := s.here.ctx
      let e := t.ctx s.cur
      e.p = c.p ∧ e.a = c.a ∧ e.outbox = c.outbox ∧ e.stq = c.stq ∧ e.cnt = c.cnt ∧ e.pop0 = c.pop0 ∧ e.pop1 = c.pop1 ∧
      e.cir = c.cir ∧ e.dleft = c.dleft - 1 ∧ stPFXV e.stat = false ∧ e.stat &&& 0x1F = c.stat &&& 0x1F ∧ t.hub = s.hub ∧
      State.outsideAlike s t ∧
      (isTransfer i → e.pc = c.pc + 1 ∧ e.btgt = c.pc + 3 ∧ stDS e.stat = 2) ∧
      (isTransfer i = false → stDS c.stat = 0 → e.pc = c.pc + 1)

/-- R134, R79, R97, R99, R128, R129, R133. A decode fault is raised whatever the predicate and before any effect, in the order of R134: the
format word, a delay slot or loop end, a pair base, the privilege. So a supervisor or machine instruction below its privilege is 0x08. -/
def Obligations.DecodeFaultsTakeThePlace : Prop :=
  ∀ (i : Instr) (s : State), ownEffect i → s.hub.up → s.here.ctx.status = .issuing →
    let c := s.here.ctx
    let prefixed := stPFXV c.stat = true
    let raises : BitVec 8 → Prop := fun code => exec i s = .next (s.putLoc (raise s.here (faultOf code)))
    (prefixed → prefixValuesOk i (stPFXW c.stat) = false → raises 0x01) ∧
    (prefixed → prefixValuesOk i (stPFXW c.stat) = true → prefixUnusedOk i (stPFXW c.stat) = false → raises 0x02) ∧
    (¬ prefixed → stDS c.stat ≠ 0 → slotBarred (stDS c.stat == 1) i → raises 0x04) ∧
    (¬ prefixed → isTransfer i → stDS c.stat = 0 →
      (∃ j < stLPD c.stat, c.lbeg j ≤ c.pc ∧ c.pc ≤ c.lend j ∧ (c.lend j).toNat ≤ c.pc.toNat + 2) → raises 0x04) ∧
    (¬ prefixed → stDS c.stat = 0 → isTransfer i = false → pairsOk i = false → raises 0x05) ∧
    (¬ prefixed → stDS c.stat = 0 → isTransfer i = false → pairsOk i = true → stPRIV c.stat < privOf i → raises 0x08)

/-- R206. With no retirement left, an instruction whose effect completes, or an atomic that would set out for its home, takes fault 0x09 instead
and has no effect: every instruction but END, YIELD, BMOV and REP, and these too when their predicate is false. One that has still to wait before it
can retire waits, and is tested then. BMOV and REP test at each step of their own (R202, R252). YIELD sets the count of retirements left, whatever it was. The watchdog is told of an instruction about to retire by its own
event too. -/
def Obligations.DeadlineFaultsInPlaceOfRetirement : Prop :=
  ∀ (s : State) (i : Instr) (f : State → Loc → Res (Loc × (State → State))) (r : Loc × (State → State)) (l : Loc) (p : Park) (c : Cond)
      (lv : BitVec 9) (dl : BitVec 12),
    let expired : Instr → Prop := fun j => exec j s = .next (s.putLoc (raise s.here (faultOf 0x09)))
    (s.hub.up → s.hub.recs = [] → s.here.ctx.status = .issuing → s.here.ctx.dleft = 0 → decodeFault s.here.ctx i = none →
      (condHolds s.here.ctx.stat (condOf i) = true → noDeadline i = false → effectOf i = some f → f s s.here = .ok r → expired i) ∧
      (condHolds s.here.ctx.stat (condOf i) = true → noDeadline i = false → effectOf i = some f → f s s.here = .error (.park l p) →
        (p.pure = false → expired i) ∧ (p.pure → exec i s = .next (s.putLoc (l.parkAs p)))) ∧
      (condHolds s.here.ctx.stat (condOf i) = false → (effectOf i).isSome → expired i)) ∧
    (goes s (.yield c lv dl) → dl ≠ 0 → s.here.ctx.preempt = false →
      ∃ t, exec (.yield c lv dl) s = .next t ∧ (t.ctx s.cur).dleft = dl.toNat ∧ (t.ctx s.cur).dl = dl.toNat ∧
        (t.ctx s.cur).status = .issuing ∧ (t.ctx s.cur).p = s.here.ctx.p) ∧
    (s.hub.up → s.here.ctx.status = .issuing → s.here.ctx.dleft = 0 → s.here.ctx.endTest = false →
      fetchNext s.here = .run l i → decodeFault l.ctx i = none →
      (noDeadline i = false ∨ condHolds l.ctx.stat (condOf i) = false) → wouldRetire i s l →
      exec (.watchdogExpiry s.cur) s = .next (s.putLoc (raise s.here (faultOf 0x09))))

/-- R146, R247, R248. LD and LDA to a register park until the data have arrived and then write them, sign- or zero-extended; LD to a buffer
retires and counts in CNT.LD; LOAD_DATA_ARRIVAL delivers the bytes of the core's D-cache line or of the home, and changes no memory. An
asynchronous LD lands the bytes of the home, never those of the D-cache: the model's reading (log entry 50). -/
def Obligations.LoadsParkAndLand : Prop :=
  ∀ (s : State) (v : View) (c : Cond) (u : Bool) (d s1 : Opd) (o : Ord) (sc : Scope) (g : Args) (t : Tlb) (x : Landed) (cid k : Nat),
    let n := View.sc v
    let l := s.here
    let ptr := l.ea s1 n
    let key := t.keyOf (addrOf ptr)
    let ld : Instr := .ld v c u d s1
    let lda : Instr := .lda v c u o sc d s1
    let found := l.ctx.landed.find? (fun e => e.va == ptr && e.n == n && !e.atom)
    let src := l.based s1 { val := x.val, pois := x.pois, ptr := ptr }
    let done : Instr → Loc := fun i => (l.take (shape i) { g with a := src }).writeScalar g.dst (8 * n) u x.val src.pois
    (goes s ld → Opd.isMem d = false → l.reaches ptr n .read t → l.ctx.landed = [] →
      exec ld s = .next (s.putLoc (l.parkAs (.load ptr key n false none t.nc t.trk)))) ∧
    (goes s lda → l.reaches ptr n .read t → l.ctx.landed = [] →
      exec lda s = .next (s.putLoc (l.parkAs (.load ptr key n (sc != .core) (acqOf o sc) t.nc t.trk)))) ∧
    (goes s ld → Opd.isMem d = false → spaceOf ptr = 0 → addrOf ptr % n = 0 → found = some x → reads s v ld g →
      exec ld s = .next (s.retired (done ld))) ∧
    (goes s lda → spaceOf ptr = 0 → addrOf ptr % n = 0 → found = some x → reads s v lda g → exec lda s = .next (s.retired (done lda))) ∧
    (goes s lda → inBuffer ptr n n → spaceOf ptr = 4 → reads s v lda g →
      let q := quadOf (bytesAt (l.buf 4) (addrOf ptr) n)
      let from_ := l.based s1 { val := q, pois := l.bufPois 4 (addrOf ptr) n, ptr := ptr }
      let l1 := l.take (shape lda) { g with a := from_ }
      exec lda s = .next (s.retired ((if (o = .acq ∨ o = .ar) ∧ sc ≠ .core then l1.acquire (BitVec.allOnes 256) else l1).writeScalar
        g.dst (8 * n) u q from_.pois))) ∧
    (goes s ld → Opd.isMem d → l.reaches ptr (natAlign n) .read t → inBuffer (l.ea d n) n (natAlign n) → l.ctx.cntOf 0 < 63 →
      ∃ w po, exec ld s = .next w ∧ (w.ctx s.cur).cntOf 0 = l.ctx.cntOf 0 + 1 ∧ (w.ctx s.cur).pc = (retire l).ctx.pc ∧
        (w.ctx s.cur).aldq = l.ctx.aldq ++ [{ pa := key, va := ptr, n := n, space := spaceOf (l.ea d n), off := addrOf (l.ea d n), trk := t.trk,
                                              nc := t.nc, pois := po, seq := l.core.seq }] ∧
        State.outsideAlike s w) ∧
    (∀ va pa m home acq nc trk, s.hub.up → (s.ctx cid).status = .parked (.load va pa m home acq nc trk) → s.plain pa m → m ≤ 16 →
      ownPending (corePending s (coreOfCid cid)) pa m = false →
      let bs := match (if home then none else dlineOf s (coreOfCid cid) pa) with
        | some e => (e.bytes.drop (pa % 64)).take m
        | none => homeBytes s pa m
      ∃ w po, exec (.loadDataArrival cid none) s = .next w ∧ (w.ctx cid).status = .issuing ∧
        (w.ctx cid).landed = (s.ctx cid).landed ++ [{ va := va, n := bs.length, val := quadOf bs, pois := po, flag := false, atom := false, eq := false }] ∧
        ∀ a, homeByte w a = homeByte s a) ∧
    (∀ e : ALoad, s.hub.up → (s.ctx cid).aldq[k]? = some e → s.plain e.pa e.n →
      ownPending ((corePending s (coreOfCid cid)).filter (fun g => decide (g.seq < e.seq))) e.pa e.n = false → e.space ∈ [1, 2, 3, 4] →
      ∃ w, exec (.loadDataArrival cid (some k)) s = .next w ∧ (w.ctx cid).aldq = dropAt (s.ctx cid).aldq k ∧
        (w.ctx cid).cntOf 0 = (s.ctx cid).cntOf 0 - 1 ∧ (∀ a, homeByte w a = homeByte s a) ∧
        ∀ a, mget 0 ((w.loc cid).buf e.space) a = wrote (homeBytes s e.pa e.n) e.off (mget 0 ((s.loc cid).buf e.space)) a)

/-- R249-R251, R259. ST and STL to G retire with their bytes queued at the address of D, stamped with the core's drift and with the release
of their order or of a FENCE before them, and count in CNT.ST; STL to S writes the bytes at once. Neither changes memory when it retires. -/
def Obligations.StoresWaitInTheContext : Prop :=
  ∀ (s : State) (v : View) (c : Cond) (irv : Bool) (o : Ord) (sc : Scope) (d s1 : Opd) (a : Src) (t : Tlb),
    let n := View.sc v
    let l := s.here
    let ptr := l.ea d n
    let st : Instr := .st v c irv o sc d s1
    let stl : Instr := .stl v c o sc d s1
    let queued : Bool → State → Prop := fun iv w =>
      (∃ g : GStore, (w.ctx s.cur).stq = l.ctx.stq ++ [g] ∧ g.pa = t.keyOf (addrOf ptr) ∧ g.va = ptr ∧ g.bytes = leBytes n a.val.toNat ∧
        g.irv = iv ∧ g.rel = relWith (relOf o sc) l.ctx.relNext ∧ g.stamp = stampOf l.hub l.core.late ∧ g.trk = t.trk ∧ g.seq = l.core.seq) ∧
      (w.ctx s.cur).cntOf 1 = l.ctx.cntOf 1 + 1 ∧ (w.ctx s.cur).relNext = none ∧ (w.ctx s.cur).pc = (retire l).ctx.pc ∧
      State.outsideAlike s w ∧ ∀ x, ramByte w.mem x = ramByte s.mem x
    (goes s st → fetchOpt l v (stRM l.ctx.stat) (shape st).s1 = .ok a → l.reaches ptr n .write t → l.ctx.cntOf 1 < 63 →
      ∃ w, exec st s = .next w ∧ queued irv w) ∧
    (goes s stl → fetchOpt l v (stRM l.ctx.stat) (shape stl).s1 = .ok a → l.reaches ptr n .write t → l.ctx.cntOf 1 < 63 →
      ∃ w, exec stl s = .next w ∧ queued false w) ∧
    (goes s stl → fetchOpt l v (stRM l.ctx.stat) (shape stl).s1 = .ok a → inBuffer ptr n n → spaceOf ptr = 4 →
      (∀ r, relWith (relOf o sc) l.ctx.relNext = some r → relReady l r) →
      ∃ w, exec stl s = .next w ∧ (w.ctx s.cur).stq = l.ctx.stq ∧ (w.ctx s.cur).relNext = none ∧
        (w.ctx s.cur).pc = (retire l).ctx.pc ∧ State.outsideAlike s w ∧ (∀ x, ramByte w.mem x = ramByte s.mem x) ∧
        ∀ x, mget 0 ((w.loc s.cur).buf 4) x = wrote (leBytes n a.val.toNat) (addrOf ptr) (mget 0 (l.buf 4)) x)

/-- R249, R404, R414, R416. STORE_PERFORMED of the k-th queued store makes its bytes, and no others, the ones that device agents read at its
address; memory itself takes them at once when the page is tracked or the store has IRV, and keeps its bytes while the store is held. Only the
windbreak log of a tracked page's channel may change besides (R409). -/
def Obligations.StorePerformedWritesMemory : Prop :=
  ∀ (s : State) (cid k : Nat) (g : GStore),
    let c := s.ctx cid
    let elsewhere : Nat → Prop := fun a => tracked s.hub g.pa → ¬ inLog s.hub g.pa a
    s.hub.up → c.stq[k]? = some g → s.plain g.pa g.bytes.length → storeBarred s cid g = false →
    relMay s.hub cid (quietBefore c g.seq) g.rel → s.logs g.pa g.stamp →
    (tracked s.hub g.pa = false → g.irv = false → sliceFull s g.pa = false) →
    ∃ t, exec (.storePerformed cid k) s = .next t ∧ (t.ctx cid).stq = dropAt c.stq k ∧ (t.ctx cid).cntOf 1 = c.cntOf 1 - 1 ∧
      (∀ a, elsewhere a → homeByte t a = wrote g.bytes g.pa (homeByte s) a) ∧
      (tracked s.hub g.pa ∨ g.irv → ∀ a, elsewhere a → ramByte t.mem a = wrote g.bytes g.pa (ramByte s.mem) a) ∧
      (tracked s.hub g.pa = false → g.irv = false → ∀ a, ramByte t.mem a = ramByte s.mem a) ∧
      (tracked s.hub g.pa = false → (t.ctx cid).irv) ∧
      ∀ j, j ≠ cid → Ctx.alike (t.ctx j) (s.ctx j)

/-- R256, R257. Each atomic parks with its operands and is performed at its home in one step: the old bytes land, the new value takes their place (a
failing ACAS writes nothing), CIR.IRV is set; then D receives the old value, zero-extended in a P register, and ACAS sets Z when
it stored. One that names W, X, Y or S is performed there. An AADD with NZ whose result is zero sends its address to the actor that NTGT names. -/
def Obligations.AtomicsReadModifyWrite : Prop :=
  ∀ (s : State) (v : View) (c : Cond) (nz u : Bool) (o : Ord) (sc : Scope) (d s1 s2 : Opd) (g : Args) (t : Tlb) (x : Landed) (cid : Nat)
    (r : AtomReq),
    let n := View.sc v
    let l := s.here
    let ptr := l.ea s1 n
    let found := l.ctx.landed.find? (fun e => e.va == ptr && e.atom)
    let src := l.based s1 { val := x.val, pois := x.pois, ptr := l.poisPtr ptr n }
    let runs : Instr → AtomOp → Bool → Prop := fun i op z =>
      goes s i → reads s v i g →
      (l.ctx.landed = [] → l.reaches ptr n .atomic t → exec i s = .next (s.putLoc (l.parkAs (.atomic
        { va := ptr, pa := t.keyOf (addrOf ptr), op := op, bytes := n, operand := g.b.val.setWidth 64, expected := g.d.val.setWidth 64, ord := o,
          sc := sc, rel := relWith (relOf o sc) l.ctx.relNext, nz := z, ntgt := l.ctx.ntgt, pois := g.pois, trk := t.trk, stamp := stampOf l.hub l.core.late })))) ∧
      (l.ctx.landed = [] → inBuffer ptr n n → exec i s = .next (s.putLoc (l.parkAs (.atomic
        { va := ptr, pa := addrOf ptr, op := op, bytes := n, operand := g.b.val.setWidth 64, expected := g.d.val.setWidth 64, ord := o, sc := sc,
          rel := relWith (relOf o sc) (if spaceOf ptr = 4 then l.ctx.relNext else none), nz := z, ntgt := l.ctx.ntgt, pois := g.pois, trk := true,
          stamp := stampOf l.hub l.core.late })))) ∧
      (found = some x →
        let l0 := if spaceOf ptr = 0 ∨ spaceOf ptr = 4 then { l with ctx := { l.ctx with relNext := none } } else l
        let l1 := l0.take (shape i) { g with a := src }
        let l2 := if op = .cas then l1.flags { noFlags with z := some x.flag } else l1
        exec i s = .next (s.retired ((l2.cirSet 2).writeScalar g.dst (8 * n) (Dst.isPreg g.dst) x.val (src.pois || g.b.pois || g.d.pois))))
    runs (.aadd v c nz o sc d s1 s2) .add nz ∧ runs (.aand v c o sc d s1 s2) .and false ∧ runs (.aor v c o sc d s1 s2) .or false ∧
    runs (.axor v c o sc d s1 s2) .xor false ∧ runs (.amin v c u o sc d s1 s2) (if u then .umin else .min) false ∧
    runs (.amax v c u o sc d s1 s2) (if u then .umax else .max) false ∧ runs (.aswp v c o sc d s1 s2) .swp false ∧
    runs (.acas v c o sc d s1 s2) .cas false ∧
    (let w := 8 * r.bytes
     let number_ : Nat → Int := fun y => if r.op = .umin ∨ r.op = .umax then (y % 2 ^ w : Nat) else signed w y
     let becomes : Nat → Nat := fun old =>
       let a := r.operand.toNat % 2 ^ w
       match r.op with
       | .add => (old + a) % 2 ^ w
       | .and => old &&& a
       | .or => old ||| a
       | .xor => old ^^^ a
       | .min | .umin => if number_ old ≤ number_ a then old else a
       | .max | .umax => if number_ a ≤ number_ old then old else a
       | .swp => a
       | .cas => if old = r.expected.toNat % 2 ^ w then a else old
     let zero : Nat → Prop := fun old => r.op = .add ∧ r.nz ∧ becomes old = 0 ∧ r.ntgt ≠ 0
     let quiet : Nat → Prop := fun old => ¬ zero old ∨ placed s.hub r.ntgt
     let told : State → Nat → Prop := fun q old => zero old → placed s.hub r.ntgt →
       ∃ f, q.hub.flight = s.hub.flight ++ [f] ∧ f.kind = .notify ∧ f.dest = .addr r.ntgt ∧ f.tok.payload = r.va.setWidth 128
     let after : State → Nat → Prop := fun q old =>
       (q.ctx cid).status = .issuing ∧ (q.ctx cid).cir.getLsbD 2 ∧
       ∃ po, (q.ctx cid).landed = (s.ctx cid).landed ++
         [{ va := r.va, n := r.bytes, val := BitVec.ofNat 128 old, pois := po, flag := decide (r.op ≠ .cas ∨ old = r.expected.toNat % 2 ^ w), atom := true, eq := false }]
     let done : State → Nat → Prop := fun q old =>
       exec (.atomicPerformed cid) s = .next (wholeStep s q) ∧ (quiet old → exec (.atomicPerformed cid) s = .next q) ∧ after q old ∧ told q old
     s.hub.up → (s.ctx cid).status = .parked (.atomic r) → r.bytes ∈ [4, 8] → relMay s.hub cid (quietAll (s.ctx cid)) r.rel →
     (spaceOf r.va = 0 → s.plain r.pa r.bytes → atomBarred s cid r = false → s.logs r.pa r.stamp →
       let old := leVal (homeBytes s r.pa r.bytes)
       ∃ q, done q old ∧
         (quiet old → ∀ a, (tracked s.hub r.pa → ¬ inLog s.hub r.pa a) → homeByte q a = wrote (leBytes r.bytes (becomes old)) r.pa (homeByte s) a)) ∧
     (spaceOf r.va ∈ [1, 2, 3, 4] →
       let sp := spaceOf r.va
       let old := leVal (bytesAt ((s.loc cid).buf sp) r.pa r.bytes)
       ∃ q, done q old ∧ (quiet old → ∀ a, homeByte q a = homeByte s a) ∧
         ∀ a, mget 0 ((q.loc cid).buf sp) a = wrote (leBytes r.bytes (becomes old)) r.pa (mget 0 ((s.loc cid).buf sp)) a))

/-- R252, R254, R255. BMOV moves one element an issue and keeps its progress in its registers; with a count of 0 it retires, and consumes the
poison of its registers if it has moved nothing. PREF leaves its context as a retirement does, changes no byte of memory where the
translations of its lines are cached (a walk marks the page as accessed), and outside G only retires. L1INV empties the D-cache, or takes the named line out of it. -/
def Obligations.BlockMovesPrefetchesAndInvalidations : Prop :=
  ∀ (s : State) (v : View) (c : Cond) (pd ps pc : Reg) (s1 : Opd) (nl : BitVec 6) (llc : Bool) (g : Args),
    let n := View.sc v
    let l := s.here
    let move : Instr := .bmov v c (.preg pd) (.preg ps) (.preg pc)
    let pref : Instr := .pref c s1 nl llc
    let inv : Instr := .l1inv c s1 false
    (goes s move → l.p pc = 0 → (l.ctx.bmov = 0 → l.ctx.dleft ≠ 0) →
      exec move s = .next (s.retired (if l.ctx.bmov = 0 then l.consumeRegs [pd, ps, pc] else { l with dl := some l.ctx.dleft }))) ∧
    (goes s move → l.p pc ≠ 0 → l.ctx.dleft ≠ 0 → pd ≠ ps → pd ≠ pc → ps ≠ pc → inBuffer (l.p ps) n n → inBuffer (l.p pd) n n →
      ∃ t, exec move s = .next t ∧ (t.ctx s.cur).status = .issuing ∧ (t.ctx s.cur).pc = l.ctx.pc ∧
        (t.ctx s.cur).p[pc] = l.p pc - 1 ∧ (t.ctx s.cur).p[ps] = ptrAdd (l.p ps) (BitVec.ofNat 64 n) ∧
        (t.ctx s.cur).p[pd] = ptrAdd (l.p pd) (BitVec.ofNat 64 n) ∧ State.outsideAlike s t ∧
        ∀ a, mget 0 ((t.loc s.cur).buf (spaceOf (l.p pd))) a =
          wrote (bytesAt (l.buf (spaceOf (l.p ps))) (addrOf (l.p ps)) n) (addrOf (l.p pd)) (mget 0 (l.buf (spaceOf (l.p pd)))) a) ∧
    (goes s pref → ∃ t, exec pref s = .next t ∧
      let l1 := l.take (shape pref) { a := l.based s1 (clean 0), b := clean 0, x := clean 0, d := clean 0, dst := .none_ }
      t.ctx s.cur = (s.retired l1).ctx s.cur ∧ (spaceOf (l.ea s1 64) ≠ 0 → t = s.retired l1) ∧
      ((∀ i ≤ nl.toNat, ((s.retired l1).here.tlbFind (addrOf (ptrAdd (l.ea s1 64) (BitVec.ofNat 64 (64 * i))) / 64 * 64)).isSome) →
        t.ctxs = (s.retired l1).ctxs ∧ ∀ a, homeByte t a = homeByte s a)) ∧
    (goes s (.l1inv c s1 true) → ∃ t, exec (.l1inv c s1 true) s = .next t ∧ (mget emptyCore t.cores (coreOfCid s.cur)).dcache = [] ∧
      (t.ctx s.cur).pc = (retire l).ctx.pc ∧ State.outsideAlike s t) ∧
    (goes s inv → reads s .d inv g → ∃ t, exec inv s = .next t ∧ (t.ctx s.cur).pc = (retire l).ctx.pc ∧ State.outsideAlike s t ∧
      let a := g.a.val.toNat % 2 ^ 60
      ∀ e x, (l.take (shape inv) g).tlbFind a = some x → e ∈ (mget emptyCore t.cores (coreOfCid s.cur)).dcache → e.line ≠ x.keyOf a / 64)

/-- R260, R261. RST retires with its message queued and counts in CNT.ST; RST_PERFORM changes one element of the named buffer of the target core,
by the operation and the saturation of its field, and no other byte of that buffer. -/
def Obligations.RemoteStoresAct : Prop :=
  ∀ (s : State) (c : Cond) (u : Bool) (op : RstOp) (wid : EWidth) (p : Reg) (s1 : Opd) (g : Args) (cid k : Nat) (m : RstMsg),
    let l := s.here
    let i : Instr := .rst c u op wid p s1
    let w := EWidth.bits wid
    let e := addrOf (l.p p)
    let sp := spaceOf (l.p p)
    let target := (l.p (p + 1)).toNat % 2048
    (goes s i → reads s .d i g → sp ∈ [1, 2, 3, 4] → inService s.hub target → e * w / 8 < bufSize sp → l.ctx.cntOf 1 < 63 →
      ∃ t po, exec i s = .next t ∧ (t.ctx s.cur).cntOf 1 = l.ctx.cntOf 1 + 1 ∧ (t.ctx s.cur).pc = (retire l).ctx.pc ∧
        (t.ctx s.cur).rstq = l.ctx.rstq ++ [{ core := target, space := sp, elem := e, w := w, u := u, op := op, val := g.a.val.setWidth 8,
                                              pois := po, trig := false, seq := l.core.seq }] ∧
        State.outsideAlike s t) ∧
    (s.hub.up → (s.ctx cid).rstq[k]? = some m → inService s.hub m.core → m.space ∈ [1, 2, 3, 4] →
      (∀ x ∈ (s.ctx cid).rstq.take k, (m.space = 4 → x.space = 4 → clusOfCore x.core ≠ clusOfCore m.core) ∧
        (m.space ≠ 4 → x.space ≠ 4 → x.core ≠ m.core)) →
      ∃ t, exec (.rstPerform cid k) s = .next t ∧ (t.ctx cid).rstq = dropAt (s.ctx cid).rstq k ∧
        (t.ctx cid).cntOf 1 = (s.ctx cid).cntOf 1 - 1 ∧ State.outsideAlike s t ∧
        ∀ a, let old := mget 0 ((s.loc (m.core * 8)).buf m.space)
          mget 0 ((t.loc (m.core * 8)).buf m.space) a = if a = m.elem * m.w / 8 then rstByte m (old a) else old a) ∧
    (m.w ∈ [2, 4, 8] → ∀ b : Byte,
      let lo := m.elem * m.w % 8
      let f := b.toNat / 2 ^ lo % 2 ^ m.w
      let y := m.val.toNat % 2 ^ m.w
      let field := (rstByte m b).toNat / 2 ^ lo % 2 ^ m.w
      (m.op = .st → field = y) ∧ (m.op = .or → field = f ||| y) ∧ (m.op = .and → field = f &&& y) ∧
      (m.op = .add → field = wrapped m.w (if m.u then heldZ m.w ((f : Int) + y) else heldS m.w (signed m.w f + signed m.w y))) ∧
      (rstByte m b).toNat % 2 ^ lo = b.toNat % 2 ^ lo ∧ (rstByte m b).toNat / 2 ^ (lo + m.w) = b.toNat / 2 ^ (lo + m.w))

/-- R258. WAITA whose value differs from its comparand reads it at once, else the context parks on the address; a write to the line, the time
2^(TMO+6) cclk or a re-read wakes it with the value. D then receives the value, Z says that it equals the comparand, C that time ran out. -/
def Obligations.WaitaSeesTheValue : Prop :=
  ∀ (s : State) (v : View) (c : Cond) (tmo : BitVec 5) (o : Ord) (sc : Scope) (d s1 s2 : Opd) (g : Args) (x : Landed) (cid : Nat)
    (r : WaitaReq),
    let n := View.sc v
    let l := s.here
    let ptr := l.ea s1 n
    let i : Instr := .waita v c tmo o sc d s1 s2
    let src := l.based s1 { val := x.val, pois := x.pois, ptr := ptr }
    let seen := leVal (bytesAt (l.buf 4) (addrOf ptr) n)
    let cmp := (g.b.val.setWidth 64).toNat % 2 ^ (8 * n)
    let value := if spaceOf r.va = 0 then leVal (homeBytes s r.pa r.bytes) else leVal (bytesAt ((s.loc cid).buf 4) r.pa r.bytes)
    let wakes : Instr → Bool → Prop := fun e fl => ∃ t po, exec e s = .next t ∧ (t.ctx cid).status = .issuing ∧
      (t.ctx cid).landed = (s.ctx cid).landed ++
        [{ va := r.va, n := r.bytes, val := BitVec.ofNat 128 value, pois := po, flag := fl, atom := true
           eq := value % 2 ^ (8 * r.bytes) == r.cmp.toNat % 2 ^ (8 * r.bytes) }] ∧
      ∀ a, homeByte t a = homeByte s a
    let waits : Prop := s.hub.up ∧ (s.ctx cid).status = .parked (.waita r) ∧ (spaceOf r.va = 0 → s.plain r.pa r.bytes) ∧ waitaBusy s cid r = false
    (goes s i → reads s v i g → inBuffer ptr n n → spaceOf ptr = 4 → l.ctx.landed = [] → seen % 2 ^ (8 * n) ≠ cmp →
      ∃ t po, exec i s = .next t ∧ (t.ctx s.cur).status = .issuing ∧
        (t.ctx s.cur).landed = [{ va := ptr, n := n, val := BitVec.ofNat 128 seen, pois := po, flag := false, atom := true, eq := false }]) ∧
    (goes s i → reads s v i g → inBuffer ptr n n → spaceOf ptr = 4 → l.ctx.landed = [] → seen % 2 ^ (8 * n) = cmp →
      exec i s = .next (s.putLoc (l.parkAs (.waita { va := ptr, pa := addrOf ptr, bytes := n, cmp := g.b.val.setWidth 64, tmo := tmo,
                                                      acq := acqOf o sc, trk := true, since := s.now, woken := false })))) ∧
    (goes s i → reads s v i g → spaceOf ptr ∈ [0, 4] → addrOf ptr % n = 0 → (spaceOf ptr = 4 → inBuffer ptr n n) →
      l.ctx.landed.find? (fun e => e.va == ptr && e.atom) = some x →
      exec i s = .next (s.retired (((l.take (shape i) { g with a := src }).flags
        { noFlags with z := some x.eq, c := some x.flag }).writeScalar
          g.dst (8 * n) false x.val src.pois))) ∧
    (waits → r.woken → wakes (.waitaWake cid) false) ∧
    (waits → r.tmo.toNat < 31 → r.since + 2 ^ (r.tmo.toNat + 6) ≤ s.now → wakes (.waitaTimeout cid) true) ∧
    (waits → wakes (.waitaReread cid) false)

/-- R194, R203, R205, R221, R223, R236. END, and IDLE, which gates a core without another firing, commit the outbox and leave a dormant context;
JOIN lowers its cell, leaves above 1, continues at 1 with its registers kept, and ends the firing at 0, where it sends a record (a step of the
hub that finds no room for a write stalls the context: log entry 12); a cell that its level may not use is fault 0x19. A requested YIELD saves the
firing. -/
def Obligations.FiringsEndJoinAndYield : Prop :=
  ∀ (s : State) (c : Cond) (live : BitVec 9) (dl : BitVec 12) (p : Reg) (s1 : Opd) (g : Args),
    let l := s.here
    let k := l.ctx
    let core := coreOfCid s.cur
    let quiet : Prop := k.cnt = 0 ∧ k.defLD = none ∧ k.defST = none ∧ k.defCP = none ∧ k.defTL = none
    let ready : Prop := quiet ∧ k.pois = false ∧ refusable s l ≤ 64
    let ended : State → Prop := fun t => t.ctx s.cur = dormantOf k ∧ (∀ j, j ≠ s.cur → t.ctx j = s.ctx j) ∧ t.mem = s.mem
    let join : Instr := .join c (.preg p) s1
    let j := l.p p
    let cell : State → Word := fun t => cellRead t core j 0
    (goes s (.endF c) → ready → k.outbox = [] → ∃ t, exec (.endF c) s = .next t ∧ ended t) ∧
    (∀ x a rch, goes s (.endF c) → ready → k.outbox = [.tok x a rch] → placed s.hub a →
      ∃ t f, exec (.endF c) s = .next t ∧ ended t ∧ t.hub.flight = s.hub.flight ++ [f] ∧ f.kind = .send ∧ f.dest = .addr a ∧
        f.tok.payload = x.payload ∧ f.tok.sender = k.actor ∧ f.tok.pasid = k.pasid ∧ f.tok.tag = mkTag s.cur (adCh a) 0) ∧
    (goes s (.endF c) → k.cnt ≠ 0 → exec (.endF c) s = .next (s.putLoc (l.parkAs .finish))) ∧
    (goes s (.idle c) → ready → k.outbox = [] → (∀ n < 8, core * 8 + n ≠ s.cur → (s.ctx (core * 8 + n)).status = .dormant) →
      ∃ t, exec (.idle c) s = .next t ∧ ended t ∧ (mget emptyCore t.cores core).gated) ∧
    (goes s join → ready → reads s .d join g → spaceOf j = 4 → addrOf j % 8 = 0 → addrOf j ≤ 0x3FFF8 → 1 < k.level →
      exec join s = .next (s.putLoc (raise l (faultOf 0x19)))) ∧
    (goes s join → ready → k.outbox = [] → reads s .d join g → spaceOf j = 4 → addrOf j % 8 = 0 → addrOf j ≤ 0x3FFF8 → k.level ≤ 1 →
      (cell s = 0 → ∃ t, exec join s = .next (wholeIssue s t) ∧ (t.hub.noRoom = s.hub.noRoom → exec join s = .next t) ∧ t.ctx s.cur = dormantOf k) ∧
      (cell s = 1 → ∃ t, exec join s = .next t ∧ cell t = 0 ∧ (t.ctx s.cur).status = .issuing ∧
        (t.ctx s.cur).pc = g.a.val.setWidth 64 ∧ (t.ctx s.cur).a = k.a ∧ (t.ctx s.cur).p = (l.take (shape join) g).ctx.p) ∧
      (1 < (cell s).toNat → (∃ ch, k.kind = .actor ch) → (∀ f ∈ s.hub.forks, f.j = j → takeChunk f = none) → ∃ t, exec join s = .next t ∧ cell t = cell s - 1 ∧ t.ctx s.cur = dormantOf k)) ∧
    (goes s (.yield c live dl) → dl ≠ 0 → k.preempt → quiet → atLend k = false →
      ∃ t, exec (.yield c live dl) s = .next t ∧ t.ctx s.cur = dormantOf k ∧
        let v := mget emptyCtx (mget emptyCluster t.clus (clusOfCore core)).saves s.cur
        v.pc = k.pc + 1 ∧ v.dl = dl.toNat ∧ v.a = (if live.getLsbD 0 then k.a else 0) ∧
        ∀ q : Reg, v.p[q] = if live.getLsbD (q.val + 1) then k.p[q] else 0)

/-- R302, R303, R372. A firing that ends on a fault, once it has nothing in flight, leaves a dormant context with its journal written back (its
record and its dead letters are made in the same step, which waits whole for room: log entry 12); a killed firing also puts its quota back at the
head of its channel, in order. -/
def Obligations.FiringsLeaveOnFaultsAndKills : Prop :=
  ∀ (s : State) (cid : Nat) (f : FaultInfo) (irv : Bool) (e : JEntry) (ch : BitVec 5),
    let c := s.ctx cid
    let core := coreOfCid cid
    let still : Prop := c.cmds = [] ∧ c.stq = [] ∧ c.aldq = [] ∧ c.rstq = []
    let undone : State → Prop := fun t => c.journal = [e] → e.space ∈ [1, 2, 3] → e.old.length = 16 →
      ∀ a, mget 0 ((t.loc cid).buf e.space) a = wrote e.old (16 * e.word) (mget 0 ((s.loc cid).buf e.space)) a
    (s.hub.up → c.status = .ending f irv → still → ∃ t, exec (.firingEndOnFault cid) s = .next (wholeStep s t) ∧
      (t.hub.noRoom = s.hub.noRoom → exec (.firingEndOnFault cid) s = .next t) ∧ t.ctx cid = dormantOf c ∧ undone t) ∧
    (s.hub.up → c.status = .killing 0 false → still → c.kind = .actor ch → c.ch1 = none →
      ∃ t, exec (.firingKill cid) s = .next t ∧ t.ctx cid = dormantOf c ∧ undone t ∧
        (chanAt t core c.ch0.toNat).toks = c.quota0 ++ (chanAt s core c.ch0.toNat).toks)

/-- R88, R194, R210, R212, R214-R218, R220, R221, R224. SEND, SENDN, BIND, UNBIND and RFORK queue one item and change no channel; past the rate is 0x0B.
RECV takes the head token: payload in A, tag in D. CHST gives the channel's word, PRIO sets a priority and mask, the first TRIG marks its launch.
A payload of KIND 6 or `lanes` is formed under view d, which is the model's choice (log entry 90). -/
def Obligations.TokenInstructionsFillTheOutbox : Prop :=
  ∀ (s : State) (c : Cond) (d s1 s2 x : Opd) (rch : Option (BitVec 5)) (dch ch : BitVec 5) (dir : Dir) (g : Args) (p : Reg) (b : Src),
    let l := s.here
    let k := l.ctx
    let core := coreOfCid s.cur
    let queues : Instr → OutItem → Nat → Prop := fun i o n => ∃ t, exec i s = .next t ∧ (t.ctx s.cur).outbox = k.outbox ++ [o] ∧
      (t.ctx s.cur).produced = k.produced + n ∧ (t.ctx s.cur).pc = (retire l).ctx.pc ∧
      (∀ e m, chanAt t e m = chanAt s e m) ∧ State.outsideAlike s t
    let room : Prop := (k.outbox.filter OutItem.isEntry).length < 8
    let send : Instr := .send c s1 s2 rch
    let sendn : Instr := .sendn c s1 dch dir
    let recv : Instr := .recv c (.preg p) (.chan ch false)
    let chst : Instr := .chst c d s1
    let prio : Instr := .prio c s1 s2
    let fork : Instr := .rfork c (.preg p) s1 s2 x
    let n := g.a.val.toNat
    (goes s send → reads s .d send g → k.produced < k.prate → g.b.val.toNat / 2 ^ 16 % 2 ^ 16 < 4096 →
      queues send (.tok (newToken g.a.val) (g.b.val.setWidth 32) rch) 1) ∧
    (goes s send → reads s .d send g → k.prate ≤ k.produced → exec send s = .next (s.putLoc (raise l (faultOf 0x0B)))) ∧
    (goes s sendn → reads s .d sendn g → k.produced < k.prate → neighbourOk s.hub core dir → queues sendn (.nbr (newToken g.a.val) dch dir) 1) ∧
    (∀ q kk, goes s recv → reads s .d recv g → k.kind = .actor kk → ch = k.ch0 → 0 < k.c0 → k.quota0[k.pop0]? = some q →
      ∃ t, exec recv s = .next t ∧ (t.ctx s.cur).a = q.payload ∧ (t.ctx s.cur).p[p] = q.tag ∧ (t.ctx s.cur).pop0 = k.pop0 + 1 ∧
        (t.ctx s.cur).quota0 = k.quota0 ∧ State.outsideAlike s t) ∧
    (goes s chst → reads s .d chst g → n < 32 →
      let w := chstWord s core n
      let held := (heldOn s core n).length
      let fl : FlagUp := { noFlags with z := some (decide (held = 0)), n := some (!entVal (chanAt s core n).entry) }
      exec chst s = .next (s.retired (((l.take (shape chst) g).flags fl).writeScalar g.dst 64 true (w.setWidth 128) g.pois)) ∧
      w.toNat % 2 ^ 8 = entCap (chanAt s core n).entry ∧ w.toNat / 2 ^ 8 % 2 ^ 9 = min 256 held ∧
      w.toNat / 2 ^ 17 % 8 = entPri (chanAt s core n).entry ∧ w.toNat / 2 ^ 20 % 8 = effPri s core n ∧
      w.getLsbD 23 = entVal (chanAt s core n).entry ∧ w.getLsbD 24 = entKnd (chanAt s core n).entry ∧
      w.getLsbD 25 = entRent (chanAt s core n).entry ∧ w.getLsbD 26 = (chanAt s core n).masked ∧
      (w.getLsbD 27 = true ↔ ∃ i < 8, (s.ctx (core * 8 + i)).status ≠ .dormant ∧ ∃ q, (s.ctx (core * 8 + i)).kind = .actor q ∧ q.toNat = n)) ∧
    (let ptr := l.ea s1 32
     let img : BitVec 256 := BitVec.ofNat 256 (leVal (bytesAt (l.buf (spaceOf ptr)) (addrOf ptr) 32))
     goes s (.bind c s1 s2) → inBuffer ptr 32 32 → fetch l .d 0 s2 (.scalar 8) = .ok b → b.val.toNat < 32 → entVal img →
       (stPRIV k.stat ≠ 0 ∨ entPasid img = k.pasid) → imageOk img b.val.toNat → room → queues (.bind c s1 s2) (.bind img b.val.toNat) 0) ∧
    (goes s (.unbind c s1) → reads s .d (.unbind c s1) g → n < 32 → room → queues (.unbind c s1) (.unbind n) 0) ∧
    (goes s prio → reads s .d prio g → n < 32 → (stPRIV k.stat ≠ 0 ∨ entPasid (chanAt s core n).entry = k.pasid) →
      ∃ t, exec prio s = .next t ∧ entPri (chanAt t core n).entry = g.b.val.toNat % 8 ∧
        (chanAt t core n).masked = g.b.val.getLsbD 3 ∧ (chanAt t core n).toks = (chanAt s core n).toks ∧
        (∀ m, m ≠ n → chanAt t core m = chanAt s core m) ∧ State.outsideAlike s t) ∧
    (let N : Word := g.a.val.setWidth 64
     let M : Word := g.b.val.setWidth 64
     let chunks := (N.toNat + M.toNat - 1) / M.toNat
     let j := l.p p
     goes s fork → reads s .d fork g → M ≠ 0 → chunks < 2 ^ 32 → spaceOf j = 4 → addrOf j % 8 = 0 → addrOf j ≤ 0x3FFF8 → k.level ≤ 1 → room →
       (chunks ≠ 0 → queues fork (.fork N M (g.x.val.setWidth 64) j chunks [l.p 3, l.p 4, l.p 5, l.p 6, l.p 7] 0 false) 0) ∧
       ∃ t, exec fork s = .next t ∧ fZ (t.ctx s.cur).stat = decide (chunks = 0)) ∧
    (∀ la, goes s (.trig c) → launchOf s.hub k.lslot.toNat = some la → la.trigged = none →
      ∃ t, exec (.trig c) s = .next t ∧ (launchOf t.hub k.lslot.toNat).bind (·.trigged) = some s.cur ∧
        (∀ m, m ≠ k.lslot.toNat → launchOf t.hub m = launchOf s.hub m) ∧ State.outsideAlike s t)

/-- R211, R222, R257, R289, R294, R296, R297, R299, R300, R375. A token whose owner admits it is stored by a mailbox with room, and by an edge channel
when it holds its credit or, if none of its kind does, while the shared pool has room; a full mailbox sends a refusal, a SEND without credit is
dropped with a record, a drained row without room waits. A credit reaches its counter, a refused hub token that is sent again goes in when there is
room and waits on when there is none (in the hub's list, delivered in the step of its resend: log entry 103); a selection wakes the lowest dormant
context on the picked handler with its quota, a deal on the next chunk. -/
def Obligations.TokensTravelAndFire : Prop :=
  ∀ (s : State) (k c n h cid : Nat) (f : Flight) (e : BitVec 256),
    let x := chanAt s c n
    (s.hub.up → s.hub.flight[k]? = some f → overtakes s.hub k f = false → targetOf s.hub f = some (c, n) → inService s.hub c →
      x.entry = e → entVal e → toFailed s f = false → pasidBars s f c n = false → f.kind ≠ .refusal →
      let taken : State := { s with hub := { s.hub with flight := dropAt s.hub.flight k } }
      let stored : Prop := ∃ t, exec (.tokenArrival k) s = .next t ∧
        (chanAt t c n).toks = x.toks ++ (f.tok :: f.second.toList).map (fun u => { u with own := tokenOwner s f }) ∧
        t.hub.flight = taken.hub.flight ∧ (∀ j, t.ctx j = s.ctx j) ∧ t.mem = s.mem
      let sent : Prop := f.kind = .send ∨ f.kind = .sendn
      (entKnd e → slotsUsed s c n + f.count ≤ entCap e → stored) ∧
      (∀ rch, entKnd e → entCap e < slotsUsed s c n + f.count → f.kind = .send → f.tok.refCh = some rch →
        ∃ g, exec (.tokenArrival k) s = .next { s with hub := { s.hub with flight := taken.hub.flight ++ [g] } } ∧ g.kind = .refusal ∧
          g.dest = .chan f.src rch ∧ g.tok.payload = f.tok.payload ∧ g.tok.tag.getLsbD 19 ∧ g.second = none) ∧
      (entKnd e = false → sent → f.tok.cred → stored) ∧
      (entKnd e = false → sent → f.tok.cred = false → exec (.tokenArrival k) s = .next (wholeStep s (dropToken taken f.tok true))) ∧
      (entKnd e = false → ¬ sent → poolFits s c n f.count → stored) ∧
      (entKnd e = false → f.kind = .drain ∨ f.kind = .copied → poolFits s c n f.count = false → exec (.tokenArrival k) s = .next s)) ∧
    (∀ a oe, s.hub.up → s.hub.creditFly[k]? = some (a, oe) → pst (placeWordOf s.hub a) = 1 →
      let core := plCore (placeWordOf s.hub a)
      mget 0 (coreAt s core).credits oe.toNat ≠ 0 →
      ∃ t, exec (.creditReturn k) s = .next t ∧ t.hub.creditFly = dropAt s.hub.creditFly k ∧
        mget 0 (coreAt t core).credits oe.toNat = mget 0 (coreAt s core).credits oe.toNat + 1 ∧ t.ctxs = s.ctxs ∧ t.mem = s.mem) ∧
    (s.hub.up → s.hub.refused[k]? = some f → targetOf s.hub f = some (c, n) → inService s.hub c →
      (∀ g ∈ s.hub.refused.take k, g.kind = .record → f.kind = .record → targetOf s.hub g ≠ targetOf s.hub f) →
      let again : Instr → Prop := fun i =>
        (arrivalOf s f c n = .refuse → exec i s = .next s) ∧
        (arrivalOf s f c n = .take → ∃ t, exec i s = .next t ∧
          (chanAt t c n).toks = x.toks ++ (f.tok :: f.second.toList).map (fun u => { u with own := tokenOwner s f }) ∧
          t.hub.refused = dropAt s.hub.refused k ∧ t.hub.flight = s.hub.flight ∧ t.ctxs = s.ctxs ∧ t.mem = s.mem)
      (f.kind = .event ∨ f.kind = .hub → again (.hubTokenResend k)) ∧ (f.kind = .notify → again (.notifyRetry k)) ∧
        (f.kind = .record → again (.faultRecordResend k))) ∧
    (s.hub.up → mayselect s c → freeCtx s c = some cid → pickHandler s c = some h →
      let y := (chanAt s c h)
      let q := y.toks.take (entC0 y.entry)
      ∃ t, exec (.firingSelection c) s = .next t ∧ (t.ctx cid).status = .issuing ∧ (t.ctx cid).quota0 = q ∧
        (entC1 y.entry = 0 → (t.ctx cid).pc = entrySlot y.entry q ∧ (chanAt t c h).toks = y.toks.drop (entC0 y.entry)) ∧
        (t.ctx cid).p = imageOf (coreAt s c).x (entImg y.entry) ∧ (t.ctx cid).pasid = entPasid y.entry ∧ (t.ctx cid).a = 0 ∧
        (t.ctx cid).dleft = entDl y.entry ∧ stPRIV (t.ctx cid).stat = (if entPasid y.entry = 0 then 1 else 0) ∧
        ∀ j, j ≠ cid → t.ctx j = s.ctx j) ∧
    (∀ (w w1 : Fork) (i : Nat), s.hub.up → s.hub.forks[k]? = some w → takeChunk w = some (i, w1) → chunkCore s w = some c →
      ∃ t, exec (.chunkDeal k) s = .next t ∧ (t.ctx (c * 8)).status = .issuing ∧ (t.ctx (c * 8)).pc = w.e ∧
        (t.ctx (c * 8)).p[0] = BitVec.ofNat 64 (i * w.m.toNat) ∧
        (t.ctx (c * 8)).p[1] = BitVec.ofNat 64 (min w.n.toNat ((i + 1) * w.m.toNat)) ∧ (t.ctx (c * 8)).p[2] = w.j ∧
        t.hub.forks = setAt s.hub.forks k w1)

/-- R225-R227. CHKERR gives CIR with Z and N, and with KILL kills a poisoned firing; SEAL gives the newest drift, asks for a seal and with WT
parks until it is sealed; DRIFT gives the sealed and the newest drift numbers. -/
def Obligations.ChecksDriftsAndSeals : Prop :=
  ∀ (s : State) (c : Cond) (p : Reg) (kill num : Bool) (g : Args) (d0 : BitVec 32),
    let l := s.here
    let k := l.ctx
    let chk : Instr := .chkerr c (.preg p) kill
    let drift : Instr := .drift c (.preg p)
    let sealI : Bool → Instr := fun wt => .seal c (.preg p) num wt
    (goes s chk → (kill && k.pois) = false → ∃ t, exec chk s = .next t ∧ (t.ctx s.cur).p[p] = k.cir.setWidth 64 ∧
      fZ (t.ctx s.cur).stat = !k.pois ∧ fN (t.ctx s.cur).stat = k.irv ∧ (t.ctx s.cur).cir = k.cir ∧ State.outsideAlike s t) ∧
    (goes s chk → kill → k.pois → k.irv = false → (∀ t ∈ k.quota0 ++ k.quota1, t.redeliv < 2) →
      ∃ t, exec chk s = .next t ∧ (t.ctx s.cur).status = .killing 0x30 false) ∧
    (goes s (sealI false) → k.cntOf 1 = 0 → ∃ t, exec (sealI false) s = .next t ∧ t.hub.seals.wanted ∧
      (num → (t.ctx s.cur).p[p] = s.hub.seals.newest.setWidth 64) ∧ (num = false → (t.ctx s.cur).p = k.p) ∧
      (t.ctx s.cur).pc = (retire l).ctx.pc ∧ State.outsideAlike s t) ∧
    (goes s (sealI true) → k.cntOf 1 = 0 → ∃ t, exec (sealI true) s = .next t ∧ t.hub.seals.wanted ∧
      (t.ctx s.cur).status = .parked (.seal s.hub.seals.newest)) ∧
    (s.hub.up → k.status = .parked (.seal d0) → decodeFault k (sealI true) = none → condHolds k.stat c → k.dleft ≠ 0 →
      (isSealed s.hub.seals d0 = false → ∃ t, exec (sealI true) s = .next t ∧ (t.ctx s.cur).status = .parked (.seal d0)) ∧
      (isSealed s.hub.seals d0 → ∃ t, exec (sealI true) s = .next t ∧ (t.ctx s.cur).status = .issuing ∧
        (t.ctx s.cur).pc = (retire l).ctx.pc)) ∧
    (goes s drift → ∃ t, exec drift s = .next t ∧ (t.ctx s.cur).p[p] = s.hub.seals.sealed ++ s.hub.seals.newest ∧
      (t.ctx s.cur).a = k.a ∧ State.outsideAlike s t) ∧
    (isSealed s.hub.seals d0 = decide ((s.hub.seals.sealed - d0).toNat < 2 ^ 31))

/-- R228-R231, R371, R374. TRAP at PRIV 1 saves PC + 1 in MTPC, STAT in MTST and its number in MTCODE, sets PRIV 2 and PFXV 0 and goes to MTVEC; at
PRIV 0 it parks on an entry of its own in the fault queue, and its record sets out (a step of the hub that finds no room for a write stalls the
context: log entry 12); at PRIV 2 it is 0x01 and parks for good. RTI restores STAT and PC; what STAT holds of a
word that R5 and R89 never have there is the model's choice (log entry 88). -/
def Obligations.TrapsEnterAndReturn : Prop :=
  ∀ (s : State) (c : Cond) (n : BitVec 16) (i : Nat),
    let l := s.here
    let k := l.ctx
    let trap : Instr := .trap c n
    (goes s trap → stPRIV k.stat = 1 → ¬ (n = 0x0100 ∧ k.mtvec = none) → s.hub.recs = [] → ∃ t, exec trap s = .next t ∧
      let e := t.ctx s.cur
      e.mtpc = k.pc + 1 ∧ e.mtst = k.stat ∧ e.mtcode = n ∧ e.pc = (match k.mtvec with | some w => w | none => s.hub.mtvec) ∧
      stPRIV e.stat = 2 ∧ stPFXV e.stat = false ∧ e.stat &&& 0xFFFF67FFFFFFFFFF#64 = k.stat &&& 0xFFFF67FFFFFFFFFF#64 ∧
      e.p = k.p ∧ e.a = k.a ∧ e.cir = k.cir ∧ e.mtvec = k.mtvec ∧ e.status = .issuing ∧ e.dleft = k.dleft - 1 ∧
      (∀ j, j ≠ s.cur → t.ctx j = s.ctx j) ∧ t.mem = s.mem) ∧
    (goes s trap → stPRIV k.stat = 0 → camFree s.hub = some i → ∃ t, exec trap s = .next (wholeIssue s t) ∧
      (t.hub.noRoom = s.hub.noRoom → exec trap s = .next t) ∧ (t.ctx s.cur).status = .parked (.trap i) ∧ (t.ctx s.cur).pc = k.pc ∧
      let e := mget noCam t.hub.cam i
      e.code = 0x40 ∧ e.trapNo = n ∧ e.reqs = [.ctx s.cur] ∧ e.seq = s.hub.camSeq + 1 ∧ e.pasid = k.pasid.toNat) ∧
    (goes s trap → 2 ≤ stPRIV k.stat → s.hub.recs = [] → exec trap s = .next (s.putLoc (raise l (faultOf 0x01)))) ∧
    (stPRIV k.stat = 2 → (raise l (faultOf 0x01)).ctx.status = .parked .forever) ∧
    (goes s (.rti c) → ∃ t, exec (.rti c) s = .next t ∧
      let e := t.ctx s.cur
      e.pc = k.mtpc ∧ e.stat = statHeld k.mtst ∧
      (k.mtst &&& 0xFFFFFFE0 = 0 → stLPD k.mtst ≤ 2 → stPRIV k.mtst ≤ 2 → stDS k.mtst ≤ 2 → e.stat = k.mtst) ∧ e.p = k.p ∧ e.a = k.a ∧ e.mtpc = k.mtpc ∧ e.mtst = k.mtst ∧ e.status = .issuing ∧
      e.dleft = k.dleft - 1 ∧ State.outsideAlike s t)

/-- R89, R90, R92, R97, R126, R231, R232. MFS gives each readable register, zero-extended; MTS writes each writable one, of STAT only FPS, RM, GOE and the flags,
and no other register. That MTS writes CIR as R97 lets it, though R92 calls its fields read-only, is the model's reading (log entry 38). -/
def Obligations.SpecialRegistersReadAndWrite : Prop :=
  ∀ (s : State) (c : Cond) (p : Reg) (s1 : Opd) (r : BitVec 16) (g : Args),
    let l := s.here
    let k := l.ctx
    let mfs : Instr := .mfs c (.preg p) r
    let mts : Instr := .mts c s1 r
    let w : Word := g.a.val.setWidth 64
    let values : List (BitVec 16 × Word) :=
      [(0x0, k.stat), (0x1, k.cir.setWidth 64), (0x2, k.cira), (0x3, k.cnt.setWidth 64), (0x4, k.ntgt.setWidth 64), (0x5, k.pc), (0x6, k.btgt),
       (0x8, k.lbeg0), (0x9, k.lend0), (0xA, k.lcnt0), (0xB, k.lbeg1), (0xC, k.lend1), (0xD, k.lcnt1), (0x10, BitVec.ofNat 64 s.cur),
       (0x11, BitVec.ofNat 64 k.dleft), (0x12, if l.core.tileSet then l.core.tile0 else 0), (0x13, if l.core.tileSet then l.core.tile1 else 0),
       (0x14, l.core.dist), (0x120, l.core.serc.setWidth 64), (0x1000, k.mtpc), (0x1001, k.mtst), (0x1003, k.mtcode.setWidth 64)]
    (goes s mfs → ∀ e ∈ values, r = e.1 → ∃ t, exec mfs s = .next t ∧ (t.ctx s.cur).p[p] = e.2 ∧
      (∀ q : Reg, q ≠ p → (t.ctx s.cur).p[q] = k.p[q]) ∧ (t.ctx s.cur).a = k.a ∧ State.outsideAlike s t) ∧
    (goes s mfs → r = 0x1002 → ∃ t, exec mfs s = .next t ∧
      (t.ctx s.cur).p[p] = (match k.mtvec with | some v => v | none => s.hub.mtvec)) ∧
    (goes s mts → reads s .d mts g → k.pairBad = false → stDS k.stat = 0 → atLend k = false → ∃ t, exec mts s = .next t ∧
      let e := t.ctx s.cur
      e.stat &&& 0xFF0000001F = (if r = 0 then w else k.stat) &&& 0xFF0000001F ∧
      e.stat &&& 0xFFFF7F00FFFFFFE0#64 = k.stat &&& 0xFFFF7F00FFFFFFE0#64 ∧
      (r = 0x1 → e.cir = w.setWidth 16 &&& 0xFF0F) ∧
      e.cira = (if r = 0x2 then w else (l.take (shape mts) g).ctx.cira) ∧
      e.ntgt = (if r = 0x4 then w.setWidth 32 else k.ntgt) ∧ e.btgt = (if r = 0x6 then w else k.btgt) ∧
      e.lbeg0 = (if r = 0x8 then w else k.lbeg0) ∧ e.lend0 = (if r = 0x9 then w else k.lend0) ∧ e.lcnt0 = (if r = 0xA then w else k.lcnt0) ∧
      e.lbeg1 = (if r = 0xB then w else k.lbeg1) ∧ e.lend1 = (if r = 0xC then w else k.lend1) ∧ e.lcnt1 = (if r = 0xD then w else k.lcnt1) ∧
      e.mtpc = (if r = 0x1000 then w else k.mtpc) ∧ e.mtst = (if r = 0x1001 then w else k.mtst) ∧
      e.mtvec = (if r = 0x1002 then some w else k.mtvec) ∧ e.mtcode = (if r = 0x1003 then w.setWidth 16 else k.mtcode) ∧
      (mget emptyCore t.cores (coreOfCid s.cur)).serc = (if r = 0x120 then w.setWidth 32 else l.core.serc) ∧
      e.cnt = k.cnt ∧ e.a = k.a ∧ e.pc = k.pc + 1 ∧ State.outsideAlike s t)

/-- R100, R233-R235, R237-R241, R305, R386. TLBI leaves no entry that it names in any translation structure; CTXSV writes the image of R100 at S2 and
frees the context it saves, CTXLD fills one, with zero in the registers outside the live mask, each with Z; SIGH raises or holds its vector; REPLAY
resumes and KILLF kills the requesters of a live entry; PLACE writes its word. What CTXSV keeps beside the image is the model's choice (log entry
14), as is that a message of SIGH with IRV overtakes held ones (log entry 93) and that an instruction whose write finds no room stalls whole (log
entry 12). -/
def Obligations.MachineInstructionsAct : Prop :=
  ∀ (s : State) (c : Cond) (s1 s2 : Opd) (ty : TlbiType) (live : BitVec 9) (irv drop : Bool) (g : Args) (cid i : Nat) (e : CamEntry),
    let l := s.here
    let k := l.ctx
    let tlbi : Instr := .tlbi c s1 s2 ty
    let sv : Instr := .ctxsv c s1 s2 live
    let ld : Instr := .ctxld c s1 s2
    let sigh : Instr := .sigh c s1 irv
    let replay : Instr := .replay c s1 s2
    let killf : Instr := .killf c s1 drop
    let place : Instr := .place c s1 s2
    let a : Word := g.a.val.setWidth 64
    let b : Word := g.b.val.setWidth 64
    let page := addrOf a / 2 ^ 14
    let pasid := b.toNat % 2 ^ 20
    let zero : State → Prop := fun t => fZ (t.ctx s.cur).stat
    let image := bytesOf s l b 8192
    let inMask : Nat → Bool := fun j => (recDw image 168 8).testBit (27 + j)
    let noWaiter : Prop := ∀ w, waitsCam s w = none
    (goes s tlbi → reads s .d tlbi g → (∀ x ∈ s.ctxs, tlbiBusy ty page pasid x.2 = false ∧ waitaOf s x.1 = none) →
      (∀ x ∈ s.cores, tlbiPref ty page pasid x.2 = false) → ∃ t, exec tlbi s = .next t ∧
      (∀ n, (∀ x ∈ (mget emptyCore t.cores n).utlb, tlbiHit ty page pasid x = false) ∧
        (∀ x ∈ (mget emptyCluster t.clus n).tlb, tlbiHit ty page pasid x = false) ∧
        (∀ x ∈ (mget emptyDomain t.doms n).tlb, tlbiHit ty page pasid x = false)) ∧
      (t.ctx s.cur).pc = (retire l).ctx.pc ∧ State.outsideAlike s t) ∧
    (goes s sv → reads s .d sv g → a.toNat % 2 ^ 14 = cid → cid ≠ s.cur → inService s.hub (coreOfCid cid) → savable (s.ctx cid).status →
      (s.ctx cid).cnt = 0 → dueFault (s.ctx cid) (fun _ => true) = none → recordPtr l b .write = .ok () → relReady l .dev →
      ∃ t, exec sv s = .next (wholeIssue s t) ∧ zero t ∧ t.ctx cid = dormantOf (s.ctx cid) ∧
        (∃ key, (t.hub.tables.asides.find? (fun x => x.1 == key)).map (·.2) = some (asideOf (coreOfCid cid) (s.ctx cid))) ∧
        (t.hub.noRoom = s.hub.noRoom → exec sv s = .next t ∧ ∀ key, s.window l b 8192 key →
          let v := s.ctx cid
          let field : Nat → Nat → Nat := fun o n => leVal ((List.range n).map (fun n => homeByte t (key + o + n)))
          field 0 16 = (if live.getLsbD 0 then v.a.toNat else 0) ∧
          (∀ q : Reg, field (16 + 8 * q.val) 8 = if live.getLsbD (q.val + 1) then v.p[q].toNat else 0) ∧
          field 80 8 = v.stat.toNat ∧ field 88 8 = v.cira.toNat ∧ field 96 4 = v.cir.toNat ∧ field 100 4 = v.ntgt.toNat ∧ field 104 8 = v.pc.toNat ∧
          field 112 8 = v.btgt.toNat ∧ field 120 8 = v.lbeg0.toNat ∧ field 128 8 = v.lend0.toNat ∧ field 136 8 = v.lcnt0.toNat ∧
          field 144 8 = v.lbeg1.toNat ∧ field 152 8 = v.lend1.toNat ∧ field 160 8 = v.lcnt1.toNat ∧
          field 168 8 = (v.ch0.toNat + 2 ^ 5 * v.pop0 + (match v.ch1 with | some n => 2 ^ 10 * n.toNat + 2 ^ 20 | none => 0) + 2 ^ 15 * v.pop1 +
            2 ^ 21 * v.produced + 2 ^ 27 * live.toNat + 2 ^ 36 * v.dl) % 2 ^ 64 ∧
          field 176 8 = (v.outbox.length + 2 ^ 6 * v.journal.length + 2 ^ 14 * v.dleft + 2 ^ 26 * v.prate + 2 ^ 32 * v.c0 + 2 ^ 37 * v.c1) % 2 ^ 64 ∧
          field 184 8 = 0x101 + 2 ^ 9 * v.pasid.toNat + 2 ^ 29 * v.lslot.toNat + 2 ^ 41 * v.inst.toNat)) ∧
    (goes s sv → reads s .d sv g → a.toNat % 2 ^ 14 = cid → inService s.hub (coreOfCid cid) → savable (s.ctx cid).status = false →
      ∃ t, exec sv s = .next t ∧ ¬ zero t ∧ t.mem = s.mem) ∧
    (goes s ld → reads s .d ld g → a.toNat % 2 ^ 14 = cid → cid ≠ s.cur → inService s.hub (coreOfCid cid) → (s.ctx cid).status = .dormant →
      recordPtr l b .read = .ok () → k.stq = [] → imageValid image → s.grans = [] → s.hub.held = [] → ∃ t, exec ld s = .next t ∧ zero t ∧
        (t.ctx cid).status = .issuing ∧ (t.ctx cid).pc = BitVec.ofNat 64 (recDw image 104 8) ∧
        (t.ctx cid).a = (if inMask 0 then BitVec.ofNat 128 (recDw image 0 16) else 0) ∧
        ∀ q : Reg, (t.ctx cid).p[q] = if inMask (q.val + 1) then BitVec.ofNat 64 (recDw image (16 + 8 * q.val) 8) else 0) ∧
    (goes s sigh → reads s .d sigh g → a.toNat < 2048 → (irv ∨ extFull s.hub = false) → ∃ t, exec sigh s = .next t ∧
      (irv → t.hub.out = .msi a.toNat :: s.hub.out ∧ t.hub.held = s.hub.held ∧ (t.ctx s.cur).irv) ∧
      (irv = false → t.hub.out = s.hub.out ∧ ∃ x, t.hub.held = s.hub.held ++ [x] ∧ x.item = .msi a.toNat) ∧ State.outsideAlike s t) ∧
    (goes s replay → reads s .d replay g → k.stq = [] → k.rstq = [] → camOf s.hub a = none → ∃ t, exec replay s = .next t ∧ ¬ zero t ∧
      t.hub = s.hub ∧ State.outsideAlike s t) ∧
    (∀ va ac, goes s replay → reads s .d replay g → k.stq = [] → k.rstq = [] → camOf s.hub a = some (i, e) → e.reqs = [.ctx cid] → cid ≠ s.cur → noWaiter →
      (s.ctx cid).status = .parked (.fault i va ac) → ∃ t, exec replay s = .next t ∧ zero t ∧ mhas t.hub.cam i = false ∧
        (t.ctx cid).status = .parked (.walk va ac)) ∧
    (goes s replay → reads s .d replay g → k.stq = [] → k.rstq = [] → camOf s.hub a = some (i, e) → e.reqs = [.ctx cid] → cid ≠ s.cur → noWaiter →
      (s.ctx cid).status = .parked (.trap i) → (s.ctx cid).dleft ≠ 0 → ∃ t, exec replay s = .next t ∧ zero t ∧ (t.ctx cid).status = .issuing ∧
        (t.ctx cid).a.setWidth 64 = b ∧ (t.ctx cid).pc = (s.ctx cid).pc + 1) ∧
    (∀ va ac, goes s killf → reads s .d killf g → camOf s.hub a = some (i, e) → e.reqs = [.ctx cid] → cid ≠ s.cur → noWaiter →
      (s.ctx cid).status = .parked (.fault i va ac) → (s.ctx cid).irv = false → ∃ t, exec killf s = .next t ∧ zero t ∧
        mhas t.hub.cam i = false ∧ (t.ctx cid).status = .killing 0 drop) ∧
    (∀ la, goes s place → reads s .d place g → let ad : BitVec 32 := a.setWidth 32
      adSlot ad < 4096 → placeBad b = false → (pst b = 1 → inService s.hub (plCore b)) → launchOf s.hub (adSlot ad) = some la →
      la.pending = [] → mget emptyInst la.insts (adInst ad) = emptyInst → ∃ t, exec place s = .next t ∧
        placeWordOf t.hub ad = b ∧ (t.ctx s.cur).pc = (retire l).ctx.pc ∧ State.outsideAlike s t)

/-- R264, R267, R273-R278, R329. COPY and COPYT whose tensors pass the checks enter their queue with their pairs and count in CNT.CP, COPYT also
in CNT.TL; TCFG sets a sound configuration and TREL ends it with its Y region zero; a tile command enters the sector's queue; DIST sets the pattern. -/
def Obligations.EnginesTakeCommands : Prop :=
  ∀ (s : State) (c : Cond) (q : CopyQ) (pa pb : BitVec 4) (ntf : Option Opd) (s1 : Opd) (irv dist b h drn clr u : Bool) (g : Args)
    (pr : Word × Word × Word × Word) (bs : List Byte) (po : Bool) (im : Image) (af : BitVec 4) (arow : BitVec 12) (cb : BitVec 7) (acc : AccOp)
    (kk : BitVec 6) (mode : PolyMode) (nrow frow : BitVec 8),
    let l := s.here
    let k := l.ctx
    let core := coreOfCid s.cur
    let copy : Instr := .copy c q pa pb ntf irv dist false
    let copyt : Instr := .copyt c q pa pb s1 irv dist false
    let tcfg : Instr := .tcfg c pa
    let dst : Instr := .dist c s1
    let enters : Instr → Option (BitVec 32) → Option TileCmd → Prop := fun i n im => ∃ t e, exec i s = .next t ∧
      (t.loc s.cur).copyQ q = l.copyQ q ++ [e] ∧ (e.dst0, e.dst1, e.src0, e.src1) = pr ∧ e.pos = 0 ∧ e.started = false ∧ e.irv = irv ∧
      e.pasid = k.pasid ∧ e.dist = (if dist then some l.core.dist else none) ∧
      e.members = [{ cid := s.cur, seq := k.cmdSeq, core := core, bits := copyBit q, ntf := n, image := im }] ∧
      (t.ctx s.cur).cntOf 2 = k.cntOf 2 + 1 ∧ (t.ctx s.cur).cntOf 3 = k.cntOf 3 + (if im.isSome then 1 else 0) ∧
      (t.ctx s.cur).pc = (retire l).ctx.pc ∧ State.outsideAlike s t
    let tile : Instr → Prop := fun i => ∀ op, goes s i → reads s .d i g → tileOpOf l.pairAt i = some op → tileCheck l op = .ok () →
      k.cntOf 3 < 63 → tileCount s core < 32 → ∃ t, exec i s = .next t ∧
        (mget emptySector t.sects (sectOfCore core)).tileq = l.sect.tileq ++ [tileCmd l op (g.a.val.setWidth 16)] ∧
        (t.ctx s.cur).cntOf 3 = k.cntOf 3 + 1 ∧ (mget emptyCore t.cores core).tileOut = l.core.tileOut + 1 ∧
        (t.ctx s.cur).pc = (retire l).ctx.pc ∧ State.outsideAlike s t
    (goes s copy → reads s .d copy g → copyPair l q pa pb dist false = .ok pr → k.cntOf 2 < 63 → (l.copyQ q).length < copyCap q →
      enters copy (ntf.map (fun _ => g.a.val.setWidth 32)) none) ∧
    (goes s copyt → readRecord l (l.ea s1 48) = .ok (bs, po) → copyPair l q pa pb dist false = .ok pr → recordImage l bs = .ok im →
      k.cntOf 2 < 63 → k.cntOf 3 < 63 → (l.copyQ q).length < copyCap q → enters copyt none (some { im.cmd with seq := k.cmdSeq })) ∧
    (let p := (l.pairAt pa).1
     let w := (l.pairAt pa).2
     let clear : Prop := fld w 30 6 = 0 ∧ fld w 0 13 = 0
     let sound : Prop := isService core = false ∧ cfgOk s.hub core p w ∧ ownsLmu s k core
     (goes s tcfg → clear → sound → l.core.tileOut = 0 → ∃ t, exec tcfg s = .next t ∧
       let e := mget emptyCore t.cores core
       e.tileSet ∧ e.tile0 = p ∧ e.tile1 = w ∧ e.tileGen = l.core.tileGen + 1 ∧ (t.ctx s.cur).pc = (retire l).ctx.pc ∧ State.outsideAlike s t) ∧
     (goes s tcfg → ¬ clear → exec tcfg s = .next (s.putLoc (raise l (faultOf 0x02)))) ∧
     (goes s tcfg → clear → ¬ sound → exec tcfg s = .next (s.putLoc (raise l (faultOf 0x20))))) ∧
    (goes s (.trel c) → l.core.tileSet = false → exec (.trel c) s = .next (s.retired l)) ∧
    (let w := l.core.tile1
     let at_ : Nat → Nat := fun n => core / 32 * 32 + cfFIRST w + n
     goes s (.trel c) → l.core.tileSet → l.core.tileOut = 0 →
       (∀ n < cfNCORE w, ∀ x ∈ (coreAt s (at_ n)).rows, ¬ (x.core = core ∧ x.gen = l.core.tileGen)) →
       ∃ t, exec (.trel c) s = .next t ∧ (mget emptyCore t.cores core).tileSet = false ∧
         ∀ n < cfNCORE w, inService s.hub (at_ n) → ∀ a < cfRegion w, mget 0 (mget emptyCore t.cores (at_ n)).y (addrOf l.core.tile0 + a) = 0) ∧
    tile (.tldb c pa s1 b af) ∧ tile (.tmul c pa s1 b h arow cb drn acc) ∧ tile (.tpoly c pa pb s1 h arow drn kk u mode) ∧
    tile (.tdrn c s1 clr nrow frow) ∧
    (let w : Word := g.a.val.setWidth 64
     let form : Prop := w.toNat / 2 ^ 16 = 0 ∧ w.getLsbD 7 = false ∧ 1 ≤ distNC w ∧ distNC w ≤ 8
     (goes s dst → reads s .d dst g → form → (∀ n < distNC w, inService s.hub (distCore w (clusOfCore core) n)) →
       ∃ t, exec dst s = .next t ∧ (mget emptyCore t.cores core).dist = w ∧ (t.ctx s.cur).pc = (retire l).ctx.pc ∧ State.outsideAlike s t) ∧
     (goes s dst → reads s .d dst g → ¬ form → exec dst s = .next (s.putLoc (raise l (faultOf 0x01)))))

/-- R264, R268-R270, R296, R337, R339, R341-R343. A copy that may start starts; each piece puts the next source bytes, in stream order, at the destination's
next bytes; a copy with every byte written leaves its queue, its count falls and its token is sent; groups close, images enter the tile queue. A
queue that a waiting completion token holds back does nothing. A cluster engine serves its queues in turn: after a piece of one it serves the other,
and a queue moves nothing while the live head of the other is to be served. -/
def Obligations.CopyEnginesMoveBytes : Prop :=
  ∀ (s : State) (e : CopyEngine) (k : CopyCmd) (rest : List CopyCmd) (m : Member) (c : Nat) (im : TileCmd) (ims : List TileCmd),
    let d := tensOf k.dst0 k.dst1
    let src := tensOf k.src0 k.src1
    (s.hub.up → s.hub.recs = [] → engHeld s e = false → copyQ s e = k :: rest → k.started = false → copyMayStart s e k →
      ∃ t, exec (.copyEngineTransfer e 0) s = .next t ∧ copyQ t e = { k with started := true, opened := none } :: rest) ∧
    (s.hub.up → s.hub.recs = [] → engHeld s e = false → myTurn s e → copyQ s e = k :: rest → k.started → k.walking = none → k.parked = none → k.members = [m] → k.dist = none →
      d.sp ∈ [1, 2, 4] → src.sp ∈ [2, 3, 4] → d.sp ≠ src.sp → k.pos < src.total →
      let a := (d.at_ k.pos).1
      let n := min (min (d.at_ k.pos).2 (64 - a % 64)) (src.total - k.pos)
      let old := mget 0 ((s.loc (m.core * 8)).buf src.sp)
      ∃ t, exec (.copyEngineTransfer e 1) s = .next t ∧ (copyQ t e).head?.map (·.pos) = some (k.pos + n) ∧
        ∀ x, mget 0 ((t.loc (m.core * 8)).buf d.sp) x =
          wrote ((List.range n).map (fun j => old (src.at_ (k.pos + j)).1)) a (mget 0 ((s.loc (m.core * 8)).buf d.sp)) x ∧
        ∀ b, e = .clus c b → (mget emptyCluster t.clus c).turn = !b) ∧
    (s.hub.up → s.hub.recs = [] → engHeld s e → exec (.copyEngineTransfer e 0) s = .next s ∧ exec (.copyEngineTransfer e 1) s = .next s ∧
      exec (.copyCompletion e) s = .next s) ∧
    (∀ b, s.hub.up → s.hub.recs = [] → e = .clus c b → copyQ s e = k :: rest → k.started → (mget emptyCluster s.clus c).turn = (!b) →
      headLive s (.clus c !b) → exec (.copyEngineTransfer e 1) s = .next s) ∧
    (s.hub.up → engHeld s e = false → copyQ s e = k :: rest → k.started → src.total ≤ k.pos → k.members = [m] → m.image = none →
      (∃ o ∈ (s.ctx m.cid).cmds, o.seq = m.seq) →
      (m.ntf = none → ∃ t, exec (.copyCompletion e) s = .next t ∧ copyQ t e = rest ∧ (t.ctx m.cid).cntOf 2 = (s.ctx m.cid).cntOf 2 - 1 ∧
        t.hub = s.hub) ∧
      (∀ ad, m.ntf = some ad → placed s.hub ad → ∃ t f, exec (.copyCompletion e) s = .next t ∧ copyQ t e = rest ∧
        (t.ctx m.cid).cntOf 2 = (s.ctx m.cid).cntOf 2 - 1 ∧ t.hub.flight = s.hub.flight ++ [f] ∧ f.kind = .copied ∧ f.dest = .addr ad ∧
        f.tok.payload = k.dst0.setWidth 128)) ∧
    (∀ at_, s.hub.up → (mget emptyCluster s.clus c).q0 = k :: rest → k.opened = some at_ → ∃ t, exec (.combineGroupClose c 0) s = .next t ∧
      (mget emptyCluster t.clus c).q0 = (if at_ + 64 ≤ s.now then { k with opened := none } else k) :: rest) ∧
    (let sect := sectOfCore (coreOfCid im.cid)
     s.hub.up → imagesOf s e = im :: ims → (mget emptySector s.sects sect).tileq.length < 32 →
       ∃ t, exec (.copytImageEnqueue e) s = .next t ∧ imagesOf t e = ims ∧
         (mget emptySector t.sects sect).tileq = (mget emptySector s.sects sect).tileq ++ [im])

/-- R60, R68, R278, R281, R283-R286, R326, R327. TLDB loads its bank; TMUL puts the products with the bank into the words of its rows, overwritten, added or
subtracted, wrapped or clamped; TPOLY puts each row's product; a drain writes a row to Y of its core, sends its token, and clears the row under CLR.
Operand words that the LMU has read early (R331) are what they were then. Under HALF a bit-plane element q counts as 2q + 1 (R69); slots of a TPOLY
operand beyond its COLS are zero (log entry 115). -/
def Obligations.TileCommandsCompute : Prop :=
  ∀ (s : State) (k : Nat) (t : TileCmd) (p0 p1 b0 b1 : Word) (bank half drn u clr : Bool) (af : BitVec 4) (arow cb kk frow nrow : Nat)
    (acc : AccOp) (mode : PolyMode) (as bs : List Int) (w : Nat) (rest : List TileCmd),
    let a := tensOf p0 p1
    let q := mget emptySector s.sects k
    let l := lmuView s k t.cid
    let own := if bank then q.bank1 else q.bank0
    let term : Bool → Option Int → Int := fun bp x => match x with
      | none => 0
      | some v => if half && bp then 2 * v + 1 else v
    let sect : State → Sector := fun r => mget emptySector r.sects k
    (s.hub.up → tileReady s k = some t → t.op = .tldb p0 p1 bank af → ∃ r, exec (.tldbExecute k) s = .next r ∧
      (if bank then (sect r).bank1 else (sect r).bank0) = loadBank l a (slotWidth af.toNat) t.tid ∧
      (if bank then (sect r).bank0 = q.bank0 else (sect r).bank1 = q.bank1) ∧ (sect r).tileq = (tileOrder s k).drop 1 ∧ (sect r).accum = q.accum ∧
      ((∃ o ∈ (s.ctx t.cid).cmds, o.seq = t.seq) → (r.ctx t.cid).cntOf 3 = (s.ctx t.cid).cntOf 3 - 1)) ∧
    (∀ m n x, m < a.rows → n < a.cols → a.cols ≤ 128 → elemAt l a false m n = some x →
      mget 0 (loadBank l a (slotWidth af.toNat) t.tid).elems (m * 128 + n) = BitVec.ofNat 9 (256 + wrapped 8 x)) ∧
    (s.hub.up → tileReady s k = some t → t.op = .tmul p0 p1 bank half arow cb drn acc → own.loaded → slotWidth a.fmt = own.wA →
      ∃ r, exec (.tmulExecute k) s = .next r ∧
        (∀ m n, m < a.rows → n < own.n → cb * own.n + n < 384 →
          let key := (arow + m) * 384 + cb * own.n + n
          let left : Nat → Int := fun i => if i < a.cols then term a.bp (elemAt l a false m i) else 0
          let right : Nat → Int := fun i => let e := mget 0 own.elems (i * 128 + n)
            if e.getLsbD 8 then term own.bp (some (signed 8 e.toNat)) else 0
          let y := ((List.range (256 / own.wA)).map (fun i => left i * right i)).sum
          let old := (mget 0 q.accum key).toInt
          let v := match acc with | .overwrite => y | .add => old + y | .sub => old - y
          mget 0 (sect r).accum key = BitVec.ofInt 32 (if cfACCF t.cfg1 = 1 then heldS 32 v else v)) ∧
        (∀ key, key < arow * 384 ∨ (arow + a.rows) * 384 ≤ key → mget 0 (sect r).accum key = mget 0 q.accum key) ∧
        (sect r).bank0 = q.bank0 ∧ (sect r).bank1 = q.bank1) ∧
    (s.hub.up → tileReady s k = some t → t.op = .tpoly p0 p1 b0 b1 half arow drn kk u mode → ∃ r, exec (.tpolyExecute k) s = .next r ∧
      let b := tensOf b0 b1
      let w := slotWidth a.fmt
      (∀ m n, m < a.rows → n < 384 →
        let x := (List.range (256 / w)).map (fun i => if i < a.cols then term a.bp (elemAt l a u m i) else 0)
        let y := (List.range (256 / w)).map (fun i => if i < b.cols then term b.bp (elemAt l b u (if b.rows = 1 then 0 else m) i) else 0)
        mget 0 (sect r).accum ((arow + m) * 384 + n) = BitVec.ofNat 32 ((polyProduct x y w kk u mode).1 / 2 ^ (32 * n))) ∧
      (∀ key, key < arow * 384 ∨ (arow + a.rows) * 384 ≤ key → mget 0 (sect r).accum key = mget 0 q.accum key)) ∧
    (let n := as.length + bs.length - 1
     (polyProduct as bs w kk u .carry).1 =
       wrapped (carryBits kk n w) ((List.range n).map (fun i => convolution as bs i * (2 : Int) ^ (kk * i))).sum ∧
     (mode ≠ .carry → (polyProduct as bs w kk u mode).1 = ((List.range n).map (fun i =>
       wrapped kk (if u then heldZ kk (convolution as bs i) else heldS kk (convolution as bs i)) * 2 ^ (kk * i))).sum)) ∧
    (let row := frow + t.drainAt
     let core := rowCore t.cfg1 (coreOfCid t.cid) row
     let y := rowY t.cfg0 t.cfg1 row
     s.hub.up → tileOrder s k = t :: rest → drainHeld s k = false → drainOf t = some (frow, nrow, clr) → fenceOk (s.ctx t.cid) t.seq 4 → inService s.hub core →
       (∀ x ∈ (coreAt s core).rows, ¬ (x.off < y + cfRS t.cfg1 ∧ y < x.off + x.len)) →
       ∃ r f, exec (.drainRow k) s = .next r ∧ r.hub.flight = s.hub.flight ++ [f] ∧ f.kind = .drain ∧
         f.dest = .chan core (BitVec.ofNat 5 (cfECH t.cfg1)) ∧
         f.tok.payload = drainPayload t.tid y row (mget false q.rpois row) (mget false q.gov row) ∧
         (∀ x, mget 0 (coreAt r core).y x = wrote (rowBytesOf q row (cfMCOL t.cfg1)) y (mget 0 (coreAt s core).y) x) ∧
         (∀ n, n < 384 → mget 0 (sect r).accum (row * 384 + n) = if clr then 0 else mget 0 q.accum (row * 384 + n)) ∧
         (∃ x ∈ (coreAt r core).rows, x.off = y ∧ x.len = cfRS t.cfg1 ∧ f.tok.row = some x.id))

/-- R88, R105, R109-R122. Words that the spec works out, and words laid out from its formats, decode to the instructions that they stand for. -/
def Obligations.DecodesWordsOfTheSpec : Prop :=
  let w : Nat → Option Instr := fun n => (decode (BitVec.ofNat 96 n)).toOption
  opdOf 0x4C002#20 = .post 3 2 ∧ opdOf 0xA0025#20 = .chan 5 true ∧ opdOf 0xC3FFD#20 = .imm 0x3FFD ∧
  w 0x710000000028700000000000 = some (.call .al 40 7) ∧ w 0x7200000009C0000000000000 = some (.jmp .al (.preg 7)) ∧
  w 0x7400C0064000000070000000 = some (.loop (.imm 100) 7) ∧ w 0x750000000980000000000000 = some (.rep (.preg 6)) ∧
  w 0x8100000000000000000031F4 = some (.yield .al 3 500) ∧
  w 0x820000000000000000FC0FFF = some (.wait .al 0xFC0FFF) ∧ w 0x84000000000000000000001A = some (.sendn .al .acc 6 .up) ∧
  w 0xCA0084000000000011000000 = some (.mfs .al (.preg 1) 0x11) ∧ w 0x01000000000000000000B102 = some (.fmt 0xB102) ∧
  w 0x030000000000000000000000 = some (.undefinedOpcode 3)

/-- R102-R122, R135. Decoding the encoded word of a well-formed instruction gives that instruction, whatever its operands. -/
def Obligations.EncodeThenDecode : Prop :=
  ∀ i : Instr, isWord i → wellFormed i → decode (encode i) = .ok i

/-- R111, R134-R136. The decoder gives only well-formed instructions, each word has one meaning (encoding the instruction gives the word back), and a
word that it rejects raises 0x01 or 0x02. -/
def Obligations.DecodeYieldsWellFormed : Prop :=
  ∀ (w : BitVec 96) (i : Instr) (s : State) (e : ILine) (r : Reject),
    let l := s.here
    let k := l.ctx.pc.toNat % 5
    let unassigned : Bool := match r with
      | .unassigned => true
      | .reserved j => stPFXV l.ctx.stat && !prefixValuesOk j (stPFXW l.ctx.stat)
    (decode w = .ok i → wellFormed i ∧ (isWord i → encode i = w) ∧ (¬ isWord i → i = .undefinedOpcode (w.extractLsb' 88 8))) ∧
    (s.hub.up → l.ctx.status = .issuing → l.ctx.endTest = false → l.ctx.pc.toNat < slotLimit → l.iline = some e → e.pois = false →
      (l.ctx.tgtCheck → bit (lineWord e.bytes) k) → lineWord e.bytes / 2 ^ 15 = 0 → decode (slotWord e.bytes k) = .error r →
      let f : FaultInfo := faultOf (if unassigned then 0x01 else 0x02)
      stepIssue s = .next (wholeStep s (sendRecs (s.putLoc (raise (l.setBad l.ctx.pc 0) f)))))

/-- R102, R107, R108, R124, R131, R199, R364. A step follows its agenda (log entry 21: the model's choice of who moves); with none, context `cur` issues. An eviction (log entry 42) leaves its line in I and
everything that memory and the host hold as it was. When the line at its program counter is in the I-cache and the slot decodes, the step is
exec of that instruction, where the slot after a transfer may need its TGT bit and an illegal pair is noted for PSERC. A due loop end test comes first. -/
def Obligations.StepRunsDecodedInstruction : Prop :=
  ∀ (s : State) (e : ILine) (i : Instr) (j : Instr) (dt cid line : Nat) (rest : List Move),
    let l := s.here
    let k := l.ctx.pc.toNat % 5
    let lw := lineWord e.bytes
    let pair := k < 4 ∧ bit lw (5 + k) = true
    let run : Bool → Host.Outcome State Fault Refusal := fun b =>
      exec i (s.putLoc { l.setBad l.ctx.pc 0 with ctx := { l.ctx with tgtCheck := false, pairBad := b } })
    (s.agenda = [] → step s = stepIssue s) ∧
    (s.agenda = .issue dt cid :: rest → step s = stepIssue { s with agenda := rest, now := s.now + dt, cur := cid }) ∧
    (s.agenda = .event dt i :: rest → isWord i = false → step s = exec i { s with agenda := rest, now := s.now + dt }) ∧
    (∀ m, s.agenda = .own dt m :: rest → step s = ownStep m { s with agenda := rest, now := s.now + dt }) ∧
    (s.agenda = .evict dt line :: rest → s.hub.up → step s = .next (wholeStep s (evictLine { s with agenda := rest, now := s.now + dt } line)) ∧
      (lineInfo (evictLine s line) line).st = .i ∧ (lineInfo (evictLine s line) line).hp = (lineInfo s line).hp ∧
      (evictLine s line).mem = s.mem ∧ (evictLine s line).hostCache = s.hostCache ∧
      (∀ m, m ≠ line → lineInfo (evictLine s line) m = lineInfo s m)) ∧
    (s.hub.up → l.ctx.status = .issuing → l.ctx.endTest → stepIssue s = exec (.loopEndTest s.cur) (s.putLoc l)) ∧
    (s.hub.up → l.ctx.status = .issuing → l.ctx.endTest = false → l.ctx.pc.toNat < slotLimit → l.iline = some e → e.pois = false →
      (l.ctx.tgtCheck → bit lw k) → lw / 2 ^ 15 = 0 → decode (slotWord e.bytes k) = .ok i →
      (¬ pair → stepIssue s = run false) ∧
      (pair → decode (slotWord e.bytes (k + 1)) = .ok j →
        stepIssue s = run (!pairLegal l.ctx (decide (0 < k) && bit lw (4 + k)) i j)))

/-- R103, R104, R107, R108, R131, R134, R136. What fetch delivers and where it faults: a sound or poisoned line arrives from its home, a mismatch is fetched again and the
third one in a row is 0x32, as a poisoned line is; a transfer to a slot without TGT is 0x03, an undefined opcode 0x01, reserved line bits 0x02. An
index past the last slot is 0x13, which is the model's reading (log entry 35). -/
def Obligations.FetchFaults : Prop :=
  ∀ (s : State) (e : ILine) (t : Tlb) (cid : Nat) (find : FetchFind) (opc : BitVec 8),
    let l := s.here
    let pc := l.ctx.pc
    let k := pc.toNat % 5
    let ends : Loc → FaultInfo → Prop := fun x f => stepIssue s = .next (wholeStep s (sendRecs (s.putLoc (raise x f))))
    let faults : FaultInfo → Prop := ends (l.setBad pc 0)
    let ready := s.hub.up ∧ l.ctx.status = .issuing ∧ l.ctx.endTest = false
    (s.hub.up → l.ctx.status = .issuing → exec (.undefinedOpcode opc) s = .next (s.putLoc (raise l (faultOf 0x01)))) ∧
    (ready → slotLimit ≤ pc.toNat → ends l (faultOf 0x13)) ∧
    (ready → pc.toNat < slotLimit → l.iline = some e → e.pois = false →
      (l.ctx.tgtCheck → bit (lineWord e.bytes) k = false → faults (faultOf 0x03)) ∧
      (l.ctx.tgtCheck = false → lineWord e.bytes / 2 ^ 15 ≠ 0 → faults (faultOf 0x02)) ∧
      (l.ctx.tgtCheck = false → lineWord e.bytes / 2 ^ 15 = 0 → decode (slotWord e.bytes k) = .error .unassigned → faults (faultOf 0x01))) ∧
    (ready → pc.toNat < slotLimit → l.iline = some e → e.pois → ends (dropLine l) (fetchFault 0x32 (lineVA pc))) ∧
    (ready → pc.toNat < slotLimit → l.iline = none → 3 ≤ l.badAt pc → ends (l.setBad pc 0) (fetchFault 0x32 (lineVA pc))) ∧
    (let f := s.loc cid
     let va := lineVA f.ctx.pc
     s.hub.up → f.ctx.status = .issuing → f.iline = none → f.badAt f.ctx.pc < 3 → f.tlbFind va = some t → t.grants f.priv .fetch → f.priv < 2 →
       f.ctx.pc.toNat < slotLimit → isRam (t.keyOf va) →
       let bs := homeBytes s (t.keyOf va) 64
       let po := granPois s (t.keyOf va)
       ∃ u, exec (.lineFetch cid find) s = .next (wholeStep s u) ∧ (u.hub.noRoom = s.hub.noRoom → exec (.lineFetch cid find) s = .next u) ∧
         if (find = .sound ∧ lineSound bs) ∨ po then ∃ x, (u.loc cid).iline = some x ∧ x.bytes = bs ∧ x.pois = po
         else (u.loc cid).iline = none ∧ (u.loc cid).badAt f.ctx.pc = f.badAt f.ctx.pc + 1)

/-- R377-R383, R388, R389, R392, R447. A walk, or the host's answer, that grants the access fills the caches and lets the requester go on. What a level's
entry says, in the order of R379: 0x32 when poisoned; of a leaf 0x13 in a hole, 0x11 when misplaced or malformed or without the access, 0x32 with bit
11 set; of a pointer 0x13 outside memory, 0x11 when malformed, 0x10 or the host when absent, 0x11 at level 4. A context's walk ends in that fault: 0x10
waits on the fault queue, the others end the firing. A PRI response resumes or denies the requesters of its entry; PRI_REENABLE takes its allocation
from the event (log entry 20); an invalidation drops the range; an external event with the data of its source is counted, sent as a token or raised
as a vector, and an escalation raises the vector that its event's IRT entry named. -/
def Obligations.TranslationServices : Prop :=
  ∀ (s : State) (w : Walker) (a : Asker) (t : Tlb) (pte cam sq i k n pasid va len src core c d : Nat) (word : Word) (ptrs : List PtrEnt) (r : AtsReq)
    (x : AtsAnswer) (e : CamEntry) (cid j va1 lv table : Nat) (kk : Acc) (data dd : Word) (tm : EscTimer) (q : Nat) (code : BitVec 8),
    let done : Instr → (State → Prop) → Prop := fun ev p => ∃ u, exec ev s = .next u ∧ p u
    let dom : State → Domain := fun u => mget emptyDomain u.doms (walkDom w)
    (s.hub.up → askerOf s w = some a → sharers s w a = [w] → walk s a (dom s).ptrs = .leaf t pte word ptrs → bit word.toNat 8 → (a.acc.writes → bit word.toNat 9) →
      done (.pageWalk w) (fun u => t ∈ (dom u).tlb ∧ askerOf u w = none ∧ u.mem = s.mem ∧ ∀ m, w = .ctx m → (u.ctx m).status = .issuing)) ∧
    (let at_ := table + 8 * levelIndex lv a.va
     let v : Word := dword s at_
     let frame := fld v 14 30 * 2 ^ 14
     let lacks : Prop := match a.acc with
       | .read => bit v.toNat 1 = false
       | .write => bit v.toNat 2 = false
       | .atomic => bit v.toNat 1 = false ∨ bit v.toNat 2 = false
       | .fetch => bit v.toNat 3 = false
     let user : Prop := bit v.toNat 4
     let leaf : Prop := bit v.toNat 1 ∨ bit v.toNat 2 ∨ bit v.toNat 3
     let odd : Prop := fld v 44 18 ≠ 0 ∨ fld v 12 2 ≠ 0
     let bad : Prop := lv < 2 ∨ frame % 2 ^ levelShift lv ≠ 0 ∨ odd
     let barred : Prop := lacks ∨ (a.priv = 0 ∧ ¬ user) ∨ (isHub frame ∧ (user ∨ a.priv = 0))
     let finds : Walked → Prop := fun y => walkFrom s a (5 - lv) lv table ptrs = y
     lv ≤ 4 →
       (granPois s at_ → finds (.code 0x32)) ∧
       (granPois s at_ = false → bit v.toNat 0 → leaf →
         (isHole frame → finds (.code 0x13)) ∧ (isHole frame = false → bad → finds (.code 0x11)) ∧
         (isHole frame = false → ¬ bad → barred → finds (.code 0x11)) ∧
         (isHole frame = false → ¬ bad → ¬ barred → bit v.toNat 11 → finds (.code 0x32)) ∧
         (isHole frame = false → ¬ bad → ¬ barred → bit v.toNat 11 = false → ∃ y, finds (.leaf y at_ v ptrs) ∧
           y.keyOf a.va = frame + a.va % 2 ^ levelShift lv ∧ y.pasid = a.pasid.toNat ∧ y.vpage = a.va / 2 ^ 14)) ∧
       (granPois s at_ = false → bit v.toNat 0 → ¬ leaf →
         (isRam frame = false → finds (.code 0x13)) ∧ (isRam frame → odd → finds (.code 0x11)) ∧
         (isRam frame → ¬ odd → lv = 4 → finds (.code 0x11)) ∧
         (isRam frame → ¬ odd → lv < 4 → ∃ ps, finds (walkFrom s a (4 - lv) (lv + 1) frame ps))) ∧
       (granPois s at_ = false → bit v.toNat 0 = false → (odd → finds (.code 0x11)) ∧
         (¬ odd → finds (if bit v.toNat 7 then .host else .code 0x10)))) ∧
    (s.hub.up → w = .ctx cid → askerOf s w = some a → sharers s w a = [w] → walk s a (dom s).ptrs = .code code → a.priv < 2 →
      let page := a.va / 2 ^ 14 * 2 ^ 14
      (code ∈ [0x11, 0x13, 0x32] → done (.pageWalk w) (fun u => (u.ctx cid).status = .ending
        { faultOf code with addr := BitVec.ofNat 64 (if code = 0x32 then a.va else page), acc := accCode a.acc } (s.ctx cid).irv)) ∧
      (code = 0x10 → s.hub.cam = [] → ∃ u n y, exec (.pageWalk w) s = .next (wholeStep s u) ∧
        (u.hub.noRoom = s.hub.noRoom → exec (.pageWalk w) s = .next u) ∧ (u.ctx cid).status = .parked (.fault n a.va a.acc) ∧
        u.hub.cam = [(n, y)] ∧ y.code = 0x10 ∧ y.page = a.va / 2 ^ 14 ∧ y.pasid = a.pasid.toNat ∧ y.reqs = [.ctx cid])) ∧
    (s.hub.up → s.hub.ats[k]? = some r → r.who = w → r.dropped = false → askerOf s w = some a → AtsAnswer.grants x r.acc → (r.priv → x.priv) →
      done (.atsCompletion k (some x)) (fun u => askerOf u w = none ∧ u.hub.ats = dropAt s.hub.ats k ∧ ∃ y ∈ (dom u).tlb,
        y.pasid = r.pasid ∧ y.vpage = r.va / 2 ^ 14 ∧ y.quarter = some (r.va / 2 ^ 12 % 4) ∧ y.priv = x.priv ∧
        y.keyOf r.va = hostBase + x.hpa / 2 ^ 12 * 2 ^ 12 + r.va % 2 ^ 12 ∧ (y.r, y.w, y.x) = (x.r, x.w, x.x))) ∧
    (let live := s.hub.up ∧ s.hub.priOut.find? (fun y => y.1 == cam) = some (i, sq) ∧
        s.hub.cam.find? (fun y => y.1 == cam && y.2.seq == sq && y.2.code == 0x12) = some (j, e) ∧ e.reqs = [.ctx cid] ∧
        (s.ctx cid).status = .parked (.fault cam va1 kk) ∧ s.hub.recs = [] ∧ (∀ v, waitsCam s v = none)
     (live → done (.priSuccess cam) (fun u => mhas u.hub.cam cam = false ∧ (u.ctx cid).status = .parked (.walk va1 kk))) ∧
     (live → (s.loc cid).priv ≠ 2 → done (.priInvalidRequest cam) (fun u => mhas u.hub.cam cam = false ∧
       (u.ctx cid).status = .ending { faultOf 0x11 with addr := BitVec.ofNat 64 (e.page * 2 ^ 14), acc := accCode kk } (s.ctx cid).irv)) ∧
     (live → (s.loc cid).priv ≠ 2 → done (.priResponseFailure cam) (fun u => mhas u.hub.cam cam = false ∧ u.hub.priStopped ∧
       (u.ctx cid).status = .ending { faultOf 0x11 with addr := BitVec.ofNat 64 (e.page * 2 ^ 14), acc := accCode kk } (s.ctx cid).irv))) ∧
    (s.hub.up → done (.priReenable n) (fun u => u.hub.priStopped = false ∧ u.hub.priAlloc = n ∧
      (u.hub.priOut.length < n → unsentPri u.hub = []))) ∧
    (s.hub.up → done (.atsInvalidationRequest pasid va len) (fun u =>
      (∀ y ∈ (mget emptyCore u.cores core).utlb ++ (mget emptyCluster u.clus c).tlb ++ (mget emptyDomain u.doms d).tlb, y.quarter = some q →
        y.pasid = pasid → ¬ (y.vpage * 2 ^ 14 + q * 2 ^ 12 < va + len ∧ va < y.vpage * 2 ^ 14 + q * 2 ^ 12 + 2 ^ 12)) ∧
      (hostBusy s pasid va len = false → (∀ y ∈ s.ctxs, waitaOf s y.1 = none) → u.hub.out = .atsDone pasid va :: s.hub.out))) ∧
    (let own := fld (irt s.hub src) 0 2
     let ad : BitVec 32 := (irt s.hub src).extractLsb' 32 32
     let listed : Prop := s.hub.up ∧ (((src = 0 ∧ data.toNat < 512 ∨ src = 2 ∧ data.toNat < 2 ^ 33 ∨ src = 3 ∧ coreCodeOk data.toNat ∨
         src = 5 ∧ data.toNat < 8) ∧ dd = data) ∨ (src = 1 ∧ dd = (reg s.hub 0x5010) >>> 32) ∨ (src = 4 ∧ dd = (reg s.hub 0x4008) >>> 32) ∨
       (8 ≤ src ∧ src ≤ 39 ∧ dd = BitVec.ofNat 64 ((src - 8) % 16)) ∨ (src = 40 ∧ dd = reg s.hub 0x6008) ∨ (src = 41 ∧ dd = 0))
     (listed → own = 0 → exec (.externalEvent src data) s = .next { s with hub := bump s.hub (0x4808 + 16 * src) 0 32 }) ∧
     (listed → own = 2 → done (.externalEvent src data) (fun u => u.hub.out = .msi (fld (irt s.hub src) 21 11) :: s.hub.out)) ∧
     (listed → own = 1 ∨ own = 3 → placed s.hub ad → done (.externalEvent src data) (fun u => ∃ f,
       u.hub.flight = s.hub.flight ++ [f] ∧ f.dest = .addr ad ∧ f.tok.payload = (dd ++ BitVec.ofNat 64 src : BitVec 128) ∧
       f.tok.tag = BitVec.ofNat 64 (0x3FFF * 32 + adCh ad + 2 ^ 24) ∧
       f.esc = (if own = 3 then some { src := src, esc := fld (irt s.hub src) 5 16, vec := fld (irt s.hub src) 21 11 } else none)))) ∧
    (s.hub.up → s.hub.esc[k]? = some tm → tm.off = none → tm.due ≤ s.now → done (.irtEscalation k) (fun u =>
      u.hub.esc = dropAt s.hub.esc k ∧ u.hub.out = .msi tm.vec :: s.hub.out))

/-- R434-R436, R438, R439, R441-R446. A doorbell reads TAIL and checks it; an enable takes the descriptor, a disable forgets the queue. SIGNAL writes or adds, and a held store
of it completes once its drift is sealed; WAITV ends when its condition holds or its time is up; BARRIER waits for earlier work; COPYQ copies piece by
piece; LAUNCH takes a slot; a completion enters the hold as 16 bytes. -/
def Obligations.QueueRecords : Prop :=
  ∀ (s : State) (q k key sk sk2 dk n pos : Nat) (x : Queue) (w : Work) (r : List Word) (a v c m dst src len : Word) (cond : BitVec 2) (t : BitVec 32)
    (trk stk stk2 add : Bool) (st : BitVec 8) (eng : Option Nat) (cl : List (Nat × Bool)) (h : List Word)
    (as : List (List Word)),
    let done : Instr → (State → Prop) → Prop := fun ev p => ∃ u, exec ev s = .next u ∧ p u
    let room : BitVec 32 → Nat → Prop := fun d pa => wbRoom s.hub (channelOf pa) d ∧ s.hub.wbStall.any (fun y => y.1 == channelOf pa) = false ∧ sliceFull s pa = false
    let line : Nat → Nat → Prop := s.plain
    let free : Nat → Prop := fun pa => lacksRoom s (hubWriteOf s.hub pa []) = none
    let still : Prop := ∀ y, queueOf s w.queue = some y → y.tail ≤ y.head
    let silent : Prop := w.caddr = 0 ∧ w.msie = false
    let fresh : Prop := s.hub.up ∧ s.hub.recs = [] ∧ workOf s k = some w ∧ w.parked = none ∧ w.walking = none ∧ w.finished = none
    let headIs : State → Nat → Nat → Prop := fun u q n => (queueOf u q).map (·.head) = some n
    let plain : Prop := recW r 1 = 0 ∧ bit (recW r 0).toNat 8 = false ∧ x.tail ≤ x.head + 1
    (s.hub.up → q ∈ s.hub.bells → queueOf s q = some x → x.en → x.stopped = false →
      let tail := (qWord s q 0).toNat
      (tail < x.head ∨ 2 ^ x.log2n < tail - x.head → free (qDesc s.hub q + 88) → done (.doorbell q) (fun u => (queueOf u q).map (·.stopped) = some true)) ∧
      (tail = x.head → done (.doorbell q) (fun u => queueOf u q = some { x with tail := tail } ∧ u.mem = s.mem))) ∧
    (s.hub.up → q < 512 → descEn s q → queueOf s q = none →
      (descChecks s q = false → free (qDesc s.hub q + 88) → done (.queueEnable q) (fun u => (queueOf u q).map (·.stopped) = some true)) ∧
      (descChecks s q → qWord s q 0 = qWord s q 80 → done (.queueEnable q) (fun u => (qDesc s.hub q / 64, q) ∈ u.hub.watches ∧
        queueOf u q = some { en := true, head := (qWord s q 80).toNat, tail := (qWord s q 0).toNat, rbase := (qWord s q 64).toNat
                             log2n := fld (qWord s q 72) 0 5, pasid := (qWord s q 72).extractLsb' 32 20, maxpcls := fld (qWord s q 72) 8 3
                             stopped := false }))) ∧
    (s.hub.up → (queueOf s q).isSome → descEn s q = false → done (.queueDisable q) (fun u => queueOf u q = none ∧ ∀ y ∈ u.hub.watches, y.2 ≠ q)) ∧
    (fresh → still → silent → w.work = .signal a v false → hubXlate s w.pasid a.toNat .write = .key key trk → line key 8 →
      room (hubStamp s.hub) key → done (.signalRecord k) (fun u => homeBytes u key 8 = leBytes 8 v.toNat ∧
        (workOf u k).map (·.work) = if tracked s.hub key then none else some (.posted a v (hubStamp s.hub)))) ∧
    (∀ e, fresh → still → silent → w.work = .posted a v e → done (.signalRecord k) (fun u =>
      workOf u k = if isSealed s.hub.seals e then none else some w)) ∧
    (fresh → still → silent → w.work = .signal a v true → hubXlate s w.pasid a.toNat .atomic = .key key trk → line key 8 →
      room (hubStamp s.hub) key → done (.signalRecord k) (fun u => workOf u k = none ∧
        homeBytes u key 8 = leBytes 8 (leVal (homeBytes s key 8) + v.toNat))) ∧
    (s.hub.up → s.hub.recs = [] → workOf s k = some w → w.parked = none → w.walking = none → w.finished = some st → still → w.work = .signal a v add →
      w.caddr ≠ 0 → hubXlate s w.pasid w.caddr.toNat .write = .key key stk → line key 16 → sliceFull s key = false →
      done (.signalRecord k) (fun u => workOf u k = none ∧ homeBytes u key 16 = completionBytes w st ∧
        { stamp := hubStamp s.hub, by_ := none
          item := .completion key (cellsOf key (completionBytes w st)) (if w.msie then some w.vec.toNat else none)
          page := some (w.pasid.toNat, w.caddr.toNat) } ∈ u.hub.held)) ∧
    completionBytes w st = leBytes 8 w.cval.toNat ++ leBytes 8 (st.toNat + w.kind.toNat * 2 ^ 8 + w.lslot.toNat * 2 ^ 16) ∧
    (fresh → silent → w.work = .waitv a c m cond t → queueOf s w.queue = some x → x.stopped = false → x.head = w.idx → x.tail ≤ w.idx + 1 →
      free (qDesc s.hub w.queue + 80) →
      (hubXlate s w.pasid a.toNat .read = .key key trk → line key 8 →
        let held := waitvHolds cond (BitVec.ofNat 64 (leVal (homeBytes s key 8))) c m
        (held → done (.waitvRecord k) (fun u => workOf u k = none ∧ headIs u w.queue (w.idx + 1))) ∧
        (held = false → done (.waitvRecord k) (fun u => workOf u k = some w ∧ headIs u w.queue w.idx))) ∧
      (t ≠ 0 → w.since + 2900 * t.toNat ≤ s.now →
        done (.waitvTimeout k) (fun u => workOf u k = none ∧ headIs u w.queue (w.idx + 1)))) ∧
    (s.hub.up → s.hub.recs = [] → nextRecord s q = some (x, r) → recordOk r → plain → free (qDesc s.hub q + 80) →
      (rKind r = 4 → earlierWork s q = false → done (.barrierRecord q) (fun u => headIs u q (x.head + 1))) ∧
      (rKind r = 4 → earlierWork s q → exec (.barrierRecord q) s = .next s) ∧
      (rKind r = 6 → done (.nopRecord q) (fun u => headIs u q (x.head + 1)))) ∧
    (let da := (dst.toNat + pos) % 2 ^ 60
     let sa := (src.toNat + pos) % 2 ^ 60
     let d := eng.getD (copyqDom dk)
     let e := stampOf s.hub (mget emptyDomain s.doms d).late
     let cut := min n (64 - sa % 64)
     let put : State → Prop := fun u => homeBytes u dk n = homeBytes s sk cut ++ homeBytes s sk2 (n - cut)
     fresh → still → w.work = .copyq dst src len pos eng → n = min (64 - da % 64) (len.toNat - pos) →
       hubXlate s w.pasid sa .read = .key sk stk → (cut < n → hubXlate s w.pasid ((sa + cut) % 2 ^ 60) .read = .key sk2 stk2 ∧ line sk2 (n - cut)) →
       hubXlate s w.pasid da .write = .key dk trk → (∀ i < n, ¬ (src.toNat ≤ da + i ∧ da + i < src.toNat + len.toNat)) → line sk cut → line dk n →
       room e dk →
       (pos + n < len.toNat → done (.copyqRecord k) (fun u => workOf u k = some { w with work := .copyq dst src len (pos + n) (some d) } ∧ put u)) ∧
       (pos + n = len.toNat → silent → hubTrails s.hub e = false → done (.copyqRecord k) (fun u => workOf u k = none ∧ put u))) ∧
    (s.hub.up → s.hub.recs = [] → nextRecord s q = some (x, r) → recordOk r → rKind r = 1 → launchWork s q = none →
      (∀ y ∈ s.hub.tables.works, y.1 < s.hub.tables.workSeq) → readDesc s x.pasid (recW r 3).toNat = .ok (cl, some (h, as)) → descOk h as →
      freeSlot s.hub = some n → done (.launchRecord q) (fun u => ∃ la, launchOf u.hub n = some la ∧ la.stage = .waiting ∧ la.queue = q ∧
        la.idx = x.head ∧ la.tag = recW r 4 ∧ la.pasid = x.pasid ∧ la.hdr = h ∧ la.actors = as ∧ la.pcls = min (hdPcls h) x.maxpcls))

/-- R224, R288, R311, R312, R316-R320, R322. A launch whose dependences are met starts with its instances placed and its start tokens sent, and ends when it is quiescent;
decisions grant clusters, to the launches that they name and to a ready one that they leave out (log entry 110), an expired quantum takes one, owners change with
the old state saved and cleared, a park notice is sent and again after two more quanta (log entry 74), real-time periods refill, TLIM follows the
sensor. A step of the scheduler that finds no room for a write waits whole (log entry 12). -/
def Obligations.LaunchesAndScheduler : Prop :=
  ∀ (s : State) (slot c w o i d cid ch : Nat) (pl : List Placing) (la lo : Launch) (x : Queue) (p : Placing) (tlim : BitVec 12) (rt : RtSlot),
    let done : Instr → (State → Prop) → Prop := fun ev p => ∃ u, exec ev s = .next u ∧ p u
    let whole : Instr → Prop → (State → Prop) → Prop := fun ev room p => ∃ u, exec ev s = .next (wholeStep s u) ∧
      (u.hub.noRoom = s.hub.noRoom ∨ room → exec ev s = .next u) ∧ p u
    let sc := chargeRt s
    let u0 := mget emptyCluster s.clus c
    let clus : State → Cluster := fun u => mget emptyCluster u.clus c
    let calm : Prop := ∀ d < 8, 125 * proj s d ≤ capE s.hub d
    let usable : Prop := isService (8 * c) = false ∧ ∃ k < 8, inService s.hub (8 * c + k)
    (s.hub.up → slot < 4096 → launchOf s.hub slot = some la → la.stage = .waiting → depsMet s slot la → queueLets s la →
      (∀ r ∈ la.actors, recFork r = false) → instCount la.actors ≤ 2048 → (homeCore s slot la).isSome → placementOk s slot la pl →
      queueOf s la.queue = some x → x.tail ≤ la.idx + 1 → p ∈ pl →
      whole (.launchStart slot pl) (la.pending = [] ∧ la.insts = [] ∧ lacksRoom s (hubWriteOf s.hub (qDesc s.hub la.queue + 80) []) = none)
        (fun u => (∃ y, launchOf u.hub slot = some y ∧ y.stage = .running ∧
        mget 0 y.places p.inst = BitVec.ofNat 64 (1 + p.core * 4)) ∧
        ∀ r n, actorOf la.actors p.inst = some (r, n) → recStart r → ∃ f ∈ u.hub.flight, f.dest = .addr (adOf slot p.inst (recCh0 r)) ∧
          f.tok.payload.extractLsb' 0 11 = BitVec.ofNat 11 n)) ∧
    (s.hub.up → launchOf s.hub slot = some la → la.stage = .running → quiescent s slot la → la.caddr = 0 → la.msie = false →
      done (.launchCompletion slot) (fun u => launchOf u.hub slot = none ∧ (clus u).owner ≠ some slot)) ∧
    (s.hub.up → calm → queuesRun s → usable → launchOf s.hub slot = some la → la.pasid ≠ 0 → u0.wanted = none → u0.owner = none → isReady s slot la →
      (∀ e ∈ s.hub.tables.launches, e.1 ≠ slot → e.2.pasid = 0 ∨ isReady s e.1 e.2 = false ∨ granted s e.1) →
      mayGrant (putProjs (noteReady sc)) (c / 32) slot la →
        done (.schedulerDecision [{ clus := c, lslot := slot }]) (fun u => (clus u).wanted = some slot) ∧
        (granted s slot = false → c ∈ allClusters → done (.schedulerDecision []) (fun u => granted u slot))) ∧
    (s.hub.up → calm → s.hub.lastTick + 29000 ≤ s.now → done .schedulerTick (fun u =>
      u.hub.lastTick = s.now ∧ u.hub.rtAt = s.now ∧ ((i, rt) ∈ s.hub.rt →
        let held := s.clus.filter (fun e => (e.2.owner.bind (launchOf s.hub)).any (fun y => y.queue == fld rt.cfg 0 9))
        (i, { rt with left := rt.left - (held.map (fun e => s.now - max s.hub.rtAt e.2.taken)).sum }) ∈ u.hub.rt))) ∧
    (s.hub.up → queuesRun s → usable → u0.owner = some o → u0.wanted = none → u0.taken + quantum s.hub ≤ s.now →
      (waiting sc c).head? = some { clus := c, lslot := w } →
      launchOf s.hub w = some la → launchOf s.hub o = some lo → isReady s w la → mayGrant sc (c / 32) w la → rtOf sc lo = none →
      effClass s o lo ≤ effClass s w la → slotsDue s < fld (reg s.hub 0x2010) 0 13 →
      done (.quantumExpiry c) (fun u => (clus u).wanted = some w ∧ (clus u).owner = some o ∧
        (clusOfCore (coreOfCid cid) = c → (s.ctx cid).status ≠ .dormant → (u.ctx cid).preempt))) ∧
    (∀ pk pc, s.hub.up → (s.ctx cid).status = .parked pk → pk.listed → (s.ctx cid).preempt → (s.ctx cid).parkedAt + 2 * quantum s.hub ≤ s.now →
      pcbOf s (s.ctx cid).pasid.toNat = some pc → dword s pc ≠ 0 → (dword s pc).toNat < 2 ^ 32 →
      placed s.hub ((dword s pc).setWidth 32) →
      done (.parkNotice cid) (fun u => (u.ctx cid).parkedAt = s.now ∧ ∃ f, u.hub.flight = s.hub.flight ++ [f] ∧ f.kind = .record ∧
        f.dest = .addr ((dword s pc).setWidth 32) ∧ f.second.isSome ∧ f.tok.payload.extractLsb' 84 8 = 0)) ∧
    (let v := reg s.hub (0x2400 + 8 * i)
     s.hub.up → i < 32 → (∀ k r, s.hub.rt.find? (fun e => e.1 == i) = some (k, r) → r.start + 2900 * fld r.cfg 12 20 ≤ s.now) →
       done (.rtPeriodStart i) (fun u => u.hub.rt.find? (fun e => e.1 == i) =
         if bit v.toNat 9 then some (i, { cfg := v, left := 2900 * fld v 32 20, start := s.now }) else none)) ∧
    (s.hub.up → u0.wanted = some w → w < 4096 → (launchOf s.hub w).isSome → clusIdle s c → (∀ e ∈ s.hub.tables.slots, ¬ (e.2.lslot = w ∧ e.2.clus = c)) →
      let fresh : State → Prop := fun u => (clus u).owner = some w ∧ (clus u).wanted = none ∧ (clus u).taken = s.now ∧ (clus u).s = [] ∧
        ∀ k < 8, let y := mget emptyCore u.cores (8 * c + k); y.w = [] ∧ y.x = [] ∧ y.y = [] ∧ mget emptyChan y.chans ch = emptyChan ∧ y.dist = 8
      (u0.owner = none → done (.clusterOwnerChange c slot) fresh) ∧
      (u0.owner = some o → o ≠ w → (launchOf s.hub o).isSome → slot < fld (reg s.hub 0x2010) 0 13 → (∀ e ∈ s.hub.tables.slots, e.1 ≠ slot) →
        (ownsSector s o (c / 4) → (mget emptySector s.sects (c / 4)).tileq = []) →
        whole (.clusterOwnerChange c slot) False (fun u => fresh u ∧ ∃ y, (slot, y) ∈ u.hub.tables.slots ∧ y.lslot = o ∧ y.clus = c ∧
          y.cluster.map (·.s) = some u0.s ∧ ∀ k < 8, (mget emptyCore y.cores k).w = (mget emptyCore s.cores (8 * c + k)).w))) ∧
    (s.hub.up → d < 8 → done (.thermalLimitChange d tlim) (fun u => fld (reg u.hub (0x2100 + 8 * d)) 24 12 = tlim.toNat ∧
      (tlim.toNat < proj s d → fld (irt s.hub 5) 0 2 = 2 → .msi (fld (irt s.hub 5) 21 11) ∈ u.hub.out)))

/-- R14, R28, R29, R395, R396, R405, R406, R408, R415, R420-R424. OPEN makes late, until they acknowledge, the agents that the state lists (log entry 69); the hub's tables pass
into the new drift with its acknowledgement (log entry 70). The commit seals the drift and frees what it held, the sweep clears DT and PIN; a rollback
restores the logged granules and empties contexts and buffers, but not what PRIO set (log entry 111); a mismatching core is suspected and its spare,
or no core, takes its place. -/
def Obligations.DriftsSealAndRollBack : Prop :=
  ∀ (s : State) (n m g d cid i : Nat) (e : WbEntry) (v ch : Nat) (cause : BitVec 8) (h : Held) (rest : List (BitVec 32)) (dr : BitVec 32),
    let done : Instr → (State → Prop) → Prop := fun ev p => ∃ u, exec ev s = .next u ∧ p u
    let o := s.hub.seals
    let noToken : Nat → Prop := fun i => fld (irt s.hub i) 0 2 = 0 ∨ fld (irt s.hub i) 0 2 = 2
    (s.hub.up → o.stage = .quiet → o.wanted → ¬ (o.newest - 2 ∈ o.sweeping) → s.hub.rbDue = none → done .sealStart (fun u =>
      u.hub.seals.newest = o.newest + 1 ∧ u.hub.seals.stage = .opening ∧ u.hub.seals.sealed = o.sealed ∧ u.hub.seals.wanted = false ∧
      (∀ k, (∃ c ∈ s.cores, c.1 = k) → (mget emptyCore u.cores k).late) ∧ u.mem = s.mem ∧ u.ctxs = s.ctxs)) ∧
    (s.hub.up → o.stage = .opening → done (.driftAck (.core n)) (fun u => (mget emptyCore u.cores n).late = false ∧
      (m ≠ n → mget emptyCore u.cores m = mget emptyCore s.cores m) ∧ u.hub = s.hub)) ∧
    (s.hub.up → o.stage = .opening → hubStamp s.hub ≠ o.newest → done (.driftAck .hub) (fun u => hubStamp u.hub = o.newest ∧
      u.hub.snaps = (o.newest, s.hub.tables) :: s.hub.snaps)) ∧
    (s.hub.up → o.stage = .opening → someLate s = false → (∀ c ∈ s.ctxs, stampedBy (o.newest - 1) c.2 = false) → s.hub.rbDue = none →
      done .sealCommit (fun u => u.hub.seals.sealed = o.newest - 1 ∧ u.hub.seals.stage = .quiet ∧ o.newest - 1 ∈ u.hub.seals.sweeping ∧
        u.hub.seals.lastCommit = s.now ∧ (∀ x ∈ u.hub.held, x.stamp ≠ o.newest - 1) ∧ (∀ r ∈ u.hub.wb, ∀ x ∈ r.2, x.drift ≠ o.newest - 1) ∧
        (s.hub.held = [h] → h.stamp = o.newest - 1 → h.item = .msi v → u.hub.out = .msi v :: s.hub.out))) ∧
    (s.hub.up → o.sweeping = dr :: rest → mwf cleanGran s.grans → done .sweepComplete (fun u => u.hub.seals.sweeping = rest ∧
      mget cleanGran u.grans g = (let x := mget cleanGran s.grans g; if x.dt = dtOf dr then { x with dt := 0, pin := false } else x))) ∧
    (s.hub.up → o.lastCommit + 2900 * fld (reg s.hub 0x5008) 0 17 ≤ s.now →
      (openHolds s → done .sealTimer (fun u => u.hub.seals.wanted ∧ u.hub.held = s.hub.held)) ∧
      (openHolds s = false → exec .sealTimer s = .next s)) ∧
    (let bare := dropAll (restoreAll s) (rolledTables s)
     s.hub.up → s.hub.rbDue = some cause → (∀ q < 512, descEn bare q = false) → s.hub.wb = [(d, [e])] → e.bad = false → e.old.length = 64 →
       done .rollback (fun u => u.hub.seals.newest = o.sealed + 1 ∧ u.hub.seals.sealed = o.sealed ∧ (noToken 1 → u.hub.rbDue = none ∧ u.hub.held = []) ∧
         (u.ctx cid).status = .dormant ∧ (mget emptyCore u.cores n).w = [] ∧ (mget emptyCore u.cores n).y = [] ∧
         chanAt u n ch = { emptyChan with masked := (chanAt s n ch).masked, prio := (chanAt s n ch).prio } ∧ (mget emptyCluster u.clus n).s = [] ∧
         fld (reg u.hub 0x5010) 32 32 = (fld (reg s.hub 0x5010) 32 32 + 1) % 2 ^ 32 ∧ fld (reg u.hub 0x5010) 0 8 = cause.toNat ∧
         (noToken 1 →
           ((mget cleanGran s.grans e.gran).pin = false → i < 64 → ramByte u.mem (64 * e.gran + i) = e.old.getD i 0) ∧
           ((mget cleanGran s.grans e.gran).pin → u.mem = s.mem)))) ∧
    (s.hub.up → (s.ctx cid).status = .issuing →
      done (.checkerMismatch cid false) (fun u => (u.ctx cid).cir.getLsbD 1 ∧ (u.ctx cid).status = .issuing ∧ u.cores = s.cores)) ∧
    (s.hub.up → (s.ctx cid).status = .issuing → (s.ctx cid).irv = false → (∀ t ∈ (s.ctx cid).quota0 ++ (s.ctx cid).quota1, t.redeliv < 2) →
      (∀ k < 8, coreOfCid cid * 8 + k ≠ cid → (s.ctx (coreOfCid cid * 8 + k)).status = .dormant) →
      done (.checkerMismatch cid true) (fun u => (mget emptyCore u.cores (coreOfCid cid)).suspect ∧ (u.ctx cid).status = .killing 0x31 false)) ∧
    (let k := coreAt s n
     let cmap := reg s.hub (cmapOff n)
     s.hub.up → k.suspect → inService s.hub n → coreIdle s n → isService n = false →
       (bit cmap.toNat 11 → done (.spareTakeover n) (fun u => (coreAt u n).suspect = false ∧ (coreAt u n).w = k.w ∧ (coreAt u n).chans = k.chans ∧
         let c := reg u.hub (cmapOff n); bit c.toNat 11 = false ∧ bit c.toNat 12 ∧ fld c 13 3 = n % 8 ∧ fld c 0 8 = fld cmap 0 8)) ∧
       (bit cmap.toNat 11 = false → (liveOwner s n = none ∨ (freeSwap s.hub).isSome) →
         ∃ u, exec (.spareTakeover n) s = .next (wholeStep s u) ∧ (u.hub.noRoom = s.hub.noRoom → exec (.spareTakeover n) s = .next u) ∧
           inService u.hub n = false) ∧
       (bit cmap.toNat 11 = false → (liveOwner s n).isSome → freeSwap s.hub = none →
         exec (.spareTakeover n) s = .next { s with hub := bump s.hub 0x2018 32 32 })) ∧
    (s.hub.up → g < 2 ^ 33 → done (.scrubRead g .uncorrectable) (fun u => g ∈ u.hub.badRows ∧ (noToken 2 → (mget cleanGran u.grans g).pois ∧
      (m ≠ g → mget cleanGran u.grans m = mget cleanGran s.grans m) ∧ u.mem = s.mem))) ∧
    (s.hub.up → exec (.scrubRead g .clean) s = .next s)

/-- R348, R352, R364-R366, R368, R417, R418, R428. The host reads, owns, writes and writes back lines of device memory, snoops take or share host lines, each with the line state
that follows; SNP_INV carries the host's new bytes, if it has any, which is the model's form of it (log entry 26); a read of an open drift waits for a
seal; slices leave and return; the port runs on the modules that trained. -/
def Obligations.HostPortCoherence : Prop :=
  ∀ (s : State) (a n line k j x : Nat) (bs : List Byte) (up : BitVec 4),
    let done : Instr → (State → Prop) → Prop := fun ev p => ∃ u, exec ev s = .next u ∧ p u
    let serves : Prop := s.hub.up ∧ hostServes s
    let cached : Prop := ∀ e ∈ s.hostCache, e.2.length = 64
    let i := lineInfo s line
    let reply : Bool → Option (List Byte) := fun b => if b then some ((List.range 64).map (fun k => openByte s (64 * line + k))) else none
    (serves → oneLine a n → hostReadable s (a / 64) → done (.hostRead a n) (fun u =>
      u.hub.out = .hostData a ((List.range n).map (fun k => openByte s (a + k))) :: s.hub.out ∧ u.mem = s.mem ∧ (lineInfo u (a / 64)).hp ∧
      ((lineInfo s (a / 64)).st = .m → (lineInfo u (a / 64)).st = .o) ∧ ((lineInfo s (a / 64)).st = .e → (lineInfo u (a / 64)).st = .s))) ∧
    (serves → oneLine a n → hostReadable s (a / 64) = false →
      let ofNewest := (mget cleanGran s.grans (a / 64)).dt = dtOf s.hub.seals.newest ∨ s.hub.seals.newest = s.hub.seals.sealed + 1 ∨
        ∃ h ∈ s.hub.held, heldLine h.item = some (a / 64) ∧ h.stamp = s.hub.seals.newest
      (ofNewest → exec (.hostRead a n) s = .next { s with hub := wantSeal s.hub }) ∧ (¬ ofNewest → exec (.hostRead a n) s = .next s)) ∧
    (serves → line < 2 ^ 33 → hostReadable s line → done (.hostReadOwnership line none) (fun u =>
      lineInfo u line = { st := .i, hp := true, pre := false, fly := false } ∧ u.mem = s.mem ∧
      u.hub.out = .hostData (64 * line) ((List.range 64).map (fun k => openByte s (64 * line + k))) :: s.hub.out)) ∧
    (serves → line < 2 ^ 33 → hostReadable s line → bs.length = 64 → done (.hostReadOwnership line (some bs)) (fun u =>
      lineInfo u line = { st := .i, hp := true, pre := false, fly := false } ∧ (x < 64 → openByte u (64 * line + x) = bs.getD x 0))) ∧
    (serves → oneLine a bs.length → cached → done (.hostWrite a bs) (fun u => openByte u x = wrote bs a (openByte s) x ∧
      (granOpen s (a / 64) → (mget cleanGran u.grans (a / 64)).pin) ∧ u.hub.wb = s.hub.wb)) ∧
    (serves → line < 2 ^ 33 → bs.length = 64 → i.st = .i → i.hp → done (.hostWriteback line bs) (fun u => (lineInfo u line).hp = false ∧
      (x < 64 → openByte u (64 * line + x) = bs.getD x 0))) ∧
    (s.hub.up → hostLine line → done (.snpInv line none) (fun u => (lineInfo u line).st = .i ∧ u.mem = s.mem ∧
      u.hub.out = .snpReply line (reply (i.st == .m)) :: s.hub.out)) ∧
    (s.hub.up → hostLine line → bs.length = 64 → done (.snpInv line (some bs)) (fun u => (lineInfo u line).st = .i ∧
      (x < 64 → ramByte u.mem (64 * line + x) = bs.getD x 0))) ∧
    (s.hub.up → hostLine line → done (.snpData line) (fun u => u.hub.out = .snpReply line (reply (i.st == .m)) :: s.hub.out ∧
      (lineInfo u line).st = (if i.st = .i then .i else .s))) ∧
    (s.hub.up → hostLine line → exec (.snpCur line) s =
      .next { s with hub := { s.hub with out := .snpReply line (reply (i.st != .i)) :: s.hub.out } }) ∧
    (s.hub.up → isSlice k → sliceOff s k = false → (∃ y ∈ slicesOf k, y ≠ k ∧ sliceOff s y = false) → done (.sliceLeave k) (fun u => sliceOff u k ∧
      (j ≠ k → sliceOff u j = sliceOff s j))) ∧
    (s.hub.up → isSlice k → sliceOff s k → done (.sliceReturn k) (fun u => sliceOff u k = false ∧ (j ≠ k → sliceOff u j = sliceOff s j))) ∧
    (s.hub.up → exec (.hostPortLinkTraining up) s = .next { s with hub := { s.hub with modules := up } })

/-- R447, R448, R450-R454, R458. A drive's message raises its source, its reads and writes reach device memory as the host's do; received bytes fill the ring, RXP follows, and
the frame that acknowledges them waits for RXP's drift; published bytes, taken from the transmit ring, become frames that wait in the hold; a frame
during Hold waits in the MAC; a link change shows in NETCFG. A step without room for its writes waits whole (log entry 12). -/
def Obligations.DrivesAndNetwork : Prop :=
  ∀ (s : State) (port up : Bool) (data : BitVec 4) (a n x conn i ack : Nat) (bs : List Byte),
    let done : Instr → (State → Prop) → Prop := fun ev p => ∃ u, exec ev s = .next u ∧ p u
    let src := 8 + 16 * port.toNat + data.toNat
    let inRam : Nat → Prop := fun n => 0 < n ∧ isRam a ∧ isRam (a + n - 1)
    (s.hub.up → fld (irt s.hub src) 0 2 = 0 → exec (.nvmeMsi port data) s = .next { s with hub := bump s.hub (0x4808 + 16 * src) 0 32 }) ∧
    (s.hub.up → fld (irt s.hub src) 0 2 = 2 → done (.nvmeMsi port data) (fun u => u.hub.out = .msi (fld (irt s.hub src) 21 11) :: s.hub.out)) ∧
    (s.hub.up → inRam n → (∀ l ∈ linesFrom a n, hostReadable s l) → done (.nvmeInboundRead port a n) (fun u =>
      u.hub.out = .nvmeData port a ((List.range n).map (fun k => openByte s (a + k))) :: s.hub.out)) ∧
    (s.hub.up → 0 < n → ¬ inRam n → done (.nvmeInboundRead port a n) (fun u => u.hub.out = .nvmeUnsupported port a :: s.hub.out)) ∧
    (s.hub.up → inRam bs.length → (∀ e ∈ s.hostCache, e.2.length = 64) → done (.nvmeInboundWrite port a bs) (fun u =>
      openByte u x = wrote bs a (openByte s) x)) ∧
    (let rxp := (connW s conn 8).toNat
     let size := ringSize s conn 0
     let base := (connW s conn 0).toNat
     s.hub.up → connUp s conn → bs ≠ [] → (connW s conn 16).toNat ≤ rxp → rxp + bs.length - (connW s conn 16).toNat ≤ size →
       (∀ y < size, (base + y) / 64 ≠ conn) → base + size ≤ 2 ^ 39 → placed s.hub ((connW s conn 48).setWidth 32) →
       s.hub.recs = [] → s.hub.macBuf = [] →
       (let mine : Nat → Prop := fun y => y / 64 = conn ∨ (base ≤ y ∧ y < base + size); ∀ y z, mine y → mine z → tracked s.hub y → ¬ inLog s.hub y z) →
       ∃ u, exec (.netReceive conn bs (connW s conn 40).toNat) s = .next (wholeStep s u) ∧
         (bs.length = 1 → s.hub.held = [] → s.hub.wb = [] → s.hub.wbStall = [] → u.hub.noRoom = s.hub.noRoom) ∧
         (u.hub.noRoom = s.hub.noRoom → exec (.netReceive conn bs (connW s conn 40).toNat) s = .next u ∧
           connW u conn 8 = BitVec.ofNat 64 (rxp + bs.length) ∧ (i < bs.length → homeByte u (base + (rxp + i) % size) = bs.getD i 0) ∧
           ∃ h ∈ u.hub.held, h.item = .ack conn (rxp + bs.length) ∧ h.stamp = hubStamp s.hub)) ∧
    (s.hub.power = .hold → (s.hub.macBuf.map (fun f => f.2.1.length)).sum + bs.length ≤ 65536 →
      exec (.netReceive conn bs ack) s = .next { s with hub := { s.hub with macBuf := s.hub.macBuf ++ [(conn, bs, ack)] } }) ∧
    (let txp := (connW s conn 32).toNat
     s.hub.up → s.hub.recs = [] → connUp s conn → connSent s conn < txp → txp ≤ (connW s conn 40).toNat + ringSize s conn 8 → extFull s.hub = false →
       done (.netTransmit conn) (fun u => connSent u conn = txp ∧ ∃ h, u.hub.held = s.hub.held ++ [h] ∧ h.item = .frame conn (connSent s conn) ((List.range (txp - connSent s conn)).map
           (fun j => homeByte s ((connW s conn 24).toNat + (connSent s conn + j) % ringSize s conn 8))) ∧
         h.stamp = txpStamp s conn)) ∧
    (s.hub.up → (port → up → (reg s.hub 0x6008).getLsbD 0) → done (.ethernetLinkChange port up) (fun u =>
      (reg u.hub 0x6008).getLsbD (if port then 3 else 2) = up ∧ (reg u.hub 0x6008).getLsbD 0 = (reg s.hub 0x6008).getLsbD 0))

/-- R28, R307, R322, R389, R408, R413, R426, R427, R431, R432, R455-R459, R461, R463, R464. Hold is entered once everything is quiet and sealed, measures the firmware and empties
the caches; a wake finds that measurement or boots cold; a loss of power leaves what boot flash holds and the host's memory. That a wake is one step,
with the timer counted from the end of the entry, and that such a boot finds what Hub.find says, is log entry 77; that COLD_BOOT names the firmware's entry, and context 0 of each service core
starts there, is log entry 79. A debug token unlocks with its index, key and signature (log entry 108). A register takes the bits that its mask lets
through, with the clamps of CAP, SWPCFG, CWCFG and SEALCFG. -/
def Obligations.PowerAndRegisterWrites : Prop :=
  ∀ (s : State) (val : Word) (d i off size m c : Nat) (host : Bool) (mac : BitVec 48) (et : BitVec 16) (f : BootFind)
    (fr : RxFrame) (tok : DebugToken),
    let done : Instr → (State → Prop) → Prop := fun ev p => ∃ u, exec ev s = .next u ∧ p u
    let dark : State → Prop := fun u => u.hub.power = .off ∧ u.mem = s.mem.filter (fun x => isHostMem x.1) ∧ u.ctxs = [] ∧ u.cores = [] ∧ u.clus = [] ∧ u.hub.flash = s.hub.flash
    let awake : Nat → State → Prop := fun src u => (u.hub.power = .run ∨ u.hub.power = .cap) ∧ fld (reg u.hub 0x7008) 16 4 = src ∧
      (s.hub.macBuf = [] → src ≠ 1 → u.ctxs = s.ctxs ∧ u.mem = s.mem)
    let sound : Prop := imageHash s = s.hub.measure
    let coldWake : Instr → Prop := fun ev => ¬ sound → ∃ o, exec .supplyLoss s = .next o ∧ exec ev s = exec (.coldBoot s.hub.find) o
    let boots : Prop := s.hub.power = .off
    let signed_ : Bool := hssVerify s.hub.romKey (f.image.map (·.2)) f.sig
    let wr : Instr → (Hub → Prop) → Prop := fun ev p => s.hub.up → done ev (fun u => p u.hub ∧ u.mem = s.mem ∧ u.ctxs = s.ctxs)
    (s.hub.power = .toHold → s.hub.rbDue.isSome → exec .holdEntry s = .next s) ∧
    (s.hub.power = .toHold → s.hub.rbDue = none → holdQuiet s → s.hub.holdSeal = none → done .holdEntry (fun u => u.hub.seals.wanted ∧
      u.hub.holdSeal = some s.hub.seals.newest ∧ u.hub.power = .toHold)) ∧
    (s.hub.power = .toHold → s.hub.rbDue = none → holdQuiet s → holdSealed s → s.hub.wakePending = none → done .holdEntry (fun u => u.hub.power = .hold ∧
      u.hub.holdAt = s.now ∧ u.hub.measure = imageHash u ∧ u.ctxs = s.ctxs ∧ (mget emptyCore u.cores c).dcache = [] ∧ (mget emptyCore u.cores c).icache = [] ∧
      (mget emptyCore u.cores c).utlb = [] ∧ lineInfo u m = absentLine)) ∧
    (s.hub.up → s.hub.offReq → done .powerOff dark) ∧ done .supplyLoss dark ∧
    (s.hub.power = .hold → bit (reg s.hub 0x7000).toNat 3 → reg s.hub 0x7010 = (et ++ mac : BitVec 64) → sound →
      done (.wakeFrame mac et (some fr)) (awake 1)) ∧
    (s.hub.power = .hold → exec (.wakeFrame mac et none) s = .next s) ∧
    (s.hub.power = .hold → fld (reg s.hub 0x7000) 8 32 ≠ 0 → s.hub.holdAt + 2900000000 * fld (reg s.hub 0x7000) 8 32 ≤ s.now →
      (sound → done .wakeTimer (awake 3)) ∧ coldWake .wakeTimer) ∧
    (s.hub.power = .hold → (sound → done .hostWake (awake 2)) ∧ coldWake .hostWake) ∧
    (s.hub.power = .toHold → s.hub.wakePending = none → done .hostWake (fun u => u.hub.wakePending = some 2 ∧ u.hub.power = .toHold)) ∧
    (boots → f.flashOk → signed_ → done (.coldBoot f) (fun u => u.hub.power = .run ∧ u.hub.fwHash = sha256 (f.image.map (·.2)) ∧ u.hub.lms = s.hub.flash ∧ u.hub.flash = s.hub.flash + 1024 ∧
      u.hub.mtvec = f.mtvec ∧ fld (reg u.hub 0x4000) 14 30 = fld f.pastb 14 30 ∧ u.hub.seals.sealed = 0 ∧ u.hub.seals.newest = 1 ∧
      (c < 8 → f.svc.getLsbD c → (u.ctx ((0x7E0 + c) * 8)).status = .issuing ∧ (u.ctx ((0x7E0 + c) * 8)).pc = f.entry ∧
        stPRIV (u.ctx ((0x7E0 + c) * 8)).stat = 1))) ∧
    (boots → f.flashOk = false ∨ signed_ = false → done (.coldBoot f) (fun u => u.hub.power = .bootStopped ∧
      fld (reg u.hub 0x7018) 0 7 = (if f.flashOk then 1 else 2) ∧ u.ctxs = [])) ∧
    (let holds : Prop := tok.index = s.hub.lms ∧ tok.pub = devicePub s.hub.seed ∧ hssVerify s.hub.romKey (tokenBytes tok) tok.sig
     (holds → wr (.debugUnlock tok) (fun h => (reg h 0x7018).getLsbD 7)) ∧ (¬ holds → wr (.debugUnlock tok) (fun h => h = s.hub))) ∧
    (d < 8 → wr (.pbudCapWrite d val) (fun h => let o := capOthers s.hub d; let v := fld val 0 12
      fld (reg h (0x2100 + 8 * d)) 0 12 = (if 3360 < o + v then 3360 - o else if o + v < 960 then 960 - o else v) ∧
      ∀ k < 8, k ≠ d → reg h (0x2100 + 8 * k) = reg s.hub (0x2100 + 8 * k))) ∧
    (i < 32 → wr (.rtsWrite i val) (fun h => let w := reg h (0x2400 + 8 * i)
      fld w 0 9 = fld val 0 9 ∧ fld w 12 20 = fld val 12 20 ∧ fld w 32 20 = fld val 32 20 ∧ fld w 52 8 = fld val 52 8 ∧
      bit w.toNat 9 = (bit val.toNat 9 && decide (fld val 52 8 ≠ 0)) ∧ h.rt = s.hub.rt)) ∧
    wr (.swpcfgWrite val) (fun h => if s.hub.tables.slots = [] then fld (reg h 0x2010) 0 13 = min 4096 (fld val 0 13) ∧
      fld (reg h 0x2010) 21 23 = fld val 21 23 else h = s.hub) ∧
    wr (.cwcfgWrite val) (fun h => if (∃ q < 512, bit (homeByte s (qDesc s.hub q + 73)).toNat 7) then h = s.hub else
      fld (reg h 0x6000) 0 4 = max 1 (fld val 0 4) ∧ fld (reg h 0x6000) 26 18 = fld val 26 18) ∧
    wr (.sealcfgReq val) (fun h => fld (reg h 0x5008) 0 17 = (let per := fld val 0 17; if 20 ≤ per ∧ per ≤ 100000 then per else 250) ∧
      h.seals.wanted = (bit val.toNat 17 || s.hub.seals.wanted)) ∧
    (d < 8 → bit val.toNat 0 → wr (.datcfgSync d val) (fun h => let base := fld val 19 25 * 2 ^ 19
      (datOf h d).base = base ∧ ∀ a, base ≤ a → a < base + 2 ^ 19 → mget (memDefault a) (datOf h d).cells a = homeByte s a)) ∧
    (s.hub.up → bit val.toNat 0 → fld val 6 38 < 2 ^ 33 → done (.errinjGo val) (fun u => (mget cleanGran u.grans (fld val 6 38)).pois ∧
      (m ≠ fld val 6 38 → mget cleanGran u.grans m = mget cleanGran s.grans m) ∧ u.mem = s.mem ∧ fld (reg u.hub 0x5020) 6 38 = fld val 6 38 ∧
      ∀ o, o ≠ 0x5020 → reg u.hub o = reg s.hub o)) ∧
    (off < 0x800 → off % 16 = 0 → wr (.irtWrite off val) (fun h => let w := reg h (0x4800 + off)
      fld w 0 2 = fld val 0 2 ∧ fld w 5 27 = fld val 5 27 ∧ fld w 32 32 = fld val 32 32)) ∧
    (s.hub.up → off % 8 = 0 → hostClosed off → exec (.registerWrite true off 8 val) s = .next s) ∧
    (let acts : Prop := off ∈ [0x2000, 0x2010, 0x5008, 0x5020, 0x6000, 0x7000] ∨ (0x2100 ≤ off ∧ off < 0x2140) ∨ (0x2400 ≤ off ∧ off < 0x2500) ∨
       (0x5100 ≤ off ∧ off < 0x5200 ∧ off % 32 = 16)
     ¬ acts → off % 8 = 0 → (host → hostClosed off = false) →
      (regMask off ≠ 0 → wr (.registerWrite host off 8 val) (fun h => reg h off = (reg s.hub off &&& ~~~regMask off) ||| (val &&& regMask off))) ∧
      (regMask off = 0 → s.hub.up → exec (.registerWrite host off 8 val) s = .next s)) ∧
    (d < 8 → exec (.registerWrite host (0x2100 + 8 * d) 8 val) s = exec (.pbudCapWrite d val) s ∧
      exec (.registerWrite host (0x5110 + 32 * d) 8 val) s = exec (.datcfgSync d val) s) ∧
    (i < 32 → exec (.registerWrite host (0x2400 + 8 * i) 8 val) s = exec (.rtsWrite i val) s) ∧
    (s.hub.up → size ≠ 4 → size ≠ 8 ∨ off % 8 ≠ 0 → exec (.registerWrite host off size val) s = .next s) ∧
    (s.hub.up → off % 4 ≠ 0 → exec (.registerWrite host off 4 val) s = .next s)

/-- The model's canonical form of memory (log entry 7): every step keeps it, whatever the state, the agenda and the instruction. -/
def Obligations.StepKeepsMemoryForm : Prop :=
  ∀ s t : State, Memory.wf s.mem → step s = .next t → Memory.wf t.mem

/-- R28, R72, R84, R403, R426, R432. After a cold start every context is dormant, every buffer reads zero, drift 0 is sealed and drift 1 open, no launch, queue or fault is live, the registers hold their
reset values, and memory has the canonical form. The issuing context and the dormant contexts' registers are the model's choice (log entry 1), and so
is that every core is in service until self-test says otherwise (log entry 2). -/
def Obligations.ResetIsAsStated : Prop :=
  let s := State.reset
  Memory.wf s.mem ∧ s.agenda = [] ∧ (∀ c, (s.ctx c).status = .dormant) ∧
  (∀ c a, mget 0 (mget emptyCore s.cores c).w a = 0 ∧ mget 0 (mget emptyCore s.cores c).x a = 0 ∧ mget 0 (mget emptyCore s.cores c).y a = 0 ∧
    mget 0 (mget emptyCluster s.clus c).s a = 0) ∧
  (∀ c, (mget emptyCore s.cores c).dist = 8 ∧ (mget emptyCore s.cores c).tileSet = false ∧ ∀ n, chanAt s c n = emptyChan) ∧
  s.hub.seals.sealed = 0 ∧ s.hub.seals.newest = 1 ∧ s.hub.seals.stage = .quiet ∧ s.hub.cam = [] ∧ s.hub.tables = emptyTables ∧
  s.hub.power = .run ∧ (∀ c, inService s.hub c = coreCodeOk c ∨ isService c) ∧ reg s.hub 0x2000 = 200 ∧ fld (reg s.hub 0x5008) 0 17 = 250 ∧
  reg s.hub 0x6000 = 1 ∧ (∀ d < 8, fld (reg s.hub (0x2100 + 8 * d)) 0 12 = 420) ∧ exec .powerOff s = .next s
end

