-- ==== Sys2Proof/Laws/Issue.lean ====
section
/-! SUPPORT. What the frame of an instruction does, said once: issueG, issue, live, the compute instructions. -/
namespace Sys2Proof.Machine
open Sys2Proof

theorem up_not_off {h : Hub} (u : h.up = true) : h.power ≠ .off ∧ h.power ≠ .bootStopped ∧ h.power ≠ .hold := by
  unfold Hub.up at u
  cases e : h.power <;> simp_all

theorem goes_parts {s : State} {i : Instr} (h : goes s i = true) :
    s.hub.up = true ∧ s.here.ctx.status = .issuing ∧ decodeFault s.here.ctx i = none ∧ condHolds s.here.ctx.stat (condOf i) = true ∧
      (noDeadline i = true ∨ s.here.ctx.dleft ≠ 0) := by
  simp only [goes, Bool.and_eq_true, Bool.or_eq_true, beq_iff_eq, bne_iff_ne] at h
  obtain ⟨⟨⟨⟨a, b⟩, c⟩, d⟩, e⟩ := h
  exact ⟨a, b, c, d, e⟩

/-- A step that has written nothing without room is made (R411, R415). -/
theorem wholeStep_made {s t : State} (h : t.hub.noRoom = s.hub.noRoom) : wholeStep s t = t := by simp [wholeStep, h]

/-- The same for an instruction. -/
theorem wholeIssue_made {s t : State} (h : t.hub.noRoom = s.hub.noRoom) : wholeIssue s t = t := by simp [wholeIssue, h]

section frame
variable {fin : State → (State → State) → State → State} {s : State} {i : Instr} {body : State → Loc → Res (Loc × (State → State))}

/-- An instruction whose effect succeeds retires, and what it asks for beyond the view follows. -/
theorem issueWith_next {l1 : Loc} {post : State → State} (h : goes s i = true) (hb : body s s.here = .ok (l1, post)) :
    issueWith fin i body s = .next (fin s post (s.retired l1)) := by
  obtain ⟨hu, hs, hd, hc, hl⟩ := goes_parts h
  obtain ⟨h1, h2, h3⟩ := up_not_off hu
  simp only [State.here] at hs hd hc hl hb
  rcases hl with hl | hl <;> simp [issueWith, h1, h2, h3, Ctx.runnable, hs, hd, hc, hb, settle, hl, State.retired]

/-- An instruction whose effect faults takes the fault. -/
theorem issueWith_fault {l1 : Loc} {f : FaultInfo} (h : goes s i = true) (hb : body s s.here = .error (.fault l1 f)) :
    issueWith fin i body s = .next (s.putLoc (raise l1 f)) := by
  obtain ⟨hu, hs, hd, hc, hl⟩ := goes_parts h
  obtain ⟨h1, h2, h3⟩ := up_not_off hu
  simp only [State.here] at hs hd hc hl hb
  simp [issueWith, h1, h2, h3, Ctx.runnable, hs, hd, hc, hb, settle]

/-- An instruction whose effect parks the context. -/
theorem issueWith_park {l1 : Loc} {p : Park} (h : goes s i = true) (hb : body s s.here = .error (.park l1 p)) :
    issueWith fin i body s = .next (s.putLoc (l1.parkAs p)) := by
  obtain ⟨hu, hs, hd, hc, hl⟩ := goes_parts h
  obtain ⟨h1, h2, h3⟩ := up_not_off hu
  simp only [State.here] at hs hd hc hl hb
  rcases hl with hl | hl <;> simp [issueWith, h1, h2, h3, Ctx.runnable, hs, hd, hc, hb, settle, hl]

/-- A decode fault takes the instruction's place (R134). -/
theorem issueWith_decodeFault {code : BitVec 8} (hu : s.hub.up = true) (hs : s.here.ctx.status = .issuing)
    (hd : decodeFault s.here.ctx i = some code) : issueWith fin i body s = .next (s.putLoc (raise s.here (faultOf code))) := by
  obtain ⟨h1, h2, h3⟩ := up_not_off hu
  simp only [State.here] at hs hd
  simp [issueWith, h1, h2, h3, Ctx.runnable, hs, hd]

/-- An instruction whose predicate is false (R114). -/
theorem issueWith_skip (hu : s.hub.up = true) (hs : s.here.ctx.status = .issuing) (hd : decodeFault s.here.ctx i = none)
    (hc : condHolds s.here.ctx.stat (condOf i) = false) (hl : s.here.ctx.dleft ≠ 0) : issueWith fin i body s = .next (s.putLoc (skip s.here i)) := by
  obtain ⟨h1, h2, h3⟩ := up_not_off hu
  simp only [State.here] at hs hd hc hl
  simp [issueWith, h1, h2, h3, Ctx.runnable, hs, hd, hc, hl]

/-- What an instruction that acts beyond the view does, when each write of the hub in it finds room (R411, R415). -/
theorem issueG_next {l1 : Loc} {post : State → State} (h : goes s i = true) (hb : body s s.here = .ok (l1, post))
    (hr : (post (s.retired l1)).hub.noRoom = s.hub.noRoom) : issueG i body s = .next (post (s.retired l1)) := by
  rw [issueG, issueWith_next h hb, wholeIssue_made hr]

end frame

/-- An instruction whose effect stays in the view. -/
theorem issue_next {s : State} {i : Instr} {body : Loc → Res Loc} {l1 : Loc} (h : goes s i = true) (hb : body s.here = .ok l1) :
    issue i body s = .next (s.retired l1) := issueWith_next (l1 := l1) (post := id) h (by simp [hb, bind, Except.bind])

theorem issue_park {s : State} {i : Instr} {body : Loc → Res Loc} {l1 : Loc} {p : Park} (h : goes s i = true)
    (hb : body s.here = .error (.park l1 p)) : issue i body s = .next (s.putLoc (l1.parkAs p)) :=
  issueWith_park h (by simp [hb, bind, Except.bind])

theorem issue_fault {s : State} {i : Instr} {body : Loc → Res Loc} {l1 : Loc} {f : FaultInfo} (h : goes s i = true)
    (hb : body s.here = .error (.fault l1 f)) : issue i body s = .next (s.putLoc (raise l1 f)) :=
  issueWith_fault h (by simp [hb, bind, Except.bind])

/-- An event of a device whose units run, when each write of the hub in it finds room (R411, R415). -/
theorem live_up {s t : State} (h : s.hub.up = true) (hr : t.hub.noRoom = s.hub.noRoom) : live s t = .next t := by
  simp [live, h, wholeStep_made hr]

/-- An event of a device whose units do not run. -/
theorem live_off {s t : State} (h : s.hub.up = false) : live s t = .next s := by simp [live, h]

/-- The body of a compute instruction with readable operands. -/
theorem pureOp_ok {i : Instr} {v : View} {f : Env → Args → Out} {l : Loc} {g : Args}
    (hg : fetchArgs l v (envOf l.ctx i).rm (shape i) = .ok g) :
    pureOp i v f l = .ok (l.result i g (f (envOf l.ctx i) g)) := by
  simp [pureOp, compute, hg, bind, Except.bind, Loc.result]

/-- A compute instruction as an issue of the current context. -/
theorem pureOp_next {s : State} {i : Instr} {v : View} {f : Env → Args → Out} {g : Args} (h : goes s i = true)
    (hg : readsFor s v i g) : issue i (pureOp i v f) s = .next (s.retired (s.here.result i g (f (envOf s.here.ctx i) g))) :=
  issue_next h (pureOp_ok hg)

end Sys2Proof.Machine
end

