-- ==== Sys2Proof/Laws/Arith.lean ====
section
/-! SUPPORT. The integer arithmetic of the statements (Safety) against that of the meanings (Store, Flags): one lemma per function. -/
namespace Sys2Proof.Machine
open Sys2Proof

theorem sextI_eq (n x : Nat) (h : 0 < n) : sextI x n = signed n x := by
  have h0 : n ≠ 0 := by omega
  unfold sextI signed; simp only [h0, if_false]
theorem satS_eq (n : Nat) (x : Int) : satS x n = heldS n x := by
  unfold satS heldS
  have : 0 < 2^(n-1) := Nat.two_pow_pos _
  split <;> [skip; split] <;> omega
theorem lowBits_eq (n : Nat) (x : Int) : lowBits x n = wrapped n x := rfl
theorem sOut_eq (n : Nat) (x : Int) : sOut x n = decide (heldS n x ≠ x) := by
  unfold sOut heldS
  have : 0 < 2^(n-1) := Nat.two_pow_pos _
  rw [Bool.eq_iff_iff]; simp only [Bool.or_eq_true, decide_eq_true_eq]; omega
theorem wrapped_lt (n : Nat) (x : Int) : wrapped n x < 2^n := by
  unfold wrapped
  have : (0:Int) < (2^n : Nat) := by exact_mod_cast Nat.two_pow_pos n
  have := Int.emod_lt_of_pos x this
  have := Int.emod_nonneg x (by omega : ((2^n:Nat):Int) ≠ 0)
  omega
theorem nz_eq (n r : Nat) (h : 0 < n) (hr : r < 2^n) (c v) : {nz r n with c := c, v := v} = flagsOf n r c v := by
  unfold nz flagsOf noFlags bit
  simp only [FlagUp.mk.injEq, Option.some.injEq, and_true]
  have e : 2^n = 2 * 2^(n-1) := by rw [← Nat.pow_succ']; congr 1; omega
  refine ⟨?_, ?_⟩
  · rw [Bool.eq_iff_iff]; simp only [beq_iff_eq, decide_eq_true_eq]
    have hp : 0 < 2^(n-1) := Nat.two_pow_pos _
    have h2 : r / 2^(n-1) < 2 := Nat.div_lt_of_lt_mul (by omega)
    have h1 : 1 ≤ r / 2^(n-1) ↔ 1 * 2^(n-1) ≤ r := Nat.le_div_iff_mul_le hp
    rw [Nat.one_mul] at h1
    rw [← h1]
    generalize r / 2^(n-1) = q at h2 ⊢
    omega
  · rw [Nat.mod_eq_of_lt hr]; rfl
theorem lw_pos (v : View) : 0 < View.lw v := by cases v <;> decide

theorem computes_of {i v f f'} (ex : ∀ s, exec i s = issue i (pureOp i v f) s) (h : ∀ e g, f e g = f' e g) : Computes i v f' := by
  intro s g hg hr
  rw [ex, pureOp_next hg hr, h]

theorem wrapped_congr (n : Nat) (x y : Int) (h : x % (2^n:Nat) = y % (2^n:Nat)) : wrapped n x = wrapped n y := by unfold wrapped; rw [h]
theorem signed_mod (n x : Nat) : signed n x % (2^n:Nat) = ((x % 2^n : Nat) : Int) := by
  unfold signed; split
  · rw [Int.emod_eq_of_lt (by omega)]; exact_mod_cast Nat.mod_lt _ (Nat.two_pow_pos n)
  · rw [Int.sub_emod, Int.emod_self]; simp

end Sys2Proof.Machine
end

