-- ==== Sys2Proof/Laws/Hss.lean ====
section
/-! SUPPORT. The signatures of R460: what a key has signed verifies under its public key. -/
namespace Sys2Proof.Machine
open Sys2Proof

/-- n + m steps of a chain are n steps and then m. -/
theorem chainFrom_add (f : Nat → BitVec 256 → BitVec 256) (a n m : Nat) (x : BitVec 256) :
    chainFrom f a (n + m) x = chainFrom f (a + n) m (chainFrom f a n x) := by
  induction n generalizing a x with
  | zero => simp [chainFrom]
  | succ n ih => rw [Nat.succ_add, chainFrom, ih, chainFrom, Nat.add_right_comm, Nat.add_assoc]

theorem otsDigit_le (d : BitVec 256) (i : Nat) : otsDigit d i ≤ 15 := by unfold otsDigit; omega

/-- A digit's steps and the rest of the chain are the whole chain. -/
theorem otsChain_whole (k : LmsKey) (q : Nat) (d : BitVec 256) (i : Nat) (x : BitVec 256) :
    otsChain k.id q i (otsDigit d i) (15 - otsDigit d i) (otsChain k.id q i 0 (otsDigit d i) x) = otsChain k.id q i 0 15 x := by
  unfold otsChain
  generalize otsStep k.id q i = f
  have h := otsDigit_le d i
  generalize otsDigit d i = n at h
  have e := chainFrom_add f 0 n (15 - n) x
  rw [Nat.zero_add, Nat.add_sub_cancel' h] at e
  exact e.symm

theorem otsSign_getD (k : LmsKey) (q : Nat) (d : BitVec 256) {i : Nat} (hi : i < 67) :
    (otsSign k q d).getD i 0 = otsChain k.id q i 0 (otsDigit d i) (otsSecret k q i) := by
  have h (f : Nat → BitVec 256) : ((upto 67).map f).getD i 0 = f i := by simp [upto, hi]
  exact h (fun i => otsChain k.id q i 0 (otsDigit d i) (otsSecret k q i))

/-- The chain values of a signature lead to the one-time public key. -/
theorem otsCandidate_sign (k : LmsKey) (q : Nat) (d : BitVec 256) : otsCandidate k.id q d (otsSign k q d) = otsKey k q := by
  unfold otsCandidate otsKey
  refine congrArg (otsKeyOf k.id q) (List.map_congr_left fun i hi => ?_)
  rw [otsSign_getD k q d (by simpa [upto] using hi), otsChain_whole]

/-- A path leads from a node to its ancestor. -/
theorem treeClimb_path (leaf : Nat → BitVec 256) (join : Nat → BitVec 256 → BitVec 256 → BitVec 256) (n h r : Nat) :
    treeClimb join (treePath (treeNode leaf join) n h r) r (treeNode leaf join h r) = treeNode leaf join (h + n) (r / 2 ^ n) := by
  induction n generalizing h r with
  | zero => simp [treePath, treeClimb]
  | succ n ih =>
    have hj : (if r % 2 = 0 then join (r / 2) (treeNode leaf join h r) (treeNode leaf join h (if r % 2 = 0 then r + 1 else r - 1))
        else join (r / 2) (treeNode leaf join h (if r % 2 = 0 then r + 1 else r - 1)) (treeNode leaf join h r)) =
          treeNode leaf join (h + 1) (r / 2) := by
      rw [treeNode]
      by_cases hr : r % 2 = 0
      · rw [if_pos hr, if_pos hr, show 2 * (r / 2) = r by omega]
      · rw [if_neg hr, if_neg hr, show 2 * (r / 2) = r - 1 by omega, show r - 1 + 1 = r by omega]
    rw [treePath, treeClimb, hj, ih, Nat.div_div_eq_div_mul, ← Nat.pow_succ', Nat.add_right_comm, Nat.add_assoc]

theorem treePath_length (node : Nat → Nat → BitVec 256) (n h r : Nat) : (treePath node n h r).length = n := by
  induction n generalizing h r with
  | zero => rfl
  | succ n ih => simp [treePath, ih]

/-- The leaf of a one-time key is the lowest node of its tree. -/
theorem lmsNode_leaf (k : LmsKey) (q : Nat) : lmsNode k 0 (2 ^ 15 + q) = lmsLeaf k.id q (otsKey k q) := by
  unfold lmsNode
  rw [treeNode, Nat.add_sub_cancel_left]

/-- A tree's signature verifies under its public key. -/
theorem lmsVerify_sign (k : LmsKey) (q : Nat) (rand : BitVec 256) (msg : List Byte) (hq : q < 2 ^ 15) :
    lmsVerify (lmsPub k) msg (lmsSign k q rand msg) = true := by
  have hr : (2 ^ 15 + q) / 2 ^ 15 = 1 := by omega
  have hc : (otsSign k q (otsDigest k.id q rand msg)).length = 67 := by unfold otsSign; rw [List.length_map]; rfl
  have hp : (treePath (lmsNode k) 15 0 (2 ^ 15 + q)).length = 15 := treePath_length _ _ _ _
  have ht : treeClimb (lmsJoin k.id) (treePath (lmsNode k) 15 0 (2 ^ 15 + q)) (2 ^ 15 + q) (lmsNode k 0 (2 ^ 15 + q)) = lmsNode k 15 1 := by
    rw [← hr]
    exact treeClimb_path _ _ 15 0 (2 ^ 15 + q)
  unfold lmsVerify lmsPub lmsSign
  dsimp only
  rw [otsCandidate_sign, ← lmsNode_leaf, ht, hc, hp, decide_eq_true hq, beq_self_eq_true, beq_self_eq_true, beq_self_eq_true]
  rfl

/-- A signature of a two-level key pair verifies under its public key. -/
theorem hssVerify_sign (k : LmsKey) (n : Nat) (msg : List Byte) (hn : n < hssKeys) : hssVerify (lmsPub k) msg (hssSign k n msg) = true := by
  have h1 : n / 2 ^ 15 < 2 ^ 15 := by unfold hssKeys at hn; omega
  unfold hssVerify hssSign
  dsimp only
  rw [lmsVerify_sign _ _ _ _ h1, lmsVerify_sign _ _ _ _ (Nat.mod_lt n (by omega : 2 ^ 15 > 0))]
  rfl

end Sys2Proof.Machine
end

