-- ==== Sys2Proof/Laws/Store.lean ====
section
/-! SUPPORT. Sparse stores: a read after a write, and the canonical form that every write of a store or of memory keeps. -/
namespace Sys2Proof.Machine

variable {α : Type}

@[simp] theorem mget_nil (d : α) (a : Nat) : mget d [] a = d := rfl

theorem mget_mdel_same (d : α) (m : Map α) (a : Nat) : mget d (mdel m a) a = d := by
  induction m with
  | nil => rfl
  | cons e t ih => obtain ⟨k, v⟩ := e; by_cases h : k = a <;> simp [mdel, mget, h, ih]

theorem mget_mdel_ne (d : α) (m : Map α) {a b : Nat} (h : b ≠ a) : mget d (mdel m a) b = mget d m b := by
  induction m with
  | nil => rfl
  | cons e t ih =>
      obtain ⟨k, v⟩ := e
      by_cases hk : k = a
      · simp [mdel, mget, hk, ih, Ne.symm h]
      · simp [mdel, mget, hk, ih]

theorem mhas_mdel_same (m : Map α) (a : Nat) : mhas (mdel m a) a = false := by
  induction m with
  | nil => rfl
  | cons e t ih => obtain ⟨k, v⟩ := e; by_cases h : k = a <;> simp [mdel, mhas, h, ih]

theorem mget_minsert_same (d : α) (m : Map α) (a : Nat) (x : α) (h : mhas m a = false) : mget d (minsert m a x) a = x := by
  induction m with
  | nil => simp [minsert, mget]
  | cons e t ih =>
      obtain ⟨k, v⟩ := e
      simp only [mhas, Bool.or_eq_false_iff, beq_eq_false_iff_ne, ne_eq] at h
      by_cases hk : a < k <;> simp [minsert, mget, hk, h.1, ih h.2]

theorem mget_minsert_ne (d : α) (m : Map α) {a b : Nat} (x : α) (h : b ≠ a) : mget d (minsert m a x) b = mget d m b := by
  induction m with
  | nil => simp [minsert, mget, Ne.symm h]
  | cons e t ih =>
      obtain ⟨k, v⟩ := e
      by_cases hk : a < k <;> simp [minsert, mget, hk, Ne.symm h, ih]

/-- A read after a write (no canonical form needed). -/
theorem mget_mset [DecidableEq α] (d : α) (m : Map α) (a b : Nat) (x : α) :
    mget d (mset d m a x) b = if b = a then x else mget d m b := by
  by_cases h : b = a
  · subst h
    by_cases hx : x = d
    · simp [mset, hx, mget_mdel_same]
    · simp [mset, hx, mget_minsert_same d _ b x (mhas_mdel_same m b)]
  · by_cases hx : x = d <;> simp [mset, hx, h, mget_mdel_ne, mget_minsert_ne]

@[simp] theorem mget_mset_same [DecidableEq α] (d : α) (m : Map α) (a : Nat) (x : α) : mget d (mset d m a x) a = x := by
  simp [mget_mset]

theorem mget_mset_ne [DecidableEq α] (d : α) (m : Map α) {a b : Nat} (x : α) (h : b ≠ a) : mget d (mset d m a x) b = mget d m b := by
  simp [mget_mset, h]

/-! ## The canonical form -/

theorem fwf_weaken [DecidableEq α] {d : Nat → α} {lo : Option Nat} {m : Map α} (h : fwfFrom d lo m = true) : fwfFrom d none m = true := by
  cases m with
  | nil => rfl
  | cons e t => obtain ⟨k, v⟩ := e; simp only [fwfFrom, Bool.and_eq_true] at h ⊢; exact ⟨⟨trivial, h.1.2⟩, h.2⟩

theorem fwf_lower [DecidableEq α] {d : Nat → α} {k : Nat} {lo : Option Nat} {m : Map α} (h : fwfFrom d (some k) m = true)
    (hl : ∀ l, lo = some l → l < k) : fwfFrom d lo m = true := by
  cases m with
  | nil => rfl
  | cons e t =>
      obtain ⟨q, v⟩ := e
      simp only [fwfFrom, Bool.and_eq_true, decide_eq_true_eq] at h ⊢
      refine ⟨⟨?_, h.1.2⟩, h.2⟩
      cases lo with
      | none => rfl
      | some l => have := hl l rfl; simp only [decide_eq_true_eq]; omega

theorem fwf_mdel [DecidableEq α] {d : Nat → α} {m : Map α} (a : Nat) {lo : Option Nat} (h : fwfFrom d lo m = true) :
    fwfFrom d lo (mdel m a) = true := by
  induction m generalizing lo with
  | nil => rfl
  | cons e t ih =>
      obtain ⟨k, v⟩ := e
      simp only [fwfFrom, Bool.and_eq_true] at h
      by_cases hk : k = a
      · rw [show mdel ((k, v) :: t) a = mdel t a by simp [mdel, hk]]
        exact ih (fwf_lower h.2 (by intro l hl; subst hl; simpa using h.1.1))
      · rw [show mdel ((k, v) :: t) a = (k, v) :: mdel t a by simp [mdel, hk]]
        simp only [fwfFrom, Bool.and_eq_true]
        exact ⟨h.1, ih h.2⟩

theorem fwf_minsert [DecidableEq α] {d : Nat → α} {m : Map α} {a : Nat} {x : α} {lo : Option Nat} (h : fwfFrom d lo m = true)
    (ha : mhas m a = false) (hx : x ≠ d a) (hl : ∀ l, lo = some l → l < a) : fwfFrom d lo (minsert m a x) = true := by
  induction m generalizing lo with
  | nil => cases lo <;> simp_all [minsert, fwfFrom]
  | cons e t ih =>
      obtain ⟨k, v⟩ := e
      simp only [mhas, Bool.or_eq_false_iff, beq_eq_false_iff_ne, ne_eq] at ha
      by_cases hk : a < k
      · rw [show minsert ((k, v) :: t) a x = (a, x) :: (k, v) :: t by simp [minsert, hk]]
        simp only [fwfFrom, Bool.and_eq_true, decide_eq_true_eq] at h ⊢
        refine ⟨⟨?_, hx⟩, ⟨hk, h.1.2⟩, h.2⟩
        cases lo with
        | none => rfl
        | some l => simpa using hl l rfl
      · rw [show minsert ((k, v) :: t) a x = (k, v) :: minsert t a x by simp [minsert, hk]]
        simp only [fwfFrom, Bool.and_eq_true] at h ⊢
        exact ⟨h.1, ih h.2 ha.2 (by intro l hl2; cases hl2; omega)⟩

/-- A write of one key keeps the canonical form. -/
theorem fwf_mset [DecidableEq α] {d : Nat → α} {m : Map α} (a : Nat) (x : α) (h : fwfFrom d none m = true) :
    fwfFrom d none (mset (d a) m a x) = true := by
  unfold mset
  split
  · exact fwf_mdel a h
  · exact fwf_minsert (fwf_mdel a h) (mhas_mdel_same m a) (by assumption) (by simp)

/-- Every write to memory keeps its canonical form. -/
theorem ramPut_wf {m : List Host.Cell} (a : Nat) (bs : List Byte) (h : Memory.wf m) : Memory.wf (ramPut m a bs) := by
  induction bs generalizing m a with
  | nil => exact h
  | cons b t ih => exact ih (a + 1) (fwf_mset a b h)

/-- What a byte of memory reads as after a write. -/
theorem ramByte_ramPut (m : List Host.Cell) (a x : Nat) (bs : List Byte) :
    ramByte (ramPut m a bs) x = if a ≤ x ∧ x < a + bs.length then bs.getD (x - a) 0 else ramByte m x := by
  induction bs generalizing m a with
  | nil => simp [ramPut]
  | cons b t ih =>
      rw [ramPut, ih]
      by_cases hx : x = a
      · subst hx
        simp [ramByte]
      · have e : ramByte (mset (memDefault a) m a b) x = ramByte m x := by
          unfold ramByte mset
          split
          · exact mget_mdel_ne _ _ hx
          · rw [mget_minsert_ne _ _ _ hx, mget_mdel_ne _ _ hx]
        rw [e]
        by_cases h1 : a + 1 ≤ x ∧ x < a + 1 + t.length
        · rw [if_pos h1, if_pos (by simp only [List.length_cons]; omega)]
          rw [show x - a = (x - (a + 1)) + 1 by omega, List.getD_cons_succ]
        · rw [if_neg h1, if_neg (by simp only [List.length_cons]; omega)]

/-- What a byte of a buffer reads as after a write. -/
theorem mget_putBytes (m : Map Byte) (a x : Nat) (bs : List Byte) :
    mget 0 (putBytes m a bs) x = if a ≤ x ∧ x < a + bs.length then bs.getD (x - a) 0 else mget 0 m x := by
  induction bs generalizing m a with
  | nil => simp [putBytes]
  | cons b t ih =>
      rw [putBytes, ih, mget_mset]
      by_cases hx : x = a
      · subst hx; simp
      · by_cases h1 : a + 1 ≤ x ∧ x < a + 1 + t.length
        · rw [if_pos h1, if_pos (by simp only [List.length_cons]; omega)]
          rw [show x - a = (x - (a + 1)) + 1 by omega, List.getD_cons_succ]
        · rw [if_neg h1, if_neg hx, if_neg (by simp only [List.length_cons]; omega)]

/-- Sorting keeps what a list holds. -/
theorem mem_insertBy {α : Type} (le : α → α → Bool) (x a : α) (l : List α) : a ∈ insertBy le x l ↔ a = x ∨ a ∈ l := by
  induction l with
  | nil => simp [insertBy]
  | cons y ys ih => rw [insertBy]; split <;> simp [ih, or_left_comm]

/-- Sorting keeps what a list holds. -/
theorem mem_sortBy {α : Type} (le : α → α → Bool) (a : α) (l : List α) : a ∈ sortBy le l ↔ a ∈ l := by
  induction l with
  | nil => simp [sortBy]
  | cons x xs ih => rw [sortBy, mem_insertBy, ih, List.mem_cons]

end Sys2Proof.Machine
end

