-- ==== Sys2Proof/Laws/Memory.lean ====
section
/-! SUPPORT. The operations on memory keep its canonical form; what each leaves of memory. -/
namespace Sys2Proof.Machine
open Sys2Proof

@[simp] theorem wakeLine_mem (s : State) (line : Nat) (b : Bool) : (wakeLine s line b).mem = s.mem := rfl
@[simp] theorem granWrite_mem (s : State) (a : Nat) (w b : Bool) : (granWrite s a w b).mem = s.mem := rfl
@[simp] theorem dropSig_mem (s : State) (line : Nat) : (dropSig s line).mem = s.mem := rfl
@[simp] theorem releaseAt_mem (s : State) (line : Nat) (sig : BitVec 256) (a h : Bool) : (releaseAt s line sig a h).mem = s.mem := rfl
@[simp] theorem setLine_keeps_mem (s : State) (line : Nat) (i : LineInfo) : (setLine s line i).mem = s.mem := rfl

@[simp] theorem emit_mem (s : State) (e : OutEvent) : (emit s e).mem = s.mem := rfl

@[simp] theorem demand_mem (s : State) (line : Nat) (r : Bool) : (demand s line r).mem = s.mem := by
  simp only [demand]; split <;> rfl

@[simp] theorem evictLine_mem (s : State) (line : Nat) : (evictLine s line).mem = s.mem := by
  simp only [evictLine]
  split
  · rfl
  · split <;> split <;> rfl

@[simp] theorem makeRoom_mem (s : State) (line : Nat) : (makeRoom s line).mem = s.mem := by
  simp only [makeRoom]
  split
  · rfl
  · split
    · exact evictLine_mem s _
    · rfl

@[simp] theorem pinGran_mem (s : State) (g : Nat) : (pinGran s g).mem = s.mem := by
  simp only [pinGran]; split <;> rfl

@[simp] theorem acquireAt_mem (s : State) (line : Nat) : (acquireAt s line).1.mem = s.mem := by
  simp only [acquireAt]; split <;> rfl

@[simp] theorem noteWrite_mem (s : State) (w : HWrite) : (noteWrite s w).mem = s.mem := by
  simp only [noteWrite, wakeLine_mem]
  split <;> (try split) <;> (try split) <;> simp

@[simp] theorem afterWrite_mem (s : State) (w : HWrite) : (afterWrite s w).mem = s.mem := by
  simp only [afterWrite, noteWrite_mem]
  split
  · rfl
  · split <;> rfl

@[simp] theorem enterHold_mem (s : State) (w : HWrite) : (enterHold s w).mem = s.mem := by simp [enterHold]

theorem takeHostData_wf {s : State} (line : Nat) (h : Memory.wf s.mem) : Memory.wf (takeHostData s line).mem := by
  simp only [takeHostData]
  split
  · exact ramPut_wf _ _ h
  · exact h

theorem unlistLine_wf {s : State} (line : Nat) (h : Memory.wf s.mem) : Memory.wf (unlistLine s line).mem := by
  simp only [unlistLine]
  split
  · exact h
  · exact takeHostData_wf line h

/-- An entry that leaves its windbreak buffer keeps the form. -/
theorem spillEntry_wf {s : State} (ch : Nat) (h : Memory.wf s.mem) : Memory.wf (spillEntry s ch).mem := by
  simp only [spillEntry]
  split
  · exact h
  · split
    · exact ramPut_wf _ _ h
    · exact h

theorem logEntry_wf {s : State} (pa : Nat) (e : BitVec 32) (h : Memory.wf s.mem) : Memory.wf (logEntry s pa e).mem := by
  simp only [logEntry]
  split
  · exact spillEntry_wf _ h
  · exact h

theorem logGranule_wf {s : State} (pa : Nat) (e : BitVec 32) (h : Memory.wf s.mem) : Memory.wf (logGranule s pa e).mem := by
  simp only [logGranule]
  split
  · exact h
  · exact logEntry_wf pa e h

theorem readLine_wf {s : State} (line : Nat) (h : Memory.wf s.mem) : Memory.wf (readLine s line).mem := by
  have hm : Memory.wf (makeRoom s line).mem := by simpa using h
  simp only [readLine]
  split
  · split
    · exact hm
    · split
      · exact takeHostData_wf line hm
      · exact hm
  · exact h

theorem homeRead_wf {s : State} (a n : Nat) (h : Memory.wf s.mem) : Memory.wf (homeRead s a n).1.mem := by
  simp only [homeRead]
  split
  · exact h
  · split
    · exact h
    · exact readLine_wf _ (by simpa using h)

theorem ownLine_wf {s : State} (line : Nat) (h : Memory.wf s.mem) : Memory.wf (ownLine s line).mem := by
  have hm : Memory.wf (makeRoom s line).mem := by simpa using h
  simp only [ownLine]
  refine takeHostData_wf _ ?_
  split
  · exact hm
  · split <;> exact hm

theorem mergeWrite_wf {s : State} (a : Nat) (bs : List Byte) (h : Memory.wf s.mem) : Memory.wf (mergeWrite s a bs).mem :=
  ramPut_wf _ _ (ownLine_wf _ h)

theorem homeAtomic_wf {s : State} (a n : Nat) (h : Memory.wf s.mem) : Memory.wf (homeAtomic s a n).1.mem := by
  simp only [homeAtomic]
  split
  · exact homeRead_wf a n h
  · exact ownLine_wf _ (by simpa using h)

theorem directWrite_wf {s : State} (a : Nat) (bs : List Byte) (h : Memory.wf s.mem) : Memory.wf (directWrite s a bs).mem :=
  mergeWrite_wf a bs h

@[simp] theorem writeErrinj_mem (s : State) (v : Word) (go : Bool) : (writeErrinj s v go).mem = s.mem := by
  simp only [writeErrinj]; split <;> rfl

@[simp] theorem writeDatcfg_mem (s : State) (d : Nat) (v : Word) : (writeDatcfg s d v).mem = s.mem := by
  simp only [writeDatcfg]; split <;> rfl

@[simp] theorem writeCwcfg_mem (s : State) (v : Word) : (writeCwcfg s v).mem = s.mem := by
  simp only [writeCwcfg]
  generalize anyEn s = b
  cases b <;> rfl

theorem regApply_mem (s : State) (off : Nat) (v wo : Word) : (regApply s off v wo).mem = s.mem := by
  simp only [regApply]
  repeat' split
  all_goals simp only [writeErrinj_mem, writeDatcfg_mem, writeCwcfg_mem]

@[simp] theorem regStore_mem (s : State) (b : Bool) (off n : Nat) (v : Word) : (regStore s b off n v).mem = s.mem := by
  simp only [regStore]
  split
  · rfl
  · split
    · rfl
    · exact regApply_mem _ _ _ _

/-- A write that has room keeps the canonical form, whether it is performed or held. -/
theorem writeThrough_wf {s : State} (w : HWrite) (h : Memory.wf s.mem) : Memory.wf (writeThrough s w).mem := by
  simp only [writeThrough]
  repeat' split
  · simpa using h
  · simpa using directWrite_wf _ _ (logGranule_wf _ _ h)
  · simpa using h
  · exact h
  · simpa using directWrite_wf _ _ h

/-- A write at a home keeps the canonical form, also when it has to wait. -/
theorem homeWrite_wf {s : State} (w : HWrite) (h : Memory.wf s.mem) : Memory.wf (homeWrite s w).1.mem := by
  simp only [homeWrite]
  split
  · exact h
  · exact writeThrough_wf w h

theorem hubPut_wf {s : State} (w : HWrite) (h : Memory.wf s.mem) : Memory.wf (hubPut s w).mem := by
  simp only [hubPut]
  split
  · exact h
  · exact writeThrough_wf w h

theorem foldl_wf {β : Type} {f : State → β → State} (hf : ∀ s b, Memory.wf s.mem → Memory.wf (f s b).mem) (bs : List β) {s : State}
    (h : Memory.wf s.mem) : Memory.wf (bs.foldl f s).mem := by
  induction bs generalizing s with
  | nil => exact h
  | cons b t ih => exact ih (hf s b h)

theorem releaseItem_wf {s : State} (i : HeldItem) (h : Memory.wf s.mem) : Memory.wf (releaseItem s i).mem := by
  simp only [releaseItem]
  split
  · split
    · refine foldl_wf ?_ _ h
      intro s b h
      exact h
    · have hm := fun bs => foldl_wf (f := fun s (r : Nat × List Byte) => mergeWrite s r.1 r.2) (fun s b h => mergeWrite_wf _ _ h) bs h
      split
      · simpa using hm _
      · exact hm _
  · exact h
  · split
    · exact foldl_wf (fun _ _ h => mergeWrite_wf _ _ h) _ h
    · exact foldl_wf (fun _ _ h => mergeWrite_wf _ _ h) _ h
  · exact h
  · exact h

theorem outsideWrite_wf {s : State} (a : Nat) (bs : List Byte) (h : Memory.wf s.mem) : Memory.wf (outsideWrite s a bs).mem := by
  simp only [outsideWrite, wakeLine_mem, dropSig_mem, granWrite_mem]
  exact ramPut_wf _ _ (by simpa using takeHostData_wf _ (by simpa using h))

/-- Reset memory has the canonical form. -/
theorem reset_wf : Memory.wf State.reset.mem := rfl

end Sys2Proof.Machine
end

