-- ==== Sys2Proof/Laws/PerInstr.lean ====
section
/-! SUPPORT. Per instruction: the opcode byte of its word is the one of its row (R135); an event has the zero word. -/
namespace Sys2Proof.Laws.Word
open Sys2Proof

theorem opc_append {n : Nat} (o : BitVec 8) (r : BitVec n) : (o ++ r).extractLsb' n 8 = o := by
  apply BitVec.eq_of_getLsbD_eq
  intro i hi
  simp [BitVec.getLsbD_append, hi]

theorem opc_packM3 (o : BitVec 8) (vw : BitVec 4) (c : Cond) (d s1 s2 x : BitVec 20) : (packM3 o vw c d s1 s2 x).extractLsb' 88 8 = o := by
  apply BitVec.eq_of_getLsbD_eq
  intro i hi
  simp only [packM3, BitVec.getLsbD_extractLsb', BitVec.getLsbD_append, hi, decide_true, Bool.true_and]
  simp (disch := omega) only [if_neg]
  congr 1; omega

theorem opc_packMI (o : BitVec 8) (vw : BitVec 4) (c : Cond) (d : BitVec 20) (x : BitVec 12) (imm : BitVec 48) : (packMI o vw c d x imm).extractLsb' 88 8 = o := by
  apply BitVec.eq_of_getLsbD_eq
  intro i hi
  simp only [packMI, BitVec.getLsbD_extractLsb', BitVec.getLsbD_append, hi, decide_true, Bool.true_and]
  simp (disch := omega) only [if_neg]
  congr 1; omega

theorem opc_packBR (o : BitVec 8) (c : Cond) (off : BitVec 32) (lnk : BitVec 4) : (packBR o c off lnk).extractLsb' 88 8 = o := by
  apply BitVec.eq_of_getLsbD_eq
  intro i hi
  simp only [packBR, BitVec.getLsbD_extractLsb', BitVec.getLsbD_append, hi, decide_true, Bool.true_and]
  simp (disch := omega) only [if_neg]
  congr 1; omega

theorem opc_packLP (o : BitVec 8) (cnt : BitVec 20) (off : BitVec 32) : (packLP o cnt off).extractLsb' 88 8 = o := by
  apply BitVec.eq_of_getLsbD_eq
  intro i hi
  simp only [packLP, BitVec.getLsbD_extractLsb', BitVec.getLsbD_append, hi, decide_true, Bool.true_and]
  simp (disch := omega) only [if_neg]
  congr 1; omega

theorem opc_packEN (o : BitVec 8) (c : Cond) (pa pb q : BitVec 4) (s1 : BitVec 20) (x : BitVec 44) : (packEN o c pa pb q s1 x).extractLsb' 88 8 = o := by
  apply BitVec.eq_of_getLsbD_eq
  intro i hi
  simp only [packEN, BitVec.getLsbD_extractLsb', BitVec.getLsbD_append, hi, decide_true, Bool.true_and]
  simp (disch := omega) only [if_neg]
  congr 1; omega

theorem opc_packSY (o : BitVec 8) (c : Cond) (d s1 : BitVec 20) (r : BitVec 16) : (packSY o c d s1 r).extractLsb' 88 8 = o := by
  apply BitVec.eq_of_getLsbD_eq
  intro i hi
  simp only [packSY, BitVec.getLsbD_extractLsb', BitVec.getLsbD_append, hi, decide_true, Bool.true_and]
  simp (disch := omega) only [if_neg]
  congr 1; omega

/-- OPC of an instruction (R135); 0 for NOP and for an event. -/
def opcode : Instr → BitVec 8
  | .fmt .. => 0x01
  | .mov .. => 0x10
  | .movi .. => 0x11
  | .movhi .. => 0x12
  | .lea .. => 0x13
  | .add .. => 0x14
  | .sub .. => 0x15
  | .adc .. => 0x16
  | .sbc .. => 0x17
  | .mul .. => 0x18
  | .mulh .. => 0x19
  | .div .. => 0x1A
  | .rem .. => 0x1B
  | .and .. => 0x1C
  | .or .. => 0x1D
  | .xor .. => 0x1E
  | .andn .. => 0x1F
  | .shl .. => 0x20
  | .shr .. => 0x21
  | .sar .. => 0x22
  | .rol .. => 0x23
  | .clz .. => 0x24
  | .ctz .. => 0x25
  | .popc .. => 0x26
  | .cmp .. => 0x27
  | .tst .. => 0x28
  | .min .. => 0x29
  | .max .. => 0x2A
  | .sel .. => 0x2B
  | .ext .. => 0x2C
  | .ins .. => 0x2D
  | .spc .. => 0x2E
  | .vadd .. => 0x30
  | .vsub .. => 0x31
  | .vadds .. => 0x32
  | .vsubs .. => 0x33
  | .vmul .. => 0x34
  | .vmulh .. => 0x35
  | .vmac .. => 0x36
  | .vdot .. => 0x37
  | .vmin .. => 0x38
  | .vmax .. => 0x39
  | .vabs .. => 0x3A
  | .vneg .. => 0x3B
  | .vand .. => 0x3C
  | .vor .. => 0x3D
  | .vxor .. => 0x3E
  | .vshl .. => 0x3F
  | .vshr .. => 0x40
  | .vsar .. => 0x41
  | .vcmp .. => 0x42
  | .vsel .. => 0x43
  | .vshuf .. => 0x44
  | .vbcast .. => 0x45
  | .vred .. => 0x46
  | .vcvt .. => 0x47
  | .vnarr .. => 0x48
  | .vwide .. => 0x49
  | .vfadd .. => 0x4A
  | .vfsub .. => 0x4B
  | .vfmul .. => 0x4C
  | .vfma .. => 0x4D
  | .vfdiv .. => 0x4E
  | .vfsqrt .. => 0x4F
  | .vfmin .. => 0x50
  | .vfmax .. => 0x51
  | .vfcmp .. => 0x52
  | .vfrcp .. => 0x53
  | .vfrsq .. => 0x54
  | .vfexp2 .. => 0x55
  | .vflog2 .. => 0x56
  | .vfrnd .. => 0x57
  | .vfcls .. => 0x58
  | .pack .. => 0x60
  | .extr .. => 0x61
  | .pmul .. => 0x62
  | .gchk .. => 0x63
  | .bprd .. => 0x64
  | .bpwr .. => 0x65
  | .scale .. => 0x66
  | .bexp .. => 0x67
  | .br .. => 0x70
  | .call .. => 0x71
  | .jmp .. => 0x72
  | .jmpl .. => 0x73
  | .loop .. => 0x74
  | .rep .. => 0x75
  | .endF .. => 0x80
  | .yield .. => 0x81
  | .wait .. => 0x82
  | .send .. => 0x83
  | .sendn .. => 0x84
  | .recv .. => 0x85
  | .chst .. => 0x86
  | .bind .. => 0x87
  | .unbind .. => 0x88
  | .prio .. => 0x8C
  | .rfork .. => 0x89
  | .join .. => 0x8A
  | .trig .. => 0x8B
  | .chkerr .. => 0xC0
  | .seal .. => 0xC1
  | .drift .. => 0xC2
  | .trap .. => 0xC8
  | .rti .. => 0xC9
  | .mfs .. => 0xCA
  | .mts .. => 0xCB
  | .tlbi .. => 0xCC
  | .ctxsv .. => 0xCD
  | .ctxld .. => 0xCE
  | .idle .. => 0xCF
  | .sigh .. => 0xD0
  | .replay .. => 0xD1
  | .killf .. => 0xD2
  | .place .. => 0xD3
  | .ld .. => 0x90
  | .st .. => 0x91
  | .lda .. => 0x92
  | .stl .. => 0x93
  | .bmov .. => 0x94
  | .pref .. => 0x95
  | .aadd .. => 0x96
  | .aand .. => 0x97
  | .aor .. => 0x98
  | .axor .. => 0x99
  | .amin .. => 0x9A
  | .amax .. => 0x9B
  | .aswp .. => 0x9C
  | .acas .. => 0x9D
  | .waita .. => 0x9E
  | .fence .. => 0x9F
  | .rst .. => 0xA0
  | .l1inv .. => 0xA1
  | .copy .. => 0xB0
  | .copyt .. => 0xB1
  | .tcfg .. => 0xB2
  | .trel .. => 0xB3
  | .tldb .. => 0xB4
  | .tmul .. => 0xB5
  | .tpoly .. => 0xB6
  | .tdrn .. => 0xB7
  | .qfence .. => 0xB8
  | .dist .. => 0xB9
  | .undefinedOpcode opc => opc
  | _ => 0

/-- The opcode byte of an instruction's word is its row's. -/
def Statement (i : Instr) : Prop := (encode i).extractLsb' 88 8 = opcode i

/-- An instruction without a word of its own. -/
theorem zero {i : Instr} (h : encode i = 0) (k : opcode i = 0) : Statement i := by
  unfold Statement
  rw [h, k]
  rfl

theorem nop : Statement .nop := zero rfl rfl
theorem fmt : ∀ x0, Statement (.fmt x0) := fun _ => opc_packMI ..
theorem mov : ∀ x0 x1 x2 x3, Statement (.mov x0 x1 x2 x3) := fun _ _ _ _ => opc_packM3 ..
theorem movi : ∀ x0 x1 x2 x3, Statement (.movi x0 x1 x2 x3) := fun _ _ _ _ => opc_packMI ..
theorem movhi : ∀ x0 x1 x2, Statement (.movhi x0 x1 x2) := fun _ _ _ => opc_packMI ..
theorem lea : ∀ x0 x1 x2 x3, Statement (.lea x0 x1 x2 x3) := fun _ _ _ _ => opc_packM3 ..
theorem add : ∀ x0 x1 x2 x3 x4, Statement (.add x0 x1 x2 x3 x4) := fun _ _ _ _ _ => opc_packM3 ..
theorem sub : ∀ x0 x1 x2 x3 x4, Statement (.sub x0 x1 x2 x3 x4) := fun _ _ _ _ _ => opc_packM3 ..
theorem adc : ∀ x0 x1 x2 x3 x4, Statement (.adc x0 x1 x2 x3 x4) := fun _ _ _ _ _ => opc_packM3 ..
theorem sbc : ∀ x0 x1 x2 x3 x4, Statement (.sbc x0 x1 x2 x3 x4) := fun _ _ _ _ _ => opc_packM3 ..
theorem mul : ∀ x0 x1 x2 x3 x4, Statement (.mul x0 x1 x2 x3 x4) := fun _ _ _ _ _ => opc_packM3 ..
theorem mulh : ∀ x0 x1 x2 x3 x4 x5, Statement (.mulh x0 x1 x2 x3 x4 x5) := fun _ _ _ _ _ _ => opc_packM3 ..
theorem div : ∀ x0 x1 x2 x3 x4 x5, Statement (.div x0 x1 x2 x3 x4 x5) := fun _ _ _ _ _ _ => opc_packM3 ..
theorem rem : ∀ x0 x1 x2 x3 x4 x5, Statement (.rem x0 x1 x2 x3 x4 x5) := fun _ _ _ _ _ _ => opc_packM3 ..
theorem and : ∀ x0 x1 x2 x3 x4, Statement (.and x0 x1 x2 x3 x4) := fun _ _ _ _ _ => opc_packM3 ..
theorem or : ∀ x0 x1 x2 x3 x4, Statement (.or x0 x1 x2 x3 x4) := fun _ _ _ _ _ => opc_packM3 ..
theorem xor : ∀ x0 x1 x2 x3 x4, Statement (.xor x0 x1 x2 x3 x4) := fun _ _ _ _ _ => opc_packM3 ..
theorem andn : ∀ x0 x1 x2 x3 x4, Statement (.andn x0 x1 x2 x3 x4) := fun _ _ _ _ _ => opc_packM3 ..
theorem shl : ∀ x0 x1 x2 x3 x4, Statement (.shl x0 x1 x2 x3 x4) := fun _ _ _ _ _ => opc_packM3 ..
theorem shr : ∀ x0 x1 x2 x3 x4, Statement (.shr x0 x1 x2 x3 x4) := fun _ _ _ _ _ => opc_packM3 ..
theorem sar : ∀ x0 x1 x2 x3 x4, Statement (.sar x0 x1 x2 x3 x4) := fun _ _ _ _ _ => opc_packM3 ..
theorem rol : ∀ x0 x1 x2 x3 x4, Statement (.rol x0 x1 x2 x3 x4) := fun _ _ _ _ _ => opc_packM3 ..
theorem clz : ∀ x0 x1 x2 x3, Statement (.clz x0 x1 x2 x3) := fun _ _ _ _ => opc_packM3 ..
theorem ctz : ∀ x0 x1 x2 x3, Statement (.ctz x0 x1 x2 x3) := fun _ _ _ _ => opc_packM3 ..
theorem popc : ∀ x0 x1 x2 x3, Statement (.popc x0 x1 x2 x3) := fun _ _ _ _ => opc_packM3 ..
theorem cmp : ∀ x0 x1 x2 x3, Statement (.cmp x0 x1 x2 x3) := fun _ _ _ _ => opc_packM3 ..
theorem tst : ∀ x0 x1 x2 x3, Statement (.tst x0 x1 x2 x3) := fun _ _ _ _ => opc_packM3 ..
theorem min : ∀ x0 x1 x2 x3 x4 x5, Statement (.min x0 x1 x2 x3 x4 x5) := fun _ _ _ _ _ _ => opc_packM3 ..
theorem max : ∀ x0 x1 x2 x3 x4 x5, Statement (.max x0 x1 x2 x3 x4 x5) := fun _ _ _ _ _ _ => opc_packM3 ..
theorem sel : ∀ x0 x1 x2 x3 x4 x5, Statement (.sel x0 x1 x2 x3 x4 x5) := fun _ _ _ _ _ _ => opc_packM3 ..
theorem ext : ∀ x0 x1 x2 x3 x4 x5 x6, Statement (.ext x0 x1 x2 x3 x4 x5 x6) := fun _ _ _ _ _ _ _ => opc_packM3 ..
theorem ins : ∀ x0 x1 x2 x3 x4 x5, Statement (.ins x0 x1 x2 x3 x4 x5) := fun _ _ _ _ _ _ => opc_packM3 ..
theorem spc : ∀ x0 x1 x2 x3, Statement (.spc x0 x1 x2 x3) := fun _ _ _ _ => opc_packM3 ..
theorem vadd : ∀ x0 x1 x2 x3 x4, Statement (.vadd x0 x1 x2 x3 x4) := fun _ _ _ _ _ => opc_packM3 ..
theorem vsub : ∀ x0 x1 x2 x3 x4, Statement (.vsub x0 x1 x2 x3 x4) := fun _ _ _ _ _ => opc_packM3 ..
theorem vadds : ∀ x0 x1 x2 x3 x4 x5, Statement (.vadds x0 x1 x2 x3 x4 x5) := fun _ _ _ _ _ _ => opc_packM3 ..
theorem vsubs : ∀ x0 x1 x2 x3 x4 x5, Statement (.vsubs x0 x1 x2 x3 x4 x5) := fun _ _ _ _ _ _ => opc_packM3 ..
theorem vmul : ∀ x0 x1 x2 x3 x4, Statement (.vmul x0 x1 x2 x3 x4) := fun _ _ _ _ _ => opc_packM3 ..
theorem vmulh : ∀ x0 x1 x2 x3 x4 x5, Statement (.vmulh x0 x1 x2 x3 x4 x5) := fun _ _ _ _ _ _ => opc_packM3 ..
theorem vmac : ∀ x0 x1 x2 x3 x4, Statement (.vmac x0 x1 x2 x3 x4) := fun _ _ _ _ _ => opc_packM3 ..
theorem vdot : ∀ x0 x1 x2 x3 x4, Statement (.vdot x0 x1 x2 x3 x4) := fun _ _ _ _ _ => opc_packM3 ..
theorem vmin : ∀ x0 x1 x2 x3 x4 x5, Statement (.vmin x0 x1 x2 x3 x4 x5) := fun _ _ _ _ _ _ => opc_packM3 ..
theorem vmax : ∀ x0 x1 x2 x3 x4 x5, Statement (.vmax x0 x1 x2 x3 x4 x5) := fun _ _ _ _ _ _ => opc_packM3 ..
theorem vabs : ∀ x0 x1 x2 x3, Statement (.vabs x0 x1 x2 x3) := fun _ _ _ _ => opc_packM3 ..
theorem vneg : ∀ x0 x1 x2 x3, Statement (.vneg x0 x1 x2 x3) := fun _ _ _ _ => opc_packM3 ..
theorem vand : ∀ x0 x1 x2 x3 x4, Statement (.vand x0 x1 x2 x3 x4) := fun _ _ _ _ _ => opc_packM3 ..
theorem vor : ∀ x0 x1 x2 x3 x4, Statement (.vor x0 x1 x2 x3 x4) := fun _ _ _ _ _ => opc_packM3 ..
theorem vxor : ∀ x0 x1 x2 x3 x4, Statement (.vxor x0 x1 x2 x3 x4) := fun _ _ _ _ _ => opc_packM3 ..
theorem vshl : ∀ x0 x1 x2 x3 x4, Statement (.vshl x0 x1 x2 x3 x4) := fun _ _ _ _ _ => opc_packM3 ..
theorem vshr : ∀ x0 x1 x2 x3 x4, Statement (.vshr x0 x1 x2 x3 x4) := fun _ _ _ _ _ => opc_packM3 ..
theorem vsar : ∀ x0 x1 x2 x3 x4, Statement (.vsar x0 x1 x2 x3 x4) := fun _ _ _ _ _ => opc_packM3 ..
theorem vcmp : ∀ x0 x1 x2 x3 x4 x5, Statement (.vcmp x0 x1 x2 x3 x4 x5) := fun _ _ _ _ _ _ => opc_packM3 ..
theorem vsel : ∀ x0 x1 x2 x3 x4 x5, Statement (.vsel x0 x1 x2 x3 x4 x5) := fun _ _ _ _ _ _ => opc_packM3 ..
theorem vshuf : ∀ x0 x1 x2 x3 x4, Statement (.vshuf x0 x1 x2 x3 x4) := fun _ _ _ _ _ => opc_packM3 ..
theorem vbcast : ∀ x0 x1 x2 x3 x4, Statement (.vbcast x0 x1 x2 x3 x4) := fun _ _ _ _ _ => opc_packM3 ..
theorem vred : ∀ x0 x1 x2 x3 x4, Statement (.vred x0 x1 x2 x3 x4) := fun _ _ _ _ _ => opc_packM3 ..
theorem vcvt : ∀ x0 x1 x2 x3, Statement (.vcvt x0 x1 x2 x3) := fun _ _ _ _ => opc_packM3 ..
theorem vnarr : ∀ x0 x1 x2 x3 x4 x5, Statement (.vnarr x0 x1 x2 x3 x4 x5) := fun _ _ _ _ _ _ => opc_packM3 ..
theorem vwide : ∀ x0 x1 x2 x3 x4 x5, Statement (.vwide x0 x1 x2 x3 x4 x5) := fun _ _ _ _ _ _ => opc_packM3 ..
theorem vfadd : ∀ x0 x1 x2 x3 x4, Statement (.vfadd x0 x1 x2 x3 x4) := fun _ _ _ _ _ => opc_packM3 ..
theorem vfsub : ∀ x0 x1 x2 x3 x4, Statement (.vfsub x0 x1 x2 x3 x4) := fun _ _ _ _ _ => opc_packM3 ..
theorem vfmul : ∀ x0 x1 x2 x3 x4, Statement (.vfmul x0 x1 x2 x3 x4) := fun _ _ _ _ _ => opc_packM3 ..
theorem vfma : ∀ x0 x1 x2 x3 x4 x5 x6, Statement (.vfma x0 x1 x2 x3 x4 x5 x6) := fun _ _ _ _ _ _ _ => opc_packM3 ..
theorem vfdiv : ∀ x0 x1 x2 x3 x4, Statement (.vfdiv x0 x1 x2 x3 x4) := fun _ _ _ _ _ => opc_packM3 ..
theorem vfsqrt : ∀ x0 x1 x2 x3, Statement (.vfsqrt x0 x1 x2 x3) := fun _ _ _ _ => opc_packM3 ..
theorem vfmin : ∀ x0 x1 x2 x3 x4, Statement (.vfmin x0 x1 x2 x3 x4) := fun _ _ _ _ _ => opc_packM3 ..
theorem vfmax : ∀ x0 x1 x2 x3 x4, Statement (.vfmax x0 x1 x2 x3 x4) := fun _ _ _ _ _ => opc_packM3 ..
theorem vfcmp : ∀ x0 x1 x2 x3 x4 x5, Statement (.vfcmp x0 x1 x2 x3 x4 x5) := fun _ _ _ _ _ _ => opc_packM3 ..
theorem vfrcp : ∀ x0 x1 x2 x3, Statement (.vfrcp x0 x1 x2 x3) := fun _ _ _ _ => opc_packM3 ..
theorem vfrsq : ∀ x0 x1 x2 x3, Statement (.vfrsq x0 x1 x2 x3) := fun _ _ _ _ => opc_packM3 ..
theorem vfexp2 : ∀ x0 x1 x2 x3, Statement (.vfexp2 x0 x1 x2 x3) := fun _ _ _ _ => opc_packM3 ..
theorem vflog2 : ∀ x0 x1 x2 x3, Statement (.vflog2 x0 x1 x2 x3) := fun _ _ _ _ => opc_packM3 ..
theorem vfrnd : ∀ x0 x1 x2 x3, Statement (.vfrnd x0 x1 x2 x3) := fun _ _ _ _ => opc_packM3 ..
theorem vfcls : ∀ x0 x1 x2 x3, Statement (.vfcls x0 x1 x2 x3) := fun _ _ _ _ => opc_packM3 ..
theorem pack : ∀ x0 x1 x2 x3 x4 x5 x6 x7, Statement (.pack x0 x1 x2 x3 x4 x5 x6 x7) := fun _ _ _ _ _ _ _ _ => opc_packM3 ..
theorem extr : ∀ x0 x1 x2 x3 x4 x5 x6 x7 x8, Statement (.extr x0 x1 x2 x3 x4 x5 x6 x7 x8) := fun _ _ _ _ _ _ _ _ _ => opc_packM3 ..
theorem pmul : ∀ x0 x1 x2 x3 x4 x5 x6 x7 x8, Statement (.pmul x0 x1 x2 x3 x4 x5 x6 x7 x8) := fun _ _ _ _ _ _ _ _ _ => opc_packM3 ..
theorem gchk : ∀ x0 x1 x2 x3 x4 x5, Statement (.gchk x0 x1 x2 x3 x4 x5) := fun _ _ _ _ _ _ => opc_packM3 ..
theorem bprd : ∀ x0 x1 x2 x3 x4 x5, Statement (.bprd x0 x1 x2 x3 x4 x5) := fun _ _ _ _ _ _ => opc_packM3 ..
theorem bpwr : ∀ x0 x1 x2 x3 x4 x5, Statement (.bpwr x0 x1 x2 x3 x4 x5) := fun _ _ _ _ _ _ => opc_packM3 ..
theorem scale : ∀ x0 x1 x2 x3 x4, Statement (.scale x0 x1 x2 x3 x4) := fun _ _ _ _ _ => opc_packM3 ..
theorem bexp : ∀ x0 x1 x2 x3 x4, Statement (.bexp x0 x1 x2 x3 x4) := fun _ _ _ _ _ => opc_packM3 ..
theorem br : ∀ x0 x1 x2, Statement (.br x0 x1 x2) := fun _ _ _ => opc_packBR ..
theorem call : ∀ x0 x1 x2, Statement (.call x0 x1 x2) := fun _ _ _ => opc_packBR ..
theorem jmp : ∀ x0 x1, Statement (.jmp x0 x1) := fun _ _ => opc_packM3 ..
theorem jmpl : ∀ x0 x1 x2, Statement (.jmpl x0 x1 x2) := fun _ _ _ => opc_packM3 ..
theorem loop : ∀ x0 x1, Statement (.loop x0 x1) := fun _ _ => opc_packLP ..
theorem loopEndTest : ∀ x0, Statement (.loopEndTest x0) := fun _ => zero rfl rfl
theorem rep : ∀ x0, Statement (.rep x0) := fun _ => opc_packM3 ..
theorem endF : ∀ x0, Statement (.endF x0) := fun _ => opc_packM3 ..
theorem yield : ∀ x0 x1 x2, Statement (.yield x0 x1 x2) := fun _ _ _ => opc_packMI ..
theorem watchdogExpiry : ∀ x0, Statement (.watchdogExpiry x0) := fun _ => zero rfl rfl
theorem wait : ∀ x0 x1, Statement (.wait x0 x1) := fun _ _ => opc_packMI ..
theorem send : ∀ x0 x1 x2 x3, Statement (.send x0 x1 x2 x3) := fun _ _ _ _ => opc_packM3 ..
theorem sendn : ∀ x0 x1 x2 x3, Statement (.sendn x0 x1 x2 x3) := fun _ _ _ _ => opc_packM3 ..
theorem recv : ∀ x0 x1 x2, Statement (.recv x0 x1 x2) := fun _ _ _ => opc_packM3 ..
theorem chst : ∀ x0 x1 x2, Statement (.chst x0 x1 x2) := fun _ _ _ => opc_packM3 ..
theorem bind : ∀ x0 x1 x2, Statement (.bind x0 x1 x2) := fun _ _ _ => opc_packM3 ..
theorem unbind : ∀ x0 x1, Statement (.unbind x0 x1) := fun _ _ => opc_packM3 ..
theorem prio : ∀ x0 x1 x2, Statement (.prio x0 x1 x2) := fun _ _ _ => opc_packM3 ..
theorem rfork : ∀ x0 x1 x2 x3 x4, Statement (.rfork x0 x1 x2 x3 x4) := fun _ _ _ _ _ => opc_packM3 ..
theorem join : ∀ x0 x1 x2, Statement (.join x0 x1 x2) := fun _ _ _ => opc_packM3 ..
theorem trig : ∀ x0, Statement (.trig x0) := fun _ => opc_packM3 ..
theorem chkerr : ∀ x0 x1 x2, Statement (.chkerr x0 x1 x2) := fun _ _ _ => opc_packM3 ..
theorem drift : ∀ x0 x1, Statement (.drift x0 x1) := fun _ _ => opc_packM3 ..
theorem trap : ∀ x0 x1, Statement (.trap x0 x1) := fun _ _ => opc_packMI ..
theorem rti : ∀ x0, Statement (.rti x0) := fun _ => opc_packM3 ..
theorem mfs : ∀ x0 x1 x2, Statement (.mfs x0 x1 x2) := fun _ _ _ => opc_packSY ..
theorem mts : ∀ x0 x1 x2, Statement (.mts x0 x1 x2) := fun _ _ _ => opc_packSY ..
theorem tlbi : ∀ x0 x1 x2 x3, Statement (.tlbi x0 x1 x2 x3) := fun _ _ _ _ => opc_packM3 ..
theorem ctxsv : ∀ x0 x1 x2 x3, Statement (.ctxsv x0 x1 x2 x3) := fun _ _ _ _ => opc_packM3 ..
theorem ctxld : ∀ x0 x1 x2, Statement (.ctxld x0 x1 x2) := fun _ _ _ => opc_packM3 ..
theorem idle : ∀ x0, Statement (.idle x0) := fun _ => opc_packM3 ..
theorem sigh : ∀ x0 x1 x2, Statement (.sigh x0 x1 x2) := fun _ _ _ => opc_packM3 ..
theorem replay : ∀ x0 x1 x2, Statement (.replay x0 x1 x2) := fun _ _ _ => opc_packM3 ..
theorem killf : ∀ x0 x1 x2, Statement (.killf x0 x1 x2) := fun _ _ _ => opc_packM3 ..
theorem place : ∀ x0 x1 x2, Statement (.place x0 x1 x2) := fun _ _ _ => opc_packM3 ..
theorem ld : ∀ x0 x1 x2 x3 x4, Statement (.ld x0 x1 x2 x3 x4) := fun _ _ _ _ _ => opc_packM3 ..
theorem loadDataArrival : ∀ x0 x1, Statement (.loadDataArrival x0 x1) := fun _ _ => zero rfl rfl
theorem st : ∀ x0 x1 x2 x3 x4 x5 x6, Statement (.st x0 x1 x2 x3 x4 x5 x6) := fun _ _ _ _ _ _ _ => opc_packM3 ..
theorem storePerformed : ∀ x0 x1, Statement (.storePerformed x0 x1) := fun _ _ => zero rfl rfl
theorem lda : ∀ x0 x1 x2 x3 x4 x5 x6, Statement (.lda x0 x1 x2 x3 x4 x5 x6) := fun _ _ _ _ _ _ _ => opc_packM3 ..
theorem stl : ∀ x0 x1 x2 x3 x4 x5, Statement (.stl x0 x1 x2 x3 x4 x5) := fun _ _ _ _ _ _ => opc_packM3 ..
theorem bmov : ∀ x0 x1 x2 x3 x4, Statement (.bmov x0 x1 x2 x3 x4) := fun _ _ _ _ _ => opc_packM3 ..
theorem pref : ∀ x0 x1 x2 x3, Statement (.pref x0 x1 x2 x3) := fun _ _ _ _ => opc_packM3 ..
theorem aadd : ∀ x0 x1 x2 x3 x4 x5 x6 x7, Statement (.aadd x0 x1 x2 x3 x4 x5 x6 x7) := fun _ _ _ _ _ _ _ _ => opc_packM3 ..
theorem aand : ∀ x0 x1 x2 x3 x4 x5 x6, Statement (.aand x0 x1 x2 x3 x4 x5 x6) := fun _ _ _ _ _ _ _ => opc_packM3 ..
theorem aor : ∀ x0 x1 x2 x3 x4 x5 x6, Statement (.aor x0 x1 x2 x3 x4 x5 x6) := fun _ _ _ _ _ _ _ => opc_packM3 ..
theorem axor : ∀ x0 x1 x2 x3 x4 x5 x6, Statement (.axor x0 x1 x2 x3 x4 x5 x6) := fun _ _ _ _ _ _ _ => opc_packM3 ..
theorem amin : ∀ x0 x1 x2 x3 x4 x5 x6 x7, Statement (.amin x0 x1 x2 x3 x4 x5 x6 x7) := fun _ _ _ _ _ _ _ _ => opc_packM3 ..
theorem amax : ∀ x0 x1 x2 x3 x4 x5 x6 x7, Statement (.amax x0 x1 x2 x3 x4 x5 x6 x7) := fun _ _ _ _ _ _ _ _ => opc_packM3 ..
theorem aswp : ∀ x0 x1 x2 x3 x4 x5 x6, Statement (.aswp x0 x1 x2 x3 x4 x5 x6) := fun _ _ _ _ _ _ _ => opc_packM3 ..
theorem acas : ∀ x0 x1 x2 x3 x4 x5 x6, Statement (.acas x0 x1 x2 x3 x4 x5 x6) := fun _ _ _ _ _ _ _ => opc_packM3 ..
theorem atomicPerformed : ∀ x0, Statement (.atomicPerformed x0) := fun _ => zero rfl rfl
theorem notifyRetry : ∀ x0, Statement (.notifyRetry x0) := fun _ => zero rfl rfl
theorem waita : ∀ x0 x1 x2 x3 x4 x5 x6 x7, Statement (.waita x0 x1 x2 x3 x4 x5 x6 x7) := fun _ _ _ _ _ _ _ _ => opc_packM3 ..
theorem waitaWake : ∀ x0, Statement (.waitaWake x0) := fun _ => zero rfl rfl
theorem waitaTimeout : ∀ x0, Statement (.waitaTimeout x0) := fun _ => zero rfl rfl
theorem waitaReread : ∀ x0, Statement (.waitaReread x0) := fun _ => zero rfl rfl
theorem fence : ∀ x0 x1 x2, Statement (.fence x0 x1 x2) := fun _ _ _ => opc_packM3 ..
theorem rst : ∀ x0 x1 x2 x3 x4 x5, Statement (.rst x0 x1 x2 x3 x4 x5) := fun _ _ _ _ _ _ => opc_packM3 ..
theorem rstPerform : ∀ x0 x1, Statement (.rstPerform x0 x1) := fun _ _ => zero rfl rfl
theorem l1inv : ∀ x0 x1 x2, Statement (.l1inv x0 x1 x2) := fun _ _ _ => opc_packM3 ..
theorem copy : ∀ x0 x1 x2 x3 x4 x5 x6 x7, Statement (.copy x0 x1 x2 x3 x4 x5 x6 x7) := fun _ _ _ _ _ _ _ _ => opc_packEN ..
theorem copyt : ∀ x0 x1 x2 x3 x4 x5 x6 x7, Statement (.copyt x0 x1 x2 x3 x4 x5 x6 x7) := fun _ _ _ _ _ _ _ _ => opc_packEN ..
theorem tcfg : ∀ x0 x1, Statement (.tcfg x0 x1) := fun _ _ => opc_packEN ..
theorem trel : ∀ x0, Statement (.trel x0) := fun _ => opc_packM3 ..
theorem tldb : ∀ x0 x1 x2 x3 x4, Statement (.tldb x0 x1 x2 x3 x4) := fun _ _ _ _ _ => opc_packEN ..
theorem tmul : ∀ x0 x1 x2 x3 x4 x5 x6 x7 x8, Statement (.tmul x0 x1 x2 x3 x4 x5 x6 x7 x8) := fun _ _ _ _ _ _ _ _ _ => opc_packEN ..
theorem tpoly : ∀ x0 x1 x2 x3 x4 x5 x6 x7 x8 x9, Statement (.tpoly x0 x1 x2 x3 x4 x5 x6 x7 x8 x9) := fun _ _ _ _ _ _ _ _ _ _ => opc_packEN ..
theorem tdrn : ∀ x0 x1 x2 x3 x4, Statement (.tdrn x0 x1 x2 x3 x4) := fun _ _ _ _ _ => opc_packEN ..
theorem qfence : ∀ x0 x1, Statement (.qfence x0 x1) := fun _ _ => opc_packM3 ..
theorem dist : ∀ x0 x1, Statement (.dist x0 x1) := fun _ _ => opc_packM3 ..
theorem copyEngineTransfer : ∀ x0 x1, Statement (.copyEngineTransfer x0 x1) := fun _ _ => zero rfl rfl
theorem copyCompletion : ∀ x0, Statement (.copyCompletion x0) := fun _ => zero rfl rfl
theorem combineGroupClose : ∀ x0 x1, Statement (.combineGroupClose x0 x1) := fun _ _ => zero rfl rfl
theorem copytImageEnqueue : ∀ x0, Statement (.copytImageEnqueue x0) := fun _ => zero rfl rfl
theorem tldbExecute : ∀ x0, Statement (.tldbExecute x0) := fun _ => zero rfl rfl
theorem tmulExecute : ∀ x0, Statement (.tmulExecute x0) := fun _ => zero rfl rfl
theorem tpolyExecute : ∀ x0, Statement (.tpolyExecute x0) := fun _ => zero rfl rfl
theorem drainRow : ∀ x0, Statement (.drainRow x0) := fun _ => zero rfl rfl
theorem tokenArrival : ∀ x0, Statement (.tokenArrival x0) := fun _ => zero rfl rfl
theorem creditReturn : ∀ x0, Statement (.creditReturn x0) := fun _ => zero rfl rfl
theorem hubTokenResend : ∀ x0, Statement (.hubTokenResend x0) := fun _ => zero rfl rfl
theorem firingSelection : ∀ x0, Statement (.firingSelection x0) := fun _ => zero rfl rfl
theorem chunkDeal : ∀ x0, Statement (.chunkDeal x0) := fun _ => zero rfl rfl
theorem firingKill : ∀ x0, Statement (.firingKill x0) := fun _ => zero rfl rfl
theorem firingEndOnFault : ∀ x0, Statement (.firingEndOnFault x0) := fun _ => zero rfl rfl
theorem faultRecordResend : ∀ x0, Statement (.faultRecordResend x0) := fun _ => zero rfl rfl
theorem pageWalk : ∀ x0, Statement (.pageWalk x0) := fun _ => zero rfl rfl
theorem atsCompletion : ∀ x0 x1, Statement (.atsCompletion x0 x1) := fun _ _ => zero rfl rfl
theorem priSuccess : ∀ x0, Statement (.priSuccess x0) := fun _ => zero rfl rfl
theorem priInvalidRequest : ∀ x0, Statement (.priInvalidRequest x0) := fun _ => zero rfl rfl
theorem priResponseFailure : ∀ x0, Statement (.priResponseFailure x0) := fun _ => zero rfl rfl
theorem atsInvalidationRequest : ∀ x0 x1 x2, Statement (.atsInvalidationRequest x0 x1 x2) := fun _ _ _ => zero rfl rfl
theorem externalEvent : ∀ x0 x1, Statement (.externalEvent x0 x1) := fun _ _ => zero rfl rfl
theorem irtEscalation : ∀ x0, Statement (.irtEscalation x0) := fun _ => zero rfl rfl
theorem doorbell : ∀ x0, Statement (.doorbell x0) := fun _ => zero rfl rfl
theorem queueEnable : ∀ x0, Statement (.queueEnable x0) := fun _ => zero rfl rfl
theorem launchRecord : ∀ x0, Statement (.launchRecord x0) := fun _ => zero rfl rfl
theorem launchStart : ∀ x0 x1, Statement (.launchStart x0 x1) := fun _ _ => zero rfl rfl
theorem launchCompletion : ∀ x0, Statement (.launchCompletion x0) := fun _ => zero rfl rfl
theorem signalRecord : ∀ x0, Statement (.signalRecord x0) := fun _ => zero rfl rfl
theorem waitvRecord : ∀ x0, Statement (.waitvRecord x0) := fun _ => zero rfl rfl
theorem waitvTimeout : ∀ x0, Statement (.waitvTimeout x0) := fun _ => zero rfl rfl
theorem barrierRecord : ∀ x0, Statement (.barrierRecord x0) := fun _ => zero rfl rfl
theorem copyqRecord : ∀ x0, Statement (.copyqRecord x0) := fun _ => zero rfl rfl
theorem nopRecord : ∀ x0, Statement (.nopRecord x0) := fun _ => zero rfl rfl
theorem schedulerDecision : ∀ x0, Statement (.schedulerDecision x0) := fun _ => zero rfl rfl
theorem schedulerTick : Statement .schedulerTick := zero rfl rfl
theorem quantumExpiry : ∀ x0, Statement (.quantumExpiry x0) := fun _ => zero rfl rfl
theorem parkNotice : ∀ x0, Statement (.parkNotice x0) := fun _ => zero rfl rfl
theorem rtPeriodStart : ∀ x0, Statement (.rtPeriodStart x0) := fun _ => zero rfl rfl
theorem clusterOwnerChange : ∀ x0 x1, Statement (.clusterOwnerChange x0 x1) := fun _ _ => zero rfl rfl
theorem thermalLimitChange : ∀ x0 x1, Statement (.thermalLimitChange x0 x1) := fun _ _ => zero rfl rfl
theorem sealStart : Statement .sealStart := zero rfl rfl
theorem driftAck : ∀ x0, Statement (.driftAck x0) := fun _ => zero rfl rfl
theorem sealCommit : Statement .sealCommit := zero rfl rfl
theorem sweepComplete : Statement .sweepComplete := zero rfl rfl
theorem sealTimer : Statement .sealTimer := zero rfl rfl
theorem rollback : Statement .rollback := zero rfl rfl
theorem checkerMismatch : ∀ x0 x1, Statement (.checkerMismatch x0 x1) := fun _ _ => zero rfl rfl
theorem spareTakeover : ∀ x0, Statement (.spareTakeover x0) := fun _ => zero rfl rfl
theorem scrubRead : ∀ x0 x1, Statement (.scrubRead x0 x1) := fun _ _ => zero rfl rfl
theorem lineFetch : ∀ x0 x1, Statement (.lineFetch x0 x1) := fun _ _ => zero rfl rfl
theorem hostRead : ∀ x0 x1, Statement (.hostRead x0 x1) := fun _ _ => zero rfl rfl
theorem hostReadOwnership : ∀ x0 x1, Statement (.hostReadOwnership x0 x1) := fun _ _ => zero rfl rfl
theorem hostWrite : ∀ x0 x1, Statement (.hostWrite x0 x1) := fun _ _ => zero rfl rfl
theorem hostWriteback : ∀ x0 x1, Statement (.hostWriteback x0 x1) := fun _ _ => zero rfl rfl
theorem snpInv : ∀ x0 x1, Statement (.snpInv x0 x1) := fun _ _ => zero rfl rfl
theorem snpData : ∀ x0, Statement (.snpData x0) := fun _ => zero rfl rfl
theorem snpCur : ∀ x0, Statement (.snpCur x0) := fun _ => zero rfl rfl
theorem sliceLeave : ∀ x0, Statement (.sliceLeave x0) := fun _ => zero rfl rfl
theorem sliceReturn : ∀ x0, Statement (.sliceReturn x0) := fun _ => zero rfl rfl
theorem nvmeMsi : ∀ x0 x1, Statement (.nvmeMsi x0 x1) := fun _ _ => zero rfl rfl
theorem nvmeInboundRead : ∀ x0 x1 x2, Statement (.nvmeInboundRead x0 x1 x2) := fun _ _ _ => zero rfl rfl
theorem nvmeInboundWrite : ∀ x0 x1 x2, Statement (.nvmeInboundWrite x0 x1 x2) := fun _ _ _ => zero rfl rfl
theorem netReceive : ∀ x0 x1 x2, Statement (.netReceive x0 x1 x2) := fun _ _ _ => zero rfl rfl
theorem netTransmit : ∀ x0, Statement (.netTransmit x0) := fun _ => zero rfl rfl
theorem ethernetLinkChange : ∀ x0 x1, Statement (.ethernetLinkChange x0 x1) := fun _ _ => zero rfl rfl
theorem holdEntry : Statement .holdEntry := zero rfl rfl
theorem powerOff : Statement .powerOff := zero rfl rfl
theorem supplyLoss : Statement .supplyLoss := zero rfl rfl
theorem wakeFrame : ∀ x0 x1 x2, Statement (.wakeFrame x0 x1 x2) := fun _ _ _ => zero rfl rfl
theorem wakeTimer : Statement .wakeTimer := zero rfl rfl
theorem hostWake : Statement .hostWake := zero rfl rfl
theorem coldBoot : ∀ x0, Statement (.coldBoot x0) := fun _ => zero rfl rfl
theorem debugUnlock : ∀ x0, Statement (.debugUnlock x0) := fun _ => zero rfl rfl
theorem pbudCapWrite : ∀ x0 x1, Statement (.pbudCapWrite x0 x1) := fun _ _ => zero rfl rfl
theorem rtsWrite : ∀ x0 x1, Statement (.rtsWrite x0 x1) := fun _ _ => zero rfl rfl
theorem swpcfgWrite : ∀ x0, Statement (.swpcfgWrite x0) := fun _ => zero rfl rfl
theorem cwcfgWrite : ∀ x0, Statement (.cwcfgWrite x0) := fun _ => zero rfl rfl
theorem sealcfgReq : ∀ x0, Statement (.sealcfgReq x0) := fun _ => zero rfl rfl
theorem datcfgSync : ∀ x0 x1, Statement (.datcfgSync x0 x1) := fun _ _ => zero rfl rfl
theorem errinjGo : ∀ x0, Statement (.errinjGo x0) := fun _ => zero rfl rfl
theorem irtWrite : ∀ x0 x1, Statement (.irtWrite x0 x1) := fun _ _ => zero rfl rfl
theorem registerWrite : ∀ x0 x1 x2 x3, Statement (.registerWrite x0 x1 x2 x3) := fun _ _ _ _ => zero rfl rfl
theorem undefinedOpcode : ∀ x0, Statement (.undefinedOpcode x0) := fun x0 => opc_append x0 _
theorem queueDisable : ∀ x0, Statement (.queueDisable x0) := fun _ => zero rfl rfl
theorem priReenable : ∀ x0, Statement (.priReenable x0) := fun _ => zero rfl rfl
theorem hostPortLinkTraining : ∀ x0, Statement (.hostPortLinkTraining x0) := fun _ => zero rfl rfl

end Sys2Proof.Laws.Word

namespace Sys2Proof.Laws
open Sys2Proof

theorem Word.seal : ∀ x0 x1 x2 x3, Word.Statement (.seal x0 x1 x2 x3) := fun _ _ _ _ => Word.opc_packM3 ..

end Sys2Proof.Laws
end

