-- ==== Sys2Proof/Laws/Sched.lean ====
section
/-! SUPPORT. What bringing PBUD[d].PROJ up to date can change (log entry 97): no field of a hub register below bit 36, and nothing outside the registers. -/
namespace Sys2Proof.Machine
open Sys2Proof

/-- A field of a doubleword below bit 36 does not see a write of bits 47:36. -/
theorem fld_setFld_low (x : Word) (v lo n : Nat) (h : lo + n ≤ 36) : fld (setFld x 36 12 v) lo n = fld x lo n := by
  unfold fld bits
  apply Nat.eq_of_testBit_eq
  intro i
  simp only [Nat.testBit_mod_two_pow, Nat.testBit_div_two_pow]
  by_cases hi : i < n
  · have e : i + lo < 36 := by omega
    simp only [hi, decide_true, Bool.true_and, BitVec.testBit_toNat, setFld, maskAt, BitVec.getLsbD_or, BitVec.getLsbD_and, BitVec.getLsbD_not,
      BitVec.getLsbD_shiftLeft, e, decide_true, Bool.not_true, Bool.and_false, Bool.false_and, Bool.or_false, Bool.not_false, Bool.and_true]
    have e2 : i + lo < 64 := by omega
    simp [e2]
  · simp [hi]

/-- A write of one hub register leaves the others. -/
theorem reg_setReg_ne (h : Hub) {a b : Nat} (v : Word) (e : b ≠ a) : reg (setReg h a v) b = reg h b := by
  simp only [reg, setReg, mset]
  split
  · exact mget_mdel_ne _ _ e
  · rw [mget_minsert_ne _ _ _ e, mget_mdel_ne _ _ e]

/-- All that `putProj` and `putProjs` can do. -/
def ProjOnly (s t : State) : Prop :=
  ∃ r, t = { s with hub := { s.hub with regs := r } } ∧ ∀ off lo n, lo + n ≤ 36 → fld (reg t.hub off) lo n = fld (reg s.hub off) lo n

theorem ProjOnly.refl (s : State) : ProjOnly s s := ⟨s.hub.regs, rfl, fun _ _ _ _ => rfl⟩

theorem ProjOnly.trans {s t u : State} (a : ProjOnly s t) (b : ProjOnly t u) : ProjOnly s u := by
  obtain ⟨r, rfl, h⟩ := a
  obtain ⟨q, rfl, g⟩ := b
  exact ⟨q, rfl, fun off lo n e => (g off lo n e).trans (h off lo n e)⟩

theorem putProj_only (s : State) (d : Nat) : ProjOnly s (putProj s d) := by
  refine ⟨_, rfl, fun off lo n h => ?_⟩
  by_cases e : off = 0x2100 + 8 * d
  · subst e
    simp only [putProj, setReg, reg, mget_mset_same]
    exact fld_setFld_low _ _ _ _ h
  · show fld (reg (setReg _ _ _) off) lo n = _
    rw [reg_setReg_ne _ _ e]

theorem putProjs_only (s : State) : ProjOnly s (putProjs s) := by
  unfold putProjs
  generalize upto 8 = ds
  induction ds generalizing s with
  | nil => exact .refl s
  | cons d t ih => exact (putProj_only s d).trans (ih _)

end Sys2Proof.Machine
end

