-- ==== Sys2Proof/Laws/State.lean ====
section
/-! SUPPORT. The field lemmas of the updates of a context's view and of the state, and what writing a view back changes. -/
namespace Sys2Proof.Machine
open Sys2Proof

@[simp] theorem Loc.setP_cid (l : Loc) (n : Reg) (v : Word) (b : Bool) : (l.setP n v b).cid = l.cid := rfl
@[simp] theorem Loc.setP_core (l : Loc) (n : Reg) (v : Word) (b : Bool) : (l.setP n v b).core = l.core := rfl
@[simp] theorem Loc.setP_clus (l : Loc) (n : Reg) (v : Word) (b : Bool) : (l.setP n v b).clus = l.clus := rfl
@[simp] theorem Loc.setP_sect (l : Loc) (n : Reg) (v : Word) (b : Bool) : (l.setP n v b).sect = l.sect := rfl
@[simp] theorem Loc.setP_dom (l : Loc) (n : Reg) (v : Word) (b : Bool) : (l.setP n v b).dom = l.dom := rfl
@[simp] theorem Loc.setP_hub (l : Loc) (n : Reg) (v : Word) (b : Bool) : (l.setP n v b).hub = l.hub := rfl
@[simp] theorem Loc.setP_peers (l : Loc) (n : Reg) (v : Word) (b : Bool) : (l.setP n v b).peers = l.peers := rfl
@[simp] theorem Loc.setP_now (l : Loc) (n : Reg) (v : Word) (b : Bool) : (l.setP n v b).now = l.now := rfl
@[simp] theorem Loc.setP_tick (l : Loc) (n : Reg) (v : Word) (b : Bool) : (l.setP n v b).tick = l.tick := rfl
@[simp] theorem Loc.setP_next (l : Loc) (n : Reg) (v : Word) (b : Bool) : (l.setP n v b).next = l.next := rfl
@[simp] theorem Loc.setP_pfx (l : Loc) (n : Reg) (v : Word) (b : Bool) : (l.setP n v b).pfx = l.pfx := rfl
@[simp] theorem Loc.setP_dl (l : Loc) (n : Reg) (v : Word) (b : Bool) : (l.setP n v b).dl = l.dl := rfl
@[simp] theorem Loc.setP_wakes (l : Loc) (n : Reg) (v : Word) (b : Bool) : (l.setP n v b).wakes = l.wakes := rfl
@[simp] theorem Loc.setP_ctx_status (l : Loc) (n : Reg) (v : Word) (b : Bool) : (l.setP n v b).ctx.status = l.ctx.status := rfl
@[simp] theorem Loc.setP_ctx_a (l : Loc) (n : Reg) (v : Word) (b : Bool) : (l.setP n v b).ctx.a = l.ctx.a := rfl
@[simp] theorem Loc.setP_ctx_stat (l : Loc) (n : Reg) (v : Word) (b : Bool) : (l.setP n v b).ctx.stat = l.ctx.stat := rfl
@[simp] theorem Loc.setP_ctx_cir (l : Loc) (n : Reg) (v : Word) (b : Bool) : (l.setP n v b).ctx.cir = l.ctx.cir := rfl
@[simp] theorem Loc.setP_ctx_cira (l : Loc) (n : Reg) (v : Word) (b : Bool) : (l.setP n v b).ctx.cira = l.ctx.cira := rfl
@[simp] theorem Loc.setP_ctx_cnt (l : Loc) (n : Reg) (v : Word) (b : Bool) : (l.setP n v b).ctx.cnt = l.ctx.cnt := rfl
@[simp] theorem Loc.setP_ctx_ntgt (l : Loc) (n : Reg) (v : Word) (b : Bool) : (l.setP n v b).ctx.ntgt = l.ctx.ntgt := rfl
@[simp] theorem Loc.setP_ctx_pc (l : Loc) (n : Reg) (v : Word) (b : Bool) : (l.setP n v b).ctx.pc = l.ctx.pc := rfl
@[simp] theorem Loc.setP_ctx_btgt (l : Loc) (n : Reg) (v : Word) (b : Bool) : (l.setP n v b).ctx.btgt = l.ctx.btgt := rfl
@[simp] theorem Loc.setP_ctx_dleft (l : Loc) (n : Reg) (v : Word) (b : Bool) : (l.setP n v b).ctx.dleft = l.ctx.dleft := rfl
@[simp] theorem Loc.setP_ctx_outbox (l : Loc) (n : Reg) (v : Word) (b : Bool) : (l.setP n v b).ctx.outbox = l.ctx.outbox := rfl
@[simp] theorem Loc.setP_ctx_journal (l : Loc) (n : Reg) (v : Word) (b : Bool) : (l.setP n v b).ctx.journal = l.ctx.journal := rfl
@[simp] theorem Loc.setP_ctx_stq (l : Loc) (n : Reg) (v : Word) (b : Bool) : (l.setP n v b).ctx.stq = l.ctx.stq := rfl
@[simp] theorem Loc.setP_ctx_landed (l : Loc) (n : Reg) (v : Word) (b : Bool) : (l.setP n v b).ctx.landed = l.ctx.landed := rfl
@[simp] theorem Loc.setP_ctx_cmds (l : Loc) (n : Reg) (v : Word) (b : Bool) : (l.setP n v b).ctx.cmds = l.ctx.cmds := rfl

@[simp] theorem Loc.setA_cid (l : Loc) (v : Quad) (b : Bool) : (l.setA v b).cid = l.cid := rfl
@[simp] theorem Loc.setA_core (l : Loc) (v : Quad) (b : Bool) : (l.setA v b).core = l.core := rfl
@[simp] theorem Loc.setA_clus (l : Loc) (v : Quad) (b : Bool) : (l.setA v b).clus = l.clus := rfl
@[simp] theorem Loc.setA_sect (l : Loc) (v : Quad) (b : Bool) : (l.setA v b).sect = l.sect := rfl
@[simp] theorem Loc.setA_dom (l : Loc) (v : Quad) (b : Bool) : (l.setA v b).dom = l.dom := rfl
@[simp] theorem Loc.setA_hub (l : Loc) (v : Quad) (b : Bool) : (l.setA v b).hub = l.hub := rfl
@[simp] theorem Loc.setA_peers (l : Loc) (v : Quad) (b : Bool) : (l.setA v b).peers = l.peers := rfl
@[simp] theorem Loc.setA_now (l : Loc) (v : Quad) (b : Bool) : (l.setA v b).now = l.now := rfl
@[simp] theorem Loc.setA_tick (l : Loc) (v : Quad) (b : Bool) : (l.setA v b).tick = l.tick := rfl
@[simp] theorem Loc.setA_next (l : Loc) (v : Quad) (b : Bool) : (l.setA v b).next = l.next := rfl
@[simp] theorem Loc.setA_pfx (l : Loc) (v : Quad) (b : Bool) : (l.setA v b).pfx = l.pfx := rfl
@[simp] theorem Loc.setA_dl (l : Loc) (v : Quad) (b : Bool) : (l.setA v b).dl = l.dl := rfl
@[simp] theorem Loc.setA_wakes (l : Loc) (v : Quad) (b : Bool) : (l.setA v b).wakes = l.wakes := rfl
@[simp] theorem Loc.setA_ctx_status (l : Loc) (v : Quad) (b : Bool) : (l.setA v b).ctx.status = l.ctx.status := rfl
@[simp] theorem Loc.setA_ctx_p (l : Loc) (v : Quad) (b : Bool) : (l.setA v b).ctx.p = l.ctx.p := rfl
@[simp] theorem Loc.setA_ctx_stat (l : Loc) (v : Quad) (b : Bool) : (l.setA v b).ctx.stat = l.ctx.stat := rfl
@[simp] theorem Loc.setA_ctx_cir (l : Loc) (v : Quad) (b : Bool) : (l.setA v b).ctx.cir = l.ctx.cir := rfl
@[simp] theorem Loc.setA_ctx_cira (l : Loc) (v : Quad) (b : Bool) : (l.setA v b).ctx.cira = l.ctx.cira := rfl
@[simp] theorem Loc.setA_ctx_cnt (l : Loc) (v : Quad) (b : Bool) : (l.setA v b).ctx.cnt = l.ctx.cnt := rfl
@[simp] theorem Loc.setA_ctx_ntgt (l : Loc) (v : Quad) (b : Bool) : (l.setA v b).ctx.ntgt = l.ctx.ntgt := rfl
@[simp] theorem Loc.setA_ctx_pc (l : Loc) (v : Quad) (b : Bool) : (l.setA v b).ctx.pc = l.ctx.pc := rfl
@[simp] theorem Loc.setA_ctx_btgt (l : Loc) (v : Quad) (b : Bool) : (l.setA v b).ctx.btgt = l.ctx.btgt := rfl
@[simp] theorem Loc.setA_ctx_dleft (l : Loc) (v : Quad) (b : Bool) : (l.setA v b).ctx.dleft = l.ctx.dleft := rfl
@[simp] theorem Loc.setA_ctx_outbox (l : Loc) (v : Quad) (b : Bool) : (l.setA v b).ctx.outbox = l.ctx.outbox := rfl
@[simp] theorem Loc.setA_ctx_journal (l : Loc) (v : Quad) (b : Bool) : (l.setA v b).ctx.journal = l.ctx.journal := rfl
@[simp] theorem Loc.setA_ctx_stq (l : Loc) (v : Quad) (b : Bool) : (l.setA v b).ctx.stq = l.ctx.stq := rfl
@[simp] theorem Loc.setA_ctx_landed (l : Loc) (v : Quad) (b : Bool) : (l.setA v b).ctx.landed = l.ctx.landed := rfl
@[simp] theorem Loc.setA_ctx_cmds (l : Loc) (v : Quad) (b : Bool) : (l.setA v b).ctx.cmds = l.ctx.cmds := rfl

@[simp] theorem Loc.setStat_cid (l : Loc) (v : Word) : (l.setStat v).cid = l.cid := rfl
@[simp] theorem Loc.setStat_core (l : Loc) (v : Word) : (l.setStat v).core = l.core := rfl
@[simp] theorem Loc.setStat_clus (l : Loc) (v : Word) : (l.setStat v).clus = l.clus := rfl
@[simp] theorem Loc.setStat_sect (l : Loc) (v : Word) : (l.setStat v).sect = l.sect := rfl
@[simp] theorem Loc.setStat_dom (l : Loc) (v : Word) : (l.setStat v).dom = l.dom := rfl
@[simp] theorem Loc.setStat_hub (l : Loc) (v : Word) : (l.setStat v).hub = l.hub := rfl
@[simp] theorem Loc.setStat_peers (l : Loc) (v : Word) : (l.setStat v).peers = l.peers := rfl
@[simp] theorem Loc.setStat_now (l : Loc) (v : Word) : (l.setStat v).now = l.now := rfl
@[simp] theorem Loc.setStat_tick (l : Loc) (v : Word) : (l.setStat v).tick = l.tick := rfl
@[simp] theorem Loc.setStat_next (l : Loc) (v : Word) : (l.setStat v).next = l.next := rfl
@[simp] theorem Loc.setStat_pfx (l : Loc) (v : Word) : (l.setStat v).pfx = l.pfx := rfl
@[simp] theorem Loc.setStat_dl (l : Loc) (v : Word) : (l.setStat v).dl = l.dl := rfl
@[simp] theorem Loc.setStat_wakes (l : Loc) (v : Word) : (l.setStat v).wakes = l.wakes := rfl
@[simp] theorem Loc.setStat_ctx_status (l : Loc) (v : Word) : (l.setStat v).ctx.status = l.ctx.status := rfl
@[simp] theorem Loc.setStat_ctx_a (l : Loc) (v : Word) : (l.setStat v).ctx.a = l.ctx.a := rfl
@[simp] theorem Loc.setStat_ctx_p (l : Loc) (v : Word) : (l.setStat v).ctx.p = l.ctx.p := rfl
@[simp] theorem Loc.setStat_ctx_cir (l : Loc) (v : Word) : (l.setStat v).ctx.cir = l.ctx.cir := rfl
@[simp] theorem Loc.setStat_ctx_cira (l : Loc) (v : Word) : (l.setStat v).ctx.cira = l.ctx.cira := rfl
@[simp] theorem Loc.setStat_ctx_cnt (l : Loc) (v : Word) : (l.setStat v).ctx.cnt = l.ctx.cnt := rfl
@[simp] theorem Loc.setStat_ctx_ntgt (l : Loc) (v : Word) : (l.setStat v).ctx.ntgt = l.ctx.ntgt := rfl
@[simp] theorem Loc.setStat_ctx_pc (l : Loc) (v : Word) : (l.setStat v).ctx.pc = l.ctx.pc := rfl
@[simp] theorem Loc.setStat_ctx_btgt (l : Loc) (v : Word) : (l.setStat v).ctx.btgt = l.ctx.btgt := rfl
@[simp] theorem Loc.setStat_ctx_dleft (l : Loc) (v : Word) : (l.setStat v).ctx.dleft = l.ctx.dleft := rfl
@[simp] theorem Loc.setStat_ctx_outbox (l : Loc) (v : Word) : (l.setStat v).ctx.outbox = l.ctx.outbox := rfl
@[simp] theorem Loc.setStat_ctx_journal (l : Loc) (v : Word) : (l.setStat v).ctx.journal = l.ctx.journal := rfl
@[simp] theorem Loc.setStat_ctx_stq (l : Loc) (v : Word) : (l.setStat v).ctx.stq = l.ctx.stq := rfl
@[simp] theorem Loc.setStat_ctx_landed (l : Loc) (v : Word) : (l.setStat v).ctx.landed = l.ctx.landed := rfl
@[simp] theorem Loc.setStat_ctx_cmds (l : Loc) (v : Word) : (l.setStat v).ctx.cmds = l.ctx.cmds := rfl

@[simp] theorem Loc.cirSet_cid (l : Loc) (i : Nat) : (l.cirSet i).cid = l.cid := rfl
@[simp] theorem Loc.cirSet_core (l : Loc) (i : Nat) : (l.cirSet i).core = l.core := rfl
@[simp] theorem Loc.cirSet_clus (l : Loc) (i : Nat) : (l.cirSet i).clus = l.clus := rfl
@[simp] theorem Loc.cirSet_sect (l : Loc) (i : Nat) : (l.cirSet i).sect = l.sect := rfl
@[simp] theorem Loc.cirSet_dom (l : Loc) (i : Nat) : (l.cirSet i).dom = l.dom := rfl
@[simp] theorem Loc.cirSet_hub (l : Loc) (i : Nat) : (l.cirSet i).hub = l.hub := rfl
@[simp] theorem Loc.cirSet_peers (l : Loc) (i : Nat) : (l.cirSet i).peers = l.peers := rfl
@[simp] theorem Loc.cirSet_now (l : Loc) (i : Nat) : (l.cirSet i).now = l.now := rfl
@[simp] theorem Loc.cirSet_tick (l : Loc) (i : Nat) : (l.cirSet i).tick = l.tick := rfl
@[simp] theorem Loc.cirSet_next (l : Loc) (i : Nat) : (l.cirSet i).next = l.next := rfl
@[simp] theorem Loc.cirSet_pfx (l : Loc) (i : Nat) : (l.cirSet i).pfx = l.pfx := rfl
@[simp] theorem Loc.cirSet_dl (l : Loc) (i : Nat) : (l.cirSet i).dl = l.dl := rfl
@[simp] theorem Loc.cirSet_wakes (l : Loc) (i : Nat) : (l.cirSet i).wakes = l.wakes := rfl
@[simp] theorem Loc.cirSet_ctx_status (l : Loc) (i : Nat) : (l.cirSet i).ctx.status = l.ctx.status := rfl
@[simp] theorem Loc.cirSet_ctx_a (l : Loc) (i : Nat) : (l.cirSet i).ctx.a = l.ctx.a := rfl
@[simp] theorem Loc.cirSet_ctx_p (l : Loc) (i : Nat) : (l.cirSet i).ctx.p = l.ctx.p := rfl
@[simp] theorem Loc.cirSet_ctx_stat (l : Loc) (i : Nat) : (l.cirSet i).ctx.stat = l.ctx.stat := rfl
@[simp] theorem Loc.cirSet_ctx_cira (l : Loc) (i : Nat) : (l.cirSet i).ctx.cira = l.ctx.cira := rfl
@[simp] theorem Loc.cirSet_ctx_cnt (l : Loc) (i : Nat) : (l.cirSet i).ctx.cnt = l.ctx.cnt := rfl
@[simp] theorem Loc.cirSet_ctx_ntgt (l : Loc) (i : Nat) : (l.cirSet i).ctx.ntgt = l.ctx.ntgt := rfl
@[simp] theorem Loc.cirSet_ctx_pc (l : Loc) (i : Nat) : (l.cirSet i).ctx.pc = l.ctx.pc := rfl
@[simp] theorem Loc.cirSet_ctx_btgt (l : Loc) (i : Nat) : (l.cirSet i).ctx.btgt = l.ctx.btgt := rfl
@[simp] theorem Loc.cirSet_ctx_dleft (l : Loc) (i : Nat) : (l.cirSet i).ctx.dleft = l.ctx.dleft := rfl
@[simp] theorem Loc.cirSet_ctx_outbox (l : Loc) (i : Nat) : (l.cirSet i).ctx.outbox = l.ctx.outbox := rfl
@[simp] theorem Loc.cirSet_ctx_journal (l : Loc) (i : Nat) : (l.cirSet i).ctx.journal = l.ctx.journal := rfl
@[simp] theorem Loc.cirSet_ctx_stq (l : Loc) (i : Nat) : (l.cirSet i).ctx.stq = l.ctx.stq := rfl
@[simp] theorem Loc.cirSet_ctx_landed (l : Loc) (i : Nat) : (l.cirSet i).ctx.landed = l.ctx.landed := rfl
@[simp] theorem Loc.cirSet_ctx_cmds (l : Loc) (i : Nat) : (l.cirSet i).ctx.cmds = l.ctx.cmds := rfl

@[simp] theorem Loc.parkAs_cid (l : Loc) (p : Park) : (l.parkAs p).cid = l.cid := rfl
@[simp] theorem Loc.parkAs_core (l : Loc) (p : Park) : (l.parkAs p).core = l.core := rfl
@[simp] theorem Loc.parkAs_clus (l : Loc) (p : Park) : (l.parkAs p).clus = l.clus := rfl
@[simp] theorem Loc.parkAs_sect (l : Loc) (p : Park) : (l.parkAs p).sect = l.sect := rfl
@[simp] theorem Loc.parkAs_dom (l : Loc) (p : Park) : (l.parkAs p).dom = l.dom := rfl
@[simp] theorem Loc.parkAs_hub (l : Loc) (p : Park) : (l.parkAs p).hub = l.hub := rfl
@[simp] theorem Loc.parkAs_peers (l : Loc) (p : Park) : (l.parkAs p).peers = l.peers := rfl
@[simp] theorem Loc.parkAs_now (l : Loc) (p : Park) : (l.parkAs p).now = l.now := rfl
@[simp] theorem Loc.parkAs_tick (l : Loc) (p : Park) : (l.parkAs p).tick = l.tick := rfl
@[simp] theorem Loc.parkAs_next (l : Loc) (p : Park) : (l.parkAs p).next = l.next := rfl
@[simp] theorem Loc.parkAs_pfx (l : Loc) (p : Park) : (l.parkAs p).pfx = l.pfx := rfl
@[simp] theorem Loc.parkAs_dl (l : Loc) (p : Park) : (l.parkAs p).dl = l.dl := rfl
@[simp] theorem Loc.parkAs_wakes (l : Loc) (p : Park) : (l.parkAs p).wakes = l.wakes := rfl
@[simp] theorem Loc.parkAs_ctx_a (l : Loc) (p : Park) : (l.parkAs p).ctx.a = l.ctx.a := rfl
@[simp] theorem Loc.parkAs_ctx_p (l : Loc) (p : Park) : (l.parkAs p).ctx.p = l.ctx.p := rfl
@[simp] theorem Loc.parkAs_ctx_stat (l : Loc) (p : Park) : (l.parkAs p).ctx.stat = l.ctx.stat := rfl
@[simp] theorem Loc.parkAs_ctx_cir (l : Loc) (p : Park) : (l.parkAs p).ctx.cir = l.ctx.cir := rfl
@[simp] theorem Loc.parkAs_ctx_cira (l : Loc) (p : Park) : (l.parkAs p).ctx.cira = l.ctx.cira := rfl
@[simp] theorem Loc.parkAs_ctx_cnt (l : Loc) (p : Park) : (l.parkAs p).ctx.cnt = l.ctx.cnt := rfl
@[simp] theorem Loc.parkAs_ctx_ntgt (l : Loc) (p : Park) : (l.parkAs p).ctx.ntgt = l.ctx.ntgt := rfl
@[simp] theorem Loc.parkAs_ctx_pc (l : Loc) (p : Park) : (l.parkAs p).ctx.pc = l.ctx.pc := rfl
@[simp] theorem Loc.parkAs_ctx_btgt (l : Loc) (p : Park) : (l.parkAs p).ctx.btgt = l.ctx.btgt := rfl
@[simp] theorem Loc.parkAs_ctx_dleft (l : Loc) (p : Park) : (l.parkAs p).ctx.dleft = l.ctx.dleft := rfl
@[simp] theorem Loc.parkAs_ctx_outbox (l : Loc) (p : Park) : (l.parkAs p).ctx.outbox = l.ctx.outbox := rfl
@[simp] theorem Loc.parkAs_ctx_journal (l : Loc) (p : Park) : (l.parkAs p).ctx.journal = l.ctx.journal := rfl
@[simp] theorem Loc.parkAs_ctx_stq (l : Loc) (p : Park) : (l.parkAs p).ctx.stq = l.ctx.stq := rfl
@[simp] theorem Loc.parkAs_ctx_landed (l : Loc) (p : Park) : (l.parkAs p).ctx.landed = l.ctx.landed := rfl
@[simp] theorem Loc.parkAs_ctx_cmds (l : Loc) (p : Park) : (l.parkAs p).ctx.cmds = l.ctx.cmds := rfl

@[simp] theorem Loc.setA_ctx_a (l : Loc) (v : Quad) (b : Bool) : (l.setA v b).ctx.a = v := rfl
@[simp] theorem Loc.setStat_ctx_stat (l : Loc) (v : Word) : (l.setStat v).ctx.stat = v := rfl
@[simp] theorem Loc.parkAs_ctx_status (l : Loc) (p : Park) : (l.parkAs p).ctx.status = .parked p := rfl

@[simp] theorem putCtx_agenda (s : State) (k : Nat) (c : Ctx) : (putCtx s k c).agenda = s.agenda := rfl
@[simp] theorem putCtx_now (s : State) (k : Nat) (c : Ctx) : (putCtx s k c).now = s.now := rfl
@[simp] theorem putCtx_tick (s : State) (k : Nat) (c : Ctx) : (putCtx s k c).tick = s.tick := rfl
@[simp] theorem putCtx_cur (s : State) (k : Nat) (c : Ctx) : (putCtx s k c).cur = s.cur := rfl
@[simp] theorem putCtx_cores (s : State) (k : Nat) (c : Ctx) : (putCtx s k c).cores = s.cores := rfl
@[simp] theorem putCtx_clus (s : State) (k : Nat) (c : Ctx) : (putCtx s k c).clus = s.clus := rfl
@[simp] theorem putCtx_sects (s : State) (k : Nat) (c : Ctx) : (putCtx s k c).sects = s.sects := rfl
@[simp] theorem putCtx_doms (s : State) (k : Nat) (c : Ctx) : (putCtx s k c).doms = s.doms := rfl
@[simp] theorem putCtx_mem (s : State) (k : Nat) (c : Ctx) : (putCtx s k c).mem = s.mem := rfl
@[simp] theorem putCtx_grans (s : State) (k : Nat) (c : Ctx) : (putCtx s k c).grans = s.grans := rfl
@[simp] theorem putCtx_lines (s : State) (k : Nat) (c : Ctx) : (putCtx s k c).lines = s.lines := rfl
@[simp] theorem putCtx_hostCache (s : State) (k : Nat) (c : Ctx) : (putCtx s k c).hostCache = s.hostCache := rfl
@[simp] theorem putCtx_hub (s : State) (k : Nat) (c : Ctx) : (putCtx s k c).hub = s.hub := rfl

@[simp] theorem putCore_agenda (s : State) (k : Nat) (c : Core) : (putCore s k c).agenda = s.agenda := rfl
@[simp] theorem putCore_now (s : State) (k : Nat) (c : Core) : (putCore s k c).now = s.now := rfl
@[simp] theorem putCore_tick (s : State) (k : Nat) (c : Core) : (putCore s k c).tick = s.tick := rfl
@[simp] theorem putCore_cur (s : State) (k : Nat) (c : Core) : (putCore s k c).cur = s.cur := rfl
@[simp] theorem putCore_ctxs (s : State) (k : Nat) (c : Core) : (putCore s k c).ctxs = s.ctxs := rfl
@[simp] theorem putCore_clus (s : State) (k : Nat) (c : Core) : (putCore s k c).clus = s.clus := rfl
@[simp] theorem putCore_sects (s : State) (k : Nat) (c : Core) : (putCore s k c).sects = s.sects := rfl
@[simp] theorem putCore_doms (s : State) (k : Nat) (c : Core) : (putCore s k c).doms = s.doms := rfl
@[simp] theorem putCore_mem (s : State) (k : Nat) (c : Core) : (putCore s k c).mem = s.mem := rfl
@[simp] theorem putCore_grans (s : State) (k : Nat) (c : Core) : (putCore s k c).grans = s.grans := rfl
@[simp] theorem putCore_lines (s : State) (k : Nat) (c : Core) : (putCore s k c).lines = s.lines := rfl
@[simp] theorem putCore_hostCache (s : State) (k : Nat) (c : Core) : (putCore s k c).hostCache = s.hostCache := rfl
@[simp] theorem putCore_hub (s : State) (k : Nat) (c : Core) : (putCore s k c).hub = s.hub := rfl

@[simp] theorem setLine_agenda (s : State) (k : Nat) (i : LineInfo) : (setLine s k i).agenda = s.agenda := rfl
@[simp] theorem setLine_now (s : State) (k : Nat) (i : LineInfo) : (setLine s k i).now = s.now := rfl
@[simp] theorem setLine_tick (s : State) (k : Nat) (i : LineInfo) : (setLine s k i).tick = s.tick := rfl
@[simp] theorem setLine_cur (s : State) (k : Nat) (i : LineInfo) : (setLine s k i).cur = s.cur := rfl
@[simp] theorem setLine_ctxs (s : State) (k : Nat) (i : LineInfo) : (setLine s k i).ctxs = s.ctxs := rfl
@[simp] theorem setLine_cores (s : State) (k : Nat) (i : LineInfo) : (setLine s k i).cores = s.cores := rfl
@[simp] theorem setLine_clus (s : State) (k : Nat) (i : LineInfo) : (setLine s k i).clus = s.clus := rfl
@[simp] theorem setLine_sects (s : State) (k : Nat) (i : LineInfo) : (setLine s k i).sects = s.sects := rfl
@[simp] theorem setLine_doms (s : State) (k : Nat) (i : LineInfo) : (setLine s k i).doms = s.doms := rfl
@[simp] theorem setLine_mem (s : State) (k : Nat) (i : LineInfo) : (setLine s k i).mem = s.mem := rfl
@[simp] theorem setLine_grans (s : State) (k : Nat) (i : LineInfo) : (setLine s k i).grans = s.grans := rfl
@[simp] theorem setLine_hostCache (s : State) (k : Nat) (i : LineInfo) : (setLine s k i).hostCache = s.hostCache := rfl
@[simp] theorem setLine_hub (s : State) (k : Nat) (i : LineInfo) : (setLine s k i).hub = s.hub := rfl

@[simp] theorem putWork_agenda (s : State) (k : Nat) (w : Work) : (putWork s k w).agenda = s.agenda := rfl
@[simp] theorem putWork_now (s : State) (k : Nat) (w : Work) : (putWork s k w).now = s.now := rfl
@[simp] theorem putWork_tick (s : State) (k : Nat) (w : Work) : (putWork s k w).tick = s.tick := rfl
@[simp] theorem putWork_cur (s : State) (k : Nat) (w : Work) : (putWork s k w).cur = s.cur := rfl
@[simp] theorem putWork_ctxs (s : State) (k : Nat) (w : Work) : (putWork s k w).ctxs = s.ctxs := rfl
@[simp] theorem putWork_cores (s : State) (k : Nat) (w : Work) : (putWork s k w).cores = s.cores := rfl
@[simp] theorem putWork_clus (s : State) (k : Nat) (w : Work) : (putWork s k w).clus = s.clus := rfl
@[simp] theorem putWork_sects (s : State) (k : Nat) (w : Work) : (putWork s k w).sects = s.sects := rfl
@[simp] theorem putWork_doms (s : State) (k : Nat) (w : Work) : (putWork s k w).doms = s.doms := rfl
@[simp] theorem putWork_mem (s : State) (k : Nat) (w : Work) : (putWork s k w).mem = s.mem := rfl
@[simp] theorem putWork_grans (s : State) (k : Nat) (w : Work) : (putWork s k w).grans = s.grans := rfl
@[simp] theorem putWork_lines (s : State) (k : Nat) (w : Work) : (putWork s k w).lines = s.lines := rfl
@[simp] theorem putWork_hostCache (s : State) (k : Nat) (w : Work) : (putWork s k w).hostCache = s.hostCache := rfl

@[simp] theorem wakeScratch_agenda (s : State) (c k : Nat) : (wakeScratch s c k).agenda = s.agenda := rfl
@[simp] theorem wakeScratch_now (s : State) (c k : Nat) : (wakeScratch s c k).now = s.now := rfl
@[simp] theorem wakeScratch_tick (s : State) (c k : Nat) : (wakeScratch s c k).tick = s.tick := rfl
@[simp] theorem wakeScratch_cur (s : State) (c k : Nat) : (wakeScratch s c k).cur = s.cur := rfl
@[simp] theorem wakeScratch_cores (s : State) (c k : Nat) : (wakeScratch s c k).cores = s.cores := rfl
@[simp] theorem wakeScratch_clus (s : State) (c k : Nat) : (wakeScratch s c k).clus = s.clus := rfl
@[simp] theorem wakeScratch_sects (s : State) (c k : Nat) : (wakeScratch s c k).sects = s.sects := rfl
@[simp] theorem wakeScratch_doms (s : State) (c k : Nat) : (wakeScratch s c k).doms = s.doms := rfl
@[simp] theorem wakeScratch_mem (s : State) (c k : Nat) : (wakeScratch s c k).mem = s.mem := rfl
@[simp] theorem wakeScratch_grans (s : State) (c k : Nat) : (wakeScratch s c k).grans = s.grans := rfl
@[simp] theorem wakeScratch_lines (s : State) (c k : Nat) : (wakeScratch s c k).lines = s.lines := rfl
@[simp] theorem wakeScratch_hostCache (s : State) (c k : Nat) : (wakeScratch s c k).hostCache = s.hostCache := rfl
@[simp] theorem wakeScratch_hub (s : State) (c k : Nat) : (wakeScratch s c k).hub = s.hub := rfl

theorem putCtx_get (s : State) (k j : Nat) (c : Ctx) : (putCtx s k c).ctx j = if j = k then c else s.ctx j := mget_mset _ _ _ _ _

theorem putCore_get (s : State) (k j : Nat) (c : Core) : coreAt (putCore s k c) j = if j = k then c else coreAt s j := mget_mset _ _ _ _ _

theorem setLine_get (s : State) (k j : Nat) (i : LineInfo) : lineInfo (setLine s k i) j = if j = k then i else lineInfo s j :=
  mget_mset _ _ _ _ _

/-- What a fold of wakes keeps, a writing back keeps. -/
theorem putLoc_keeps {β : Type} (f : State → β) (hw : ∀ s c k, f (wakeScratch s c k) = f s) (s : State) (l : Loc) :
    f (s.putLoc l) = f { s with
      ctxs := mset emptyCtx s.ctxs l.cid l.ctx, cores := mset emptyCore s.cores (coreOfCid l.cid) l.core
      clus := mset emptyCluster s.clus (clusOfCore (coreOfCid l.cid)) l.clus
      sects := mset emptySector s.sects (sectOfCore (coreOfCid l.cid)) l.sect
      doms := mset emptyDomain s.doms (domOfCore (coreOfCid l.cid)) l.dom, hub := l.hub, tick := l.tick } := by
  unfold State.putLoc
  generalize l.wakes = ks
  simp only
  generalize ({ s with
      ctxs := mset emptyCtx s.ctxs l.cid l.ctx, cores := mset emptyCore s.cores (coreOfCid l.cid) l.core
      clus := mset emptyCluster s.clus (clusOfCore (coreOfCid l.cid)) l.clus
      sects := mset emptySector s.sects (sectOfCore (coreOfCid l.cid)) l.sect
      doms := mset emptyDomain s.doms (domOfCore (coreOfCid l.cid)) l.dom, hub := l.hub, tick := l.tick } : State) = t
  induction ks generalizing t with
  | nil => rfl
  | cons k ks ih => simp only [List.foldl_cons]; rw [ih, hw]

@[simp] theorem putLoc_mem (s : State) (l : Loc) : (s.putLoc l).mem = s.mem := putLoc_keeps (fun s => s.mem) (fun _ _ _ => rfl) s l
@[simp] theorem putLoc_grans (s : State) (l : Loc) : (s.putLoc l).grans = s.grans := putLoc_keeps (fun s => s.grans) (fun _ _ _ => rfl) s l
@[simp] theorem putLoc_lines (s : State) (l : Loc) : (s.putLoc l).lines = s.lines := putLoc_keeps (fun s => s.lines) (fun _ _ _ => rfl) s l
@[simp] theorem putLoc_hostCache (s : State) (l : Loc) : (s.putLoc l).hostCache = s.hostCache := putLoc_keeps (fun s => s.hostCache) (fun _ _ _ => rfl) s l
@[simp] theorem putLoc_agenda (s : State) (l : Loc) : (s.putLoc l).agenda = s.agenda := putLoc_keeps (fun s => s.agenda) (fun _ _ _ => rfl) s l
@[simp] theorem putLoc_now (s : State) (l : Loc) : (s.putLoc l).now = s.now := putLoc_keeps (fun s => s.now) (fun _ _ _ => rfl) s l
@[simp] theorem putLoc_cur (s : State) (l : Loc) : (s.putLoc l).cur = s.cur := putLoc_keeps (fun s => s.cur) (fun _ _ _ => rfl) s l
@[simp] theorem putLoc_hub (s : State) (l : Loc) : (s.putLoc l).hub = l.hub := putLoc_keeps (fun s => s.hub) (fun _ _ _ => rfl) s l
@[simp] theorem putLoc_tick (s : State) (l : Loc) : (s.putLoc l).tick = l.tick := putLoc_keeps (fun s => s.tick) (fun _ _ _ => rfl) s l

/-- The core of the context, and every other core, after a writing back. -/
theorem putLoc_core (s : State) (l : Loc) (k : Nat) :
    mget emptyCore (s.putLoc l).cores k = if k = coreOfCid l.cid then l.core else mget emptyCore s.cores k := by
  rw [putLoc_keeps (fun s => mget emptyCore s.cores k) (fun _ _ _ => rfl) s l]
  exact mget_mset _ _ _ _ _

/-- A wake touches no more of a context than the mark of its wait. -/
theorem wakeCtx_alike (hit : WaitaReq → Bool) (c : Ctx) : Ctx.alike c (wakeCtx hit c) := by
  unfold Ctx.alike wakeCtx
  split
  · split <;> rfl
  · rfl

end Sys2Proof.Machine
end

