-- ==== Sys2Proof/Tests/Slice0.lean ====
section
/-! SUPPORT. Tests: words of the spec's encodings, ill-formed terms, steps worked out by hand, and a witness for every statement. -/
namespace Sys2Proof.Tests
open Sys2Proof Sys2Proof.Machine

-- One theorem after another: tests that wait for each other hold a thread, and its stack, each.
set_option Elab.async false

/-! ## Words written out from the formats of R110 and R116, the opcode map R135 and the entries' fields (R155-R284) -/

/-- M3: OPC, VW, PRD, D, S1, S2, X. -/
def m3 (o : BitVec 8) (v p : BitVec 4) (d s1 s2 x : BitVec 20) : BitVec 96 := o ++ v ++ p ++ d ++ s1 ++ s2 ++ x

/-- MI: OPC, VW, PRD, D, X12, IMM48. -/
def mi (o : BitVec 8) (v p : BitVec 4) (d : BitVec 20) (x : BitVec 12) (imm : BitVec 48) : BitVec 96 := o ++ v ++ p ++ d ++ x ++ imm

/-- BR: OPC, VW, PRD, OFF32, LNK. -/
def brF (o : BitVec 8) (p : BitVec 4) (off : BitVec 32) (lnk : BitVec 4) : BitVec 96 := o ++ 0#4 ++ p ++ off ++ lnk ++ 0#44

/-- EN: OPC, PRD, PA, PB, QSEL, S1, X44. -/
def enF (o : BitVec 8) (p pa pb q : BitVec 4) (s1 : BitVec 20) (x : BitVec 44) : BitVec 96 := o ++ 0#4 ++ p ++ pa ++ pb ++ 0#4 ++ q ++ s1 ++ x

/-- SY: OPC, PRD, D, S1, SREG. -/
def syF (o : BitVec 8) (p : BitVec 4) (d s1 : BitVec 20) (r : BitVec 16) : BitVec 96 := o ++ 0#4 ++ p ++ d ++ s1 ++ r ++ 0#24

/-- Every word decodes to the instruction beside it, and that instruction encodes to the word. -/
def agree (l : List (BitVec 96 × Instr)) : Bool := l.all (fun e => (decode e.1).toOption == some e.2 && encode e.2 == e.1)

/-- Moves, addition, multiplication and logic (R112, R132, R155). -/
theorem test_decode_scalar : agree [
    (0, .nop),
    (mi 0x01 0 0 0 0 0xB102, .fmt 0xB102),
    (m3 0x10 1 1 0x84000 0x28003 0 0, .mov .h .eq (.preg 1) (.mem 2 3)),
    (mi 0x11 3 0 0x84000 0 0x1234, .movi .d .al (.preg 1) 0x1234),
    (0x113084000000000000001234, .movi .d .al (.preg 1) 0x1234),
    (mi 0x12 3 5 0x98000 0 0xBEEF, .movhi .le (.preg 6) 0xBEEF),
    (m3 0x13 2 2 0x9C000 0x74008 0 0, .lea .w .ne (.preg 7) (.pre 5 8)),
    (m3 0x14 3 3 0x84000 0x2FFFF 0xC3FFE 0, .add .d .lt (.preg 1) (.mem 3 0x3FFF) (.imm 0x3FFE)),
    (m3 0x15 1 4 0x84000 0x2FFFF 0xC3FFE 0, .sub .h .ge (.preg 1) (.mem 3 0x3FFF) (.imm 0x3FFE)),
    (m3 0x16 2 6 0x84000 0x2FFFF 0xC3FFE 0, .adc .w .gt (.preg 1) (.mem 3 0x3FFF) (.imm 0x3FFE)),
    (m3 0x17 0 7 0x84000 0x2FFFF 0xC3FFE 0, .sbc .b .lo (.preg 1) (.mem 3 0x3FFF) (.imm 0x3FFE)),
    (m3 0x18 1 8 0x28003 0x98000 0xA0029 0, .mul .h .hs (.mem 2 3) (.preg 6) (.chan 9 true)),
    (m3 0x19 2 9 0x50010 0x00000 0xE4000 0x80000, .mulh .w .mi true (.post 4 16) .acc .ones),
    (m3 0x1A 3 10 0x00000 0x84000 0xC0007 0, .div .d .pl false .acc (.preg 1) (.imm 7)),
    (m3 0x1B 0 11 0x80000 0xE0000 0x9C000 0x80000, .rem .b .vs true (.preg 0) .zeros (.preg 7)),
    (m3 0x1C 0 12 0x28003 0x50010 0xC3FFE 0, .and .b .vc (.mem 2 3) (.post 4 16) (.imm 0x3FFE)),
    (m3 0x1D 1 13 0x28003 0x50010 0xC3FFE 0, .or .h .gs (.mem 2 3) (.post 4 16) (.imm 0x3FFE)),
    (m3 0x1E 2 14 0x28003 0x50010 0xC3FFE 0, .xor .w .gc (.mem 2 3) (.post 4 16) (.imm 0x3FFE)),
    (m3 0x1F 4 0 0x28003 0x50010 0xC3FFE 0, .andn .q .al (.mem 2 3) (.post 4 16) (.imm 0x3FFE))] = true := by decide

/-- Shifts, counts, comparisons and fields (R155). -/
theorem test_decode_shiftAndCount : agree [
    (m3 0x20 0 0 0x84000 0x98000 0xC0007 0, .shl .b .al (.preg 1) (.preg 6) (.imm 7)),
    (m3 0x21 1 0 0x84000 0x98000 0xC0007 0, .shr .h .al (.preg 1) (.preg 6) (.imm 7)),
    (m3 0x22 2 0 0x84000 0x98000 0xC0007 0, .sar .w .al (.preg 1) (.preg 6) (.imm 7)),
    (m3 0x23 3 0 0x84000 0x98000 0xC0007 0, .rol .d .al (.preg 1) (.preg 6) (.imm 7)),
    (m3 0x24 1 1 0x00000 0x28003 0 0, .clz .h .eq .acc (.mem 2 3)),
    (m3 0x25 2 1 0x00000 0x28003 0 0, .ctz .w .eq .acc (.mem 2 3)),
    (m3 0x26 4 1 0x00000 0x28003 0 0, .popc .q .eq .acc (.mem 2 3)),
    (m3 0x27 3 0 0 0x84000 0x98000 0, .cmp .d .al (.preg 1) (.preg 6)),
    (m3 0x28 4 0 0 0x00000 0x28003 0, .tst .q .al .acc (.mem 2 3)),
    (m3 0x29 2 0 0x84000 0x98000 0x9C000 0x80000, .min .w .al true (.preg 1) (.preg 6) (.preg 7)),
    (m3 0x2A 2 0 0x84000 0x98000 0x9C000 0, .max .w .al false (.preg 1) (.preg 6) (.preg 7)),
    (m3 0x2B 3 0 0x84000 0x98000 0x9C000 14, .sel .d .al (.preg 1) (.preg 6) (.preg 7) .gc),
    (m3 0x2C 1 0 0x84000 0x98000 0 0x11C8, .ext .h .al (.preg 1) (.preg 6) true 7 8),
    (m3 0x2D 3 0 0x84000 0x98000 0 0x141, .ins .d .al (.preg 1) (.preg 6) 5 1),
    (m3 0x2E 3 2 0x84000 0x98000 0xC0007 0, .spc .ne (.preg 1) (.preg 6) (.imm 7))] = true := by decide

/-- Vectors (R166-R171). -/
theorem test_decode_vector : agree [
    (m3 0x30 0 0 0x00000 0x28003 0xA0005 0, .vadd .b .al .acc (.mem 2 3) (.chan 5 false)),
    (m3 0x31 1 0 0x00000 0x28003 0xA0005 0, .vsub .h .al .acc (.mem 2 3) (.chan 5 false)),
    (m3 0x32 2 0 0x00000 0x28003 0xC3FFE 0x80000, .vadds .w .al true .acc (.mem 2 3) (.imm 0x3FFE)),
    (m3 0x33 3 0 0x00000 0x28003 0xC3FFE 0, .vsubs .d .al false .acc (.mem 2 3) (.imm 0x3FFE)),
    (m3 0x34 0 0 0x28003 0x50010 0xE8000 0, .vmul .b .al (.mem 2 3) (.post 4 16) .lanes),
    (m3 0x35 1 0 0x00000 0x00000 0x28003 0x80000, .vmulh .h .al true .acc .acc (.mem 2 3)),
    (m3 0x36 2 1 0x00000 0x28003 0x2FFFF 0, .vmac .w .eq .acc (.mem 2 3) (.mem 3 0x3FFF)),
    (m3 0x37 2 0 0 0x28003 0xE4000 0x80000, .vdot .al true .acc (.mem 2 3) .ones),
    (m3 0x38 3 0 0x00000 0x28003 0xC3FFE 0, .vmin .d .al false .acc (.mem 2 3) (.imm 0x3FFE)),
    (m3 0x39 3 0 0x00000 0x28003 0xC3FFE 0x80000, .vmax .d .al true .acc (.mem 2 3) (.imm 0x3FFE)),
    (m3 0x3A 0 0 0x00000 0x28003 0 0, .vabs .b .al .acc (.mem 2 3)),
    (m3 0x3B 1 0 0x28003 0x00000 0 0, .vneg .h .al (.mem 2 3) .acc),
    (m3 0x3C 5 0 0x00000 0x28003 0xC3FFE 0, .vand .bf .al .acc (.mem 2 3) (.imm 0x3FFE)),
    (m3 0x3D 4 0 0x00000 0x28003 0xC3FFE 0, .vor .q .al .acc (.mem 2 3) (.imm 0x3FFE)),
    (m3 0x3E 7 0 0x00000 0x28003 0xC3FFE 0, .vxor .g .al .acc (.mem 2 3) (.imm 0x3FFE)),
    (m3 0x3F 0 0 0x00000 0x28003 0xC0007 0, .vshl .b .al .acc (.mem 2 3) (.imm 7)),
    (m3 0x40 1 0 0x00000 0x28003 0xC0007 0, .vshr .h .al .acc (.mem 2 3) (.imm 7)),
    (m3 0x41 2 0 0x00000 0x28003 0xC0007 0, .vsar .w .al .acc (.mem 2 3) (.imm 7)),
    (m3 0x42 3 0 0x00000 0x28003 0xC3FFE 9, .vcmp .d .al .acc (.mem 2 3) (.imm 0x3FFE) .hs),
    (m3 0x43 6 0 0 0x28003 0xC3FFE 0x50010, .vsel .f .al .acc (.mem 2 3) (.imm 0x3FFE) (.post 4 16)),
    (m3 0x44 0 0 0x00000 0x28003 0xE8000 0, .vshuf .b .al .acc (.mem 2 3) .lanes),
    (m3 0x45 1 0 0x00000 0x28003 0 6, .vbcast .h .al .acc (.mem 2 3) 6),
    (m3 0x46 2 0 0x00000 0x28003 0 4, .vred .w .al .acc (.mem 2 3) .umax)] = true := by decide

/-- Conversions and floating point (R172-R180). -/
theorem test_decode_float : agree [
    (m3 0x47 6 0 0x00000 0x2FFFF 0 0, .vcvt .f .al .acc (.mem 3 0x3FFF)),
    (m3 0x48 0 0 0x00000 0x28003 0x00000 0x80000, .vnarr .b .al true .acc (.mem 2 3) .acc),
    (m3 0x49 2 0 0x00000 0x28003 0 1, .vwide .w .al false true .acc (.mem 2 3)),
    (m3 0x4A 5 0 0x00000 0x28003 0xC3FFE 0, .vfadd .bf .al .acc (.mem 2 3) (.imm 0x3FFE)),
    (m3 0x4B 6 0 0x00000 0x28003 0xC3FFE 0, .vfsub .f .al .acc (.mem 2 3) (.imm 0x3FFE)),
    (m3 0x4C 7 0 0x00000 0x28003 0xC3FFE 0, .vfmul .g .al .acc (.mem 2 3) (.imm 0x3FFE)),
    (m3 0x4D 6 0 0x00000 0x28003 0xA0005 2, .vfma .f .al false true .acc (.mem 2 3) (.chan 5 false)),
    (m3 0x4E 7 0 0x00000 0x28003 0x00000 0, .vfdiv .g .al .acc (.mem 2 3) .acc),
    (m3 0x4F 6 0 0x00000 0x28003 0 0, .vfsqrt .f .al .acc (.mem 2 3)),
    (m3 0x50 6 0 0x00000 0x28003 0x00000 0, .vfmin .f .al .acc (.mem 2 3) .acc),
    (m3 0x51 5 0 0x00000 0x28003 0x00000 0, .vfmax .bf .al .acc (.mem 2 3) .acc),
    (m3 0x52 7 0 0x00000 0x28003 0x00000 7, .vfcmp .g .al .acc (.mem 2 3) .acc .ord),
    (m3 0x53 6 0 0x28003 0x00000 0 0, .vfrcp .f .al (.mem 2 3) .acc),
    (m3 0x54 5 0 0x28003 0x00000 0 0, .vfrsq .bf .al (.mem 2 3) .acc),
    (m3 0x55 7 0 0x28003 0x00000 0 0, .vfexp2 .g .al (.mem 2 3) .acc),
    (m3 0x56 6 0 0x28003 0x00000 0 0, .vflog2 .f .al (.mem 2 3) .acc),
    (m3 0x57 5 0 0x28003 0x00000 0 0, .vfrnd .bf .al (.mem 2 3) .acc),
    (m3 0x58 7 0 0x28003 0x00000 0 0, .vfcls .g .al (.mem 2 3) .acc)] = true := by decide

/-- Long multiplication and bit planes (R181-R189). -/
theorem test_decode_longMultiply : agree [
    (m3 0x60 4 0 0x00000 0x28003 0 0x1E85, .pack .q .al true .w4 16 15 .acc (.mem 2 3)),
    (m3 0x61 0 0 0x00000 0x28003 0 0x30240, .extr .b .al false true true 8 1 .acc (.mem 2 3)),
    (m3 0x62 3 0 0x84000 0x98000 0x9C000 0x10084, .pmul .d .al true true .w2 16 (.preg 1) (.preg 6) (.preg 7)),
    (m3 0x63 3 0 0x84000 0x98000 0 0x0042, .gchk .al false .w8 8 (.preg 1) (.preg 6)),
    (m3 0x64 0 0 0 0x28003 0x98000 0xC0007, .bprd .b .al .acc (.mem 2 3) (.preg 6) (.imm 7)),
    (m3 0x65 6 0 0x28003 0 0x98000 0xC3FFE, .bpwr .f .al (.mem 2 3) .acc (.preg 6) (.imm 0x3FFE)),
    (m3 0x66 5 0 0x00000 0x28003 0x84000 0, .scale .bf .al .acc (.mem 2 3) (.preg 1)),
    (m3 0x67 7 0 0x84000 0x28003 0x98000 0, .bexp .g .al (.preg 1) (.mem 2 3) (.preg 6))] = true := by decide

/-- Control (R119-R121, R191). -/
theorem test_decode_control : agree [
    (brF 0x70 2 0xFFFFFFFD 8, .br .ne 0xFFFFFFFD none),
    (brF 0x70 0 5 3, .br .al 5 (some 3)),
    (brF 0x71 1 0x12345678 6, .call .eq 0x12345678 6),
    (m3 0x72 0 0 0 0x9C000 0 0, .jmp .al (.preg 7)),
    (m3 0x73 0 0 0x84000 0x28003 0 0, .jmpl .al (.preg 1) (.mem 2 3)),
    (0x74#8 ++ 0#8 ++ 0x98000#20 ++ 9#32 ++ 0#28, .loop (.preg 6) 9),
    (m3 0x75 0 0 0 0x98000 0 0, .rep (.preg 6)),
    (m3 0x80 0 0 0 0 0 0, .endF .al),
    (mi 0x81 0 0 0 0 0x31F4, .yield .al 3 500),
    (mi 0x82 0 0 0 0 0xFC0FFF, .wait .al 0xFC0FFF)] = true := by decide

/-- Tokens, checks and drifts (R191). -/
theorem test_decode_tokens : agree [
    (m3 0x83 0 0 0 0x28003 0x98000 0x2B, .send .al (.mem 2 3) (.preg 6) (some 11)),
    (m3 0x83 0 0 0 0x00000 0xC0007 0, .send .al .acc (.imm 7) none),
    (m3 0x84 0 0 0 0x00000 0 0x1A, .sendn .al .acc 6 .up),
    (m3 0x85 0 0 0x84000 0xA0005 0 0, .recv .al (.preg 1) (.chan 5 false)),
    (m3 0x86 0 0 0x84000 0xC0007 0 0, .chst .al (.preg 1) (.imm 7)),
    (m3 0x87 0 0 0 0x28003 0x98000 0, .bind .al (.mem 2 3) (.preg 6)),
    (m3 0x88 0 0 0 0xC0007 0 0, .unbind .al (.imm 7)),
    (m3 0x89 0 0 0x84000 0x98000 0xC0007 0x9C000, .rfork .al (.preg 1) (.preg 6) (.imm 7) (.preg 7)),
    (m3 0x8A 0 0 0x84000 0xC0007 0 0, .join .al (.preg 1) (.imm 7)),
    (m3 0x8B 0 1 0 0 0 0, .trig .eq),
    (m3 0x8C 0 0 0 0xC0007 0x98000 0, .prio .al (.imm 7) (.preg 6)),
    (m3 0xC0 0 0 0x84000 0 0 1, .chkerr .al (.preg 1) true),
    (m3 0xC1 0 0 0x84000 0 0 3, .seal .al (.preg 1) true true),
    (m3 0xC1 0 0 0 0 0 1, .seal .al .acc false true),
    (m3 0xC2 0 0 0x84000 0 0 0, .drift .al (.preg 1))] = true := by decide

/-- System (R122, R191). -/
theorem test_decode_system : agree [
    (mi 0xC8 0 0 0 0 0x0100, .trap .al 0x0100),
    (m3 0xC9 0 0 0 0 0 0, .rti .al),
    (syF 0xCA 0 0x84000 0 0x11, .mfs .al (.preg 1) 0x11),
    (syF 0xCB 3 0 0x98000 0x1002, .mts .lt (.preg 6) 0x1002),
    (m3 0xCC 0 0 0 0x84000 0x98000 2, .tlbi .al (.preg 1) (.preg 6) .nonglobal),
    (m3 0xCD 0 0 0 0x84000 0x98000 0x181, .ctxsv .al (.preg 1) (.preg 6) 0x181),
    (m3 0xCE 0 0 0 0x84000 0x98000 0, .ctxld .al (.preg 1) (.preg 6)),
    (m3 0xCF 0 0 0 0 0 0, .idle .al),
    (m3 0xD0 0 0 0 0xC0007 0 1, .sigh .al (.imm 7) true),
    (m3 0xD1 0 0 0 0x84000 0x98000 0, .replay .al (.preg 1) (.preg 6)),
    (m3 0xD2 0 0 0 0x84000 0 1, .killf .al (.preg 1) true),
    (m3 0xD3 0 0 0 0x84000 0x98000 0, .place .al (.preg 1) (.preg 6))] = true := by decide

/-- Memory and atomics (R242). -/
theorem test_decode_memory : agree [
    (m3 0x90 2 0 0x84000 0x28003 0 0x20, .ld .w .al true (.preg 1) (.mem 2 3)),
    (m3 0x91 3 0 0x50010 0x98000 0 0x35, .st .d .al true .rel .sys (.post 4 16) (.preg 6)),
    (m3 0x92 0 0 0x84000 0x28003 0 0x2C, .lda .b .al true .acq .dev (.preg 1) (.mem 2 3)),
    (m3 0x93 1 0 0x28003 0x98000 0 0x12, .stl .h .al .rel .sect (.mem 2 3) (.preg 6)),
    (m3 0x94 3 0 0x84000 0x98000 0x9C000 0, .bmov .d .al (.preg 1) (.preg 6) (.preg 7)),
    (m3 0x95 0 0 0 0x28003 0 0x1E0, .pref .al (.mem 2 3) 7 true),
    (m3 0x96 2 0 0x84000 0x28003 0x98000 0x3D, .aadd .w .al true .ar .sys (.preg 1) (.mem 2 3) (.preg 6)),
    (m3 0x97 3 0 0x00000 0x28003 0xC3FFE 0x08, .aand .d .al .acq .core .acc (.mem 2 3) (.imm 0x3FFE)),
    (m3 0x98 3 0 0x00000 0x28003 0xC3FFE 0x13, .aor .d .al .rel .dom .acc (.mem 2 3) (.imm 0x3FFE)),
    (m3 0x99 3 0 0x00000 0x28003 0xC3FFE 0x04, .axor .d .al .rlx .dev .acc (.mem 2 3) (.imm 0x3FFE)),
    (m3 0x9A 2 0 0x84000 0x28003 0x98000 0x41, .amin .w .al true .rlx .clus (.preg 1) (.mem 2 3) (.preg 6)),
    (m3 0x9B 2 0 0x84000 0x28003 0x98000 0x01, .amax .w .al false .rlx .clus (.preg 1) (.mem 2 3) (.preg 6)),
    (m3 0x9C 3 0 0x84000 0x28003 0x98000 0x05, .aswp .d .al .rlx .sys (.preg 1) (.mem 2 3) (.preg 6)),
    (m3 0x9D 3 0 0x84000 0x28003 0x98000 0x1C, .acas .d .al .ar .dev (.preg 1) (.mem 2 3) (.preg 6)),
    (m3 0x9E 2 0 0x84000 0x28003 0x98000 0x3EC, .waita .w .al 31 .acq .dev (.preg 1) (.mem 2 3) (.preg 6)),
    (m3 0x9F 0 0 0 0 0 0x1D, .fence .al .ar .sys),
    (m3 0xA0 0 0 0x90000 0xC0007 0 0x2A0, .rst .al true .add .w4 4 (.imm 7)),
    (m3 0xA1 0 0 0 0x98000 0 0, .l1inv .al (.preg 6) false),
    (m3 0xA1 0 0 0 0 0 0x20, .l1inv .al .acc true)] = true := by decide

/-- Engines (R121, R267, R278-R284). -/
theorem test_decode_engines : agree [
    (enF 0xB0 0 2 4 0 0x84000 0xA1, .copy .al .q0 2 4 (some (.preg 1)) true true false),
    (enF 0xB0 0 6 0 3 0 0x10, .copy .al .q3 6 0 none false false true),
    (enF 0xB1 0 2 4 1 0x28003 0x80, .copyt .al .q1 2 4 (.mem 2 3) true false false),
    (enF 0xB2 1 4 0 2 0 0, .tcfg .eq 4),
    (m3 0xB3 0 0 0 0 0 0, .trel .al),
    (enF 0xB4 0 6 0 2 0x98000 0x19, .tldb .al 6 (.preg 6) true 9),
    (enF 0xB5 0 0 0 2 0xC0007 0xC0C8A6, .tmul .al 0 (.imm 7) true true 50 20 true .sub),
    (enF 0xB6 0 2 4 2 0xC0007 0x420E86, .tpoly .al 2 4 (.imm 7) true 131 true 16 true .carry),
    (enF 0xB7 0 0 0 2 0x98000 0x1BF03, .tdrn .al (.preg 6) true 191 3),
    (m3 0xB8 0 0 0 0 0 0xB, .qfence .al 11),
    (m3 0xB9 0 0 0 0x98000 0 0, .dist .al (.preg 6))] = true := by decide


/-- Words that a check refuses: fault 0x01 (`true`) or fault 0x02 (`false`). -/
def rejects (l : List (BitVec 96 × Bool)) : Bool :=
  l.all (fun e => match decode e.1 with
    | .error .unassigned => e.2
    | .error (.reserved _) => !e.2
    | .ok _ => false)

/-- R110-R122, R86. Fields that break a rule of the format: OPC 0 with a bit, VW 8 and a view of another entry, PRD 15, LNK 9, a LOOP with a
predicate, descriptors with a field that must be zero, KIND 7 with N 3, a destination of KIND 5, 6, 7, an unused field, a scope of 6. -/
theorem test_words_refused_by_format : rejects [
    (1, false), (m3 0x14 8 0 0x84000 0x98000 0xC0007 0, true), (m3 0x18 4 0 0 0 0 0, true), (m3 0x80 1 0 0 0 0 0, true),
    (m3 0x14 3 15 0x84000 0x98000 0xC0007 0, true), (brF 0x70 0 5 9, true), (brF 0x71 0 5 8, true), (brF 0x70 0 5 3 ||| 1, false),
    (0x740#12 ++ 1#4 ++ 0x98000#20 ++ 9#32 ++ 0#28, true), (mi 0x01 0 1 0 0 0xB102, true), (mi 0x01 0 0 0 0 0xE000, true),
    (mi 0x01 0 0 0 0 0x10000, false), (m3 0x14 3 0 0x84001 0x98000 0xC0007 0, false), (m3 0x14 3 0 0x84000 0x04000 0xC0007 0, false),
    (m3 0x14 3 0 0x84000 0x98000 0xC4007 0, false), (m3 0x14 3 0 0x84000 0xA4005 0xC0007 0, false), (m3 0x14 3 0 0x84000 0xE0001 0xC0007 0, false),
    (m3 0x14 3 0 0x84000 0xEC000 0xC0007 0, true), (m3 0x14 3 0 0xA0005 0x98000 0xC0007 0, true), (m3 0x14 3 0 0xC0005 0x98000 0xC0007 0, true),
    (m3 0x14 3 0 0xE0000 0x98000 0xC0007 0, true), (m3 0x14 3 0 0x84000 0x98000 0xC0007 1, false), (m3 0x10 3 0 0x84000 0x98000 0xC0007 0, false),
    (m3 0x27 3 0 0x84000 0x98000 0xC0007 0, false), (m3 0x97 3 0 0 0x28003 0xC0007 6, true), (m3 0x97 3 0 0 0x28003 0xC0007 0x20, false),
    (mi 0x12 0 0 0x84000 0 5, true), (enF 0xB0 0 2 4 2 0x84000 1, true), (enF 0xB4 0 6 0 1 0x98000 0x19, true), (enF 0xB4 0 6 2 2 0x98000 0x19, false),
    (syF 0xCA 0 0x84000 0x98000 0x11, false), (syF 0xCB 0 0x84000 0x98000 0x0, false), (m3 0x42 3 0 0 0x28003 0xC3FFE 10, true),
    (m3 0x60 4 0 0 0x28003 0 0x1E87, true), (m3 0xA0 0 0 0x90000 0xC0007 0 0x60, true), (enF 0xB5 0 0 0 2 0xC0007 3, true),
    (enF 0xB6 0 2 4 2 0xC0007 0x83, true), (enF 0xB1 0 2 4 1 0x28003 0x81, false)] = true := by decide

/-- R111, R144, R166, R172, R181, R190-R192, R242. A term that breaks each check of `fieldsOk` is refused. -/
theorem test_ill_formed_fields : [
    Instr.fmt 0xE000, .mov .f .al .acc .acc, .mov .d .al (.imm 3) .acc, .mov .q .al (.preg 1) .acc, .clz .g .al .acc .acc, .movi .bf .al .acc 1,
    .movhi .al .zeros 1, .lea .d .al .acc (.preg 1), .lea .d .al (.post 1 0) (.post 1 0), .add .f .al .acc .acc .acc, .add .q .al .acc (.preg 1) .acc,
    .add .d .al .acc (.post 1 1) (.pre 1 1), .add .d .al .acc (.chan 0 false) (.chan 1 false), .mul .q .al .acc .acc .acc, .cmp .f .al .acc .acc,
    .ext .b .al .acc .acc true 7 1, .ins .q .al .acc .acc 0 0, .spc .al (.chan 0 true) .acc .acc, .vadd .q .al .acc .acc .acc,
    .vadd .d .al .acc (.preg 1) .acc, .vdot .al true .acc .acc (.preg 1), .vabs .f .al .acc .acc, .vand .b .al .ones .acc .acc,
    .vsel .b .al .acc .acc .acc (.preg 2), .vbcast .q .al .acc .acc 0, .vbcast .d .al .acc .acc 2, .vred .f .al .acc .acc .add, .vred .d .al .acc .acc .fadd,
    .vcvt .b .al .acc .acc, .vnarr .d .al true .acc .acc .acc, .vwide .b .al true true .acc .acc, .vfadd .w .al .acc .acc .acc,
    .vfsqrt .d .al .acc .acc, .pack .w .al true .w2 4 0 .acc .acc, .pack .d .al true .w2 1 0 .acc .acc, .pack .d .al true .w8 8 16 .acc .acc,
    .extr .b .al true true true 9 0 .acc .acc, .pmul .b .al true true .w2 8 .acc .acc .acc, .pmul .d .al true true .w8 15 .acc .acc .acc,
    .gchk .al true .w2 33 .acc .acc, .bprd .w .al .acc (.mem 0 0) .acc .acc, .bprd .b .al .acc .acc .acc .acc, .bpwr .g .al (.mem 0 0) .acc .acc .acc,
    .scale .d .al .acc .acc .acc, .bexp .d .al .acc .acc .acc, .jmpl .al (.imm 0) .acc, .loop .acc 5, .loop (.imm 5) 0, .loop (.imm 5) 0x80000000,
    .rep (.imm 1), .yield .al 0 0, .send .al (.preg 1) .acc none, .sendn .al (.preg 1) 0 .nx, .recv .al .acc (.chan 0 false), .recv .al (.preg 1) .acc,
    .chst .al .ones .acc, .bind .al .acc .acc, .rfork .al .acc .acc .acc .acc, .join .al .acc .acc, .chkerr .al .ones true, .seal .al .ones true true,
    .mfs .al .acc 0x7, .mfs .al .zeros 0x0, .mts .al .acc 0x5, .ld .d .al true .ones (.mem 0 0), .ld .d .al true .acc .acc, .ld .f .al false (.preg 0) (.mem 0 0),
    .st .d .al true .acq .dev (.mem 0 0) .acc, .st .d .al true .rel .dev .acc .acc, .st .f .al true .rel .dev (.mem 0 0) (.preg 1),
    .lda .f .al true .acq .dev .acc (.mem 0 0), .lda .d .al true .rel .dev .acc (.mem 0 0), .stl .d .al .acq .dev (.mem 0 0) .acc,
    .stl .q .al .rel .dev (.mem 0 0) (.preg 1), .bmov .d .al (.preg 1) (.preg 1) (.preg 2), .pref .al .acc 0 true, .aadd .b .al true .ar .dev .acc (.mem 0 0) .acc,
    .acas .d .al .ar .dev .acc .acc .acc, .waita .d .al 0 .rel .dev .acc (.mem 0 0) .acc, .fence .al .rlx .dev, .copyt .al .q0 0 0 .acc true true true,
    .qfence .al 0].all (fun i => !fieldsOk i && !wellFormed i) = true := by decide

/-- R111, R170, R181, R242, R255, R260, R226. A term whose unused field is not zero is refused. -/
theorem test_ill_formed_unused_fields : [
    Instr.vbcast .d .al .acc (.imm 3) 1, .pmul .d .al true false .w2 0 .acc .acc .acc, .pmul .d .al false false .w4 0 .acc .acc .acc,
    .pmul .d .al false false .w2 4 .acc .acc .acc, .ld .d .al true (.mem 1 0) (.mem 0 0), .rst .al true .st .w2 0 .acc, .l1inv .al (.preg 1) true,
    .seal .al (.preg 1) false true].all (fun i => fieldsOk i && !unusedOk i && !wellFormed i) = true := by decide

/-! ## Small states -/

/-- A context that issues at slot 0 in user mode, with a deadline of 100 and these registers. -/
def base : Ctx :=
  { emptyCtx with status := .issuing, dleft := 100, a := 5, p := #v[7, 0xFFFF, 0x1000000000000040, 0x4000000000000040, 4, 0, 6, 0x8000000000000000] }

/-- The machine after reset with one context. -/
def at_ (cid : Nat) (c : Ctx) : State := { State.reset with cur := cid, ctxs := [(cid, c)] }

/-- PRIV 1, DS, LPD and GOE of STAT (R89). -/
def boss : Word := 0x80000000000
/-- A context of user mode on core 0. -/
def user : State := at_ 3 base
/-- The same in supervisor mode. -/
def super : State := at_ 3 { base with stat := boss }
/-- The same in machine mode. -/
def machine : State := at_ 3 { base with stat := 0x100000000000 }
/-- The same with another STAT. -/
def withStat (st : Word) : State := at_ 3 { base with stat := st }

/-- The next state of an instruction or event. -/
def after (i : Instr) (s : State) : State := match exec i s with | .next t => t | _ => State.reset
/-- The issuing context after an instruction. -/
def now (i : Instr) (s : State) : Ctx := (after i s).ctx s.cur

/-- The operands are readable, in the sense of `readsFor`. -/
def readable (s : State) (v : View) (i : Instr) : Bool := (fetchArgs s.here v (envOf s.here.ctx i).rm (shape i)).isOk
/-- The operands are readable, in the sense of `reads`. -/
def readable0 (s : State) (v : View) (i : Instr) : Bool := (fetchArgs s.here v 0 (shape i)).isOk

theorem readsFor_of_readable {s : State} {v : View} {i : Instr} (h : readable s v i = true) : ∃ g, readsFor s v i g := by
  unfold readable at h; unfold readsFor
  generalize fetchArgs s.here v (envOf s.here.ctx i).rm (shape i) = r at h ⊢
  cases r with | ok g => exact ⟨g, rfl⟩ | error e => exact absurd h (by simp [Except.isOk, Except.toBool])

theorem reads_of_readable {s : State} {v : View} {i : Instr} (h : readable0 s v i = true) : ∃ g, reads s v i g := by
  unfold readable0 at h; unfold reads
  generalize fetchArgs s.here v 0 (shape i) = r at h ⊢
  cases r with | ok g => exact ⟨g, rfl⟩ | error e => exact absurd h (by simp [Except.isOk, Except.toBool])

/-- Each instruction is carried out in a state with readable operands: what `Computes` supposes. -/
def runs (s : State) (l : List (View × Instr)) : Bool := l.all (fun e => goes s e.2 && readable s e.1 e.2)

/-! ## Results worked out from the entries, and witnesses: each theorem meets the hypotheses of the statement that it names -/

theorem test_witness_AddAndSubtractResults : runs user [(.d, .add .d .al .acc (.preg 1) (.imm 3)), (.b, .adc .b .al .acc .ones .acc),
    (.q, .sub .q .al .acc .acc (.imm 1)), (.h, .sbc .h .al (.preg 0) .acc .acc), (.w, .cmp .w .al (.preg 1) .acc)] = true := by decide

/-- 127 + 1 in view b is -128 with N and V (R158, R145). -/
theorem test_add : (now (.add .b .al (.preg 3) (.imm 0x7F) (.imm 1)) user).p[3] = 0xFFFFFFFFFFFFFF80 ∧
    (now (.add .b .al (.preg 3) (.imm 0x7F) (.imm 1)) user).stat &&& 15 = 9 := by decide
/-- 5 - 7 borrows: C is 0 and N is 1 (R158). -/
theorem test_sub : (now (.sub .w .al .acc .acc (.preg 0)) user).a = 0xFFFFFFFFFFFFFFFE ∧
    (now (.sub .w .al .acc .acc (.preg 0)) user).stat &&& 15 = 8 := by decide
/-- ADC adds C; SBC takes it away when it is 0 (R158). -/
theorem test_adc_sbc : (now (.adc .d .al .acc (.imm 1) (.imm 1)) (withStat 2)).a = 3 ∧
    (now (.sbc .d .al .acc (.imm 9) (.imm 1)) user).a = 7 := by decide
/-- The worked saturation of R158 under SAT: 127 + 1 is 127. -/
theorem test_add_sat : (now (.add .b .al .acc (.imm 0x7F) (.imm 1)) (withStat 0x0800800000000000)).a = 127 := by decide

theorem test_witness_MultiplyAndDivideResults : runs user [(.d, .mul .d .al .acc (.preg 1) (.imm 3)), (.b, .mulh .b .al true .acc .ones .acc),
    (.w, .div .w .al false .acc (.preg 1) (.imm 0)), (.h, .rem .h .al true (.preg 0) .acc (.imm 2))] = true := by decide

/-- A zero divisor gives all ones with V; the remainder of -7 by 2 is -1 (R160). -/
theorem test_div_rem : (now (.div .b .al true .acc .acc (.imm 0)) user).a = 0xFF ∧ (now (.div .b .al true .acc .acc (.imm 0)) user).stat &&& 15 = 9 ∧
    (now (.rem .d .al false (.preg 0) (.imm 0x3FF9) (.imm 2)) user).p[0] = 0xFFFFFFFFFFFFFFFF := by decide
/-- 0xFFFF × 0xFFFF in view h is 1 with no overflow; unsigned high half 0xFFFE (R159). -/
theorem test_mul_mulh : (now (.mul .h .al .acc (.preg 1) (.preg 1)) user).a = 1 ∧ (now (.mul .h .al .acc (.preg 1) (.preg 1)) user).stat &&& 3 = 0 ∧
    (now (.mulh .h .al true .acc (.preg 1) (.preg 1)) user).a = 0xFFFE := by decide

theorem test_witness_LogicResults : runs user [(.d, .and .d .al .acc (.preg 1) (.imm 3)), (.b, .or .b .al .acc .ones .acc),
    (.w, .xor .w .al .acc (.preg 1) (.imm 0)), (.q, .andn .q .al .acc .acc .zeros), (.h, .tst .h .al (.preg 1) .lanes)] = true := by decide

/-- ANDN clears the bits of S2 (R161). -/
theorem test_andn_xor : (now (.andn .d .al .acc (.preg 1) (.imm 0xF)) user).a = 0xFFF0 ∧ (now (.xor .d .al .acc (.preg 1) (.imm 0xF)) user).a = 0xFFF0 ∧
    (now (.tst .d .al (.preg 0) (.imm 8)) user).stat &&& 12 = 4 := by decide

theorem test_witness_ShiftResults : runs user [(.d, .shl .d .al .acc (.preg 1) (.imm 0)), (.b, .shr .b .al .acc .ones (.imm 8)),
    (.w, .sar .w .al .acc (.preg 1) (.imm 33)), (.q, .rol .q .al .acc .acc (.imm 127))] = true := by decide

/-- SHR by n gives 0 with C the top bit; SAR past n gives the sign; ROL turns (R162). -/
theorem test_shifts : (now (.shr .b .al .acc .ones (.imm 8)) user).a = 0 ∧ (now (.shr .b .al .acc .ones (.imm 8)) user).stat &&& 2 = 2 ∧
    (now (.sar .d .al (.preg 0) (.preg 7) (.imm 100)) user).p[0] = 0xFFFFFFFFFFFFFFFF ∧ (now (.rol .b .al .acc (.imm 0x81) (.imm 1)) user).a = 3 ∧
    (now (.shl .h .al .acc (.preg 0) (.imm 14)) user).a = 0xFFFFFFFFFFFFC000 := by decide

theorem test_witness_CountSelectAndFieldResults : runs user [(.d, .clz .d .al .acc (.preg 1)), (.q, .ctz .q .al .acc .acc), (.b, .popc .b .al .acc .ones),
    (.w, .min .w .al true .acc (.preg 1) .ones), (.h, .max .h .al false .acc (.preg 1) .zeros), (.d, .sel .d .al .acc (.preg 0) .acc .ne),
    (.d, .ext .d .al .acc (.preg 1) true 63 0), (.b, .ins .b .al .acc .acc 3 4)] = true ∧ View.bhwd .b = true := by decide

/-- CLZ of 0xFFFF in 64 bits is 48; CTZ of 0 is the width; INS puts a field (R163-R165). -/
theorem test_counts_and_fields : (now (.clz .d .al .acc (.preg 1)) user).a = 48 ∧ (now (.ctz .h .al .acc .zeros) user).a = 16 ∧
    (now (.ins .b .al .acc .ones 1 4) user).a = 0x35 ∧ (now (.ext .d .al (.preg 0) (.preg 1) true 3 8) user).p[0] = 0xFFFFFFFFFFFFFFFF ∧
    (now (.max .h .al false .acc (.preg 1) .zeros) user).a = 0 := by decide

theorem test_witness_MoveAndAddressResults : runs user [(.h, .mov .h .al .acc (.mem 2 1)), (.d, .movi .d .al (.preg 1) 0x800000000000),
    (.d, .movhi .al (.preg 1) 0xBEEF), (.d, .spc .al (.preg 4) (.preg 2) (.imm 3)), (.w, .lea .w .al (.preg 4) (.post 2 2))] = true ∧
    goes user .nop = true ∧ goes user (.fmt 0xB102) = true := by decide

/-- MOVHI keeps the low 48 bits; SPC changes the space; LEA gives the address and updates its pointer (R156, R157). -/
theorem test_addresses : (now (.movhi .al (.preg 1) 0xBEEF) user).p[1] = 0xBEEF00000000FFFF ∧ (now (.spc .al (.preg 4) (.preg 2) (.imm 3)) user).p[4] = 0x3000000000000040 ∧
    (now (.lea .w .al (.preg 4) (.post 2 2)) user).p[4] = 0x1000000000000040 ∧ (now (.lea .w .al (.preg 4) (.post 2 2)) user).p[2] = 0x1000000000000048 ∧
    (now (.movi .d .al (.preg 1) 0x800000000000) user).p[1] = 0xFFFF800000000000 := by decide

theorem test_witness_VectorArithmeticResults : runs user [(.b, .vadd .b .al .acc .acc .ones), (.h, .vsub .h .al .acc .acc (.imm 1)),
    (.w, .vadds .w .al true .acc .acc .ones), (.d, .vsubs .d .al false .acc .acc .lanes), (.b, .vmul .b .al .acc .acc .acc),
    (.h, .vmulh .h .al false .acc .acc .acc), (.w, .vmac .w .al .acc .acc .lanes), (.d, .vmin .d .al true .acc .acc .ones),
    (.b, .vmax .b .al false .acc .acc .ones), (.h, .vabs .h .al .acc .ones), (.w, .vneg .w .al .acc .acc), (.bf, .vand .bf .al .acc .acc (.imm 3)),
    (.q, .vor .q .al .acc .acc .ones), (.g, .vxor .g .al .acc .acc .ones), (.b, .vshl .b .al .acc .acc (.imm 9)), (.h, .vshr .h .al .acc .acc .lanes),
    (.d, .vsar .d .al .acc .ones (.imm 63))] = true := by decide

/-- Lanes stay apart: 5 + (-1) in the lowest byte, -1 in the others; VMAC adds to D; VADDS holds at the top (R167). -/
theorem test_vector_lanes : (now (.vadd .b .al .acc .acc .ones) user).a = 0xFFFFFFFFFFFFFFFFFFFFFFFFFFFFFF04 ∧
    (now (.vmac .w .al .acc .lanes .lanes) user).a = 0x00000009000000040000000100000005 ∧
    (now (.vadds .d .al true .acc .acc .ones) user).a = 0xFFFFFFFFFFFFFFFFFFFFFFFFFFFFFFFF := by decide

theorem test_witness_VectorDotCompareAndMoveResults : runs user [(.w, .vdot .al true .acc .acc .ones), (.h, .vcmp .h .al .acc .acc .zeros .hs),
    (.f, .vsel .f .al .acc .acc .ones .lanes), (.b, .vshuf .b .al .acc .acc .lanes), (.d, .vbcast .d .al .acc .acc 1), (.d, .vbcast .d .al .acc (.preg 1) 0),
    (.w, .vred .w .al .acc .lanes .add), (.b, .vred .b .al .acc .lanes .umax), (.b, .vred .b .al .acc .lanes .smin)] = true ∧ View.bhwd .b = true := by decide

/-- VRED sums the lanes 0 to 3; VCMP marks the lanes; VDOT adds 5 × 255 to 5 (R168, R169, R171). -/
theorem test_vector_reduce : (now (.vred .w .al .acc .lanes .add) user).a = 6 ∧
    (now (.vcmp .d .al .acc .acc (.imm 1) .hi) user).a = 0xFFFFFFFFFFFFFFFF ∧ (now (.vdot .al true .acc .acc .ones) user).a = 1280 ∧
    (now (.vbcast .h .al .acc (.preg 0) 0) user).a = 0x00070007000700070007000700070007 := by decide

theorem test_witness_FloatArithmeticResults : runs user [(.f, .vfadd .f .al .acc .acc .lanes), (.bf, .vfsub .bf .al .acc .lanes (.imm 3)),
    (.g, .vfmul .g .al .acc .lanes .lanes), (.f, .vfma .f .al true false .acc .lanes .lanes), (.bf, .vfdiv .bf .al .acc .lanes .zeros),
    (.g, .vfsqrt .g .al .acc .lanes), (.f, .vfrcp .f .al .acc .lanes), (.bf, .vfrsq .bf .al .acc .lanes), (.g, .vfexp2 .g .al .acc .lanes),
    (.f, .vflog2 .f .al .acc .lanes), (.f, .vfrnd .f .al .acc .lanes), (.g, .vred .g .al .acc .lanes .fadd), (.f, .vred .f .al .acc .lanes .fadd)] = true := by decide

/-- 0, 1, 2, 3 squared; 0 + 1 + 2 + 3 is 6; 1 / 0 raises division by zero (R173, R171, R41). -/
theorem test_float_lanes : (now (.vfmul .f .al .acc .lanes .lanes) user).a = 0x4110000040800000_3F80000000000000 ∧
    (now (.vred .f .al .acc .lanes .fadd) user).a = 0x40C00000 ∧ (now (.vfexp2 .g .al .acc .lanes) user).a = 0x4000000000000000_3FF0000000000000 := by decide

theorem test_witness_FloatCompareAndClassResults : View.isFp .f = true ∧ View.isFp .bf = true ∧ View.isFp .g = true ∧
    runs user [(.f, .vfmin .f .al .acc .acc .lanes), (.bf, .vfmax .bf .al .acc .lanes (.imm 3)), (.g, .vfcmp .g .al .acc .lanes .lanes .ord),
      (.f, .vfcls .f .al .acc .lanes)] = true := by decide

/-- 0 < 1 is false on lane 0 and 1 > 0 true; -0 lies below +0 for VFMIN (R175, R176). -/
theorem test_float_compare : (now (.vfcmp .g .al .acc .lanes .zeros .gt) user).a = 0xFFFFFFFFFFFFFFFF_0000000000000000 ∧
    (now (.vfmin .g .al .acc .zeros .acc) (at_ 3 { base with a := 0x8000000000000000_8000000000000000 })).a = 0x8000000000000000_8000000000000000 := by decide

/-- The hypothesis of the VFMA clause holds of two zeros. -/
theorem test_witness_NanResultsAreCanonical : mulExact (.zero false) (.zero true) ≠ none := by decide

/-- Each of the three formats, at the largest bits of it and at zero. -/
theorem test_witness_RoundingKeepsRepresentableValues :
    (bf16 = bf16 ∨ bf16 = f32 ∨ bf16 = f64) ∧ 2 ^ 16 - 1 < 2 ^ bf16.width ∧ 0 < 2 ^ f32.width ∧ 2 ^ 64 - 1 < 2 ^ f64.width ∧
    (bf16.unpack 0x3F80).neg ≠ .nan false ∧ f32.unpack 0x80000000 = .zero true ∧ f32.unpack 0x7F800000 = .inf false ∧ f64.unpack 0x7FF8000000000000 = .nan false :=
  ⟨.inl rfl, by decide, by decide, by decide, by decide, by decide, by decide, by decide⟩

theorem test_witness_ConversionResults : goes user (.vcvt .f .al .acc .lanes) = true ∧ readable user (cvtSrc .f (envOf base (.vcvt .f .al .acc .lanes))) (.vcvt .f .al .acc .lanes) = true ∧
    runs user [(.b, .vnarr .b .al true .acc .acc .ones), (.w, .vwide .w .al false true .acc .acc), (.g, .bexp .g .al (.preg 1) .lanes (.preg 0))] = true ∧
    goes user (.scale .f .al .acc .lanes (.imm 0x100)) = true ∧
    readable user (scaleSrc .f (envOf base (.scale .f .al .acc .lanes (.imm 0x100)))) (.scale .f .al .acc .lanes (.imm 0x100)) = true := by decide

/-- Four integers become binary32; 2^1 scales them; the largest exponent of 0 to 1 is that of 1 (R179, R188, R189). -/
theorem test_conversions : (now (.vcvt .f .al .acc .acc) user).a = 0x40A00000 ∧
    (now (.scale .g .al .acc .acc (.imm 1)) (at_ 3 { base with a := 0x3FF0000000000000 })).a = 0x4000000000000000 ∧
    (now (.scale .g .al .acc .acc (.imm 0x100)) user).aPois = true := by decide

theorem test_witness_LongMultiplyResults : runs user [(.d, .pack .d .al true .w8 8 7 .acc .acc), (.h, .extr .h .al true true false 16 127 .acc .acc),
    (.q, .pmul .q .al false false .w2 0 .acc .acc .acc), (.d, .pmul .d .al true true .w4 16 .acc .acc (.preg 1)), (.d, .gchk .al true .w8 32 (.preg 1) (.imm 3))] = true ∧
    runs (withStat 0x100000000) [(.d, .pmul .d .al true true .w8 16 .acc (.preg 1) (.preg 1))] = true ∧
    ((withStat 0x100000000).here.ctx.stat.getLsbD 32) = true := by decide

/-- Digits 0xFFFF squared pass the fence of 16 bits: GO is set, or with GOE fault 0x0A (R183). -/
theorem test_pmul_fence : (now (.pmul .d .al true true .w8 16 .acc (.preg 1) (.preg 1)) user).stat.getLsbD 4 = true ∧
    (now (.pmul .d .al true true .w8 16 .acc (.preg 1) (.preg 1)) (withStat 0x100000000)).status = .ending (faultOf 0x0A) false ∧
    (now (.pack .d .al true .w8 16 1 .acc .acc) (at_ 3 { base with a := 0x0302 })).a = 0x30002 := by decide

/-- A context whose P1 asks for a pitch of 64 bytes and group 0, and P4 for a pitch of 0, P6 for group 31. -/
def planes : State := at_ 3 { base with p := #v[0, 1, 0x1000000000000040, 0, 0, 0, 0x1F0001, 0], a := 0x0102030405060708090A0B0C0D0E0F10 }

theorem test_witness_BitPlaneResults :
    (goes planes (.bprd .b .al .acc (.mem 2 0) (.preg 1) (.preg 0)) = true ∧ readable planes .b (.bprd .b .al .acc (.mem 2 0) (.preg 1) (.preg 0)) = true) ∧
    readable planes .b (.bprd .b .al .acc (.mem 2 0) (.preg 4) (.preg 0)) = true ∧ readable planes .b (.bprd .b .al .acc (.mem 2 0) (.preg 6) (.preg 0)) = true ∧
    (let ea := planes.here.ea (.mem 2 0) 16
     1 ≤ spaceOf ea ∧ spaceOf ea ≤ 4 ∧ addrOf ea % 16 = 0 ∧ addrOf ea + 7 * 64 + 16 ≤ bufSize (spaceOf ea)) ∧
    (let i := Instr.bpwr .b .al (.mem 2 0) .acc (.preg 1) (.preg 0)
     goes planes i = true ∧ (fetchOpt planes.here .b (envOf planes.here.ctx i).rm (shape i).s1).isOk = true ∧
     (fetchOpt planes.here .b 0 (shape i).s2).isOk = true ∧ (fetchOpt planes.here .b 0 (shape i).x).isOk = true) := by decide

/-- Plane 0 gives bit 7 and plane 7 bit 0 of an element; BPWR puts the lowest bits of the lanes into plane 7 (R186, R187). -/
theorem test_plane_read :
    (now (.bprd .b .al .acc (.mem 2 0) (.preg 1) (.preg 0)) { planes with cores := [(0, { emptyCore with w := [(0x40, 1), (0x200, 3)] })] }).a = 0x0181 := by decide

theorem test_plane_write :
    mget 0 ((after (.bpwr .b .al (.mem 2 0) .acc (.preg 1) (.preg 0)) planes).here.buf 1) 0x200 = 0xAA := by decide +kernel

theorem test_witness_OperandValues : (1 ∈ [1, 2, 4, 8, 16]) ∧ (16 ∈ [1, 2, 4, 8, 16]) ∧ View.isFp .q = false ∧ inBuffer (user.here.ea (.mem 2 0) 1) 1 1 ∧
    inBuffer (user.here.ea (.mem 2 0x3FFC) 16) 16 16 := by
  refine ⟨by decide, by decide, by decide, ?_, ?_⟩ <;> (unfold inBuffer; decide)

/-- Bad pointers: unaligned, a reserved space, one byte past W; and a good one at the end of W (R80, R81). -/
theorem test_witness_PointerFaults : addrOf (0x1000000000000041#64) % min 2 16 ≠ 0 ∧ 5 ≤ spaceOf (0x5000000000000000#64) ∧
    (1 ≤ spaceOf (0x1000000000003000#64) ∧ bufSize 1 < addrOf (0x1000000000003000#64) + 1) ∧
    ¬ (addrOf (0x1000000000002FF0#64) % min 16 16 ≠ 0 ∨ 5 ≤ spaceOf (0x1000000000002FF0#64) ∨
      (1 ≤ spaceOf (0x1000000000002FF0#64) ∧ bufSize (spaceOf (0x1000000000002FF0#64)) < addrOf (0x1000000000002FF0#64) + 16)) := by decide

theorem test_witness_DestinationWrites : (8 ∈ [8, 16, 32, 64]) ∧ (4 ∈ [1, 2, 3, 4]) ∧ 0x3FFFF < bufSize 4 ∧ (1 ∈ [1, 2, 3, 4]) ∧ 0 < bufSize 1 ∧ (4 : Nat) ≠ 1 := by decide

/-- A byte result in A is sign-extended to 64 bits and keeps the upper half (R145). -/
theorem test_destination : (now (.mov .b .al .acc (.imm 0x80)) (at_ 3 { base with a := 0xA5000000000000000000000000000000 })).a =
    0xA500000000000000FFFFFFFFFFFFFF80 := by decide

theorem test_witness_ComputeInstructionsFrame : let i := Instr.add .d .al (.mem 2 0) (.preg 1) (.post 3 2)
    isWord i = true ∧ computes i = true ∧ user.hub.up = true ∧ user.here.ctx.status = .issuing ∧ exec i user = .next (after i user) ∧
    (∀ o ∈ (shape i).opds, Opd.updates o.1 ≠ some 5) ∧ (∀ o, (shape i).d = some o → o.1 ≠ .preg 5) ∧ (∀ o, (shape i).d = some o → o.1 ≠ .acc) :=
  ⟨by decide, by decide, by decide, by decide, rfl, by decide, by rintro o ⟨⟩; decide, by rintro o ⟨⟩; decide⟩

/-- Each form of its clause of completion. -/
theorem test_witness_FloatInstructionsComplete : [View.f, .bf, .g].all View.isFp = true ∧
    runs user ([View.f, .bf, .g].flatMap (fun v => [(v, Instr.vfadd v .al .acc .acc .lanes), (v, .vfsub v .al .acc .lanes .lanes), (v, .vfmul v .al .acc .lanes .lanes),
      (v, .vfma v .al true false .acc .lanes .lanes), (v, .vfdiv v .al .acc .lanes .zeros), (v, .vfsqrt v .al .acc .lanes), (v, .vfmin v .al .acc .acc .lanes),
      (v, .vfmax v .al .acc .lanes .zeros), (v, .vfcmp v .al .acc .lanes .lanes .ord), (v, .vfrcp v .al .acc .lanes), (v, .vfrsq v .al .acc .lanes),
      (v, .vfexp2 v .al .acc .lanes), (v, .vflog2 v .al .acc .lanes), (v, .vfrnd v .al .acc .lanes), (v, .vfcls v .al .acc .lanes)])) = true := by decide

theorem test_witness_OwnEffectsLeaveMemory : ownEffect (.ld .d .al false .acc (.mem 2 0)) = true ∧
    exec (.ld .d .al false .acc (.mem 2 0)) user = .next (after (.ld .d .al false .acc (.mem 2 0)) user) := ⟨by decide, rfl⟩

/-- Targets in range and past the last slot, by offset and by register. -/
theorem test_witness_TransfersRedirect :
    goes user (.br .al 5 (some 3)) = true ∧ (user.here.ctx.pc + (5 : BitVec 32).signExtend 64).toNat < 5 * 2 ^ 54 ∧
    goes user (.br .al 0xFFFFFFFF none) = true ∧ 5 * 2 ^ 54 ≤ (user.here.ctx.pc + (0xFFFFFFFF : BitVec 32).signExtend 64).toNat ∧
    goes user (.call .al 5 7) = true ∧ goes user (.jmp .al (.preg 0)) = true ∧ readable0 user .d (.jmp .al (.preg 0)) = true ∧
    readable0 user .d (.jmp .al (.preg 7)) = true ∧ goes user (.jmpl .al (.preg 3) (.preg 0)) = true ∧ readable0 user .d (.jmpl .al (.preg 3) (.preg 0)) = true ∧
    readable0 user .d (.jmpl .al .acc (.preg 7)) = true := by decide

/-- BR links to the slot after its delay slots; JMP past the last slot is fault 0x13 (R119, R195). -/
theorem test_transfers : (now (.br .al 5 (some 3)) user).p[3] = 3 ∧ (now (.br .al 5 (some 3)) user).btgt = 5 ∧ (now (.br .al 5 (some 3)) user).pc = 1 ∧
    (now (.jmp .al (.preg 7)) user).status = .ending (faultOf 0x13) false := by decide

/-- A slot in each place: plain, first and second delay slot, linked or not, inside a loop or not. -/
theorem test_witness_SlotsAdvanceAndDelaySlotsEnd :
    (let s := withStat 0; goes s .nop = true ∧ stDS s.here.ctx.stat = 0) ∧ (let s := withStat 0x400000000000; goes s .nop = true ∧ stDS s.here.ctx.stat = 2) ∧
    (let s := withStat 0x200000000000; goes s .nop = true ∧ stDS s.here.ctx.stat = 1 ∧ s.here.ctx.linked = false ∧ stLPD s.here.ctx.stat = 0) ∧
    (let s := at_ 3 { base with stat := 0x210000000000, linked := true }; goes s .nop = true ∧ s.here.ctx.linked = true) ∧
    (let s := at_ 3 { base with stat := 0x210000000000, pc := 9, lbeg0 := 2, lend0 := 20, btgt := 30 }
     goes s .nop = true ∧ s.here.ctx.linked = false ∧ stLPD s.here.ctx.stat = 1 ∧ (after .nop s).here.ctx.pc = 30 ∧ stLPD (after .nop s).here.ctx.stat = 0) ∧
    (let s := at_ 3 { base with stat := 0x220000000000, pc := 9, lbeg0 := 2, lend0 := 40, lbeg1 := 4, lend1 := 20, btgt := 30 }
     goes s .nop = true ∧ stLPD s.here.ctx.stat = 2 ∧ stLPD (after .nop s).here.ctx.stat = 1) := by decide

/-- A LOOP with count 0, at LPD 0, nested, nested wrongly, and the end test of each case. -/
theorem test_witness_LoopsSetUpAndRepeat :
    goes user (.loop (.preg 5) 4) = true ∧ base.p[5] = 0 ∧ goes user (.loop (.imm 3) 4) = true ∧ stLPD base.stat = 0 ∧
    (let s := at_ 3 { base with stat := 0x10000000000, pc := 4, lbeg0 := 2, lend0 := 20 }
     goes s (.loop (.imm 3) 16) = true ∧ stLPD s.here.ctx.stat = 1 ∧ s.here.ctx.lbeg0 ≤ s.here.ctx.pc + 1 ∧ s.here.ctx.pc + (16 : BitVec 32).signExtend 64 ≤ s.here.ctx.lend0 ∧
     goes s (.loop (.imm 3) 17) = true ∧ ¬ (s.here.ctx.pc + (17 : BitVec 32).signExtend 64 ≤ s.here.ctx.lend0)) ∧
    (let s := at_ 3 { base with endTest := true }; s.hub.up = true ∧ (s.ctx 3).status = .issuing ∧ (s.ctx 3).endTest = true ∧ stLPD (s.ctx 3).stat = 0) ∧
    (let s := at_ 3 { base with endTest := true, stat := 0x10000000000, lcnt0 := 1, lbeg0 := 7 }
     stLPD (s.ctx 3).stat ≠ 0 ∧ (s.ctx 3).lcnt 0 ≠ 0 ∧ ((after (.loopEndTest 3) s).ctx 3).pc = 7) ∧
    (let s := at_ 3 { base with endTest := true, stat := 0x10000000000, lend0 := 7 }
     stLPD (s.ctx 3).stat = 1 ∧ (s.ctx 3).lcnt 0 = 0 ∧ ((after (.loopEndTest 3) s).ctx 3).pc = 8) ∧
    (let s := at_ 3 { base with endTest := true, stat := 0x20000000000, lend1 := 7, lend0 := 9 }
     stLPD (s.ctx 3).stat = 2 ∧ (s.ctx 3).lcnt 1 = 0 ∧ (s.ctx 3).lend 1 ≠ (s.ctx 3).lend 0) ∧
    (let s := at_ 3 { base with endTest := true, stat := 0x20000000000, lend1 := 7, lend0 := 7, lcnt0 := 2, lbeg0 := 4 }
     stLPD (s.ctx 3).stat = 2 ∧ (s.ctx 3).lend 1 = (s.ctx 3).lend 0 ∧ ((after (.loopEndTest 3) s).ctx 3).pc = 4 ∧
     ((after (.loopEndTest 3) s).ctx 3).lcnt 0 = 1) ∧
    (let s := at_ 3 { base with endTest := true, stat := 0x20000000000, lend1 := 7, lend0 := 7 }
     (s.ctx 3).lcnt 0 = 0 ∧ ((after (.loopEndTest 3) s).ctx 3).pc = 8 ∧ stLPD ((after (.loopEndTest 3) s).ctx 3).stat = 0) := by decide
/-- A line of the I-cache at virtual line 0 that holds these words and this line word. -/
def lineOf (ws : List (BitVec 96)) (lw : Nat) : ILine :=
  { pasid := 0, vline := 0, bytes := (ws.flatMap (fun (w : BitVec 96) => leBytes 12 w.toNat) ++ List.replicate 60 0).take 60 ++ leBytes 4 lw, pois := false, user := true, sup := true }

/-- A state whose core holds one fetch line. -/
def withLine (e : ILine) (s : State) : State := { s with cores := [(coreOfCid s.cur, { emptyCore with icache := [e] })] }

/-- ADD A, A, 1 as a word. -/
def addWord : BitVec 96 := m3 0x14 3 0 0 0 0xC0001 0

/-- REP P0 with ADD A, A, 1 in the next slot; then with END there, with an ADD that names P0, and with the slot at the end of a loop. -/
theorem test_witness_RepRunsOneInstance :
    (let s := withLine (lineOf [0, addWord] 0) user
     let i := Instr.add .d .al .acc .acc (.imm 1)
     goes s (.rep (.preg 0)) = true ∧ goes s (.rep (.preg 5)) = true ∧ repInstr s.here 0 = .instr i ∧ repInstr s.here 5 = .instr i ∧
     atAnyLend s.here.ctx = false ∧ s.here.ctx.dleft ≠ 0 ∧
     s.here.ctx.p[5] = 0 ∧ s.here.ctx.p[0] ≠ 0 ∧ classOf i ≠ .c ∧ namesReg i 0 = false ∧ pairsOk i = true ∧ stPRIV s.here.ctx.stat ≥ privOf i ∧
     condHolds s.here.ctx.stat (condOf i) = true ∧ readable s .d i = true ∧
     (now (.rep (.preg 0)) s).a = 6 ∧ (now (.rep (.preg 0)) s).p[0] = 6 ∧ (now (.rep (.preg 0)) s).pc = 0 ∧ (now (.rep (.preg 5)) s).pc = 2) ∧
    (let s := withLine (lineOf [0, m3 0x80 0 0 0 0 0 0] 0) user
     goes s (.rep (.preg 0)) = true ∧ repInstr s.here 0 = .instr (.endF .al) ∧ classOf (.endF .al) = .c ∧
     (now (.rep (.preg 0)) s).status = .ending (faultOf 0x01) false) ∧
    (let s := withLine (lineOf [0, m3 0x80 0 0 0 0 0 1] 0) user
     goes s (.rep (.preg 0)) = true ∧ repInstr s.here 0 = .barred ∧ (now (.rep (.preg 0)) s).status = .ending (faultOf 0x01) false) ∧
    (let s := withLine (lineOf [0, m3 0x14 3 0 0 0x80000 0xC0001 0] 0) user
     let i := Instr.add .d .al .acc (.preg 0) (.imm 1)
     repInstr s.here 0 = .instr i ∧ namesReg i 0 = true ∧ (now (.rep (.preg 0)) s).status = .ending (faultOf 0x01) false) ∧
    (let s := withLine (lineOf [0, addWord] 0) (at_ 3 { base with stat := 0x10000000000, lend0 := 0 })
     goes s (.rep (.preg 0)) = true ∧ repInstr s.here 0 = .instr (.add .d .al .acc .acc (.imm 1)) ∧ atAnyLend s.here.ctx = true ∧
     (now (.rep (.preg 0)) s).status = .ending (faultOf 0x04) false) ∧
    (let s := withLine (lineOf [0, m3 0x14 3 0 0 0 0xC0001 1] 0) user
     goes s (.rep (.preg 0)) = true ∧ repInstr s.here 0 = .fault (faultOf 0x02) ∧ s.here.ctx.p[0] ≠ 0 ∧
     (now (.rep (.preg 0)) s).status = .ending (faultOf 0x02) false) := by decide

theorem test_rep_body : bodyOf (.add .d .al .acc .acc (.imm 1)) = some (fun _ l => do
    let l1 ← pureOp (.add .d .al .acc .acc (.imm 1)) .d (fun e g => outN (addR (View.lw .d) g.a.val.toNat g.b.val.toNat 0 e.sat)) l
    .ok (l1, id)) := rfl

/-- A store that has retired. -/
def someStore : GStore :=
  { pa := 0x10000008, va := 0x4008, bytes := [1, 2, 3, 4], stamp := 1, irv := false, rel := none, sig := 0, pois := false, trk := true, trig := false
    seq := 1 }

/-- A pending deferred fault. -/
def someDef : DefFault := { code := 0x21, addr := 0, merged := 0, status := 0, tid := 0 }

/-- Counts at and above their ceilings, a deferred fault, fences with and without stores in flight, a scope of sys. -/
theorem test_witness_WaitsAndEngineFences :
    goes user (.wait .al 0) = true ∧ (∀ j < 4, base.cnt.toNat / 2 ^ (6 * j) % 64 ≤ (0 : BitVec 24).toNat / 2 ^ (6 * j) % 64) ∧
    base.defLD = none ∧ base.defST = none ∧ base.defCP = none ∧ base.defTL = none ∧
    (let s := at_ 3 { base with cnt := 0x40 }
     goes s (.wait .al 0xFC0FFF) = true ∧ goes s (.wait .al 0) = true ∧ ¬ (s.here.ctx.cnt.toNat / 2 ^ 6 % 64 ≤ (0 : BitVec 24).toNat / 2 ^ 6 % 64) ∧
     (now (.wait .al 0) s).status = .parked .wait) ∧
    (let s := at_ 3 { base with defTL := some someDef }
     goes s (.wait .al 0) = true ∧ s.here.ctx.defTL = some someDef ∧ (0 : BitVec 24).toNat / 2 ^ 18 % 64 < 63) ∧
    (let s := at_ 3 { base with defLD := some someDef }
     goes s (.wait .al 0) = true ∧ s.here.ctx.defLD = some someDef ∧ goes s (.wait .al 63) = true ∧ ¬ ((63 : BitVec 24).toNat % 64 < 63) ∧
     (now (.wait .al 63) s).pc = 1) ∧
    (let s := at_ 3 { base with defST := some someDef, defCP := some someDef }
     goes s (.wait .al 0) = true ∧ s.here.ctx.defST = some someDef ∧ s.here.ctx.defCP = some someDef ∧ s.here.ctx.defTL = none) ∧
    goes user (.fence .al .acq .core) = true ∧ goes user (.fence .al .acq .sys) = true ∧ goes user (.fence .al .rel .sys) = true ∧
    base.stq = [] ∧ base.cnt.toNat / 2 ^ 6 % 64 = 0 ∧ (∀ h ∈ user.hub.held, h.by_ ≠ some user.cur) ∧
    (let s := at_ 3 { base with stq := [someStore], cnt := 0x40 }
     goes s (.fence .al .ar .dev) = true ∧ s.here.ctx.stq ≠ [] ∧ (now (.fence .al .ar .dev) s).status = .parked .fence) ∧
    goes user (.qfence .al 15) = true := by decide

theorem test_witness_FalsePredicateOnlyRetires : ownEffect (.add .d .eq .acc .acc (.imm 1)) = true ∧ ownEffect (.br .eq 5 (some 2)) = true ∧ user.hub.up = true ∧
    base.status = .issuing ∧ decodeFault base (.add .d .eq .acc .acc (.imm 1)) = none ∧ decodeFault base (.br .eq 5 (some 2)) = none ∧
    condHolds base.stat .eq = false ∧ base.dleft ≠ 0 ∧ isTransfer (.br .eq 5 (some 2)) = true ∧ isTransfer (.add .d .eq .acc .acc (.imm 1)) = false ∧
    stDS base.stat = 0 ∧ (now (.add .d .eq .acc .acc (.imm 1)) user).a = 5 ∧ (now (.br .eq 5 (some 2)) user).btgt = 3 := by decide

/-- Each decode fault: a prefix of another instruction, an unused prefix field, a branch in a delay slot and before a loop end, a pair base, PRIV 0. -/
theorem test_witness_DecodeFaultsTakeThePlace :
    (let st := 0x0800800000000000#64; stPFXV st = true ∧ prefixValuesOk (.and .d .al .acc .acc .acc) (stPFXW st) = false ∧
      ownEffect (.and .d .al .acc .acc .acc) = true ∧ (now (.and .d .al .acc .acc .acc) (withStat st)).status = .ending (faultOf 0x01) false) ∧
    (let st := 0x0400800000000000#64; stPFXV st = true ∧ prefixValuesOk (.add .d .al .acc .acc .acc) (stPFXW st) = true ∧
      prefixUnusedOk (.add .d .al .acc .acc .acc) (stPFXW st) = false ∧ (now (.add .d .al .acc .acc .acc) (withStat st)).status = .ending (faultOf 0x02) false) ∧
    (let st := 0x200000000000#64; stDS st ≠ 0 ∧ slotBarred (stDS st == 1) (.fmt 0) = true ∧ ownEffect (.fmt 0) = true ∧
      (now (.fmt 0) (withStat st)).status = .ending (faultOf 0x04) false) ∧
    (let c := { base with stat := 0x10000000000, lend0 := 2 }
     isTransfer (.br .al 5 none) = true ∧ stDS c.stat = 0 ∧ (∃ j < stLPD c.stat, c.lbeg j ≤ c.pc ∧ c.pc ≤ c.lend j ∧ (c.lend j).toNat ≤ c.pc.toNat + 2) ∧
      (now (.br .al 5 none) (at_ 3 c)).status = .ending (faultOf 0x04) false) ∧
    (ownEffect (.copy .al .q0 1 2 none false false false) = true ∧ pairsOk (.copy .al .q0 1 2 none false false false) = false ∧ stDS base.stat = 0 ∧
      (now (.copy .al .q0 1 2 none false false false) user).status = .ending (faultOf 0x05) false) ∧
    (ownEffect (.rti .al) = true ∧ pairsOk (.rti .al) = true ∧ stPRIV super.here.ctx.stat < privOf (.rti .al) ∧ isTransfer (.rti .al) = false ∧
      (now (.rti .al) super).status = .ending (faultOf 0x08) false) := by decide

/-- A context with no retirement left. -/
def spent : State := at_ 3 { base with dleft := 0 }

theorem test_witness_DeadlineFaultsInPlaceOfRetirement : spent.hub.up = true ∧ spent.hub.recs = [] ∧ spent.here.ctx.status = .issuing ∧ spent.here.ctx.dleft = 0 ∧
    (let i := Instr.add .d .al .acc .acc (.imm 1)
     decodeFault spent.here.ctx i = none ∧ condHolds spent.here.ctx.stat (condOf i) = true ∧ noDeadline i = false ∧ readable spent .d i = true ∧
      (now i spent).status = .ending (faultOf 0x09) false) ∧
    (let i := Instr.add .d .eq .acc .acc (.imm 1); condHolds spent.here.ctx.stat (condOf i) = false ∧ (effectOf i).isSome = true ∧
      (now i spent).status = .ending (faultOf 0x09) false) ∧
    (let s := at_ 3 { base with dleft := 0, cnt := 1 }
     let i := Instr.wait .al 0
     decodeFault s.here.ctx i = none ∧ noDeadline i = false ∧ Park.wait.pure = true ∧ bodyWait .al 0 s.here = .error (.park s.here .wait) ∧
      (now i s).status = .parked .wait) ∧
    goes spent (.yield .al 3 500) = true ∧ (500 : BitVec 12) ≠ 0 ∧ spent.here.ctx.preempt = false ∧ (now (.yield .al 3 500) spent).dleft = 500 ∧
    (let s := withLine (lineOf [0] 0) spent
     fetchNext s.here = .run (s.here.setBad 0 0) .nop ∧ s.here.ctx.endTest = false ∧ decodeFault s.here.ctx .nop = none ∧
      (after (.watchdogExpiry 3) s).here.ctx.status = .ending (faultOf 0x09) false) := by decide

theorem test_deadline_issue : exec (.add .d .al .acc .acc (.imm 1)) spent = issue (.add .d .al .acc .acc (.imm 1))
    (pureOp (.add .d .al .acc .acc (.imm 1)) .d (fun e g => outN (addR (View.lw .d) g.a.val.toNat g.b.val.toNat 0 e.sat))) spent := rfl

/-- A translation of the 16 KiB page 1 to a tracked page of LPDDR-6. -/
def page1 : Tlb :=
  { pasid := 0, vpage := 1, frame := 0x10000000, quarter := none, r := true, w := true, x := true, u := true, g := false, nc := false, trk := true
    d := true, priv := false }

/-- A state with that translation; P0 points to byte 8 of the page. -/
def gctx : Ctx := { base with p := #v[0x4008, 0xFFFF, 0x1000000000000040, 0x4000000000000040, 4, 0, 6, 0x8000000000000000] }
/-- The same with a context of one's own. -/
def gAt (c : Ctx) : State := { at_ 3 c with cores := [(0, { emptyCore with utlb := [page1] })] }

/-- What `reaches` asks of P0 + 0 in a state of `gAt`, for each kind of access. -/
def reachesOk (s : State) (n : Nat) : Bool :=
  let ptr := s.here.ea (.mem 0 0) n
  spaceOf ptr == 0 && addrOf ptr % n == 0 && s.here.tlbFind (addrOf ptr) == some page1 && page1.grants s.here.priv .atomic && page1.d &&
    !isHub (page1.keyOf (addrOf ptr))

theorem reaches_of_ok {s : State} {n : Nat} (h : reachesOk s n = true) (k : Acc) (hk : k ≠ .fetch) :
    s.here.reaches (s.here.ea (.mem 0 0) n) n k page1 := by
  simp only [reachesOk, Bool.and_eq_true, beq_iff_eq, Bool.not_eq_true'] at h
  obtain ⟨⟨⟨⟨⟨h1, h2⟩, h3⟩, h4⟩, h5⟩, h6⟩ := h
  simp only [Tlb.grants, Bool.and_eq_true] at h4
  refine ⟨h1, h2, h3, ?_, fun _ => .inl h5, h6⟩
  cases k with
  | read => simp [Tlb.grants, h4.1.1, h4.2]
  | write => simp [Tlb.grants, h4.1.2, h4.2]
  | atomic => simp [Tlb.grants, h4.1.1, h4.1.2, h4.2]
  | fetch => exact absurd rfl hk

/-- The memory that the loads read: 8 bytes at the key of P0. -/
def gmem : List Host.Cell := [(0x10000008, 0x78), (0x10000009, 0x56), (0x1000000A, 0x34), (0x1000000B, 0x92)]
/-- A datum that has landed for P0. -/
def land : Landed := { va := 0x4008, n := 4, val := 0x92345678, pois := false, flag := false, atom := false, eq := false }

/-- A load that parks, one whose datum has landed, one from S, one to W, and the arrivals. -/
theorem test_witness_LoadsParkAndLand :
    (let s := gAt gctx
     goes s (.ld .w .al false .acc (.mem 0 0)) = true ∧ Opd.isMem .acc = false ∧ reachesOk s 4 = true ∧ s.here.ctx.landed = [] ∧
     goes s (.lda .w .al true .acq .dev (.preg 1) (.mem 0 0)) = true ∧ (now (.ld .w .al false .acc (.mem 0 0)) s).status = .parked (.load 0x4008 0x10000008 4 false none false true)) ∧
    (let s := gAt { gctx with landed := [land] }
     let i := Instr.ld .w .al false .acc (.mem 0 0)
     let j := Instr.lda .w .al true .acq .dev (.preg 1) (.mem 0 0)
     goes s i = true ∧ goes s j = true ∧ readable0 s .w i = true ∧ readable0 s .w j = true ∧ spaceOf (s.here.ea (.mem 0 0) 4) = 0 ∧
     addrOf (s.here.ea (.mem 0 0) 4) % 4 = 0 ∧ s.here.ctx.landed.find? (fun e => e.va == s.here.ea (.mem 0 0) 4 && e.n == 4 && !e.atom) = some land ∧
     (now i s).a = 0xFFFFFFFF92345678 ∧ (now j s).p[1] = 0x92345678) ∧
    (let i := Instr.lda .w .al true .acq .dev (.preg 1) (.mem 3 0)
     goes user i = true ∧ readable0 user .w i = true ∧ spaceOf (user.here.ea (.mem 3 0) 4) = 4 ∧ addrOf (user.here.ea (.mem 3 0) 4) + 4 ≤ bufSize 4) ∧
    (let s := gAt gctx
     goes s (.ld .w .al false (.mem 2 0) (.mem 0 0)) = true ∧ Opd.isMem (.mem 2 0) = true ∧ spaceOf (s.here.ea (.mem 2 0) 4) = 1 ∧ s.here.ctx.cntOf 0 < 63 ∧
     (now (.ld .w .al false (.mem 2 0) (.mem 0 0)) s).cntOf 0 = 1) ∧
    (let s := { gAt { gctx with status := .parked (.load 0x4008 0x10000008 4 false none false true) } with mem := gmem }
     s.hub.up = true ∧ isRam 0x10000008 = true ∧ mhas s.hostCache (0x10000008 / 64) = false ∧ ownPending (corePending s 0) 0x10000008 4 = false ∧
     (((after (.loadDataArrival 3 none) s).ctx 3).landed.map (·.val)) = [0x92345678]) := by decide

/-- An asynchronous load to W + 0x40. -/
def someLoad : ALoad := { pa := 0x10000008, va := 0x4008, n := 4, space := 1, off := 0x40, trk := true, nc := false, pois := false, seq := 2 }

theorem test_witness_AsynchronousLoad :
    (let s := { gAt { gctx with aldq := [someLoad], cnt := 1 } with mem := gmem }
     s.hub.up = true ∧ (s.ctx 3).aldq[0]? = some someLoad ∧ isRam 0x10000008 = true ∧ mhas s.hostCache (0x10000008 / 64) = false ∧
     ownPending ((corePending s 0).filter (fun g => decide (g.seq < someLoad.seq))) 0x10000008 4 = false ∧ someLoad.space ∈ [1, 2, 3, 4] ∧
     mget 0 (((after (.loadDataArrival 3 (some 0)) s).loc 3).buf 1) 0x43 = 0x92 ∧ ((after (.loadDataArrival 3 (some 0)) s).ctx 3).cntOf 0 = 0) := by decide

theorem test_witness_StoresWaitInTheContext :
    (let s := gAt gctx
     let st := Instr.st .d .al false .rlx .dev (.mem 0 0) (.preg 1)
     let stl := Instr.stl .d .al .rel .sys (.mem 0 0) (.preg 1)
     goes s st = true ∧ goes s stl = true ∧ (fetchOpt s.here .d (stRM s.here.ctx.stat) (shape st).s1).isOk = true ∧
     (fetchOpt s.here .d (stRM s.here.ctx.stat) (shape stl).s1).isOk = true ∧ reachesOk s 8 = true ∧ s.here.ctx.cntOf 1 < 63 ∧
     ((now st s).stq.map (fun g => (g.pa, g.bytes))) = [(0x10000008, [0xFF, 0xFF, 0, 0, 0, 0, 0, 0])] ∧ ramByte (after st s).mem 0x10000008 = 0) ∧
    (let stl := Instr.stl .d .al .rel .sys (.mem 3 0) (.preg 1)
     goes user stl = true ∧ (fetchOpt user.here .d (stRM base.stat) (shape stl).s1).isOk = true ∧ spaceOf (user.here.ea (.mem 3 0) 8) = 4 ∧
     addrOf (user.here.ea (.mem 3 0) 8) + 8 ≤ bufSize 4 ∧ relReady user.here .sys = true ∧ mget 0 ((after stl user).here.buf 4) 0x41 = 0xFF) := by decide

/-- A tracked page and an untracked one (the first 64 MiB). -/
theorem test_witness_StorePerformedWritesMemory :
    (let s := gAt { gctx with stq := [someStore], cnt := 0x40 }
     s.hub.up = true ∧ (s.ctx 3).stq[0]? = some someStore ∧ isRam someStore.pa = true ∧ someStore.pa % 64 + 4 ≤ 64 ∧ mhas s.hostCache (someStore.pa / 64) = false ∧
     storeBarred s 3 someStore = false ∧ relMay s.hub 3 (quietBefore (s.ctx 3) 1) someStore.rel = true ∧ tracked s.hub someStore.pa = true ∧
     wbRoom s.hub (channelOf someStore.pa) someStore.stamp = true ∧ s.hub.wbStall.any (fun x => x.1 == channelOf someStore.pa) = false ∧ ramByte (after (.storePerformed 3 0) s).mem 0x1000000B = 4) ∧
    (let g := { someStore with pa := 0x20000 }
     let s := gAt { gctx with stq := [g], cnt := 0x40 }
     tracked s.hub g.pa = false ∧ g.irv = false ∧ sliceFull s g.pa = false ∧ ramByte (after (.storePerformed 3 0) s).mem 0x20000 = 0 ∧
     homeByte (after (.storePerformed 3 0) s) 0x20000 = 1) := by decide

/-- A request of an AADD with NZ by 0xFFFFFFFF. -/
def addReq : AtomReq :=
  { va := 0x4008, pa := 0x10000008, op := .add, bytes := 4, operand := 0xFFFFFFFF, expected := 0, ord := .rlx, sc := .dev, rel := none, nz := false, ntgt := 0, pois := false
    trk := true, stamp := 1 }

/-- Each atomic at issue and with its old value landed. -/
theorem test_witness_AtomicsReadModifyWrite :
    (let s := gAt gctx
     [Instr.aadd .w .al true .rlx .dev (.preg 1) (.mem 0 0) (.imm 3), .aand .w .al .acq .dev (.preg 1) (.mem 0 0) (.imm 3), .aor .w .al .rel .dev (.preg 1) (.mem 0 0) (.imm 3),
      .axor .w .al .ar .dev (.preg 1) (.mem 0 0) (.imm 3), .amin .w .al true .rlx .dev (.preg 1) (.mem 0 0) (.imm 3), .amax .w .al false .rlx .dev (.preg 1) (.mem 0 0) (.imm 3),
      .aswp .w .al .rlx .dev (.preg 1) (.mem 0 0) (.imm 3), .acas .w .al .rlx .dev (.preg 1) (.mem 0 0) (.imm 3)].all (fun i => goes s i && readable0 s .w i) = true ∧
     s.here.ctx.landed = [] ∧ reachesOk s 4 = true) ∧
    (let s := gAt { gctx with landed := [{ land with atom := true, flag := true }] }
     let i := Instr.acas .w .al .rlx .dev (.preg 1) (.mem 0 0) (.imm 3)
     goes s i = true ∧ readable0 s .w i = true ∧ s.here.ctx.landed.find? (fun e => e.va == s.here.ea (.mem 0 0) 4 && e.atom) = some { land with atom := true, flag := true } ∧
     (now i s).p[1] = 0x92345678 ∧ fZ (now i s).stat = true ∧ (now i s).cir = 4) ∧
    (let s := { gAt { gctx with status := .parked (.atomic addReq) } with mem := gmem }
     s.hub.up = true ∧ (s.ctx 3).status = .parked (.atomic addReq) ∧ addReq.bytes ∈ [4, 8] ∧ relMay s.hub 3 (quietAll (s.ctx 3)) addReq.rel = true ∧
     spaceOf addReq.va = 0 ∧ isRam addReq.pa = true ∧ addReq.pa % 64 + 4 ≤ 64 ∧ mhas s.hostCache (addReq.pa / 64) = false ∧ atomBarred s 3 addReq = false ∧
     s.hub.wbStall.any (fun x => x.1 == channelOf addReq.pa) = false ∧
     tracked s.hub addReq.pa = true ∧ wbRoom s.hub (channelOf addReq.pa) addReq.stamp = true ∧ ramByte (after (.atomicPerformed 3) s).mem 0x10000008 = 0x77) := by decide

/-- A placed actor: launch slot 5, instance 0 on core 2. -/
def placedLaunch : Launch :=
  { pasid := 0, tag := 0, queue := 0, idx := 0, caddr := 0, cval := 0, msie := false, vec := 0, hdr := [], actors := [], pcls := 0, stage := .running
    trigged := none, since := 0, startDrift := 1, places := [(0, 9)], pending := [], insts := [], saved := 0, sects := [] }

/-- A hub with that launch. -/
def placedHub : Hub := { emptyHub with tables := { emptyTables with launches := [(5, placedLaunch)] } }

/-- The address of channel 3 of that actor. -/
def placedActor : BitVec 32 := 0x50003

/-- An AADD with NZ that reaches zero, in G and in S. -/
theorem test_witness_AtomicNotify :
    (let r := { addReq with nz := true, ntgt := placedActor, operand := 0xFFFFFF88 }
     let s := { gAt { gctx with status := .parked (.atomic r) } with mem := [(0x10000008, 0x78)], hub := placedHub }
     (leVal (homeBytes s r.pa 4) + r.operand.toNat) % 2 ^ 32 = 0 ∧ r.ntgt ≠ 0 ∧ placed s.hub r.ntgt = true ∧
     ((after (.atomicPerformed 3) s).hub.flight.map (fun f => (f.kind, f.dest, f.tok.payload))) = [(.notify, .addr placedActor, 0x4008)]) ∧
    (let r := { addReq with va := 0x4000000000000040, pa := 0x40 }
     let s := at_ 3 { base with status := .parked (.atomic r) }
     s.hub.up = true ∧ (s.ctx 3).status = .parked (.atomic r) ∧ spaceOf r.va ∈ [1, 2, 3, 4] ∧ relMay s.hub 3 (quietAll (s.ctx 3)) r.rel = true ∧
     mget 0 (((after (.atomicPerformed 3) s).loc 3).buf 4) 0x40 = 0xFF) := by decide

/-- BMOV in progress and at its end, PREF of G and of W, L1INV of all lines and of one. -/
theorem test_witness_BlockMovesPrefetchesAndInvalidations :
    (let i := Instr.bmov .w .al (.preg 3) (.preg 2) (.preg 4)
     goes user i = true ∧ user.here.p 4 ≠ 0 ∧ user.here.ctx.dleft ≠ 0 ∧ (3 : Reg) ≠ 2 ∧ (3 : Reg) ≠ 4 ∧ (2 : Reg) ≠ 4 ∧
     spaceOf (user.here.p 2) = 1 ∧ addrOf (user.here.p 2) + 4 ≤ bufSize 1 ∧ addrOf (user.here.p 2) % 4 = 0 ∧
     spaceOf (user.here.p 3) = 4 ∧ addrOf (user.here.p 3) + 4 ≤ bufSize 4 ∧ (now i user).p[4] = 3 ∧ (now i user).p[3] = 0x4000000000000044 ∧ (now i user).pc = 0) ∧
    (let i := Instr.bmov .w .al (.preg 3) (.preg 2) (.preg 5)
     goes user i = true ∧ user.here.p 5 = 0 ∧ user.here.ctx.dleft ≠ 0 ∧ (now i user).pc = 1) ∧
    goes (gAt gctx) (.pref .al (.mem 0 0) 3 true) = true ∧ mhas (gAt gctx).hostCache 5 = false ∧ goes user (.pref .al (.mem 2 0) 3 true) = true ∧
    spaceOf (user.here.ea (.mem 2 0) 64) ≠ 0 ∧ goes user (.l1inv .al .acc true) = true ∧ goes (gAt gctx) (.l1inv .al (.preg 0) false) = true ∧
    readable0 (gAt gctx) .d (.l1inv .al (.preg 0) false) = true ∧ (gAt gctx).here.tlbFind 0x4008 = some page1 := by decide

/-- A message for element 3 of 4 bits of W of core 2. -/
def someRst : RstMsg := { core := 2, space := 1, elem := 3, w := 4, u := true, op := .add, val := 9, pois := false, trig := false, seq := 1 }

theorem test_witness_RemoteStoresAct :
    (let s := at_ 3 { base with p := #v[0, 0, 0x1000000000000003, 2, 0, 0, 0, 0] }
     let i := Instr.rst .al true .add .w4 2 .acc
     goes s i = true ∧ readable0 s .d i = true ∧ spaceOf (s.here.p 2) ∈ [1, 2, 3, 4] ∧ inService s.hub ((s.here.p (2 + 1)).toNat % 2048) = true ∧
     addrOf (s.here.p 2) * 4 / 8 < bufSize 1 ∧ s.here.ctx.cntOf 1 < 63 ∧ (now i s).cntOf 1 = 1) ∧
    (let s := { at_ 3 { base with rstq := [someRst], cnt := 0x40 } with cores := [(2, { emptyCore with w := [(1, 0x95)] })] }
     s.hub.up = true ∧ (s.ctx 3).rstq[0]? = some someRst ∧ inService s.hub someRst.core = true ∧ someRst.space ∈ [1, 2, 3, 4] ∧
     (∀ x ∈ (s.ctx 3).rstq.take 0, (someRst.space = 4 → x.space = 4 → clusOfCore x.core ≠ clusOfCore someRst.core) ∧ (someRst.space ≠ 4 → x.space ≠ 4 → x.core ≠ someRst.core)) ∧
     mget 0 (coreAt (after (.rstPerform 3 0) s) 2).w 1 = 0xF5) ∧ someRst.w ∈ [2, 4, 8] := by decide

/-- A wait on S + 0x40. -/
def someWait : WaitaReq := { va := 0x4000000000000040, pa := 0x40, bytes := 8, cmp := 0, tmo := 0, acq := none, trk := true, since := 0, woken := true }

theorem test_witness_WaitaSeesTheValue :
    (let i := Instr.waita .d .al 0 .acq .dev (.preg 1) (.mem 3 0) (.imm 1)
     goes user i = true ∧ readable0 user .d i = true ∧ spaceOf (user.here.ea (.mem 3 0) 8) = 4 ∧ addrOf (user.here.ea (.mem 3 0) 8) + 8 ≤ bufSize 4 ∧
     addrOf (user.here.ea (.mem 3 0) 8) % 8 = 0 ∧ user.here.ctx.landed = [] ∧ leVal (bytesAt (user.here.buf 4) 0x40 8) ≠ 1 ∧ (now i user).landed.length = 1) ∧
    (let i := Instr.waita .d .al 0 .acq .dev (.preg 1) (.mem 3 0) (.imm 0)
     goes user i = true ∧ readable0 user .d i = true ∧ leVal (bytesAt (user.here.buf 4) 0x40 8) = 0) ∧
    (let x := { land with va := 0x4000000000000040, n := 8, atom := true, flag := true, eq := true }
     let s := at_ 3 { base with landed := [x] }
     let i := Instr.waita .d .al 0 .rlx .dev (.preg 1) (.mem 3 0) (.imm 0)
     goes s i = true ∧ readable0 s .d i = true ∧ s.here.ctx.landed.find? (fun e => e.va == s.here.ea (.mem 3 0) 8 && e.atom) = some x ∧
     (now i s).p[1] = 0x92345678 ∧ fZ (now i s).stat = true ∧ (now i s).stat.getLsbD 1 = true) ∧
    (let s := { at_ 3 { base with status := .parked (.waita someWait) } with now := 64 }
     s.hub.up = true ∧ (s.ctx 3).status = .parked (.waita someWait) ∧ spaceOf someWait.va ≠ 0 ∧ waitaBusy s 3 someWait = false ∧ someWait.woken = true ∧ someWait.tmo.toNat < 31 ∧
     someWait.since + 2 ^ (someWait.tmo.toNat + 6) ≤ s.now ∧ ((after (.waitaTimeout 3) s).ctx 3).status = .issuing) := by decide

/-- A mailbox entry (R292): ENTRY 40, PASID 0, DL 100, VAL, KND 1, CAP 4, P 8, C0 1. -/
def boxEntry : BitVec 256 := 0#64 ++ 0x40000080040#64 ++ 0xC818#64 ++ 40#64
/-- A token of payload 0x77. -/
def tok7 : Token := newToken 0x77
/-- An actor firing of channel 0 with one token of quota and production rate 2. -/
def actor : Ctx := { base with kind := .actor 0, ch0 := 0, c0 := 1, quota0 := [tok7], prate := 2, level := 1, lslot := 5 }

/-- END with an empty outbox, with a token for a placed actor and with an access in flight; IDLE; JOIN at 0, 1 and 3; a requested YIELD. -/
theorem test_witness_FiringsEndJoinAndYield :
    (goes user (.endF .al) = true ∧ base.cnt = 0 ∧ base.defLD = none ∧ base.defST = none ∧ base.defCP = none ∧ base.defTL = none ∧ base.pois = false ∧
      refusable user user.here ≤ 64 ∧ base.outbox = [] ∧ (now (.endF .al) user).status = .dormant) ∧
    (let s := { at_ 3 { base with outbox := [.tok tok7 placedActor none] } with hub := placedHub }
     goes s (.endF .al) = true ∧ s.here.ctx.cnt = 0 ∧ s.here.ctx.pois = false ∧ refusable s s.here ≤ 64 ∧ placed s.hub placedActor = true ∧
     ((after (.endF .al) s).hub.flight.map (fun f => f.dest)) = [.addr placedActor]) ∧
    (let s := at_ 3 { base with cnt := 1 }; goes s (.endF .al) = true ∧ s.here.ctx.cnt ≠ 0 ∧ (now (.endF .al) s).status = .parked .finish) ∧
    (goes super (.idle .al) = true ∧ (∀ n < 8, coreOfCid super.cur * 8 + n ≠ super.cur → (super.ctx (coreOfCid super.cur * 8 + n)).status = .dormant) ∧
      (mget emptyCore (after (.idle .al) super).cores 0).gated = true) ∧
    (let i := Instr.join .al (.preg 3) (.preg 0)
     goes user i = true ∧ readable0 user .d i = true ∧ spaceOf (user.here.p 3) = 4 ∧ addrOf (user.here.p 3) % 8 = 0 ∧ addrOf (user.here.p 3) ≤ 0x3FFF8 ∧
     user.here.ctx.level = 4 ∧ (now i user).status = .ending (faultOf 0x19) false) ∧
    (let s := at_ 3 { base with level := 1 }
     let i := Instr.join .al (.preg 3) (.preg 0)
     goes s i = true ∧ readable0 s .d i = true ∧ spaceOf (s.here.p 3) = 4 ∧ addrOf (s.here.p 3) ≤ 0x3FFF8 ∧ s.here.ctx.level ≤ 1 ∧
     s.here.ctx.outbox = [] ∧ cellRead s 0 (s.here.p 3) 0 = 0 ∧ (after i s).hub.noRoom = s.hub.noRoom ∧ (now i s).status = .dormant) ∧
    (let s := { at_ 3 { base with level := 1 } with clus := [(0, { emptyCluster with s := [(0x40, 1)] })] }
     let i := Instr.join .al (.preg 3) (.preg 0)
     goes s i = true ∧ readable0 s .d i = true ∧ cellRead s 0 (s.here.p 3) 0 = 1 ∧ (now i s).pc = 7 ∧ (now i s).status = .issuing) ∧
    (let s := { at_ 3 { base with level := 1 } with clus := [(0, { emptyCluster with s := [(0x40, 3)] })] }
     let i := Instr.join .al (.preg 3) (.preg 0)
     goes s i = true ∧ readable0 s .d i = true ∧ 1 < (cellRead s 0 (s.here.p 3) 0).toNat ∧ s.here.ctx.kind = .actor 0 ∧ s.hub.forks = [] ∧
     cellRead (after i s) 0 (s.here.p 3) 0 = 2 ∧ (now i s).status = .dormant) ∧
    (let s := at_ 3 { base with preempt := true }
     let i := Instr.yield .al 3 500
     goes s i = true ∧ (500 : BitVec 12) ≠ 0 ∧ s.here.ctx.preempt = true ∧ s.here.ctx.cnt = 0 ∧ atLend s.here.ctx = false ∧
     (mget emptyCtx (mget emptyCluster (after i s).clus 0).saves 3).pc = 1 ∧ (mget emptyCtx (mget emptyCluster (after i s).clus 0).saves 3).p[1] = 0) := by decide

/-- A journal entry of W. -/
def undo : JEntry := { space := 1, word := 4, old := List.replicate 16 7, pois := false }

theorem test_witness_FiringsLeaveOnFaultsAndKills :
    (let s := at_ 3 { base with status := .ending (faultOf 0x21) false, journal := [undo] }
     s.hub.up = true ∧ (s.ctx 3).status = .ending (faultOf 0x21) false ∧ (after (.firingEndOnFault 3) s).hub.noRoom = s.hub.noRoom ∧ (s.ctx 3).cmds = [] ∧ (s.ctx 3).stq = [] ∧ (s.ctx 3).aldq = [] ∧ (s.ctx 3).rstq = [] ∧
     (s.ctx 3).journal = [undo] ∧ undo.space ∈ [1, 2, 3] ∧ undo.old.length = 16 ∧ mget 0 (((after (.firingEndOnFault 3) s).loc 3).buf 1) 0x4F = 7) ∧
    (let s := at_ 3 { actor with status := .killing 0 false }
     s.hub.up = true ∧ (s.ctx 3).status = .killing 0 false ∧ (s.ctx 3).kind = .actor 0 ∧ (s.ctx 3).ch1 = none ∧ (s.ctx 3).cmds = [] ∧
     ((chanAt (after (.firingKill 3) s) 0 0).toks.map (·.payload)) = [0x77]) := by decide

/-- An actor whose W holds a BIND image at the place of P2, in the hub of the placed launch. -/
def binder : State :=
  { at_ 3 actor with hub := placedHub, cores := [(0, { emptyCore with w := putBytes [] 0x40 (leBytes 32 boxEntry.toNat) })] }

theorem test_witness_TokenInstructionsFillTheOutbox :
    (let s := at_ 3 { actor with p := base.p.set 4 0x50003 }
     let i := Instr.send .al .acc (.preg 4) none
     goes s i = true ∧ readable0 s .d i = true ∧ s.here.ctx.produced < s.here.ctx.prate ∧ (0x50003 : Nat) / 2 ^ 16 % 2 ^ 16 < 4096 ∧
     (now i s).outbox = [.tok (newToken 5) placedActor none]) ∧
    (let s := at_ 3 { actor with prate := 0 }
     goes s (.send .al .acc .acc none) = true ∧ readable0 s .d (.send .al .acc .acc none) = true ∧ s.here.ctx.prate ≤ s.here.ctx.produced ∧
     (now (.send .al .acc .acc none) s).status = .ending (faultOf 0x0B) false) ∧
    (let i := Instr.sendn .al .acc 6 .nx
     goes binder i = true ∧ readable0 binder .d i = true ∧ neighbourOk binder.hub 0 .nx = true ∧ (now i binder).produced = 1) ∧
    (let i := Instr.recv .al (.preg 1) (.chan 0 false)
     goes binder i = true ∧ readable0 binder .d i = true ∧ actor.kind = .actor 0 ∧ actor.ch0 = 0 ∧ 0 < actor.c0 ∧ actor.quota0[actor.pop0]? = some tok7 ∧
     (now i binder).a = 0x77) ∧
    (let i := Instr.chst .al (.preg 1) (.imm 0)
     goes binder i = true ∧ readable0 binder .d i = true ∧ (now i binder).p[1] = 0x8000100) ∧
    (let i := Instr.bind .al (.mem 2 0) (.imm 3)
     goes binder i = true ∧ spaceOf (binder.here.ea (.mem 2 0) 32) = 1 ∧ addrOf (binder.here.ea (.mem 2 0) 32) % 32 = 0 ∧
     (fetch binder.here .d 0 (.imm 3) (.scalar 8)).isOk = true ∧
     BitVec.ofNat 256 (leVal (bytesAt (binder.here.buf 1) 0x40 32)) = boxEntry ∧ entVal boxEntry = true ∧ entPasid boxEntry = binder.here.ctx.pasid ∧
     imageOk boxEntry 3 = true ∧ (binder.here.ctx.outbox.filter OutItem.isEntry).length < 8 ∧ (now i binder).outbox = [.bind boxEntry 3]) ∧
    (goes binder (.unbind .al (.imm 3)) = true ∧ readable0 binder .d (.unbind .al (.imm 3)) = true ∧ (now (.unbind .al (.imm 3)) binder).outbox = [.unbind 3]) ∧
    (let i := Instr.prio .al (.imm 31) (.imm 13)
     goes binder i = true ∧ readable0 binder .d i = true ∧ entPasid (chanAt binder 0 31).entry = binder.here.ctx.pasid ∧
     entPri (chanAt (after i binder) 0 31).entry = 5 ∧ (chanAt (after i binder) 0 31).masked = true) ∧
    (let i := Instr.rfork .al (.preg 3) (.imm 10) (.imm 3) (.imm 40)
     goes binder i = true ∧ readable0 binder .d i = true ∧ (3 : Word) ≠ 0 ∧ (10 + 3 - 1) / 3 < 2 ^ 32 ∧ spaceOf (binder.here.p 3) = 4 ∧ addrOf (binder.here.p 3) % 8 = 0 ∧
     addrOf (binder.here.p 3) ≤ 0x3FFF8 ∧ binder.here.ctx.level ≤ 1 ∧ (now i binder).outbox.length = 1) ∧
    goes binder (.rfork .al (.preg 3) (.imm 0) (.imm 3) (.imm 40)) = true ∧ readable0 binder .d (.rfork .al (.preg 3) (.imm 0) (.imm 3) (.imm 40)) = true ∧
    (goes binder (.trig .al) = true ∧ launchOf binder.hub binder.here.ctx.lslot.toNat = some placedLaunch ∧ placedLaunch.trigged = none) := by decide

/-- A token on its way to channel 3 of core 2. -/
def flight7 (k : TokKind) : Flight := { tok := tok7, kind := k, src := 0, dest := .addr placedActor, second := none, esc := none }
/-- Core 2 with the mailbox entry at channel 3 and these tokens there. -/
def core2 (ts : List Token) : Core := { emptyCore with chans := [(3, { emptyChan with entry := boxEntry, toks := ts })] }
/-- A fork of ten indices in chunks of three on core 2. -/
def fork10 : Fork :=
  { id := 0, lslot := 5, level := 0, unit := 2, pasid := 1, n := 10, m := 3, e := 40, j := 0x4000000000000040, ps := [1, 2, 3, 4, 5], prate := 1, pri := 0
    dl := 100, inst := 0, oedge := 0, fromCore := 2, next := 0, total := 4, back := [], sig := 0 }

theorem test_witness_TokensTravelAndFire :
    (let s := { State.reset with hub := { placedHub with flight := [flight7 .send] }, cores := [(2, core2 [])] }
     s.hub.up = true ∧ s.hub.flight[0]? = some (flight7 .send) ∧ overtakes s.hub 0 (flight7 .send) = false ∧ targetOf s.hub (flight7 .send) = some (2, 3) ∧
     inService s.hub 2 = true ∧ (chanAt s 2 3).entry = boxEntry ∧ entVal boxEntry = true ∧ entKnd boxEntry = true ∧ toFailed s (flight7 .send) = false ∧ pasidBars s (flight7 .send) 2 3 = false ∧
     slotsUsed s 2 3 + (flight7 .send).count ≤ entCap boxEntry ∧ (chanAt (after (.tokenArrival 0) s) 2 3).toks.map (·.payload) = [0x77]) ∧
    (let s := { State.reset with hub := { placedHub with creditFly := [(placedActor, 9)] }, cores := [(2, { emptyCore with credits := [(9, 4)] })] }
     s.hub.up = true ∧ s.hub.creditFly[0]? = some (placedActor, 9) ∧ pst (placeWordOf s.hub placedActor) = 1 ∧
     mget 0 (coreAt s 2).credits 9 = 4 ∧ mget 0 (coreAt (after (.creditReturn 0) s) 2).credits 9 = 5) ∧
    ([TokKind.event, .notify, .record].all (fun k =>
      let s := { State.reset with hub := { placedHub with refused := [flight7 k] }, cores := [(2, core2 [])] }
      let full := { s with cores := [(2, core2 [tok7, tok7, tok7, tok7])] }
      s.hub.up && s.hub.refused[0]? == some (flight7 k) && targetOf s.hub (flight7 k) == some (2, 3) && inService s.hub 2 &&
        arrivalOf s (flight7 k) 2 3 == .take && arrivalOf full (flight7 k) 2 3 == .refuse) = true) ∧
    (let s := { State.reset with hub := placedHub, cores := [(2, core2 [tok7])] }
     s.hub.up = true ∧ mayselect s 2 = true ∧ freeCtx s 2 = some 16 ∧ pickHandler s 2 = some 3 ∧ entC1 boxEntry = 0 ∧
     ((after (.firingSelection 2) s).ctx 16).pc = 40 ∧ ((after (.firingSelection 2) s).ctx 16).dleft = 100) := by decide

/-- An edge entry of depth 0 whose other fields are those of the mailbox entry. -/
def edgeEntry : BitVec 256 := 0#64 ++ 0x40000080040#64 ++ 0xC808#64 ++ 40#64
/-- Core 2 with that edge at channel 3 and these tokens there. -/
def edge2 (ts : List Token) : Core := { emptyCore with chans := [(3, { emptyChan with entry := edgeEntry, toks := ts })] }

/-- A full mailbox refuses; an edge takes a token with its credit, drops one without, pools others, and a drained row waits on a full pool. -/
theorem test_witness_ArrivalsOnFullChannels :
    (let f := { flight7 .send with tok := { tok7 with refCh := some 4 } }
     let s := { State.reset with hub := { placedHub with flight := [f] }, cores := [(2, core2 [tok7, tok7, tok7, tok7])] }
     entKnd boxEntry = true ∧ entCap boxEntry < slotsUsed s 2 3 + f.count ∧ f.tok.refCh = some 4 ∧ toFailed s f = false ∧ pasidBars s f 2 3 = false ∧
     ((after (.tokenArrival 0) s).hub.flight.map (fun g => (g.kind, g.dest))) = [(.refusal, .chan 0 4)]) ∧
    (let f := { flight7 .send with tok := { tok7 with cred := true } }
     let s := { State.reset with hub := { placedHub with flight := [f] }, cores := [(2, edge2 [])] }
     entVal edgeEntry = true ∧ entKnd edgeEntry = false ∧ f.tok.cred = true ∧ pasidBars s f 2 3 = false ∧ (chanAt (after (.tokenArrival 0) s) 2 3).toks.length = 1) ∧
    (let f := flight7 .send
     let s := { State.reset with hub := { placedHub with flight := [f] }, cores := [(2, edge2 [])] }
     f.tok.cred = false ∧ toFailed s f = false ∧ pasidBars s f 2 3 = false ∧ (chanAt (after (.tokenArrival 0) s) 2 3).toks = []) ∧
    (let f := flight7 .drain
     let s := { State.reset with hub := { placedHub with flight := [f] }, cores := [(2, edge2 [])] }
     let full := { s with cores := [(2, edge2 (List.replicate 16 tok7))] }
     poolFits s 2 3 f.count = true ∧ pasidBars s f 2 3 = false ∧ (chanAt (after (.tokenArrival 0) s) 2 3).toks.length = 1 ∧
     poolFits full 2 3 f.count = false ∧ after (.tokenArrival 0) full = full) := by decide +kernel

/-- A chunk is dealt to core 2, which the launch owns. -/
theorem test_witness_ChunkDeal :
    (let s := { State.reset with hub := { placedHub with forks := [fork10] }, clus := [(0, { emptyCluster with owner := some 5 })] }
     s.hub.up = true ∧ s.hub.forks[0]? = some fork10 ∧ takeChunk fork10 = some (0, { fork10 with next := 1 }) ∧ chunkCore s fork10 = some 2 ∧
     ((after (.chunkDeal 0) s).ctx 16).p[1] = 3) := by decide +kernel

/-- The drift numbers 3 open and 2 sealed. -/
def sealing (c : Ctx) : State := { at_ 3 c with hub := { emptyHub with seals := { emptyHub.seals with newest := 3, sealed := 2 } } }

theorem test_witness_ChecksDriftsAndSeals :
    (goes user (.chkerr .al (.preg 1) true) = true ∧ (true && base.pois) = false) ∧
    (let s := at_ 3 { actor with cir := 1 }
     goes s (.chkerr .al (.preg 1) true) = true ∧ s.here.ctx.pois = true ∧ s.here.ctx.irv = false ∧ (∀ t ∈ s.here.ctx.quota0 ++ s.here.ctx.quota1, t.redeliv < 2) ∧
     (now (.chkerr .al (.preg 1) true) s).status = .killing 0x30 false) ∧
    (let s := sealing base
     goes s (.seal .al (.preg 1) true false) = true ∧ goes s (.seal .al (.preg 1) true true) = true ∧ goes s (.seal .al (.preg 1) false false) = true ∧
     s.here.ctx.cntOf 1 = 0 ∧ goes s (.drift .al (.preg 1)) = true ∧ (now (.drift .al (.preg 1)) s).p[1] = 0x200000003 ∧
     (now (.seal .al (.preg 1) true true) s).status = .parked (.seal 3)) ∧
    ([(2, true), (3, false)].all (fun e =>
      let s := sealing { base with status := .parked (.seal e.1) }
      s.hub.up && decodeFault s.here.ctx (.seal .al (.preg 1) true true) == none && condHolds s.here.ctx.stat .al && s.here.ctx.dleft != 0 &&
        isSealed s.hub.seals e.1 == e.2 && (now (.seal .al (.preg 1) true true) s).status == (if e.2 then .issuing else .parked (.seal 3))) = true) := by decide

/-- TRAP at each privilege, and RTI. -/
theorem test_witness_TrapsEnterAndReturn :
    (goes super (.trap .al 0x0100) = false ∨ ¬ ((7 : BitVec 16) = 0x0100 ∧ super.here.ctx.mtvec = none)) ∧ goes super (.trap .al 7) = true ∧
    stPRIV super.here.ctx.stat = 1 ∧
    (let s := at_ 3 { base with stat := boss, mtvec := some 50 }
     goes s (.trap .al 7) = true ∧ (now (.trap .al 7) s).pc = 50 ∧ (now (.trap .al 7) s).mtpc = 1 ∧ stPRIV (now (.trap .al 7) s).stat = 2) ∧
    goes user (.trap .al 7) = true ∧ stPRIV user.here.ctx.stat = 0 ∧ camFree user.hub = some 0 ∧ (now (.trap .al 7) user).status = .parked (.trap 0) ∧
    goes machine (.trap .al 7) = true ∧ 2 ≤ stPRIV machine.here.ctx.stat ∧ goes machine (.rti .al) = true ∧
    (let s := at_ 3 { base with stat := 0x100000000000, mtpc := 33, mtst := 0x12 }
     goes s (.rti .al) = true ∧ (now (.rti .al) s).pc = 33 ∧ (now (.rti .al) s).stat = 0x12) := by decide

/-- MFS of every readable register and MTS of every writable one, in machine mode. -/
theorem test_witness_SpecialRegistersReadAndWrite :
    ([0x0#16, 0x1#16, 0x2#16, 0x3#16, 0x4#16, 0x5#16, 0x6#16, 0x8#16, 0x9#16, 0xA#16, 0xB#16, 0xC#16, 0xD#16, 0x10#16, 0x11#16, 0x12#16, 0x13#16, 0x14#16,
      0x120#16, 0x1000#16, 0x1001#16, 0x1002#16, 0x1003#16].all (fun r => goes machine (.mfs .al (.preg 1) r)) = true) ∧
    ([0x0#16, 0x1#16, 0x2#16, 0x4#16, 0x6#16, 0x8#16, 0x9#16, 0xA#16, 0xB#16, 0xC#16, 0xD#16, 0x120#16, 0x1000#16, 0x1001#16, 0x1002#16, 0x1003#16].all
      (fun r => goes machine (.mts .al (.preg 1) r) && readable0 machine .d (.mts .al (.preg 1) r)) = true) ∧
    machine.here.ctx.pairBad = false ∧ stDS machine.here.ctx.stat = 0 ∧ atLend machine.here.ctx = false ∧
    (now (.mfs .al (.preg 1) 0x11) user).p[1] = 100 ∧ (now (.mfs .al (.preg 1) 0x10) user).p[1] = 3 ∧ (now (.mts .al (.preg 1) 0x4) user).ntgt = 0xFFFF ∧
    (now (.mts .al (.preg 1) 0x1) super).cir = 0xFF0F ∧ (now (.mts .al .ones 0x0) user).stat = 0xFF0000001F := by decide
/-- A supervisor whose registers these are, on a core with the translation of page 1. -/
def ruler (p : Vector Word 8) : State := gAt { base with stat := boss, p := p }
/-- Registers: P0 names context 11, P1 the record at byte 0 of page 1, P2 a page, P3 fault-queue entry 0 of sequence 1, P4 an actor, P5 a word that places it on core 2. -/
def rulerRegs : Vector Word 8 := #v[11, 0x4000, 0x4000, 0x40, 0x50000, 9, 0, 0]
/-- That supervisor beside a second context. -/
def rulerOf (c : Ctx) : State := { ruler rulerRegs with ctxs := [(3, { base with stat := boss, p := rulerRegs }), (11, c)] }
/-- An entry of the fault queue on which context 11 is parked. -/
def camOne : CamEntry := { seq := 1, pasid := 0, page := 1, sub := 0, code := 0x10, trapNo := 0, reqs := [.ctx 11], ftime := 0, priSent := false, acc := .read }

/-- A parked context 11 beside the supervisor. -/
def parked11 : State := rulerOf { base with status := .parked .wait, pc := 21 }

/-- The 8 KiB of the record lie in the cached page and in LPDDR-6. -/
theorem test_witness_ContextRecordWindow : parked11.window parked11.here 0x4000 8192 0x10000000 := by
  have e : parked11.here.core.utlb ++ parked11.here.clus.tlb ++ parked11.here.dom.tlb = [page1] := by decide
  have f : parked11.here.ctx.pasid.toNat = 0 := by decide
  have g : addrOf (0x4000 : Word) = 0x4000 := by decide
  refine ⟨by decide, by decide, fun i hi => ⟨?_, ?_, rfl, fun j hj => ?_⟩⟩
  · have c1 : page1.covers 0 (0x4000 + i) = true := by simp [Tlb.covers, page1]; omega
    rw [g, Loc.tlbFind, e, f]
    simp [tlbPick, c1]
    simp [page1, Tlb.keyOf]; omega
  · simp [isRam]; omega
  · have b : ∀ d, mget ((d * 64 + 63) * 2 ^ 30) parked11.hub.wbBase d = (d * 64 + 63) * 2 ^ 30 := fun _ => rfl
    simp only [inLog, wbBaseOf, b]; omega

theorem test_witness_MachineInstructionsAct :
    (let s := ruler rulerRegs
     goes s (.tlbi .al (.preg 2) (.imm 0) .page) = true ∧ readable0 s .d (.tlbi .al (.preg 2) (.imm 0) .page) = true ∧
     (∀ x ∈ s.ctxs, tlbiBusy .page (addrOf 0x4000#64 / 2 ^ 14) 0 x.2 = false ∧ waitaOf s x.1 = none) ∧
     (∀ x ∈ s.cores, tlbiPref .page (addrOf 0x4000#64 / 2 ^ 14) 0 x.2 = false) ∧
     (coreAt (after (.tlbi .al (.preg 2) (.imm 0) .page) s) 0).utlb = []) ∧
    (let s := parked11
     let i := Instr.ctxsv .al (.preg 0) (.preg 1) 0x1FF
     goes s i = true ∧ readable0 s .d i = true ∧ (11 : Nat) ≠ s.cur ∧ inService s.hub (coreOfCid 11) = true ∧ savable (s.ctx 11).status = true ∧ (s.ctx 11).cnt = 0 ∧
     dueFault (s.ctx 11) (fun _ => true) = none ∧ (recordPtr s.here 0x4000 .write).isOk = true ∧ relReady s.here .dev = true) ∧
    (let s := rulerOf { base with status := .issuing }
     let i := Instr.ctxsv .al (.preg 0) (.preg 1) 0x1FF
     goes s i = true ∧ savable (s.ctx 11).status = false ∧ fZ (now i s).stat = false) ∧
    (let s := ruler #v[0, 0, 0, 0x40, 0, 0, 0, 0]
     goes s (.replay .al (.preg 3) .acc) = true ∧ readable0 s .d (.replay .al (.preg 3) .acc) = true ∧ s.here.ctx.stq = [] ∧ s.here.ctx.rstq = [] ∧ camOf s.hub 0x40 = none) ∧
    (let s := { rulerOf { base with status := .parked (.fault 0 0x4000 .read) } with hub := { emptyHub with cam := [(0, camOne)] } }
     goes s (.replay .al (.preg 3) .acc) = true ∧ camOf s.hub 0x40 = some (0, camOne) ∧ camOne.reqs = [.ctx 11] ∧ (s.ctx 11).status = .parked (.fault 0 0x4000 .read) ∧
     goes s (.killf .al (.preg 3) true) = true ∧ readable0 s .d (.killf .al (.preg 3) true) = true ∧ (s.ctx 11).irv = false ∧
     ((after (.replay .al (.preg 3) .acc) s).ctx 11).status = .parked (.walk 0x4000 .read) ∧ ((after (.killf .al (.preg 3) true) s).ctx 11).status = .killing 0 true) ∧
    (let s := { rulerOf { base with status := .parked (.trap 0), pc := 7 } with hub := { emptyHub with cam := [(0, { camOne with code := 0x40 })] } }
     goes s (.replay .al (.preg 3) .acc) = true ∧ (s.ctx 11).status = .parked (.trap 0) ∧ ((after (.replay .al (.preg 3) .acc) s).ctx 11).pc = 8) ∧
    (let s := ruler rulerRegs
     goes s (.sigh .al (.imm 9) true) = true ∧ readable0 s .d (.sigh .al (.imm 9) true) = true ∧ extFull s.hub = false ∧ goes s (.sigh .al (.imm 9) false) = true ∧
     (after (.sigh .al (.imm 9) true) s).hub.out = [.msi 9]) ∧
    (let s := { ruler rulerRegs with hub := placedHub }
     let i := Instr.place .al (.preg 4) (.preg 5)
     goes s i = true ∧ readable0 s .d i = true ∧ adSlot 0x50000 < 4096 ∧ placeBad 9 = false ∧ pst (9 : Word) = 1 ∧ inService s.hub (plCore (9 : Word)) = true ∧
     launchOf s.hub (adSlot 0x50000) = some placedLaunch ∧ placedLaunch.pending = [] ∧ mget emptyInst placedLaunch.insts (adInst 0x50000) = emptyInst) := by decide +kernel

/-- Nobody waits for room in the CAM where no context does and no engine queue or work item is listed. -/
theorem noWaiter_of (s : State) (hc : ∀ e ∈ s.ctxs, (match e.2.status with | .parked (.camWait ..) => false | _ => true) = true) (hq : s.clus = []) (hd : s.doms = [])
    (hw : s.hub.tables.works = []) : ∀ w, waitsCam s w = none := by
  have g : ∀ (m : Map Ctx) (c : Nat), (∀ e ∈ m, (match e.2.status with | .parked (.camWait ..) => false | _ => true) = true) →
      (match (mget emptyCtx m c).status with | .parked (.camWait ..) => false | _ => true) = true := by
    intro m c
    induction m with
    | nil => intro _; rfl
    | cons e t ih =>
        intro h
        by_cases k : e.1 = c
        · simpa [mget, k] using h e (by simp)
        · simpa [mget, k] using ih (fun x hx => h x (by simp [hx]))
  intro w
  cases w with
  | ctx cid =>
      have := g s.ctxs cid hc
      simp only [waitsCam, ctxOf]
      split
      · rename_i e; rw [e] at this; cases this
      · rfl
  | engine e => cases e with
    | clus c q => cases q <;> simp [waitsCam, copyQ, hq, emptyCluster]
    | bulk d => simp [waitsCam, copyQ, hd, emptyDomain]
  | work n => simp [waitsCam, workOf, hw]

/-- The supervisor's fault queue and trap queue have no waiter. -/
theorem test_witness_NoWaiter : ∀ p ∈ [Park.fault 0 0x4000 .read, .trap 0], ∀ w,
    waitsCam { rulerOf { base with status := .parked p } with hub := { emptyHub with cam := [(0, camOne)] } } w = none := by
  intro p hp
  apply noWaiter_of _ _ rfl rfl rfl
  revert p; decide

/-- A record whose version byte is 1 and whose valid bit is set loads into a dormant context. -/
theorem test_witness_LoadOfAContext :
    (let s := { rulerOf emptyCtx with mem := [(0x10000000 + 104, 9), (0x10000000 + 184, 1), (0x10000000 + 185, 1)] }
     let i := Instr.ctxld .al (.preg 0) (.preg 1)
     goes s i = true ∧ readable0 s .d i = true ∧ (s.ctx 11).status = .dormant ∧ (recordPtr s.here 0x4000 .read).isOk = true ∧ s.here.ctx.stq = [] ∧ s.grans = [] ∧ s.hub.held = [] ∧
     imageValid (bytesOf s s.here 0x4000 8192) = true) := by decide +kernel

/-- A pair word: format i8, columns, rows, row pitch 16 (R262). -/
def pairWord (cols rows : Nat) : Word := BitVec.ofNat 64 (cols * 2 ^ 48 + rows * 2 ^ 36 + 16)
/-- A tile configuration: 32 columns, 4 rows, channel 3, one core, the first of the sector (R275). -/
def cfgWord : Word := 0x0020004003040000
/-- Pairs: P0 a destination in W, P2 a source in S, P4 a configuration in Y; P6 a DIST pattern of one core, P7 a bad one. -/
def engRegs : Vector Word 8 := #v[0x1000000000000000, pairWord 16 2, 0x4000000000000000, pairWord 16 2, 0x3000000000000000, cfgWord, 8, 0x80]
/-- A context with those registers whose launch owns its sector. -/
def engine (k : Core) : State :=
  { at_ 3 { base with p := engRegs, lslot := 5 } with
    cores := [(0, k)], clus := [0, 1, 2, 3].map (fun n => (n, { emptyCluster with owner := some 5 })) }
/-- A core with that tile configuration. -/
def tiled : Core := { emptyCore with tileSet := true, tile0 := 0x3000000000000000, tile1 := cfgWord, tileGen := 1 }

/-- The record of a COPYT: TDRN of row 0, with NP 0 (R272). -/
def drainRecord : List Byte := leBytes 12 (enF 0xB7 0 0 0 2 0xC0007 0).toNat ++ List.replicate 36 0

theorem test_witness_EnginesTakeCommands :
    (let s := engine tiled
     goes s (.copy .al .q0 0 2 none false true false) = true ∧ readable0 s .d (.copy .al .q0 0 2 none false true false) = true ∧
     (copyPair s.here .q0 0 2 true false).toOption = some (0x1000000000000000, pairWord 16 2, 0x4000000000000000, pairWord 16 2) ∧ s.here.ctx.cntOf 2 < 63 ∧
     (s.here.copyQ .q0).length < copyCap .q0 ∧ (now (.copy .al .q0 0 2 none false true false) s).cntOf 2 = 1) ∧
    (let s := engine { tiled with w := (putBytes [] 0x1000 drainRecord) }
     let s := { s with ctxs := [(3, { base with p := engRegs.set 6 0x1000000000001000, lslot := 5 })] }
     let i := Instr.copyt .al .q1 0 2 (.mem 6 0) false false false
     goes s i = true ∧ (match readRecord s.here (s.here.ea (.mem 6 0) 48) with | .ok r => (recordImage s.here r.1).isOk | .error _ => false) = true ∧
     s.here.ctx.cntOf 3 < 63 ∧ (now i s).cntOf 3 = 1) ∧
    (let s := engine emptyCore
     goes s (.tcfg .al 4) = true ∧ s.here.pairAt 4 = (0x3000000000000000, cfgWord) ∧ fld cfgWord 30 6 = 0 ∧ fld cfgWord 0 13 = 0 ∧ isService 0 = false ∧
     cfgOk s.hub 0 0x3000000000000000 cfgWord = true ∧ ownsLmu s s.here.ctx 0 = true ∧ s.here.core.tileOut = 0 ∧ (coreAt (after (.tcfg .al 4) s) 0).tileSet = true ∧
     goes s (.tcfg .al 6) = true ∧ ¬ (fld (s.here.pairAt 6).2 30 6 = 0 ∧ fld (s.here.pairAt 6).2 0 13 = 0) ∧
     goes user (.tcfg .al 4) = true ∧ fld (user.here.pairAt 4).2 30 6 = 0 ∧ fld (user.here.pairAt 4).2 0 13 = 0 ∧ ownsLmu user user.here.ctx 0 = false ∧
     goes s (.trel .al) = true ∧ s.here.core.tileSet = false) ∧
    (let s := engine tiled
     goes s (.trel .al) = true ∧ s.here.core.tileSet = true ∧ s.here.core.tileOut = 0 ∧
     (∀ n < cfNCORE s.here.core.tile1, ∀ x ∈ (coreAt s (0 / 32 * 32 + cfFIRST s.here.core.tile1 + n)).rows, ¬ (x.core = 0 ∧ x.gen = s.here.core.tileGen)) ∧
     inService s.hub 0 = true ∧ 0 < cfRegion cfgWord) ∧
    (let s := engine tiled
     [(Instr.tldb .al 2 (.imm 7) true 0), (.tmul .al 2 (.imm 7) true false 0 0 false .add), (.tdrn .al (.imm 7) true 3 0)].all (fun i => goes s i && readable0 s .d i &&
       (match tileOpOf s.here.pairAt i with | some op => (tileCheck s.here op).isOk | none => false) && decide (s.here.ctx.cntOf 3 < 63) && decide (tileCount s 0 < 32)) = true) ∧
    (let s := engine emptyCore
     goes s (.dist .al (.preg 6)) = true ∧ readable0 s .d (.dist .al (.preg 6)) = true ∧ (8 : Nat) / 2 ^ 16 = 0 ∧ distNC 8 = 1 ∧ inService s.hub (distCore 8 (clusOfCore 0) 0) = true ∧
     goes s (.dist .al (.preg 7)) = true ∧ readable0 s .d (.dist .al (.preg 7)) = true ∧ ¬ ((0x80 : Word).getLsbD 7 = false) ∧ (now (.dist .al (.preg 7)) s).status = .ending (faultOf 0x01) false) := by
  decide +kernel

/-- TPOLY under digit rows of 384 columns. -/
theorem test_witness_TpolyEnters :
    (let s := engine { tiled with tile1 := 0x2180004003040000 }
     let i := Instr.tpoly .al 2 2 (.imm 7) false 0 false 16 true .fault
     goes s i = true ∧ readable0 s .d i = true ∧ (match tileOpOf s.here.pairAt i with | some op => (tileCheck s.here op).isOk | none => false) = true ∧
     (now i s).cntOf 3 = 1) := by decide +kernel

/-- A member of a copy of context 3. -/
def member3 : Member := { cid := 3, seq := 0, core := 0, bits := 1, ntf := none, image := none }
/-- A copy of two rows of 16 bytes from S to W. -/
def copy3 : CopyCmd :=
  { members := [member3], dst0 := 0x1000000000000000, dst1 := pairWord 16 2, src0 := 0x4000000000000000, src1 := pairWord 16 2, irv := false, dist := none
    comb := false, opened := none, pasid := 0, priv := 0, pos := 0, started := false, parked := none, walking := none
    missAt := 0, due := none }
/-- A state whose cluster 0 holds these copies in queue 0, for a context that issued one. -/
def copying (q : List CopyCmd) (ims : List TileCmd) : State :=
  { at_ 3 { base with cnt := 0x1000, cmds := [{ seq := 0, queues := 1, started := true, writesG := false }], cmdSeq := 1 } with
    clus := [(0, { emptyCluster with s := [(0, 9), (1, 8)], q0 := q, images := ims })], hub := placedHub }
/-- A tile command of context 3. -/
def tile3 (op : TileOp) : TileCmd :=
  { cid := 3, seq := 0, op := op, tid := 7, cfg0 := 0x3000000000000000, cfg1 := cfgWord, gen := 1, done := false, gov := false, ovf := false, pois := false, drainAt := 0
    begun := false }

theorem test_witness_CopyEnginesMoveBytes :
    (let s := copying [copy3] []
     s.hub.up = true ∧ s.hub.recs = [] ∧ engHeld s (.clus 0 false) = false ∧ copyQ s (.clus 0 false) = [copy3] ∧ copy3.started = false ∧ copyMayStart s (.clus 0 false) copy3 = true) ∧
    (let k := { copy3 with started := true }
     let s := copying [k] []
     engHeld s (.clus 0 false) = false ∧ myTurn s (.clus 0 false) = true ∧ k.started = true ∧ k.walking = none ∧ k.parked = none ∧ k.members = [member3] ∧ k.dist = none ∧ (tensOf k.dst0 k.dst1).sp ∈ [1, 2, 4] ∧
     (tensOf k.src0 k.src1).sp ∈ [2, 3, 4] ∧ (tensOf k.dst0 k.dst1).sp ≠ (tensOf k.src0 k.src1).sp ∧ k.pos < (tensOf k.src0 k.src1).total ∧
     mget 0 (((after (.copyEngineTransfer (.clus 0 false) 1) s).loc 0).buf 1) 1 = 8) ∧
    (let k := { copy3 with started := true, pos := 32 }
     let s := copying [k] []
     engHeld s (.clus 0 false) = false ∧ (tensOf k.src0 k.src1).total ≤ k.pos ∧ k.members = [member3] ∧ member3.image = none ∧ (∃ o ∈ (s.ctx member3.cid).cmds, o.seq = member3.seq) ∧ member3.ntf = none ∧
     ((after (.copyCompletion (.clus 0 false)) s).ctx 3).cntOf 2 = 0) ∧
    (let m := { member3 with ntf := some placedActor }
     let k := { copy3 with started := true, pos := 32, members := [m] }
     let s := copying [k] []
     engHeld s (.clus 0 false) = false ∧ m.ntf = some placedActor ∧ placed s.hub placedActor = true ∧ (after (.copyCompletion (.clus 0 false)) s).hub.flight.length = 1) ∧
    (let k := { copy3 with comb := true, opened := some 0 }
     let s := { copying [k] [] with now := 64 }
     s.hub.up = true ∧ (mget emptyCluster s.clus 0).q0 = [k] ∧ k.opened = some 0 ∧ ((mget emptyCluster (after (.combineGroupClose 0 0) s).clus 0).q0.map (·.opened)) = [none]) ∧
    (let im := tile3 (.tdrn true 0 1)
     let s := copying [] [im]
     s.hub.up = true ∧ imagesOf s (.clus 0 false) = [im] ∧ (mget emptySector s.sects (sectOfCore (coreOfCid im.cid))).tileq.length < 32 ∧
     (mget emptySector (after (.copytImageEnqueue (.clus 0 false)) s).sects 0).tileq = [im]) := by decide +kernel

/-- A completion token that waits at a full edge holds its queue; a queue out of turn moves nothing, and one in turn passes it on. -/
theorem test_witness_CopyQueuesWait :
    (let k := { copy3 with started := true }
     let s := { copying [k] [] with cores := [(2, edge2 (List.replicate 16 tok7))] }
     let s := { s with hub := { s.hub with flight := [{ flight7 .copied with src := engSrc (.clus 0 false) }] } }
     s.hub.up = true ∧ engHeld s (.clus 0 false) = true ∧ after (.copyEngineTransfer (.clus 0 false) 1) s = s ∧ after (.copyCompletion (.clus 0 false)) s = s) ∧
    (let k := { copy3 with started := true }
     let s := copying [k] []
     let s := { s with clus := [(0, { mget emptyCluster s.clus 0 with q1 := [k], turn := true })] }
     (mget emptyCluster s.clus 0).turn = true ∧ headLive s (.clus 0 true) = true ∧ after (.copyEngineTransfer (.clus 0 false) 1) s = s ∧
     (mget emptyCluster (after (.copyEngineTransfer (.clus 0 true) 1) s).clus 0).turn = false) := by decide +kernel

/-- A stationary bank with 5 in row 0 and 7 in row 1 of column 0. -/
def bank57 : Bank := { loaded := true, wA := 8, n := 32, bp := false, tid := 0, pois := false, elems := [(0, 261), (128, 263)] }
/-- Sector 0 with this queue, that bank, and S with a row of 2 and 3. -/
def tiling (q : List TileCmd) : State :=
  { at_ 3 { base with cnt := 0x40000, cmds := [{ seq := 0, queues := 4, started := false, writesG := false }], cmdSeq := 1 } with
    sects := [(0, { emptySector with bank0 := bank57, tileq := q, accum := [(0, 11)] })], clus := [(0, { emptyCluster with s := [(0, 2), (1, 3)] })] }

/-- TMUL of (2, 3) with (5, 7) is 31, added to 11; a drained row goes to Y; TLDB and TPOLY may run. -/
theorem test_witness_TileCommandsCompute :
    (let t := tile3 (.tmul 0x4000000000000000 (pairWord 2 1) false false 0 0 false .add)
     let s := tiling [t]
     s.hub.up = true ∧ tileReady s 0 = some t ∧ bank57.loaded = true ∧ slotWidth (tensOf 0x4000000000000000 (pairWord 2 1)).fmt = bank57.wA ∧
     mget 0 (mget emptySector (after (.tmulExecute 0) s).sects 0).accum 0 = 42) ∧
    (let t := tile3 (.tldb 0x4000000000000000 (pairWord 2 1) true 0)
     let s := tiling [t]
     tileReady s 0 = some t ∧ (∃ o ∈ (s.ctx t.cid).cmds, o.seq = t.seq) ∧ elemAt (s.loc 3) (tensOf 0x4000000000000000 (pairWord 2 1)) false 0 1 = some 3 ∧
     ((after (.tldbExecute 0) s).ctx 3).cntOf 3 = 0) ∧
    (let t := tile3 (.tpoly 0x4000000000000000 (pairWord 2 1) 0x4000000000000000 (pairWord 2 1) false 0 false 16 true .carry)
     tileReady (tiling [t]) 0 = some t) ∧
    PolyMode.fault ≠ .carry ∧
    (let t := tile3 (.tdrn true 0 1)
     let s := tiling [t]
     tileOrder s 0 = [t] ∧ drainHeld s 0 = false ∧ drainOf t = some (0, 1, true) ∧ fenceOk (s.ctx 3) t.seq 4 = true ∧ rowCore t.cfg1 (coreOfCid 3) 0 = 0 ∧
     inService s.hub 0 = true ∧ (∀ x ∈ (coreAt s 0).rows, ¬ (x.off < rowY t.cfg0 t.cfg1 0 + cfRS t.cfg1 ∧ rowY t.cfg0 t.cfg1 0 < x.off + x.len)) ∧
     mget 0 (coreAt (after (.drainRow 0) s) 0).y 0 = 11 ∧ mget 0 (mget emptySector (after (.drainRow 0) s).sects 0).accum 0 = 0) := by decide +kernel
theorem test_witness_EncodeThenDecode : isWord (.ins .b .al .acc (.mem 3 (-2)) 3 4) = true ∧ wellFormed (.ins .b .al .acc (.mem 3 (-2)) 3 4) = true ∧
    isWord (.yield .al 3 500) = true ∧ wellFormed (.yield .al 3 500) = true := by decide

theorem test_witness_DecodeYieldsWellFormed : (decode addWord).toOption = some (.add .d .al .acc .acc (.imm 1)) ∧ isWord (.add .d .al .acc .acc (.imm 1)) = true ∧
    (decode (3 * 2 ^ 88)).toOption = some (.undefinedOpcode 3) ∧ isWord (.undefinedOpcode 3) = false := by decide +kernel

/-- A reserved operand (X unused and not zero) and an unassigned one (KIND 7, N 3) of an ADD that is fetched. -/
theorem test_witness_RejectedWordsRaise :
    [(addWord + 1, 0x02#8), (addWord + 0xE3000#96 * 2 ^ 60, 0x01#8)].all (fun x =>
      let e := lineOf [x.1] 0
      let s := withLine e user
      s.hub.up && s.here.ctx.status == .issuing && !s.here.ctx.endTest && s.here.iline == some e && !e.pois && !s.here.ctx.tgtCheck &&
        lineWord e.bytes / 2 ^ 15 == 0 && (match decode (slotWord e.bytes 0) with | .error _ => true | _ => false) &&
        (match stepIssue s with | .next t => t.here.ctx.status == .ending (faultOf x.2) false | _ => false)) = true := by decide +kernel

/-- A predicate modifier, as a pair with the ADD that follows it. -/
theorem test_witness_StepRunsDecodedInstruction :
    user.agenda = [] ∧ (let s := { user with agenda := [.issue 3 11] }; s.agenda = [.issue 3 11]) ∧
    (let s := { user with agenda := [.event 2 .powerOff] }; s.agenda = [.event 2 .powerOff] ∧ isWord .powerOff = false) ∧
    (let s := { user with agenda := [.evict 2 9] }; s.agenda = [.evict 2 9] ∧ s.hub.up = true) ∧
    (let s := at_ 3 { base with endTest := true }; s.hub.up = true ∧ s.here.ctx.status = .issuing ∧ s.here.ctx.endTest = true) ∧
    (let e := lineOf [addWord, addWord] 0
     let s := withLine e user
     s.hub.up = true ∧ s.here.ctx.status = .issuing ∧ s.here.ctx.endTest = false ∧ s.here.ctx.pc.toNat < slotLimit ∧ s.here.iline = some e ∧ e.pois = false ∧
     s.here.ctx.tgtCheck = false ∧ lineWord e.bytes / 2 ^ 15 = 0 ∧ (decode (slotWord e.bytes 0)).toOption = some (.add .d .al .acc .acc (.imm 1)) ∧ bit (lineWord e.bytes) 5 = false ∧
     (match stepIssue s with | .next t => t.here.ctx.a | _ => 0) = 6) ∧
    (let e := lineOf [addWord, addWord] (2 ^ 5 + 1)
     let s := withLine e (at_ 3 { base with tgtCheck := true })
     s.here.ctx.tgtCheck = true ∧ bit (lineWord e.bytes) 0 = true ∧ bit (lineWord e.bytes) 5 = true ∧
     (decode (slotWord e.bytes 1)).toOption = some (.add .d .al .acc .acc (.imm 1))) := by decide

theorem test_witness_FetchFaults :
    user.hub.up = true ∧ user.here.ctx.status = .issuing ∧
    (let s := at_ 3 { base with pc := 0xFFFFFFFFFFFFFFFF }; s.here.ctx.endTest = false ∧ slotLimit ≤ s.here.ctx.pc.toNat) ∧
    (let e := lineOf [addWord] 0
     let s := withLine e (at_ 3 { base with tgtCheck := true })
     s.here.ctx.pc.toNat < slotLimit ∧ s.here.iline = some e ∧ e.pois = false ∧ s.here.ctx.tgtCheck = true ∧ bit (lineWord e.bytes) 0 = false) ∧
    (let e := lineOf [addWord] (2 ^ 15)
     let s := withLine e user
     s.here.iline = some e ∧ s.here.ctx.tgtCheck = false ∧ lineWord e.bytes / 2 ^ 15 ≠ 0) ∧
    (let e := lineOf [addWord + 15 * 2 ^ 80] 0
     let s := withLine e user
     s.here.iline = some e ∧ lineWord e.bytes / 2 ^ 15 = 0 ∧ (match decode (slotWord e.bytes 0) with | .error .unassigned => true | _ => false) = true) ∧
    (let e := { lineOf [addWord] 0 with pois := true }
     let s := withLine e user
     s.here.iline = some e ∧ e.pois = true ∧ (match stepIssue s with | .next t => t.here.ctx.status == .ending (fetchFault 0x32 0) false | _ => false) = true) ∧
    (let s := { user with cores := [(0, { emptyCore with ibad := [{ pasid := 0, vline := 0, n := 3 }] })] }
     s.here.iline = none ∧ 3 ≤ s.here.badAt 0 ∧
     (match stepIssue s with | .next t => t.here.ctx.status == .ending (fetchFault 0x32 0) false | _ => false) = true) ∧
    (let s := gAt { base with pc := 1280 }
     s.hub.up = true ∧ (s.ctx 3).status = .issuing ∧ (s.loc 3).iline = none ∧ (s.loc 3).badAt 1280 < 3 ∧ (s.loc 3).priv < 2 ∧ (s.loc 3).tlbFind (lineVA 1280) = some page1 ∧
     page1.grants (s.loc 3).priv .fetch = true ∧ (1280 : Word).toNat < slotLimit ∧ isRam (page1.keyOf (lineVA 1280)) = true ∧
     ((after (.lineFetch 3 .sound) s).loc 3).iline.isSome = true) := by decide +kernel
/-- Memory that holds these doublewords from an address on. -/
def stored (a : Nat) (ws : List Word) : List (Nat × Byte) :=
  ((List.range (8 * ws.length)).map (fun i => (a + i, (ws.flatMap (fun w => leBytes 8 w.toNat)).getD i 0))).filter (fun e => e.2 != 0)

/-- A context that waits for the walk of page 1; its domain holds a pointer to the last table, whose entry is a leaf with R, U and A at 0x10000000. -/
def walker : State :=
  { at_ 3 { base with status := .parked (.walk 0x4008 .read) } with
    doms := [(0, { emptyDomain with ptrs := [{ pasid := 0, level := 3, prefx := 0, table := 0x8000 }] })], mem := [(0x8008, 0x13), (0x8009, 0x01), (0x800B, 0x10)] }
/-- What that context asks for. -/
def asked : Asker := { pasid := 0, va := 0x4008, acc := .read, priv := 0, cid := 3 }
/-- The translation that the walk finds. -/
def found : Tlb := leafTlb asked 4 0x10000113
/-- A request to the host for the same address. -/
def asking : AtsReq := { who := .ctx 3, pasid := 0, va := 0x4008, acc := .read, priv := false, dropped := false }
/-- An entry that waits for the host's page response. -/
def camHost : CamEntry := { camOne with code := 0x12, reqs := [.ctx 3], priSent := true }
/-- A context parked on that entry. -/
def paged : State := { at_ 3 { base with status := .parked (.fault 0 0x4000 .read) } with hub := { emptyHub with cam := [(0, camHost)], priOut := [(0, 1)] } }
/-- A hub with the placed launch whose interrupt source 9 has this routing word. -/
def routed (w : Word) : State := { user with hub := setReg placedHub (0x4800 + 16 * 9) w }

theorem test_witness_WalksAndHostAnswers :
    (walker.hub.up = true ∧ askerOf walker (.ctx 3) = some asked ∧
     walk walker asked (mget emptyDomain walker.doms (walkDom (.ctx 3))).ptrs = .leaf found 0x8008 0x10000113 [] ∧ bit (0x10000113 : Word).toNat 8 = true ∧
     ((after (.pageWalk (.ctx 3)) walker).ctx 3).status = .issuing) ∧
    (let s := { walker with hub := { emptyHub with ats := [asking] } }
     let x : AtsAnswer := { hpa := 0x7000, r := true, w := false, x := false, priv := false }
     s.hub.ats[0]? = some asking ∧ asking.who = .ctx 3 ∧ asking.dropped = false ∧ askerOf s (.ctx 3) = some asked ∧ AtsAnswer.grants x .read = true ∧ asking.priv = false ∧
     ((after (.atsCompletion 0 (some x)) s).ctx 3).status = .issuing) ∧
    (paged.hub.up = true ∧ paged.hub.priOut.find? (fun y => y.1 == 0) = some (0, 1) ∧
     paged.hub.cam.find? (fun y => y.1 == 0 && y.2.seq == 1 && y.2.code == 0x12) = some (0, camHost) ∧ camHost.reqs = [.ctx 3] ∧
     (paged.ctx 3).status = .parked (.fault 0 0x4000 .read) ∧ (paged.loc 3).priv ≠ 2 ∧ paged.hub.recs = []) ∧
    sharers walker (.ctx 3) asked = [.ctx 3] ∧ hostBusy user 0 0x4000 4096 = false ∧ (∀ y ∈ user.ctxs, waitaOf user y.1 = none) := by decide +kernel

/-- The last level's entry is absent, of a hole, misplaced, without the access, with bit 11 or poisoned. -/
theorem test_witness_WalksThatFault :
    (let s := { walker with mem := [] }
     s.hub.up = true ∧ askerOf s (.ctx 3) = some asked ∧ sharers s (.ctx 3) asked = [.ctx 3] ∧ s.hub.cam = [] ∧ asked.priv < 2 ∧
     (after (.pageWalk (.ctx 3)) s).hub.noRoom = s.hub.noRoom ∧ ((after (.pageWalk (.ctx 3)) s).ctx 3).status = .parked (.fault 0 0x4008 .read)) ∧
    ([(0x8000000013#64, 0x13#8, 0x4000), (0x10000005#64, 0x11#8, 0x4000), (0x10000913#64, 0x32#8, 0x4008)].all (fun x =>
      let s := { walker with mem := stored 0x8008 [x.1] }
      (match walk s asked (mget emptyDomain s.doms (walkDom (.ctx 3))).ptrs with | .code c => c == x.2.1 | _ => false) &&
        sharers s (.ctx 3) asked == [.ctx 3] &&
        ((after (.pageWalk (.ctx 3)) s).ctx 3).status == .ending { faultOf x.2.1 with addr := BitVec.ofNat 64 x.2.2, acc := 0 } false) = true) ∧
    (let s := { walker with grans := [(0x200, { cleanGran with pois := true })] }
     granPois s (0x8000 + 8 * levelIndex 3 asked.va) = true ∧ walkFrom s asked 2 3 0x8000 [] = .code 0x32) ∧
    walkFrom walker asked 1 4 0x8000 [] = .leaf (leafTlb asked 4 0x10000113) 0x8008 0x10000113 [] ∧
    walkFrom { walker with mem := stored 0x8008 [0x80] } asked 1 4 0x8000 [] = .host := by decide +kernel

theorem test_witness_NoHostWaiter : ∀ w, waitsCam paged w = none := noWaiter_of _ (by decide) rfl rfl rfl

theorem test_witness_EventsAreRouted :
    (9 ≤ 41 ∧ (9 : Nat) ≠ 6 ∧ (9 : Nat) ≠ 7) ∧ (fld (irt (routed 0).hub 9) 0 2 = 0 ∧ fld (reg (after (.externalEvent 9 5) (routed 0)).hub 0x4898) 0 32 = 1) ∧
    (fld (irt (routed 0xE00002).hub 9) 0 2 = 2 ∧ (after (.externalEvent 9 5) (routed 0xE00002)).hub.out = [.msi 7]) ∧
    (let s := routed 0x5000300000001
     fld (irt s.hub 9) 0 2 = 1 ∧ (irt s.hub 9).extractLsb' 32 32 = placedActor ∧ placed s.hub placedActor = true) ∧
    (let s := routed 0x5000300000003
     fld (irt s.hub 9) 0 2 = 3 ∧ ((after (.externalEvent 9 5) s).hub.flight.map (fun f => f.esc.map (·.src))) = [some 9]) ∧
    (let tm : EscTimer := { src := 9, vec := 4, core := 0, ch := 0, payload := 0, due := 5, off := none }
     let s := { routed 0 with hub := { (routed 0).hub with esc := [tm] }, now := 9 }
     s.hub.esc[0]? = some tm ∧ tm.off = none ∧ tm.due ≤ s.now ∧ (after (.irtEscalation 0) s).hub.out = [.msi 4]) := by decide +kernel
/-- Queue 0 of 16 records at 0x10000, with head 2. -/
def queue0 : Queue := { en := true, head := 2, tail := 2, rbase := 0x10000, log2n := 4, pasid := 0, maxpcls := 7, stopped := false }
/-- The machine with that queue and a work item, a bell rung, and page 1 translated for the hub. -/
def queued (x : Queue) (ws : List (Nat × Work)) (mem : List (Nat × Byte)) : State :=
  { user with hub := { emptyHub with bells := [0], tables := { emptyTables with queues := [(0, x)], works := ws, workSeq := 9 } }
              doms := [(8, { emptyDomain with tlb := [page1] })], mem := mem, now := 2900 }
/-- A work item of record 1 of queue 0, without a completion address. -/
def work1 (w : WorkKind) : Work :=
  { queue := 0, idx := 1, kind := 2, pasid := 0, caddr := 0, cval := 0x55, msie := false, vec := 0, work := w, finished := none, lslot := 0, since := 0
    parked := none, walking := none, missAt := 0, due := none }

theorem test_witness_DoorbellsAndDescriptors :
    (let s := queued queue0 [] [(0, 1)]
     0 ∈ s.hub.bells ∧ queueOf s 0 = some queue0 ∧ queue0.en = true ∧ queue0.stopped = false ∧ (qWord s 0 0).toNat < queue0.head ∧
     (queueOf (after (.doorbell 0) s) 0).map (·.stopped) = some true) ∧
    (let s := queued queue0 [] [(0, 50)]; 2 ^ queue0.log2n < (qWord s 0 0).toNat - queue0.head) ∧
    (let s := queued queue0 [] [(0, 2)]; (qWord s 0 0).toNat = queue0.head ∧ queueOf (after (.doorbell 0) s) 0 = some queue0) ∧
    (let s := { user with mem := [(73, 0x80)] }
     s.hub.up = true ∧ descEn s 0 = true ∧ queueOf s 0 = none ∧ descChecks s 0 = false) ∧
    (let s := { user with mem := [(66, 1), (72, 4), (73, 0x80)] }
     descEn s 0 = true ∧ queueOf s 0 = none ∧ descChecks s 0 = true ∧ qWord s 0 0 = qWord s 0 80 ∧
     (queueOf (after (.queueEnable 0) s) 0).map (·.log2n) = some 4) ∧
    (let s := queued queue0 [] []
     (queueOf s 0).isSome = true ∧ descEn s 0 = false ∧ queueOf (after (.queueDisable 0) s) 0 = none) := by decide +kernel

theorem test_witness_SignalsAndWaits :
    (let w := work1 (.signal 0x4008 7 true)
     let s := queued queue0 [(8, w)] [(0x10000008, 5)]
     s.hub.recs = [] ∧ workOf s 8 = some w ∧ w.parked = none ∧ w.walking = none ∧ w.finished = none ∧ queueOf s w.queue = some queue0 ∧
     hubXlate s 0 0x4008 .write = .key 0x10000008 true ∧ hubXlate s 0 0x4008 .atomic = .key 0x10000008 true ∧ isRam 0x10000008 = true ∧
     wbRoom s.hub (channelOf 0x10000008) (hubStamp s.hub) = true ∧ s.hub.wbStall = [] ∧ sliceFull s 0x10000008 = false ∧ homeByte (after (.signalRecord 8) s) 0x10000008 = 12) ∧
    (let w := { work1 (.signal 0x4008 7 false) with finished := some 0, caddr := 0x4010 }
     let s := queued queue0 [(8, w)] []
     workOf s 8 = some w ∧ hubXlate s 0 0x4010 .write = .key 0x10000010 true ∧ sliceFull s 0x10000010 = false ∧
     homeByte (after (.signalRecord 8) s) 0x10000010 = 0x55 ∧ homeByte (after (.signalRecord 8) s) 0x10000019 = 2) ∧
    (let w := { work1 (.waitv 0x4008 5 0xF 0 1) with idx := 2, kind := 3 }
     let s := queued queue0 [(8, w)] [(0x10000008, 5)]
     workOf s 8 = some w ∧ queueOf s 0 = some queue0 ∧ queue0.head = w.idx ∧ hubXlate s 0 0x4008 .read = .key 0x10000008 true ∧
     waitvHolds 0 5 5 0xF = true ∧ w.since + 2900 * (1 : BitVec 32).toNat ≤ s.now ∧ (queueOf (after (.waitvRecord 8) s) 0).map (·.head) = some 3 ∧
     waitvHolds 0 (BitVec.ofNat 64 (leVal (homeBytes (queued queue0 [(8, w)] []) 0x10000008 8))) 5 0xF = false) := by decide +kernel

/-- A SIGNAL to an untracked line waits for its drift; with it sealed it is complete. A doorbell that stops its queue has room for its error word. -/
theorem test_witness_SignalWaitsForItsDrift :
    (let low := fun (w : Work) (d : BitVec 32) =>
       let s := queued queue0 [(8, w)] []
       { s with doms := [(8, { emptyDomain with tlb := [{ page1 with frame := 0x20000, trk := false }] })]
                hub := { s.hub with seals := { s.hub.seals with sealed := d, newest := d + 1 } } }
     let w := work1 (.signal 0x4008 7 false)
     let p := work1 (.posted 0x4008 7 1)
     hubXlate (low w 0) 0 0x4008 .write = .key 0x20008 false ∧ tracked emptyHub 0x20008 = false ∧ hubStamp (low w 0).hub = 1 ∧
     workOf (after (.signalRecord 8) (low w 0)) 8 = some p ∧ homeByte (after (.signalRecord 8) (low w 0)) 0x20008 = 7 ∧
     workOf (after (.signalRecord 8) (low p 0)) 8 = some p ∧ workOf (after (.signalRecord 8) (low p 1)) 8 = none ∧
     lacksRoom (low p 0) (hubWriteOf (low p 0).hub (qDesc (low p 0).hub 0 + 88) []) = none ∧
     lacksRoom (low p 0) (hubWriteOf (low p 0).hub (qDesc (low p 0).hub 0 + 80) []) = none) := by decide +kernel

/-- A header of one actor and that actor: ENTRY 0, START, KND 1, DL 100, CAP 4, P 8, C0 1. -/
def descWords : List Word := [0x10001, 0, 0xD000, 0, 0, 0, 0, 0, 0, 0x1000000000000000, 0x40000080040, 0xC810, 0, 0, 0, 0, 0, 0, 0, 0, 0, 0, 0, 0]
/-- Queue 0 with a record waiting that has this first doubleword and this fourth. -/
def waiting (w0 w3 : Word) (ws : List (Nat × Work)) : State :=
  queued { queue0 with tail := 3 } ws (stored 0x10080 [w0, 0, 0, w3] ++ stored 0x10000000 descWords)

theorem test_witness_RecordsAreTaken :
    (let x := { queue0 with tail := 3 }
     let r := fun (w0 w3 : Word) => [w0, 0, 0, w3, 0, 0, 0, 0]
     nextRecord (waiting 4 0 []) 0 = some (x, r 4 0) ∧ recordOk (r 4 0) = true ∧ rKind (r 4 0) = 4 ∧ recW (r 4 0) 1 = 0 ∧
     bit (recW (r 4 0) 0).toNat 8 = false ∧ x.tail ≤ x.head + 1 ∧ earlierWork (waiting 4 0 []) 0 = false ∧
     (queueOf (after (.barrierRecord 0) (waiting 4 0 [])) 0).map (·.head) = some 3 ∧
     earlierWork (waiting 4 0 [(8, work1 (.copyq 0x4100 0x4080 100 0 none))]) 0 = true ∧
     nextRecord (waiting 4 0 [(8, work1 (.copyq 0x4100 0x4080 100 0 none))]) 0 = some (x, r 4 0) ∧
     nextRecord (waiting 6 0 []) 0 = some (x, r 6 0) ∧ recordOk (r 6 0) = true ∧ rKind (r 6 0) = 6 ∧
     nextRecord (waiting 1 0x4000 []) 0 = some (x, r 1 0x4000) ∧ recordOk (r 1 0x4000) = true ∧ launchWork (waiting 1 0x4000 []) 0 = none) ∧
    (let s := waiting 1 0x4000 []
     ((readDesc s 0 0x4000).toOption.bind (·.2)) = some (descWords.take 8, [descWords.drop 8]) ∧ descOk (descWords.take 8) [descWords.drop 8] = true ∧
     freeSlot s.hub = some 0 ∧ ((launchOf (after (.launchRecord 0) s).hub 0).map (·.pcls)) = some 0) ∧
    (let w := work1 (.copyq 0x4100 0x4080 100 0 none)
     let s := queued queue0 [(8, w)] [(0x10000090, 7)]
     workOf s 8 = some w ∧ hubXlate s 0 0x4080 .read = .key 0x10000080 true ∧ hubXlate s 0 0x4100 .write = .key 0x10000100 true ∧
     wbRoom s.hub (channelOf 0x10000100) (stampOf s.hub (mget emptyDomain s.doms 0).late) = true ∧ sliceFull s 0x10000100 = false ∧
     (∀ i < 64, ¬ (0x4080 ≤ 0x4100 + i ∧ 0x4100 + i < 0x4080 + 100)) ∧ homeByte (after (.copyqRecord 8) s) 0x10000110 = 7) := by decide +kernel

/-- A COPYQ whose source straddles two lines moves a whole line of its destination, and ends (R339, R443). -/
theorem test_witness_CopyqStraddles :
    let w := work1 (.copyq 0x4100 0x4090 64 0 none)
    let s := queued queue0 [(8, w)] [(0x100000C8, 7)]
    workOf s 8 = some w ∧ w.msie = false ∧ hubXlate s 0 0x4090 .read = .key 0x10000090 true ∧ hubXlate s 0 0x40C0 .read = .key 0x100000C0 true ∧
    hubXlate s 0 0x4100 .write = .key 0x10000100 true ∧ hubTrails s.hub (stampOf s.hub (mget emptyDomain s.doms 0).late) = false ∧
    wbRoom s.hub (channelOf 0x10000100) 1 = true ∧ sliceFull s 0x10000100 = false ∧ workOf (after (.copyqRecord 8) s) 8 = none ∧
    (∀ i < 64, ¬ (0x4090 ≤ 0x4100 + i ∧ 0x4100 + i < 0x4090 + 64)) ∧ homeByte (after (.copyqRecord 8) s) 0x10000138 = 7 := by decide +kernel
/-- A hub whose caps stand at their highest, whose class 0 draws nothing, with 4 swap slots; launch 5 of queue 0 runs, launch 6 of queue 1 waits, and a
real-time slot with budget 5 for four clusters is queue 1's. -/
def schedHub : Hub :=
  let h := (List.range 8).foldl (fun h d => setReg h (0x2100 + 8 * d) 0xFFF000FFF) emptyHub
  { setReg (setReg h 0x2200 0) 0x2010 4 with
    rt := [(3, { cfg := 0x40000000000201, left := 5, start := 0 })]
    tables := { emptyTables with launches := [(5, placedLaunch), (6, { placedLaunch with pasid := 1, queue := 1, stage := .waiting })] } }
/-- The waiting launch. -/
def waiter : Launch := { placedLaunch with pasid := 1, queue := 1, stage := .waiting }
/-- That machine with a holder of cluster 0, after 600000 cclk. -/
def sched (o : Option Nat) : State := { user with hub := schedHub, clus := [(0, { emptyCluster with owner := o })], now := 600000 }

/-- Whatever the domain draws, PROJ is at most 4095 and the cap admits it. -/
theorem sched_calm (o : Option Nat) : ∀ d < 8, 125 * proj (sched o) d ≤ capE (sched o).hub d := by
  intro d h
  have e : ∀ d < 8, capE schedHub d = 125 * 4095 := by decide +kernel
  have p : proj (sched o) d ≤ 4095 := Nat.min_le_left ..
  have c : capE (sched o).hub d = 125 * 4095 := e d h
  omega

/-- The waiter may take a cluster of domain 0 where its slot has budget, nothing is due, its class draws nothing and the cap is at its highest. -/
theorem grant_of (t : State) (r : rtOf t waiter = some { cfg := 0x40000000000201, left := 5, start := 0 }) (d : dueMw t 0 = 0)
    (w : epwr t.hub (eclsOf t.hub 6) = 0) (q : queueClus t waiter.queue = 0) (c : capE t.hub 0 = 125 * 4095) : mayGrant t 0 6 waiter = true := by
  have p : proj t 0 ≤ 4095 := Nat.min_le_left ..
  simp only [mayGrant, r, d, q, w, c, Bool.and_eq_true, decide_eq_true_eq]
  exact ⟨by decide, by omega⟩

theorem sched_grant : mayGrant (chargeRt (sched (some 5))) 0 6 waiter = true :=
  grant_of _ (by decide +kernel) (by decide +kernel) (by decide +kernel) (by decide +kernel) (by decide +kernel)

theorem sched_first : (Machine.waiting (chargeRt (sched (some 5))) 0).head? = some { clus := 0, lslot := 6 } := by decide +kernel

theorem sched_noted : noteReady (chargeRt (sched none)) = chargeRt (sched none) := by decide +kernel

/-- Bringing PROJ up to date does not change the answer. -/
theorem sched_proj_grant : mayGrant (putProjs (chargeRt (sched none))) 0 6 waiter = true := by
  obtain ⟨r, e, h⟩ := putProjs_only (chargeRt (sched none))
  rw [e]
  rw [e] at h
  refine grant_of _ (by decide +kernel : rtOf (chargeRt (sched none)) waiter = _) rfl ?_ rfl ?_
  · show epwr { (chargeRt (sched none)).hub with regs := r } (eclsOf schedHub 6) = 0
    unfold epwr
    rw [h _ 0 16 (by decide)]; decide +kernel
  · unfold capE
    rw [h _ 0 12 (by decide), h _ 24 12 (by decide)]; decide +kernel

theorem test_witness_DecisionsAndExpiries :
    (let s := sched none
     s.hub.up = true ∧ (∀ d < 8, 125 * proj s d ≤ capE s.hub d) ∧ queuesRun s = true ∧ isService 0 = false ∧ inService s.hub 0 = true ∧
     launchOf s.hub 6 = some waiter ∧ waiter.pasid ≠ 0 ∧ (mget emptyCluster s.clus 0).wanted = none ∧ (mget emptyCluster s.clus 0).owner = none ∧
     isReady s 6 waiter = true ∧ mayGrant (putProjs (noteReady (chargeRt s))) 0 6 waiter = true ∧ granted s 6 = false ∧ 0 ∈ allClusters ∧
     (∀ e ∈ s.hub.tables.launches, e.1 ≠ 6 → e.2.pasid = 0 ∨ isReady s e.1 e.2 = false ∨ granted s e.1 = true) ∧ s.hub.lastTick + 29000 ≤ s.now ∧ s.hub.rt ≠ []) ∧
    (let s := sched (some 5)
     (mget emptyCluster s.clus 0).owner = some 5 ∧ (mget emptyCluster s.clus 0).wanted = none ∧ (mget emptyCluster s.clus 0).taken + quantum s.hub ≤ s.now ∧
     (Machine.waiting (chargeRt s) 0).head? = some { clus := 0, lslot := 6 } ∧ launchOf s.hub 6 = some waiter ∧ launchOf s.hub 5 = some placedLaunch ∧ isReady s 6 waiter = true ∧
     mayGrant (chargeRt s) 0 6 waiter = true ∧ rtOf (chargeRt s) placedLaunch = none ∧ effClass s 5 placedLaunch ≤ effClass s 6 waiter ∧
     slotsDue s < fld (reg s.hub 0x2010) 0 13 ∧ (s.ctx 3).status ≠ .dormant) := by
  refine ⟨⟨by decide, sched_calm _, by decide, by decide, by decide +kernel, by decide, by decide, by decide, by decide, by decide, ?_, by decide, by decide, by decide, by decide +kernel, by decide⟩,
    by decide, by decide, by decide +kernel, sched_first, by decide, by decide, by decide, sched_grant, by decide +kernel,
    by decide +kernel, by decide +kernel, by decide⟩
  rw [sched_noted]; exact sched_proj_grant

/-- Launch 5 of queue 0's record 2: one actor with START, which waits. -/
def starting : Launch := { placedLaunch with pasid := 1, idx := 2, stage := .waiting, hdr := descWords.take 8, actors := [descWords.drop 8], places := [] }
/-- The machine with that launch, which owns cluster 0. -/
def startable : State :=
  let s := queued queue0 [] []
  { s with hub := { s.hub with tables := { s.hub.tables with launches := [(5, starting)] } }, clus := [(0, { emptyCluster with owner := some 5 })] }
/-- Launches 5 and 6, of which 5 is to own cluster 0 and 6 may; the issuing context stands elsewhere. -/
def changing (o : Option Nat) : State :=
  { at_ 0x200 base with hub := { schedHub with tables := { schedHub.tables with launches := [(5, placedLaunch), (6, placedLaunch)] } }
                        clus := [(0, { emptyCluster with owner := o, wanted := some 5, s := [(0, 9)] })] }

theorem test_witness_LaunchesStartAndEnd :
    (launchOf startable.hub 5 = some starting ∧ starting.stage = .waiting ∧ depsMet startable 5 starting = true ∧ queueLets startable starting = true ∧
      (∀ r ∈ starting.actors, recFork r = false) ∧ instCount starting.actors = 1 ∧ (homeCore startable 5 starting).isSome = true ∧
      placementOk startable 5 starting [{ inst := 0, core := 0 }] = true ∧ queueOf startable starting.queue = some queue0 ∧ queue0.tail ≤ starting.idx + 1 ∧
      ((after (.launchStart 5 [{ inst := 0, core := 0 }]) startable).hub.flight.map (fun f => f.dest)) = [.addr 0x50000]) ∧
    (let s := { user with hub := placedHub }
     launchOf s.hub 5 = some placedLaunch ∧ placedLaunch.stage = .running ∧ quiescent s 5 placedLaunch = true ∧ placedLaunch.caddr = 0 ∧ placedLaunch.msie = false) ∧
    (∀ o ∈ [none, some 6], (changing o).hub.up = true ∧ (mget emptyCluster (changing o).clus 0).wanted = some 5 ∧ clusIdle (changing o) 0 = true ∧
      (changing o).hub.tables.slots = [] ∧ (launchOf (changing o).hub 5).isSome = true ∧ (launchOf (changing o).hub 6).isSome = true ∧
      0 < fld (reg (changing o).hub 0x2010) 0 13) ∧
    ownsSector (changing (some 6)) 6 0 = false ∧ (mget emptyCluster (changing (some 6)).clus 0).owner = some 6 ∧
    ((after (.clusterOwnerChange 0 0) (changing (some 6))).hub.tables.slots.map (fun e => e.1)) = [0] := by decide +kernel

theorem proj_of_draw (s : State) (d n : Nat) (h : s.clus.foldl (fun m e => match e.2.owner with
    | some l => if e.1 / 32 = d then m + epwr s.hub (eclsOf s.hub l) else m
    | none => m) 0 = n) : proj s d = min 4095 ((Config.freeDraw d s.tick + n) / 125) := by rw [← h]; rfl

/-- Cluster 0 draws 500 mW and source 5 raises a vector. -/
def loaded : State := { sched (some 5) with hub := setReg (setReg schedHub 0x2200 500) (0x4800 + 16 * 5) 0xE00002 }

/-- A PASID whose control block names a placed fault actor, with a parked context; real-time slot 3 past its period; a draw above a limit of 0. -/
theorem test_witness_NoticesPeriodsAndLimits :
    (let s := { at_ 3 { base with status := .parked .wait, preempt := true } with
                hub := setReg placedHub 0x2008 0x1000, mem := stored 0x1000 [0x2000] ++ stored 0x2000 [0x50003], now := 2320000 }
     (s.ctx 3).preempt = true ∧ (s.ctx 3).parkedAt + 2 * quantum s.hub ≤ s.now ∧ pcbOf s 0 = some 0x2000 ∧ dword s 0x2000 = 0x50003 ∧
     placed s.hub ((dword s 0x2000).setWidth 32) = true ∧ ((after (.parkNotice 3) s).ctx 3).parkedAt = 2320000) ∧
    (let s := { user with hub := setReg emptyHub 0x2418 0x40000500001201 }
     s.hub.rt = [] ∧ bit (reg s.hub 0x2418).toNat 9 = true ∧ ((after (.rtPeriodStart 3) s).hub.rt.map (fun e => (e.1, e.2.left))) = [(3, 14500)]) ∧
    0 < proj loaded 0 ∧ fld (irt loaded.hub 5) 0 2 = 2 := by
  refine ⟨by decide +kernel, by decide +kernel, ?_, by decide +kernel⟩
  rw [proj_of_draw loaded 0 500 (by decide +kernel)]; omega
/-- The machine with these seals, with a hub stamp. -/
def drifting (st : SealStage) (newest stamp : BitVec 32) (wanted : Bool) : State :=
  { user with hub := { emptyHub with snaps := [(stamp, emptyTables)]
                                     seals := { emptyHub.seals with stage := st, newest := newest, wanted := wanted } }
              cores := [(0, { emptyCore with late := true, utlb := [page1] })] }
/-- An interrupt of drift 1 in the egress hold. -/
def heldMsi : Held := { stamp := 1, item := .msi 9, by_ := none, page := none }
/-- An entry of the windbreak: granule 2^20 held 7 in every byte. -/
def logged : WbEntry := { drift := 1, gran := 2 ^ 20, old := List.replicate 64 7, opois := false, bad := false, seq := 0, spilt := false }
/-- A rollback of cause 4 is due. -/
def rolling (pin : Bool) : State :=
  { user with hub := { emptyHub with rbDue := some 4, wb := [(0, [logged])] }, grans := [(2 ^ 20, { cleanGran with dt := dtOf 1, pin := pin })], mem := [(2 ^ 26, 9)] }

theorem test_witness_DriftsSeal :
    (let s := drifting .quiet 1 1 true
     s.hub.up = true ∧ s.hub.seals.stage = .quiet ∧ s.hub.seals.wanted = true ∧ ¬ (s.hub.seals.newest - 2 ∈ s.hub.seals.sweeping) ∧ s.hub.rbDue = none ∧
     (coreAt (after .sealStart s) 0).late = true ∧ (after .sealStart s).hub.seals.newest = 2) ∧
    (let s := drifting .opening 2 1 false
     s.hub.seals.stage = .opening ∧ (coreAt (after (.driftAck (.core 0)) s) 0).late = false ∧ hubStamp s.hub ≠ s.hub.seals.newest ∧
     hubStamp (after (.driftAck .hub) s).hub = 2) ∧
    (let s := { drifting .opening 2 2 false with cores := [] }
     let s := { s with hub := { s.hub with held := [heldMsi] } }
     someLate s = false ∧ (∀ c ∈ s.ctxs, stampedBy (s.hub.seals.newest - 1) c.2 = false) ∧ s.hub.rbDue = none ∧ heldMsi.stamp = s.hub.seals.newest - 1 ∧
     (after .sealCommit s).hub.out = [.msi 9] ∧ (after .sealCommit s).hub.seals.sealed = 1) ∧
    (let s := { rolling true with hub := { emptyHub with seals := { emptyHub.seals with sweeping := [1] } } }
     s.hub.seals.sweeping = [1] ∧ mwf cleanGran s.grans = true ∧ mget cleanGran (after .sweepComplete s).grans (2 ^ 20) = cleanGran) ∧
    (let s := { user with hub := { emptyHub with held := [heldMsi] }, now := 725000 }
     s.hub.seals.lastCommit + 2900 * fld (reg s.hub 0x5008) 0 17 ≤ s.now ∧ openHolds s = true ∧ openHolds user = false ∧ openHolds { user with now := 725000 } = false) := by
  decide +kernel

/-- Where nothing of memory below 2^26 is listed, no queue's descriptor reads EN 1. -/
theorem descEn_of_unlisted (s : State) (hh : s.hub.held = []) (hc : s.hostCache = []) (hw : cwBase s.hub = 0) (hm : ∀ e ∈ s.mem, 2 ^ 26 ≤ e.1) :
    ∀ q < 512, descEn s q = false := by
  intro q hq
  have z : ∀ a < 2 ^ 26, homeByte s a = 0 := by
    intro a ha
    have d : memDefault a = 0#8 := by unfold memDefault; dsimp only; rw [if_neg (by omega)]; rfl
    have g : ∀ m : List Host.Cell, (∀ e ∈ m, 2 ^ 26 ≤ e.1) → mget 0#8 m a = 0#8 := by
      intro m
      induction m with
      | nil => intro _; rfl
      | cons e t ih =>
          intro h
          have n : e.1 ≠ a := by have := h e (by simp); omega
          simpa [mget, n] using ih (fun x hx => h x (by simp [hx]))
    simp [homeByte, openByte, heldByte, hh, hc, ramByte, d, g s.mem hm]
  have w : homeBytes s (qDesc s.hub q + 72) 8 = List.replicate 8 0 := by
    rw [List.eq_replicate_iff]
    refine ⟨by simp [homeBytes, upto], fun b hb => ?_⟩
    obtain ⟨i, hi, rfl⟩ := List.mem_map.mp hb
    exact z _ (by have := List.mem_range.mp hi; unfold qDesc; omega)
  unfold descEn qWord dword
  rw [w]; rfl

theorem rolling_quiet (pin : Bool) : ∀ q < 512, descEn (dropAll (restoreAll (rolling pin)) (rolledTables (rolling pin))) q = false := by
  apply descEn_of_unlisted <;> cases pin <;> decide +kernel

theorem test_witness_RollbackAndLostCores :
    (∀ pin, let s := rolling pin
      s.hub.up = true ∧ s.hub.rbDue = some 4 ∧ s.hub.wb = [(0, [logged])] ∧ logged.bad = false ∧ logged.old.length = 64 ∧
      (mget cleanGran s.grans logged.gran).pin = pin ∧ fld (irt s.hub 1) 0 2 = 0 ∧ (rolledTables s).slots = []) ∧
    ((user.ctx 3).status = .issuing ∧ (user.ctx 3).irv = false ∧ (∀ t ∈ (user.ctx 3).quota0 ++ (user.ctx 3).quota1, t.redeliv < 2) ∧
      (∀ k < 8, coreOfCid 3 * 8 + k ≠ 3 → (user.ctx (coreOfCid 3 * 8 + k)).status = .dormant)) ∧
    (let s := { at_ 0x200 base with cores := [(0, { emptyCore with suspect := true })], hub := setReg emptyHub (cmapOff 0) 0x8FF }
     (coreAt s 0).suspect = true ∧ inService s.hub 0 = true ∧ coreIdle s 0 = true ∧ isService 0 = false ∧ bit (reg s.hub (cmapOff 0)).toNat 11 = true ∧
     (coreAt (after (.spareTakeover 0) s) 0).suspect = false) ∧
    (let s := { at_ 0x200 base with cores := [(0, { emptyCore with suspect := true })], hub := setReg emptyHub (cmapOff 0) 0xFF }
     inService s.hub 0 = true ∧ coreIdle s 0 = true ∧ bit (reg s.hub (cmapOff 0)).toNat 11 = false ∧ liveOwner s 0 = none ∧ inService (after (.spareTakeover 0) s).hub 0 = false) ∧
    (let s := { at_ 0x200 base with cores := [(0, { emptyCore with suspect := true })], hub := setReg placedHub (cmapOff 0) 0xFF
                                    clus := [(0, { emptyCluster with owner := some 5 })] }
     inService s.hub 0 = true ∧ coreIdle s 0 = true ∧ bit (reg s.hub (cmapOff 0)).toNat 11 = false ∧ liveOwner s 0 = some 5 ∧ freeSwap s.hub = none ∧
     inService (after (.spareTakeover 0) s).hub 0 = true) ∧
    (user.hub.up = true ∧ (5 : Nat) < 2 ^ 33 ∧ fld (irt user.hub 2) 0 2 = 0 ∧ (mget cleanGran (after (.scrubRead 5 .uncorrectable) user).grans 5).pois = true) := by
  decide +kernel
/-- Granule 0x400000 (address 0x10000000) is in line state M, with 7 in byte 1. -/
def hosted : State := { user with mem := [(0x10000001, 7)], lines := [(0x400000, { st := .m, hp := true, pre := false, fly := false })] }
/-- Its first granule belongs to the open drift. -/
def openGran : State := { hosted with grans := [(0x400000, { cleanGran with dt := dtOf 1 })] }
/-- 64 bytes of 5. -/
def fives : List Byte := List.replicate 64 5

theorem test_witness_HostPortCoherence :
    (let s := hosted
     s.hub.up = true ∧ hostServes s = true ∧ oneLine 0x10000000 8 = true ∧ hostReadable s 0x400000 = true ∧ (lineInfo s 0x400000).st = .m ∧
     (lineInfo (after (.hostRead 0x10000000 8) s) 0x400000).st = .o ∧ (0x400000 : Nat) < 2 ^ 33 ∧ fives.length = 64 ∧ s.hostCache = [] ∧
     openByte (after (.hostReadOwnership 0x400000 (some fives)) s) 0x10000001 = 5) ∧
    (hostReadable openGran 0x400000 = false ∧ oneLine 0x10000000 8 = true ∧ (mget cleanGran openGran.grans 0x400000).dt = dtOf openGran.hub.seals.newest ∧
      (after (.hostRead 0x10000000 8) openGran).hub.seals.wanted = true ∧ granOpen openGran 0x400000 = true ∧
      (mget cleanGran (after (.hostWrite 0x10000000 fives) openGran).grans 0x400000).pin = true) ∧
    (let s := { hosted with lines := [(0x400000, { st := .i, hp := true, pre := false, fly := false })] }
     (lineInfo s 0x400000).st = .i ∧ (lineInfo s 0x400000).hp = true ∧ openByte (after (.hostWriteback 0x400000 fives) s) 0x10000001 = 5) ∧
    (let s := { openGran with hub := { openGran.hub with seals := { openGran.hub.seals with newest := 2 } } }
     hostReadable s 0x400000 = false ∧ s.hub.held = [] ∧ ¬ ((mget cleanGran s.grans 0x400000).dt = dtOf s.hub.seals.newest ∨ s.hub.seals.newest = s.hub.seals.sealed + 1)) ∧
    (hostLine (2 ^ 54) = true ∧ ramByte (after (.snpInv (2 ^ 54) (some fives)) user).mem (2 ^ 60 + 1) = 5) ∧
    (isSlice 0 = true ∧ sliceOff user 0 = false ∧ (∃ y ∈ slicesOf 0, y ≠ 0 ∧ sliceOff user y = false) ∧ sliceOff (after (.sliceLeave 0) user) 0 = true ∧
      (let s := { user with sects := [(0, { emptySector with off := true })] }; sliceOff s 0 = true ∧ sliceOff (after (.sliceReturn 0) s) 0 = false)) := by
  decide +kernel

/-- Connection 0x400000 is open, with rings of 64 bytes at 0x10001000; TXP stands at 4. -/
def connected : State := { user with mem := stored 0x10000000 [0x10001000, 0, 0, 0x10002000, 4, 0, 0x50003, 0x20606], hub := placedHub }

/-- The rings of the connection lie below every region of the windbreak. -/
theorem test_witness_ReceiveMissesTheLog : let mine : Nat → Prop := fun y => y / 64 = 0x400000 ∨ (0x10001000 ≤ y ∧ y < 0x10001000 + 64)
    ∀ y z, mine y → mine z → tracked connected.hub y → ¬ inLog connected.hub y z := by
  intro mine y z _ hz _ h
  have e : wbBaseOf connected.hub (channelOf y / 4) = (channelOf y / 4 * 64 + 63) * 2 ^ 30 := rfl
  obtain ⟨h, -⟩ := h
  rw [e] at h
  generalize channelOf y = c at h
  have a : 63 * 2 ^ 30 ≤ (c / 4 * 64 + 63) * 2 ^ 30 := Nat.mul_le_mul_right _ (Nat.le_add_left ..)
  have b : 63 * 2 ^ 30 ≤ z := (a.trans (Nat.le_add_right ..)).trans h
  have k : z < 63 * 2 ^ 30 := by
    rcases hz with hz | hz
    · exact (Nat.div_lt_iff_lt_mul (by decide)).1 (hz.trans_lt (by decide : 0x400000 < 63 * 2 ^ 24)) |>.trans_eq (by decide)
    · exact hz.2.trans (by decide)
  exact absurd k (Nat.not_lt.2 b)

theorem test_witness_DrivesAndNetwork :
    (fld (irt user.hub 13) 0 2 = 0 ∧ 8 + 16 * false.toNat + (5 : BitVec 4).toNat = 13 ∧
      (let s := { user with hub := setReg emptyHub (0x4800 + 16 * 13) 0xE00002 }; fld (irt s.hub 13) 0 2 = 2 ∧ (after (.nvmeMsi false 5) s).hub.out = [.msi 7])) ∧
    (isRam 0x10000000 = true ∧ isRam (0x10000000 + 8 - 1) = true ∧ (∀ l ∈ linesFrom 0x10000000 8, hostReadable hosted l = true) ∧
      ¬ (isRam (2 ^ 39) = true) ∧ openByte (after (.nvmeInboundWrite true 0x10000000 fives) hosted) 0x10000001 = 5) ∧
    (let s := connected
     s.hub.up = true ∧ connUp s 0x400000 = true ∧ (connW s 0x400000 16).toNat ≤ (connW s 0x400000 8).toNat ∧
     (connW s 0x400000 8).toNat + 64 - (connW s 0x400000 16).toNat ≤ ringSize s 0x400000 0 ∧ (connW s 0x400000 0).toNat = 0x10001000 ∧
     placed s.hub ((connW s 0x400000 48).setWidth 32) = true ∧ (∀ y < 64, (0x10001000 + y) / 64 ≠ 0x400000) ∧ ringSize s 0x400000 0 = 64 ∧ 0x10001000 + 64 ≤ 2 ^ 39 ∧
     connW (after (.netReceive 0x400000 [1, 2] 0) s) 0x400000 8 = 2 ∧
     connSent s 0x400000 < (connW s 0x400000 32).toNat ∧ (connW s 0x400000 32).toNat ≤ (connW s 0x400000 40).toNat + ringSize s 0x400000 8 ∧ extFull s.hub = false ∧
     connSent (after (.netTransmit 0x400000) s) 0x400000 = 4) ∧
    (let s := { user with hub := setReg emptyHub 0x6008 1 }
     (reg s.hub 0x6008).getLsbD 0 = true ∧ (reg (after (.ethernetLinkChange true true) s).hub 0x6008).getLsbD 3 = true) := by decide +kernel

/-- The device in a power state. -/
def powered (p : Power) : State := { user with ctxs := [], hub := { emptyHub with power := p } }
/-- The private key to whose public key the boot ROM of these tests holds. -/
def romSecret : LmsKey := { id := 1, seed := 2 }
/-- What a cold boot finds on a sound device: firmware of two bytes, signed with that key. -/
def soundBoot : BootFind :=
  { coresIn := [], spareOut := [], lmuOut := [], svc := 1, puf := [], sig := hssSign romSecret 0 [7, 8], flashOk := true, mtvec := 0x9000, pastb := 0x8000
    image := [(0x20000, 7), (0x20001, 8)], entry := 40, repair := noRepair }
/-- The same with a signature of no tree. -/
def forgedBoot : BootFind :=
  let none_ : LmsSig := { q := 0, rand := 0, chains := [], path := [] }
  { soundBoot with sig := { top := none_, next := { id := 0, root := 0 }, last := none_ } }
/-- The device without power, whose boot ROM holds some key. -/
def unpowered (key : LmsPub) : State := { user with ctxs := [], hub := { emptyHub with power := .off, romKey := key } }
/-- A token for the device of that key, by its holder. -/
def debugToken : DebugToken :=
  let t : DebugToken := { pub := devicePub 0, index := 0, sig := soundBoot.sig }
  { t with sig := hssSign romSecret 1 (tokenBytes t) }

/-- The firmware's signature and the token's stand under the key in boot ROM. -/
theorem test_witness_SignaturesStand : hssVerify (lmsPub romSecret) (soundBoot.image.map (·.2)) soundBoot.sig = true ∧
    hssVerify (lmsPub romSecret) (tokenBytes debugToken) debugToken.sig = true :=
  ⟨hssVerify_sign _ 0 _ (by decide), hssVerify_sign _ 1 _ (by decide)⟩

/-- A boot whose signature stands runs the firmware. -/
theorem test_witness_SignedBootRuns (key : LmsPub) (h : hssVerify key (fwBytes soundBoot) soundBoot.sig = true) :
    effColdBoot soundBoot (unpowered key) = bootRun soundBoot (bootTest soundBoot [] (bootSeed soundBoot (unpowered key))) := by
  unfold effColdBoot
  rw [if_neg (by simp [unpowered]), if_neg (by simp [soundBoot])]
  exact if_pos h

/-- Firmware starts at its entry; a boot whose signature does not stand stops. -/
theorem test_witness_ColdBoots : (powered .off).hub.power = .off ∧ soundBoot.flashOk = true ∧ soundBoot.svc.getLsbD 0 = true ∧
    ((bootRun soundBoot (powered .off)).ctx (0x7E0 * 8)).pc = 40 ∧
    hssVerify (powered .off).hub.romKey (forgedBoot.image.map (·.2)) forgedBoot.sig = false ∧
    (after (.coldBoot forgedBoot) (powered .off)).hub.power = .bootStopped := by decide +kernel

/-- A token with the current index, the device's key and that signature unlocks the debug port. -/
theorem test_witness_DebugUnlocks : let s : State := { user with hub := { emptyHub with romKey := lmsPub romSecret } }
    debugToken.index = s.hub.lms ∧ debugToken.pub = devicePub s.hub.seed ∧ tokenOk s.hub { debugToken with index := 1 } = false :=
  ⟨rfl, rfl, by simp [tokenOk, emptyHub]⟩

theorem test_witness_PowerStates :
    (let s := powered .toHold
     s.hub.rbDue = none ∧ s.hub.holdSeal = none ∧ (after .holdEntry s).hub.holdSeal = some 1 ∧ (after .holdEntry s).hub.seals.wanted = true ∧
     (after .holdEntry { s with hub := { s.hub with rbDue := some 4 } }).hub.holdSeal = none) ∧
    (let s := { powered .toHold with hub := { emptyHub with power := .toHold, holdSeal := some 0 } }
     s.hub.power = .toHold ∧ holdQuiet s = true ∧ holdSealed s = true ∧ s.hub.wakePending = none ∧ (after .holdEntry s).hub.power = .hold ∧
     (after .hostWake s).hub.wakePending = some 2) ∧
    (let s := { user with hub := { emptyHub with offReq := true } }; s.hub.up = true ∧ s.hub.offReq = true ∧ (after .powerOff s).hub.power = .off) ∧
    (let s := { powered .hold with hub := { setReg (setReg emptyHub 0x7000 0x108) 0x7010 0x0800010203040506 with power := .hold, measure := sha256 [] }, now := 2900000000 }
     s.hub.power = .hold ∧ bit (reg s.hub 0x7000).toNat 3 = true ∧ reg s.hub 0x7010 = ((0x0800 : BitVec 16) ++ (0x010203040506 : BitVec 48) : BitVec 64) ∧
     fld (reg s.hub 0x7000) 8 32 = 1 ∧ s.hub.holdAt + 2900000000 * fld (reg s.hub 0x7000) 8 32 ≤ s.now ∧
     imageHash s = s.hub.measure ∧ (after (.wakeFrame 0x010203040506 0x0800 (some { conn := 0, bytes := [], ack := 0 })) s).hub.up = true ∧
     imageHash { s with hub := { s.hub with measure := 0 } } ≠ 0 ∧
     (after .hostWake { s with hub := { s.hub with measure := 0, find := forgedBoot } }).hub.power = .bootStopped) := by decide +kernel

theorem test_witness_RegisterWrites :
    (let s := user
     let acts : Nat → Bool := fun off => decide (off ∈ [0x2000, 0x2010, 0x5008, 0x5020, 0x6000, 0x7000] ∨ (0x2100 ≤ off ∧ off < 0x2140) ∨ (0x2400 ≤ off ∧ off < 0x2500) ∨
       (0x5100 ≤ off ∧ off < 0x5200 ∧ off % 32 = 16))
     s.hub.up = true ∧ s.hub.tables.slots = [] ∧ s.hub.tables.queues = [] ∧ bit (1 : Word).toNat 0 = true ∧ fld (1 : Word) 6 38 < 2 ^ 33 ∧
     acts 0x2008 = false ∧ 0x2008 % 8 = 0 ∧ regMask 0x2008 ≠ 0 ∧ hostClosed 0x2008 = false ∧ acts 0 = false ∧ regMask 0 = 0 ∧ hostClosed 0 = false ∧
     acts 0x7010 = false ∧ hostClosed 0x7010 = true ∧ regMask 0x7010 ≠ 0 ∧ 2 % 4 ≠ 0 ∧ (0x90 : Nat) < 0x800 ∧ 0x90 % 16 = 0 ∧
     fld (reg (after (.pbudCapWrite 3 0xFFF) s).hub 0x2118) 0 12 = 420 ∧ fld (reg (after (.cwcfgWrite 0) s).hub 0x6000) 0 4 = 1 ∧
     fld (reg (after (.sealcfgReq 5) s).hub 0x5008) 0 17 = 250) := by decide +kernel

/-- A step that stores: the witness of the form of memory. -/
theorem test_witness_StepKeepsMemoryForm : Memory.wf hosted.mem ∧
    (let s := { hosted with agenda := [.event 0 (.hostWrite 0x10000000 fives)] }
     (match step s with | .next t => ramByte t.mem 0x10000002 == 5 | _ => false) = true) := by decide +kernel
end Sys2Proof.Tests
end

