-- ==== Sys2Proof/Proofs/CanonicalMemory.lean ====
section
/-! SUPPORT. The canonical form of memory, and what the homes of host memory do to it (O59). -/
namespace Sys2Proof.Machine
open Sys2Proof

/-- Memory has the canonical form. It stands for `Memory.wf`, which `simp` looks through to an equation of Booleans: the lemmas below rewrite with
the predicate itself. -/
def Canon (m : List Host.Cell) : Prop := Memory.wf m

/-- The memory of a choice between two states. -/
@[simp] theorem ite_mem (c : Prop) [Decidable c] (a b : State) : (if c then a else b).mem = if c then a.mem else b.mem :=
  apply_ite State.mem c a b

@[simp] theorem canon_ite {c : Prop} [Decidable c] {a b : List Host.Cell} (ha : Canon a) (hb : Canon b) : Canon (if c then a else b) := by
  split
  · exact ha
  · exact hb

@[simp] theorem ramPut_canon {m : List Host.Cell} (a : Nat) (bs : List Byte) (h : Canon m) : Canon (ramPut m a bs) := ramPut_wf a bs h

@[simp] theorem foldl_mem {β : Type} {f : State → β → State} (hf : ∀ s b, (f s b).mem = s.mem) (bs : List β) (s : State) :
    (bs.foldl f s).mem = s.mem := by
  induction bs generalizing s with
  | nil => rfl
  | cons b t ih => rw [List.foldl_cons, ih, hf]

theorem foldl_canon {β : Type} {f : State → β → State} (hf : ∀ s b, Canon s.mem → Canon (f s b).mem) (bs : List β) {s : State} (h : Canon s.mem) :
    Canon (bs.foldl f s).mem := foldl_wf hf bs h

section Home
variable {s : State} (h : Canon s.mem)
include h

@[simp] theorem takeHostData_canon (line : Nat) : Canon (takeHostData s line).mem := takeHostData_wf line h
@[simp] theorem unlistLine_canon (line : Nat) : Canon (unlistLine s line).mem := unlistLine_wf line h
@[simp] theorem spillEntry_canon (ch : Nat) : Canon (spillEntry s ch).mem := spillEntry_wf ch h
@[simp] theorem readLine_canon (line : Nat) : Canon (readLine s line).mem := readLine_wf line h
@[simp] theorem homeRead_canon (a n : Nat) : Canon (homeRead s a n).1.mem := homeRead_wf a n h
@[simp] theorem homeAtomic_canon (a n : Nat) : Canon (homeAtomic s a n).1.mem := homeAtomic_wf a n h
@[simp] theorem writeThrough_canon (w : HWrite) : Canon (writeThrough s w).mem := writeThrough_wf w h
@[simp] theorem homeWrite_canon (w : HWrite) : Canon (homeWrite s w).1.mem := homeWrite_wf w h
@[simp] theorem hubPut_canon (w : HWrite) : Canon (hubPut s w).mem := hubPut_wf w h
@[simp] theorem releaseItem_canon (i : HeldItem) : Canon (releaseItem s i).mem := releaseItem_wf i h
@[simp] theorem outsideWrite_canon (a : Nat) (bs : List Byte) : Canon (outsideWrite s a bs).mem := outsideWrite_wf a bs h

end Home

end Sys2Proof.Machine
end

