-- ==== Sys2Proof/Proofs/FrameMemory.lean ====
section
/-! SUPPORT. What writes no memory (O59). -/
namespace Sys2Proof.Machine
open Sys2Proof

section Mem
variable (s : State)

@[simp] theorem withHub_mem (h : Hub) : ({ s with hub := h } : State).mem = s.mem := rfl
@[simp] theorem placeWord_mem (w : BitVec 96) : (placeWord s w).mem = s.mem := rfl
@[simp] theorem putProj_mem (d : Nat) : (putProj s d).mem = s.mem := rfl
@[simp] theorem datSync_mem (d : Nat) : (datSync s d).mem = s.mem := withHub_mem s _

@[simp] theorem dueRollback_mem (cause : BitVec 8) : (dueRollback s cause).mem = s.mem := by
  unfold dueRollback
  split <;> rfl

@[simp] theorem launchFlight_mem (f : Flight) : (launchFlight s f).mem = s.mem := rfl

@[simp] theorem checkPcb_mem (pasid : Nat) : (checkPcb s pasid).mem = s.mem := by
  unfold checkPcb
  split <;> simp

@[simp] theorem putChan_mem (c n : Nat) (x : Chan) : (putChan s c n x).mem = s.mem := rfl

@[simp] theorem setCopyQ_mem (e : CopyEngine) (q : List CopyCmd) : (setCopyQ s e q).mem = s.mem := by
  unfold setCopyQ
  split <;> rfl

@[simp] theorem setHead_mem (e : CopyEngine) (k : CopyCmd) : (setHead s e k).mem = s.mem := by simp [setHead]
@[simp] theorem tileEnded_mem (core : Nat) : (tileEnded s core).mem = s.mem := rfl
@[simp] theorem memberEnds_mem (f : DefFault) (m : Member) : (memberEnds f s m).mem = s.mem := by simp [memberEnds]

@[simp] theorem engineFault_mem (e : CopyEngine) (code : BitVec 8) (addr : Word) : (engineFault s e code addr).mem = s.mem := by
  unfold engineFault
  split <;> simp

@[simp] theorem resumeWalker_mem (w : Walker) : (resumeWalker s w).mem = s.mem := by
  unfold resumeWalker
  repeat' split
  all_goals simp

@[simp] theorem parkWalker_mem (w : Walker) (r : Option Nat) (code : BitVec 8) : (parkWalker s w r code).mem = s.mem := by
  unfold parkWalker
  repeat' split
  all_goals simp

@[simp] theorem fillCaches_mem (w : Walker) (t : Tlb) (ptrs : List PtrEnt) : (fillCaches s w t ptrs).mem = s.mem := by
  unfold fillCaches
  split <;> rfl

@[simp] theorem askHost_mem (w : Walker) (a : Asker) : (askHost s w a).mem = s.mem := by simp [askHost]

@[simp] theorem resumeReq_mem (ret : Word) (q : Requester) : (resumeReq ret s q).mem = s.mem := by
  simp only [resumeReq]
  repeat' split
  all_goals simp

@[simp] theorem priTake_mem (i : Nat) : (priTake s i).1.mem = s.mem := by
  simp only [priTake]
  repeat' split
  all_goals simp

@[simp] theorem priPump_mem : (priPump s).mem = s.mem := rfl
@[simp] theorem priAgain_mem (alloc : Nat) : (priAgain alloc s).mem = s.mem := rfl
@[simp] theorem dropTlbs_mem (keep : Tlb → Bool) (keepPtr : PtrEnt → Bool) : (dropTlbs s keep keepPtr).mem = s.mem := rfl
@[simp] theorem refreshD_mem (core key : Nat) (alloc : Bool) : (refreshD s core key alloc).mem = s.mem := by simp [refreshD]

@[simp] theorem acquireLine_mem (cid pa : Nat) (sc : Option Scope) : (acquireLine s cid pa sc).mem = s.mem := by
  unfold acquireLine
  split <;> simp

@[simp] theorem land_mem (cid : Nat) (ds : List Landed) : (land s cid ds).mem = s.mem := rfl

@[simp] theorem rstPerf_mem (cid k : Nat) : (rstPerf s cid k).mem = s.mem := by
  simp only [rstPerf]
  split <;> simp

@[simp] theorem effLoopEndTest_mem (cid : Nat) : (effLoopEndTest cid s).mem = s.mem := by simp [effLoopEndTest]
@[simp] theorem fire_mem (c hx cid : Nat) : (fire s c hx cid).mem = s.mem := by simp [fire]

@[simp] theorem effFiringSelection_mem (c : Nat) : (effFiringSelection c s).mem = s.mem := by
  unfold effFiringSelection
  repeat' split
  all_goals simp

@[simp] theorem fireChunk_mem (n : Fork) (i cid : Nat) : (fireChunk s n i cid).mem = s.mem := rfl

@[simp] theorem dealTo_mem (k cid : Nat) : (dealTo s k cid).mem = s.mem := by
  unfold dealTo
  repeat' split
  all_goals simp

@[simp] theorem effChunkDeal_mem (k : Nat) : (effChunkDeal k s).mem = s.mem := by
  unfold effChunkDeal
  repeat' split
  all_goals simp

@[simp] theorem returnCredits_mem (cid : Nat) : (returnCredits s cid).mem = s.mem := by simp [returnCredits]
@[simp] theorem consumeQuota_mem (cid : Nat) : (consumeQuota s cid).mem = s.mem := rfl
@[simp] theorem useCredit_mem (cid : Nat) (yes : Bool) : (useCredit s cid yes).mem = s.mem := by simp [useCredit]
@[simp] theorem installEntry_mem (core ch : Nat) (img : BitVec 256) : (installEntry s core ch img).mem = s.mem := by simp [installEntry]
@[simp] theorem gateCore_mem (c : Nat) : (gateCore c s).mem = s.mem := by simp [gateCore]
@[simp] theorem leave_mem (cid : Nat) : (leave s cid).mem = s.mem := by simp [leave]
@[simp] theorem yieldSave_mem (cid : Nat) (live : BitVec 9) (dl : Nat) : (yieldSave cid live dl s).mem = s.mem := by simp [yieldSave]
@[simp] theorem discardUnstarted_mem (cid : Nat) : (discardUnstarted s cid).mem = s.mem := rfl

@[simp] theorem redeliver_mem (cid : Nat) (count : Bool) : (redeliver s cid count).mem = s.mem := by
  simp only [redeliver]
  split <;> simp

@[simp] theorem returnChunk_mem (i id : Nat) : (returnChunk s i id).mem = s.mem := rfl

@[simp] theorem countSaved_mem (core : Nat) (kind : FiringKind) (lslot : Option Nat) (more : Bool) :
    (countSaved s core kind lslot more).mem = s.mem := by
  simp only [countSaved]
  repeat' split
  all_goals simp

@[simp] theorem raiseAt_mem (t : Nat) (f : FaultInfo) : (raiseAt t f s).mem = s.mem := by simp [raiseAt]

@[simp] theorem killWork_mem (k : Nat) : (killWork s k).mem = s.mem := by
  unfold killWork
  split <;> rfl

@[simp] theorem resumeTimer_mem (slot inst core : Nat) (t : Token) : (resumeTimer s slot inst core t).mem = s.mem := by
  unfold resumeTimer
  split <;> rfl

@[simp] theorem engBuf_mem (core sp off : Nat) (bs : List (Byte × Bool)) : (engBuf s core sp off bs).mem = s.mem := by simp [engBuf]

@[simp] theorem passTurn_mem (e : CopyEngine) : (passTurn s e).mem = s.mem := by
  unfold passTurn
  split <;> rfl

@[simp] theorem moved_mem (e : CopyEngine) (n : Nat) : (moved s e n).mem = s.mem := by
  unfold moved
  split <;> simp

@[simp] theorem setImages_mem (e : CopyEngine) (is : List TileCmd) : (setImages s e is).mem = s.mem := by
  unfold setImages
  split <;> rfl

@[simp] theorem effGroupClose_mem (c g : Nat) : (effGroupClose c g s).mem = s.mem := rfl

@[simp] theorem effImageEnqueue_mem (e : CopyEngine) : (effImageEnqueue e s).mem = s.mem := by
  unfold effImageEnqueue
  split <;> simp

@[simp] theorem putQueue_mem (q : Nat) (x : Queue) : (putQueue s q x).mem = s.mem := rfl
@[simp] theorem addWork_mem (w : Work) : (addWork s w).1.mem = s.mem := rfl
@[simp] theorem dropWork_mem (k : Nat) : (dropWork s k).mem = s.mem := rfl
@[simp] theorem holdHub_mem (page : Option (Nat × Nat)) (is : List HeldItem) : (holdHub s page is).mem = s.mem := rfl
@[simp] theorem forgetQueue_mem (q : Nat) : (forgetQueue s q).mem = s.mem := rfl
@[simp] theorem effQueueDisable_mem (q : Nat) : (effQueueDisable q s).mem = s.mem := by simp [effQueueDisable]
@[simp] theorem countLines_mem (ks : List (Nat × Bool)) : (countLines s ks).mem = s.mem := rfl
@[simp] theorem setEdge_mem (core : Nat) (e : BitVec 256) : (setEdge s core e).mem = s.mem := by simp [setEdge]

@[simp] theorem placeEntry_mem (la : Launch) (core : Nat) (e : Nat × BitVec 256) : (placeEntry la core s e).mem = s.mem := by
  unfold placeEntry
  split <;> simp

@[simp] theorem unbindOwn_mem (slot : Nat) : (unbindOwn s slot).mem = s.mem := rfl
@[simp] theorem chargeRt_mem : (chargeRt s).mem = s.mem := rfl
@[simp] theorem endLaunch_mem (slot : Nat) : (endLaunch s slot).mem = s.mem := rfl
@[simp] theorem refuseTaking_mem : (refuseTaking s).mem = s.mem := rfl
@[simp] theorem preemptFor_mem (c w : Nat) : (preemptFor s c w).mem = s.mem := rfl
@[simp] theorem takeFrom_mem (c w : Nat) : (takeFrom s c w).mem = s.mem := by simp [takeFrom]
@[simp] theorem reserve_mem (d slot : Nat) (la : Launch) : (reserve s d slot la).mem = s.mem := by simp [reserve]
@[simp] theorem clearReserve_mem (slot : Nat) : (clearReserve s slot).mem = s.mem := by simp [clearReserve]

@[simp] theorem grantOne_mem (g : Grant) : (grantOne s g).mem = s.mem := by
  simp only [grantOne]
  repeat' split
  all_goals simp

@[simp] theorem noteReady_mem : (noteReady s).mem = s.mem := rfl

@[simp] theorem serveLaunch_mem (slot : Nat) : (serveLaunch s slot).mem = s.mem := by
  simp only [serveLaunch]
  repeat' split
  all_goals simp

@[simp] theorem effQuantum_mem (c : Nat) : (effQuantum c s).mem = s.mem := by
  simp only [effQuantum]
  repeat' split
  all_goals simp

@[simp] theorem effRtPeriod_mem (i : Nat) : (effRtPeriod i s).mem = s.mem := by simp [effRtPeriod]
@[simp] theorem pauseTimers_mem (slot inst core : Nat) (chs : List Nat) : (pauseTimers s slot inst core chs).mem = s.mem := rfl
@[simp] theorem loadCore_mem (c : Nat) (e : Nat × Core) : (loadCore c s e).mem = s.mem := rfl
@[simp] theorem restoreAging_mem (c : Nat) (m : Map Nat) : (restoreAging c m s).mem = s.mem := by simp [restoreAging]
@[simp] theorem resumeSave_mem (e : Nat × Ctx) : (resumeSave s e).mem = s.mem := by simp [resumeSave]

@[simp] theorem gainSector_mem (c w : Nat) : (gainSector s c w).mem = s.mem := by
  simp only [gainSector]
  repeat' split
  all_goals simp

@[simp] theorem keepOwner_mem (c : Nat) : (keepOwner s c).mem = s.mem := by simp [keepOwner]
@[simp] theorem grantTo_mem (c w : Nat) : (grantTo s c w).mem = s.mem := rfl

@[simp] theorem effEscalation_mem (k : Nat) : (effEscalation k s).mem = s.mem := by
  unfold effEscalation
  split <;> simp

@[simp] theorem allLate_mem : (allLate s).mem = s.mem := rfl
@[simp] theorem effSealStart_mem : (effSealStart s).mem = s.mem := by simp [effSealStart]

@[simp] theorem effDriftAck_mem (a : Stamper) : (effDriftAck a s).mem = s.mem := by
  unfold effDriftAck
  repeat' split
  all_goals simp

@[simp] theorem effSweep_mem : (effSweep s).mem = s.mem := by
  unfold effSweep
  split <;> rfl

@[simp] theorem effSealTimer_mem : (effSealTimer s).mem = s.mem := by simp [effSealTimer]
@[simp] theorem dropCopies_mem (g : Nat) : (dropCopies s g).mem = s.mem := by simp [dropCopies]
@[simp] theorem dropAll_mem (t : Tables) : (dropAll s t).mem = s.mem := rfl

@[simp] theorem bindSaved_mem (la : Launch) (inst core : Nat) (r : InstRec) : (bindSaved la inst core r s).mem = s.mem := by
  unfold bindSaved
  split <;> simp

@[simp] theorem hostWaits_mem (line : Nat) : (hostWaits line s).mem = s.mem := rfl
@[simp] theorem effHostRead_mem (a n : Nat) : (effHostRead a n s).mem = s.mem := by simp [effHostRead]

@[simp] theorem effHostOwn_mem (line : Nat) (dirty : Option (List Byte)) : (effHostOwn line dirty s).mem = s.mem := by
  unfold effHostOwn
  repeat' split
  all_goals simp

@[simp] theorem snpAnswer_mem (line : Nat) (data : Bool) : (snpAnswer s line data).mem = s.mem := rfl
@[simp] theorem effSnpData_mem (line : Nat) : (effSnpData line s).mem = s.mem := by simp [effSnpData]
@[simp] theorem effSnpCur_mem (line : Nat) : (effSnpCur line s).mem = s.mem := by simp [effSnpCur]
@[simp] theorem cleanSigs_mem (k home : Nat) : (cleanSigs s k home).mem = s.mem := rfl
@[simp] theorem setSlice_mem (k : Nat) (off : Bool) : (setSlice s k off).mem = s.mem := rfl
@[simp] theorem holdFrame_mem (e : BitVec 32) (x : HeldItem) : (holdFrame s e x).mem = s.mem := by simp [holdFrame]
@[simp] theorem macTake_mem (c : Nat) (bs : List Byte) (k : Nat) : (macTake c bs k s).mem = s.mem := by simp [macTake]
@[simp] theorem effTraining_mem (up : BitVec 4) : (effTraining up s).mem = s.mem := rfl
@[simp] theorem zeroY_mem (p w : Word) (core : Nat) : (zeroY p w s core).mem = s.mem := by simp [zeroY]
@[simp] theorem modSect_mem (k : Nat) (f : Sector → Sector) : (modSect s k f).mem = s.mem := rfl
@[simp] theorem tileDone_mem (k : Nat) (t : TileCmd) (fs : List DefFault) : (tileDone s k t fs).mem = s.mem := rfl
@[simp] theorem tileStart_mem (k : Nat) (t : TileCmd) : (tileStart s k t).mem = s.mem := rfl

@[simp] theorem effLatch_mem (k sp w : Nat) : (effLatch k sp w s).mem = s.mem := by
  unfold effLatch
  split <;> simp

@[simp] theorem tileRan_mem (k : Nat) (t : TileCmd) (drn ovf gov pois : Bool) : (tileRan s k t drn ovf gov pois).mem = s.mem := by simp [tileRan]

@[simp] theorem effTldb_mem (k : Nat) : (effTldb k s).mem = s.mem := by
  unfold effTldb
  repeat' split
  all_goals simp

@[simp] theorem effTmul_mem (k : Nat) : (effTmul k s).mem = s.mem := by
  unfold effTmul
  repeat' split
  all_goals simp

@[simp] theorem effTpoly_mem (k : Nat) : (effTpoly k s).mem = s.mem := by
  unfold effTpoly
  repeat' split
  all_goals simp

@[simp] theorem setRows_mem (core : Nat) (rs : List RowSlot) : (setRows s core rs).mem = s.mem := rfl

@[simp] theorem drainNext_mem (k : Nat) (t : TileCmd) (frow nrow : Nat) (clr : Bool) : (drainNext s k t frow nrow clr).mem = s.mem := by
  simp [drainNext]

@[simp] theorem effDrainRow_mem (k : Nat) : (effDrainRow k s).mem = s.mem := by
  unfold effDrainRow
  repeat' split
  all_goals simp

@[simp] theorem startFirmware_mem (entry : Word) (c : Nat) : (startFirmware entry s c).mem = s.mem := by simp [startFirmware]
@[simp] theorem bootStop_mem (bst : Nat) : (bootStop s bst).mem = s.mem := rfl

@[simp] theorem holdRequest_mem : (holdRequest s).mem = s.mem := by
  unfold holdRequest
  split <;> simp

@[simp] theorem dropCaches_mem : (dropCaches s).mem = s.mem := rfl
@[simp] theorem effDebugUnlock_mem (t : DebugToken) : (effDebugUnlock t s).mem = s.mem := by simp [effDebugUnlock]
@[simp] theorem supWrite_mem (off : Nat) (v : Word) : (supWrite off v s).mem = s.mem := by simp [supWrite]
@[simp] theorem effRegWrite_mem (host : Bool) (off size : Nat) (v : Word) : (effRegWrite host off size v s).mem = s.mem := by simp [effRegWrite]

@[simp] theorem effWatchdogExpiry_mem (cid : Nat) : (effWatchdogExpiry cid s).mem = s.mem := by
  simp only [effWatchdogExpiry]
  split <;> simp

@[simp] theorem upsetWord_mem (core sp w : Nat) : (upsetWord core sp w s).mem = s.mem := by simp [upsetWord]

@[simp] theorem upsetSlot_mem (core ch k : Nat) : (upsetSlot core ch k s).mem = s.mem := by
  simp only [upsetSlot]
  split <;> simp

@[simp] theorem upsetRow_mem (sect row : Nat) : (upsetRow sect row s).mem = s.mem := by simp [upsetRow]
@[simp] theorem upsetBank_mem (sect : Nat) (second : Bool) : (upsetBank sect second s).mem = s.mem := rfl
@[simp] theorem upsetLine_mem (line : Nat) : (upsetLine line s).mem = s.mem := by simp [upsetLine]
@[simp] theorem upsetGran_mem (g : Nat) : (upsetGran g s).mem = s.mem := by simp [upsetGran]

@[simp] theorem upsetEntry_mem (ch k : Nat) : (upsetEntry ch k s).mem = s.mem := by
  simp only [upsetEntry]
  split <;> simp

@[simp] theorem upsetIline_mem (core k : Nat) : (upsetIline core k s).mem = s.mem := by
  simp only [upsetIline]
  split <;> simp

@[simp] theorem upset_mem (u : Upset) : (upset u s).mem = s.mem := by
  unfold upset
  repeat' split
  all_goals simp

@[simp] theorem barRead_mem (off n : Nat) : (barRead off n s).mem = s.mem := by simp [barRead]
@[simp] theorem debugStatus_mem : (debugStatus s).mem = s.mem := by simp [debugStatus]
@[simp] theorem tapRead_mem (v : Word) : (tapRead s v).mem = s.mem := by simp [tapRead]
@[simp] theorem noteRunnable_mem (before : State) (c : Nat) : (noteRunnable before s c).mem = s.mem := by simp [noteRunnable]

@[simp] theorem storeToken_mem (f : Flight) (c n : Nat) : (storeToken s f c n).mem = s.mem := by
  simp only [storeToken]
  split <;> simp

@[simp] theorem copyStart_mem (e : CopyEngine) : (copyStart s e).mem = s.mem := by
  unfold copyStart
  split
  · rfl
  · split
    · rfl
    · split
      · rfl
      · rw [foldl_mem fun _ _ => putCtx_mem _ _ _, setCopyQ_mem]

@[simp] theorem putProjs_mem : (putProjs s).mem = s.mem := foldl_mem putProj_mem _ s

@[simp] theorem zeroClus_mem (c : Nat) (whole : Bool) : (zeroClus s c whole).mem = s.mem := by
  simp only [zeroClus]
  rw [foldl_mem fun _ _ => putCore_mem _ _ _]

@[simp] theorem effNvmeRead_mem (port : Bool) (a n : Nat) : (effNvmeRead port a n s).mem = s.mem := by
  simp only [effNvmeRead]
  split
  · rfl
  · split
    · rfl
    · split
      · exact foldl_mem (fun s l => hostWaits_mem s l) _ s
      · rfl

@[simp] theorem bootTest_mem (f : BootFind) (rows : List Nat) : (bootTest f rows s).mem = s.mem := withHub_mem s _

@[simp] theorem shed_mem (d : Nat) (cs : List Nat) (saved : Nat) : (shed d cs saved s).mem = s.mem := by
  induction cs generalizing s saved with
  | nil => rfl
  | cons c cs ih =>
      unfold shed
      split
      · rfl
      · simp [ih]

@[simp] theorem shedAll_mem : (shedAll s).mem = s.mem := by simp [shedAll]
@[simp] theorem effTick_mem : (effTick s).mem = s.mem := by simp [effTick]

@[simp] theorem effDecision_mem (gs : List Grant) : (effDecision gs s).mem = s.mem := by
  simp [effDecision]

@[simp] theorem holdTake_mem : (holdTake s).mem = s.mem := by
  refine foldl_mem (fun s e => ?_) _ s
  split <;> simp

end Mem

end Sys2Proof.Machine
end

