-- ==== Sys2Proof/Proofs/RoutingMemory.lean ====
section
/-! SUPPORT. Fault records, dead letters and routing keep the canonical form of memory (O59). -/
namespace Sys2Proof.Machine
open Sys2Proof

/-- What routing did keeps the canonical form: a state that it gives has it. -/
def Routed.Canon (r : Routed) : Prop := ∀ t, r = .ok t → Machine.Canon t.mem

section Records
variable {s : State} (h : Canon s.mem)
include h

@[simp] theorem setAD_canon (a : Asker) (pte : Nat) (w : Word) : Canon (setAD s a pte w).1.mem := by
  simp only [setAD]
  repeat' split
  all_goals simp [h]

@[simp] theorem setADWhole_canon (a : Asker) (pte : Nat) (w : Word) : Canon (setADWhole s a pte w).mem := by simp [setADWhole, h]

@[simp] theorem savePut_canon (la : Launch) (off : Nat) (bs : List Byte) : Canon (savePut la s off bs).mem := by
  simp only [savePut]
  repeat' split
  all_goals simp [h]

@[simp] theorem saveRead_canon (la : Launch) (restore : Bool) (off : Nat) : Canon (saveRead la restore s off).mem := by
  simp only [saveRead]
  split <;> simp [h]

@[simp] theorem putMail_canon (la : Launch) (state slots k : Nat) (ts : List Token) : Canon (putMail la s state slots k ts).mem := by
  refine savePut_canon (foldl_canon (fun s i h => ?_) _ h) _ _ _
  split
  · exact savePut_canon h _ _ _
  · exact h

@[simp] theorem putInstMail_canon (la : Launch) (inst k : Nat) (r : InstRec) : Canon (putInstMail la s inst k r).mem := by simp [putInstMail, h]

@[simp] theorem putInst_canon (la : Launch) (inst : Nat) (r : InstRec) : Canon (putInst la s inst r).mem :=
  savePut_canon (savePut_canon (savePut_canon (putInstMail_canon h _ _ _ _) _ _ _) _ _ _) _ _ _

@[simp] theorem putPending_canon (la : Launch) (k : Nat) (fs : List Flight) : Canon (putPending la s k fs).mem := by simp [putPending, h]

@[simp] theorem readInstGrans_canon (la : Launch) (inst : Nat) (r : InstRec) : Canon (readInstGrans la inst r s).mem :=
  foldl_canon (fun _ _ h => by simp [h]) _ (by simp [h])

@[simp] theorem readPendingGrans_canon (la : Launch) : Canon (readPendingGrans la s).mem :=
  foldl_canon (fun _ _ h => by simp [h]) _ (by simp [h])

theorem holdSwapped_canon (la : Launch) (a : BitVec 32) (f : Flight) : (holdSwapped s la a f).Canon := by
  intro t ht
  simp only [holdSwapped] at ht
  split at ht
  · cases ht
  · obtain rfl := Routed.ok.inj ht
    simp [h]

theorem holdPending_canon (la : Launch) (a : BitVec 32) (f : Flight) : (holdPending s la a f).Canon := by
  intro t ht
  simp only [holdPending] at ht
  split at ht
  · cases ht
  · obtain rfl := Routed.ok.inj ht
    simp [h]

theorem routeAt_canon (f : Flight) (a : BitVec 32) : (routeAt s f a).Canon := by
  unfold routeAt
  split
  · exact fun t ht => by cases ht
  · split
    · exact fun t ht => by cases ht
    · split
      · exact fun t ht => by obtain rfl := Routed.ok.inj ht; simpa using h
      · exact holdSwapped_canon h _ _ _
      · exact holdPending_canon h _ _ _
      · exact fun t ht => by cases ht

theorem routeCore_canon (f : Flight) : (routeCore s f).Canon := by
  unfold routeCore
  split
  · exact fun t ht => by obtain rfl := Routed.ok.inj ht; simpa using h
  · exact routeAt_canon h _ _

@[simp] theorem routeEventTag_canon (i : Nat) (payload : Quad) (tagHigh : Word) : Canon (routeEventTag s i payload tagHigh).mem := by
  simp only [routeEventTag]
  split
  · exact h
  · exact h
  · split
    · next t ht => exact routeCore_canon h _ t ht
    · exact h
    · exact h

@[simp] theorem routeEvent_canon (src : Nat) (data : Word) : Canon (routeEvent s src data).mem := by simp [routeEvent, h]
@[simp] theorem frLost_canon : Canon (frLost s).mem := by simp [frLost, h]

@[simp] theorem sendRec_canon (r : FRec) : Canon (sendRec s r).mem := by
  have hc : Canon (checkPcb s r.pasid).mem := by simpa using h
  simp only [sendRec]
  split
  · exact frLost_canon hc
  · split
    · exact frLost_canon hc
    · split
      · next t ht => exact routeCore_canon hc _ t ht
      · exact frLost_canon hc
      · exact hc

@[simp] theorem sendRecs_canon : Canon (sendRecs s).mem := foldl_canon (fun _ _ h => sendRec_canon h _) _ h

@[simp] theorem deadLetters_canon (pasid n : Nat) : Canon (deadLetters s pasid n).mem := by
  simp only [deadLetters]
  repeat' split
  all_goals simp [h]

@[simp] theorem freeRecord_canon (code : BitVec 8) (addr : Word) (acc : BitVec 2) (pasid : BitVec 20) (cid : Nat) (lo hi : Word) :
    Canon (freeRecord s code addr acc pasid cid lo hi).mem := by simp [freeRecord, h]

@[simp] theorem dropTokens_canon (pasid : BitVec 20) (ts : List Token) (rec : Bool) : Canon (dropTokens s pasid ts rec).mem := by
  simp only [dropTokens]
  split
  · exact foldl_canon (fun _ _ h => freeRecord_canon h _ _ _ _ _ _ _) _ (deadLetters_canon h _ _)
  · exact deadLetters_canon h _ _

@[simp] theorem dropToken_canon (t : Token) (rec : Bool) : Canon (dropToken s t rec).mem := by simp [dropToken, h]

@[simp] theorem exitToken_canon (f : Flight) : Canon (exitToken s f).mem := by
  unfold exitToken
  split <;> simp [h]

@[simp] theorem refuse_canon (f : Flight) : Canon (refuse s f).mem := by
  unfold refuse
  repeat' split
  all_goals simp [h]

@[simp] theorem route_canon (f : Flight) : Canon (route s f).mem := by
  unfold route
  split
  · next t ht => exact routeCore_canon h _ t ht
  · exact exitToken_canon h _
  · split
    · exact dropToken_canon h _ _
    · exact refuse_canon h _

@[simp] theorem failLaunch_canon (k : Nat) (f : FaultInfo) (status : BitVec 8) : Canon (failLaunch s k f status).mem := by
  unfold failLaunch
  split <;> simp [h]

@[simp] theorem uncontained_canon (cid : Nat) (code cause : BitVec 8) : Canon (uncontained s cid code cause).mem := by
  simp only [uncontained]
  split <;> simp [h]

end Records

end Sys2Proof.Machine
end

