-- ==== Sys2Proof/Proofs/TranslationMemory.lean ====
section
/-! SUPPORT. Translation and what performs a memory access keep the canonical form (O59). -/
namespace Sys2Proof.Machine
open Sys2Proof

section Translate
variable {s : State} (h : Canon s.mem)
include h

@[simp] theorem workFault_canon (k : Nat) (code : BitVec 8) (addr : Word) (acc : BitVec 2) : Canon (workFault s k code addr acc).mem := by
  unfold workFault
  split <;> simp -implicitDefEqProofs [h]

@[simp] theorem queueFault_canon (w : Walker) (a : Asker) (code : BitVec 8) (merged : Nat) : Canon (queueFault s w a code merged).mem := by
  unfold queueFault
  split <;> simp [h]

@[simp] theorem walkerFault_canon (w : Walker) (a : Asker) (code : BitVec 8) (merged : Nat) : Canon (walkerFault s w a code merged).mem := by
  unfold walkerFault
  repeat' split
  all_goals simp [h]

@[simp] theorem endWalk_canon (w : Walker) (a : Asker) (merged : Nat) : Canon (endWalk s w a merged).mem := by
  unfold endWalk
  split <;> simp [h]

@[simp] theorem endShared_canon (n : Nat) (x : Walker) : Canon (endShared n s x).mem := by
  unfold endShared
  split <;> simp [h]

@[simp] theorem pageWalkS_canon (w : Walker) : Canon (pageWalkS s w).mem := by
  simp only [pageWalkS]
  split
  · exact foldl_canon (fun _ _ h => endShared_canon h _ _) _ h
  · exact h

@[simp] theorem serveCam_canon : Canon (serveCam s).mem := by
  refine foldl_canon (fun s w h => ?_) _ h
  split
  · exact queueFault_canon h _ _ _ _
  · exact h

@[simp] theorem atsDone_canon (k : Nat) (ans : Option AtsAnswer) : Canon (atsDone s k ans).mem := by
  simp only [atsDone]
  repeat' split
  all_goals simp [h]

@[simp] theorem freeCam_canon (i : Nat) : Canon (freeCam s i).mem := by simp [freeCam, h]

@[simp] theorem denyReq_canon (page : Nat) (q : Requester) : Canon (denyReq page s q).mem := by
  simp only [denyReq]
  repeat' split
  all_goals simp [h]

/-- What a response to a page request takes keeps the form, as the pair that it gives. -/
theorem priTake_canon_of_eq {i : Nat} {t : State} {x : Option CamEntry} (e : priTake s i = (t, x)) : Canon t.mem := by
  have hm := priTake_mem s i
  rw [e] at hm
  rwa [hm]

@[simp] theorem priOk_canon (i : Nat) : Canon (priOk s i).mem := by
  unfold priOk
  split
  · next e => exact serveCam_canon (by simpa using priTake_canon_of_eq h e)
  · next e => simpa using priTake_canon_of_eq h e

@[simp] theorem priDeny_canon (i : Nat) : Canon (priDeny s i).mem := by
  unfold priDeny
  split
  · next e => exact foldl_canon (fun _ _ h => denyReq_canon h _ _) _ (priTake_canon_of_eq h e)
  · next e => exact priTake_canon_of_eq h e

@[simp] theorem priBad_canon (i : Nat) : Canon (priBad s i).mem := by simp -implicitDefEqProofs [priBad, h]

@[simp] theorem priFail_canon (i : Nat) : Canon (priFail s i).mem := by
  unfold priFail
  split
  · next e => exact serveCam_canon (foldl_canon (fun _ _ h => denyReq_canon h _ _) _ (priTake_canon_of_eq h e))
  · next e => simpa using priTake_canon_of_eq h e

end Translate

section Perform
variable {s : State} (h : Canon s.mem)
include h

@[simp] theorem loadSync_canon (cid : Nat) : Canon (loadSync s cid).mem := by
  simp only [loadSync]
  repeat' split
  all_goals simp [h]

@[simp] theorem loadAsync_canon (cid k : Nat) : Canon (loadAsync s cid k).mem := by
  unfold loadAsync
  split <;> simp [h]

@[simp] theorem storePerf_canon (cid k : Nat) : Canon (storePerf s cid k).mem := by
  simp only [storePerf]
  repeat' split
  all_goals simp [h]

@[simp] theorem notify_canon (cid : Nat) (r : AtomReq) : Canon (notify s cid r).mem := by simp [notify, h]

@[simp] theorem atomEnd_canon (cid : Nat) (r : AtomReq) (old new : Nat) (po : Bool) : Canon (atomEnd s cid r old new po).mem := by
  simp -implicitDefEqProofs [atomEnd, h]

@[simp] theorem atomG_canon (cid : Nat) (r : AtomReq) : Canon (atomG s cid r).mem := by
  have hread : Canon (acquireLine (homeAtomic s r.pa r.bytes).1 cid r.pa (acqOf r.ord r.sc)).mem := by
    simpa using homeAtomic_canon h r.pa r.bytes
  simp only [atomG]
  split
  · exact h
  · split
    · exact h
    · refine atomEnd_canon ?_ _ _ _ _ _
      simp only [refreshD_mem, putCtx_mem]
      split
      · exact writeThrough_canon hread _
      · exact hread

@[simp] theorem atomBuf_canon (cid : Nat) (r : AtomReq) : Canon (atomBuf s cid r).mem := by simp [atomBuf, h]

@[simp] theorem atomPerf_canon (cid : Nat) : Canon (atomPerf s cid).mem := by
  unfold atomPerf
  split <;> simp [h]

@[simp] theorem waitaRead_canon (cid : Nat) (r : WaitaReq) : Canon (waitaRead s cid r).1.mem := by
  unfold waitaRead
  split <;> simp [h]

@[simp] theorem waitaLand_canon (cid : Nat) (r : WaitaReq) (timedOut : Bool) : Canon (waitaLand s cid r timedOut).mem := by
  simp only [waitaLand]
  repeat' split
  all_goals simp [h]

/-- The read that a WAITA makes with its watch keeps the form of the state after its issue. -/
@[simp] theorem waitaFirst_canon (before : State) : Canon (waitaFirst before s).mem := by
  simp only [waitaFirst]
  split
  · split
    · exact waitaLand_canon h _ _ _
    · exact waitaRead_canon h _ _
  · exact h

@[simp] theorem effWaitaWake_canon (cid : Nat) : Canon (effWaitaWake cid s).mem := by
  unfold effWaitaWake
  split <;> simp [h]

@[simp] theorem effWaitaTimeout_canon (cid : Nat) : Canon (effWaitaTimeout cid s).mem := by
  unfold effWaitaTimeout
  split <;> simp [h]

@[simp] theorem effWaitaReread_canon (cid : Nat) : Canon (effWaitaReread cid s).mem := by
  unfold effWaitaReread
  split <;> simp [h]

@[simp] theorem landWaits_canon (hit : Ctx → WaitaReq → Bool) : Canon (landWaits hit s).mem := by
  refine foldl_canon (fun s cid h => ?_) _ h
  split
  · split
    · exact waitaLand_canon h _ _ _
    · exact h
  · exact h

@[simp] theorem atsInvalidate_canon (pasid va len : Nat) : Canon (atsInvalidate s pasid va len).mem := by
  simp only [atsInvalidate]
  split <;> simp [h]

@[simp] theorem prefXlate_canon (cid va : Nat) : Canon (prefXlate s cid va).1.mem := by
  simp only [prefXlate]
  repeat' split
  all_goals simp [h]

@[simp] theorem prefLine_canon (cid : Nat) (llc : Bool) (va : Nat) : Canon (prefLine cid llc s va).mem := by
  simp only [prefLine]
  split <;> simp [h]

@[simp] theorem fillMove_canon (core k : Nat) : Canon (fillMove core k s).mem := by
  simp only [fillMove]
  split <;> simp [h]

@[simp] theorem prefAll_canon (cid : Nat) (llc : Bool) (ptr : Word) (nl : Nat) : Canon (prefAll cid llc ptr nl s).mem := by
  unfold prefAll
  split
  · exact h
  · exact foldl_canon (fun _ _ h => prefLine_canon h _ _ _) _ h

@[simp] theorem effLineFetch_canon (cid : Nat) (find : FetchFind) : Canon (effLineFetch cid find s).mem := by
  simp only [effLineFetch]
  repeat' split
  all_goals simp [h]

end Perform

end Sys2Proof.Machine
end

