-- ==== Sys2Proof/Proofs/FiringMemory.lean ====
section
/-! SUPPORT. Firings, chunks and the machine's instructions keep the canonical form (O59). -/
namespace Sys2Proof.Machine
open Sys2Proof

/-- A step that may be left out keeps the form. -/
theorem canon_skip {c : Prop} [Decidable c] {s t : State} (h : Canon s.mem) (ht : Canon s.mem → Canon t.mem) : Canon (if c then s else t).mem := by
  split
  · exact h
  · exact ht h

section Firings
variable {s : State} (h : Canon s.mem)
include h

/-- A flight that is delivered, or else the state that takes its place, keeps the form. -/
@[simp] theorem deliver_getD_canon (f : Flight) (c n : Nat) {d : State} (hd : Canon d.mem) : Canon ((deliver s f c n).getD d).mem := by
  unfold deliver
  split
  · exact dropToken_canon h _ _
  · split
    · simpa using h
    · exact refuse_canon h _
    · exact dropToken_canon h _ _
    · exact hd

@[simp] theorem effTokenArrival_canon (k : Nat) : Canon (effTokenArrival k s).mem := by
  unfold effTokenArrival
  repeat' split
  all_goals simp [h]

@[simp] theorem effCreditReturn_canon (k : Nat) : Canon (effCreditReturn k s).mem := by
  simp only [effCreditReturn]
  repeat' split
  all_goals simp [h]

@[simp] theorem resend_canon (ok : TokKind → Bool) (k : Nat) : Canon (resend ok k s).mem := by
  unfold resend
  repeat' split
  all_goals simp [h]

@[simp] theorem commitSend_canon (cid : Nat) (t : Token) (dest : BitVec 32) (rch : Option (BitVec 5)) : Canon (commitSend s cid t dest rch).mem := by
  simp [commitSend, h]

@[simp] theorem commitSendn_canon (cid : Nat) (t : Token) (dch : BitVec 5) (dir : Dir) : Canon (commitSendn s cid t dch dir).mem := by
  simp [commitSendn, h]

@[simp] theorem discardRecord_canon (cid : Nat) (code : BitVec 8) : Canon (discardRecord s cid code).mem := by simp [discardRecord, h]

@[simp] theorem commitBind_canon (cid : Nat) (img : BitVec 256) (ch : Nat) : Canon (commitBind s cid img ch).mem := by
  simp only [commitBind]
  split <;> simp [h]

@[simp] theorem commitUnbind_canon (cid ch : Nat) : Canon (commitUnbind s cid ch).mem := by simp [commitUnbind, h]
@[simp] theorem cellOwn_canon (j : Word) (key : Nat × Bool) : Canon (cellOwn s j key).mem := by simp [cellOwn, h]

@[simp] theorem cellWrite_canon (cid : Nat) (j : Word) (key : Nat) (v : Word) (atomic : Bool) : Canon (cellWrite s cid j key v atomic).mem := by
  simp [cellWrite, h]

@[simp] theorem commitFork_canon (cid : Nat) (n m e j : Word) (chunks : Nat) (ps : List Word) (key : Nat) (trk : Bool) :
    Canon (commitFork s cid n m e j chunks ps key trk).mem := by simp [commitFork, h]

@[simp] theorem commitItem_canon (cid : Nat) (o : OutItem) : Canon (commitItem cid s o).mem := by
  unfold commitItem
  split <;> simp [h]

@[simp] theorem commitFiring_canon (cid : Nat) : Canon (commitFiring s cid).mem := by
  simp only [commitFiring, putCtx_mem, returnCredits_mem]
  exact foldl_canon (fun _ _ h => commitItem_canon h _ _) _ (by simpa using h)

@[simp] theorem discardQuota_canon (cid : Nat) : Canon (discardQuota s cid).mem := by simp [discardQuota, h]
@[simp] theorem dispose_canon (cid : Nat) : Canon (dispose cid s).mem := by simp [dispose, h]
@[simp] theorem endNow_canon (cid : Nat) : Canon (endNow cid s).mem := by simp [endNow, h]

@[simp] theorem joinNow_canon (cid : Nat) (j : Word) (key : Nat × Bool) (at_ : Word) : Canon (joinNow cid j key at_ s).mem := by
  have howned : Canon (cellOwn (commitFiring s cid) j key).mem := cellOwn_canon (commitFiring_canon h _) _ _
  simp only [joinNow]
  repeat' split
  all_goals simp -implicitDefEqProofs [howned]

@[simp] theorem endRecord_canon (cid : Nat) (f : FaultInfo) (irv : Bool) : Canon (endRecord s cid f irv).mem := by simp [endRecord, h]

@[simp] theorem finishKill_canon (cid : Nat) (cause : BitVec 8) (drop : Bool) : Canon (finishKill s cid cause drop).mem := by
  simp only [finishKill]
  repeat' split
  all_goals simp [h]

@[simp] theorem effFiringKill_canon (cid : Nat) : Canon (effFiringKill cid s).mem := by
  unfold effFiringKill
  split <;> simp -implicitDefEqProofs [h]

@[simp] theorem effFiringEndOnFault_canon (cid : Nat) : Canon (effFiringEndOnFault cid s).mem := by
  simp only [effFiringEndOnFault]
  repeat' split
  all_goals simp [h]

@[simp] theorem effParkNotice_canon (cid : Nat) : Canon (effParkNotice cid s).mem := by
  simp only [effParkNotice]
  split <;> simp -implicitDefEqProofs [h]

end Firings

section Machine
variable {s : State} (h : Canon s.mem)
include h

@[simp] theorem putG_canon (cid : Nat) (rel : Option Scope) (page : Option (Nat × Nat)) (key : Nat) (bs : List Byte) :
    Canon (putG cid rel page s key bs).mem := by simp [putG, h]

@[simp] theorem putAt_canon (cid : Nat) (rel : Option Scope) (ptr : Word) (bs : List Byte) : Canon (putAt cid rel ptr bs s).mem := by
  unfold putAt
  split
  · refine foldl_canon (fun s i h => ?_) _ h
    dsimp only
    split
    · exact putG_canon h _ _ _ _ _
    · exact h
  · simpa using h

@[simp] theorem saveNow_canon (by_ t : Nat) (ptr : Word) (live : BitVec 9) : Canon (saveNow by_ t ptr live s).mem := by simp [saveNow, h]
@[simp] theorem recordRead_canon (core : Nat) (k : Nat × Bool) : Canon (recordRead core s k).mem := by simp [recordRead, h]

@[simp] theorem loadNow_canon (by_ t : Nat) (ks : List (Nat × Bool)) (bs : List Byte) : Canon (loadNow by_ t ks bs s).mem := by
  have hread := foldl_canon (fun s k h => recordRead_canon (s := s) h (coreOfCid by_) k) ks h
  simp only [loadNow]
  split
  · simpa using hread
  · simpa using hread

@[simp] theorem killReq_canon (e : CamEntry) (drop : Bool) (q : Requester) : Canon (killReq e drop s q).mem := by
  simp only [killReq]
  repeat' split
  all_goals simp [h]

@[simp] theorem handOver_canon (f : Flight) : Canon (handOver s f).mem := by
  unfold handOver
  split <;> simp [h]

@[simp] theorem restoreTok_canon (slot inst : Nat) (t : Token) : Canon (restoreTok slot inst s t).mem := by simp [restoreTok, h]

@[simp] theorem releaseMail_canon (slot inst : Nat) : Canon (releaseMail s slot inst).mem := by
  simp only [releaseMail]
  split
  · exact h
  · split
    · exact h
    · refine foldl_canon (fun _ _ h => handOver_canon h _) _ (canon_skip ?_ fun h => foldl_canon (fun _ _ h => restoreTok_canon h _ _ _) _ h)
      refine canon_skip (canon_skip (canon_skip ?_ fun h => readInstGrans_canon h _ _ _) fun h => putPending_canon h _ _ _)
        fun h => putInstMail_canon h _ _ _ _
      exact canon_skip h fun h => readPendingGrans_canon h _

@[simp] theorem placeNow_canon (slot inst : Nat) (w : Word) : Canon (placeNow slot inst w s).mem := by
  unfold placeNow
  split <;> simp [h]

end Machine

end Sys2Proof.Machine
end

