-- ==== Sys2Proof/Proofs/EngineMemory.lean ====
section
/-! SUPPORT. Copy engines and queues keep the canonical form (O59). -/
namespace Sys2Proof.Machine
open Sys2Proof

section Engines
variable {s : State} (h : Canon s.mem)
include h

@[simp] theorem engRead_canon (x : Nat × Bool) : Canon (engRead s x).mem := by simp [engRead, h]

@[simp] theorem engG_canon {s0 : State} (h0 : Canon s0.mem) (e : CopyEngine) (k : CopyCmd) (m : Member) (va key : Nat) (trk : Bool) (bs : List Byte)
    (pois : Bool) : Canon (engG s s0 e k m va key trk bs pois).mem := by
  simp only [engG]
  split
  · simpa using homeWrite_canon h0 _
  · exact h

@[simp] theorem engStop_canon (e : CopyEngine) (k : CopyCmd) (va : Nat) (a : Acc) (x : EngXlat) : Canon (engStop s e k va a x).mem := by
  unfold engStop
  split <;> simp [h]

@[simp] theorem engPut_canon (e : CopyEngine) (k : CopyCmd) (m : Member) (bs : List SrcByte) : Canon (engPut s e k m bs).mem := by
  have hread : Canon (if (tensOf k.src0 k.src1).sp = 0 then (srcLines bs).foldl engRead s else s).mem := by
    split
    · exact foldl_canon (fun _ _ h => engRead_canon h _) _ h
    · exact h
  simp only [engPut]
  split
  · split
    · refine engG_canon h ?_ _ _ _ _ _ _ _ _
      exact hread
    · exact engStop_canon h _ _ _ _ _
  · split
    · simpa using h
    · simp only [moved_mem]
      exact foldl_canon (fun _ _ h => by simpa using h) _ hread

@[simp] theorem copyPiece_canon (e : CopyEngine) : Canon (copyPiece s e).mem := by
  unfold copyPiece
  repeat' split
  all_goals simp [h]

@[simp] theorem effCopyTransfer_canon (e : CopyEngine) (n : Nat) : Canon (effCopyTransfer e n s).mem := by
  induction n with
  | zero => simpa [effCopyTransfer] using h
  | succ n ih => exact copyPiece_canon ih e

@[simp] theorem ntfToken_canon (e : CopyEngine) (k : CopyCmd) (m : Member) : Canon (ntfToken s e k m).mem := by
  unfold ntfToken
  split <;> simp [h]

@[simp] theorem memberDone_canon (e : CopyEngine) (k : CopyCmd) (m : Member) : Canon (memberDone e k s m).mem := by
  unfold memberDone
  split <;> simp [h]

@[simp] theorem membersDone_canon (e : CopyEngine) (k : CopyCmd) (ms : List Member) : Canon (membersDone e k s ms).1.mem := by
  refine List.foldlRecOn ms _ (motive := fun (r : State × List Member) => Canon r.1.mem) h (fun r hr m _ => ?_)
  split
  · exact hr
  · exact memberDone_canon hr _ _ _

@[simp] theorem effCopyCompletion_canon (e : CopyEngine) : Canon (effCopyCompletion e s).mem := by
  unfold effCopyCompletion
  split <;> simp [h]

end Engines

section Queues
variable {s : State} (h : Canon s.mem)
include h

@[simp] theorem cwStore_canon (pa : Nat) (v : Word) : Canon (cwStore s pa v).mem := by simp [cwStore, h]

@[simp] theorem queueError_canon (q code : Nat) : Canon (queueError s q code).mem := by
  unfold queueError
  split <;> simp -implicitDefEqProofs [h]

@[simp] theorem takeRecord_canon (q idx : Nat) : Canon (takeRecord s q idx).mem := by
  unfold takeRecord
  split <;> simp -implicitDefEqProofs [h]

@[simp] theorem workStop_canon (k : Nat) (w : Work) (va : Nat) (a : Acc) (x : EngXlat) : Canon (workStop s k w va a x).mem := by
  unfold workStop
  split <;> simp -implicitDefEqProofs [h]

@[simp] theorem completeWork_canon (k : Nat) (w : Work) (status : BitVec 8) : Canon (completeWork s k w status).mem := by
  simp only [completeWork]
  repeat' split
  all_goals simp [h]

@[simp] theorem finishWork_canon (k : Nat) (status : BitVec 8) : Canon (finishWork s k status).mem := by
  unfold finishWork
  split <;> simp -implicitDefEqProofs [h]

@[simp] theorem doSignal_canon (k : Nat) (w : Work) (a v : Word) (add : Bool) : Canon (doSignal s k w a v add).mem := by
  simp only [doSignal]
  split
  · split
    · exact h
    · split
      · exact finishWork_canon (writeThrough_canon (homeAtomic_canon (by exact h) _ _) _) _ _
      · split
        · simpa using writeThrough_canon (by exact h) _
        · exact finishWork_canon (writeThrough_canon (by exact h) _) _ _
  · exact workStop_canon h _ _ _ _ _

@[simp] theorem doWaitv_canon (k : Nat) (w : Work) (a c m : Word) (cond : BitVec 2) : Canon (doWaitv s k w a c m cond).mem := by
  simp only [doWaitv]
  repeat' split
  all_goals simp [h]

/-- What a COPYQ has read keeps the form. -/
theorem copyqSource_canon {w : Work} {sa n : Nat} {t : State} {r : List Byte × Bool × List (Nat × Bool)}
    (e : copyqSource s w sa n = .ok (t, r)) : Canon t.mem := by
  simp only [copyqSource] at e
  split at e
  · split at e
    · cases e
      exact homeRead_canon h _ _
    · split at e
      · cases e
        exact homeRead_canon (homeRead_canon h _ _) _ _
      · cases e
        exact homeRead_canon h _ _
  · cases e

@[simp] theorem doCopyq_canon (k : Nat) (w : Work) (dst src len : Word) (pos : Nat) (eng : Option Nat) :
    Canon (doCopyq s k w dst src len pos eng).mem := by
  simp only [doCopyq]
  split
  · next e _ =>
    have hread := copyqSource_canon h e
    split
    · exact h
    · split
      · exact h
      · split
        · exact finishWork_canon (by simpa using writeThrough_canon (by simpa using hread) _) _ _
        · simpa using writeThrough_canon (by simpa using hread) _
  · exact workStop_canon h _ _ _ _ _
  · exact workStop_canon h _ _ _ _ _

@[simp] theorem runWork_canon (k : Nat) : Canon (runWork s k).mem := by
  unfold runWork
  repeat' split
  all_goals simp [h]

@[simp] theorem failRecord_canon (q : Nat) (x : Queue) (r : List Word) : Canon (failRecord s q x r).mem :=
  runWork_canon (freeRecord_canon (takeRecord_canon (by simpa using h) _ _) _ _ _ _ _ _ _) _

theorem takeNext_canon {q : Nat} {t : State} (e : takeNext s q = some t) : Canon t.mem := by
  unfold takeNext at e
  split at e
  · cases e
  · split at e
    · cases e
      exact failRecord_canon h _ _ _
    · split at e
      · cases e
        exact takeRecord_canon (by simpa using h) _ _
      · cases e
        exact takeRecord_canon (by simpa using h) _ _
      · cases e
        simpa using h
      · cases e

@[simp] theorem takeAll_canon (q n : Nat) : Canon (takeAll q n s).mem := by
  induction n generalizing s with
  | zero => exact h
  | succ n ih =>
      unfold takeAll
      split
      · next e => exact ih (takeNext_canon h e)
      · exact h

@[simp] theorem queueOn_canon (q : Nat) : Canon (queueOn s q).mem := takeAll_canon h q takeFuel

@[simp] theorem ring_canon (q : Nat) : Canon (ring s q).mem := by
  simp only [ring]
  repeat' split
  all_goals simp -implicitDefEqProofs [h]

@[simp] theorem effDoorbell_canon (q : Nat) : Canon (effDoorbell q s).mem := by simp [effDoorbell, h]
@[simp] theorem enableQueue_canon (q : Nat) : Canon (enableQueue s q).mem := by simp -implicitDefEqProofs [enableQueue, h]
@[simp] theorem effQueueEnable_canon (q : Nat) : Canon (effQueueEnable q s).mem := by simp [effQueueEnable, h]

@[simp] theorem stepWork_canon (mine : WorkKind → Bool) (k : Nat) : Canon (stepWork mine k s).mem := by
  unfold stepWork
  repeat' split
  all_goals simp [h]

@[simp] theorem effSignal_canon (k : Nat) : Canon (effSignal k s).mem := by simp [effSignal, h]
@[simp] theorem effWaitv_canon (k : Nat) : Canon (effWaitv k s).mem := by simp [effWaitv, h]
@[simp] theorem effCopyq_canon (k : Nat) : Canon (effCopyq k s).mem := by simp [effCopyq, h]

@[simp] theorem effWaitvTimeout_canon (k : Nat) : Canon (effWaitvTimeout k s).mem := by
  unfold effWaitvTimeout
  repeat' split
  all_goals simp -implicitDefEqProofs [h]

@[simp] theorem takeDone_canon (q : Nat) (x : Queue) (r : List Word) : Canon (takeDone s q x r).mem :=
  queueOn_canon (runWork_canon (by simpa using takeRecord_canon h _ _) _) _

@[simp] theorem effBarrier_canon (q : Nat) : Canon (effBarrier q s).mem := by
  unfold effBarrier
  split <;> simp [h]

@[simp] theorem effNopRecord_canon (q : Nat) : Canon (effNopRecord q s).mem := by
  unfold effNopRecord
  split <;> simp [h]

end Queues

end Sys2Proof.Machine
end

