-- ==== Sys2Proof/Proofs/LaunchMemory.lean ====
section
/-! SUPPORT. Launches, clusters and drifts keep the canonical form (O59). -/
namespace Sys2Proof.Machine
open Sys2Proof

section Launches
variable {s : State} (h : Canon s.mem)
include h

@[simp] theorem tryLaunch_canon (k : Nat) (w : Work) (desc tag : Word) (had : Option Nat) : Canon (tryLaunch s k w desc tag had).mem := by
  simp only [tryLaunch]
  split
  · split
    · exact workStop_canon (by simpa using h) _ _ _ _ _
    · exact finishWork_canon (freeRecord_canon (by simpa using h) _ _ _ _ _ _ _) _ _
    · split
      · exact finishWork_canon (freeRecord_canon (by simpa using h) _ _ _ _ _ _ _) _ _
      · simpa using h
  · exact h

@[simp] theorem effLaunchRecord_canon (q : Nat) : Canon (effLaunchRecord q s).mem := by
  simp only [effLaunchRecord]
  repeat' split
  all_goals simp -implicitDefEqProofs [h]

@[simp] theorem placeInst_canon (slot : Nat) (la : Launch) (p : Placing) : Canon (placeInst slot la s p).mem := by
  simp only [placeInst]
  split
  · exact h
  · simp only [noteRunnable_mem]
    refine placeNow_canon ?_ _ _ _
    rw [foldl_mem fun _ _ => setEdge_mem _ _ _, foldl_mem fun _ _ => placeEntry_mem _ _ _ _]
    simpa using h

@[simp] theorem startInst_canon (slot : Nat) (la : Launch) (inst : Nat) : Canon (startInst slot la s inst).mem := by
  unfold startInst
  split <;> simp [h]

@[simp] theorem forkActor_canon (slot : Nat) (la : Launch) (core : Nat) (r : List Word) : Canon (forkActor slot la core s r).mem := by
  unfold forkActor
  split <;> simp [h]

@[simp] theorem startLaunch_canon (slot : Nat) (la : Launch) (pl : List Placing) (start : Bool) : Canon (startLaunch s slot la pl start).mem := by
  have hplaced := fun t (ht : Canon t.mem) => foldl_canon (fun s p h => placeInst_canon (s := s) h slot la p) pl (s := t) ht
  have hstarted := fun t (ht : Canon t.mem) => foldl_canon (fun s i h => startInst_canon (s := s) h slot la i) (pl.map (·.inst)) (s := t) ht
  simp only [startLaunch]
  split
  · exact hplaced _ h
  · split
    · exact foldl_canon (fun _ _ h => forkActor_canon h _ _ _ _) _ (hstarted _ (hplaced _ h))
    · exact hstarted _ (hplaced _ h)

@[simp] theorem failStart_canon (slot : Nat) (la : Launch) : Canon (failStart s slot la).mem := by
  refine queueOn_canon (runWork_canon (freeRecord_canon ?_ _ _ _ _ _ _ _) _) _
  show Canon (takeRecord _ _ _).mem
  refine takeRecord_canon ?_ _ _
  exact h

@[simp] theorem resumeToken_canon (slot : Nat) (la : Launch) : Canon (resumeToken s slot la).mem := by
  unfold resumeToken
  split <;> simp [h]

@[simp] theorem effLaunchStart_canon (slot : Nat) (pl : List Placing) : Canon (effLaunchStart slot pl s).mem := by
  simp only [effLaunchStart]
  split
  · exact h
  · split
    · split
      · exact resumeToken_canon (startLaunch_canon (by simpa using h) _ _ _ _) _ _
      · exact h
    · split
      · exact h
      · split
        · simpa using h
        · split
          · exact failStart_canon h _ _
          · split
            · exact h
            · exact queueOn_canon (takeRecord_canon (startLaunch_canon h _ _ _ _) _ _) _

@[simp] theorem completeLaunch_canon (slot : Nat) (la : Launch) (status : BitVec 8) : Canon (completeLaunch s slot la status).mem := by
  simp -implicitDefEqProofs [completeLaunch, h]

@[simp] theorem effLaunchCompletion_canon (slot : Nat) : Canon (effLaunchCompletion slot s).mem := by
  unfold effLaunchCompletion
  split <;> simp [h]

end Launches

section Clusters
variable {s : State} (h : Canon s.mem)
include h

@[simp] theorem effThermal_canon (d : Nat) (tlim : BitVec 12) : Canon (effThermal d tlim s).mem := by
  unfold effThermal
  split <;> simp -implicitDefEqProofs [h]

@[simp] theorem swapInst_canon (slot inst : Nat) : Canon (swapInst slot s inst).mem := by
  unfold swapInst
  split <;> simp -implicitDefEqProofs [h]

@[simp] theorem writeSlot_canon (x : SwapSlot) : Canon (writeSlot s x).mem := by
  simp only [writeSlot]
  split
  · exact h
  · exact foldl_canon (fun _ _ h => hubPut_canon h _) _ h

@[simp] theorem swapOut_canon (c o slot : Nat) : Canon (swapOut s c o slot).mem := by
  simp only [swapOut]
  refine foldl_canon (fun _ _ h => writeSlot_canon h _) _ ?_
  have hinsts (la : Launch) : Canon ((placedOn la c).foldl (swapInst o) s).mem := foldl_canon (fun _ _ h => swapInst_canon h _ _) _ h
  dsimp only
  split
  · exact hinsts _
  · exact h

@[simp] theorem restoreInst_canon (slot core inst : Nat) : Canon (restoreInst slot core s inst).mem := by
  unfold restoreInst
  repeat' split
  all_goals simp [h]

@[simp] theorem loadOwner_canon (c w : Nat) : Canon (loadOwner s c w).mem := by
  simp only [loadOwner]
  split
  · exact h
  · split
    · simpa using h
    · rw [foldl_mem resumeSave_mem, restoreAging_mem]
      refine foldl_canon (fun _ _ h => foldl_canon (fun _ _ h => restoreInst_canon h _ _ _) _ h) _ ?_
      rw [foldl_mem fun _ _ => loadCore_mem _ _ _]
      exact h

@[simp] theorem effOwnerChange_canon (c slot : Nat) : Canon (effOwnerChange c slot s).mem := by
  have hload (t : State) (ht : Canon t.mem) (w : Nat) :
      Canon (if w < 4096 then loadOwner (gainSector (grantTo t c w) c w) c w else grantTo t c w).mem := by
    split
    · exact loadOwner_canon (by simpa using ht) _ _
    · simpa using ht
  have hs : Canon (chargeRt s).mem := by simpa using h
  simp only [effOwnerChange]
  split
  · exact hs
  · split
    · exact hs
    · split
      · simpa using hs
      · split
        · split
          · exact hs
          · exact hload _ (by simpa using swapOut_canon hs _ _ _) _
        · exact hload _ (by simpa using hs) _

@[simp] theorem effExternal_canon (src : Nat) (data : Word) : Canon (effExternal src data s).mem := by
  unfold effExternal
  split <;> simp [h]

end Clusters

section Drifts
variable {s : State} (h : Canon s.mem)
include h

@[simp] theorem effSealCommit_canon : Canon (effSealCommit s).mem := by
  simp only [effSealCommit]
  split
  · exact foldl_canon (fun _ _ h => releaseItem_canon h _) _ h
  · exact h

@[simp] theorem restoreGran_canon (pins : Map GranMeta) (w : WbEntry) : Canon (restoreGran pins s w).mem := by
  unfold restoreGran
  split <;> simp [h]

@[simp] theorem restoreAll_canon : Canon (restoreAll s).mem :=
  foldl_canon (fun _ _ h => foldl_canon (fun _ _ h => restoreGran_canon h _ _) _ h) _ h

@[simp] theorem enableAll_canon : Canon (enableAll s).mem := by
  refine foldl_canon (fun s q h => ?_) _ h
  split
  · exact enableQueue_canon h _
  · exact h

@[simp] theorem effRollback_canon : Canon (effRollback s).mem := by
  simp only [effRollback]
  split
  · exact h
  · have henabled := enableAll_canon (s := dropAll (restoreAll s) (rolledTables s)) (by simpa using restoreAll_canon h)
    refine routeEvent_canon ?_ _ _
    rw [withHub_mem]
    exact henabled

@[simp] theorem disposeChecked_canon (cid : Nat) : Canon (disposeChecked s cid).mem := by
  simp only [disposeChecked]
  repeat' split
  all_goals simp [h]

@[simp] theorem effChecker_canon (cid : Nat) (again : Bool) : Canon (effChecker cid again s).mem := by
  simp only [effChecker]
  split
  · exact h
  · split
    · simpa using h
    · exact foldl_canon (fun _ _ h => disposeChecked_canon h _) _ (by simpa using h)

@[simp] theorem replaceInst_canon (slot inst : Nat) : Canon (replaceInst slot s inst).mem := by
  unfold replaceInst
  repeat' split
  all_goals simp [h]

@[simp] theorem moveInsts_canon (c slot : Nat) : Canon (moveInsts c s slot).mem := by
  unfold moveInsts
  split
  · exact h
  · exact foldl_canon (fun _ _ h => replaceInst_canon h _ _) _ (foldl_canon (fun _ _ h => swapInst_canon h _ _) _ h)

@[simp] theorem saveLost_canon (c : Nat) : Canon (saveLost s c).mem := by
  unfold saveLost
  split <;> simp [h]

@[simp] theorem effSpare_canon (c : Nat) : Canon (effSpare c s).mem := by
  have hmoved (t : State) (ht : Canon t.mem) (slots : List Nat) : Canon (slots.foldl (moveInsts c) t).mem :=
    foldl_canon (fun _ _ h => moveInsts_canon h _ _) _ ht
  simp only [effSpare]
  split
  · exact h
  · split
    · simpa using h
    · refine routeEvent_canon ?_ _ _
      split
      · simpa using h
      · simpa using hmoved _ (saveLost_canon (by exact h) _) _

@[simp] theorem effScrub_canon (g : Nat) (find : ScrubFind) : Canon (effScrub g find s).mem := by
  unfold effScrub
  repeat' split
  all_goals simp [h]

end Drifts

end Sys2Proof.Machine
end

