-- ==== Sys2Proof/Proofs/OutsideMemory.lean ====
section
/-! SUPPORT. The host's port, the network, power and a unit's own moves keep the canonical form (O59). -/
namespace Sys2Proof.Machine
open Sys2Proof

/-- The entries of a canonical store that some test keeps are canonical. -/
theorem fwf_filter {α : Type} [DecidableEq α] {d : Nat → α} (p : Nat × α → Bool) {m : Map α} {lo : Option Nat} (h : fwfFrom d lo m = true) :
    fwfFrom d lo (m.filter p) = true := by
  induction m generalizing lo with
  | nil => rfl
  | cons e t ih =>
      obtain ⟨k, v⟩ := e
      simp only [fwfFrom, Bool.and_eq_true] at h
      obtain ⟨hkv, ht⟩ := h
      rw [List.filter_cons]
      split
      · simp only [fwfFrom, Bool.and_eq_true]
        exact ⟨hkv, ih ht⟩
      · refine fwf_lower (ih ht) fun l hl => ?_
        subst hl
        simpa using hkv.1

section HostPort
variable {s : State} (h : Canon s.mem)
include h

@[simp] theorem effHostWrite_canon (a : Nat) (bs : List Byte) : Canon (effHostWrite a bs s).mem := by simp [effHostWrite, h]
@[simp] theorem effHostWriteback_canon (line : Nat) (bs : List Byte) : Canon (effHostWriteback line bs s).mem := by simp [effHostWriteback, h]

@[simp] theorem effSnpInv_canon (line : Nat) (dirty : Option (List Byte)) : Canon (effSnpInv line dirty s).mem := by
  unfold effSnpInv
  repeat' split
  all_goals simp [h]

@[simp] theorem cleanLine_canon (line : Nat) : Canon (cleanLine s line).mem := by simp [cleanLine, h]

@[simp] theorem cleanFor_canon (k home : Nat) : Canon (cleanFor k s home).mem := by
  simp only [cleanFor]
  split
  · simpa using foldl_canon (fun _ _ h => cleanLine_canon h _) _ h
  · exact h

@[simp] theorem effSliceLeave_canon (k : Nat) : Canon (effSliceLeave k s).mem := by
  simp only [effSliceLeave]
  split
  · simpa using foldl_canon (fun _ _ h => cleanFor_canon h _ _) _ h
  · exact h

@[simp] theorem effSliceReturn_canon (k : Nat) : Canon (effSliceReturn k s).mem := by
  simp only [effSliceReturn]
  split
  · simpa using foldl_canon (fun _ _ h => cleanFor_canon h _ _) _ h
  · exact h

@[simp] theorem effNvmeMsi_canon (port : Bool) (data : BitVec 4) : Canon (effNvmeMsi port data s).mem := by simp [effNvmeMsi, h]

@[simp] theorem effNvmeWrite_canon (port : Bool) (a : Nat) (bs : List Byte) : Canon (effNvmeWrite port a bs s).mem := by
  simp only [effNvmeWrite]
  split
  · exact h
  · split
    · simpa using h
    · exact foldl_canon (fun _ _ h => outsideWrite_canon (unlistLine_canon h _) _ _) _ h

@[simp] theorem connStore_canon (conn off : Nat) (bs : List Byte) (rel : Option Scope) : Canon (connStore s conn off bs rel).mem := by
  simp [connStore, h]

@[simp] theorem rxToken_canon (conn : Nat) (rxp : Word) : Canon (rxToken s conn rxp).mem := by simp [rxToken, h]
@[simp] theorem effEthLink_canon (port up : Bool) : Canon (effEthLink port up s).mem := by simp [effEthLink, h]

@[simp] theorem ringPut_canon (base size n : Nat) (bs : List Byte) : Canon (ringPut base size n bs s).mem := by
  induction bs generalizing s n with
  | nil => exact h
  | cons b bs ih => exact ih (hubPut_canon h _) _

/-- What a connection does with bytes that it takes: they go into the ring, RXP follows, its frame waits, the token goes out. -/
theorem received_canon (base size n off conn : Nat) (bs b : List Byte) (rel : Option Scope) (e : BitVec 32) (x : HeldItem) (rxp : Word) :
    Canon (rxToken (holdFrame (connStore (ringPut base size n bs s) conn off b rel) e x) conn rxp).mem := by
  refine rxToken_canon ?_ _ _
  rw [holdFrame_mem]
  exact connStore_canon (ringPut_canon h _ _ _ _) _ _ _ _

@[simp] theorem effNetReceive_canon (conn : Nat) (bytes : List Byte) (ack : Nat) : Canon (effNetReceive conn bytes ack s).mem := by
  have hack := connStore_canon h conn 40 (leBytes 8 ack) none
  simp only [effNetReceive]
  split
  · exact h
  · split
    · split
      · exact hack
      · exact received_canon hack _ _ _ _ _ _ _ _ _ _ _
    · split
      · exact h
      · exact received_canon h _ _ _ _ _ _ _ _ _ _ _

@[simp] theorem effNetTransmit_canon (conn : Nat) : Canon (effNetTransmit conn s).mem := by
  simp only [effNetTransmit]
  repeat' split
  all_goals simp [h]

@[simp] theorem macDeliver_canon : Canon (macDeliver s).mem := by
  simp only [macDeliver]
  repeat' split
  all_goals simp [h]

@[simp] theorem netArrive_canon (c : Nat) (bs : List Byte) (k : Nat) : Canon (netArrive c bs k s).mem := by
  unfold netArrive
  split <;> simp [h]

end HostPort

section Power
variable {s : State} (h : Canon s.mem)
include h

/-- Host memory, which a loss of power leaves, keeps the form. -/
@[simp] theorem offState_canon : Canon (offState s).mem := fwf_filter _ h

@[simp] theorem effPowerOff_canon : Canon (effPowerOff s).mem := by simp [effPowerOff, h]
@[simp] theorem bootSeed_canon (f : BootFind) : Canon (bootSeed f s).mem := offState_canon h

@[simp] theorem bootRun_canon (f : BootFind) : Canon (bootRun f s).mem := by
  simp only [bootRun]
  rw [foldl_mem (startFirmware_mem · f.entry)]
  exact List.foldlRecOn f.image _ (motive := Canon) h fun _ h _ _ => ramPut_canon _ _ h

@[simp] theorem effColdBoot_canon (f : BootFind) : Canon (effColdBoot f s).mem := by
  simp only [effColdBoot]
  repeat' split
  all_goals simp [h]

@[simp] theorem cleanAll_canon : Canon (cleanAll s).mem := foldl_canon (fun _ _ h => cleanLine_canon h _) _ h

@[simp] theorem wakeUp_canon (src : Nat) : Canon (wakeUp s src).mem := by
  simp only [wakeUp]
  refine foldl_canon (fun _ _ h => macDeliver_canon h) _ ?_
  split
  · exact routeEvent_canon (by exact h) _ _
  · exact h

@[simp] theorem wake_canon (src : Nat) : Canon (wake s src).mem := by
  unfold wake
  split <;> simp [h]

@[simp] theorem effHoldEntry_canon : Canon (effHoldEntry s).mem := by
  unfold effHoldEntry
  repeat' split
  all_goals simp [h]

@[simp] theorem wakeBy_canon (src : Nat) : Canon (wakeBy src s).mem := by
  unfold wakeBy
  split <;> simp [h]

/-- A step that is made whole, or of which only the stall shows. -/
@[simp] theorem wholeStep_canon {t : State} (ht : Canon t.mem) : Canon (wholeStep s t).mem := by
  unfold wholeStep
  split
  · exact ht
  · exact h

@[simp] theorem effWakeFrame_canon (mac : BitVec 48) (etype : BitVec 16) (fr : Option RxFrame) : Canon (effWakeFrame mac etype fr s).mem := by
  simp only [effWakeFrame]
  split
  · exact h
  · next f =>
    have htaken := wholeStep_canon h (netArrive_canon h f.conn f.bytes f.ack)
    split
    · split
      · exact wakeBy_canon htaken _
      · exact htaken
    · exact h

@[simp] theorem effWakeTimer_canon : Canon (effWakeTimer s).mem := by simp [effWakeTimer, h]

@[simp] theorem debugPut_canon (v : Word) (p : DebugPlace) : Canon (debugPut s v p).mem := by
  unfold debugPut
  split <;> simp [h]

@[simp] theorem decay_canon (a : Nat) (b : Byte) : Canon (decay a b s).mem := by simp [decay, h]

@[simp] theorem ownMove_canon (m : OwnMove) : Canon (ownMove m s).mem := by
  unfold ownMove
  repeat' split
  all_goals simp [h]

end Power

end Sys2Proof.Machine
end

