-- ==== Sys2Proof/Proofs/EffectMemory.lean ====
section
/-! SUPPORT. The effect of an issue keeps the canonical form (O59). -/
namespace Sys2Proof.Machine
open Sys2Proof

/-- The state that an outcome goes on with, if any, has canonical memory. -/
def NextCanon (o : Host.Outcome State Fault Refusal) : Prop := ∀ t, o = .next t → Canon t.mem

/-- What the effect of an instruction asks for beyond the context's view keeps canonical memory. -/
def PostCanon (r : Res (Loc × (State → State))) : Prop := ∀ l post, r = .ok (l, post) → ∀ t, Canon t.mem → Canon (post t).mem

theorem nextCanon_next {t : State} (h : Canon t.mem) : NextCanon (.next t) := by
  intro u hu
  cases hu
  exact h

theorem nextCanon_fault (f : Fault) : NextCanon (.fault f) := fun _ h => by cases h

section Effects
variable {α : Type} {l : Loc} {post : State → State}

theorem postCanon_ok (h : ∀ t, Canon t.mem → Canon (post t).mem) : PostCanon (.ok (l, post)) := by
  intro l post e
  cases e
  exact h

theorem postCanon_error (e : Stop) : PostCanon (.error e) := fun _ _ h => by cases h

theorem postCanon_view (l : Loc) : PostCanon (.ok (l, id)) := postCanon_ok fun _ h => h

theorem postCanon_bind {x : Res α} {f : α → Res (Loc × (State → State))} (h : ∀ a, PostCanon (f a)) : PostCanon (x >>= f) := by
  cases x with
  | error e => exact postCanon_error e
  | ok a => exact h a

/-- An effect within the context's view asks for nothing else. -/
theorem postCanon_within (r : Res Loc) : PostCanon (do let l1 ← r; .ok (l1, id)) := postCanon_bind fun l => postCanon_view l

theorem postCanon_ite {c : Prop} [Decidable c] {a b : Res (Loc × (State → State))} (ha : PostCanon a) (hb : PostCanon b) :
    PostCanon (if c then a else b) := by
  split
  · exact ha
  · exact hb

end Effects

section Issue
variable {s : State} (h : Canon s.mem)
include h

@[simp] theorem wholeIssue_canon {t : State} (ht : Canon t.mem) : Canon (wholeIssue s t).mem := by
  simp only [wholeIssue]
  split
  · exact ht
  · simpa using h

theorem live_canon {t : State} (ht : Canon t.mem) : NextCanon (live s t) := by
  refine nextCanon_next ?_
  split
  · exact wholeStep_canon h ht
  · exact h

/-- The frame of an instruction keeps the form when what it does with the change beyond the view does. -/
theorem issueWith_canon {fin : State → (State → State) → State → State} {i : Instr} {body : State → Loc → Res (Loc × (State → State))}
    (hbody : PostCanon (body s (s.loc s.cur)))
    (hfin : ∀ post t, (∀ u : State, Canon u.mem → Canon (post u).mem) → Canon t.mem → Canon (fin s post t).mem) :
    NextCanon (issueWith fin i body s) := by
  have hput (l : Loc) : Canon (s.putLoc l).mem := by simpa using h
  simp only [issueWith]
  split
  · exact nextCanon_fault _
  · split
    · exact nextCanon_next h
    · split
      · exact nextCanon_next (hput _)
      · split
        · exact nextCanon_next (hput _)
        · split
          · exact nextCanon_next (hput _)
          · next l post e =>
            refine nextCanon_next ?_
            split
            · exact hfin post _ (hbody l post e) (hput _)
            · exact hput _

theorem issueG_canon {i : Instr} {body : State → Loc → Res (Loc × (State → State))} (hbody : PostCanon (body s (s.loc s.cur))) :
    NextCanon (issueG i body s) :=
  issueWith_canon h hbody fun _ t hpost ht => wholeIssue_canon h (hpost t ht)

theorem issue_canon (i : Instr) (body : Loc → Res Loc) : NextCanon (issue i body s) :=
  issueWith_canon h (postCanon_within _) fun _ _ _ ht => ht

end Issue

section Bodies
variable (s : State) (l : Loc)

theorem mtsBody_canon (c : Cond) (s1 : Opd) (sreg : BitVec 16) : PostCanon (mtsBody c s1 sreg s l) := by
  refine postCanon_bind fun g => postCanon_ite (postCanon_ok fun t ht => ?_) (postCanon_view _)
  simpa using ht

theorem bodyPref_canon (c : Cond) (s1 : Opd) (nl : BitVec 6) (llc : Bool) : PostCanon (bodyPref c s1 nl llc s l) :=
  postCanon_ok fun _ ht => prefAll_canon ht _ _ _ _

theorem endBody_canon : PostCanon (endBody s l) :=
  postCanon_bind fun _ => postCanon_ite (postCanon_ok fun _ ht => dispose_canon ht _) (postCanon_ok fun _ ht => endNow_canon ht _)

theorem idleBody_canon : PostCanon (idleBody s l) := by
  intro l2 post e t ht
  unfold idleBody at e
  cases hend : endBody s l with
  | error x => rw [hend] at e; cases e
  | ok r =>
      rw [hend] at e
      cases e
      exact endBody_canon s l _ _ hend t ht

theorem joinBody_canon (i : Instr) (d : Opd) : PostCanon (joinBody i d s l) :=
  postCanon_bind fun _ => postCanon_ite (postCanon_ok fun _ ht => dispose_canon ht _) <|
    postCanon_bind fun _ => postCanon_bind fun _ => postCanon_bind fun _ => postCanon_ok fun _ ht => joinNow_canon ht _ _ _ _

theorem yieldBody_canon (live : BitVec 9) (dl : BitVec 12) : PostCanon (yieldBody live dl s l) := by
  refine postCanon_ite (postCanon_error _) (postCanon_ite ?_ (postCanon_view _))
  refine postCanon_bind fun _ => postCanon_bind fun _ => postCanon_ok fun t ht => ?_
  simpa using ht

theorem chstBody_canon (i : Instr) : PostCanon (chstBody i s l) := postCanon_bind fun _ => postCanon_bind fun _ => postCanon_view _

theorem chkerrBody_canon (i : Instr) (kill : Bool) : PostCanon (chkerrBody i kill s l) :=
  postCanon_bind fun _ => postCanon_ite (postCanon_ok fun _ ht => dispose_canon ht _) (postCanon_view _)

theorem attest_canon : PostCanon (attest l) := by
  refine postCanon_bind fun _ => postCanon_bind fun _ => postCanon_ite (postCanon_view _) (postCanon_ok fun t ht => ?_)
  exact putAt_canon ht _ _ _ _

theorem trapBody_canon (n : BitVec 16) : PostCanon (trapBody n s l) := by
  unfold trapBody
  dsimp only
  split
  · exact postCanon_error _
  · refine postCanon_ite (postCanon_error _) (postCanon_ite (postCanon_ite (attest_canon l) (postCanon_view _)) (postCanon_error _))

theorem tlbiBody_canon (i : Instr) (ty : TlbiType) : PostCanon (tlbiBody i ty s l) := by
  refine postCanon_bind fun _ => postCanon_ite (postCanon_error _) (postCanon_ok fun t ht => ?_)
  simpa using landWaits_canon ht _

theorem ctxsvBody_canon (i : Instr) (live : BitVec 9) : PostCanon (ctxsvBody i live s l) := by
  refine postCanon_bind fun _ => postCanon_bind fun _ => postCanon_ite (postCanon_view _) (postCanon_ite (postCanon_error _) ?_)
  split
  · exact postCanon_ok fun t ht => by simpa using ht
  · exact postCanon_bind fun _ => postCanon_bind fun _ => postCanon_ok fun t ht => saveNow_canon ht _ _ _ _

theorem ctxldBody_canon (i : Instr) : PostCanon (ctxldBody i s l) :=
  postCanon_bind fun _ => postCanon_bind fun _ => postCanon_ite (postCanon_view _) <|
    postCanon_bind fun _ => postCanon_bind fun _ => postCanon_bind fun _ => postCanon_ok fun _ ht => loadNow_canon ht _ _ _ _

theorem replayBody_canon (i : Instr) : PostCanon (replayBody i s l) := by
  refine postCanon_bind fun _ => postCanon_bind fun _ => ?_
  split
  · exact postCanon_view _
  · refine postCanon_ok fun t ht => ?_
    rw [foldl_mem fun s q => resumeReq_mem s _ q]
    exact freeCam_canon ht _

theorem killfBody_canon (i : Instr) (drop : Bool) : PostCanon (killfBody i drop s l) := by
  refine postCanon_bind fun _ => ?_
  split
  · exact postCanon_view _
  · exact postCanon_ok fun t ht => foldl_canon (fun _ _ h => killReq_canon h _ _ _) _ (freeCam_canon ht _)

theorem placeBody_canon (i : Instr) : PostCanon (placeBody i s l) :=
  postCanon_bind fun _ => postCanon_bind fun _ => postCanon_bind fun _ => postCanon_ok fun _ ht => placeNow_canon ht _ _ _

theorem prioBody_canon (c : Cond) (s1 s2 : Opd) :
    PostCanon (do let l1 ← bodyPrio c s1 s2 l; .ok (l1, fun t => noteRunnable s t (coreOfCid l.cid))) := by
  refine postCanon_bind fun _ => postCanon_ok fun t ht => ?_
  simpa using ht

theorem tcfgBody_canon (pa : BitVec 4) : PostCanon (tcfgBody pa s l) :=
  postCanon_bind fun _ => postCanon_bind fun _ => postCanon_bind fun _ => postCanon_view _

theorem bodyTrel_canon (c : Cond) : PostCanon (bodyTrel c s l) := by
  refine postCanon_ite (postCanon_view _) (postCanon_ite (postCanon_error _) (postCanon_ok fun t ht => ?_))
  rw [foldl_mem fun s c => zeroY_mem s _ _ c]
  exact ht

theorem tileBody_canon (i : Instr) : PostCanon (tileBody i s l) := by
  refine postCanon_bind fun _ => ?_
  split
  · exact postCanon_view _
  · exact postCanon_bind fun _ => postCanon_bind fun _ => postCanon_bind fun _ => postCanon_view _

/-- What REP repeats keeps the form: all but PREF, CHKERR and the tile commands stay within the view. -/
theorem bodyOf_canon {i : Instr} {f : State → Loc → Res (Loc × (State → State))} (e : bodyOf i = some f) : PostCanon (f s l) := by
  cases i
  case pref => cases e; exact bodyPref_canon s l _ _ _ _
  case chkerr => cases e; exact chkerrBody_canon s l _ _
  case tcfg => cases e; exact tcfgBody_canon s l _
  case trel => cases e; exact bodyTrel_canon s l _
  case tldb | tmul | tpoly | tdrn => cases e; exact tileBody_canon s l _
  all_goals simp only [bodyOf, reduceCtorEq, Option.some.injEq] at e
  all_goals
    subst e
    exact postCanon_within _

theorem repNone_canon (p : Reg) : PostCanon (repNone l p) :=
  postCanon_ite (postCanon_error _) (postCanon_ite (postCanon_error _) (postCanon_view _))

theorem repInst_canon (i : Instr) (p : Reg) : PostCanon (repInst i p s l) := by
  unfold repInst
  refine postCanon_ite (postCanon_ite (postCanon_error _) (postCanon_view _)) ?_
  split
  · exact postCanon_error _
  · next f e =>
    split
    · next l1 post hf =>
      exact postCanon_ite (postCanon_error _) (postCanon_ok (bodyOf_canon s l e l1 post hf))
    · exact postCanon_ite (postCanon_error _) (postCanon_error _)
    · exact postCanon_error _

theorem repBody_canon (s1 : Opd) : PostCanon (repBody s1 s l) := by
  simp only [repBody]
  split
  · split
    · exact postCanon_error _
    · exact postCanon_ite (repNone_canon l _) (postCanon_error _)
    · exact postCanon_error _
  · exact postCanon_ite (repNone_canon l _) (postCanon_ite (postCanon_error _) (postCanon_error _))
  · exact postCanon_error _
  · refine postCanon_ite (postCanon_error _) (postCanon_ite (postCanon_error _) <|
      postCanon_ite (postCanon_error _) (postCanon_ite (repNone_canon l _) ?_))
    split
    · exact postCanon_error _
    · exact repInst_canon s _ _ _

end Bodies

end Sys2Proof.Machine
end

