-- ==== Sys2Proof/Proofs/StepMemory.lean ====
section
/-! SUPPORT. Every step keeps the canonical form (O59). -/
namespace Sys2Proof.Machine
open Sys2Proof

section Exec
variable {s : State} (h : Canon s.mem)
include h

/-- An issue whose WAITA reads its value as it parks. -/
theorem execWaita_canon (v : View) (c : Cond) (tmo : BitVec 5) (o : Ord) (sc : Scope) (d s1 s2 : Opd) :
    NextCanon (execWaita v c tmo o sc d s1 s2 s) := by
  intro u hu
  simp only [execWaita] at hu
  split at hu
  · next t ht =>
    cases hu
    exact waitaFirst_canon (issue_canon h _ _ t ht) _
  · exact issue_canon h _ _ u hu

theorem execRep_canon (s1 : Opd) : NextCanon (execRep s1 s) := by
  have hrep := issueG_canon h (i := .rep s1) (repBody_canon s (s.loc s.cur) s1)
  intro u hu
  simp only [execRep] at hu
  split at hu
  · next t ht =>
    cases hu
    exact waitaFirst_canon (hrep t ht) _
  · exact hrep u hu

theorem execPrio_canon (c : Cond) (s1 s2 : Opd) : NextCanon (execPrio c s1 s2 s) :=
  issueG_canon h (i := .prio c s1 s2) (prioBody_canon s (s.loc s.cur) c s1 s2)

theorem execTrap_canon (c : Cond) (n : BitVec 16) : NextCanon (execTrap c n s) := by
  have htrap := issueG_canon h (i := .trap c n) (trapBody_canon s (s.loc s.cur) n)
  intro u hu
  simp only [execTrap] at hu
  split at hu
  · next t ht =>
    cases hu
    exact wholeIssue_canon h (sendRecs_canon (htrap t ht))
  · exact htrap u hu

theorem execUndefinedOpcode_canon (op : BitVec 8) : NextCanon (execUndefinedOpcode op s) := by
  simp only [execUndefinedOpcode]
  split
  · exact nextCanon_fault _
  · split
    · exact nextCanon_next h
    · exact nextCanon_next (by simpa using h)

theorem execNetReceive_canon (conn : Nat) (bytes : List Byte) (ack : Nat) : NextCanon (execNetReceive conn bytes ack s) := by
  unfold execNetReceive
  split
  · exact nextCanon_next (by simpa using h)
  · exact live_canon h (netArrive_canon h _ _ _)

/-- Every instruction and every event keeps the canonical form of memory. -/
theorem exec_canon (i : Instr) : NextCanon (exec i s) := by
  cases i
  case rep => exact execRep_canon h _
  case trap => exact execTrap_canon h _ _
  case waita => exact execWaita_canon h _ _ _ _ _ _ _ _
  case undefinedOpcode op => exact execUndefinedOpcode_canon h op
  case netReceive => exact execNetReceive_canon h _ _ _
  case supplyLoss => exact nextCanon_next (offState_canon h)
  case wakeFrame => exact nextCanon_next (effWakeFrame_canon h _ _ _)
  case wakeTimer => exact nextCanon_next (effWakeTimer_canon h)
  case hostWake => exact nextCanon_next (wakeBy_canon h _)
  case coldBoot => exact nextCanon_next (effColdBoot_canon h _)
  case hostPortLinkTraining => exact nextCanon_next (by simpa using h)
  -- instructions that ask for a change beyond the context's view
  case endF => exact issueG_canon h (endBody_canon s _)
  case yield => exact issueG_canon h (yieldBody_canon s _ _ _)
  case chst => exact issueG_canon h (chstBody_canon s _ _)
  case prio => exact execPrio_canon h _ _ _
  case join => exact issueG_canon h (joinBody_canon s _ _ _)
  case chkerr => exact issueG_canon h (chkerrBody_canon s _ _ _)
  case mts => exact issueG_canon h (mtsBody_canon s _ _ _ _)
  case tlbi => exact issueG_canon h (tlbiBody_canon s _ _ _)
  case ctxsv => exact issueG_canon h (ctxsvBody_canon s _ _ _)
  case ctxld => exact issueG_canon h (ctxldBody_canon s _ _)
  case idle => exact issueG_canon h (idleBody_canon s _)
  case replay => exact issueG_canon h (replayBody_canon s _ _)
  case killf => exact issueG_canon h (killfBody_canon s _ _ _)
  case place => exact issueG_canon h (placeBody_canon s _ _)
  case pref => exact issueG_canon h (bodyPref_canon s _ _ _ _ _)
  case tcfg => exact issueG_canon h (tcfgBody_canon s _ _)
  case trel => exact issueG_canon h (bodyTrel_canon s _ _)
  case tldb | tmul | tpoly | tdrn => exact issueG_canon h (tileBody_canon s _ _)
  -- events of the device
  case loadDataArrival cid k => cases k with
    | none => exact live_canon h (by simp -implicitDefEqProofs [h])
    | some j => exact live_canon h (by simp -implicitDefEqProofs [h])
  case loopEndTest | watchdogExpiry | storePerformed | atomicPerformed | notifyRetry | waitaWake | waitaTimeout |
      waitaReread | rstPerform | copyEngineTransfer | copyCompletion | combineGroupClose | copytImageEnqueue | tldbExecute | tmulExecute |
      tpolyExecute | drainRow | tokenArrival | creditReturn | hubTokenResend | firingSelection | chunkDeal | firingKill | firingEndOnFault |
      faultRecordResend | pageWalk | atsCompletion | priSuccess | priInvalidRequest | priResponseFailure | atsInvalidationRequest |
      externalEvent | irtEscalation | doorbell | queueEnable | launchRecord | launchStart | launchCompletion | signalRecord | waitvRecord |
      waitvTimeout | barrierRecord | copyqRecord | nopRecord | schedulerDecision | schedulerTick | quantumExpiry | parkNotice |
      rtPeriodStart | clusterOwnerChange | thermalLimitChange | sealStart | driftAck | sealCommit | sweepComplete | sealTimer | rollback |
      checkerMismatch | spareTakeover | scrubRead | lineFetch | hostRead | hostReadOwnership | hostWrite | hostWriteback | snpInv | snpData
      | snpCur | sliceLeave | sliceReturn | nvmeMsi | nvmeInboundRead | nvmeInboundWrite | netTransmit | ethernetLinkChange | holdEntry |
      powerOff | debugUnlock | pbudCapWrite | rtsWrite | swpcfgWrite | cwcfgWrite | sealcfgReq | datcfgSync | errinjGo | irtWrite |
      registerWrite | queueDisable | priReenable =>
    refine live_canon h ?_
    simp -implicitDefEqProofs [h]
  -- instructions that stay within the context's view
  case nop => exact issue_canon h .nop bodyNop
  case fmt fw => exact issue_canon h (.fmt fw) (bodyFmt fw)
  case rti c => exact issue_canon h (.rti c) (bodyRti c)
  case qfence c m => exact issue_canon h (.qfence c m) (bodyQfence c m)
  case bind c s1 s2 => exact issue_canon h (.bind c s1 s2) fun l => bindR l (.bind c s1 s2) s1 s2
  case rfork c d s1 s2 x => exact issue_canon h (.rfork c d s1 s2 x) fun l => rforkR l (.rfork c d s1 s2 x) d
  all_goals exact issue_canon h _ _

theorem ownStep_canon (m : OwnMove) : NextCanon (ownStep m s) := by
  have hm := ownMove_canon h m
  unfold ownStep
  split
  iterate 7 exact nextCanon_next hm
  exact live_canon h hm

theorem stepIssue_canon : NextCanon (stepIssue s) := by
  unfold stepIssue
  split
  · exact nextCanon_fault _
  · split
    · exact nextCanon_next h
    · split
      · exact exec_canon (by simpa using h) _
      · exact nextCanon_next (wholeStep_canon h (sendRecs_canon (by simpa using h)))
      · exact nextCanon_next h

/-- Every move of the agenda, and every issue, keeps the canonical form of memory. -/
theorem step_canon : NextCanon (step s) := by
  unfold step
  split
  · exact stepIssue_canon h
  · exact stepIssue_canon h
  · split
    · exact nextCanon_next h
    · exact exec_canon (by exact h) _
  · exact live_canon (by exact h) (by rw [evictLine_mem]; exact h)
  · exact ownStep_canon (by exact h) _

end Exec

/-- Settles O59: no part of a step writes memory but through `ramPut`, which keeps the canonical form. -/
theorem stepKeepsMemoryForm : Obligations.StepKeepsMemoryForm := by
  unfold Obligations.StepKeepsMemoryForm
  intro s t h hstep
  exact step_canon h t hstep

end Sys2Proof.Machine
end

