-- ==== Sys2Proof/Proofs/Reset.lean ====
section
/-! SUPPORT. The reset state, clause by clause (O60). -/
namespace Sys2Proof.Machine
open Sys2Proof

/-- The CMAP register of a core that can exist reads, at cold start, as that of a cluster with every core in service (R28). -/
theorem regReset_cmap_of_coreCodeOk {c : Nat} (hs : isService c = false) (hc : coreCodeOk c = true) :
    regReset (0x1000 + 4 * (c / 256 * 20 + c / 32 % 8 * 4 + c / 8 % 4)) = 0x9FF := by
  simp only [isService, beq_eq_false_iff_ne, ne_eq] at hs
  simp only [coreCodeOk, Bool.and_eq_true, Bool.or_eq_true, decide_eq_true_eq] at hc
  have hlt : c / 256 * 20 + c / 32 % 8 * 4 + c / 8 % 4 < 160 := by omega
  generalize c / 256 * 20 + c / 32 % 8 * 4 + c / 8 % 4 = i at hlt
  rw [regReset, if_neg (by omega), if_pos (by omega)]

theorem bit_0x9FF_of_lt {p : Nat} (h : p < 8) : bit (0x9FF : Word).toNat p = true := by
  have : ∀ p < 8, bit (0x9FF : Word).toNat p = true := by decide
  exact this p h

/-- At cold start a core is in service exactly when its number names a core, the service cores aside (log entry 2). -/
theorem inService_reset {c : Nat} (hs : isService c = false) : inService State.reset.hub c = coreCodeOk c := by
  cases hc : coreCodeOk c with
  | false => simp [inService, hs, hc]
  | true =>
      have hr : reg State.reset.hub (0x1000 + 4 * (c / 256 * 20 + c / 32 % 8 * 4 + c / 8 % 4)) = 0x9FF := regReset_cmap_of_coreCodeOk hs hc
      simp only [inService, hs, hc, hr, Bool.true_and, bit_0x9FF_of_lt (Nat.mod_lt c (by decide : 0 < 8))]
      rfl

/-- Settles O60: the reset state evaluated clause by clause; that every core is in service is the one that needs an argument. -/
theorem resetIsAsStated : Obligations.ResetIsAsStated := by
  unfold Obligations.ResetIsAsStated
  have hin (c : Nat) : inService State.reset.hub c = coreCodeOk c ∨ isService c := by
    cases hs : isService c with
    | false => exact .inl (inService_reset hs)
    | true => exact .inr rfl
  exact ⟨reset_wf, rfl, fun _ => rfl, fun _ _ => ⟨rfl, rfl, rfl, rfl⟩, fun _ => ⟨rfl, rfl, fun _ => rfl⟩, rfl, rfl, rfl, rfl, rfl, rfl,
    hin, by decide, by decide, rfl, by decide, rfl⟩

end Sys2Proof.Machine
end

