-- ==== Sys2Proof/Proofs/Rollback.lean ====
section
/-! SUPPORT. A rollback of a state whose channel store is not canonical (O55). -/
namespace Sys2Proof.Machine
open Sys2Proof

/-- A state with a rollback due and one windbreak entry, whose core 0 lists its channel 0 twice: what the channel reads as, and a masked one behind it. -/
def channelListedTwice : State :=
  { State.reset with
    cores := [(0, { emptyCore with chans := [(0, { emptyChan with since := 1 }), (0, { emptyChan with masked := true })] })]
    hub := { emptyHub with
      rbDue := some 4
      wb := [(0, [{ drift := 1, gran := 0, old := List.replicate 64 0, opois := false, bad := false, seq := 0, spilt := false }])] } }

theorem chanAt_channelListedTwice_not_masked : (chanAt channelListedTwice 0 0).masked = false := rfl

/-- No queue's descriptor reads EN 1 in it; the queues are evaluated in 16 rows of 32. -/
theorem descEn_channelListedTwice (q : Nat) (hq : q < 512) :
    descEn (dropAll (restoreAll channelListedTwice) (rolledTables channelListedTwice)) q = false := by
  have rows : ∀ i < 16, ∀ j < 32, descEn (dropAll (restoreAll channelListedTwice) (rolledTables channelListedTwice)) (32 * i + j) = false := by
    decide +kernel
  simpa [Nat.div_add_mod] using rows (q / 32) (by omega) (q % 32) (by omega)

/-- Without a queue to enable again, a rollback enables none. -/
theorem enableAll_eq_self {s : State} (h : ∀ q < 512, descEn s q = false) : enableAll s = s := by
  have skip : ∀ qs : List Nat, (∀ q ∈ qs, descEn s q = false) → qs.foldl (fun s q => if descEn s q then enableQueue s q else s) s = s := by
    intro qs hqs
    induction qs with
    | nil => rfl
    | cons q qs ih =>
        rw [List.foldl_cons, hqs q (by simp), if_neg (by simp)]
        exact ih fun q hq => hqs q (by simp [hq])
  exact skip _ fun q hq => h q (by simpa [upto] using hq)

/-- The rollback removes the channel's first entry, which it has emptied, and the channel then reads as the second. -/
theorem rollback_channelListedTwice : ∃ t, exec .rollback channelListedTwice = .next t ∧ (chanAt t 0 0).masked = true := by
  refine ⟨_, rfl, ?_⟩
  have hdue : channelListedTwice.hub.rbDue = some 4 := rfl
  rw [if_pos (by decide)]
  simp only [effRollback, hdue, enableAll_eq_self descEn_channelListedTwice]
  decide +kernel

/-- Refutes O55: the statement speaks of every state, also of one whose channel store is not in the canonical form. When a channel is listed twice,
the rollback drops its emptied first entry and the channel takes the mask bit of the second. -/
theorem not_driftsSealAndRollBack : ¬ Obligations.DriftsSealAndRollBack := by
  unfold Obligations.DriftsSealAndRollBack
  intro h
  obtain ⟨-, -, -, -, -, -, hrollback, -⟩ := h channelListedTwice 0 0 0 0 0 0
    { drift := 1, gran := 0, old := List.replicate 64 0, opois := false, bad := false, seq := 0, spilt := false } 0 0 4
    { stamp := 0, item := .msi 0, by_ := none, page := none } [] 0
  obtain ⟨u, hu, -, -, -, -, -, -, hchan, -⟩ := hrollback rfl rfl descEn_channelListedTwice rfl rfl rfl
  obtain ⟨t, ht, hmasked⟩ := rollback_channelListedTwice
  obtain rfl : t = u := by rw [ht] at hu; exact Host.Outcome.next.inj hu
  rw [hchan] at hmasked
  exact absurd hmasked (by rw [show (chanAt channelListedTwice 0 0).masked = false from rfl]; decide)

end Sys2Proof.Machine
end

