-- ==== Sys2Proof/Proofs/Wake.lean ====
section
/-! SUPPORT. A wake whose buffered frame counts a dead letter in PWRCTL (O58). -/
namespace Sys2Proof.Machine
open Sys2Proof

/-- A device in Hold whose MAC has buffered one byte for connection 1. The connection's token is for an actor of no launch, and PASID 0 has its
control block 8 bytes below PWRCTL, so that the token, a dead letter, is counted in PWRCTL. -/
def pwrctlCountsDeadLetters : State :=
  { State.reset with
    mem := [(0x7A, 2), (0x1000, 0xF8), (0x1001, 0x6F), (0x1005, 0x0F)]
    hub := { emptyHub with regs := [(0x2008, 0x1000)], power := .hold, measure := sha256 [], macBuf := [(1, [0], 0)] } }

theorem pwrctlCountsDeadLetters_wf : Memory.wf pwrctlCountsDeadLetters.mem := by decide +kernel

/-- The wake delivers the frame, and the dead letter's count of 1 is written to PWRCTL, where it requests Hold. -/
theorem hostWake_pwrctlCountsDeadLetters : ∃ t, exec .hostWake pwrctlCountsDeadLetters = .next t ∧ t.hub.power = .toHold :=
  ⟨_, rfl, by decide +kernel⟩

/-- Refutes O58: a woken device need not be in Run or Cap. The wake delivers the frames that the MAC has buffered (R458) in the same step, and a
dead letter of such a frame is counted at an address that memory gives (R291), which may be PWRCTL: the count 1 written there requests Hold. -/
theorem not_powerAndRegisterWrites : ¬ Obligations.PowerAndRegisterWrites := by
  unfold Obligations.PowerAndRegisterWrites
  intro h
  obtain ⟨-, -, -, -, -, -, -, -, hwake, -⟩ := h pwrctlCountsDeadLetters 0 0 0 0 0 0 0 false 0 0 emptyFind
    { conn := 0, bytes := [], ack := 0 } { pub := { id := 0, root := 0 }, index := 0, sig := emptyFind.sig }
  obtain ⟨u, hu, hrun, -⟩ := (hwake rfl).1 (by decide +kernel)
  obtain ⟨t, ht, hpower⟩ := hostWake_pwrctlCountsDeadLetters
  obtain rfl : t = u := by rw [ht] at hu; exact Host.Outcome.next.inj hu
  rcases hrun with hrun | hrun <;> rw [hpower] at hrun <;> cases hrun

end Sys2Proof.Machine
end

