-- ==== Sys2Proof/Proofs/NanResults.lean ====
section
/-! SUPPORT. NaN operands give the canonical NaN, and invalid when one signals (O11). -/
namespace Sys2Proof.Machine
open Sys2Proof

/-- The signalling operands are the NaNs of the signalling kind. -/
theorem sigFlag_eq (xs : List FVal) : sigFlag xs = if .nan true ∈ xs then 16 else 0 := by
  have isSig_iff (x : FVal) : x.isSig = true ↔ x = .nan true := by cases x <;> simp [FVal.isSig]
  simp [sigFlag, fInv, List.any_eq_true, isSig_iff]

theorem nanOf_eq_sigFlag (F : Fmt) (xs : List FVal) : nanOf F xs = (F.nan, sigFlag xs) := by rw [nanOf, sigFlag_eq]

/-! ## The operations on NaN operands (R40) -/

theorem exists_nan_of_isNan {a : FVal} (h : a.isNan = true) : ∃ g, a = .nan g := by
  cases a with
  | nan g => exact ⟨g, rfl⟩
  | _ => cases h

section
variable (F : Fmt) (rm : Nat) {a b : FVal}

theorem addV_of_isNan (h : a.isNan = true ∨ b.isNan = true) : F.addV rm a b = (F.nan, sigFlag [a, b]) := by
  rcases h with h | h <;> obtain ⟨g, rfl⟩ := exists_nan_of_isNan h
  · rfl
  · cases a <;> rfl

theorem mulExact_of_isNan (h : a.isNan = true ∨ b.isNan = true) : ∃ g, mulExact a b = some (.nan g) := by
  rcases h with h | h <;> obtain ⟨g, rfl⟩ := exists_nan_of_isNan h
  · cases b <;> exact ⟨_, rfl⟩
  · cases a <;> exact ⟨_, rfl⟩

theorem mulV_of_isNan (h : a.isNan = true ∨ b.isNan = true) : F.mulV rm a b = (F.nan, sigFlag [a, b]) := by
  obtain ⟨g, hp⟩ := mulExact_of_isNan h
  rw [Fmt.mulV, hp]

theorem divV_of_isNan (h : a.isNan = true ∨ b.isNan = true) : F.divV rm a b = (F.nan, sigFlag [a, b]) := by
  rcases h with h | h <;> obtain ⟨g, rfl⟩ := exists_nan_of_isNan h
  · rfl
  · cases a <;> rfl

/-- VFMA on a NaN, but for ∞ × 0 beside one (R174). -/
theorem fmaV_of_isNan {c : FVal} (hp : mulExact a b ≠ none) (h : a.isNan = true ∨ b.isNan = true ∨ c.isNan = true) :
    F.fmaV rm c a b = (F.nan, sigFlag [a, b, c]) := by
  obtain ⟨p, hp⟩ := Option.ne_none_iff_exists'.mp hp
  have hnan : (p.isNan || c.isNan) = true := by
    rcases or_assoc.mpr h with hab | hc
    · obtain ⟨g, hg⟩ := mulExact_of_isNan hab
      rw [hp] at hg
      rw [Option.some.inj hg]
      rfl
    · simp [hc]
  simp only [Fmt.fmaV, hp, hnan, if_true]

end

/-- Settles O11: every operation answers NaN operands with the canonical NaN and `sigFlag` of its operands. -/
theorem nanResultsAreCanonical : Obligations.NanResultsAreCanonical := by
  unfold Obligations.NanResultsAreCanonical
  intro F rm a b x g
  have hmul {y z : FVal} (h : y.isNan = true ∨ z.isNan = true) : mulExact y z ≠ none := by
    obtain ⟨p, hp⟩ := mulExact_of_isNan h
    simp [hp]
  simp only [← sigFlag_eq]
  refine ⟨addV_of_isNan F rm (.inl rfl), addV_of_isNan F rm (.inr rfl), mulV_of_isNan F rm (.inl rfl), mulV_of_isNan F rm (.inr rfl),
    divV_of_isNan F rm (.inl rfl), divV_of_isNan F rm (.inr rfl), fun hp => fmaV_of_isNan F rm hp (.inr (.inr rfl)),
    fmaV_of_isNan F rm (hmul (.inl rfl)) (.inl rfl), fmaV_of_isNan F rm (hmul (.inr rfl)) (.inr (.inl rfl)), rfl, ?_, rfl, rfl, rfl, rfl⟩
  -- VFRCP divides 1, which does not signal
  rw [Fmt.rcpV, divV_of_isNan F rm (.inr rfl)]
  rfl

end Sys2Proof.Machine
end

