-- ==== Sys2Proof/Proofs/RepresentableValues.lean ====
section
/-! SUPPORT. The fields of a number's bits, and that a value which a format holds rounds to itself (O12). -/
namespace Sys2Proof.Machine
open Sys2Proof

theorem bitLen_of_lt {m k : Nat} (hlo : 2 ^ k ≤ m) (hhi : m < 2 ^ (k + 1)) : bitLen m = k + 1 := by
  have hm : m ≠ 0 := by have := Nat.two_pow_pos k; omega
  rw [bitLen, if_neg hm, (Nat.log2_eq_iff hm).mpr ⟨hlo, hhi⟩]

theorem bitLen_le_of_lt {m k : Nat} (h : m < 2 ^ k) : bitLen m ≤ k := by
  unfold bitLen
  split
  · exact Nat.zero_le k
  · next hm => exact (Nat.log2_lt hm).mpr h

/-- Without a bit below the last kept one no mode rounds up. -/
@[simp] theorem roundUp_exact (rm : Nat) (s odd : Bool) : roundUp rm s odd false false = false := by
  unfold roundUp
  split <;> simp

/-! ## The three fields of a number's bits (R37) -/

section Fields
variable (F : Fmt)

theorem two_mul_bias (h : 1 ≤ F.eb) : 2 * F.bias + 2 = 2 ^ F.eb := by
  have := Nat.two_pow_pos (F.eb - 1)
  rw [Fmt.bias, show F.eb = F.eb - 1 + 1 by omega, Nat.pow_succ]
  simp only [Nat.add_sub_cancel]
  omega

theorem sign_beq {x : Nat} (hx : x < 2 ^ F.width) : F.sign (x / 2 ^ (F.eb + F.mb) % 2 == 1) = x / 2 ^ (F.eb + F.mb) * 2 ^ (F.eb + F.mb) := by
  have htop : x / 2 ^ (F.eb + F.mb) < 2 := Nat.div_lt_of_lt_mul (by rwa [← Nat.pow_succ])
  rcases Nat.le_one_iff_eq_zero_or_eq_one.mp (Nat.le_of_lt_succ htop) with h | h <;> simp [Fmt.sign, h]

/-- Below its sign a number is its exponent field and its fraction. -/
theorem mod_sign_eq (x : Nat) : x % 2 ^ (F.eb + F.mb) = x / 2 ^ F.mb % 2 ^ F.eb * 2 ^ F.mb + x % 2 ^ F.mb := by
  rw [Nat.add_comm F.eb, Nat.pow_add, Nat.mod_mul]
  ring

/-- A number is the sum of its fields. -/
theorem fields_eq {x : Nat} (hx : x < 2 ^ F.width) :
    F.sign (x / 2 ^ (F.eb + F.mb) % 2 == 1) + (x / 2 ^ F.mb % 2 ^ F.eb * 2 ^ F.mb + x % 2 ^ F.mb) = x := by
  rw [sign_beq F hx, ← mod_sign_eq]
  exact Nat.div_add_mod' x _

/-- The top bit of a fraction makes a NaN quiet. -/
theorem testBit_fraction (x : Nat) (hmb : 1 ≤ F.mb) : x.testBit (F.mb - 1) = !decide (x % 2 ^ F.mb < 2 ^ (F.mb - 1)) := by
  have hmod : x.testBit (F.mb - 1) = (x % 2 ^ F.mb).testBit (F.mb - 1) := by simp [Nat.testBit_mod_two_pow, show F.mb - 1 < F.mb by omega]
  have hlt : x % 2 ^ F.mb < 2 ^ (F.mb - 1 + 1) := by rw [Nat.sub_add_cancel hmb]; exact Nat.mod_lt _ (Nat.two_pow_pos _)
  rw [hmod, Nat.testBit_eq_decide_div_mod_eq]
  generalize x % 2 ^ F.mb = fr at hlt
  have hpos := Nat.two_pow_pos (F.mb - 1)
  rw [Nat.pow_succ, Nat.mul_comm] at hlt
  rw [Nat.mod_eq_of_lt (Nat.div_lt_of_lt_mul (by omega)), ← decide_not, decide_eq_decide, not_lt]
  constructor
  · intro h
    by_contra hc
    rw [Nat.div_eq_of_lt (by omega)] at h
    omega
  · intro h
    exact Nat.div_eq_of_lt_le (by omega) (by omega)

/-- What the bits of a format stand for, by their exponent field and fraction (R37). -/
theorem unpack_cases (x : Nat) :
    let s := x / 2 ^ (F.eb + F.mb) % 2 == 1
    let ex := x / 2 ^ F.mb % 2 ^ F.eb
    let fr := x % 2 ^ F.mb
    (ex = 2 ^ F.eb - 1 ∧ fr = 0 ∧ F.unpack x = .inf s) ∨
    (ex = 2 ^ F.eb - 1 ∧ 0 < fr ∧ F.unpack x = .nan (decide (fr < 2 ^ (F.mb - 1)))) ∨
    (ex = 0 ∧ fr = 0 ∧ F.unpack x = .zero s) ∨
    (ex = 0 ∧ 0 < fr ∧ F.unpack x = .fin s fr (1 - (F.bias : Int) - F.mb)) ∨
    (0 < ex ∧ ex < 2 ^ F.eb - 1 ∧ F.unpack x = .fin s (2 ^ F.mb + fr) ((ex : Int) - F.bias - F.mb)) := by
  intro s ex fr
  have hdef : F.unpack x = if ex = 2 ^ F.eb - 1 then (if fr = 0 then .inf s else .nan (decide (fr < 2 ^ (F.mb - 1))))
    else if ex = 0 then (if fr = 0 then .zero s else .fin s fr (1 - (F.bias : Int) - F.mb))
    else .fin s (2 ^ F.mb + fr) ((ex : Int) - F.bias - F.mb) := rfl
  have hlt : ex < 2 ^ F.eb := Nat.mod_lt _ (Nat.two_pow_pos _)
  rw [hdef]
  split_ifs with hmax hfr hzero hfr
  · exact .inl ⟨hmax, hfr, rfl⟩
  · exact .inr (.inl ⟨hmax, Nat.pos_of_ne_zero hfr, rfl⟩)
  · exact .inr (.inr (.inl ⟨hzero, hfr, rfl⟩))
  · exact .inr (.inr (.inr (.inl ⟨hzero, Nat.pos_of_ne_zero hfr, rfl⟩)))
  · exact .inr (.inr (.inr (.inr ⟨Nat.pos_of_ne_zero hzero, by omega, rfl⟩)))

end Fields

/-- A value whose last place is the quantum of its binade, within the format's range, rounds to itself (R38, R41). -/
theorem round_exact (F : Fmt) (rm : Nat) (s : Bool) {m : Nat} {e : Int}
    (hq : max (e + (bitLen m : Int) - 1 - F.mb) (1 - (F.bias : Int) - F.mb) = e) (htop : e + (bitLen m : Int) - 1 ≤ F.bias)
    (hmag : m + (e - (1 - (F.bias : Int) - F.mb)).toNat * 2 ^ F.mb < F.inf false) :
    F.round rm s m e false = (F.sign s + (m + (e - (1 - (F.bias : Int) - F.mb)).toNat * 2 ^ F.mb), 0) := by
  have hplace : (if e = 1 - (F.bias : Int) - F.mb then m else m + (e - (1 - (F.bias : Int) - F.mb)).toNat * 2 ^ F.mb) =
      m + (e - (1 - (F.bias : Int) - F.mb)).toNat * 2 ^ F.mb := by
    split
    · next h => simp [← h]
    · rfl
  simp only [Fmt.round, hq, if_neg (not_lt.mpr htop), le_refl, if_true, sub_self, Int.toNat_zero, pow_zero, mul_one, roundUp_exact,
    Bool.false_eq_true, if_false, add_zero, hplace, Bool.false_and, if_neg (not_le.mpr hmag)]
  rfl

section Finite
variable (F : Fmt) (rm : Nat) (s : Bool) {ex fr : Nat} (hfr : fr < 2 ^ F.mb)
include hfr

theorem lt_inf_of_lt (hfin : ex < 2 ^ F.eb - 1) : ex * 2 ^ F.mb + fr < F.inf false := by
  have hstep : (ex + 1) * 2 ^ F.mb ≤ (2 ^ F.eb - 1) * 2 ^ F.mb := Nat.mul_le_mul_right _ hfin
  rw [Nat.add_mul] at hstep
  simp only [Fmt.inf, Fmt.sign, Bool.false_eq_true, if_false]
  omega

variable (heb : 1 ≤ F.eb)
include heb

/-- A normal number rounds to its fields. -/
theorem round_normal (hex : 0 < ex) (hfin : ex < 2 ^ F.eb - 1) :
    F.round rm s (2 ^ F.mb + fr) ((ex : Int) - F.bias - F.mb) false = (F.sign s + (ex * 2 ^ F.mb + fr), 0) := by
  have hbias := two_mul_bias F heb
  have hlen : bitLen (2 ^ F.mb + fr) = F.mb + 1 := bitLen_of_lt (by omega) (by rw [Nat.pow_succ]; omega)
  have hplace : 2 ^ F.mb + fr + ((ex : Int) - F.bias - F.mb - (1 - (F.bias : Int) - F.mb)).toNat * 2 ^ F.mb = ex * 2 ^ F.mb + fr := by
    obtain ⟨k, rfl⟩ := Nat.exists_eq_succ_of_ne_zero hex.ne'
    rw [show ((k.succ : Int) - F.bias - F.mb - (1 - (F.bias : Int) - F.mb)).toNat = k by omega, Nat.succ_mul]
    omega
  rw [round_exact F rm s (by rw [hlen]; omega) (by rw [hlen]; omega) (by rw [hplace]; exact lt_inf_of_lt F hfr hfin), hplace]

/-- A subnormal number rounds to its fraction. -/
theorem round_subnormal : F.round rm s fr (1 - (F.bias : Int) - F.mb) false = (F.sign s + fr, 0) := by
  have hlen := bitLen_le_of_lt hfr
  have hbias := two_mul_bias F heb
  have hinf := lt_inf_of_lt F (ex := 0) hfr (by have := Nat.one_lt_two_pow (n := F.eb) (by omega); omega)
  rw [round_exact F rm s (by omega) (by omega) (by simpa using hinf)]
  simp

end Finite

/-- O12 for any format with an exponent and a fraction. -/
theorem round_unpack (F : Fmt) (rm : Nat) {x : Nat} (heb : 1 ≤ F.eb) (hmb : 1 ≤ F.mb) (hx : x < 2 ^ F.width) :
    match F.unpack x with
    | .fin s m e => F.round rm s m e false = (x, 0)
    | .zero s => F.zero s = x
    | .inf s => F.inf s = x
    | .nan g => F.inf false < x % 2 ^ (F.width - 1) ∧ g = !x.testBit (F.mb - 1) := by
  have hsum := fields_eq F hx
  have hfr : x % 2 ^ F.mb < 2 ^ F.mb := Nat.mod_lt _ (Nat.two_pow_pos _)
  rcases unpack_cases F x with ⟨hex, h0, hu⟩ | ⟨hex, hpos, hu⟩ | ⟨hex, h0, hu⟩ | ⟨hex, -, hu⟩ | ⟨hex, hfin, hu⟩ <;> rw [hu]
  · rw [hex, h0] at hsum
    exact hsum
  · refine ⟨?_, by rw [testBit_fraction F x hmb, Bool.not_not]⟩
    rw [show F.width - 1 = F.eb + F.mb from rfl, mod_sign_eq, hex]
    simp only [Fmt.inf, Fmt.sign, Bool.false_eq_true, if_false]
    omega
  · rw [hex, h0] at hsum
    simpa [Fmt.zero] using hsum
  · rw [hex] at hsum
    simpa [round_subnormal F rm _ hfr heb] using hsum
  · simp only [round_normal F rm _ hfr heb hex hfin, hsum]

/-- Settles O12: the quantum of a number that the format holds is its last place, so that rounding drops no bit. -/
theorem roundingKeepsRepresentableValues : Obligations.RoundingKeepsRepresentableValues := by
  unfold Obligations.RoundingKeepsRepresentableValues
  intro F rm x hF hx
  have hfields : 1 ≤ F.eb ∧ 1 ≤ F.mb := by rcases hF with rfl | rfl | rfl <;> decide
  exact round_unpack F rm hfields.1 hfields.2 hx

end Sys2Proof.Machine
end

