-- ==== Sys2Proof/Proofs/FloatArithmetic.lean ====
section
/-! SUPPORT. The operations on exact values against the statements' own, and the lanes that hold them (O9). -/
namespace Sys2Proof.Machine
open Sys2Proof

/-- A finite nonzero value has a magnitude above zero. -/
def FVal.wf : FVal → Prop
  | .fin _ m _ => 0 < m
  | _ => True

theorem unpack_wf (F : Fmt) (x : Nat) : (F.unpack x).wf := by
  rcases unpack_cases F x with ⟨-, -, hu⟩ | ⟨-, -, hu⟩ | ⟨-, -, hu⟩ | ⟨-, hfr, hu⟩ | ⟨-, -, hu⟩ <;> rw [hu]
  · trivial
  · trivial
  · trivial
  · exact hfr
  · exact Nat.add_pos_left (Nat.two_pow_pos _) _

theorem neg_wf {a : FVal} (h : a.wf) : a.neg.wf := by cases a <;> exact h

theorem nan?_eq_isNan (a : FVal) : a.nan? = a.isNan := by cases a <;> rfl

/-! ## Sums -/

theorem over_fin (s : Bool) (m : Nat) (e q : Int) : (FVal.fin s m e).over q = scaled s m e q := by
  cases s <;> simp [FVal.over, scaled]

theorem scaled_self (s : Bool) (m : Nat) (e : Int) : scaled s m e e = if s then -(m : Int) else m := by simp [scaled]

theorem natAbs_scaled_pos {s : Bool} {m : Nat} {e q : Int} (hm : 0 < m) : 0 < (scaled s m e q).natAbs := by
  have : 0 < m * 2 ^ (e - q).toNat := Nat.mul_pos hm (Nat.two_pow_pos _)
  cases s <;> simp only [scaled, if_true, Bool.false_eq_true, if_false] <;> omega

/-- Terms of one sign do not cancel. -/
theorem scaled_add_ne_zero {s : Bool} {m n : Nat} {e f q : Int} (hm : 0 < m) : scaled s m e q + scaled s n f q ≠ 0 := by
  have : 0 < m * 2 ^ (e - q).toNat := Nat.mul_pos hm (Nat.two_pow_pos _)
  cases s <;> simp only [scaled, if_true, Bool.false_eq_true, if_false] <;> omega

/-- A single value as a sum rounds as itself. -/
theorem roundInt_scaled_self (F : Fmt) (rm : Nat) (s zs : Bool) {m : Nat} (e : Int) (hm : 0 < m) :
    F.roundInt rm (scaled s m e e) e zs = F.round rm s m e false := by
  have hnat : ¬ (m : Int) < 0 := not_lt.mpr (Int.natCast_nonneg m)
  cases s <;> simp [Fmt.roundInt, scaled, hm, hm.ne', hnat]

theorem ieeeAdd_eq_addV (F : Fmt) (rm : Nat) {a b : FVal} (ha : a.wf) (hb : b.wf) : ieeeAdd F rm a b = F.addV rm a b := by
  cases a with
  | nan g =>
    rw [addV_of_isNan F rm (.inl rfl)]
    exact nanOf_eq_sigFlag F _
  | inf s =>
    cases b with
    | nan g => exact nanOf_eq_sigFlag F _
    | inf t => cases s <;> cases t <;> rfl
    | _ => rfl
  | zero s =>
    cases b with
    | nan g => exact nanOf_eq_sigFlag F _
    | inf t => rfl
    | zero t => simp [ieeeAdd, Fmt.addV, FVal.nan?, FVal.over, FVal.below, zeroSign]; rfl
    | fin t n f =>
      change F.roundInt rm (0 + (FVal.fin t n f).over f) f _ = F.round rm t n f false
      rw [zero_add, over_fin, roundInt_scaled_self F rm t _ f hb]
  | fin s m e =>
    cases b with
    | nan g => exact nanOf_eq_sigFlag F _
    | inf t => rfl
    | zero t =>
      change F.roundInt rm ((FVal.fin s m e).over e + 0) e _ = F.round rm s m e false
      rw [add_zero, over_fin, roundInt_scaled_self F rm s _ e ha]
    | fin t n f =>
      change F.roundInt rm ((FVal.fin s m e).over (min e f) + (FVal.fin t n f).over (min e f)) (min e f)
          (if s = t then s else decide (rm = 3)) =
        F.roundInt rm (scaled s m e (min e f) + scaled t n f (min e f)) (min e f) (rm == 3)
      rw [over_fin, over_fin]
      by_cases hst : s = t
      · subst hst
        rw [Fmt.roundInt, Fmt.roundInt, if_neg (scaled_add_ne_zero ha), if_neg (scaled_add_ne_zero ha)]
      · rw [if_neg hst]
        rfl

/-! ## Products, quotients, roots -/

theorem exactProduct_eq_mulExact {a b : FVal} (ha : a.isNan = false) (hb : b.isNan = false) : exactProduct a b = mulExact a b := by
  cases a with
  | nan g => cases ha
  | _ =>
    cases b with
    | nan g => cases hb
    | _ => rfl

/-- A product of numbers is a number, well-formed as they are. -/
theorem mulExact_number {a b p : FVal} (ha : a.isNan = false) (hb : b.isNan = false) (wa : a.wf) (wb : b.wf) (hp : mulExact a b = some p) :
    p.isNan = false ∧ p.wf := by
  cases a with
  | nan g => cases ha
  | inf s =>
    cases b with
    | nan g => cases hb
    | zero t => cases hp
    | _ => cases hp; exact ⟨rfl, trivial⟩
  | zero s =>
    cases b with
    | nan g => cases hb
    | inf t => cases hp
    | _ => cases hp; exact ⟨rfl, trivial⟩
  | fin s m e =>
    cases b with
    | nan g => cases hb
    | fin t n f => cases hp; exact ⟨rfl, Nat.mul_pos wa wb⟩
    | _ => cases hp; exact ⟨rfl, trivial⟩

section Ops
variable (F : Fmt) (rm : Nat) {a b : FVal}

theorem isNan_or_not (a b : FVal) : (a.isNan = true ∨ b.isNan = true) ∨ (a.isNan = false ∧ b.isNan = false) := by
  cases a.isNan <;> cases b.isNan <;> simp

theorem ieeeMul_eq_mulV (wa : a.wf) (wb : b.wf) : ieeeMul F rm a b = F.mulV rm a b := by
  rcases isNan_or_not a b with h | ⟨ha, hb⟩
  · rw [mulV_of_isNan F rm h, ieeeMul, nan?_eq_isNan, nan?_eq_isNan, if_pos (by simpa using h), nanOf_eq_sigFlag]
  · rw [ieeeMul, nan?_eq_isNan, nan?_eq_isNan, if_neg (by simp [ha, hb]), exactProduct_eq_mulExact ha hb, Fmt.mulV]
    cases hp : mulExact a b with
    | none => rfl
    | some p =>
      cases p with
      | nan g => cases (mulExact_number ha hb wa wb hp).1
      | _ => rfl

theorem sigFlag_numbers {c : FVal} (ha : a.isNan = false) (hb : b.isNan = false) : sigFlag [a, b, c] = sigFlag [c] := by
  cases a with
  | nan g => cases ha
  | _ =>
    cases b with
    | nan g => cases hb
    | _ => rfl

theorem ieeeFma_eq_fmaV {c : FVal} (wa : a.wf) (wb : b.wf) (wc : c.wf) : ieeeFma F rm c a b = F.fmaV rm c a b := by
  rcases isNan_or_not a b with h | ⟨ha, hb⟩
  · obtain ⟨g, hp⟩ := mulExact_of_isNan h
    rw [fmaV_of_isNan F rm (by simp [hp]) (or_assoc.mp (.inl h)), ieeeFma, nan?_eq_isNan, nan?_eq_isNan, if_pos (by simpa using h),
      nanOf_eq_sigFlag]
  · rw [ieeeFma, nan?_eq_isNan, nan?_eq_isNan, if_neg (by simp [ha, hb]), exactProduct_eq_mulExact ha hb, Fmt.fmaV]
    cases hp : mulExact a b with
    | none => rfl
    | some p =>
      obtain ⟨hpnan, hpwf⟩ := mulExact_number ha hb wa wb hp
      simp only [nan?_eq_isNan, hpnan, Bool.false_or, nanOf_eq_sigFlag, sigFlag_numbers ha hb, ieeeAdd_eq_addV F rm wc hpwf]

theorem ieeeDiv_eq_divV (a b : FVal) : ieeeDiv F rm a b = F.divV rm a b := by
  cases a with
  | nan g => exact nanOf_eq_sigFlag F _
  | _ =>
    cases b with
    | nan g => exact nanOf_eq_sigFlag F _
    | _ => rfl

end Ops

/-! ## Roots -/

/-- The bits of a root from bit k down: with the root in [r, r + 2^(k+1)) the search ends on it. -/
theorem isqrtFrom_eq_sqrt (x k r : Nat) (hlo : r * r ≤ x) (hhi : x < (r + 2 ^ (k + 1)) * (r + 2 ^ (k + 1))) : isqrtFrom x k r = Nat.sqrt x := by
  induction k generalizing r with
  | zero =>
    rw [isqrtFrom]
    split
    · next h => exact Nat.eq_sqrt.mpr ⟨h, hhi⟩
    · next h => exact Nat.eq_sqrt.mpr ⟨hlo, not_le.mp h⟩
  | succ k ih =>
    rw [isqrtFrom]
    split
    · next h => exact ih _ h (by rwa [Nat.add_assoc, ← Nat.two_mul, ← Nat.pow_succ'])
    · next h => exact ih _ hlo (not_le.mp h)

theorem lt_two_pow_bitLen (x : Nat) : x < 2 ^ bitLen x := by
  unfold bitLen
  split
  · next h => simp [h]
  · exact Nat.lt_log2_self

theorem isqrt_eq_sqrt (x : Nat) : isqrt x = Nat.sqrt x := by
  refine isqrtFrom_eq_sqrt x _ 0 (Nat.zero_le x) ?_
  calc x < 2 ^ bitLen x := lt_two_pow_bitLen x
    _ ≤ 2 ^ (bitLen x / 2 + 1 + 1 + (bitLen x / 2 + 1 + 1)) := Nat.pow_le_pow_right (by decide) (by omega)
    _ = (0 + 2 ^ (bitLen x / 2 + 1 + 1)) * (0 + 2 ^ (bitLen x / 2 + 1 + 1)) := by rw [Nat.zero_add, Nat.pow_add]

theorem bne_eq_decide_ne (x y : Nat) : (x != y) = decide (x ≠ y) := by rw [Bool.eq_iff_iff]; simp

section Roots
variable (F : Fmt) (rm : Nat)

theorem ieeeSqrt_eq_sqrtV (a : FVal) : ieeeSqrt F rm a = F.sqrtV rm a := by
  cases a with
  | nan g => exact nanOf_eq_sigFlag F _
  | zero s => rfl
  | inf s => cases s <;> rfl
  | fin s m e =>
    cases s with
    | true => rfl
    | false =>
      have hodd : (e % 2).toNat = if e % 2 = 0 then 0 else 1 := by split <;> omega
      simp only [ieeeSqrt, Fmt.sqrtV, hodd, isqrt_eq_sqrt, Bool.false_eq_true, if_false]

theorem ieeeRsq_eq_rsqV (a : FVal) : ieeeRsq F rm a = F.rsqV rm a := by
  cases a with
  | nan g => exact nanOf_eq_sigFlag F _
  | zero s => rfl
  | inf s => cases s <;> rfl
  | fin s m e =>
    cases s with
    | true => rfl
    | false =>
      have hodd : (((bitLen m : Int) + e) % 2).toNat = if (bitLen m : Int) % 2 = e % 2 then 0 else 1 := by split <;> omega
      simp only [ieeeRsq, Fmt.rsqV, hodd, isqrt_eq_sqrt, Bool.false_eq_true, if_false, bne_eq_decide_ne]

/-! ## Powers, logarithms, integral values -/

theorem ieeeLog2_eq_log2V (a : FVal) : ieeeLog2 F rm a = F.log2V rm a := by
  cases a with
  | nan g => exact nanOf_eq_sigFlag F _
  | zero s => rfl
  | inf s => cases s <;> rfl
  | fin s m e =>
    cases s with
    | true => rfl
    | false =>
      rw [ieeeLog2]
      split
      · next h =>
        rw [Fmt.log2V]
        exact (if_pos h).symm
      · rfl

/-- 2^a of an integer a is formed exactly. -/
theorem exp2V_fin_of_integer {s : Bool} {m : Nat} {e n : Int}
    (hn : scaled s m e (min e 0) = n * (2 ^ (if e < 0 then (-e).toNat else 0) : Nat)) : F.exp2V rm (.fin s m e) = F.round rm false 1 n false := by
  have hpos : ((2 ^ (if e < 0 then (-e).toNat else 0) : Nat) : Int) ≠ 0 := by exact_mod_cast (Nat.two_pow_pos _).ne'
  simp only [Fmt.exp2V, hn, Int.mul_emod_left, Int.mul_ediv_cancel _ hpos, Int.toNat_zero, if_true]

theorem ieeeExp2_eq_exp2V (a : FVal) : ieeeExp2 F rm a = F.exp2V rm a := by
  cases a with
  | nan g => exact nanOf_eq_sigFlag F _
  | zero s => rfl
  | inf s => cases s <;> rfl
  | fin s m e =>
    rw [ieeeExp2]
    split
    · next h =>
      refine (exp2V_fin_of_integer F rm ?_).symm
      by_cases he : 0 ≤ e
      · cases s <;> simp [he, not_lt.mpr he, scaled]
      · have hm : m / 2 ^ (-e).toNat * 2 ^ (-e).toNat = m := Nat.div_mul_cancel (Nat.dvd_of_mod_eq_zero (h.resolve_left he))
        have hm : ((m : Int) / 2 ^ (-e).toNat) * 2 ^ (-e).toNat = m := by exact_mod_cast hm
        rw [min_eq_left (by omega), if_pos (by omega : e < 0), if_neg he, scaled_self]
        cases s <;> simp [hm]
    · rfl

/-- The rest of a division by 2h against 0 and h, by its top bit and what lies below that. -/
theorem rest_by_halves (m : Nat) {h : Nat} (hpos : 0 < h) :
    (h * 2 < 2 * (m % (h * 2)) ↔ m / h % 2 = 1 ∧ m % h ≠ 0) ∧ (2 * (m % (h * 2)) = h * 2 ↔ m / h % 2 = 1 ∧ m % h = 0) ∧
      (m % (h * 2) = 0 ↔ m / h % 2 = 0 ∧ m % h = 0) := by
  have hmod := Nat.mod_mul (x := m) (a := h) (b := 2)
  have hlow := Nat.mod_lt m hpos
  rcases Nat.mod_two_eq_zero_or_one (m / h) with hb | hb <;> rw [hmod, hb] <;> omega

theorem nearInt_eq_roundUp (s : Bool) (m : Nat) {h : Nat} (hpos : 0 < h) :
    nearInt rm s m (h * 2) = m / (h * 2) +
      if roundUp rm s (m / (h * 2) % 2 == 1) (m / h % 2 == 1) (decide (m % h ≠ 0)) then 1 else 0 := by
  obtain ⟨habove, htie, hexact⟩ := rest_by_halves m hpos
  have hinexact : decide (m % (h * 2) ≠ 0) = (m / h % 2 == 1 || decide (m % h ≠ 0)) := by
    rcases Nat.mod_two_eq_zero_or_one (m / h) with hb | hb <;> simp [hexact, hb]
  match rm with
  | 0 => by_cases hl : m % h = 0 <;> simp [nearInt, roundUp, habove, htie, hl]
  | 1 => rfl
  | 2 => simp only [nearInt, hinexact]; rfl
  | rm + 3 => simp only [nearInt, hinexact]; rfl

theorem shiftRound_exact (s : Bool) (m : Nat) {sh : Nat} (hsh : 0 < sh) :
    shiftRound rm s m sh false = (nearInt rm s m (2 ^ sh), decide (m % 2 ^ sh ≠ 0)) := by
  obtain ⟨h, rfl⟩ := Nat.exists_eq_succ_of_ne_zero hsh.ne'
  rw [Nat.pow_succ, nearInt_eq_roundUp rm s m (Nat.two_pow_pos h)]
  have hexact := (rest_by_halves m (Nat.two_pow_pos h)).2.2
  unfold shiftRound
  split
  · next hfar =>
    have hlt : m < 2 ^ h := (lt_two_pow_bitLen m).trans_le (Nat.pow_le_pow_right (by decide) (by omega))
    simp [Nat.div_eq_of_lt hlt, Nat.mod_eq_of_lt hlt, Nat.div_eq_of_lt (hlt.trans_le (Nat.le_mul_of_pos_right _ two_pos)), hexact]
  · rcases Nat.mod_two_eq_zero_or_one (m / 2 ^ h) with hb | hb <;> simp [Nat.pow_succ, hexact, hb]
theorem ieeeRnd_eq_rndV (a : FVal) : ieeeRnd F rm a = F.rndV rm a := by
  cases a with
  | nan g => exact nanOf_eq_sigFlag F _
  | zero s => rfl
  | inf s => rfl
  | fin s m e =>
    by_cases he : 0 ≤ e
    · simp [ieeeRnd, Fmt.rndV, intMag, he]
    · have hsh : 0 < (-e).toNat := by omega
      have hflag : (if e < 0 ∧ m % 2 ^ (-e).toNat ≠ 0 then (1 : FFlags) else 0) = if decide (m % 2 ^ (-e).toNat ≠ 0) then fInx else 0 := by
        simp [not_le.mp he, fInx]
      simp only [ieeeRnd, Fmt.rndV, intMag, if_neg he, shiftRound_exact rm s m hsh, hflag]

end Roots

/-! ## Lanes (R41, R76) -/

theorem lane_eq_laneAt (w : Nat) (x : Src) (i : Nat) : lane w x.val i = laneAt w x i := rfl

/-- The lanes of the model are those of the statements. -/
theorem fpLanes_eq_floatLanes (w : Nat) (f : Nat → Nat × FFlags) : fpLanes w f = floatLanes w f := by
  have hlane : ∀ i ∈ List.range (128 / w), (((upto (128 / w)).map f).getD i (0, 0)).1 % 2 ^ w * 2 ^ (w * i) = wrapped w (f i).1 * 2 ^ (w * i) := by
    intro i hi
    have hget : ((upto (128 / w)).map f).getD i (0, 0) = f i := by simp [upto, List.mem_range.mp hi]
    rw [hget, wrapped, ← Int.natCast_emod, Int.toNat_natCast]
  have hbits : ofLanes w (fun i => (((upto (128 / w)).map f).getD i (0, 0)).1) =
      BitVec.ofNat 128 (((List.range (128 / w)).map (fun i => wrapped w (f i).1 * 2 ^ (w * i))).sum) := by
    rw [ofLanes, upto, ← List.map_congr_left hlane, List.sum_eq_foldl, List.foldl_map]
    rfl
  have hflags : ((upto (128 / w)).map f).foldl (fun a r => a ||| r.2) 0 = (List.range (128 / w)).foldr (fun i t => (f i).2 ||| t) 0 := by
    rw [← List.foldl_map (f := Prod.snd) (g := (· ||| ·)), List.foldl_eq_foldr, List.foldr_map, List.foldr_map, upto]
  simp only [fpLanes, floatLanes, lanesOut, hbits, hflags, outQ]

section Results
variable {v : View} {i : Instr}

/-- A unary instruction computes what its operation is on the values of the lanes. -/
theorem computes_fp1 {f : Env → FVal → Nat × FFlags} {op : Env → Fmt → FVal → Nat × FFlags}
    (hexec : ∀ s, exec i s = issue i (pureOp i v (fun e g => fp1 v g (op e))) s) (hop : ∀ e a, op e (fmtOf v) a = f e a) :
    Computes i v (fun e g => floatLanes (View.lw v) (fun k => f e (fpAt v g.a k))) :=
  computes_of hexec fun e g => by simp only [fp1, fpLanes_eq_floatLanes, hop, fpAt, lane_eq_laneAt]

/-- A binary instruction likewise; the values that lanes hold are well-formed. -/
theorem computes_fp2 {f : Env → FVal → FVal → Nat × FFlags} {op : Env → Fmt → FVal → FVal → Nat × FFlags}
    (hexec : ∀ s, exec i s = issue i (pureOp i v (fun e g => fp2 v g (op e))) s)
    (hop : ∀ e a b, a.wf → b.wf → op e (fmtOf v) a b = f e a b) :
    Computes i v (fun e g => floatLanes (View.lw v) (fun k => f e (fpAt v g.a k) (fpAt v g.b k))) :=
  computes_of hexec fun e g => by
    simp only [fp2, fpLanes_eq_floatLanes, hop _ _ _ (unpack_wf _ _) (unpack_wf _ _), fpAt, lane_eq_laneAt]

end Results

/-- The pairwise reduction of the model is that of the statements. -/
theorem vredR_fadd (v : View) (hv : View.isFp v = true) (sat : Bool) (rm : Nat) (x : Src) :
    vredR v .fadd sat rm x.val = joinLanes v (fun a b => ieeeAdd (fmtOf v) rm ((fmtOf v).unpack a) ((fmtOf v).unpack b)) x := by
  have hadd (a b : Nat) : ieeeAdd (fmtOf v) rm ((fmtOf v).unpack a) ((fmtOf v).unpack b) =
      (fmtOf v).addV rm ((fmtOf v).unpack a) ((fmtOf v).unpack b) := ieeeAdd_eq_addV _ rm (unpack_wf _ a) (unpack_wf _ b)
  simp only [hadd]
  cases v with
  | bf | f | g => rfl
  | _ => cases hv

/-- A lane of VFMA on the values of its operands, each with its sign changed where the instruction says so. -/
theorem fmaLane_eq (v : View) (rm : Nat) (np na : Bool) (d a b : Src) (i : Nat) :
    fmaLane (fmtOf v) rm np na (lane (View.lw v) d.val i) (lane (View.lw v) a.val i) (lane (View.lw v) b.val i) =
      ieeeFma (fmtOf v) rm (if na then (fpAt v d i).neg else fpAt v d i) (if np then (fpAt v a i).neg else fpAt v a i) (fpAt v b i) := by
  have hwf (neg : Bool) (x : Src) : (if neg then (fpAt v x i).neg else fpAt v x i).wf := by
    cases neg
    · exact unpack_wf _ _
    · exact neg_wf (unpack_wf _ _)
  exact (ieeeFma_eq_fmaV _ rm (hwf np a) (unpack_wf _ _) (hwf na d)).symm

/-- Two lanes are reduced by one operation. -/
theorem joinLanes_g (f : Nat → Nat → Nat × FFlags) (x : Src) : joinLanes .g f x = f (laneAt 64 x 0) (laneAt 64 x 1) := by
  change ((f (laneAt 64 x 0) (laneAt 64 x 1)).1, 0 ||| 0 ||| (f (laneAt 64 x 0) (laneAt 64 x 1)).2) = _
  simp

theorem computes_vredFadd (v : View) (c : Cond) (d s1 : Opd) (hv : View.isFp v = true) : Computes (.vred v c d s1 .fadd) v (fun e g =>
    let r := joinLanes v (fun x y => ieeeAdd (fmtOf v) e.rm ((fmtOf v).unpack x) ((fmtOf v).unpack y)) g.a
    { plainOut (r.1 % 2 ^ View.lw v) false with flags := { noFlags with fps := r.2 } }) :=
  computes_of (fun _ => rfl) fun e g => by simp only [vredR_fadd v hv, plainOut, outQ]

/-- Settles O9: on the values that lanes hold, each operation of the model is the one that the statement writes out. -/
theorem floatArithmeticResults : Obligations.FloatArithmeticResults := by
  unfold Obligations.FloatArithmeticResults
  intro v c np na d s1 s2 n F flip two one
  have hflip (neg : Bool) (x : FVal) : flip neg x = if neg then x.neg else x := by
    cases neg <;> cases x <;> simp [flip, FVal.neg]
  refine ⟨?_, ?_, ?_, ?_, ?_, ?_, ?_, ?_, ?_, ?_, ?_, ?_, ?_⟩
  · exact computes_fp2 (fun _ => rfl) fun e a b ha hb => (ieeeAdd_eq_addV F e.rm ha hb).symm
  · refine computes_fp2 (f := fun e a b => ieeeAdd F e.rm a (flip true b)) (fun _ => rfl) fun e a b ha hb => ?_
    rw [hflip, if_pos rfl]
    exact (ieeeAdd_eq_addV F e.rm ha (neg_wf hb)).symm
  · exact computes_fp2 (fun _ => rfl) fun e a b ha hb => (ieeeMul_eq_mulV F e.rm ha hb).symm
  · exact computes_of (fun _ => rfl) fun e g => by simp only [fpLanes_eq_floatLanes, fmaLane_eq, hflip]; rfl
  · exact computes_fp2 (fun _ => rfl) fun e a b _ _ => (ieeeDiv_eq_divV F e.rm a b).symm
  · exact computes_fp1 (fun _ => rfl) fun e a => (ieeeSqrt_eq_sqrtV F e.rm a).symm
  · exact computes_fp1 (f := fun e a => ieeeDiv F e.rm (.fin false 1 0) a) (fun _ => rfl) fun e a => (ieeeDiv_eq_divV F e.rm _ a).symm
  · exact computes_fp1 (fun _ => rfl) fun e a => (ieeeRsq_eq_rsqV F e.rm a).symm
  · exact computes_fp1 (fun _ => rfl) fun e a => (ieeeExp2_eq_exp2V F e.rm a).symm
  · exact computes_fp1 (fun _ => rfl) fun e a => (ieeeLog2_eq_log2V F e.rm a).symm
  · exact computes_fp1 (fun _ => rfl) fun e a => (ieeeRnd_eq_rndV F e.rm a).symm
  · exact computes_vredFadd v c d s1
  · have h := computes_vredFadd .g c d s1 rfl
    simp only [joinLanes_g] at h
    exact h

end Sys2Proof.Machine
end

