-- ==== Sys2Proof/Proofs/TileCommands.lean ====
section
/-! SUPPORT. What a tile command leaves in the accumulator, the banks and Y (O46). -/
namespace Sys2Proof.Machine
open Sys2Proof

/-! ## Sparse stores written key by key -/

theorem mget_mclear {α : Type} (d : α) (m : Map α) (lo hi a : Nat) : mget d (mclear m lo hi) a = if lo ≤ a ∧ a < hi then d else mget d m a := by
  induction m with
  | nil => simp [mclear]
  | cons e t ih =>
    obtain ⟨k, v⟩ := e
    by_cases hk : lo ≤ k ∧ k < hi
    · rw [mclear, if_pos hk, ih]
      by_cases ha : lo ≤ a ∧ a < hi
      · rw [if_pos ha, if_pos ha]
      · rw [if_neg ha, if_neg ha, mget, if_neg (by omega)]
    · rw [mclear, if_neg hk, mget, mget, ih]
      split
      · next h => rw [if_neg (by omega)]
      · rfl

/-- A key whose entries all hold one value reads as it. -/
theorem mget_of_mem {α : Type} {d : α} {m : Map α} {a : Nat} {v : α} (hmem : (a, v) ∈ m) (huniq : ∀ w, (a, w) ∈ m → w = v) : mget d m a = v := by
  induction m with
  | nil => cases hmem
  | cons e t ih =>
    obtain ⟨k, w⟩ := e
    rw [mget]
    split
    · next hk => exact huniq w (by simp [hk])
    · next hk =>
      have hne : (a, v) ≠ (k, w) := fun h => hk (Prod.mk.inj h).1.symm
      exact ih ((List.mem_cons.mp hmem).resolve_left hne) fun w hw => huniq w (List.mem_cons_of_mem _ hw)

section Stores
variable {α : Type} [DecidableEq α] (d : α)

/-- Keys written one after the other, each from what it held. -/
def msetAll (key : Nat → Nat) (step : Nat → α → α) (m : Map α) (ns : List Nat) : Map α :=
  ns.foldl (fun m n => mset d m (key n) (step n (mget d m (key n)))) m

theorem mget_msetAll_ne {key : Nat → Nat} {step : Nat → α → α} {m : Map α} {ns : List Nat} {a : Nat} (h : ∀ n ∈ ns, key n ≠ a) :
    mget d (msetAll d key step m ns) a = mget d m a := by
  refine List.foldlRecOn ns _ (motive := fun r => mget d r a = mget d m a) rfl fun r hr n hn => ?_
  rw [mget_mset_ne d r _ (h n hn).symm, hr]

theorem mget_msetAll {key : Nat → Nat} {step : Nat → α → α} {m : Map α} {ns : List Nat} {n : Nat} (hinj : Function.Injective key)
    (hnodup : ns.Nodup) (hn : n ∈ ns) : mget d (msetAll d key step m ns) (key n) = step n (mget d m (key n)) := by
  induction ns generalizing m with
  | nil => cases hn
  | cons x xs ih =>
    obtain ⟨hx, hxs⟩ := List.nodup_cons.mp hnodup
    rw [msetAll, List.foldl_cons, ← msetAll]
    rcases List.mem_cons.mp hn with rfl | hmem
    · rw [mget_msetAll_ne d fun y hy h => ne_of_mem_of_not_mem hy hx (hinj h), mget_mset_same]
    · have hne : key n ≠ key x := fun h => hx (hinj h ▸ hmem)
      rw [ih hxs hmem, mget_mset_ne d m _ hne]

end Stores

/-! ## The count of outstanding commands (R94) -/

theorem fld_setFld_same {w : Nat} (x : BitVec w) {lo n v : Nat} (h : lo + n ≤ w) (hv : v < 2 ^ n) : fld (setFld x lo n v) lo n = v := by
  unfold fld bits
  apply Nat.eq_of_testBit_eq
  intro i
  rw [Nat.testBit_mod_two_pow, Nat.testBit_div_two_pow, BitVec.testBit_toNat]
  by_cases hi : i < n
  · have hw : i + lo < w := by omega
    have hw' : i < w := by omega
    simp [setFld, maskAt, hi, hw, hw', BitVec.getLsbD_ofNat, -BitVec.getLsbD_eq_getElem]
  · simp [hi, Nat.testBit_lt_two_pow (hv.trans_le (Nat.pow_le_pow_right two_pos (not_lt.mp hi)))]

theorem cntOf_cntDec (c : Ctx) {k : Nat} (hk : k < 4) : (c.cntDec k).cntOf k = c.cntOf k - 1 := by
  have hlt : c.cntOf k < 2 ^ 6 := Nat.mod_lt _ (by decide)
  exact fld_setFld_same c.cnt (by omega) (by omega)

/-- A listed command that completes counts down its class. -/
theorem cntOf_cmdDone {c : Ctx} {seq cls : Nat} (bits : BitVec 4) (hcls : cls < 4) (h : ∃ o ∈ c.cmds, o.seq = seq) :
    (c.cmdDone seq bits cls).cntOf cls = c.cntOf cls - 1 := by
  have hhit : c.cmds.any (fun o => o.seq == seq) = true := by simpa using h
  rw [Ctx.cmdDone]
  simp only [hhit, if_true]
  rw [cntOf_cntDec _ hcls]
  rfl

theorem start_keeps_listed {c : Ctx} {seq n : Nat} (h : ∃ o ∈ c.cmds, o.seq = seq) : ∃ o ∈ (c.start n).cmds, o.seq = seq := by
  obtain ⟨o, ho, hseq⟩ := h
  exact ⟨_, List.mem_map_of_mem ho, by split <;> exact hseq⟩

/-! ## A tile command starts, runs and completes -/

section TileQueue
variable (s : State) (k : Nat) (t : TileCmd)

/-- Sector k of a state. -/
abbrev State.sector (s : State) (k : Nat) : Sector := mget emptySector s.sects k

@[simp] theorem modSect_sector (f : Sector → Sector) : (modSect s k f).sector k = f (s.sector k) := mget_mset_same _ _ _ _
@[simp] theorem modSect_hub (f : Sector → Sector) : (modSect s k f).hub = s.hub := rfl
@[simp] theorem tileStart_hub : (tileStart s k t).hub = s.hub := rfl
@[simp] theorem tileStart_cores : (tileStart s k t).cores = s.cores := rfl
@[simp] theorem tileStart_sector : (tileStart s k t).sector k = { s.sector k with tileq := tileOrder s k } := mget_mset_same _ _ _ _
@[simp] theorem tileStart_ctx : (tileStart s k t).ctx t.cid = (s.ctx t.cid).start t.seq := mget_mset_same _ _ _ _

variable (fs : List DefFault) (drn ovf gov pois : Bool)

@[simp] theorem tileDone_hub : (tileDone s k t fs).hub = s.hub := rfl
@[simp] theorem tileDone_sector : (tileDone s k t fs).sector k = { s.sector k with tileq := (s.sector k).tileq.drop 1, latch := [] } :=
  mget_mset_same _ _ _ _
@[simp] theorem tileDone_ctx : (tileDone s k t []).ctx t.cid = (s.ctx t.cid).cmdDone t.seq 4 3 := mget_mset_same _ _ _ _

/-- Of the cores a command that completes changes the counts of commands alone. -/
theorem coreAt_tileDone (c : Nat) : (coreAt (tileDone s k t fs) c).y = (coreAt s c).y ∧ (coreAt (tileDone s k t fs) c).rows = (coreAt s c).rows := by
  have hget : coreAt (tileDone s k t fs) c = _ := putCore_get s (coreOfCid t.cid) c
    { coreAt s (coreOfCid t.cid) with tileOut := (coreAt s (coreOfCid t.cid)).tileOut - 1 }
  rw [hget]
  split
  · next hc => rw [hc]; exact ⟨rfl, rfl⟩
  · exact ⟨rfl, rfl⟩

@[simp] theorem tileRan_hub : (tileRan s k t drn ovf gov pois).hub = s.hub := by
  unfold tileRan
  split <;> rfl

/-- The end of a command's arithmetic leaves the accumulator and the banks. -/
theorem tileRan_sector : ((tileRan s k t drn ovf gov pois).sector k).accum = (s.sector k).accum ∧
    ((tileRan s k t drn ovf gov pois).sector k).bank0 = (s.sector k).bank0 ∧
    ((tileRan s k t drn ovf gov pois).sector k).bank1 = (s.sector k).bank1 := by
  unfold tileRan
  split
  · rw [modSect_sector]; exact ⟨rfl, rfl, rfl⟩
  · rw [tileDone_sector]; exact ⟨rfl, rfl, rfl⟩

end TileQueue

/-! ## TLDB (R278) -/

section Tldb
variable {s : State} {k : Nat} {t : TileCmd} {p0 p1 : Word} {bank : Bool} {af : BitVec 4}

theorem tldbExecute_next (hup : s.hub.up = true) (hready : tileReady s k = some t) (hop : t.op = .tldb p0 p1 bank af) :
    ∃ r, exec (.tldbExecute k) s = .next r ∧
      r.sector k = { s.sector k with
        bank0 := if bank then (s.sector k).bank0 else loadBank (lmuView s k t.cid) (tensOf p0 p1) (slotWidth af.toNat) t.tid
        bank1 := if bank then loadBank (lmuView s k t.cid) (tensOf p0 p1) (slotWidth af.toNat) t.tid else (s.sector k).bank1
        tileq := (tileOrder s k).drop 1, latch := [] } ∧
      r.ctx t.cid = ((s.ctx t.cid).start t.seq).cmdDone t.seq 4 3 := by
  have heff : exec (.tldbExecute k) s = live s (effTldb k s) := rfl
  simp only [effTldb, hready, hop] at heff
  refine ⟨_, heff.trans (live_up hup (by simp)), ?_, ?_⟩
  · rw [tileDone_sector, modSect_sector, tileStart_sector]
    cases bank <;> rfl
  · rw [tileDone_ctx]
    exact congrArg (fun c => c.cmdDone t.seq 4 3) (tileStart_ctx s k t)

/-- An element of the block stands at its place in the bank. -/
theorem mget_loadBank {l : Loc} {a : Tens} {w : Nat} {tid : BitVec 16} {m n : Nat} {x : Int} (hm : m < a.rows) (hn : n < a.cols)
    (hcols : a.cols ≤ 128) (hx : elemAt l a false m n = some x) :
    mget 0 (loadBank l a w tid).elems (m * 128 + n) = BitVec.ofNat 9 (256 + wrapped 8 x) := by
  have hentry (e : Nat × BitVec 9) : e ∈ (loadBank l a w tid).elems ↔ ∃ r < a.rows, ∃ c < a.cols, ∃ q, elemAt l a false r c = some q ∧
      e = (r * 128 + c, BitVec.ofNat 9 (256 + lowBits q 8)) := by
    simp only [loadBank, upto, List.mem_flatMap, List.mem_filterMap, List.mem_range]
    constructor
    · rintro ⟨r, hr, c, hc, he⟩
      split at he
      · next q hq => exact ⟨r, hr, c, hc, q, hq, (Option.some.inj he).symm⟩
      · cases he
    · rintro ⟨r, hr, c, hc, q, hq, rfl⟩
      exact ⟨r, hr, c, hc, by rw [hq]⟩
  refine mget_of_mem ((hentry _).mpr ⟨m, hm, n, hn, x, hx, rfl⟩) fun v hv => ?_
  obtain ⟨r, -, c, hc, q, hq, heq⟩ := (hentry _).mp hv
  obtain ⟨hkey, rfl⟩ := Prod.mk.inj heq
  obtain rfl : m = r := by omega
  obtain rfl : n = c := by omega
  rw [hx] at hq
  rw [Option.some.inj hq, lowBits_eq]

end Tldb

/-! ## Rows of the accumulator (R326) -/

/-- Rows arow, arow + 1, … written one after the other: a word outside them stays, and a word of row m is what the step of that row makes of it. -/
theorem foldl_rows {f : TileRun → Nat → TileRun} {arow : Nat}
    (hother : ∀ st m key, key < (arow + m) * 384 ∨ (arow + m) * 384 + 384 ≤ key → mget 0 (f st m).q.accum key = mget 0 st.q.accum key)
    (st : TileRun) (rows : Nat) :
    (∀ key, key < arow * 384 ∨ (arow + rows) * 384 ≤ key → mget 0 ((upto rows).foldl f st).q.accum key = mget 0 st.q.accum key) ∧
    (∀ m key (g : BitVec 32 → BitVec 32), m < rows → (arow + m) * 384 ≤ key → key < (arow + m) * 384 + 384 →
      (∀ st, mget 0 (f st m).q.accum key = g (mget 0 st.q.accum key)) → mget 0 ((upto rows).foldl f st).q.accum key = g (mget 0 st.q.accum key)) := by
  induction rows with
  | zero => exact ⟨fun _ _ => rfl, fun _ _ _ hm => absurd hm (Nat.not_lt_zero _)⟩
  | succ n ih =>
    obtain ⟨ihout, ihrow⟩ := ih
    have hlast : (upto (n + 1)).foldl f st = f ((upto n).foldl f st) n := by simp [upto, List.range_succ]
    rw [hlast]
    have hbelow {m : Nat} (hm : m < n) : (arow + m) * 384 + 384 ≤ (arow + n) * 384 := by
      rw [← Nat.succ_mul]
      exact Nat.mul_le_mul_right _ (by omega)
    refine ⟨fun key hkey => ?_, fun m key g hm hlo hhi hg => ?_⟩
    · rw [← Nat.add_assoc, Nat.succ_mul] at hkey
      rw [hother _ n key (hkey.imp_left (·.trans_le (Nat.mul_le_mul_right _ (Nat.le_add_right _ _)))),
        ihout key (hkey.imp_right (Nat.le_add_right _ _).trans)]
    · rcases Nat.lt_succ_iff_lt_or_eq.mp hm with hlt | rfl
      · rw [hother _ n key (.inl (hhi.trans_le (hbelow hlt))), ihrow m key g hlt hlo hhi hg]
      · rw [hg, ihout key (.inr hlo)]

/-! ## TMUL (R66-R70, R281) -/

section Tmul
variable {l : Loc} {a : Tens} {b : Bank} {t : TileCmd} {half : Bool} {cb : Nat} {op : AccOp}

/-- A product of a row with a column of the bank, the operands read slot by slot. -/
theorem dotCol_rowIn (m n : Nat) : dotCol (rowIn l a false (256 / b.wA) m).elems a.bp half b n =
    ((List.range (256 / b.wA)).map (fun i =>
      (if i < a.cols then factor half a.bp (elemAt l a false m i) else 0) *
        (if (mget 0 b.elems (i * 128 + n)).getLsbD 8 then factor half b.bp (some (signed 8 (mget 0 b.elems (i * 128 + n)).toNat)) else 0))).sum := by
  have hlen : (rowIn l a false (256 / b.wA) m).elems.length = 256 / b.wA := by simp [rowIn, upto]
  have hslot (i : Nat) (hi : i ∈ List.range (256 / b.wA)) : factor half a.bp ((rowIn l a false (256 / b.wA) m).elems.getD i none) =
      if i < a.cols then factor half a.bp (elemAt l a false m i) else 0 := by
    simp only [rowIn, upto, List.getD_eq_getElem?_getD, List.getElem?_map, List.getElem?_range (List.mem_range.mp hi), Option.map_some, Option.getD_some]
    split <;> rfl
  rw [dotCol, hlen, upto, ← List.foldl_map (g := (· + ·)), ← List.sum_eq_foldl]
  refine congrArg List.sum (List.map_congr_left fun i hi => ?_)
  rw [hslot i hi, sextI_eq 8 _ (by decide), apply_ite (factor half b.bp)]
  rfl

/-- A word after a step: the exact result, wrapped or clamped (R68). -/
theorem accStep_eq (accf : Nat) (op : AccOp) (old : BitVec 32) (y : Int) : (accStep accf op old y).1 =
    let v := match op with | .overwrite => y | .add => old.toInt + y | .sub => old.toInt - y
    BitVec.ofInt 32 (if accf = 1 then heldS 32 v else v) := by
  simp only [accStep, satS_eq]
  split <;> rfl

/-- The columns of a block in its accumulator row. -/
def blockCols (n cb : Nat) : List Nat := (upto n).filter (fun i => decide (cb * n + i < 384))

theorem mem_blockCols {n cb i : Nat} : i ∈ blockCols n cb ↔ i < n ∧ cb * n + i < 384 := by simp [blockCols, upto]

/-- A row of a TMUL writes the words of its columns, each from what it held. -/
theorem tmulRow_accum (st : TileRun) (x : RowIn) (bp : Bool) (row : Nat) : (tmulRow st b t x bp half row cb op).q.accum =
    msetAll 0 (fun n => row * 384 + cb * b.n + n) (fun n old => (accStep (cfACCF t.cfg1) op old (dotCol x.elems bp half b n)).1) st.q.accum
      (blockCols b.n cb) :=
  (List.foldl_hom Prod.fst fun _ _ => rfl).symm

theorem tmulRow_banks (st : TileRun) (x : RowIn) (bp : Bool) (row : Nat) : (tmulRow st b t x bp half row cb op).q.bank0 = st.q.bank0 ∧
    (tmulRow st b t x bp half row cb op).q.bank1 = st.q.bank1 := ⟨rfl, rfl⟩

theorem tmulRow_accum_ne (st : TileRun) (x : RowIn) (bp : Bool) {row key : Nat} (h : key < row * 384 ∨ row * 384 + 384 ≤ key) :
    mget 0 (tmulRow st b t x bp half row cb op).q.accum key = mget 0 st.q.accum key := by
  rw [tmulRow_accum, mget_msetAll_ne]
  intro n hn
  have := (mem_blockCols.mp hn).2
  omega

theorem tmulRow_accum_at (st : TileRun) (x : RowIn) (bp : Bool) (row : Nat) {n : Nat} (hn : n < b.n) (hcol : cb * b.n + n < 384) :
    mget 0 (tmulRow st b t x bp half row cb op).q.accum (row * 384 + cb * b.n + n) =
      (accStep (cfACCF t.cfg1) op (mget 0 st.q.accum (row * 384 + cb * b.n + n)) (dotCol x.elems bp half b n)).1 := by
  rw [tmulRow_accum]
  exact mget_msetAll 0 (fun i j h => Nat.add_left_cancel h) (List.nodup_range.filter _) (mem_blockCols.mpr ⟨hn, hcol⟩)

end Tmul

section TmulExecute
variable {s : State} {k : Nat} {t : TileCmd} {p0 p1 : Word} {bank half drn : Bool} {arow cb : Nat} {op : AccOp}

/-- The rows of a TMUL, run one after the other on a sector. -/
def tmulRows (l : Loc) (a : Tens) (b : Bank) (t : TileCmd) (half : Bool) (arow cb : Nat) (op : AccOp) (q : Sector) : TileRun :=
  (upto a.rows).foldl (fun st m => tmulRow st b t (rowIn l a false (256 / b.wA) m) a.bp half (arow + m) cb op)
    { q := q, ovf := false, gov := false, pois := false }

theorem tmulRows_banks (l : Loc) (a : Tens) (b : Bank) (t : TileCmd) (half : Bool) (arow cb : Nat) (op : AccOp) (q : Sector) :
    (tmulRows l a b t half arow cb op q).q.bank0 = q.bank0 ∧ (tmulRows l a b t half arow cb op q).q.bank1 = q.bank1 :=
  List.foldlRecOn _ _ (motive := fun r : TileRun => r.q.bank0 = q.bank0 ∧ r.q.bank1 = q.bank1) ⟨rfl, rfl⟩ fun _ h _ _ => h

/-- A word of a TMUL's rows and columns takes one step from what it held. -/
theorem tmulRows_accum_at (l : Loc) (a : Tens) (b : Bank) (t : TileCmd) (half : Bool) (arow : Nat) (op : AccOp) (q : Sector) {m n : Nat}
    (hm : m < a.rows) (hn : n < b.n) (hcol : cb * b.n + n < 384) :
    mget 0 (tmulRows l a b t half arow cb op q).q.accum ((arow + m) * 384 + cb * b.n + n) =
      (accStep (cfACCF t.cfg1) op (mget 0 q.accum ((arow + m) * 384 + cb * b.n + n))
        (dotCol (rowIn l a false (256 / b.wA) m).elems a.bp half b n)).1 :=
  (foldl_rows (fun _ _ _ => tmulRow_accum_ne _ _ _) _ _).2 m _
    (fun old => (accStep (cfACCF t.cfg1) op old (dotCol (rowIn l a false (256 / b.wA) m).elems a.bp half b n)).1) hm (by omega) (by omega)
    fun _ => tmulRow_accum_at _ _ _ _ hn hcol

theorem tmulRows_accum_ne (l : Loc) (a : Tens) (b : Bank) (t : TileCmd) (half : Bool) (op : AccOp) (q : Sector) {key : Nat}
    (h : key < arow * 384 ∨ (arow + a.rows) * 384 ≤ key) : mget 0 (tmulRows l a b t half arow cb op q).q.accum key = mget 0 q.accum key :=
  (foldl_rows (fun _ _ _ => tmulRow_accum_ne _ _ _) _ _).1 key h

/-- TMUL_EXECUTE leaves the rows of its command in the sector. -/
theorem tmulExecute_next (hup : s.hub.up = true) (hready : tileReady s k = some t) (hop : t.op = .tmul p0 p1 bank half arow cb drn op)
    (hload : (if bank then (s.sector k).bank1 else (s.sector k).bank0).loaded = true)
    (hw : slotWidth (tensOf p0 p1).fmt = (if bank then (s.sector k).bank1 else (s.sector k).bank0).wA) :
    let run := tmulRows (lmuView s k t.cid) (tensOf p0 p1) (if bank then (s.sector k).bank1 else (s.sector k).bank0) t half arow cb op
      { s.sector k with tileq := tileOrder s k }
    ∃ r, exec (.tmulExecute k) s = .next r ∧ (r.sector k).accum = run.q.accum ∧ (r.sector k).bank0 = (s.sector k).bank0 ∧
      (r.sector k).bank1 = (s.sector k).bank1 := by
  intro run
  have heff : exec (.tmulExecute k) s = live s (effTmul k s) := rfl
  have hbank : (if bank then (tileStart s k t |>.sector k).bank1 else (tileStart s k t |>.sector k).bank0) =
      if bank then (s.sector k).bank1 else (s.sector k).bank0 := by rw [tileStart_sector]
  have hrun : effTmul k s = tileRan (modSect (tileStart s k t) k (fun _ => run.q)) k t drn run.ovf run.gov run.pois := by
    simp only [effTmul, hready, hop]
    rw [hbank, if_neg (by simp [hload, hw])]
    simp only [run, tmulRows, ← tileStart_sector s k t]
  rw [hrun] at heff
  obtain ⟨haccum, hbank0, hbank1⟩ := tileRan_sector (modSect (tileStart s k t) k (fun _ => run.q)) k t drn run.ovf run.gov run.pois
  rw [modSect_sector] at haccum hbank0 hbank1
  obtain ⟨hkeep0, hkeep1⟩ := tmulRows_banks (lmuView s k t.cid) (tensOf p0 p1) (if bank then (s.sector k).bank1 else (s.sector k).bank0) t half arow
    cb op { s.sector k with tileq := tileOrder s k }
  exact ⟨_, heff.trans (live_up hup (by simp)), haccum, hbank0.trans hkeep0, hbank1.trans hkeep1⟩

end TmulExecute


/-! ## Polynomial products (R55-R60) -/

theorem satZ_eq (n : Nat) (x : Int) : satZ x n = heldZ n x := by
  have hpos := Nat.two_pow_pos n
  unfold satZ heldZ
  split
  · omega
  · split <;> omega

theorem polyDigit_eq_convolution (as bs : List Int) (d : Nat) : polyDigit as bs d = convolution as bs d := by
  rw [polyDigit, convolution, upto, List.sum_eq_foldl, List.foldl_map]

section Product
variable (as bs : List Int) (w kk : Nat) (u : Bool)

/-- The digits that a product is formed of. -/
theorem getD_digits {i : Nat} (hi : i ∈ List.range (as.length + bs.length - 1)) :
    ((upto (as.length + bs.length - 1)).map (polyDigit as bs)).getD i 0 = convolution as bs i := by
  simp [upto, List.mem_range.mp hi, polyDigit_eq_convolution]

/-- The carry form is the low bits of the exact number (R60). -/
theorem polyProduct_carry : (polyProduct as bs w kk u .carry).1 = wrapped (carryBits kk (as.length + bs.length - 1) w)
    (((List.range (as.length + bs.length - 1)).map (fun i => convolution as bs i * (2 : Int) ^ (kk * i))).sum) := by
  have hsum : ((List.range (as.length + bs.length - 1)).map (fun i => convolution as bs i * (2 : Int) ^ (kk * i))).sum =
      ((upto (as.length + bs.length - 1)).map (fun i =>
        ((upto (as.length + bs.length - 1)).map (polyDigit as bs)).getD i 0 * ((2 ^ (kk * i) : Nat) : Int))).sum := by
    refine congrArg List.sum (List.map_congr_left fun i hi => ?_)
    rw [getD_digits as bs hi]
    push_cast
    rfl
  rw [hsum, List.sum_eq_foldl, List.foldl_map]
  rfl

/-- Without carry each digit is held at its fence, in a field of its own (R58, R59). -/
theorem polyProduct_fenced {mode : PolyMode} (hmode : mode ≠ .carry) : (polyProduct as bs w kk u mode).1 =
    ((List.range (as.length + bs.length - 1)).map (fun i =>
      wrapped kk (if u then heldZ kk (convolution as bs i) else heldS kk (convolution as bs i)) * 2 ^ (kk * i))).sum := by
  have hdigit : ∀ i ∈ List.range (as.length + bs.length - 1),
      wrapped kk (if u then heldZ kk (convolution as bs i) else heldS kk (convolution as bs i)) * 2 ^ (kk * i) =
        lowBits (fence u kk (((upto (as.length + bs.length - 1)).map (polyDigit as bs)).getD i 0)).1 kk * 2 ^ (kk * i) := by
    intro i hi
    rw [getD_digits as bs hi, fence, satZ_eq, satS_eq, lowBits_eq]
  rw [List.map_congr_left hdigit, List.sum_eq_foldl, List.foldl_map]
  simp only [polyProduct, if_neg hmode]
  exact (List.foldl_hom Prod.fst fun _ _ => rfl).symm

end Product

/-! ## TPOLY (R283) -/

section Tpoly
variable {m : Map (BitVec 32)} {row v n key : Nat}

theorem putRow_eq_msetAll (m : Map (BitVec 32)) (row v : Nat) : putRow m row v =
    msetAll 0 (fun c => row * 384 + c) (fun c _ => BitVec.ofNat 32 (bits v (32 * c) 32)) (mclear m (row * 384) (row * 384 + 384)) (upto 384) := rfl

/-- Word n of a row that holds a number is its bits from 32n up. -/
theorem mget_putRow_at (hn : n < 384) : mget 0 (putRow m row v) (row * 384 + n) = BitVec.ofNat 32 (v / 2 ^ (32 * n)) := by
  rw [putRow_eq_msetAll, upto, mget_msetAll 0 (fun i j h => Nat.add_left_cancel h) List.nodup_range (List.mem_range.mpr hn), bits]
  exact BitVec.eq_of_toNat_eq (by simp)

theorem mget_putRow_ne (h : key < row * 384 ∨ row * 384 + 384 ≤ key) : mget 0 (putRow m row v) key = mget 0 m key := by
  rw [putRow_eq_msetAll, mget_msetAll_ne, mget_mclear, if_neg (by omega)]
  intro c hc
  have := List.mem_range.mp hc
  omega

/-- The slots of an operand row as the factors of a product; slots beyond COLS are zero (log entry 115). -/
theorem factors_rowIn (l : Loc) (a : Tens) (u half bp : Bool) (n r : Nat) : (rowIn l a u n r).elems.map (factor half bp) =
    (List.range n).map (fun i => if i < a.cols then factor half bp (elemAt l a u r i) else 0) := by
  rw [rowIn, upto, List.map_map]
  refine List.map_congr_left fun i _ => ?_
  rw [Function.comp_apply, apply_ite (factor half bp)]
  rfl

/-- The product of row r of a TPOLY. -/
def rowProduct (l : Loc) (a b : Tens) (half : Bool) (kk : Nat) (u : Bool) (mode : PolyMode) (r : Nat) : Nat × Bool :=
  polyProduct ((rowIn l a u (256 / slotWidth a.fmt) r).elems.map (factor half a.bp))
    ((rowIn l b u (256 / slotWidth a.fmt) (if b.rows = 1 then 0 else r)).elems.map (factor half b.bp)) (slotWidth a.fmt) kk u mode

/-- One row of a TPOLY. -/
def tpolyRow (l : Loc) (a b : Tens) (half : Bool) (arow kk : Nat) (u : Bool) (mode : PolyMode) (st : TileRun) (r : Nat) : TileRun :=
  let x := rowIn l a u (256 / slotWidth a.fmt) r
  let y := rowIn l b u (256 / slotWidth a.fmt) (if b.rows = 1 then 0 else r)
  let v := rowProduct l a b half kk u mode r
  { q := { st.q with accum := putRow st.q.accum (arow + r) v.1, gov := mset false st.q.gov (arow + r) v.2
                     rpois := mset false st.q.rpois (arow + r) (x.pois || y.pois) }
    ovf := st.ovf || v.2, gov := st.gov || v.2, pois := st.pois || (x.pois || y.pois) }

/-- The rows of a TPOLY, run one after the other on a sector. -/
def tpolyRows (l : Loc) (a b : Tens) (half : Bool) (arow kk : Nat) (u : Bool) (mode : PolyMode) (q : Sector) : TileRun :=
  (upto a.rows).foldl (tpolyRow l a b half arow kk u mode) { q := q, ovf := false, gov := false, pois := false }

variable (l : Loc) (a b : Tens) (half u : Bool) (arow kk : Nat) (mode : PolyMode) (q : Sector)

theorem tpolyRow_accum (st : TileRun) (r : Nat) : (tpolyRow l a b half arow kk u mode st r).q.accum =
    putRow st.q.accum (arow + r) (rowProduct l a b half kk u mode r).1 := by simp only [tpolyRow]

theorem tpolyRow_accum_ne (st : TileRun) (r : Nat) (h : key < (arow + r) * 384 ∨ (arow + r) * 384 + 384 ≤ key) :
    mget 0 (tpolyRow l a b half arow kk u mode st r).q.accum key = mget 0 st.q.accum key := by
  rw [tpolyRow_accum, mget_putRow_ne h]

theorem tpolyRows_accum_at {r : Nat} (hr : r < a.rows) (hn : n < 384) :
    mget 0 (tpolyRows l a b half arow kk u mode q).q.accum ((arow + r) * 384 + n) =
      BitVec.ofNat 32 ((rowProduct l a b half kk u mode r).1 / 2 ^ (32 * n)) := by
  refine (foldl_rows (fun st r _ => tpolyRow_accum_ne l a b half u arow kk mode st r) _ _).2 r _
    (fun _ => BitVec.ofNat 32 ((rowProduct l a b half kk u mode r).1 / 2 ^ (32 * n))) hr (Nat.le_add_right _ _) (Nat.add_lt_add_left hn _) fun st => ?_
  rw [tpolyRow_accum, mget_putRow_at hn]

theorem tpolyRows_accum_ne (h : key < arow * 384 ∨ (arow + a.rows) * 384 ≤ key) :
    mget 0 (tpolyRows l a b half arow kk u mode q).q.accum key = mget 0 q.accum key :=
  (foldl_rows (fun st r _ => tpolyRow_accum_ne l a b half u arow kk mode st r) _ _).1 key h

end Tpoly

section TpolyExecute
variable {s : State} {k : Nat} {t : TileCmd} {p0 p1 b0 b1 : Word} {half drn u : Bool} {arow kk : Nat} {mode : PolyMode}

/-- TPOLY_EXECUTE leaves the rows of its command in the sector. -/
theorem tpolyExecute_next (hup : s.hub.up = true) (hready : tileReady s k = some t) (hop : t.op = .tpoly p0 p1 b0 b1 half arow drn kk u mode) :
    ∃ r, exec (.tpolyExecute k) s = .next r ∧ (r.sector k).accum =
      (tpolyRows (lmuView s k t.cid) (tensOf p0 p1) (tensOf b0 b1) half arow kk u mode { s.sector k with tileq := tileOrder s k }).q.accum := by
  have heff : exec (.tpolyExecute k) s = live s (effTpoly k s) := rfl
  generalize hrun : tpolyRows (lmuView s k t.cid) (tensOf p0 p1) (tensOf b0 b1) half arow kk u mode
    { s.sector k with tileq := tileOrder s k } = run
  have hran : effTpoly k s = tileRan (modSect (tileStart s k t) k (fun _ => run.q)) k t drn run.ovf run.gov run.pois := by
    simp only [effTpoly, hready, hop]
    rw [← hrun, ← tileStart_sector s k t]
    rfl
  rw [hran] at heff
  refine ⟨_, heff.trans (live_up hup (by simp)), ?_⟩
  rw [(tileRan_sector _ _ _ _ _ _ _).1, modSect_sector]

end TpolyExecute

/-! ## Drains (R284-R286) -/

/-- The sector of the context, and every other, after a writing back. -/
theorem putLoc_sector (s : State) (l : Loc) (k : Nat) :
    (s.putLoc l).sector k = if k = sectOfCore (coreOfCid l.cid) then l.sect else s.sector k := by
  rw [State.sector, putLoc_keeps (fun s => mget emptySector s.sects k) (fun _ _ _ => rfl) s l]
  exact mget_mset _ _ _ _ _

/-- A core with some bytes written to its Y, and with other poison marks. -/
def Core.writeY (c : Core) (off : Nat) (bs : List Byte) (pois : Map Bool) : Core := { c with y := putBytes c.y off bs, pois := pois }

section EngBuf
variable (s : State) (core off : Nat) (bs : List (Byte × Bool))

/-- An engine's write to Y of a core goes through a view of the core that differs in Y and the poison marks alone. -/
theorem engBuf_y_eq : ∃ pois, engBuf s core 3 off bs =
    s.putLoc { s.loc (core * 8) with core := (coreAt s core).writeY off (bs.map (·.1)) pois } := by
  have hcore : (s.loc (core * 8)).core = coreAt s core := congrArg (mget emptyCore s.cores) (Nat.mul_div_cancel core (by decide))
  have hmarks : ∃ pois, (wordsOf off bs.length).foldl (fun l w =>
      let mine := (upto bs.length).filter (fun i => (off + i) / 16 == w)
      if mine.any (fun i => (bs.getD i (0, false)).2) then l.setWordPois 3 w true
      else if mine.length = 16 then l.setWordPois 3 w false else l)
        ((s.loc (core * 8)).setBuf 3 (putBytes ((s.loc (core * 8)).buf 3) off (bs.map (·.1)))) =
      { s.loc (core * 8) with core := (coreAt s core).writeY off (bs.map (·.1)) pois } := by
    refine List.foldlRecOn _ _
      (motive := fun l : Loc => ∃ pois, l = { s.loc (core * 8) with core := (coreAt s core).writeY off (bs.map (·.1)) pois })
      ⟨(coreAt s core).pois, ?_⟩ ?_
    · rw [← hcore]
      rfl
    · rintro l ⟨pois, rfl⟩ w -
      dsimp only
      split
      · exact ⟨_, rfl⟩
      · split <;> exact ⟨_, rfl⟩
  obtain ⟨pois, hmarks⟩ := hmarks
  refine ⟨pois, ?_⟩
  rw [← hmarks]
  rfl

@[simp] theorem engBuf_y_hub : (engBuf s core 3 off bs).hub = s.hub := by
  obtain ⟨pois, h⟩ := engBuf_y_eq s core off bs
  rw [h, putLoc_hub]
  rfl

@[simp] theorem engBuf_y_sector (k : Nat) : (engBuf s core 3 off bs).sector k = s.sector k := by
  obtain ⟨pois, h⟩ := engBuf_y_eq s core off bs
  rw [h, putLoc_sector]
  split
  · next hk => rw [hk]; rfl
  · rfl

theorem engBuf_y_core : (coreAt (engBuf s core 3 off bs) core).y = putBytes (coreAt s core).y off (bs.map (·.1)) ∧
    (coreAt (engBuf s core 3 off bs) core).rows = (coreAt s core).rows := by
  obtain ⟨pois, h⟩ := engBuf_y_eq s core off bs
  have hcore : coreAt (engBuf s core 3 off bs) core = (coreAt s core).writeY off (bs.map (·.1)) pois := by
    rw [h, coreAt, putLoc_core]
    exact if_pos (Nat.mul_div_cancel core (by decide)).symm
  rw [hcore]
  exact ⟨rfl, rfl⟩

end EngBuf

section Drain
variable (s : State) (k : Nat) (t : TileCmd) (r nrow frow : Nat) (clr : Bool)

/-- A drain has written accumulator row r to Y of its core. -/
def rowWritten (s : State) (k : Nat) (t : TileCmd) (r : Nat) : State :=
  engBuf (tileStart s k t) (rowCore t.cfg1 (coreOfCid t.cid) r) 3 (rowY t.cfg0 t.cfg1 r)
    ((rowBytesOf (s.sector k) r (cfMCOL t.cfg1)).map (fun b => (b, mget false (s.sector k).rpois r)))

/-- The slot that the row occupies until its token is consumed (R286). -/
def rowSlot (s : State) (k : Nat) (t : TileCmd) (r : Nat) : RowSlot :=
  { off := rowY t.cfg0 t.cfg1 r, len := cfRS t.cfg1, core := coreOfCid t.cid, gen := t.gen, id := (rowWritten s k t r).tick }

/-- The token of the row as it sets out (R285). -/
def rowFlight (s : State) (k : Nat) (t : TileCmd) (r : Nat) : Flight :=
  let tok := bareToken (drainPayload t.tid (rowY t.cfg0 t.cfg1 r) r (mget false (s.sector k).rpois r) (mget false (s.sector k).gov r))
    (mkTag t.cid (cfECH t.cfg1) 22)
  { tok := { tok with pasid := (ctxOf s t.cid).pasid, row := some (rowSlot s k t r).id }, kind := .drain, src := 16384 + k
    dest := .chan (rowCore t.cfg1 (coreOfCid t.cid) r) (BitVec.ofNat 5 (cfECH t.cfg1)), second := none, esc := none }

/-- The command with one row more drained. -/
def rowCounted (s : State) (k : Nat) (t : TileCmd) (r : Nat) : TileCmd :=
  { t with drainAt := t.drainAt + 1, pois := t.pois || mget false (s.sector k).rpois r, gov := t.gov || mget false (s.sector k).gov r }

/-- A drain has written row r and sent its token. -/
def rowSent (s : State) (k : Nat) (t : TileCmd) (r : Nat) (clr : Bool) : State :=
  let s1 := rowWritten s k t r
  let core := rowCore t.cfg1 (coreOfCid t.cid) r
  let s2 := setRows { s1 with tick := s1.tick + 1 } core ((coreAt s1 core).rows ++ [rowSlot s k t r])
  modSect { s2 with hub := { s2.hub with flight := s2.hub.flight ++ [rowFlight s k t r] } } k (fun q =>
    { q with tileq := rowCounted s k t r :: q.tileq.drop 1, accum := (if clr then mclear q.accum (r * 384) (r * 384 + 384) else q.accum)
             gov := (if clr then mset false q.gov r false else q.gov), rpois := (if clr then mset false q.rpois r false else q.rpois) })

theorem rowSent_hub : (rowSent s k t r clr).hub = { s.hub with flight := s.hub.flight ++ [rowFlight s k t r] } := by
  have hhub : (rowWritten s k t r).hub = s.hub := engBuf_y_hub _ _ _ _
  simp only [rowSent, modSect_hub, setRows, putCore_hub, hhub]

theorem rowSent_accum : ((rowSent s k t r clr).sector k).accum =
    if clr then mclear (s.sector k).accum (r * 384) (r * 384 + 384) else (s.sector k).accum := by
  have hsect : (rowWritten s k t r).sector k = { s.sector k with tileq := tileOrder s k } :=
    (engBuf_y_sector _ _ _ _ _).trans (tileStart_sector s k t)
  rw [rowSent, modSect_sector]
  change (if clr then mclear ((rowWritten s k t r).sector k).accum (r * 384) (r * 384 + 384) else ((rowWritten s k t r).sector k).accum) = _
  rw [hsect]

theorem rowSent_core : let core := rowCore t.cfg1 (coreOfCid t.cid) r
    (coreAt (rowSent s k t r clr) core).y = putBytes (coreAt s core).y (rowY t.cfg0 t.cfg1 r) (rowBytesOf (s.sector k) r (cfMCOL t.cfg1)) ∧
      (coreAt (rowSent s k t r clr) core).rows = (coreAt s core).rows ++ [rowSlot s k t r] := by
  intro core
  have hbytes (p : Bool) (bs : List Byte) : (bs.map (fun b => (b, p))).map (·.1) = bs := by
    rw [List.map_map]
    exact List.map_id bs
  obtain ⟨hy, hrows⟩ := engBuf_y_core (tileStart s k t) core (rowY t.cfg0 t.cfg1 r)
    ((rowBytesOf (s.sector k) r (cfMCOL t.cfg1)).map (fun b => (b, mget false (s.sector k).rpois r)))
  rw [hbytes] at hy
  have hget : coreAt (rowSent s k t r clr) core = _ := putCore_get _ core core _
  rw [if_pos rfl] at hget
  rw [hget]
  exact ⟨hy, congrArg (· ++ [rowSlot s k t r]) hrows⟩

/-- A drain that finds its core in service and its slot free writes and sends the row; behind the last one its command completes. -/
theorem drainNext_eq (hserv : inService s.hub (rowCore t.cfg1 (coreOfCid t.cid) (frow + t.drainAt)) = true)
    (hfree : ∀ x ∈ (coreAt s (rowCore t.cfg1 (coreOfCid t.cid) (frow + t.drainAt))).rows,
      ¬ (x.off < rowY t.cfg0 t.cfg1 (frow + t.drainAt) + cfRS t.cfg1 ∧ rowY t.cfg0 t.cfg1 (frow + t.drainAt) < x.off + x.len)) :
    drainNext s k t frow nrow clr =
      if (rowCounted s k t (frow + t.drainAt)).drainAt ≥ nrow then
        tileDone (rowSent s k t (frow + t.drainAt) clr) k (rowCounted s k t (frow + t.drainAt))
          (govFault (rowCounted s k t (frow + t.drainAt))).toList
      else rowSent s k t (frow + t.drainAt) clr := by
  simp only [drainNext, hserv]
  rw [if_neg (by simp), if_neg (by simpa using hfree)]
  rfl

variable {s k t nrow frow clr} {rest : List TileCmd}

/-- DRAIN_ROW writes the next row of the command in front, sends its token, takes its slot, and under CLR clears it. -/
theorem drainRow_next (hup : s.hub.up = true) (horder : tileOrder s k = t :: rest) (hheld : drainHeld s k = false)
    (hdrain : drainOf t = some (frow, nrow, clr)) (hfence : fenceOk (s.ctx t.cid) t.seq 4 = true)
    (hserv : inService s.hub (rowCore t.cfg1 (coreOfCid t.cid) (frow + t.drainAt)) = true)
    (hfree : ∀ x ∈ (coreAt s (rowCore t.cfg1 (coreOfCid t.cid) (frow + t.drainAt))).rows,
      ¬ (x.off < rowY t.cfg0 t.cfg1 (frow + t.drainAt) + cfRS t.cfg1 ∧ rowY t.cfg0 t.cfg1 (frow + t.drainAt) < x.off + x.len)) :
    let row := frow + t.drainAt
    let core := rowCore t.cfg1 (coreOfCid t.cid) row
    ∃ u, exec (.drainRow k) s = .next u ∧ u.hub.flight = s.hub.flight ++ [rowFlight s k t row] ∧
      (u.sector k).accum = (if clr then mclear (s.sector k).accum (row * 384) (row * 384 + 384) else (s.sector k).accum) ∧
      (coreAt u core).y = putBytes (coreAt s core).y (rowY t.cfg0 t.cfg1 row) (rowBytesOf (s.sector k) row (cfMCOL t.cfg1)) ∧
      (coreAt u core).rows = (coreAt s core).rows ++ [rowSlot s k t row] := by
  intro row core
  have hstart : tileHeld s t = false := congrArg not hfence
  have heff : exec (.drainRow k) s = live s (drainNext s k t frow nrow clr) := by
    change live s (effDrainRow k s) = _
    simp only [effDrainRow, horder, hdrain, hstart, hheld]
    rfl
  have hhub := rowSent_hub s k t row clr
  have haccum := rowSent_accum s k t row clr
  obtain ⟨hy, hrows⟩ := rowSent_core s k t row clr
  rw [drainNext_eq s k t nrow frow clr hserv hfree] at heff
  split at heff
  · obtain ⟨hydone, hrowsdone⟩ := coreAt_tileDone (rowSent s k t row clr) k (rowCounted s k t row) (govFault (rowCounted s k t row)).toList core
    refine ⟨_, heff.trans (live_up hup ?_), ?_, ?_, hydone.trans hy, hrowsdone.trans hrows⟩
    · rw [tileDone_hub, hhub]
    · rw [tileDone_hub, hhub]
    · rw [tileDone_sector]
      exact haccum
  · exact ⟨_, heff.trans (live_up hup (by rw [hhub])), by rw [hhub], haccum, hy, hrows⟩

end Drain

/-- Settles O46: the words that a command writes, read back from the state that its event leaves. The banks and rows are read word by word, a row
of TMUL and TPOLY by `foldl_rows`, a drain by what it writes to Y, to its token and to its slot. -/
theorem tileCommandsCompute : Obligations.TileCommandsCompute := by
  unfold Obligations.TileCommandsCompute
  intro s k t p0 p1 b0 b1 bank half drn u clr af arow cb kk frow nrow acc mode as bs w rest a q l own term sect
  have hterm (bp : Bool) (x : Option Int) : term bp x = factor half bp x := by cases x <;> rfl
  refine ⟨?_, ?_, ?_, ?_, ?_, ?_⟩
  · intro hup hready hop
    obtain ⟨r, hr, hsect, hctx⟩ := tldbExecute_next hup hready hop
    refine ⟨r, hr, ?_⟩
    change (if bank then (r.sector k).bank1 else (r.sector k).bank0) = _ ∧
      (if bank then (r.sector k).bank0 = q.bank0 else (r.sector k).bank1 = q.bank1) ∧ (r.sector k).tileq = _ ∧ (r.sector k).accum = _ ∧ _
    rw [hsect]
    refine ⟨by cases bank <;> rfl, by cases bank <;> rfl, rfl, rfl, fun hlisted => ?_⟩
    rw [hctx, cntOf_cmdDone 4 (by decide) (start_keeps_listed hlisted)]
    rfl
  · intro m n x hm hn hcols hx
    exact mget_loadBank hm hn hcols hx
  · intro hup hready hop hload hw
    obtain ⟨r, hr, haccum, hbank0, hbank1⟩ := tmulExecute_next hup hready hop hload hw
    refine ⟨r, hr, fun m n hm hn hcol => ?_, fun key hkey => ?_, hbank0, hbank1⟩
    · have hword := tmulRows_accum_at l a own t half arow acc { s.sector k with tileq := tileOrder s k } hm hn hcol
      rw [accStep_eq, dotCol_rowIn] at hword
      simp only [hterm]
      exact (congrArg (mget 0 · _) haccum).trans hword
    · exact (congrArg (mget 0 · key) haccum).trans (tmulRows_accum_ne l a own t half acc _ hkey)
  · intro hup hready hop
    obtain ⟨r, hr, haccum⟩ := tpolyExecute_next hup hready hop
    refine ⟨r, hr, fun m n hm hn => ?_, fun key hkey => ?_⟩
    · have hword := tpolyRows_accum_at l a (tensOf b0 b1) half u arow kk mode { s.sector k with tileq := tileOrder s k } hm hn
      rw [rowProduct, factors_rowIn, factors_rowIn] at hword
      simp only [hterm]
      exact (congrArg (mget 0 · _) haccum).trans hword
    · exact (congrArg (mget 0 · key) haccum).trans (tpolyRows_accum_ne l a (tensOf b0 b1) half u arow kk mode _ hkey)
  · exact ⟨polyProduct_carry as bs w kk u, polyProduct_fenced as bs w kk u⟩
  · intro row core y hup horder hheld hdrain hfence hserv hfree
    obtain ⟨r, hr, hflight, haccum, hy, hrows⟩ := drainRow_next hup horder hheld hdrain hfence hserv hfree
    refine ⟨r, rowFlight s k t row, hr, hflight, rfl, rfl, rfl, fun x => ?_, fun i hi => ?_, rowSlot s k t row, ?_, rfl, rfl, rfl⟩
    · exact (congrArg (mget 0 · x) hy).trans (mget_putBytes _ _ x _)
    · refine (congrArg (mget 0 · _) haccum).trans ?_
      cases clr
      · rfl
      · exact (mget_mclear _ _ _ _ _).trans (if_pos ⟨Nat.le_add_right _ _, Nat.add_lt_add_left hi _⟩)
    · exact hrows ▸ List.mem_append_right _ (List.mem_singleton.mpr rfl)

end Sys2Proof.Machine
end

