-- ==== Sys2Proof/Proofs/SpecWords.lean ====
section
/-! SUPPORT. Words that the spec works out decode to their instructions (O47). -/
namespace Sys2Proof.Machine
open Sys2Proof
/-- Settles O47: both sides are closed, so the decoder runs on each word. -/
theorem decodesWordsOfTheSpec : Obligations.DecodesWordsOfTheSpec := by
  unfold Obligations.DecodesWordsOfTheSpec
  decide +kernel
end Sys2Proof.Machine
end

