-- ==== Sys2Proof/Proofs/Operands.lean ====
section
/-! SUPPORT. Pointers, their faults, and what each kind of operand reads as (O16, O17). -/
namespace Sys2Proof.Machine
open Sys2Proof


/-! ## Pointers (R78, R80) -/

/-- The space code of a pointer is its upper four bits. -/
theorem spaceOf_eq (p : Word) : spaceOf p = (p.extractLsb' 60 4).toNat := by
  simp [spaceOf, fld, bits, Nat.shiftRight_eq_div_pow]

/-- The address of a pointer is its low 60 bits. -/
theorem addrOf_eq (p : Word) : addrOf p = p.toNat % 2 ^ 60 := by
  simp [addrOf, fld, bits]

/-- The mask of the space code holds ones in the upper four bits. -/
theorem regPtr_bits : ∀ i : Fin 64, regPtr[i.val] = decide (60 ≤ i.val) := by decide

theorem getElem_regPtr (i : Nat) (hi : i < 64) : regPtr[i] = decide (60 ≤ i) := regPtr_bits ⟨i, hi⟩

/-- Address arithmetic keeps the space code (R78). -/
theorem spaceOf_ptrAdd (p k : Word) : spaceOf (ptrAdd p k) = spaceOf p := by
  rw [spaceOf_eq, spaceOf_eq]
  congr 1
  ext i hi
  simp [ptrAdd, getElem_regPtr, show 60 + i < 64 by omega]

theorem addrOf_ptrAdd (p k : Word) : addrOf (ptrAdd p k) = (p + k).toNat % 2 ^ 60 := by
  have h (x : Word) : x.toNat % 2 ^ 60 = (x.setWidth 60).toNat := (BitVec.toNat_setWidth ..).symm
  rw [addrOf_eq, h, h]
  congr 1
  ext i hi
  simp [ptrAdd, getElem_regPtr, show i < 64 by omega, Nat.not_le.mpr hi]

/-- An address moves by an integer modulo 2^60 (R78). -/
theorem addrOf_ptrAdd_ofInt (p : Word) (x : Int) : (addrOf (ptrAdd p (BitVec.ofInt 64 x)) : Int) = ((addrOf p : Int) + x) % (2 ^ 60 : Nat) := by
  rw [addrOf_ptrAdd, addrOf_eq, BitVec.toNat_add, BitVec.toNat_ofInt]
  have := Int.emod_nonneg x (b := ((2 ^ 64 : Nat) : Int)) (by decide)
  push_cast
  omega

theorem ea_mem (l : Loc) (p : Reg) (off : BitVec 14) (n : Nat) :
    l.ea (.mem p off) n = ptrAdd (l.p p) (BitVec.ofInt 64 (off.toInt * n)) := by
  rw [BitVec.ofInt_mul, BitVec.ofInt_natCast]
  rfl

theorem ea_pre (l : Loc) (p : Reg) (off : BitVec 14) (n : Nat) :
    l.ea (.pre p off) n = ptrAdd (l.p p) (BitVec.ofInt 64 (-(off.toNat * n))) := by
  rw [BitVec.ofInt_neg, BitVec.ofInt_mul, BitVec.ofInt_natCast, BitVec.ofInt_natCast, BitVec.ofNat_toNat]
  rfl

/-- A buffer pointer that lies in bounds passes the checks (R81). -/
theorem checkPtr_ok {l : Loc} {ptr : Word} {n align : Nat} {k : Acc} (halign : addrOf ptr % align = 0)
    (hspace : spaceOf ptr = 0 ∨ spaceOf ptr ≤ 4 ∧ addrOf ptr + n ≤ bufSize (spaceOf ptr)) : checkPtr l ptr n align k = .ok () := by
  unfold checkPtr
  rw [if_neg (not_not_intro halign)]
  split
  · rfl
  · next h => exact if_pos (hspace.resolve_left h)

/-- A pointer that is misaligned, or outside every buffer, is fault 0x06 (R81). -/
theorem checkPtr_fault {l : Loc} {ptr : Word} {n align : Nat} {k : Acc}
    (h : addrOf ptr % align ≠ 0 ∨ spaceOf ptr ≠ 0 ∧ ¬ (spaceOf ptr ≤ 4 ∧ addrOf ptr + n ≤ bufSize (spaceOf ptr))) :
    checkPtr l ptr n align k = flt06 l ptr k := by
  unfold checkPtr
  by_cases halign : addrOf ptr % align = 0
  · obtain ⟨hg, hbounds⟩ := h.resolve_left (not_not_intro halign)
    rw [if_neg (not_not_intro halign), if_neg hg, if_neg hbounds]
  · rw [if_pos halign]

/-- A read of a buffer gives its bytes at once (R146). -/
theorem readPtr_buffer {l : Loc} {ptr : Word} {n align : Nat} {home : Bool} {acq : Option Scope} (hcheck : checkPtr l ptr n align .read = .ok ())
    (hg : spaceOf ptr ≠ 0) : readPtr l ptr n align home acq =
      .ok { val := quadOf (bytesAt (l.buf (spaceOf ptr)) (addrOf ptr) n), pois := l.bufPois (spaceOf ptr) (addrOf ptr) n } := by
  simp only [readPtr, hcheck, hg, bind, Except.bind, if_false]

/-- A buffer is ready for a write that passes the checks. -/
theorem readyPtr_buffer {l : Loc} {ptr : Word} {n align : Nat} (hcheck : checkPtr l ptr n align .write = .ok ())
    (hg : spaceOf ptr ≠ 0) : readyPtr l ptr n align = .ok (.buf (spaceOf ptr) (addrOf ptr)) := by
  simp only [readyPtr, hcheck, hg, bind, Except.bind, if_false]

theorem readPtr_fault {l : Loc} {ptr : Word} {n align : Nat} {home : Bool} {acq : Option Scope}
    (h : checkPtr l ptr n align .read = flt06 l ptr .read) : readPtr l ptr n align home acq = flt06 l ptr .read := by
  simp only [readPtr, h]
  rfl

theorem readyPtr_fault {l : Loc} {ptr : Word} {n align : Nat}
    (h : checkPtr l ptr n align .write = flt06 l ptr .write) : readyPtr l ptr n align = flt06 l ptr .write := by
  simp only [readyPtr, h]
  rfl

/-- Settles O17: the two checks of R81, which stand before the translation of a read and of a write. -/
theorem pointerFaults : Obligations.PointerFaults := by
  unfold Obligations.PointerFaults
  intro l ptr n home acq bad
  have hbad (k : Acc) (h : bad) : checkPtr l ptr n (min n 16) k = flt06 l ptr k :=
    checkPtr_fault (h.imp_right fun h => by omega)
  refine ⟨fun h => readPtr_fault (hbad .read h), fun h => readyPtr_fault (hbad .write h), fun hgood hg => ?_⟩
  have hgood : ¬ (addrOf ptr % min n 16 ≠ 0 ∨ 5 ≤ spaceOf ptr ∨ (1 ≤ spaceOf ptr ∧ bufSize (spaceOf ptr) < addrOf ptr + n)) := hgood
  have hok (k : Acc) : checkPtr l ptr n (min n 16) k = .ok () := checkPtr_ok (by omega) (.inr (by omega))
  exact ⟨readyPtr_buffer (hok .write) hg, _, readPtr_buffer (hok .read) hg⟩

/-! ## Values of operands (R85, R144) -/

/-- The low bits of a number. -/
theorem lowBits_natCast (x n : Nat) : lowBits x n = x % 2 ^ n := by
  rw [lowBits, ← Int.natCast_mod, Int.toNat_natCast]

/-- The lanes of a value given as natural numbers below the lane width. -/
theorem ofLanes_eq_lanesOut {w : Nat} {f : Nat → Nat} {x : Nat → Int} (h : ∀ i, f i % 2 ^ w = wrapped w (x i)) : ofLanes w f = (lanesOut w x).r := by
  simp only [ofLanes, upto, lanesOut, h, List.sum_eq_foldl, List.foldl_map]

theorem splat_eq_ofLanes (w x : Nat) : splat w x = ofLanes w (fun _ => x) := rfl

/-- An integer in a lane of an integer view. -/
theorem laneOfInt_mod {v : View} (hv : View.isFp v = false) (rm : Nat) (x : Int) : laneOfInt v rm x % 2 ^ View.lw v = wrapped (View.lw v) x := by
  rw [laneOfInt, hv, lowBits_eq]
  exact Nat.mod_eq_of_lt (wrapped_lt _ _)

/-- The value of a memory operand is what a read at its address gives. -/
theorem fetch_mem (l : Loc) (v : View) (rm n : Nat) (p : Reg) (off : BitVec 14) :
    fetch l v rm (.mem p off) (.scalar n) = (do
      let d ← readPtr l (l.ea (.mem p off) n) n (natAlign n) false none
      .ok (l.based (.mem p off) { val := d.val, pois := d.pois, ptr := l.poisPtr (l.ea (.mem p off) n) n })) := rfl

/-- A memory operand in a buffer reads as the bytes at its address, with the poison of its pointer register (R149). -/
theorem fetch_mem_buffer {l : Loc} {v : View} {rm n : Nat} {p : Reg} {off : BitVec 14} (hn : n ≤ 16) (h : inBuffer (l.ea (.mem p off) n) n n) :
    ∃ q, fetch l v rm (.mem p off) (.scalar n) = .ok q ∧
      q.val = quadOf (bytesAt (l.buf (spaceOf (l.ea (.mem p off) n))) (addrOf (l.ea (.mem p off) n)) n) ∧
      q.pois = (l.pPois p || l.bufPois (spaceOf (l.ea (.mem p off) n)) (addrOf (l.ea (.mem p off) n)) n) := by
  obtain ⟨hlo, hhi, halign, hend⟩ := h
  have hread := readPtr_buffer (l := l) (align := natAlign n) (home := false) (acq := none)
    (checkPtr_ok (n := n) (by rw [natAlign, Nat.min_eq_left hn]; exact halign) (.inr ⟨hhi, hend⟩)) (by omega)
  refine ⟨_, (fetch_mem l v rm n p off).trans (by rw [hread]; rfl), ?_, ?_⟩ <;> cases hp : l.pPois p <;> simp [Loc.based, Loc.basePois, hp]

/-- Settles O16: one clause per kind of descriptor, and the effective addresses as integers modulo 2^60. -/
theorem operandValues : Obligations.OperandValues := by
  unfold Obligations.OperandValues
  intro l v rm n p off ea val hn
  have hn16 : n ≤ 16 := by simp at hn; omega
  refine ⟨⟨_, rfl, ?_, rfl⟩, ⟨_, rfl, ?_, rfl⟩, ⟨_, rfl, rfl, rfl⟩, ⟨_, rfl, rfl, rfl⟩, ⟨_, rfl, rfl, rfl⟩, ⟨_, rfl, rfl, rfl⟩, ⟨_, rfl, ?_, rfl⟩,
    fun hv => ⟨_, rfl, ?_, rfl⟩, fun hv => ⟨_, rfl, ?_, rfl⟩, ⟨_, rfl, rfl, rfl⟩, spaceOf_ptrAdd _ _, ?_, rfl, ?_, fun h => fetch_mem_buffer hn16 h⟩
  · rw [← lowBits_natCast]
  · rw [← lowBits_natCast]
  · exact (BitVec.ofNat_toNat 128 _).symm ▸ (BitVec.setWidth_eq _).symm
  · rw [BitVec.ofNat_toNat, BitVec.setWidth_eq]
    exact (splat_eq_ofLanes _ _).trans (ofLanes_eq_lanesOut fun _ => laneOfInt_mod hv rm _)
  · rw [BitVec.ofNat_toNat, BitVec.setWidth_eq]
    exact ofLanes_eq_lanesOut fun _ => laneOfInt_mod hv rm _
  · exact (congrArg (fun q => (addrOf q : Int)) (ea_mem l p off n)).trans (addrOf_ptrAdd_ofInt _ _)
  · rw [ea_pre, addrOf_ptrAdd_ofInt, Int.sub_eq_add_neg]

end Sys2Proof.Machine
end

