-- ==== Sys2Proof/Proofs/Destinations.lean ====
section
/-! SUPPORT. What a result leaves in A, a P register or a buffer, and what a write marks in the context (O18). -/
namespace Sys2Proof.Machine
open Sys2Proof

/-! ## What a write and the consumption of poison mark in a context (R149, R150, R249, R302) -/

/-- What a fold of steps keeps when each keeps it. -/
theorem foldl_keeps {α β γ : Type} (f : α → γ) {g : α → β → α} (h : ∀ a b, f (g a b) = f a) (bs : List β) (a : α) : f (bs.foldl g a) = f a := by
  induction bs generalizing a with
  | nil => rfl
  | cons b bs ih => rw [List.foldl_cons, ih, h]

/-- A context without the marks of consumed poison, the journal and the stores that wait. -/
def Ctx.unmarked (c : Ctx) : Ctx := { c with cir := 0, cira := 0, journal := [], stq := [], sig := 0, cnt := 0 }

/-- A view without what a write to a buffer or to G changes, and without the marks of its context. -/
def Loc.beside (l : Loc) : Loc := { l with ctx := l.ctx.unmarked, core := emptyCore, clus := emptyCluster, wakes := [] }

section Beside
variable {l m : Loc} (h : l.beside = m.beside)
include h

theorem beside_unmarked : l.ctx.unmarked = m.ctx.unmarked := (congrArg Loc.ctx h :)
theorem beside_p : l.ctx.p = m.ctx.p := (congrArg Ctx.p (beside_unmarked h) :)
theorem beside_a : l.ctx.a = m.ctx.a := (congrArg Ctx.a (beside_unmarked h) :)
theorem beside_stat : l.ctx.stat = m.ctx.stat := (congrArg Ctx.stat (beside_unmarked h) :)

end Beside

theorem journalWord_beside (l : Loc) (sp w : Nat) : (l.journalWord sp w).beside = l.beside := by
  unfold Loc.journalWord
  dsimp only
  split
  · rfl
  · split <;> rfl

theorem journalWord_buf (l : Loc) (sp w k : Nat) : (l.journalWord sp w).buf k = l.buf k := by
  unfold Loc.journalWord
  dsimp only
  split
  · rfl
  · split <;> rfl

theorem setWordPois_beside (l : Loc) (sp w : Nat) (b : Bool) : (l.setWordPois sp w b).beside = l.beside := by
  unfold Loc.setWordPois
  split <;> rfl

theorem setWordPois_buf (l : Loc) (sp w k : Nat) (b : Bool) : (l.setWordPois sp w b).buf k = l.buf k := by
  unfold Loc.setWordPois
  split <;> rfl

theorem writePois_keeps {γ : Type} (f : Loc → γ) (hf : ∀ l sp w b, f (Loc.setWordPois l sp w b) = f l) (l : Loc) (sp off n : Nat) (b : Bool) :
    f (l.writePois sp off n b) = f l := by
  refine foldl_keeps f (fun l w => ?_) _ _
  split
  · exact hf ..
  · split
    · exact hf ..
    · rfl

theorem setBuf_beside (l : Loc) (sp : Nat) (m : Map Byte) : (l.setBuf sp m).beside = l.beside := by
  unfold Loc.setBuf
  split_ifs <;> rfl

/-- The four buffers after one of them is replaced. -/
theorem setBuf_buf (l : Loc) {sp k : Nat} (m : Map Byte) (hsp : sp ∈ [1, 2, 3, 4]) (hk : k ∈ [1, 2, 3, 4]) :
    (l.setBuf sp m).buf k = if k = sp then m else l.buf k := by
  simp only [List.mem_cons, List.not_mem_nil, or_false] at hsp hk
  obtain rfl | rfl | rfl | rfl := hsp <;> obtain rfl | rfl | rfl | rfl := hk <;> rfl

theorem writeBuf_beside (l : Loc) (sp off : Nat) (bs : List Byte) (po : Bool) : (l.writeBuf sp off bs po).beside = l.beside := by
  have hjournal : (if sp = 4 then l else (wordsOf off bs.length).foldl (fun l w => l.journalWord sp w) l).beside = l.beside := by
    split
    · rfl
    · exact foldl_keeps Loc.beside (fun l w => journalWord_beside l sp w) _ _
  unfold Loc.writeBuf
  dsimp only
  have hwakes (l : Loc) : (if sp = 4 then { l with wakes := l.wakes ++ linesFrom off bs.length } else l).beside = l.beside := by split <;> rfl
  rw [writePois_keeps Loc.beside setWordPois_beside, hwakes, setBuf_beside, hjournal]

/-- The buffers after a write to one of them. -/
theorem writeBuf_buf (l : Loc) {sp k : Nat} (off : Nat) (bs : List Byte) (po : Bool) (hsp : sp ∈ [1, 2, 3, 4]) (hk : k ∈ [1, 2, 3, 4]) :
    (l.writeBuf sp off bs po).buf k = if k = sp then putBytes (l.buf sp) off bs else l.buf k := by
  have hjournal (k : Nat) : (if sp = 4 then l else (wordsOf off bs.length).foldl (fun l w => l.journalWord sp w) l).buf k = l.buf k := by
    split
    · rfl
    · exact foldl_keeps (fun l : Loc => l.buf k) (fun l w => journalWord_buf l sp w k) _ _
  unfold Loc.writeBuf
  dsimp only
  rw [writePois_keeps (fun l => l.buf k) fun l sp w b => setWordPois_buf l sp w k b]
  have hwakes (l : Loc) : (if sp = 4 then { l with wakes := l.wakes ++ linesFrom off bs.length } else l).buf k = l.buf k := by split <;> rfl
  rw [hwakes, setBuf_buf _ _ hsp hk, hjournal, hjournal]

theorem writeReady_beside (l : Loc) (r : Ready) (bs : List Byte) (po : Bool) (k : StoreKind) :
    (l.writeReady r bs po k).beside = l.beside := by
  cases r with
  | buf sp off => exact writeBuf_beside l sp off bs po
  | g va key trk => rfl

/-! ## Scalar and vector results (R77, R145) -/

theorem length_leBytes (n v : Nat) : (leBytes n v).length = n := by
  induction n generalizing v with
  | zero => rfl
  | succ n ih => rw [leBytes, List.length_cons, ih]

theorem getD_leBytes {n i : Nat} (v : Nat) (h : i < n) : (leBytes n v).getD i 0 = BitVec.ofNat 8 (v / 2 ^ (8 * i)) := by
  induction n generalizing v i with
  | zero => omega
  | succ n ih =>
    cases i with
    | zero => simp [leBytes]
    | succ i => rw [leBytes, List.getD_cons_succ, ih _ (by omega), Nat.div_div_eq_div_mul, Nat.mul_succ, Nat.pow_add, Nat.mul_comm]

/-- A scalar result extended to 64 bits is the number that it stands for (R145). -/
theorem extend64_eq {n : Nat} (hn : 0 < n) (uns : Bool) (r : Nat) : extend64 n uns r = BitVec.ofInt 64 (number uns n r) := by
  unfold extend64 number
  cases uns
  · exact congrArg (BitVec.ofInt 64) (sextI_eq n r hn)
  · exact (BitVec.ofInt_natCast ..).symm

theorem toNat_ofInt_wrapped (n : Nat) (x : Int) : (BitVec.ofInt n x).toNat = wrapped n x := BitVec.toNat_ofInt ..

/-- A 64-bit result in A leaves the upper half. -/
theorem toNat_upperHalf_append (a : Quad) (x : Word) : (a.extractLsb' 64 64 ++ x).toNat = a.toNat / 2 ^ 64 * 2 ^ 64 + x.toNat := by
  rw [BitVec.toNat_append, ← Nat.shiftLeft_add_eq_or_of_lt x.isLt, BitVec.extractLsb'_toNat, Nat.shiftLeft_eq, Nat.shiftRight_eq_div_pow,
    Nat.mod_eq_of_lt (by have := a.isLt; omega)]

/-- What a byte of a buffer reads as after n little-endian bytes of a value have been written. -/
theorem mget_writeBuf_leBytes (l : Loc) {sp : Nat} (off n v : Nat) (po : Bool) (a : Nat) (hsp : sp ∈ [1, 2, 3, 4]) :
    mget 0 ((l.writeBuf sp off (leBytes n v) po).buf sp) a =
      if off ≤ a ∧ a < off + n then BitVec.ofNat 8 (v / 2 ^ (8 * (a - off))) else mget 0 (l.buf sp) a := by
  rw [writeBuf_buf l off _ po hsp hsp, if_pos rfl, mget_putBytes, length_leBytes]
  split
  · next h => exact getD_leBytes v (by omega)
  · rfl

/-- The P registers after one is written. -/
theorem setP_p (l : Loc) (n : Reg) (v : Word) (b : Bool) (q : Reg) : (l.setP n v b).ctx.p[q] = if n = q then v else l.ctx.p[q] := by
  simp only [Loc.setP, Fin.getElem_fin, Vector.getElem_set, Fin.ext_iff]

/-- Settles O18: the two register destinations by the extension of the result, a buffer by its bytes. -/
theorem destinationWrites : Obligations.DestinationWrites := by
  unfold Obligations.DestinationWrites
  intro l n uns r po p q sp off a x hn hsp ha la lp lm lv
  simp only [List.mem_cons, List.not_mem_nil, or_false] at hn
  have hext : extend64 n uns r.toNat = BitVec.ofInt 64 x := extend64_eq (by omega) uns r.toNat
  have hacc : la = l.setA (l.ctx.a.extractLsb' 64 64 ++ BitVec.ofInt 64 x) po := hext ▸ if_neg (by omega)
  have hmem : lm.beside = l.beside := writeBuf_beside ..
  refine ⟨?_, ?_, rfl, rfl, ?_, rfl, mget_writeBuf_leBytes l off _ _ po a hsp, mget_writeBuf_leBytes l off 16 _ po a hsp, fun k hk hne => ⟨?_, ?_⟩,
    beside_p hmem, beside_a hmem, beside_stat hmem⟩
  · rw [hacc, Loc.setA_ctx_a, toNat_upperHalf_append, toNat_ofInt_wrapped]
  · rw [hacc, Loc.setA_ctx_p]
  · exact hext ▸ setP_p l p _ po q
  · exact (writeBuf_buf l off _ po hsp hk).trans (if_neg hne)
  · exact (writeBuf_buf l off _ po hsp hk).trans (if_neg hne)

end Sys2Proof.Machine
end

