-- ==== Sys2Proof/Proofs/OwnEffects.lean ====
section
/-! SUPPORT. What the frame of an instruction can leave, and that an effect in the view leaves everything outside the units (O20). -/
namespace Sys2Proof.Machine
open Sys2Proof
/-- A computation in two parts that answers has done both. -/
theorem bind_ok {ε α β : Type} {x : Except ε α} {f : α → Except ε β} {b : β} (h : x >>= f = .ok b) : ∃ a, x = .ok a ∧ f a = .ok b := by
  cases x with
  | error e => cases h
  | ok a => exact ⟨a, rfl, h⟩

/-- A computation in two parts that stops has stopped in the first or in the second. -/
theorem bind_error {ε α β : Type} {x : Except ε α} {f : α → Except ε β} {e : ε} (h : x >>= f = .error e) :
    x = .error e ∨ ∃ a, x = .ok a ∧ f a = .error e := by
  cases x with
  | error e' => exact .inl (by cases h; rfl)
  | ok a => exact .inr ⟨a, rfl, h⟩

/-- What the frame of an instruction can leave: the state as it was, a fault or a park in its place, a skipped instruction, or its effect. -/
theorem issueWith_cases {fin : State → (State → State) → State → State} {s t : State} {i : Instr} {body : State → Loc → Res (Loc × (State → State))}
    (h : issueWith fin i body s = .next t) :
    t = s ∨ (∃ code, t = s.putLoc (raise s.here (faultOf code))) ∨ t = s.putLoc (skip s.here i) ∨
    (∃ l f, body s s.here = .error (.fault l f) ∧ t = s.putLoc (raise l f)) ∨
    (∃ l p, body s s.here = .error (.park l p) ∧ t = s.putLoc (l.parkAs p)) ∨
    ∃ l post, body s s.here = .ok (l, post) ∧ t = fin s post (s.retired l) := by
  unfold issueWith at h
  dsimp only at h
  split at h
  · cases h
  · split at h
    · cases h; exact .inl rfl
    · split at h
      · cases h; exact .inr (.inl ⟨_, rfl⟩)
      · split at h
        · cases h
          split
          · exact .inr (.inl ⟨_, rfl⟩)
          · exact .inr (.inr (.inl rfl))
        · split at h
          · next e he =>
            cases h
            cases e with
            | fault l f => exact .inr (.inr (.inr (.inl ⟨l, f, he, rfl⟩)))
            | park l p =>
              simp only [settle]
              split
              · exact .inr (.inl ⟨_, rfl⟩)
              · exact .inr (.inr (.inr (.inr (.inl ⟨l, p, he, rfl⟩))))
          · next l post he =>
            cases h
            simp only [settle]
            split
            · exact .inr (.inl ⟨_, rfl⟩)
            · exact .inr (.inr (.inr (.inr (.inr ⟨l, post, he, rfl⟩))))


/-- Writing a view back touches nothing outside the units. -/
theorem putLoc_outsideAlike (s : State) (l : Loc) : State.outsideAlike s (s.putLoc l) := by simp [State.outsideAlike]

theorem State.outsideAlike.refl (s : State) : State.outsideAlike s s := ⟨rfl, rfl, rfl, rfl, rfl, rfl, rfl⟩

theorem State.outsideAlike.trans {s t u : State} (h : State.outsideAlike s t) (k : State.outsideAlike t u) : State.outsideAlike s u := by
  obtain ⟨h1, h2, h3, h4, h5, h6, h7⟩ := h
  obtain ⟨k1, k2, k3, k4, k5, k6, k7⟩ := k
  exact ⟨k1.trans h1, k2.trans h2, k3.trans h3, k4.trans h4, k5.trans h5, k6.trans h6, k7.trans h7⟩

/-- An instruction leaves everything outside the units as it was when what it does with the change beyond the view does. -/
theorem issueWith_outsideAlike {fin : State → (State → State) → State → State} {s t : State} {i : Instr}
    {body : State → Loc → Res (Loc × (State → State))}
    (hfin : ∀ l post, body s s.here = .ok (l, post) → State.outsideAlike s (fin s post (s.retired l)))
    (h : issueWith fin i body s = .next t) : State.outsideAlike s t := by
  obtain rfl | ⟨_, rfl⟩ | rfl | ⟨_, _, _, rfl⟩ | ⟨_, _, _, rfl⟩ | ⟨l, post, hbody, rfl⟩ := issueWith_cases h
  · exact .refl _
  · exact putLoc_outsideAlike _ _
  · exact putLoc_outsideAlike _ _
  · exact putLoc_outsideAlike _ _
  · exact putLoc_outsideAlike _ _
  · exact hfin l post hbody

/-- An instruction whose effect stays in the view leaves everything outside the units as it was. -/
theorem issue_outsideAlike {s t : State} {i : Instr} {body : Loc → Res Loc} (h : issue i body s = .next t) : State.outsideAlike s t :=
  issueWith_outsideAlike (fun _ _ _ => putLoc_outsideAlike _ _) h

theorem wholeIssue_outsideAlike {s t : State} (h : State.outsideAlike s t) : State.outsideAlike s (wholeIssue s t) := by
  unfold wholeIssue
  split
  · exact h
  · exact putLoc_outsideAlike _ _

/-- The same for an instruction that acts beyond the view, by what it asks for there. -/
theorem issueG_outsideAlike {s t : State} {i : Instr} {body : State → Loc → Res (Loc × (State → State))}
    (hpost : ∀ l post, body s s.here = .ok (l, post) → ∀ u, State.outsideAlike u (post u)) (h : issueG i body s = .next t) : State.outsideAlike s t :=
  issueWith_outsideAlike (fun l post hbody => wholeIssue_outsideAlike ((putLoc_outsideAlike _ _).trans (hpost l post hbody _))) h

/-- What no channel tells is as before when waits are noted. -/
theorem noteRunnable_keeps {γ : Type} (f : State → γ) (hf : ∀ u c n x, f (putChan u c n x) = f u) (s t : State) (c : Nat) :
    f (noteRunnable s t c) = f t := by
  refine foldl_keeps f (fun u n => ?_) _ _
  split
  · exact hf ..
  · rfl

theorem noteRunnable_outsideAlike (s t : State) (c : Nat) : State.outsideAlike t (noteRunnable s t c) :=
  ⟨noteRunnable_keeps State.mem (fun _ _ _ _ => rfl) s t c, noteRunnable_keeps State.grans (fun _ _ _ _ => rfl) s t c,
    noteRunnable_keeps State.lines (fun _ _ _ _ => rfl) s t c, noteRunnable_keeps State.hostCache (fun _ _ _ _ => rfl) s t c,
    noteRunnable_keeps State.agenda (fun _ _ _ _ => rfl) s t c, noteRunnable_keeps State.now (fun _ _ _ _ => rfl) s t c,
    noteRunnable_keeps State.cur (fun _ _ _ _ => rfl) s t c⟩

theorem mtsBody_outsideAlike {s : State} {l l1 : Loc} {c : Cond} {s1 : Opd} {r : BitVec 16} {post : State → State}
    (h : mtsBody c s1 r s l = .ok (l1, post)) (u : State) : State.outsideAlike u (post u) := by
  obtain ⟨g, -, h⟩ := bind_ok h
  change (if flowSreg r then _ else _) = _ at h
  split at h <;> cases h
  · exact putLoc_outsideAlike _ _
  · exact .refl u

theorem execPrio_outsideAlike {s t : State} {c : Cond} {s1 s2 : Opd} (h : execPrio c s1 s2 s = .next t) : State.outsideAlike s t := by
  refine issueG_outsideAlike (fun l post hbody u => ?_) h
  obtain ⟨l1, -, hl1⟩ := bind_ok hbody
  cases hl1
  exact noteRunnable_outsideAlike ..

/-- The only word of zeros is NOP's: an event is none. -/
theorem eq_nop_of_zeroWord {i : Instr} (hword : isWord i = true) (hzero : encode i = 0) : i = .nop := by
  simpa [isWord, hzero] using hword

theorem isWord_of_ownEffect {i : Instr} (h : ownEffect i = true) : isWord i = true := (Bool.and_eq_true_iff.mp h).1

/-- What every instruction does whose effect stays in the view of its context. -/
theorem ownEffect_outsideAlike {i : Instr} {s t : State} (hown : ownEffect i = true) (h : exec i s = .next t) : State.outsideAlike s t := by
  cases i
  case mts => exact issueG_outsideAlike (fun _ _ hbody => mtsBody_outsideAlike hbody) h
  case prio => exact execPrio_outsideAlike h
  -- what acts on a launch, another context, the sector's queue, a translation structure or a line of another unit
  case pref | tlbi | ctxsv | ctxld | replay | killf | place | endF | join | idle | yield | chst | chkerr | tcfg | trel | tldb | tmul | tpoly | tdrn
      | waita | trap | rep => exact absurd (Bool.and_eq_true_iff.mp hown).2 Bool.false_ne_true
  case undefinedOpcode => exact absurd (isWord_of_ownEffect hown) (by simp [isWord])
  -- events of the device
  case loadDataArrival |
      loopEndTest | watchdogExpiry | storePerformed | atomicPerformed | notifyRetry | waitaWake | waitaTimeout |
      waitaReread | rstPerform | copyEngineTransfer | copyCompletion | combineGroupClose | copytImageEnqueue | tldbExecute | tmulExecute |
      tpolyExecute | drainRow | tokenArrival | creditReturn | hubTokenResend | firingSelection | chunkDeal | firingKill | firingEndOnFault |
      faultRecordResend | pageWalk | atsCompletion | priSuccess | priInvalidRequest | priResponseFailure | atsInvalidationRequest |
      externalEvent | irtEscalation | doorbell | queueEnable | launchRecord | launchStart | launchCompletion | signalRecord | waitvRecord |
      waitvTimeout | barrierRecord | copyqRecord | nopRecord | schedulerDecision | schedulerTick | quantumExpiry | parkNotice |
      rtPeriodStart | clusterOwnerChange | thermalLimitChange | sealStart | driftAck | sealCommit | sweepComplete | sealTimer | rollback |
      checkerMismatch | spareTakeover | scrubRead | lineFetch | hostRead | hostReadOwnership | hostWrite | hostWriteback | snpInv | snpData
      | snpCur | sliceLeave | sliceReturn | nvmeMsi | nvmeInboundRead | nvmeInboundWrite | netTransmit | ethernetLinkChange | holdEntry |
      powerOff | debugUnlock | pbudCapWrite | rtsWrite | swpcfgWrite | cwcfgWrite | sealcfgReq | datcfgSync | errinjGo | irtWrite |
      registerWrite | queueDisable | priReenable | netReceive | supplyLoss | wakeFrame | wakeTimer | hostWake | coldBoot |
      hostPortLinkTraining =>
    cases eq_nop_of_zeroWord (isWord_of_ownEffect hown) rfl
  -- bodies whose frame is named, so that the unifier finds it
  case nop => exact issue_outsideAlike (i := .nop) (body := bodyNop) h
  case fmt fw => exact issue_outsideAlike (i := .fmt fw) (body := bodyFmt fw) h
  case rti c => exact issue_outsideAlike (i := .rti c) (body := bodyRti c) h
  case qfence c m => exact issue_outsideAlike (i := .qfence c m) (body := bodyQfence c m) h
  case bind c s1 s2 => exact issue_outsideAlike (i := .bind c s1 s2) (body := fun l => bindR l (.bind c s1 s2) s1 s2) h
  case rfork c d s1 s2 x => exact issue_outsideAlike (i := .rfork c d s1 s2 x) (body := fun l => rforkR l (.rfork c d s1 s2 x) d) h
  all_goals exact issue_outsideAlike h

/-- Settles O20: every such instruction is an issue whose effect is a view that is written back, MTS and PRIO but for a change of the core. -/
theorem ownEffectsLeaveMemory : Obligations.OwnEffectsLeaveMemory := by
  unfold Obligations.OwnEffectsLeaveMemory
  intro i s t hown h
  have houtside := ownEffect_outsideAlike hown h
  exact ⟨houtside, fun a => by rw [houtside.1]⟩

end Sys2Proof.Machine
end

