-- ==== Sys2Proof/Proofs/OperandStops.lean ====
section
/-! SUPPORT. What of a context outlasts a compute instruction, and where its operands stop it (O19). -/
namespace Sys2Proof.Machine
open Sys2Proof

/-! ## Fields of STAT under a mask (R89) -/

section Mask
variable {w : Nat} {x m : BitVec w}

/-- A field written outside a mask. -/
theorem setFld_and {lo n v : Nat} (h : maskAt w lo n &&& m = 0#w) : setFld x lo n v &&& m = x &&& m := by
  ext i hi
  have hbit : ((maskAt w lo n)[i] && m[i]) = false := by rw [← BitVec.getElem_and, h, BitVec.getElem_zero]
  simp only [setFld, BitVec.getElem_and, BitVec.getElem_or, BitVec.getElem_not]
  generalize (maskAt w lo n)[i] = b at hbit ⊢
  generalize m[i] = c at hbit ⊢
  cases b <;> cases c <;> simp_all

/-- A bit written outside a mask. -/
theorem setBit_and {i : Nat} {b : Bool} (h : BitVec.twoPow w i &&& m = 0#w) : setBit x i b &&& m = x &&& m := by
  ext j hj
  have hbit : ((BitVec.twoPow w i)[j] && m[j]) = false := by rw [← BitVec.getElem_and, h, BitVec.getElem_zero]
  cases b <;> simp only [setBit, if_true, Bool.false_eq_true, if_false, BitVec.getElem_and, BitVec.getElem_or, BitVec.getElem_not]
  all_goals
    generalize (BitVec.twoPow w i)[j] = b at hbit ⊢
    generalize m[j] = c at hbit ⊢
    cases b <;> cases c <;> simp_all

end Mask

theorem putFlag_and {st m : Word} {i : Nat} {b : Option Bool} (h : BitVec.twoPow 64 i &&& m = 0#64) : putFlag st i b &&& m = st &&& m := by
  cases b with
  | none => rfl
  | some b => exact setBit_and h

/-- Sticky flags lie in FPS. -/
theorem fps_and : ∀ f : FFlags, (f.setWidth 64 <<< 35) &&& 0xFFFFFF07FFFFFFE0#64 = 0#64 := by decide

/-- What an instruction does to its flags stays in FPS, N, Z, C, V and GO (R148). -/
theorem applyFlags_and (st : Word) (f : FlagUp) : applyFlags st f &&& 0xFFFFFF07FFFFFFE0#64 = st &&& 0xFFFFFF07FFFFFFE0#64 := by
  rw [applyFlags, BitVec.and_or_distrib_right, fps_and, BitVec.or_zero, putFlag_and (by decide), putFlag_and (by decide), putFlag_and (by decide),
    putFlag_and (by decide), putFlag_and (by decide)]

/-! ## What outlasts an instruction of class I or V (R77, R87, R148) -/

/-- A context without its marks, its progress through the program and the bits of STAT that a compute instruction may change. -/
def Ctx.lasting (c : Ctx) : Ctx :=
  { c.unmarked with stat := c.stat &&& 0xFFFF1807FFFFFFE0#64, status := .dormant, parkedAt := 0, landed := [], pc := 0, taken := false
                    linked := false, tgtCheck := false, endTest := false, bmov := 0, pairBad := false, dleft := 0 }

section Lasting
variable {c d : Ctx} (h : c.lasting = d.lasting)
include h

theorem lasting_a : c.a = d.a := (congrArg Ctx.a h :)
theorem lasting_p : c.p = d.p := (congrArg Ctx.p h :)
theorem lasting_kind : c.kind = d.kind := (congrArg Ctx.kind h :)
theorem lasting_pop0 : c.pop0 = d.pop0 := (congrArg Ctx.pop0 h :)
theorem lasting_quota0 : c.quota0 = d.quota0 := (congrArg Ctx.quota0 h :)
theorem lasting_outbox : c.outbox = d.outbox := (congrArg Ctx.outbox h :)
theorem lasting_produced : c.produced = d.produced := (congrArg Ctx.produced h :)

end Lasting

theorem lasting_stat (c : Ctx) {st : Word} (h : st &&& 0xFFFF1807FFFFFFE0#64 = c.stat &&& 0xFFFF1807FFFFFFE0#64) :
    { c with stat := st }.lasting = c.lasting := by
  unfold Ctx.lasting
  dsimp only
  rw [h]
  rfl

theorem loopExit_lasting (c : Ctx) (tr tgt : Word) : (loopExit c tr tgt).lasting = c.lasting := lasting_stat c (setFld_and (by decide))

theorem advance_lasting (c : Ctx) : (advance c).lasting = c.lasting := by
  have hds (v : Nat) : { c with stat := setFld c.stat 45 2 v }.lasting = c.lasting := lasting_stat c (setFld_and (by decide))
  unfold advance
  split
  · rfl
  · dsimp only
    split
    · exact hds 0
    · exact (loopExit_lasting _ _ _).trans (hds 0)
  · next n _ => exact hds (n + 1)

/-- A retirement moves the program on and writes PFXV (R91). -/
theorem retire_lasting (l : Loc) : (retire l).ctx.lasting = l.ctx.lasting := by
  have hpfx : { l.ctx with stat := setBit l.ctx.stat 47 l.pfx }.lasting = l.ctx.lasting := lasting_stat l.ctx (setBit_and (by decide))
  unfold retire
  cases l.next with
  | seq =>
    dsimp only
    split
    · exact (advance_lasting _).trans hpfx
    · exact (advance_lasting _).trans hpfx
  | at_ pc => exact hpfx
  | jump pc => exact hpfx
  | gone => rfl

/-- A park on the fault queue drops the data that have landed, and no more of the context (R371, R373). -/
theorem camPark_lasting (l : Loc) (va : Nat) (code : BitVec 8) (k : Acc) (n : Nat) :
    (camPark l va code k n).1.cid = l.cid ∧ (camPark l va code k n).1.ctx.lasting = l.ctx.lasting := by
  unfold camPark
  generalize camTake l.hub (l.ask n k) va code (accCode k) = r
  obtain ⟨h, i⟩ := r
  cases i <;> exact ⟨rfl, rfl⟩

/-- A fault ends or parks the firing, and leaves the rest of its context (R371-R374). -/
theorem raise_lasting (l : Loc) (f : FaultInfo) : (raise l f).cid = l.cid ∧ (raise l f).ctx.lasting = l.ctx.lasting := by
  unfold raise
  split
  · exact ⟨rfl, rfl⟩
  · split
    · have hpark := camPark_lasting l f.addr.toNat f.code (if f.acc = 0 then .read else if f.acc = 2 then .fetch else .write) 0
      generalize camPark l f.addr.toNat f.code _ 0 = r at hpark ⊢
      exact hpark
    · exact ⟨rfl, rfl⟩

/-! ## Where the operands of an instruction stop it (R81, R87) -/

/-- The view with which a computation stops. -/
def Stop.loc : Stop → Loc
  | .fault l _ | .park l _ => l

/-- A computation that stops does so in the same context, with everything that lasts as it was. -/
structure StopsAt {α : Type} (l : Loc) (r : Res α) : Prop where
  stays : ∀ e, r = .error e → e.loc.cid = l.cid ∧ e.loc.ctx.lasting = l.ctx.lasting

section Stops
variable {α β : Type} {l : Loc}

theorem stopsAt_ok (a : α) : StopsAt l (.ok a : Res α) := ⟨fun _ h => by cases h⟩

theorem stopsAt_fault (f : FaultInfo) : StopsAt l (.error (.fault l f) : Res α) := ⟨by rintro _ ⟨⟩; exact ⟨rfl, rfl⟩⟩

theorem stopsAt_park (p : Park) : StopsAt l (parkOn l p : Res α) := ⟨by rintro _ ⟨⟩; exact ⟨rfl, rfl⟩⟩

theorem stopsAt_flt (code : BitVec 8) : StopsAt l (flt l code : Res α) := stopsAt_fault _

theorem stopsAt_flt06 (ptr : Word) (k : Acc) : StopsAt l (flt06 l ptr k : Res α) := stopsAt_fault _

theorem stopsAt_ite {c : Prop} [Decidable c] {x y : Res α} (hx : StopsAt l x) (hy : StopsAt l y) : StopsAt l (if c then x else y) := by
  split
  · exact hx
  · exact hy

theorem stopsAt_bind {x : Res α} {f : α → Res β} (hx : StopsAt l x) (hf : ∀ a, StopsAt l (f a)) : StopsAt l (x >>= f) := by
  refine ⟨fun e he => ?_⟩
  obtain h | ⟨a, -, h⟩ := bind_error he
  · exact hx.stays e h
  · exact (hf a).stays e h

variable (l)

theorem xlate_stops (va : Nat) (k : Acc) : StopsAt l (xlate l va k) := by
  unfold xlate
  split
  · exact stopsAt_park _
  · refine stopsAt_ite (stopsAt_ite (stopsAt_fault _) (stopsAt_ite (stopsAt_fault _) ?_)) (stopsAt_ite (stopsAt_park _) (stopsAt_ok _))
    have hpark := camPark_lasting l va 0x12 k 0
    generalize camPark l va 0x12 k 0 = r at hpark ⊢
    exact ⟨by rintro _ ⟨⟩; exact hpark⟩

theorem checkPtr_stops (ptr : Word) (n align : Nat) (k : Acc) : StopsAt l (checkPtr l ptr n align k) :=
  stopsAt_ite (stopsAt_flt06 _ _) (stopsAt_ite (stopsAt_ok _) (stopsAt_ite (stopsAt_ok _) (stopsAt_flt06 _ _)))

theorem hubSize_stops (ptr : Word) (key n : Nat) (k : Acc) : StopsAt l (hubSize l ptr key n k) := stopsAt_ite (stopsAt_flt06 _ _) (stopsAt_ok _)

theorem readPtr_stops (ptr : Word) (n align : Nat) (home : Bool) (acq : Option Scope) : StopsAt l (readPtr l ptr n align home acq) := by
  refine stopsAt_bind (checkPtr_stops ..) fun _ => stopsAt_ite ?_ (stopsAt_ok _)
  split
  · exact stopsAt_ok _
  · exact stopsAt_bind (xlate_stops ..) fun _ => stopsAt_bind (hubSize_stops ..) fun _ => stopsAt_park _

theorem readyPtr_stops (ptr : Word) (n align : Nat) : StopsAt l (readyPtr l ptr n align) :=
  stopsAt_bind (checkPtr_stops ..) fun _ => stopsAt_ite
    (stopsAt_bind (xlate_stops ..) fun _ => stopsAt_bind (hubSize_stops ..) fun _ =>
      stopsAt_bind (stopsAt_ite (stopsAt_ok _) (stopsAt_park _)) fun _ => stopsAt_ok _)
    (stopsAt_ok _)

theorem chanTok_stops (ch : BitVec 5) : StopsAt l (chanTok l ch) := by
  refine stopsAt_ite ?_ (stopsAt_ite ?_ (stopsAt_flt _))
  · split
    · exact stopsAt_ok _
    · exact stopsAt_flt _
  · split
    · exact stopsAt_ok _
    · exact stopsAt_flt _

theorem fetch_stops (v : View) (rm : Nat) (o : Opd) (f : Form) : StopsAt l (fetch l v rm o f) := by
  have hread (ptr : Word) (n align : Nat) (g : Datum → Src) : StopsAt l (do let d ← readPtr l ptr n align false none; .ok (g d)) :=
    stopsAt_bind (readPtr_stops ..) fun _ => stopsAt_ok _
  have htok (ch : BitVec 5) (g : Token → Src) : StopsAt l (do let t ← chanTok l ch; .ok (g t)) :=
    stopsAt_bind (chanTok_stops ..) fun _ => stopsAt_ok _
  cases f with
  | reg => exact stopsAt_ok _
  | bytes n => exact stopsAt_ok _
  | scalar n =>
    cases o with
    | acc | preg _ | imm _ | zeros | ones | lanes => exact stopsAt_ok _
    | chan ch pk => exact htok ch _
    | mem | post | pre => exact hread _ _ _ _
  | vector =>
    cases o with
    | acc | preg _ | imm _ | zeros | ones | lanes => exact stopsAt_ok _
    | chan ch pk => exact htok ch _
    | mem | post | pre => exact hread _ _ _ _

theorem fetchOpt_stops (v : View) (rm : Nat) (o : Option (Opd × Form)) : StopsAt l (fetchOpt l v rm o) := by
  cases o with
  | none => exact stopsAt_ok _
  | some o => exact fetch_stops l v rm o.1 o.2

theorem readyDst_stops (o : Option (Opd × Form)) : StopsAt l (readyDst l o) := by
  have hready (ptr : Word) (n align : Nat) : StopsAt l (do let r ← readyPtr l ptr n align; .ok (Dst.mem r)) :=
    stopsAt_bind (readyPtr_stops ..) fun _ => stopsAt_ok _
  unfold readyDst
  split
  · exact stopsAt_ok _
  · exact stopsAt_ok _
  · split
    · exact stopsAt_ok _
    · exact stopsAt_ok _
    · exact hready _ _ _

theorem fetchArgs_stops (v : View) (rm : Nat) (sh : Shape) : StopsAt l (fetchArgs l v rm sh) :=
  stopsAt_bind (fetchOpt_stops ..) fun _ => stopsAt_bind (fetchOpt_stops ..) fun _ => stopsAt_bind (fetchOpt_stops ..) fun _ =>
    stopsAt_bind (fetchOpt_stops ..) fun _ => stopsAt_bind (readyDst_stops ..) fun _ => stopsAt_ok _

theorem readPlanes_stops (ea : Word) (pp : Nat) (js : List Nat) : StopsAt l (readPlanes l ea pp js) := by
  induction js with
  | nil => exact stopsAt_ok _
  | cons j js ih => exact stopsAt_bind (readPtr_stops ..) fun _ => stopsAt_bind ih fun _ => stopsAt_ok _

theorem readyPlanes_stops (ea : Word) (pp : Nat) (js : List Nat) : StopsAt l (readyPlanes l ea pp js) := by
  induction js with
  | nil => exact stopsAt_ok _
  | cons j js ih => exact stopsAt_bind (readyPtr_stops ..) fun _ => stopsAt_bind ih fun _ => stopsAt_ok _

end Stops

end Sys2Proof.Machine
end

