-- ==== Sys2Proof/Proofs/ComputeBodies.lean ====
section
/-! SUPPORT. What the body of a compute instruction does to the registers that its operands name (O19). -/
namespace Sys2Proof.Machine
open Sys2Proof

/-! ## What an instruction does to the registers that its operands name (R77, R85, R87) -/

/-- What lasts of a context but for A, the P registers and the count of its pops. -/
def Ctx.kept (c : Ctx) : Ctx := { c.lasting with a := 0, aPois := false, p := emptyCtx.p, pPois := 0, pop0 := 0, pop1 := 0 }

/-- A view after operands of a shape have been taken and its destination written: A and the P registers that no operand names are as before. -/
structure Loc.Spares (sh : Shape) (l m : Loc) : Prop where
  cid : m.cid = l.cid
  kept : m.ctx.kept = l.ctx.kept
  p : ∀ q : Reg, (∀ o ∈ sh.opds, Opd.updates o.1 ≠ some q) → (∀ o, sh.d = some o → o.1 ≠ .preg q) → m.ctx.p[q] = l.ctx.p[q]
  a : (∀ o, sh.d = some o → o.1 ≠ .acc) → m.ctx.a = l.ctx.a

section Spares
variable {sh : Shape} {l m n : Loc}

theorem Loc.Spares.refl (l : Loc) : l.Spares sh l := ⟨rfl, rfl, fun _ _ _ => rfl, fun _ => rfl⟩

theorem Loc.Spares.trans (h : l.Spares sh m) (k : m.Spares sh n) : l.Spares sh n :=
  ⟨k.cid.trans h.cid, k.kept.trans h.kept, fun q hu hd => (k.p q hu hd).trans (h.p q hu hd), fun hd => (k.a hd).trans (h.a hd)⟩

/-- A view in which everything that lasts is as before. -/
theorem Loc.Spares.of_lasting (hcid : m.cid = l.cid) (h : m.ctx.lasting = l.ctx.lasting) : l.Spares sh m :=
  ⟨hcid, congrArg (fun c : Ctx => { c with a := 0, aPois := false, p := emptyCtx.p, pPois := 0, pop0 := 0, pop1 := 0 }) h, fun q _ _ => congrArg (·[q]) (lasting_p h), fun _ => lasting_a h⟩

/-- A write and the consumption of poison change no more than the marks of the context. -/
theorem Loc.Spares.of_beside (h : m.beside = l.beside) : l.Spares sh m :=
  .of_lasting (congrArg Loc.cid h :) (congrArg Ctx.lasting (beside_unmarked h) :)

theorem Loc.Spares.foldl {β : Type} {f : Loc → β → Loc} {bs : List β} (h : ∀ b ∈ bs, ∀ m : Loc, m.Spares sh (f m b)) (l : Loc) :
    l.Spares sh (bs.foldl f l) := by
  induction bs generalizing l with
  | nil => exact .refl l
  | cons b bs ih => exact (h b List.mem_cons_self l).trans (ih (fun b hb => h b (List.mem_cons_of_mem _ hb)) _)

/-- A P register written that an operand updates, or that is D. -/
theorem Loc.Spares.setP {q : Reg} (h : (∃ o ∈ sh.opds, Opd.updates o.1 = some q) ∨ ∃ o, sh.d = some o ∧ o.1 = .preg q) (l : Loc) (v : Word)
    (b : Bool) : l.Spares sh (l.setP q v b) := by
  refine ⟨rfl, rfl, fun r hu hd => ?_, fun _ => rfl⟩
  rw [setP_p, if_neg]
  rintro rfl
  obtain ⟨o, ho, h⟩ | ⟨o, ho, h⟩ := h
  · exact hu o ho h
  · exact hd o ho h

theorem Loc.Spares.setA (h : ∃ o, sh.d = some o ∧ o.1 = .acc) (l : Loc) (v : Quad) (b : Bool) : l.Spares sh (l.setA v b) := by
  obtain ⟨o, ho, h⟩ := h
  exact ⟨rfl, rfl, fun _ _ _ => rfl, fun hd => absurd h (hd o ho)⟩

theorem update_updates {o : Opd} {sc : Nat} {q : Reg} {w : Word} (h : l.update o sc = some (q, w)) : Opd.updates o = some q := by
  cases o
  case post | pre => cases h; rfl
  all_goals cases h

variable (sh l)

theorem updateAll_spares : l.Spares sh (l.updateAll sh) := by
  refine Loc.Spares.foldl (fun b hb m => ?_) l
  obtain ⟨o, ho, hu⟩ := List.mem_filterMap.mp hb
  exact .setP (.inl ⟨o, ho, update_updates hu⟩) m _ _

theorem popAll_spares : l.Spares sh (l.popAll sh) := by
  refine Loc.Spares.foldl (fun ⟨o, f⟩ _ m => ?_) l
  dsimp only
  split
  · split <;> exact ⟨rfl, rfl, fun _ _ _ => rfl, fun _ => rfl⟩
  · exact .refl m

theorem consumeAll_beside (ss : List Src) : (l.consumeAll ss).beside = l.beside := by
  refine foldl_keeps Loc.beside (fun m s => ?_) ss l
  split <;> rfl

theorem take_spares (g : Args) : l.Spares sh (l.take sh g) :=
  ((Loc.Spares.of_beside (consumeAll_beside l _)).trans (updateAll_spares sh _)).trans (popAll_spares sh _)

theorem flags_spares (f : FlagUp) : l.Spares sh (l.flags f) := by
  refine .of_lasting rfl (lasting_stat l.ctx ?_)
  have h := congrArg (· &&& 0xFFFF1807FFFFFFE0#64) (applyFlags_and l.ctx.stat f)
  have hmask : 0xFFFFFF07FFFFFFE0#64 &&& 0xFFFF1807FFFFFFE0#64 = 0xFFFF1807FFFFFFE0#64 := by decide
  simpa only [BitVec.and_assoc, hmask] using h

variable {sh l}

/-- A destination that is ready is the one that its operand names (R86). -/
theorem readyDst_cases {o : Option (Opd × Form)} {dst : Dst} (h : readyDst l o = .ok dst) :
    dst = .none_ ∨ (dst = .acc ∧ ∃ f, o = some (.acc, f)) ∨ (∃ q, dst = .preg q ∧ ∃ f, o = some (.preg q, f)) ∨ ∃ r, dst = .mem r := by
  unfold readyDst at h
  split at h
  · cases h; exact .inl rfl
  · cases h; exact .inl rfl
  · next o f _ =>
    split at h
    · cases h; exact .inr (.inl ⟨rfl, f, rfl⟩)
    · next q => cases h; exact .inr (.inr (.inl ⟨q, rfl, f, rfl⟩))
    · obtain ⟨r, -, hr⟩ := bind_ok h
      cases hr
      exact .inr (.inr (.inr ⟨r, rfl⟩))

/-- What a destination may name: nothing, A or a P register when D does, or a place in memory. -/
def Dst.within (sh : Shape) : Dst → Prop
  | .acc => ∃ o, sh.d = some o ∧ o.1 = .acc
  | .preg q => ∃ o, sh.d = some o ∧ o.1 = .preg q
  | _ => True

theorem readyDst_within {dst : Dst} (h : readyDst l sh.d = .ok dst) : dst.within sh := by
  obtain rfl | ⟨rfl, f, hd⟩ | ⟨q, rfl, f, hd⟩ | ⟨r, rfl⟩ := readyDst_cases h
  · trivial
  · exact ⟨_, hd, rfl⟩
  · exact ⟨_, hd, rfl⟩
  · trivial

theorem fetchArgs_within {v : View} {rm : Nat} {g : Args} (h : fetchArgs l v rm sh = .ok g) : g.dst.within sh := by
  obtain ⟨_, -, h⟩ := bind_ok h
  obtain ⟨_, -, h⟩ := bind_ok h
  obtain ⟨_, -, h⟩ := bind_ok h
  obtain ⟨_, -, h⟩ := bind_ok h
  obtain ⟨dst, hdst, h⟩ := bind_ok h
  cases h
  exact readyDst_within hdst

theorem writeScalar_spares {dst : Dst} (h : dst.within sh) (n : Nat) (uns : Bool) (r : Quad) (b : Bool) :
    l.Spares sh (l.writeScalar dst n uns r b) := by
  cases dst with
  | none_ => exact .refl l
  | acc =>
    change l.Spares sh (if n = 128 then _ else _)
    split <;> exact .setA h l _ b
  | preg q => exact .setP (.inr h) l _ b
  | mem q => exact .of_beside (writeReady_beside ..)

theorem writeVector_spares {dst : Dst} (h : dst.within sh) (r : Quad) (b : Bool) : l.Spares sh (l.writeVector dst r b) := by
  cases dst with
  | none_ => exact .refl l
  | acc => exact .setA h l r b
  | preg q => exact .setP (.inr h) l _ b
  | mem q => exact .of_beside (writeReady_beside ..)

theorem writeOut_spares {dst : Dst} (h : dst.within sh) (o : Out) (b : Bool) : l.Spares sh (l.writeOut sh dst o b) := by
  unfold Loc.writeOut
  split
  · exact writeScalar_spares h ..
  · exact writeVector_spares h ..
  · exact writeScalar_spares h ..
  · exact .refl l

/-! ## The bodies of the instructions of class I and V -/

/-- A body that stops in its own context with everything that lasts as it was, and answers with a view that spares what its operands do not name. -/
structure BodySpares (sh : Shape) (l : Loc) (r : Res Loc) : Prop where
  stops : StopsAt l r
  spares : ∀ m, r = .ok m → l.Spares sh m

theorem result_spares {i : Instr} {g : Args} (h : g.dst.within (shape i)) (o : Out) : l.Spares (shape i) (l.result i g o) :=
  ((take_spares _ l g).trans (flags_spares _ _ _)).trans (writeOut_spares h o _)

theorem compute_spares {i : Instr} {v : View} {f : Env → Args → Loc → Res Out} (hf : ∀ e g, StopsAt l (f e g l)) :
    BodySpares (shape i) l (compute i v f l) where
  stops := stopsAt_bind (fetchArgs_stops ..) fun _ => stopsAt_bind (hf _ _) fun _ => stopsAt_ok _
  spares m h := by
    obtain ⟨g, hg, h⟩ := bind_ok h
    obtain ⟨o, -, h⟩ := bind_ok h
    cases h
    exact result_spares (fetchArgs_within hg) o

theorem pureOp_spares {i : Instr} {v : View} {f : Env → Args → Out} : BodySpares (shape i) l (pureOp i v f l) :=
  compute_spares fun _ _ => stopsAt_ok _

theorem bodyPmul_spares {v : View} {c : Cond} {u fen : Bool} {wc : EWidth} {k : BitVec 6} {d s1 s2 : Opd} :
    BodySpares (shape (.pmul v c u fen wc k d s1 s2)) l (bodyPmul v c u fen wc k d s1 s2 l) :=
  compute_spares fun _ _ => stopsAt_ite (stopsAt_ite (stopsAt_flt _) (stopsAt_ok _)) (stopsAt_ok _)

theorem planeChecks_stops (l : Loc) (ea : Word) (pp grp n : Nat) (k : Acc) : StopsAt l (planeChecks l ea pp grp n k) :=
  stopsAt_ite (stopsAt_flt06 _ _) (stopsAt_ok _)

theorem bodyBprd_spares {v : View} {c : Cond} {d s1 s2 x : Opd} : BodySpares (shape (.bprd v c d s1 s2 x)) l (bodyBprd v c d s1 s2 x l) where
  stops := stopsAt_bind (fetchOpt_stops ..) fun _ => stopsAt_bind (fetchOpt_stops ..) fun _ => stopsAt_bind (planeChecks_stops ..) fun _ =>
    stopsAt_bind (readPlanes_stops ..) fun _ => stopsAt_bind (readyDst_stops ..) fun _ => stopsAt_ok _
  spares m h := by
    obtain ⟨_, -, h⟩ := bind_ok h
    obtain ⟨_, -, h⟩ := bind_ok h
    obtain ⟨_, -, h⟩ := bind_ok h
    obtain ⟨_, -, h⟩ := bind_ok h
    obtain ⟨dst, hdst, h⟩ := bind_ok h
    cases h
    exact (take_spares _ l _).trans (writeOut_spares (readyDst_within hdst) _ _)

theorem bodyBpwr_spares {v : View} {c : Cond} {d s1 s2 x : Opd} : BodySpares (shape (.bpwr v c d s1 s2 x)) l (bodyBpwr v c d s1 s2 x l) where
  stops := stopsAt_bind (fetchOpt_stops ..) fun _ => stopsAt_bind (fetchOpt_stops ..) fun _ => stopsAt_bind (fetchOpt_stops ..) fun _ =>
    stopsAt_bind (planeChecks_stops ..) fun _ => stopsAt_bind (readPlanes_stops ..) fun _ => stopsAt_bind (readyPlanes_stops ..) fun _ =>
    stopsAt_bind (stopsAt_ite (stopsAt_park _) (stopsAt_ok _)) fun _ => stopsAt_ok _
  spares m h := by
    obtain ⟨_, -, h⟩ := bind_ok h
    obtain ⟨_, -, h⟩ := bind_ok h
    obtain ⟨_, -, h⟩ := bind_ok h
    obtain ⟨_, -, h⟩ := bind_ok h
    obtain ⟨_, -, h⟩ := bind_ok h
    obtain ⟨_, -, h⟩ := bind_ok h
    obtain ⟨_, -, h⟩ := bind_ok h
    cases h
    refine ((take_spares _ l _).trans (flags_spares _ _ _)).trans (Loc.Spares.foldl (fun j _ m => ?_) _)
    split
    · exact .of_beside (writeReady_beside ..)
    · exact .refl m

end Spares

end Sys2Proof.Machine
end

