-- ==== Sys2Proof/Proofs/ContextsAfter.lean ====
section
/-! SUPPORT. Contexts after a view is written back, and the next state of a compute instruction (O19). -/
namespace Sys2Proof.Machine
open Sys2Proof

/-- An instruction of class I or V is an issue of a body that spares what its operands do not name. -/
theorem computes_body {i : Instr} (h : computes i = true) :
    ∃ body, (∀ s, exec i s = issue i body s) ∧ ∀ l, BodySpares (shape i) l (body l) := by
  cases i
  case lea v c d s1 => exact ⟨bodyLea v c d s1, fun _ => rfl, fun _ => compute_spares fun _ _ => stopsAt_ok _⟩
  case pmul v c u fen wc k d s1 s2 => exact ⟨bodyPmul v c u fen wc k d s1 s2, fun _ => rfl, fun _ => bodyPmul_spares⟩
  case bprd v c d s1 s2 x => exact ⟨bodyBprd v c d s1 s2 x, fun _ => rfl, fun _ => bodyBprd_spares⟩
  case bpwr v c d s1 s2 x => exact ⟨bodyBpwr v c d s1 s2 x, fun _ => rfl, fun _ => bodyBpwr_spares⟩
  case scale v c d s1 s2 => exact ⟨bodyScale v c d s1 s2, fun _ => rfl, fun _ => pureOp_spares⟩
  case mov | movi | movhi | add | sub | adc | sbc | mul | mulh | div | rem | and | or | xor | andn | shl | shr | sar | rol | clz | ctz | popc | cmp |
      tst | min | max | sel | ext | ins | spc | vadd | vsub | vadds | vsubs | vmul | vmulh | vmac | vdot | vmin | vmax | vabs | vneg | vand | vor |
      vxor | vshl | vshr | vsar | vcmp | vsel | vshuf | vbcast | vred | vcvt | vnarr | vwide | vfadd | vfsub | vfmul | vfma | vfdiv | vfsqrt | vfmin |
      vfmax | vfcmp | vfrcp | vfrsq | vfexp2 | vflog2 | vfrnd | vfcls | pack | extr | gchk | bexp =>
    exact ⟨_, fun _ => rfl, fun _ => pureOp_spares⟩
  all_goals exact absurd h Bool.false_ne_true

/-! ## Contexts after a view is written back (R258) -/

/-- What a wake can make of a context: another mark of its wait on a line, and nothing at all of a context that does not wait on one. -/
structure Ctx.Woken (c d : Ctx) : Prop where
  alike : Ctx.alike d c
  same : (∀ r, c.status ≠ .parked (.waita r)) → d = c

theorem Ctx.Woken.refl (c : Ctx) : Ctx.Woken c c := ⟨rfl, fun _ => rfl⟩

theorem Ctx.Woken.trans {c d e : Ctx} (h : Ctx.Woken c d) (k : Ctx.Woken d e) : Ctx.Woken c e where
  alike := by
    have hd := h.alike
    have he := k.alike
    unfold Ctx.alike at hd he ⊢
    rw [← hd, ← he]
  same hw := by
    obtain rfl := h.same hw
    exact k.same hw

theorem wakeCtx_woken (hit : WaitaReq → Bool) (c : Ctx) : Ctx.Woken c (wakeCtx hit c) where
  alike := by
    have h := wakeCtx_alike hit c
    unfold Ctx.alike at h ⊢
    rw [← h]
  same hw := by
    unfold wakeCtx
    split
    · next r hr => exact absurd hr (hw r)
    · rfl

/-- What a store reads as after a change of each of its values that leaves the value of an unlisted key. -/
theorem mget_map {α : Type} (d : α) (g : Nat → α → α) (hd : ∀ k, g k d = d) (m : Map α) (a : Nat) :
    mget d (m.map fun e => (e.1, g e.1 e.2)) a = g a (mget d m a) := by
  induction m with
  | nil => exact (hd a).symm
  | cons e t ih =>
    obtain ⟨k, v⟩ := e
    rw [List.map_cons, mget, mget, ih]
    split
    · next h => rw [h]
    · rfl

theorem wakeScratch_ctx (s : State) (c line k : Nat) : Ctx.Woken (s.ctx k) ((wakeScratch s c line).ctx k) := by
  have hmap : (wakeScratch s c line).ctx k = wakeCtx _ (s.ctx k) :=
    mget_map emptyCtx (fun k => wakeCtx fun r => spaceOf r.va == 4 && r.pa / 64 == line && clusOfCore (coreOfCid k) == c) (fun _ => rfl) s.ctxs k
  rw [hmap]
  exact wakeCtx_woken _ _

/-- The contexts after a view has been written back: its own, and the others but for a wake. -/
theorem putLoc_ctx (s : State) (l : Loc) (k : Nat) : Ctx.Woken (if k = l.cid then l.ctx else s.ctx k) ((s.putLoc l).ctx k) := by
  unfold State.putLoc
  dsimp only
  have hset : (if k = l.cid then l.ctx else s.ctx k) = mget emptyCtx (mset emptyCtx s.ctxs l.cid l.ctx) k := (mget_mset ..).symm
  rw [hset]
  generalize hs : ({ s with ctxs := mset emptyCtx s.ctxs l.cid l.ctx, cores := _, clus := _, sects := _, doms := _, hub := _, tick := _ } : State) = t
  have ht : mset emptyCtx s.ctxs l.cid l.ctx = t.ctxs := by rw [← hs]
  rw [ht]
  generalize l.wakes = lines
  clear hs ht hset
  induction lines generalizing t with
  | nil => exact .refl _
  | cons line lines ih => exact (wakeScratch_ctx t _ line k).trans (ih _)

/-- A context that does not wait on a line is written back as it is. -/
theorem putLoc_ctx_self {s : State} {l : Loc} (h : ∀ r, l.ctx.status ≠ .parked (.waita r)) : (s.putLoc l).ctx l.cid = l.ctx := by
  have hwoken := putLoc_ctx s l l.cid
  rw [if_pos rfl] at hwoken
  exact hwoken.same h

/-! ## The next state (R77, R87, R148, R173) -/

/-- A skipped instruction that is no transfer retires. -/
theorem skip_eq_retire {i : Instr} (h : isTransfer i = false) (l : Loc) : skip l i = retire l := by simp only [skip, h, Bool.false_eq_true, if_false]

theorem isTransfer_of_computes {i : Instr} (h : computes i = true) : isTransfer i = false := by
  cases i
  case br | call | jmp | jmpl => exact absurd h Bool.false_ne_true
  all_goals rfl

theorem retire_cid (l : Loc) : (retire l).cid = l.cid := rfl

/-- The next state of a compute instruction is the state before with a view written back that spares what its operands do not name. -/
theorem computes_next {i : Instr} {s t : State} (h : computes i = true) (ht : exec i s = .next t) :
    t = s ∨ ∃ l, t = s.putLoc l ∧ s.here.Spares (shape i) l := by
  obtain ⟨body, hexec, hbody⟩ := computes_body h
  obtain ⟨hstops, hspares⟩ := hbody s.here
  have hbind {e : Stop} (he : (do let l1 ← body s.here; .ok (l1, id) : Res (Loc × (State → State))) = .error e) : body s.here = .error e := by
    obtain h | ⟨_, -, h⟩ := bind_error he
    · exact h
    · cases h
  have hraise {l : Loc} (hl : s.here.Spares (shape i) l) (f : FaultInfo) : s.here.Spares (shape i) (raise l f) :=
    hl.trans (.of_lasting (raise_lasting l f).1 (raise_lasting l f).2)
  have hretire {l : Loc} (hl : s.here.Spares (shape i) l) : s.here.Spares (shape i) (retire l) := hl.trans (.of_lasting rfl (retire_lasting l))
  rw [hexec] at ht
  obtain rfl | ⟨code, rfl⟩ | rfl | ⟨l, f, he, rfl⟩ | ⟨l, p, he, rfl⟩ | ⟨l, post, he, rfl⟩ := issueWith_cases ht
  · exact .inl rfl
  · exact .inr ⟨_, rfl, hraise (.refl _) _⟩
  · exact .inr ⟨_, rfl, skip_eq_retire (isTransfer_of_computes h) _ ▸ hretire (.refl _)⟩
  · obtain ⟨hcid, hlast⟩ := hstops.stays _ (hbind he)
    exact .inr ⟨_, rfl, hraise (.of_lasting hcid hlast) f⟩
  · obtain ⟨hcid, hlast⟩ := hstops.stays _ (hbind he)
    exact .inr ⟨_, rfl, .of_lasting hcid hlast⟩
  · obtain ⟨m, hm, hl⟩ := bind_ok he
    cases hl
    exact .inr ⟨_, rfl, hretire (hspares _ hm)⟩

end Sys2Proof.Machine
end

