-- ==== Sys2Proof/Proofs/ComputeFrame.lean ====
section
/-! SUPPORT. How a result retires, and the frame of the compute instructions (O19). -/
namespace Sys2Proof.Machine
open Sys2Proof

/-! ## The retirement of a result (R91, R127, R206) -/

/-- A field that a mask covers reads the same under the mask. -/
theorem fld_and {w : Nat} (x : BitVec w) {m : BitVec w} {lo n : Nat} (hm : m.extractLsb' lo n = BitVec.allOnes n) : fld (x &&& m) lo n = fld x lo n := by
  have hfld (y : BitVec w) : fld y lo n = (y.extractLsb' lo n).toNat := by
    rw [fld, bits, BitVec.extractLsb'_toNat, Nat.shiftRight_eq_div_pow]
  rw [hfld, hfld, BitVec.extractLsb'_and, hm, BitVec.and_allOnes]

theorem stDS_of_and {x y : Word} (h : x &&& 0xFFFFFF07FFFFFFE0#64 = y &&& 0xFFFFFF07FFFFFFE0#64) : stDS x = stDS y := by
  rw [stDS, ← fld_and x (m := 0xFFFFFF07FFFFFFE0#64) (by decide), h, fld_and y (by decide)]
  rfl

theorem stDS_setBit47 (x : Word) (b : Bool) : stDS (setBit x 47 b) = stDS x := by
  have h := setBit_and (x := x) (m := 0x0000600000000000#64) (i := 47) (b := b) (by decide)
  rw [stDS, ← fld_and _ (m := 0x0000600000000000#64) (by decide), h, fld_and x (by decide)]
  rfl

theorem getLsbD_of_and {x y m : Word} {i : Nat} (h : x &&& m = y &&& m) (hm : m.getLsbD i = true) : x.getLsbD i = y.getLsbD i := by
  have hbit := congrArg (·.getLsbD i) h
  simpa only [BitVec.getLsbD_and, hm, Bool.and_true] using hbit

theorem getLsbD_setBit {w : Nat} (x : BitVec w) {i : Nat} (hi : i < w) (b : Bool) : (setBit x i b).getLsbD i = b := by
  cases b <;> simp [setBit, hi]

/-- The next slot, or the branch target after the second delay slot (R127). -/
theorem advance_pc (c : Ctx) : (advance c).pc = if stDS c.stat = 1 then c.btgt else c.pc + 1 := by
  unfold advance
  split
  · next h => rw [h]; rfl
  · next h =>
    rw [h, if_pos rfl]
    dsimp only
    split <;> rfl
  · next n h => rw [h, if_neg (by omega)]

/-- An advance writes DS and LPD of STAT alone. -/
theorem advance_stat (c : Ctx) : (advance c).stat &&& 0xFFFF98FFFFFFFFFF#64 = c.stat &&& 0xFFFF98FFFFFFFFFF#64 := by
  unfold advance
  split
  · rfl
  · dsimp only
    split
    · exact setFld_and (by decide)
    · exact (setFld_and (by decide)).trans (setFld_and (by decide))
  · exact setFld_and (by decide)

theorem advance_dleft (c : Ctx) : (advance c).dleft = c.dleft ∧ (advance c).status = c.status := by
  unfold advance
  split
  · exact ⟨rfl, rfl⟩
  · dsimp only
    split <;> exact ⟨rfl, rfl⟩
  · exact ⟨rfl, rfl⟩

section Retire
variable {l : Loc} (hnext : l.next = .seq)
include hnext

/-- A retirement in sequence is an advance, whatever it notes of a due loop end test. -/
theorem retire_seq {γ : Type} (f : Ctx → γ) (hf : ∀ c : Ctx, f { c with endTest := true } = f c) :
    f (retire l).ctx = f (advance { l.ctx with
      status := .issuing, landed := [], pairBad := false, bmov := 0
      dleft := (match l.dl with | some n => n | none => l.ctx.dleft - 1), stat := setBit l.ctx.stat 47 l.pfx }) := by
  unfold retire
  rw [hnext]
  dsimp only
  split
  · exact hf _
  · rfl

theorem retire_pc : (retire l).ctx.pc = if stDS l.ctx.stat = 1 then l.ctx.btgt else l.ctx.pc + 1 := by
  rw [retire_seq hnext Ctx.pc fun _ => rfl, advance_pc, stDS_setBit47]

theorem retire_pfx : stPFXV (retire l).ctx.stat = l.pfx := by
  rw [retire_seq hnext (fun c => stPFXV c.stat) fun _ => rfl]
  exact (getLsbD_of_and (advance_stat _) (by decide)).trans (getLsbD_setBit _ (by decide) _)

/-- A retirement writes DS, LPD and PFXV of STAT alone. -/
theorem retire_stat : (retire l).ctx.stat &&& 0xFFFF18FFFFFFFFFF#64 = l.ctx.stat &&& 0xFFFF18FFFFFFFFFF#64 := by
  rw [retire_seq hnext (fun c => c.stat &&& 0xFFFF18FFFFFFFFFF#64) fun _ => rfl]
  have h := congrArg (· &&& 0xFFFF18FFFFFFFFFF#64) (advance_stat { l.ctx with
    status := .issuing, landed := [], pairBad := false, bmov := 0
    dleft := (match l.dl with | some n => n | none => l.ctx.dleft - 1), stat := setBit l.ctx.stat 47 l.pfx })
  have hmask : 0xFFFF98FFFFFFFFFF#64 &&& 0xFFFF18FFFFFFFFFF#64 = 0xFFFF18FFFFFFFFFF#64 := by decide
  simp only [BitVec.and_assoc, hmask] at h
  exact h.trans (setBit_and (by decide))

theorem retire_status : (retire l).ctx.status = .issuing := by
  rw [retire_seq hnext Ctx.status fun _ => rfl, (advance_dleft _).2]

theorem retire_dleft (hdl : l.dl = none) : (retire l).ctx.dleft = l.ctx.dleft - 1 := by
  rw [retire_seq hnext Ctx.dleft fun _ => rfl, (advance_dleft _).1, hdl]

/-- The context that has retired, in the next state. -/
theorem retired_ctx (s : State) : (s.retired l).ctx l.cid = (retire l).ctx :=
  putLoc_ctx_self (l := retire l) (by rw [retire_status hnext]; exact fun _ h => by cases h)

end Retire

/-- A view without what the operands and the result of a compute instruction change: its place in the program, how it retires, and the rest. -/
def Loc.pace (l : Loc) : Loc :=
  { l with core := emptyCore, clus := emptyCluster, wakes := []
           ctx := { l.ctx.unmarked with a := 0, aPois := false, p := emptyCtx.p, pPois := 0, pop0 := 0, pop1 := 0
                                        stat := l.ctx.stat &&& 0xFFFFFF07FFFFFFE0#64 } }

theorem pace_of_beside {l m : Loc} (h : m.beside = l.beside) : m.pace = l.pace := (congrArg Loc.pace h :)

theorem take_pace (l : Loc) (sh : Shape) (g : Args) : (l.take sh g).pace = l.pace := by
  have hpop (m : Loc) : (m.popAll sh).pace = m.pace := by
    refine foldl_keeps Loc.pace (fun m ⟨o, f⟩ => ?_) _ _
    dsimp only
    split
    · split <;> rfl
    · rfl
  have hupdate (m : Loc) : (m.updateAll sh).pace = m.pace := by
    refine foldl_keeps Loc.pace (fun m b => ?_) _ _
    rfl
  exact (hpop _).trans ((hupdate _).trans (pace_of_beside (consumeAll_beside l _)))

theorem flags_pace (l : Loc) (f : FlagUp) : (l.flags f).pace = l.pace := by
  have h := applyFlags_and l.ctx.stat f
  unfold Loc.pace Loc.flags Loc.setStat
  dsimp only
  rw [h]
  rfl

theorem writeScalar_pace (l : Loc) (dst : Dst) (n : Nat) (uns : Bool) (r : Quad) (b : Bool) : (l.writeScalar dst n uns r b).pace = l.pace := by
  cases dst with
  | none_ => rfl
  | acc =>
    change Loc.pace (if n = 128 then _ else _) = _
    split <;> rfl
  | preg q => rfl
  | mem q => exact pace_of_beside (writeReady_beside ..)

theorem writeVector_pace (l : Loc) (dst : Dst) (r : Quad) (b : Bool) : (l.writeVector dst r b).pace = l.pace := by
  cases dst with
  | none_ | acc | preg q => rfl
  | mem q => exact pace_of_beside (writeReady_beside ..)

theorem writeOut_pace (l : Loc) (sh : Shape) (dst : Dst) (o : Out) (b : Bool) : (l.writeOut sh dst o b).pace = l.pace := by
  unfold Loc.writeOut
  split
  · exact writeScalar_pace ..
  · exact writeVector_pace ..
  · exact writeScalar_pace ..
  · rfl

theorem result_pace (l : Loc) (i : Instr) (g : Args) (o : Out) : (l.result i g o).pace = l.pace :=
  (writeOut_pace ..).trans ((flags_pace ..).trans (take_pace ..))

/-- How a view with the pace of the one before retires: one slot on, or to the branch target after the second delay slot. -/
theorem retired_of_pace {s : State} {l : Loc} (h : l.pace = s.here.pace) :
    ((s.retired l).ctx s.cur).dleft = s.here.ctx.dleft - 1 ∧ ((s.retired l).ctx s.cur).status = .issuing ∧
    stPFXV ((s.retired l).ctx s.cur).stat = false ∧
    ((s.retired l).ctx s.cur).pc = if stDS s.here.ctx.stat = 1 then s.here.ctx.btgt else s.here.ctx.pc + 1 := by
  have hnext : l.next = .seq := (congrArg Loc.next h :)
  have hcid : l.cid = s.cur := (congrArg Loc.cid h :)
  have hctx : (s.retired l).ctx s.cur = (retire l).ctx := hcid ▸ retired_ctx hnext s
  have hstat : stDS l.ctx.stat = stDS s.here.ctx.stat := stDS_of_and (congrArg (fun l : Loc => l.ctx.stat) h :)
  have hpc : l.ctx.pc = s.here.ctx.pc := (congrArg (fun l : Loc => l.ctx.pc) h :)
  have hbtgt : l.ctx.btgt = s.here.ctx.btgt := (congrArg (fun l : Loc => l.ctx.btgt) h :)
  have hdleft : l.ctx.dleft = s.here.ctx.dleft := (congrArg (fun l : Loc => l.ctx.dleft) h :)
  have hpfx : l.pfx = false := (congrArg Loc.pfx h :)
  rw [hctx, retire_dleft hnext (congrArg Loc.dl h :), retire_status hnext, retire_pfx hnext, retire_pc hnext, hstat, hpc, hbtgt, hdleft, hpfx]
  exact ⟨rfl, rfl, rfl, rfl⟩

/-- Settles O19: a view that is written back spares what the operands do not name, and a pure operation with readable operands retires. -/
theorem computeInstructionsFrame : Obligations.ComputeInstructionsFrame := by
  unfold Obligations.ComputeInstructionsFrame
  refine ⟨fun i s t _ hcomp _ _ ht => ?_, fun s v c np na d s1 s2 k i g _ hi hgoes hreads => ?_⟩
  · intro c e
    obtain rfl | ⟨l, rfl, hcid, hkept, hp, ha⟩ := computes_next hcomp ht
    · exact ⟨.refl _, fun _ _ => rfl, fun _ _ => rfl, fun _ _ _ => rfl, fun _ => rfl, rfl, rfl, rfl, rfl, rfl, rfl, rfl, rfl, rfl, rfl, rfl, rfl, rfl,
        rfl, rfl, rfl, rfl⟩
    · have hcid : l.cid = s.cur := hcid
      have hown : Ctx.alike e l.ctx := by
        have h := (putLoc_ctx s l s.cur).alike
        rwa [if_pos hcid.symm] at h
      have hk : e.kept = c.kept := (congrArg Ctx.kept hown : _).trans hkept
      refine ⟨putLoc_outsideAlike s l, fun k hk => ?_, fun k hk => ?_, fun q hu hd => ?_, fun hd => ?_, (congrArg Ctx.lbeg0 hk :),
        (congrArg Ctx.lend0 hk :), (congrArg Ctx.lcnt0 hk :), (congrArg Ctx.lbeg1 hk :), (congrArg Ctx.lend1 hk :), (congrArg Ctx.lcnt1 hk :),
        (congrArg Ctx.btgt hk :), (congrArg Ctx.ntgt hk :), (congrArg Ctx.mtpc hk :), (congrArg Ctx.mtst hk :), (congrArg Ctx.mtvec hk :),
        (congrArg Ctx.mtcode hk :), (congrArg Ctx.outbox hk :), (congrArg Ctx.produced hk :), (congrArg Ctx.quota0 hk :), (congrArg Ctx.quota1 hk :),
        (congrArg Ctx.stat hk :)⟩
      · have h := (putLoc_ctx s l k).alike
        rwa [if_neg (hcid ▸ hk)] at h
      · rw [putLoc_core, if_neg (hcid ▸ hk)]
      · exact (congrArg (fun c : Ctx => c.p[q]) hown : _).trans (hp q hu hd)
      · exact (congrArg Ctx.a hown : _).trans (ha hd)
  · have hexec : ∃ f, exec i s = issue i (pureOp i v f) s := by
      simp only [List.mem_cons, List.not_mem_nil, or_false] at hi
      obtain rfl | rfl | rfl | rfl | rfl | rfl | rfl | rfl | rfl | rfl | rfl | rfl | rfl | rfl | rfl := hi <;> exact ⟨_, rfl⟩
    obtain ⟨f, hexec⟩ := hexec
    exact ⟨_, hexec.trans (pureOp_next hgoes hreads), retired_of_pace (result_pace ..)⟩

end Sys2Proof.Machine
end

