-- ==== Sys2Proof/Proofs/SpecialRegisters.lean ====
section
/-! SUPPORT. Reads and writes of the special registers (O42). -/
namespace Sys2Proof.Machine
open Sys2Proof

/-- A supervisor in slot 0 of a loop that ends at slot 8, in its last pass, with a loop end test noted as due. -/
def testDueAwayFromEnd : State :=
  { State.reset with
    cur := 0
    ctxs := [(0, { emptyCtx with status := .issuing, dleft := 1, stat := 0x90000000000, lend0 := 8, endTest := true })] }

/-- A write of BTGT, whose end test leaves the loop. -/
def mtsBtgt : Instr := .mts .al (.imm 0) 0x6

theorem exec_mtsBtgt : ∃ t, exec mtsBtgt testDueAwayFromEnd = .next t ∧ (t.ctx 0).pc = 9 := ⟨_, rfl, by decide +kernel⟩

theorem reads_mtsBtgt : ∃ g, reads testDueAwayFromEnd .d mtsBtgt g := ⟨_, rfl⟩

/-- Refutes O42: the statement supposes that the slot is at no loop's end, but not that no end test is due from before. MTS of BTGT or a loop register
makes a test that is due at once (R199), which here leaves the loop for slot 9 where the statement says slot 1. A step of the machine makes such
a test before it issues. -/
theorem not_specialRegistersReadAndWrite : ¬ Obligations.SpecialRegistersReadAndWrite := by
  unfold Obligations.SpecialRegistersReadAndWrite
  intro h
  obtain ⟨g, hg⟩ := reads_mtsBtgt
  obtain ⟨-, -, hmts⟩ := h testDueAwayFromEnd .al 0 (.imm 0) 0x6 g
  obtain ⟨u, hu, -, -, -, -, -, -, -, -, -, -, -, -, -, -, -, -, -, -, -, hpc, -⟩ := hmts (by decide +kernel) hg rfl rfl (by decide +kernel)
  obtain ⟨t, ht, htpc⟩ := exec_mtsBtgt
  obtain rfl : t = u := by rw [mtsBtgt, hu] at ht; exact (Host.Outcome.next.inj ht).symm
  have hslot : (t.ctx 0).pc = 1 := hpc
  rw [htpc] at hslot
  exact absurd hslot (by decide)

end Sys2Proof.Machine
end

