-- ==== Sys2Proof/Proofs/Outbox.lean ====
section
/-! SUPPORT. How an item enters the outbox: SEND, SENDN, UNBIND (O38). -/
namespace Sys2Proof.Machine
open Sys2Proof

/-! ## Views that leave the core (R77) -/

/-- Taking operands touches the context alone. -/
theorem take_units (l : Loc) (sh : Shape) (g : Args) : ((l.take sh g).core, (l.take sh g).clus, (l.take sh g).wakes) = (l.core, l.clus, l.wakes) := by
  have hpop (m : Loc) : ((m.popAll sh).core, (m.popAll sh).clus, (m.popAll sh).wakes) = (m.core, m.clus, m.wakes) := by
    refine foldl_keeps (fun m : Loc => (m.core, m.clus, m.wakes)) (fun m ⟨o, f⟩ => ?_) _ _
    dsimp only
    split
    · split <;> rfl
    · rfl
  have hupdate (m : Loc) : ((m.updateAll sh).core, (m.updateAll sh).clus, (m.updateAll sh).wakes) = (m.core, m.clus, m.wakes) := by
    refine foldl_keeps (fun m : Loc => (m.core, m.clus, m.wakes)) (fun m b => ?_) _ _
    rfl
  have hconsume (ss : List Src) : ((l.consumeAll ss).core, (l.consumeAll ss).clus, (l.consumeAll ss).wakes) = (l.core, l.clus, l.wakes) := by
    refine foldl_keeps (fun m : Loc => (m.core, m.clus, m.wakes)) (fun m s => ?_) ss l
    split <;> rfl
  exact (hpop _).trans ((hupdate _).trans (hconsume _))

theorem take_core (l : Loc) (sh : Shape) (g : Args) : (l.take sh g).core = l.core := congrArg Prod.fst (take_units l sh g)

theorem take_clus (l : Loc) (sh : Shape) (g : Args) : (l.take sh g).clus = l.clus := congrArg (·.2.1) (take_units l sh g)

theorem take_wakes (l : Loc) (sh : Shape) (g : Args) : (l.take sh g).wakes = l.wakes := congrArg (·.2.2) (take_units l sh g)

/-- A retirement counts an illegal pair in the core, and no more (R126). -/
theorem retire_chans (l : Loc) : (retire l).core.chans = l.core.chans := by
  change (if l.next = .gone then l.core else l.countPair.core).chans = _
  split
  · rfl
  · unfold Loc.countPair
    split <;> rfl

/-- The channels after an instruction has retired. -/
theorem chanAt_retired (s : State) (l : Loc) (c n : Nat) :
    chanAt (s.retired l) c n = if c = coreOfCid l.cid then mget emptyChan l.core.chans n else chanAt s c n := by
  rw [chanAt, coreAt, State.retired, putLoc_core, retire_cid]
  split_ifs
  · rw [retire_chans]
  · rfl

/-! ## Items of the outbox (R194, R210) -/

section Outbox
variable {s : State} {l : Loc} (hpace : l.pace = s.here.pace) (hcore : l.core = s.here.core)
include hpace hcore

/-- The next state of an instruction that queues an item: the outbox has it, the program moves on, and no channel changes. -/
theorem retired_outPush (o : OutItem) (tok : Bool) :
    ((s.retired (l.outPush o tok)).ctx s.cur).outbox = s.here.ctx.outbox ++ [o] ∧
    ((s.retired (l.outPush o tok)).ctx s.cur).produced = s.here.ctx.produced + (if tok then 1 else 0) ∧
    ((s.retired (l.outPush o tok)).ctx s.cur).pc = (retire s.here).ctx.pc ∧
    (∀ c n, chanAt (s.retired (l.outPush o tok)) c n = chanAt s c n) ∧ State.outsideAlike s (s.retired (l.outPush o tok)) := by
  have hnext : (l.outPush o tok).next = .seq := (congrArg Loc.next hpace :)
  have hcid : l.cid = s.cur := (congrArg Loc.cid hpace :)
  have hctx : (s.retired (l.outPush o tok)).ctx s.cur = (retire (l.outPush o tok)).ctx := hcid ▸ retired_ctx hnext s
  have hlast := retire_lasting (l.outPush o tok)
  refine ⟨?_, ?_, ?_, fun c n => ?_, putLoc_outsideAlike _ _⟩
  · have hout : l.ctx.outbox = s.here.ctx.outbox := (congrArg (fun l : Loc => l.ctx.outbox) hpace :)
    rw [hctx, ← hout]
    exact lasting_outbox hlast
  · have hprod : l.ctx.produced = s.here.ctx.produced := (congrArg (fun l : Loc => l.ctx.produced) hpace :)
    rw [hctx, ← hprod]
    exact lasting_produced hlast
  · have hstat : stDS (l.outPush o tok).ctx.stat = stDS s.here.ctx.stat := stDS_of_and (congrArg (fun l : Loc => l.ctx.stat) hpace :)
    have hpc : (l.outPush o tok).ctx.pc = s.here.ctx.pc := (congrArg (fun l : Loc => l.ctx.pc) hpace :)
    have hbtgt : (l.outPush o tok).ctx.btgt = s.here.ctx.btgt := (congrArg (fun l : Loc => l.ctx.btgt) hpace :)
    rw [hctx, retire_pc hnext, retire_pc rfl, hstat, hpc, hbtgt]
  · rw [chanAt_retired]
    split
    · next hc =>
      rw [hc, show (l.outPush o tok).core = s.here.core from hcore, show (l.outPush o tok).cid = s.cur from hcid]
      rfl
    · rfl

end Outbox

theorem need_ok {l : Loc} {ok : Bool} {code : BitVec 8} (h : ok = true) : need l ok code = .ok () := by rw [need, if_pos h]

theorem need_flt {l : Loc} {ok : Bool} {code : BitVec 8} (h : ok = false) : need l ok code = flt l code := by rw [need, h]; rfl

section Bodies
variable {l : Loc} {c : Cond} {s1 s2 : Opd} {g : Args}

/-- SEND within the rate, to an actor address that can be (R210). -/
theorem bodySend_ok {rch : Option (BitVec 5)} (hargs : fetchArgs l .d 0 (shape (.send c s1 s2 rch)) = .ok g) (hrate : l.ctx.produced < l.ctx.prate)
    (haddr : g.b.val.toNat / 2 ^ 16 % 2 ^ 16 < 4096) :
    bodySend c s1 s2 rch l = .ok ((l.take (shape (.send c s1 s2 rch)) g).outPush (.tok (newToken g.a.val) (g.b.val.setWidth 32) rch) true) := by
  have hslot : fld (g.b.val.setWidth 32) 16 16 < 4096 := by
    rw [fld, bits, BitVec.toNat_setWidth]
    omega
  simp only [bodySend, hargs, need_ok (decide_eq_true hrate), need_ok (decide_eq_true hslot), bind, Except.bind]

theorem bodySend_rate {rch : Option (BitVec 5)} (hargs : fetchArgs l .d 0 (shape (.send c s1 s2 rch)) = .ok g) (hrate : l.ctx.prate ≤ l.ctx.produced) :
    bodySend c s1 s2 rch l = flt l 0x0B := by
  simp only [bodySend, hargs, need_flt (decide_eq_false (Nat.not_lt.mpr hrate)), bind, Except.bind]
  rfl

theorem bodySendn_ok {dch : BitVec 5} {dir : Dir} (hargs : fetchArgs l .d 0 (shape (.sendn c s1 dch dir)) = .ok g)
    (hrate : l.ctx.produced < l.ctx.prate) (hdir : neighbourOk l.hub (coreOfCid l.cid) dir = true) :
    bodySendn c s1 dch dir l = .ok ((l.take (shape (.sendn c s1 dch dir)) g).outPush (.nbr (newToken g.a.val) dch dir) true) := by
  simp only [bodySendn, hargs, need_ok (decide_eq_true hrate), need_ok hdir, bind, Except.bind]

theorem bodyUnbind_ok (hargs : fetchArgs l .d 0 (shape (.unbind c s1)) = .ok g) (hch : g.a.val.toNat < 32)
    (hroom : (l.ctx.outbox.filter OutItem.isEntry).length < 8) :
    bodyUnbind c s1 l = .ok ((l.take (shape (.unbind c s1)) g).outPush (.unbind g.a.val.toNat) false) := by
  simp only [bodyUnbind, hargs, need_ok (decide_eq_true hch), entryRoom, need_ok (decide_eq_true hroom), bind, Except.bind]

/-- BIND of a sound image in a buffer (R216, R293). -/
theorem bindR_ok {i : Instr} {b : Src} (hbuf : inBuffer (l.ea s1 32) 32 32) (hb : fetch l .d 0 s2 (.scalar 8) = .ok b) (hch : b.val.toNat < 32)
    (hroom : (l.ctx.outbox.filter OutItem.isEntry).length < 8) :
    let img : BitVec 256 := BitVec.ofNat 256 (leVal (bytesAt (l.buf (spaceOf (l.ea s1 32))) (addrOf (l.ea s1 32)) 32))
    entVal img = true → (stPRIV l.ctx.stat ≠ 0 ∨ entPasid img = l.ctx.pasid) → imageOk img b.val.toNat = true →
    ∃ g, bindR l i s1 s2 = .ok ((l.take (shape i) g).outPush (.bind img b.val.toNat) false) := by
  intro img hval hpriv himg
  obtain ⟨hlo, hhi, halign, hend⟩ := hbuf
  have hread : readImage l (l.ea s1 32) = .ok (img, l.bufPois (spaceOf (l.ea s1 32)) (addrOf (l.ea s1 32)) 32) := by
    have hg : spaceOf (l.ea s1 32) ≠ 0 := by omega
    simp only [readImage, checkPtr_ok halign (.inr ⟨hhi, hend⟩), hg, if_false, bind, Except.bind]
    rfl
  have howner : (l.priv != 0 || entPasid img == l.ctx.pasid) = true := by simpa [Loc.priv] using hpriv
  refine ⟨{ a := l.based s1 { val := 0, pois := l.bufPois (spaceOf (l.ea s1 32)) (addrOf (l.ea s1 32)) 32, ptr := l.poisPtr (l.ea s1 32) 32 }
            b := b, x := clean 0, d := clean 0, dst := .none_ }, ?_⟩
  simp only [bindR, hread, hb, need_ok (decide_eq_true hch), need_ok hval, need_ok howner, need_ok himg, entryRoom,
    need_ok (decide_eq_true hroom), bind, Except.bind]

end Bodies

end Sys2Proof.Machine
end

