-- ==== Sys2Proof/Proofs/TokenBodies.lean ====
section
/-! SUPPORT. The bodies of BIND, RFORK, RECV and TRIG (O38). -/
namespace Sys2Proof.Machine
open Sys2Proof

/-! ## RFORK (R220, R221) -/

/-- The Z that an instruction writes is the Z of STAT after it. -/
theorem fZ_applyFlags (st : Word) {f : FlagUp} {b : Bool} (h : f.z = some b) : fZ (applyFlags st f) = b := by
  have hfps : ∀ f : FFlags, (f.setWidth 64 <<< 35) &&& 4#64 = 0#64 := by decide
  have hrest : applyFlags st f &&& 4#64 = setBit (putFlag st 3 f.n) 2 b &&& 4#64 := by
    rw [applyFlags, BitVec.and_or_distrib_right, hfps, BitVec.or_zero, putFlag_and (by decide), putFlag_and (by decide), putFlag_and (by decide), h]
    rfl
  exact (getLsbD_of_and hrest (by decide)).trans (getLsbD_setBit _ (by decide) b)

/-- The Z of STAT after a retirement. -/
theorem fZ_retire {l : Loc} (hnext : l.next = .seq) : fZ (retire l).ctx.stat = fZ l.ctx.stat := getLsbD_of_and (retire_stat hnext) (by decide)

/-- A join cell in S (R221). -/
theorem cellKey_scratch {l : Loc} {j : Word} {k : Acc} (hspace : spaceOf j = 4) (halign : addrOf j % 8 = 0) (hend : addrOf j ≤ 0x3FFF8) :
    cellKey l j k = .ok (0, false) := by
  simp [cellKey, hspace, halign, hend]

theorem cellLevelOk_of_le {j : Word} {level : Nat} (h : level ≤ 1) : cellLevelOk j level = true := by
  unfold cellLevelOk
  split <;> simp <;> omega

/-- The view after RFORK has taken its operands and written Z. -/
def forkTaken (l : Loc) (i : Instr) (g : Args) (chunks : Nat) : Loc := (l.take (shape i) g).flags { noFlags with z := some (chunks == 0) }

/-- The chunks of an RFORK (R220). -/
def forkChunks (g : Args) : Nat :=
  ((g.a.val.setWidth 64 : Word).toNat + (g.b.val.setWidth 64 : Word).toNat - 1) / (g.b.val.setWidth 64 : Word).toNat

/-- RFORK on a cell in S, of a number of chunks below 2^32 (R220). -/
theorem rforkR_ok {l : Loc} {i : Instr} {g : Args} {p : Reg} (hargs : fetchArgs l .d 0 (shape i) = .ok g) (hm : (g.b.val.setWidth 64 : Word) ≠ 0)
    (hchunks : forkChunks g < 2 ^ 32) (hspace : spaceOf (l.p p) = 4) (halign : addrOf (l.p p) % 8 = 0) (hend : addrOf (l.p p) ≤ 0x3FFF8)
    (hlevel : l.ctx.level ≤ 1) (hroom : (l.ctx.outbox.filter OutItem.isEntry).length < 8) :
    rforkR l i (.preg p) = .ok (if forkChunks g = 0 then forkTaken l i g (forkChunks g)
      else (forkTaken l i g (forkChunks g)).outPush (.fork (g.a.val.setWidth 64) (g.b.val.setWidth 64) (g.x.val.setWidth 64) (l.p p) (forkChunks g)
        [l.p 3, l.p 4, l.p 5, l.p 6, l.p 7] 0 false) false) := by
  have hentry : (if 0 < forkChunks g then entryRoom l else .ok ()) = .ok () := by
    rw [entryRoom, need_ok (decide_eq_true hroom), ite_self]
  have hm : need l ((g.b.val.setWidth 64 : Word) != 0) 0x19 = .ok () := need_ok (bne_iff_ne.mpr hm)
  have hmax : need l (decide (forkChunks g ≤ 2 ^ 32 - 1)) 0x19 = .ok () := need_ok (decide_eq_true (by omega))
  unfold forkChunks at hentry hmax
  simp only [rforkR, hargs, regOfOpd, hm, hmax, hentry, cellKey_scratch hspace halign hend, need_ok (cellLevelOk_of_le (j := l.p p) hlevel), bind,
    Except.bind]
  rfl

theorem forkTaken_pace (l : Loc) (i : Instr) (g : Args) (n : Nat) : (forkTaken l i g n).pace = l.pace := (flags_pace ..).trans (take_pace ..)

theorem forkTaken_core (l : Loc) (i : Instr) (g : Args) (n : Nat) : (forkTaken l i g n).core = l.core := take_core ..

theorem fZ_forkTaken (l : Loc) (i : Instr) (g : Args) (n : Nat) : fZ (forkTaken l i g n).ctx.stat = decide (n = 0) :=
  fZ_applyFlags _ (congrArg some (beq_eq_decide n 0))

/-! ## TRIG (R224) -/

/-- What the first TRIG of a launch leaves (R224). -/
def trigged (l : Loc) : Loc :=
  { l with
    hub := { l.hub with tables := { l.hub.tables with
      launches := l.hub.tables.launches.map (fun e => if e.1 = l.ctx.lslot.toNat then (l.ctx.lslot.toNat, { e.2 with trigged := some l.cid }) else e) } }
    ctx := { l.ctx with stq := l.ctx.stq.map (fun s => { s with trig := true }), rstq := l.ctx.rstq.map (fun s => { s with trig := true }) } }

theorem bodyTrig_ok {l : Loc} {c : Cond} {la : Launch} (h : launchOf l.hub l.ctx.lslot.toNat = some la) (hfirst : la.trigged = none) :
    bodyTrig c l = .ok (trigged l) := by
  obtain ⟨⟨n, la'⟩, hfind, rfl⟩ := Option.map_eq_some_iff.mp h
  unfold bodyTrig
  dsimp only
  rw [hfind]
  exact if_neg (by rw [hfirst]; exact Bool.false_ne_true)

/-- The launches after a TRIG: one is marked. -/
theorem launchOf_trigged (l : Loc) (m : Nat) : launchOf (trigged l).hub m =
    (launchOf l.hub m).map fun la => if m = l.ctx.lslot.toNat then { la with trigged := some l.cid } else la := by
  unfold launchOf trigged
  dsimp only
  rw [List.find?_map, Option.map_map, Option.map_map]
  have hkey : ((fun e : Nat × Launch => e.1 == m) ∘ fun e : Nat × Launch =>
      if e.1 = l.ctx.lslot.toNat then (l.ctx.lslot.toNat, { e.2 with trigged := some l.cid }) else e) = fun e => e.1 == m := by
    funext e
    rw [Function.comp]
    split
    · next h => rw [h]
    · rfl
  rw [hkey]
  cases hfind : l.hub.tables.launches.find? (fun e => e.1 == m) with
  | none => rfl
  | some e =>
    have hm : e.1 = m := by simpa using List.find?_some hfind
    simp only [Option.map_some, Function.comp, hm]
    split <;> rfl

/-! ## RECV (R214) -/

/-- A token of the first input within the consumption rate (R88). -/
theorem chanTok_first {l : Loc} {ch kk : BitVec 5} {q : Token} (hkind : l.ctx.kind = .actor kk) (hch : ch = l.ctx.ch0) (hrate : 0 < l.ctx.c0)
    (hhead : l.ctx.quota0[l.ctx.pop0]? = some q) : chanTok l ch = .ok q := by
  simp [chanTok, hkind, hch, hrate, hhead]

/-- The destination that the operands give is the one that is ready. -/
theorem fetchArgs_dst {l : Loc} {v : View} {rm : Nat} {sh : Shape} {g : Args} (h : fetchArgs l v rm sh = .ok g) : readyDst l sh.d = .ok g.dst := by
  obtain ⟨_, -, h⟩ := bind_ok h
  obtain ⟨_, -, h⟩ := bind_ok h
  obtain ⟨_, -, h⟩ := bind_ok h
  obtain ⟨_, -, h⟩ := bind_ok h
  obtain ⟨dst, hdst, h⟩ := bind_ok h
  cases h
  exact hdst

/-- A 64-bit word extended to 64 bits is itself. -/
theorem extend64_word (uns : Bool) (x : Word) : extend64 64 uns (x.setWidth 128).toNat = x := by
  have hx : (x.setWidth 128).toNat = x.toNat := by rw [BitVec.toNat_setWidth, Nat.mod_eq_of_lt (by omega)]
  apply BitVec.eq_of_toNat_eq
  rw [hx, extend64_eq (by decide), BitVec.toNat_ofInt]
  cases uns
  · exact (congrArg Int.toNat (signed_mod 64 x.toNat)).trans (by rw [Int.toNat_natCast, Nat.mod_eq_of_lt x.isLt])
  · simp only [number, if_true]
    omega

/-- The view after RECV into a P register (R214). -/
def received (l : Loc) (c : Cond) (p : Reg) (ch : BitVec 5) (g : Args) (q : Token) : Loc :=
  let sh := shape (.recv c (.preg p) (.chan ch false))
  ((l.take sh { g with a := { g.a with pois := q.pois, ptr := regPtr } }).setA q.payload (q.pois || g.d.pois)).setP p q.tag (q.pois || g.d.pois)

theorem bodyRecv_ok {l : Loc} {c : Cond} {p : Reg} {ch : BitVec 5} {g : Args} {q : Token} (htok : chanTok l ch = .ok q)
    (hargs : fetchArgs l .d 0 (shape (.recv c (.preg p) (.chan ch false))) = .ok g) :
    bodyRecv c (.preg p) (.chan ch false) l = .ok (received l c p ch g q) := by
  have hdst : g.dst = .preg p := (Except.ok.inj (fetchArgs_dst hargs)).symm
  have hwrite (m : Loc) (w : Word) (b : Bool) : m.writeScalar g.dst 64 false (w.setWidth 128) b = m.setP p w b := by
    rw [hdst, Loc.writeScalar, extend64_word]
  change (do
    let t ← chanTok l ch
    let g ← fetchArgs l .d 0 (shape (.recv c (.preg p) (.chan ch false)))
    .ok (((l.take (shape (.recv c (.preg p) (.chan ch false))) { g with a := { g.a with pois := t.pois, ptr := regPtr } }).setA t.payload
      (t.pois || g.d.pois)).writeScalar g.dst 64 false (t.tag.setWidth 128) (t.pois || g.d.pois))) = _
  rw [htok, hargs]
  exact congrArg Except.ok (hwrite ..)

theorem setP_pace (l : Loc) (p : Reg) (w : Word) (b : Bool) : (l.setP p w b).pace = l.pace := rfl

theorem setA_pace (l : Loc) (v : Quad) (b : Bool) : (l.setA v b).pace = l.pace := rfl

theorem received_pace (l : Loc) (c : Cond) (p : Reg) (ch : BitVec 5) (g : Args) (q : Token) : (received l c p ch g q).pace = l.pace :=
  (setP_pace ..).trans ((setA_pace ..).trans (take_pace ..))

theorem received_a (l : Loc) (c : Cond) (p : Reg) (ch : BitVec 5) (g : Args) (q : Token) : (received l c p ch g q).ctx.a = q.payload := rfl

theorem received_p (l : Loc) (c : Cond) (p : Reg) (ch : BitVec 5) (g : Args) (q : Token) : (received l c p ch g q).ctx.p[p] = q.tag :=
  (setP_p ..).trans (if_pos rfl)

/-- RECV pops one token of the first input. -/
theorem received_pop {l : Loc} {ch : BitVec 5} (hch : ch = l.ctx.ch0) (c : Cond) (p : Reg) (g : Args) (q : Token) :
    (received l c p ch g q).ctx.pop0 = l.ctx.pop0 + 1 := by
  let sh := shape (.recv c (.preg p) (.chan ch false))
  let g' : Args := { g with a := { g.a with pois := q.pois, ptr := regPtr } }
  have hkept : (((l.consumeAll [g'.a, g'.b, g'.x, g'.d]).updateAll sh).ctx.pop0, ((l.consumeAll [g'.a, g'.b, g'.x, g'.d]).updateAll sh).ctx.ch0) =
      (l.ctx.pop0, l.ctx.ch0) := (congrArg (fun m : Loc => (m.ctx.pop0, m.ctx.ch0)) (consumeAll_beside l [g'.a, g'.b, g'.x, g'.d]) :)
  change (Loc.popAll ((l.consumeAll [g'.a, g'.b, g'.x, g'.d]).updateAll sh) sh).ctx.pop0 = _
  generalize (l.consumeAll [g'.a, g'.b, g'.x, g'.d]).updateAll sh = m at hkept ⊢
  obtain ⟨hpop, hch0⟩ := Prod.mk.inj hkept
  have htaken : Loc.popAll m sh = { m with ctx := { m.ctx with pop0 := m.ctx.pop0 + 1 } } := if_pos (hch.trans hch0.symm)
  rw [htaken, ← hpop]

end Sys2Proof.Machine
end

