-- ==== Sys2Proof/Proofs/Channels.lean ====
section
/-! SUPPORT. The word of a channel that CHST reads, and the entry that PRIO sets (O38). -/
namespace Sys2Proof.Machine
open Sys2Proof

/-! ## The word of CHST (R215) -/

/-- Whether a handler of a core runs. -/
def handlerRuns (s : State) (core ch : Nat) : Bool :=
  (upto 8).any (fun i =>
    (match (ctxOf s (core * 8 + i)).kind with | .actor n => n.toNat == ch | _ => false) && (ctxOf s (core * 8 + i)).status != .dormant)

theorem fld_lt {w : Nat} (x : BitVec w) (lo n : Nat) : fld x lo n < 2 ^ n := Nat.mod_lt _ (Nat.two_pow_pos n)

section Chst
variable (s : State) (core ch : Nat)

theorem chstWord_eq : chstWord s core ch = BitVec.ofNat 64 ((handlerRuns s core ch).toNat * 2 ^ 27 + (chanAt s core ch).masked.toNat * 2 ^ 26 +
    (entRent (chanAt s core ch).entry).toNat * 2 ^ 25 + (entKnd (chanAt s core ch).entry).toNat * 2 ^ 24 +
    (entVal (chanAt s core ch).entry).toNat * 2 ^ 23 + effPri s core ch * 2 ^ 20 + entPri (chanAt s core ch).entry * 2 ^ 17 +
    Nat.min 256 (heldOn s core ch).length * 2 ^ 8 + entCap (chanAt s core ch).entry) := rfl

/-- The fields of the word of CHST do not overlap. -/
theorem chstWord_fields (w : Nat) (hw : w = (chstWord s core ch).toNat) :
    w % 2 ^ 8 = entCap (chanAt s core ch).entry ∧ w / 2 ^ 8 % 2 ^ 9 = min 256 (heldOn s core ch).length ∧
    w / 2 ^ 17 % 8 = entPri (chanAt s core ch).entry ∧ w / 2 ^ 20 % 8 = effPri s core ch ∧
    w / 2 ^ 23 % 2 = (entVal (chanAt s core ch).entry).toNat ∧ w / 2 ^ 24 % 2 = (entKnd (chanAt s core ch).entry).toNat ∧
    w / 2 ^ 25 % 2 = (entRent (chanAt s core ch).entry).toNat ∧ w / 2 ^ 26 % 2 = (chanAt s core ch).masked.toNat ∧
    w / 2 ^ 27 % 2 = (handlerRuns s core ch).toNat := by
  have hcap : entCap (chanAt s core ch).entry < 256 := fld_lt ..
  have hpri : entPri (chanAt s core ch).entry < 8 := fld_lt ..
  have heff : effPri s core ch < 8 := by
    have : effPri s core ch ≤ 7 := Nat.min_le_left ..
    omega
  have hheld : Nat.min 256 (heldOn s core ch).length ≤ 256 := Nat.min_le_left ..
  have hrun := Bool.toNat_lt (handlerRuns s core ch)
  have hmask := Bool.toNat_lt (chanAt s core ch).masked
  have hrent := Bool.toNat_lt (entRent (chanAt s core ch).entry)
  have hknd := Bool.toNat_lt (entKnd (chanAt s core ch).entry)
  have hval := Bool.toNat_lt (entVal (chanAt s core ch).entry)
  rw [chstWord_eq, BitVec.toNat_ofNat, Nat.mod_eq_of_lt (by omega)] at hw
  change _ ∧ w / 2 ^ 8 % 2 ^ 9 = Nat.min 256 (heldOn s core ch).length ∧ _
  generalize Nat.min 256 (heldOn s core ch).length = x1 at *
  omega

theorem getLsbD_of_div {w : Word} {i : Nat} {b : Bool} (h : w.toNat / 2 ^ i % 2 = b.toNat) : w.getLsbD i = b := by
  rw [BitVec.getLsbD, Nat.testBit_eq_decide_div_mod_eq, h]
  cases b <;> rfl

/-- A handler runs in a context that is not dormant and whose firing is its own. -/
theorem handlerRuns_iff : handlerRuns s core ch = true ↔
    ∃ i < 8, (s.ctx (core * 8 + i)).status ≠ .dormant ∧ ∃ q, (s.ctx (core * 8 + i)).kind = .actor q ∧ q.toNat = ch := by
  unfold handlerRuns
  rw [List.any_eq_true]
  refine exists_congr fun i => ?_
  rw [upto, List.mem_range, Bool.and_eq_true, bne_iff_ne]
  refine and_congr_right fun _ => and_comm.trans (and_congr_right fun _ => ?_)
  change (match (s.ctx (core * 8 + i)).kind with | .actor n => n.toNat == ch | _ => false) = true ↔ _
  cases (s.ctx (core * 8 + i)).kind with
  | actor n => simp
  | chunk | cont => simp

/-- The flags of CHST: Z when nothing is held, N when the entry is not valid. -/
theorem chstWord_flags : { noFlags with z := some (fld (chstWord s core ch) 8 9 == 0), n := some (!bit (chstWord s core ch).toNat 23) } =
    { noFlags with z := some (decide ((heldOn s core ch).length = 0)), n := some (!entVal (chanAt s core ch).entry) } := by
  obtain ⟨-, hheld, -, -, hval, -⟩ := chstWord_fields s core ch _ rfl
  have hz : (fld (chstWord s core ch) 8 9 == 0) = decide ((heldOn s core ch).length = 0) := by
    rw [fld, bits, hheld, beq_eq_decide, decide_eq_decide]
    omega
  have hn : bit (chstWord s core ch).toNat 23 = entVal (chanAt s core ch).entry := by
    rw [bit, hval]
    cases entVal (chanAt s core ch).entry <;> rfl
  rw [hz, hn]

/-- The view after CHST (R215). -/
def charted (l : Loc) (i : Instr) (g : Args) (w : Word) (f : FlagUp) : Loc :=
  ((l.take (shape i) g).flags f).writeScalar g.dst 64 true (w.setWidth 128) g.pois

theorem chstBody_ok {s : State} {i : Instr} {l : Loc} {g : Args} (hargs : fetchArgs l .d 0 (shape i) = .ok g) (hch : g.a.val.toNat < 32) :
    chstBody i s l = .ok (charted l i g (chstWord s (coreOfCid l.cid) g.a.val.toNat)
      { noFlags with z := some (decide ((heldOn s (coreOfCid l.cid) g.a.val.toNat).length = 0))
                     n := some (!entVal (chanAt s (coreOfCid l.cid) g.a.val.toNat).entry) }, id) := by
  simp only [chstBody, hargs, need_ok (decide_eq_true hch), bind, Except.bind, chstWord_flags]
  rfl

theorem charted_hub (l : Loc) (i : Instr) (g : Args) (w : Word) (f : FlagUp) : (charted l i g w f).hub = l.hub :=
  (congrArg Loc.hub ((writeScalar_pace ..).trans ((flags_pace ..).trans (take_pace ..))) :)

end Chst

/-! ## PRIO (R218, R219, R299) -/

theorem chanAt_putChan (s : State) (c n c' m : Nat) (x : Chan) :
    chanAt (putChan s c n x) c' m = if c' = c ∧ m = n then x else chanAt s c' m := by
  rw [putChan, chanAt, putCore_get]
  by_cases hc : c' = c
  · subst hc
    rw [if_pos rfl]
    by_cases hm : m = n
    · rw [hm, mget_mset_same, if_pos ⟨rfl, rfl⟩]
    · rw [mget_mset_ne _ _ _ hm, if_neg fun h => hm h.2]
      rfl
  · rw [if_neg hc, if_neg fun h => hc h.1]
    rfl

section NoteRunnable
variable (s t : State) (c : Nat)

/-- What a channel tells but for when its wait began. -/
theorem noteRunnable_chan {γ : Type} (f : Chan → γ) (hf : ∀ x n, f { x with since := n } = f x) (c' m : Nat) :
    f (chanAt (noteRunnable s t c) c' m) = f (chanAt t c' m) := by
  refine foldl_keeps (fun u => f (chanAt u c' m)) (fun u h => ?_) _ _
  split
  · rw [chanAt_putChan]
    split
    · next hcm => rw [hf, hcm.1, hcm.2]
    · rfl
  · rfl

/-- A channel whose handler does not become runnable is left. -/
theorem noteRunnable_same {m : Nat} (h : isRunnable t c m = isRunnable s c m) : chanAt (noteRunnable s t c) c m = chanAt t c m := by
  refine foldl_keeps (fun u => chanAt u c m) (fun u n => ?_) _ _
  split
  · next hn =>
    rw [chanAt_putChan, if_neg]
    rintro ⟨-, rfl⟩
    rw [h] at hn
    simp at hn
  · rfl

theorem noteRunnable_hub : (noteRunnable s t c).hub = t.hub := noteRunnable_keeps State.hub (fun _ _ _ _ => rfl) s t c

end NoteRunnable

/-- A field of an entry beside PRI. -/
theorem entry_beside_pri (e : BitVec 256) (v i : Nat) (h : i < 70 ∨ 73 ≤ i) : (setFld e 70 3 v).getLsbD i = e.getLsbD i := by
  by_cases hi : i < 256
  · have hm : (maskAt 256 70 3).getLsbD i = false := by
      simp only [maskAt, BitVec.getLsbD_shiftLeft, BitVec.getLsbD_ofNat, Nat.testBit_two_pow_sub_one]
      simp
      omega
    simp only [setFld, BitVec.getLsbD_or, BitVec.getLsbD_and, BitVec.getLsbD_not, hm, hi]
    simp
  · rw [BitVec.getLsbD_of_ge _ _ (by omega), BitVec.getLsbD_of_ge _ _ (by omega)]

theorem entIn1_beside_pri (e : BitVec 256) (v : Nat) : entIn1 (setFld e 70 3 v) = entIn1 e := by
  have h (x : BitVec 256) : entIn1 x = (x.extractLsb' 150 5).toNat := by
    rw [entIn1, fld, bits, BitVec.extractLsb'_toNat, Nat.shiftRight_eq_div_pow]
  rw [h, h]
  refine congrArg BitVec.toNat (BitVec.eq_of_getElem_eq fun i hi => ?_)
  simp only [BitVec.getElem_extractLsb', entry_beside_pri e v (150 + i) (by omega)]


/-- The clusters after a writing back. -/
theorem putLoc_clus (s : State) (l : Loc) (k : Nat) :
    mget emptyCluster (s.putLoc l).clus k = if k = clusOfCore (coreOfCid l.cid) then l.clus else mget emptyCluster s.clus k := by
  rw [putLoc_keeps (fun s => mget emptyCluster s.clus k) (fun _ _ _ => rfl) s l]
  exact mget_mset _ _ _ _ _

/-- The contexts after a view that has written no line of S is written back. -/
theorem putLoc_ctx_of_no_wakes {s : State} {l : Loc} (h : l.wakes = []) (k : Nat) : (s.putLoc l).ctx k = if k = l.cid then l.ctx else s.ctx k := by
  unfold State.putLoc
  rw [h]
  exact mget_mset _ _ _ _ _

/-- A retirement leaves the credits and the saved firings of the core. -/
theorem retire_core (l : Loc) : (retire l).core.credits = l.core.credits ∧ (retire l).core.savedCh = l.core.savedCh := by
  change (if l.next = .gone then l.core else l.countPair.core).credits = _ ∧ (if l.next = .gone then l.core else l.countPair.core).savedCh = _
  split
  · exact ⟨rfl, rfl⟩
  · unfold Loc.countPair
    split <;> exact ⟨rfl, rfl⟩

/-- A channel with the priority and the mask bit of a PRIO operand (R218). -/
def prioritized (x : Chan) (b : Quad) : Chan :=
  { x with entry := setFld x.entry 70 3 (b.setWidth 3 : BitVec 3).toNat, masked := bit b.toNat 3, prio := some (b.setWidth 3) }

/-- The view after PRIO (R218). -/
def prioSet (l : Loc) (i : Instr) (g : Args) : Loc :=
  let m := l.take (shape i) g
  { m with core := { m.core with chans := mset emptyChan m.core.chans g.a.val.toNat (prioritized (mget emptyChan l.core.chans g.a.val.toNat) g.b.val) } }

theorem bodyPrio_ok {l : Loc} {c : Cond} {s1 s2 : Opd} {g : Args} (hargs : fetchArgs l .d 0 (shape (.prio c s1 s2)) = .ok g)
    (hch : g.a.val.toNat < 32) (howner : stPRIV l.ctx.stat ≠ 0 ∨ entPasid (mget emptyChan l.core.chans g.a.val.toNat).entry = l.ctx.pasid) :
    bodyPrio c s1 s2 l = .ok (prioSet l (.prio c s1 s2) g) := by
  have howner : (l.priv != 0 || entPasid (mget emptyChan l.core.chans g.a.val.toNat).entry == l.ctx.pasid) = true := by
    simpa [Loc.priv] using howner
  simp only [bodyPrio, hargs, need_ok (decide_eq_true hch), need_ok howner, bind, Except.bind]
  rfl

section Prio
variable {s : State} {i : Instr} {g : Args}

theorem prioSet_pace (l : Loc) (i : Instr) (g : Args) : (prioSet l i g).pace = l.pace := take_pace l (shape i) g

/-- The channels after PRIO: one is prioritized. -/
theorem chanAt_prioSet (c n : Nat) : chanAt (s.retired (prioSet s.here i g)) c n =
    if c = coreOfCid s.cur ∧ n = g.a.val.toNat then prioritized (chanAt s c n) g.b.val else chanAt s c n := by
  have hcid : (prioSet s.here i g).cid = s.cur := (congrArg Loc.cid (prioSet_pace s.here i g) :)
  rw [chanAt_retired, hcid]
  by_cases hc : c = coreOfCid s.cur
  · have hchans : (prioSet s.here i g).core.chans =
        mset emptyChan s.here.core.chans g.a.val.toNat (prioritized (mget emptyChan s.here.core.chans g.a.val.toNat) g.b.val) :=
      congrArg (fun k : Core => mset emptyChan k.chans g.a.val.toNat (prioritized (mget emptyChan s.here.core.chans g.a.val.toNat) g.b.val))
        (take_core s.here (shape i) g)
    rw [if_pos hc, hchans, mget_mset, hc]
    by_cases hn : n = g.a.val.toNat
    · rw [if_pos hn, if_pos ⟨rfl, hn⟩, hn]
      rfl
    · rw [if_neg hn, if_neg fun h => hn h.2]
      rfl
  · rw [if_neg hc, if_neg fun h => hc h.1]

/-- The firings of a handler that run or are saved are as before PRIO. -/
theorem firingOf_prioSet (hissuing : s.here.ctx.status = .issuing) (h : Nat) :
    firingOf (s.retired (prioSet s.here i g)) (coreOfCid s.cur) h = firingOf s (coreOfCid s.cur) h := by
  have hpace := prioSet_pace s.here i g
  have hcid : (retire (prioSet s.here i g)).cid = s.cur := (congrArg Loc.cid hpace :)
  have hnext : (prioSet s.here i g).next = .seq := (congrArg Loc.next hpace :)
  have hctx (k : Nat) : (ctxOf (s.retired (prioSet s.here i g)) k).kind = (ctxOf s k).kind ∧
      (ctxOf (s.retired (prioSet s.here i g)) k).status = (ctxOf s k).status := by
    have hk := putLoc_ctx_of_no_wakes (s := s) (l := retire (prioSet s.here i g)) (take_wakes s.here (shape i) g) k
    change ((s.retired (prioSet s.here i g)).ctx k).kind = (s.ctx k).kind ∧ ((s.retired (prioSet s.here i g)).ctx k).status = (s.ctx k).status
    rw [State.retired, hk, hcid]
    split
    · next hcur =>
      rw [retire_status hnext, hcur]
      exact ⟨(lasting_kind (retire_lasting _)).trans (congrArg (fun l : Loc => l.ctx.kind) hpace :), hissuing.symm⟩
    · exact ⟨rfl, rfl⟩
  have hclus : mget emptyCluster (s.retired (prioSet s.here i g)).clus (clusOfCore (coreOfCid s.cur)) =
      mget emptyCluster s.clus (clusOfCore (coreOfCid s.cur)) := by
    rw [State.retired, putLoc_clus, hcid, if_pos rfl]
    exact take_clus s.here (shape i) g
  have hcore : (coreAt (s.retired (prioSet s.here i g)) (coreOfCid s.cur)).savedCh = (coreAt s (coreOfCid s.cur)).savedCh := by
    rw [State.retired, coreAt, putLoc_core, hcid, if_pos rfl, (retire_core _).2]
    exact (congrArg Core.savedCh (take_core s.here (shape i) g) :)
  simp only [firingOf, hctx, hclus, hcore]

/-- Whether another handler is runnable is as before PRIO. -/
theorem isRunnable_prioSet (hissuing : s.here.ctx.status = .issuing) {h : Nat} (hne : h ≠ g.a.val.toNat) :
    isRunnable (s.retired (prioSet s.here i g)) (coreOfCid s.cur) h = isRunnable s (coreOfCid s.cur) h := by
  have hcid : (retire (prioSet s.here i g)).cid = s.cur := (congrArg Loc.cid (prioSet_pace s.here i g) :)
  have hchan : chanAt (s.retired (prioSet s.here i g)) (coreOfCid s.cur) h = chanAt s (coreOfCid s.cur) h := by
    rw [chanAt_prioSet, if_neg fun hc => hne hc.2]
  have hsecond {γ : Type} (f : Chan → γ) (hf : ∀ x, f (prioritized x g.b.val) = f x) (n : Nat) :
      f (chanAt (s.retired (prioSet s.here i g)) (coreOfCid s.cur) n) = f (chanAt s (coreOfCid s.cur) n) := by
    rw [chanAt_prioSet]
    split
    · exact hf _
    · rfl
  have hval := hsecond (fun x => entVal x.entry) fun x => entry_beside_pri _ _ _ (by decide)
  have hsec := hsecond (fun x => entSec x.entry) fun x => entry_beside_pri _ _ _ (by decide)
  have hin := hsecond (fun x => entIn1 x.entry) fun x => entIn1_beside_pri _ _
  have htoks := hsecond Chan.toks fun _ => rfl
  have hcredit (oe : Nat) : (coreAt (s.retired (prioSet s.here i g)) (coreOfCid s.cur)).credit oe = (coreAt s (coreOfCid s.cur)).credit oe := by
    rw [Core.credit, Core.credit, State.retired, coreAt, putLoc_core, hcid, if_pos rfl, (retire_core _).1]
    exact (congrArg (fun k : Core => mget 0 k.credits oe - 1) (take_core s.here (shape i) g) :)
  simp only [isRunnable, hchan, hval, hsec, hin, htoks, hcredit, firingOf_prioSet hissuing]

end Prio

end Sys2Proof.Machine
end

