-- ==== Sys2Proof/Proofs/TokenInstructions.lean ====
section
/-! SUPPORT. What the instructions of tokens retire to (O38). -/
namespace Sys2Proof.Machine
open Sys2Proof

/-- The next state of an instruction within its view, with the context that has retired. -/
theorem issue_retired {s : State} {i : Instr} {body : Loc → Res Loc} {l : Loc} (hgoes : goes s i = true) (hbody : body s.here = .ok l)
    (hnext : l.next = .seq) (hcid : l.cid = s.cur) :
    issue i body s = .next (s.retired l) ∧ (s.retired l).ctx s.cur = (retire l).ctx ∧ State.outsideAlike s (s.retired l) :=
  ⟨issue_next hgoes hbody, hcid ▸ retired_ctx hnext s, putLoc_outsideAlike _ _⟩

section Clauses
variable {s : State} {c : Cond} {g : Args}

/-- An instruction that queues an item after it has taken its operands (R194). -/
theorem queues_of_body {i : Instr} {body : Loc → Res Loc} {l : Loc} {o : OutItem} {tok : Bool} (hgoes : goes s i = true)
    (hbody : body s.here = .ok (l.outPush o tok)) (hpace : l.pace = s.here.pace) (hcore : l.core = s.here.core) :
    ∃ t, issue i body s = .next t ∧ (t.ctx s.cur).outbox = s.here.ctx.outbox ++ [o] ∧
      (t.ctx s.cur).produced = s.here.ctx.produced + (if tok then 1 else 0) ∧ (t.ctx s.cur).pc = (retire s.here).ctx.pc ∧
      (∀ e m, chanAt t e m = chanAt s e m) ∧ State.outsideAlike s t :=
  ⟨_, issue_next hgoes hbody, retired_outPush hpace hcore o tok⟩

/-- RECV takes the head token (R214). -/
theorem recv_next {p : Reg} {ch kk : BitVec 5} {q : Token} (hgoes : goes s (.recv c (.preg p) (.chan ch false)) = true)
    (hreads : reads s .d (.recv c (.preg p) (.chan ch false)) g) (hkind : s.here.ctx.kind = .actor kk) (hch : ch = s.here.ctx.ch0)
    (hrate : 0 < s.here.ctx.c0) (hhead : s.here.ctx.quota0[s.here.ctx.pop0]? = some q) :
    ∃ t, exec (.recv c (.preg p) (.chan ch false)) s = .next t ∧ (t.ctx s.cur).a = q.payload ∧ (t.ctx s.cur).p[p] = q.tag ∧
      (t.ctx s.cur).pop0 = s.here.ctx.pop0 + 1 ∧ (t.ctx s.cur).quota0 = s.here.ctx.quota0 ∧ State.outsideAlike s t := by
  have hpace := received_pace s.here c p ch g q
  obtain ⟨hexec, hctx, hout⟩ := issue_retired hgoes (bodyRecv_ok (chanTok_first hkind hch hrate hhead) hreads) (congrArg Loc.next hpace :)
    (congrArg Loc.cid hpace :)
  have hlast := retire_lasting (received s.here c p ch g q)
  have hquota : (received s.here c p ch g q).ctx.quota0 = s.here.ctx.quota0 := (congrArg (fun l : Loc => l.ctx.quota0) hpace :)
  rw [← hctx] at hlast
  exact ⟨_, hexec, (lasting_a hlast).trans (received_a ..), (congrArg (·[p]) (lasting_p hlast)).trans (received_p ..),
    (lasting_pop0 hlast).trans (received_pop hch c p g q), (lasting_quota0 hlast).trans hquota, hout⟩

/-- CHST gives the word and the flags of a channel (R215). -/
theorem chst_next {i : Instr} (hi : exec i s = issueG i (chstBody i) s) (hgoes : goes s i = true) (hreads : reads s .d i g) (hch : g.a.val.toNat < 32) :
    exec i s = .next (s.retired (charted s.here i g (chstWord s (coreOfCid s.cur) g.a.val.toNat)
      { noFlags with z := some (decide ((heldOn s (coreOfCid s.cur) g.a.val.toNat).length = 0))
                     n := some (!entVal (chanAt s (coreOfCid s.cur) g.a.val.toNat).entry) })) := by
  refine hi.trans (issueG_next hgoes (chstBody_ok hreads hch) ?_)
  change (s.putLoc (retire _)).hub.noRoom = _
  rw [putLoc_hub]
  exact congrArg Hub.noRoom (charted_hub ..)

/-- PRIO sets the priority and the mask bit of a channel (R218). -/
theorem prio_next {s1 s2 : Opd} (hgoes : goes s (.prio c s1 s2) = true) (hreads : reads s .d (.prio c s1 s2) g) (hch : g.a.val.toNat < 32)
    (howner : stPRIV s.here.ctx.stat ≠ 0 ∨ entPasid (chanAt s (coreOfCid s.cur) g.a.val.toNat).entry = s.here.ctx.pasid) :
    exec (.prio c s1 s2) s = .next (noteRunnable s (s.retired (prioSet s.here (.prio c s1 s2) g)) (coreOfCid s.cur)) := by
  change issueG (.prio c s1 s2) (fun s l => do let l1 ← bodyPrio c s1 s2 l; .ok (l1, fun t => noteRunnable s t (coreOfCid l.cid))) s = _
  refine issueG_next (l1 := prioSet s.here (.prio c s1 s2) g) (post := fun t => noteRunnable s t (coreOfCid s.here.cid)) hgoes ?_ ?_
  · rw [bodyPrio_ok hreads hch howner]
    rfl
  · rw [noteRunnable_hub]
    change (s.putLoc (retire _)).hub.noRoom = _
    rw [putLoc_hub]
    exact (congrArg (fun l : Loc => l.hub.noRoom) (prioSet_pace s.here (.prio c s1 s2) g) :)

theorem entPri_prioritized (x : Chan) (b : Quad) : entPri (prioritized x b).entry = b.toNat % 8 := by
  have h : (b.setWidth 3 : BitVec 3).toNat = b.toNat % 8 := BitVec.toNat_setWidth ..
  rw [prioritized, entPri, fld_setFld_same _ (by decide) (BitVec.isLt _), h]

theorem masked_prioritized (x : Chan) (b : Quad) : (prioritized x b).masked = b.getLsbD 3 := by
  rw [prioritized, bit, BitVec.getLsbD, Nat.testBit_eq_decide_div_mod_eq, beq_eq_decide]

end Clauses

/-- Settles O38: each instruction's body answers with a view of known pace, and what it retires to is read from that view. -/
theorem tokenInstructionsFillTheOutbox : Obligations.TokenInstructionsFillTheOutbox := by
  unfold Obligations.TokenInstructionsFillTheOutbox
  intro s c d s1 s2 x rch dch ch dir g p b l k core queues room send sendn recv chst prio fork n
  refine ⟨?_, ?_, ?_, ?_, ?_, ?_, ?_, ?_, ?_, ?_⟩
  · intro hgoes hreads hrate haddr
    exact queues_of_body hgoes (bodySend_ok hreads hrate haddr) (take_pace ..) (take_core ..)
  · intro hgoes hreads hrate
    exact issue_fault hgoes (bodySend_rate hreads hrate)
  · intro hgoes hreads hrate hdir
    exact queues_of_body hgoes (bodySendn_ok hreads hrate hdir) (take_pace ..) (take_core ..)
  · intro q kk hgoes hreads hkind hch hrate hhead
    exact recv_next hgoes hreads hkind hch hrate hhead
  · intro hgoes hreads hch w held fl
    obtain ⟨hcap, hheld, hpri, heff, hval, hknd, hrent, hmask, hrun⟩ := chstWord_fields s core n _ rfl
    refine ⟨chst_next rfl hgoes hreads hch, hcap, hheld, hpri, heff, getLsbD_of_div hval, getLsbD_of_div hknd, getLsbD_of_div hrent,
      getLsbD_of_div hmask, ?_⟩
    rw [getLsbD_of_div hrun]
    exact handlerRuns_iff s core n
  · intro ptr img hgoes hbuf hb hch hval hpriv himg hroom
    obtain ⟨g', hbody⟩ := bindR_ok (i := .bind c s1 s2) hbuf hb hch hroom hval hpriv himg
    exact queues_of_body (body := fun l => bindR l (.bind c s1 s2) s1 s2) hgoes hbody (take_pace ..) (take_core ..)
  · intro hgoes hreads hch hroom
    exact queues_of_body hgoes (bodyUnbind_ok hreads hch hroom) (take_pace ..) (take_core ..)
  · intro hgoes hreads hch howner
    have hissuing := (goes_parts hgoes).2.1
    have hchan {γ : Type} (f : Chan → γ) (hf : ∀ x n, f { x with since := n } = f x) :
        f (chanAt (noteRunnable s (s.retired (prioSet l prio g)) core) core n) = f (prioritized (chanAt s core n) g.b.val) := by
      rw [noteRunnable_chan s _ core f hf, chanAt_prioSet, if_pos ⟨rfl, rfl⟩]
    refine ⟨_, prio_next hgoes hreads hch howner, ?_, ?_, ?_, fun m hm => ?_, (putLoc_outsideAlike _ _).trans (noteRunnable_outsideAlike ..)⟩
    · exact (hchan (fun x => entPri x.entry) fun _ _ => rfl).trans (entPri_prioritized ..)
    · exact (hchan Chan.masked fun _ _ => rfl).trans (masked_prioritized ..)
    · exact hchan Chan.toks fun _ _ => rfl
    · exact (noteRunnable_same s _ core (isRunnable_prioSet hissuing hm)).trans (by rw [chanAt_prioSet, if_neg fun h => hm h.2])
  · intro N M chunks j hgoes hreads hM hchunks hspace halign hend hlevel hroom
    have hbody := rforkR_ok (i := fork) hreads hM hchunks hspace halign hend hlevel hroom
    have hpace := forkTaken_pace s.here fork g chunks
    have hcore := forkTaken_core s.here fork g chunks
    have hz := fZ_forkTaken s.here fork g chunks
    have hnext : (forkTaken s.here fork g chunks).next = .seq := (congrArg Loc.next hpace :)
    have hcid : (forkTaken s.here fork g chunks).cid = s.cur := (congrArg Loc.cid hpace :)
    by_cases hzero : chunks = 0
    · have hbody := hbody.trans (congrArg Except.ok (if_pos hzero))
      obtain ⟨hexec, hctx, -⟩ := issue_retired (body := fun l => rforkR l fork (.preg p)) hgoes hbody hnext hcid
      exact ⟨fun h => absurd hzero h, _, hexec, (congrArg (fun c : Ctx => fZ c.stat) hctx).trans ((fZ_retire hnext).trans hz)⟩
    · have hbody := hbody.trans (congrArg Except.ok (if_neg hzero))
      obtain ⟨hexec, hctx, -⟩ := issue_retired (body := fun l => rforkR l fork (.preg p)) hgoes hbody hnext hcid
      refine ⟨fun _ => queues_of_body (body := fun l => rforkR l fork (.preg p)) hgoes hbody hpace hcore, _, hexec,
        (congrArg (fun c : Ctx => fZ c.stat) hctx).trans ((fZ_retire (l := (forkTaken s.here fork g chunks).outPush _ false) hnext).trans hz)⟩
  · intro la hgoes hla hfirst
    have hla' : launchOf s.here.hub s.here.ctx.lslot.toNat = some la := hla
    have hmarked : launchOf (trigged s.here).hub s.here.ctx.lslot.toNat = some { la with trigged := some s.cur } :=
      (launchOf_trigged ..).trans (by rw [hla', Option.map_some, if_pos rfl]; rfl)
    refine ⟨_, issue_next hgoes (bodyTrig_ok hla hfirst), ?_, fun m hm => ?_, putLoc_outsideAlike _ _⟩
    · rw [State.retired, putLoc_hub]
      exact congrArg (Option.bind · (·.trigged)) hmarked
    · have hm' : m ≠ s.here.ctx.lslot.toNat := hm
      rw [State.retired, putLoc_hub]
      exact (launchOf_trigged s.here m).trans ((congrArg (Option.map · (launchOf s.hub m)) (funext fun _ => if_neg hm')).trans Option.map_id')

end Sys2Proof.Machine
end

