-- ==== Sys2Proof/Proofs/SignalsAndTranslations.lean ====
section
/-! SUPPORT. What a machine instruction retires to; SIGH and TLBI (O43). -/
namespace Sys2Proof.Machine
open Sys2Proof

/-! ## A machine instruction retires with its operands taken and Z written -/

/-- The view after an instruction has taken its operands and written Z alone. -/
def zeroed (l : Loc) (i : Instr) (g : Args) (z : Bool) : Loc := (l.take (shape i) g).flags { noFlags with z := some z }

section Zeroed
variable (l : Loc) (i : Instr) (g : Args) (z : Bool)

theorem zeroed_pace : (zeroed l i g z).pace = l.pace := (flags_pace ..).trans (take_pace ..)

theorem zeroed_core : (zeroed l i g z).core = l.core := take_core l (shape i) g

theorem zeroed_clus : (zeroed l i g z).clus = l.clus := take_clus l (shape i) g

theorem zeroed_wakes : (zeroed l i g z).wakes = l.wakes := take_wakes l (shape i) g

end Zeroed

section Paced
variable {s : State} {l : Loc} (hpace : l.pace = s.here.pace)
include hpace

theorem paced_next : l.next = .seq := (congrArg Loc.next hpace :)

theorem paced_cid : l.cid = s.cur := (congrArg Loc.cid hpace :)

theorem paced_hub : l.hub = s.hub := (congrArg Loc.hub hpace :)

theorem retired_hub_of_pace : (s.retired l).hub = s.hub := (putLoc_hub s (retire l)).trans (paced_hub (l := l) hpace)

/-- The slot after a retirement does not depend on the operands. -/
theorem retired_pc_of_pace : ((s.retired l).ctx s.cur).pc = (retire s.here).ctx.pc := by
  obtain ⟨-, -, -, hpc⟩ := retired_of_pace hpace
  rw [hpc, retire_pc (l := s.here) rfl]

/-- The contexts after a retirement that has written no line of S. -/
theorem retired_ctx_of_pace (hwakes : l.wakes = []) (k : Nat) : (s.retired l).ctx k = if k = s.cur then (retire l).ctx else s.ctx k := by
  have h := putLoc_ctx_of_no_wakes (s := s) (l := retire l) hwakes k
  rwa [show (retire l).cid = s.cur from paced_cid (l := l) hpace] at h

end Paced

/-- Z after the retirement of an instruction that has written it. -/
theorem zero_retired (s : State) (i : Instr) (g : Args) (z : Bool) : fZ ((s.retired (zeroed s.here i g z)).ctx s.cur).stat = z := by
  rw [retired_ctx_of_pace (zeroed_pace ..) (zeroed_wakes ..), if_pos rfl, fZ_retire (paced_next (zeroed_pace ..))]
  exact fZ_applyFlags _ rfl

/-- An instruction that acts beyond its view, when its change finds room for each write of the hub. -/
theorem issueG_of_pace {s : State} {i : Instr} {body : State → Loc → Res (Loc × (State → State))} {l : Loc} {post : State → State}
    (hgoes : goes s i = true) (hbody : body s s.here = .ok (l, post)) (hpace : l.pace = s.here.pace)
    (hroom : (post (s.retired l)).hub.noRoom = (s.retired l).hub.noRoom) : issueG i body s = .next (post (s.retired l)) :=
  issueG_next hgoes hbody (hroom.trans (congrArg Hub.noRoom (retired_hub_of_pace hpace)))

/-! ## SIGH (R237) -/

section Sigh
variable {s : State} {c : Cond} {s1 : Opd} {g : Args}

/-- The view after SIGH (R237): the message is out, or waits in the hold. -/
def signalled (l : Loc) (i : Instr) (g : Args) (irv : Bool) : Loc :=
  let m := l.take (shape i) g
  let v := (g.a.val.setWidth 64 : Word).toNat
  if irv then { m.cirSet 2 with hub := { m.hub with out := .msi v :: m.hub.out } }
  else
    let e := stampOf m.hub m.core.late
    { m with hub := wantHold { m.hub with held := m.hub.held ++ [{ stamp := e, item := .msi v, by_ := some m.cid, page := none }] } e }

theorem bodySigh_ok {l : Loc} {irv : Bool} (hargs : fetchArgs l .d 0 (shape (.sigh c s1 irv)) = .ok g)
    (hvec : (g.a.val.setWidth 64 : Word).toNat < 2048) (hroom : irv = true ∨ extFull l.hub = false) :
    bodySigh c s1 irv l = .ok (signalled l (.sigh c s1 irv) g irv) := by
  have hroom : irv = true ∨ (!extFull l.hub) = true := hroom.imp_right fun h => by rw [h]; rfl
  simp only [bodySigh, hargs, if_pos hvec, if_pos hroom, bind, Except.bind]
  rfl

/-- An advance leaves CIR. -/
theorem advance_cir (c : Ctx) : (advance c).cir = c.cir := by
  unfold advance
  split
  · rfl
  · dsimp only
    split <;> rfl
  · rfl

theorem wantHold_out (h : Hub) (d : BitVec 32) : (wantHold h d).out = h.out := by
  unfold wantHold
  split <;> rfl

theorem wantHold_held (h : Hub) (d : BitVec 32) : (wantHold h d).held = h.held := by
  unfold wantHold
  split <;> rfl

theorem signalled_next (l : Loc) (i : Instr) (g : Args) (irv : Bool) : (signalled l i g irv).next = l.next ∧ (signalled l i g irv).cid = l.cid := by
  have h := take_pace l (shape i) g
  have hnext : (l.take (shape i) g).next = l.next := (congrArg Loc.next h :)
  have hcid : (l.take (shape i) g).cid = l.cid := (congrArg Loc.cid h :)
  cases irv <;> exact ⟨hnext, hcid⟩

/-- SIGH raises its vector, or holds it (R237). -/
theorem sigh_next {irv : Bool} (hgoes : goes s (.sigh c s1 irv) = true) (hreads : reads s .d (.sigh c s1 irv) g)
    (hvec : (g.a.val.setWidth 64 : Word).toNat < 2048) (hroom : irv = true ∨ extFull s.hub = false) :
    ∃ t, exec (.sigh c s1 irv) s = .next t ∧
      (irv = true → t.hub.out = .msi (g.a.val.setWidth 64 : Word).toNat :: s.hub.out ∧ t.hub.held = s.hub.held ∧ (t.ctx s.cur).irv = true) ∧
      (irv = false → t.hub.out = s.hub.out ∧ ∃ x, t.hub.held = s.hub.held ++ [x] ∧ x.item = .msi (g.a.val.setWidth 64 : Word).toNat) ∧
      State.outsideAlike s t := by
  obtain ⟨hnext, hcid⟩ := signalled_next s.here (.sigh c s1 irv) g irv
  obtain ⟨hexec, hctx, hout⟩ := issue_retired hgoes (bodySigh_ok hreads hvec hroom) hnext hcid
  have hhub : (s.here.take (shape (.sigh c s1 irv)) g).hub = s.hub := (congrArg Loc.hub (take_pace s.here (shape (.sigh c s1 irv)) g) :)
  refine ⟨_, hexec, fun h => ?_, fun h => ?_, hout⟩
  · subst h
    rw [hctx, State.retired, putLoc_hub]
    refine ⟨(congrArg (fun h : Hub => _ :: h.out) hhub :), (congrArg Hub.held hhub :), ?_⟩
    rw [Ctx.irv, retire_seq hnext Ctx.cir fun _ => rfl, advance_cir]
    exact getLsbD_setBit _ (by decide) _
  · subst h
    rw [State.retired, putLoc_hub]
    exact ⟨(wantHold_out ..).trans (congrArg Hub.out hhub :), _, (wantHold_held ..).trans (congrArg (fun h : Hub => h.held ++ [_]) hhub :), rfl⟩

end Sigh

/-! ## TLBI (R233) -/

/-- A value that a store gives for every listed key, and for an unlisted one, it gives for every key. -/
theorem mget_all {α : Type} {d : α} {m : Map α} {P : α → Prop} (hd : P d) (h : ∀ x ∈ m, P (mget d m x.1)) (a : Nat) : P (mget d m a) := by
  by_cases ha : ∃ x ∈ m, x.1 = a
  · obtain ⟨x, hx, rfl⟩ := ha
    exact h x hx
  · have hnone : mget d m a = d := by
      clear h
      induction m with
      | nil => rfl
      | cons e t ih =>
        rw [mget, if_neg fun he => ha ⟨e, List.mem_cons_self, he⟩]
        exact ih fun ⟨x, hx, hxa⟩ => ha ⟨x, List.mem_cons_of_mem _ hx, hxa⟩
    rwa [hnone]

/-- The WAITA that a context is parked in. -/
def waitaIn (c : Ctx) : Option WaitaReq := match c.status with | .parked (.waita r) => some r | _ => none

theorem waitaOf_congr {s t : State} {k : Nat} (h : t.ctx k = s.ctx k) : waitaOf t k = waitaOf s k := congrArg waitaIn h

theorem waitaOf_of_issuing {t : State} {k : Nat} (h : (t.ctx k).status = .issuing) : waitaOf t k = none := by
  change waitaIn (t.ctx k) = none
  rw [waitaIn, h]

/-- When no context waits on a line, none reads its value again. -/
theorem landWaits_of_none {t : State} (h : ∀ k, waitaOf t k = none) (hit : Ctx → WaitaReq → Bool) : landWaits hit t = t := by
  unfold landWaits
  generalize t.ctxs.map (·.1) = ks
  induction ks with
  | nil => rfl
  | cons k ks ih => rw [List.foldl_cons, h k]; exact ih

section DropTlbs
variable (s : State) (keep : Tlb → Bool) (keepPtr : PtrEnt → Bool) (n : Nat)

theorem dropTlbs_utlb : (coreAt (dropTlbs s keep keepPtr) n).utlb = (coreAt s n).utlb.filter keep :=
  congrArg Core.utlb (mget_map emptyCore (fun _ e => { e with utlb := e.utlb.filter keep, icache := [] }) (fun _ => rfl) s.cores n)

theorem dropTlbs_cluster_tlb : (mget emptyCluster (dropTlbs s keep keepPtr).clus n).tlb = (mget emptyCluster s.clus n).tlb.filter keep :=
  congrArg Cluster.tlb (mget_map emptyCluster (fun _ e => { e with tlb := e.tlb.filter keep }) (fun _ => rfl) s.clus n)

theorem dropTlbs_domain_tlb : (mget emptyDomain (dropTlbs s keep keepPtr).doms n).tlb = (mget emptyDomain s.doms n).tlb.filter keep :=
  congrArg Domain.tlb (mget_map emptyDomain (fun _ e => { e with tlb := e.tlb.filter keep, ptrs := e.ptrs.filter keepPtr }) (fun _ => rfl) s.doms n)

end DropTlbs

section Tlbi
variable {s : State} {c : Cond} {s1 s2 : Opd} {ty : TlbiType} {g : Args}

/-- The page and the process that TLBI names. -/
theorem tlbi_names (g : Args) : fld g.a.val 14 46 = addrOf (g.a.val.setWidth 64) / 2 ^ 14 ∧ fld g.b.val 0 20 = (g.b.val.setWidth 64 : Word).toNat % 2 ^ 20 := by
  simp only [addrOf, fld, bits, BitVec.toNat_setWidth]
  omega

/-- TLBI when no access in flight has used an entry that it names. -/
theorem tlbiBody_ok {page pasid : Nat} (hpage : fld g.a.val 14 46 = page) (hpasid : fld g.b.val 0 20 = pasid)
    (hreads : reads s .d (.tlbi c s1 s2 ty) g) (hbusy : ∀ x ∈ s.ctxs, tlbiBusy ty page pasid x.2 = false)
    (hpref : ∀ x ∈ s.cores, tlbiPref ty page pasid x.2 = false) :
    tlbiBody (.tlbi c s1 s2 ty) ty s s.here = .ok (s.here.take (shape (.tlbi c s1 s2 ty)) g, fun t =>
      dropTlbs (landWaits (fun c r => tlbiUse ty page pasid c.pasid.toNat (addrOf r.va) r.bytes) t) (fun x => !tlbiHit ty page pasid x)
        (fun p => !tlbiPtr ty page pasid p)) := by
  subst hpage hpasid
  have hidle : (s.ctxs.any (fun e => tlbiBusy ty (fld g.a.val 14 46) (fld g.b.val 0 20) e.2) ||
      s.cores.any (fun k => tlbiPref ty (fld g.a.val 14 46) (fld g.b.val 0 20) k.2)) = false := by
    rw [Bool.or_eq_false_iff, List.any_eq_false, List.any_eq_false]
    exact ⟨fun x hx => by rw [hbusy x hx]; exact Bool.false_ne_true, fun x hx => by rw [hpref x hx]; exact Bool.false_ne_true⟩
  rw [reads] at hreads
  simp only [tlbiBody, hreads, bind, Except.bind, hidle]
  rfl

/-- TLBI leaves no entry that it names (R233). -/
theorem tlbi_next (hgoes : goes s (.tlbi c s1 s2 ty) = true) (hreads : reads s .d (.tlbi c s1 s2 ty) g) {page pasid : Nat}
    (hpage : fld g.a.val 14 46 = page) (hpasid : fld g.b.val 0 20 = pasid)
    (hquiet : ∀ x ∈ s.ctxs, tlbiBusy ty page pasid x.2 = false ∧ waitaOf s x.1 = none) (hpref : ∀ x ∈ s.cores, tlbiPref ty page pasid x.2 = false) :
    ∃ t, exec (.tlbi c s1 s2 ty) s = .next t ∧
      (∀ n, (∀ x ∈ (coreAt t n).utlb, tlbiHit ty page pasid x = false) ∧
        (∀ x ∈ (mget emptyCluster t.clus n).tlb, tlbiHit ty page pasid x = false) ∧
        (∀ x ∈ (mget emptyDomain t.doms n).tlb, tlbiHit ty page pasid x = false)) ∧
      (t.ctx s.cur).pc = (retire s.here).ctx.pc ∧ State.outsideAlike s t := by
  have hpace := take_pace s.here (shape (.tlbi c s1 s2 ty)) g
  have hwaits (k : Nat) : waitaOf (s.retired (s.here.take (shape (.tlbi c s1 s2 ty)) g)) k = none := by
    have hctx := retired_ctx_of_pace hpace (take_wakes ..) k
    split at hctx
    · exact waitaOf_of_issuing (hctx ▸ retire_status (paced_next hpace))
    · exact (waitaOf_congr hctx).trans
        (mget_all (P := fun c => waitaIn c = none) rfl (fun x hx => (hquiet x hx).2) k)
  have hmiss {ts : List Tlb} {x : Tlb} (hx : x ∈ ts.filter fun x => !tlbiHit ty page pasid x) : tlbiHit ty page pasid x = false := by
    simpa using (List.mem_filter.mp hx).2
  refine ⟨_, issueG_of_pace hgoes (tlbiBody_ok hpage hpasid hreads (fun x hx => (hquiet x hx).1) hpref) hpace ?_, fun n => ⟨?_, ?_, ?_⟩, ?_, ?_⟩
  all_goals rw [landWaits_of_none hwaits]
  · rfl
  · rw [dropTlbs_utlb]
    exact fun x => hmiss
  · rw [dropTlbs_cluster_tlb]
    exact fun x => hmiss
  · rw [dropTlbs_domain_tlb]
    exact fun x => hmiss
  · exact retired_pc_of_pace hpace
  · exact putLoc_outsideAlike _ _

end Tlbi

end Sys2Proof.Machine
end

