-- ==== Sys2Proof/Proofs/FaultRequesters.lean ====
section
/-! SUPPORT. An entry of the CAM that REPLAY or KILLF takes, and its requester (O43). -/
namespace Sys2Proof.Machine
open Sys2Proof

/-! ## Freeing an entry of the CAM (R385, R386) -/

/-- The domains after a writing back. -/
theorem putLoc_doms (s : State) (l : Loc) (k : Nat) :
    mget emptyDomain (s.putLoc l).doms k = if k = domOfCore (coreOfCid l.cid) then l.dom else mget emptyDomain s.doms k := by
  rw [putLoc_keeps (fun s => mget emptyDomain s.doms k) (fun _ _ _ => rfl) s l]
  exact mget_mset _ _ _ _ _

/-- Nothing that waits for room in the CAM is served. -/
theorem serveCam_of_none {t : State} (h : ∀ w, waitsCam t w = none) : serveCam t = t := by
  unfold serveCam
  have hnil : (allWalkers t).filter (fun w => (waitsCam t w).isSome) = [] := List.filter_eq_nil_iff.mpr fun w _ => by rw [h w]; exact Bool.false_ne_true
  rw [hnil]
  rfl

theorem waitsCam_congr {s t : State} {k : Nat} (h : t.ctx k = s.ctx k) : waitsCam t (.ctx k) = waitsCam s (.ctx k) := by
  unfold waitsCam ctxOf
  dsimp only
  rw [show mget emptyCtx t.ctxs k = mget emptyCtx s.ctxs k from h]

theorem waitsCam_of_issuing {t : State} {k : Nat} (h : (t.ctx k).status = .issuing) : waitsCam t (.ctx k) = none := by
  unfold waitsCam ctxOf
  dsimp only
  rw [show (mget emptyCtx t.ctxs k).status = .issuing from h]

/-- The clusters after a retirement that has written nothing of its own. -/
theorem retired_clus_of_pace {s : State} {l : Loc} (hpace : l.pace = s.here.pace) (hclus : l.clus = s.here.clus) (c : Nat) :
    mget emptyCluster (s.retired l).clus c = mget emptyCluster s.clus c := by
  have hcid : (retire l).cid = s.cur := paced_cid (l := l) hpace
  refine (putLoc_clus s (retire l) c).trans ?_
  split
  · next hk => exact hclus.trans (by rw [hk, hcid]; rfl)
  · rfl

/-- The domains after a retirement. -/
theorem retired_doms_of_pace {s : State} {l : Loc} (hpace : l.pace = s.here.pace) (d : Nat) :
    mget emptyDomain (s.retired l).doms d = mget emptyDomain s.doms d := by
  have hcid : (retire l).cid = s.cur := paced_cid (l := l) hpace
  refine (putLoc_doms s (retire l) d).trans ?_
  split
  · next hk => exact (congrArg Loc.dom hpace : _).trans (by rw [hk, hcid]; rfl)
  · rfl

/-- A retired instruction waits for no room in the CAM, and the other requesters as before. -/
theorem waitsCam_retired {s : State} {l : Loc} (hpace : l.pace = s.here.pace) (hwakes : l.wakes = []) (hclus : l.clus = s.here.clus)
    (h : ∀ w, waitsCam s w = none) (cam : Map CamEntry) (w : Walker) :
    waitsCam { s.retired l with hub := { (s.retired l).hub with cam := cam } } w = none := by
  cases w with
  | ctx cid =>
    have hctx := retired_ctx_of_pace hpace hwakes cid
    split at hctx
    · exact waitsCam_of_issuing (hctx ▸ retire_status (paced_next hpace))
    · exact (waitsCam_congr hctx).trans (h (.ctx cid))
  | engine e =>
    have hq : copyQ { s.retired l with hub := { (s.retired l).hub with cam := cam } } e = copyQ s e := by
      cases e with
      | clus c second => exact (congrArg (fun u : Cluster => if second = true then u.q1 else u.q0) (retired_clus_of_pace hpace hclus c) :)
      | bulk d => exact (congrArg Domain.bulk (retired_doms_of_pace hpace d) :)
    unfold waitsCam
    dsimp only
    rw [hq]
    exact h (.engine e)
  | work n =>
    have hw : workOf { s.retired l with hub := { (s.retired l).hub with cam := cam } } n = workOf s n :=
      (congrArg (fun h : Hub => (h.tables.works.find? (fun e => e.1 == n)).map (·.2)) (retired_hub_of_pace hpace) :)
    unfold waitsCam
    dsimp only
    rw [hw]
    exact h (.work n)

/-- The state in which an instruction has retired with an entry of the CAM taken out. -/
def entryGone (s : State) (i : Instr) (g : Args) (k : Nat) : State :=
  let t := s.retired (zeroed s.here i g true)
  { t with hub := { t.hub with cam := mdel t.hub.cam k } }

section EntryGone
variable {s : State} {i : Instr} {g : Args} {k : Nat}

/-- An entry leaves the CAM while nothing waits for room. -/
theorem freeCam_retired (h : ∀ w, waitsCam s w = none) : freeCam (s.retired (zeroed s.here i g true)) k = entryGone s i g k :=
  serveCam_of_none (waitsCam_retired (zeroed_pace ..) (zeroed_wakes ..) (zeroed_clus ..) h _)

theorem entryGone_ctx (cid : Nat) : (entryGone s i g k).ctx cid = if cid = s.cur then (retire (zeroed s.here i g true)).ctx else s.ctx cid :=
  retired_ctx_of_pace (zeroed_pace ..) (zeroed_wakes ..) cid

theorem entryGone_zero : fZ ((entryGone s i g k).ctx s.cur).stat = true := zero_retired s i g true

theorem entryGone_cam : mhas (entryGone s i g k).hub.cam k = false := mhas_mdel_same _ _

end EntryGone

/-! ## REPLAY (R238, R384, R386) -/

section Replay
variable {s : State} {c : Cond} {s1 s2 : Opd} {g : Args} {cid i : Nat} {e : CamEntry}

theorem replayBody_ok (hreads : reads s .d (.replay c s1 s2) g) (hstq : s.here.ctx.stq = []) (hrstq : s.here.ctx.rstq = []) :
    replayBody (.replay c s1 s2) s s.here = match camOf s.hub (g.a.val.setWidth 64) with
      | none => .ok (zeroed s.here (.replay c s1 s2) g false, id)
      | some (k, e) => .ok (zeroed s.here (.replay c s1 s2) g true, fun t => e.reqs.foldl (resumeReq (g.b.val.setWidth 64)) (freeCam t k)) := by
  have hquiet : s.here.ctx.stq.isEmpty = true ∧ s.here.ctx.rstq.isEmpty = true := by rw [hstq, hrstq]; exact ⟨rfl, rfl⟩
  rw [reads] at hreads
  simp only [replayBody, hreads, if_pos hquiet, bind, Except.bind]
  rfl

theorem replay_none (hgoes : goes s (.replay c s1 s2) = true) (hreads : reads s .d (.replay c s1 s2) g) (hstq : s.here.ctx.stq = [])
    (hrstq : s.here.ctx.rstq = []) (hcam : camOf s.hub (g.a.val.setWidth 64) = none) :
    ∃ t, exec (.replay c s1 s2) s = .next t ∧ ¬ fZ (t.ctx s.cur).stat = true ∧ t.hub = s.hub ∧ State.outsideAlike s t := by
  have hbody := (replayBody_ok hreads hstq hrstq).trans (by rw [hcam])
  refine ⟨_, issueG_of_pace hgoes hbody (zeroed_pace ..) rfl, ?_, retired_hub_of_pace (zeroed_pace ..), putLoc_outsideAlike _ _⟩
  rw [id, zero_retired]
  exact Bool.false_ne_true

/-- REPLAY of a live entry with one requester. -/
theorem replay_one (hgoes : goes s (.replay c s1 s2) = true) (hreads : reads s .d (.replay c s1 s2) g) (hstq : s.here.ctx.stq = [])
    (hrstq : s.here.ctx.rstq = []) (hcam : camOf s.hub (g.a.val.setWidth 64) = some (i, e)) (hreqs : e.reqs = [.ctx cid])
    (hwaits : ∀ w, waitsCam s w = none)
    (hroom : (resumeReq (g.b.val.setWidth 64) (entryGone s (.replay c s1 s2) g i) (.ctx cid)).hub = (entryGone s (.replay c s1 s2) g i).hub) :
    exec (.replay c s1 s2) s = .next (resumeReq (g.b.val.setWidth 64) (entryGone s (.replay c s1 s2) g i) (.ctx cid)) := by
  have hbody := (replayBody_ok hreads hstq hrstq).trans (by rw [hcam])
  have hfree := freeCam_retired (i := .replay c s1 s2) (g := g) (k := i) hwaits
  refine (issueG_of_pace hgoes hbody (zeroed_pace ..) ?_).trans ?_
  · rw [hreqs, hfree]
    exact (congrArg Hub.noRoom hroom :)
  · rw [hreqs, hfree]
    rfl

/-- The view of a requester whose TRAP resumes with a word (R228). -/
def resumed (l : Loc) (ret : Word) : Loc :=
  { l.countPair with
    ctx := { l.ctx with status := .issuing, a := l.ctx.a.extractLsb' 64 64 ++ ret, pc := l.ctx.pc + 1, tgtCheck := false, pairBad := false
                        dleft := l.ctx.dleft - 1 } }

theorem countPair_hub (l : Loc) : l.countPair.hub = l.hub ∧ l.countPair.cid = l.cid ∧ l.countPair.wakes = l.wakes := by
  unfold Loc.countPair
  split <;> exact ⟨rfl, rfl, rfl⟩

section Resume
variable {t : State} {ret : Word}

theorem resumeReq_fault {j : Nat} {va : Nat} {ac : Acc} (h : (t.ctx cid).status = .parked (.fault j va ac)) :
    resumeReq ret t (.ctx cid) = putCtx t cid { t.ctx cid with status := .parked (.walk va ac), parkedAt := t.now } := by
  unfold resumeReq ctxOf
  dsimp only
  rw [show (mget emptyCtx t.ctxs cid).status = _ from h]

theorem resumeReq_trap {j : Nat} (h : (t.ctx cid).status = .parked (.trap j)) (hleft : (t.ctx cid).dleft ≠ 0) :
    resumeReq ret t (.ctx cid) = t.putLoc (resumed (t.loc cid) ret) := by
  unfold resumeReq ctxOf
  dsimp only
  rw [show (mget emptyCtx t.ctxs cid).status = _ from h]
  exact if_neg hleft

theorem putLoc_resumed_ctx (k : Nat) : (t.putLoc (resumed (t.loc cid) ret)).ctx k = if k = cid then (resumed (t.loc cid) ret).ctx else t.ctx k := by
  obtain ⟨-, hcid, hwakes⟩ := countPair_hub (t.loc cid)
  rw [putLoc_ctx_of_no_wakes (show (resumed (t.loc cid) ret).wakes = [] from hwakes), show (resumed (t.loc cid) ret).cid = cid from hcid]

theorem putLoc_resumed_hub : (t.putLoc (resumed (t.loc cid) ret)).hub = t.hub := by
  obtain ⟨hhub, -, -⟩ := countPair_hub (t.loc cid)
  exact (putLoc_hub ..).trans hhub

end Resume

/-- The access of a requester that faulted walks again (R384). -/
theorem replay_fault {va : Nat} {ac : Acc} (hgoes : goes s (.replay c s1 s2) = true) (hreads : reads s .d (.replay c s1 s2) g)
    (hstq : s.here.ctx.stq = []) (hrstq : s.here.ctx.rstq = []) (hcam : camOf s.hub (g.a.val.setWidth 64) = some (i, e))
    (hreqs : e.reqs = [.ctx cid]) (hcid : cid ≠ s.cur) (hwaits : ∀ w, waitsCam s w = none) (hstatus : (s.ctx cid).status = .parked (.fault i va ac)) :
    ∃ t, exec (.replay c s1 s2) s = .next t ∧ fZ (t.ctx s.cur).stat = true ∧ mhas t.hub.cam i = false ∧
      (t.ctx cid).status = .parked (.walk va ac) := by
  have hctx := entryGone_ctx (s := s) (i := .replay c s1 s2) (g := g) (k := i) cid
  rw [if_neg hcid] at hctx
  have hres := resumeReq_fault (ret := g.b.val.setWidth 64) (hctx.symm ▸ hstatus)
  refine ⟨_, replay_one hgoes hreads hstq hrstq hcam hreqs hwaits (by rw [hres]; rfl), ?_, ?_, ?_⟩
  all_goals rw [hres]
  · rw [putCtx_get, if_neg hcid.symm]
    exact entryGone_zero
  · exact entryGone_cam
  · rw [putCtx_get, if_pos rfl]

/-- The TRAP of a requester retires with the return word (R228). -/
theorem replay_trap (hgoes : goes s (.replay c s1 s2) = true) (hreads : reads s .d (.replay c s1 s2) g)
    (hstq : s.here.ctx.stq = []) (hrstq : s.here.ctx.rstq = []) (hcam : camOf s.hub (g.a.val.setWidth 64) = some (i, e))
    (hreqs : e.reqs = [.ctx cid]) (hcid : cid ≠ s.cur) (hwaits : ∀ w, waitsCam s w = none) (hstatus : (s.ctx cid).status = .parked (.trap i))
    (hleft : (s.ctx cid).dleft ≠ 0) :
    ∃ t, exec (.replay c s1 s2) s = .next t ∧ fZ (t.ctx s.cur).stat = true ∧ (t.ctx cid).status = .issuing ∧
      (t.ctx cid).a.setWidth 64 = (g.b.val.setWidth 64 : Word) ∧ (t.ctx cid).pc = (s.ctx cid).pc + 1 := by
  have hctx := entryGone_ctx (s := s) (i := .replay c s1 s2) (g := g) (k := i) cid
  rw [if_neg hcid] at hctx
  have hres := resumeReq_trap (ret := g.b.val.setWidth 64) (hctx.symm ▸ hstatus) (hctx.symm ▸ hleft)
  refine ⟨_, replay_one hgoes hreads hstq hrstq hcam hreqs hwaits (by rw [hres, putLoc_resumed_hub]), ?_, ?_, ?_, ?_⟩
  all_goals rw [hres, putLoc_resumed_ctx]
  · rw [if_neg hcid.symm]
    exact entryGone_zero
  · rw [if_pos rfl]
    rfl
  · rw [if_pos rfl]
    exact BitVec.setWidth_append_eq_right ..
  · rw [if_pos rfl]
    exact congrArg (fun c : Ctx => c.pc + 1) hctx

end Replay

/-! ## KILLF (R239, R241) -/

section Killf
variable {s : State} {c : Cond} {s1 : Opd} {drop : Bool} {g : Args} {cid i : Nat} {e : CamEntry}

theorem killfBody_ok (hreads : reads s .d (.killf c s1 drop) g) (hcam : camOf s.hub (g.a.val.setWidth 64) = some (i, e)) :
    killfBody (.killf c s1 drop) drop s s.here =
      .ok (zeroed s.here (.killf c s1 drop) g true, fun t => e.reqs.foldl (killReq e drop) (freeCam t i)) := by
  rw [reads] at hreads
  simp only [killfBody, hreads, bind, Except.bind]
  rw [show camOf s.here.hub (g.a.val.setWidth 64) = some (i, e) from hcam]
  rfl

theorem killReq_fault {t : State} {j va : Nat} {ac : Acc} (h : (t.ctx cid).status = .parked (.fault j va ac)) (hirv : (t.ctx cid).irv = false) :
    killReq e drop t (.ctx cid) = putCtx t cid { t.ctx cid with status := .killing 0 drop, landed := [] } := by
  unfold killReq ctxOf
  dsimp only
  rw [show (mget emptyCtx t.ctxs cid).status = _ from h, show (mget emptyCtx t.ctxs cid).irv = false from hirv]
  rfl

/-- KILLF kills a requester that faulted and has revoked nothing (R239). -/
theorem killf_fault {va : Nat} {ac : Acc} (hgoes : goes s (.killf c s1 drop) = true) (hreads : reads s .d (.killf c s1 drop) g)
    (hcam : camOf s.hub (g.a.val.setWidth 64) = some (i, e)) (hreqs : e.reqs = [.ctx cid]) (hcid : cid ≠ s.cur)
    (hwaits : ∀ w, waitsCam s w = none) (hstatus : (s.ctx cid).status = .parked (.fault i va ac)) (hirv : (s.ctx cid).irv = false) :
    ∃ t, exec (.killf c s1 drop) s = .next t ∧ fZ (t.ctx s.cur).stat = true ∧ mhas t.hub.cam i = false ∧
      (t.ctx cid).status = .killing 0 drop := by
  have hctx := entryGone_ctx (s := s) (i := .killf c s1 drop) (g := g) (k := i) cid
  rw [if_neg hcid] at hctx
  have hpost : e.reqs.foldl (killReq e drop) (freeCam (s.retired (zeroed s.here (.killf c s1 drop) g true)) i) =
      putCtx (entryGone s (.killf c s1 drop) g i) cid { (entryGone s (.killf c s1 drop) g i).ctx cid with status := .killing 0 drop, landed := [] } := by
    rw [hreqs, freeCam_retired hwaits]
    exact killReq_fault (e := e) (hctx.symm ▸ hstatus) (hctx.symm ▸ hirv)
  refine ⟨_, issueG_of_pace hgoes (killfBody_ok hreads hcam) (zeroed_pace ..) (by rw [hpost]; rfl), ?_, ?_, ?_⟩
  all_goals rw [hpost]
  · rw [putCtx_get, if_neg hcid.symm]
    exact entryGone_zero
  · exact entryGone_cam
  · rw [putCtx_get, if_pos rfl]

end Killf

end Sys2Proof.Machine
end

