-- ==== Sys2Proof/Proofs/Placement.lean ====
section
/-! SUPPORT. PLACE of an actor for which nothing is held (O43). -/
namespace Sys2Proof.Machine
open Sys2Proof

/-! ## PLACE (R240, R290) -/

theorem find_minsert_mdel {α : Type} (m : Map α) (k : Nat) (x : α) : (minsert (mdel m k) k x).find? (fun e => e.1 == k) = some (k, x) := by
  have hnone : ∀ e ∈ mdel m k, e.1 ≠ k := by
    induction m with
    | nil => exact fun _ h => absurd h List.not_mem_nil
    | cons e t ih =>
      rw [mdel]
      split
      · exact ih
      · next h =>
        intro f hf
        rcases List.mem_cons.mp hf with rfl | hf
        · exact h
        · exact ih f hf
  generalize mdel m k = l at hnone
  induction l with
  | nil => simp [minsert]
  | cons e t ih =>
    rw [minsert]
    split
    · simp
    · rw [List.find?_cons_of_neg (by simpa using hnone e List.mem_cons_self)]
      exact ih fun f hf => hnone f (List.mem_cons_of_mem _ hf)

/-- The launch of a slot after it has been replaced. -/
theorem launchOf_putLaunch (h : Hub) (k : Nat) (la : Launch) : launchOf (putLaunch h k la) k = some la :=
  congrArg (Option.map fun e : Nat × Launch => e.2) (find_minsert_mdel h.tables.launches k la)

section Place
variable {s : State} {c : Cond} {s1 s2 : Opd} {g : Args} {la : Launch}

/-- When nothing is held for an actor, a change of its placement releases nothing: at most the tables of the launch are written. -/
theorem releaseMail_of_empty {t : State} {slot inst : Nat} (hla : launchOf t.hub slot = some la) (hpend : la.pending = [])
    (hinst : mget emptyInst la.insts inst = emptyInst) :
    ∃ la', la'.places = la.places ∧ (releaseMail t slot inst = t ∨ releaseMail t slot inst = { t with hub := putLaunch t.hub slot la' }) := by
  unfold releaseMail
  rw [hla]
  dsimp only
  rw [hpend, hinst]
  by_cases hnew : pst (mget 0 la.places inst) = 0
  · exact ⟨la, rfl, .inl (if_pos hnew)⟩
  · rw [if_neg hnew]
    by_cases hswapped : pst (mget 0 la.places inst) = 2
    · refine ⟨{ la with pending := [] }, rfl, .inr ?_⟩
      simp only [hswapped, true_or, if_true]
      rfl
    · refine ⟨{ la with pending := [], insts := mset emptyInst la.insts inst emptyInst }, rfl, .inr ?_⟩
      simp only [hswapped, false_or, if_false]
      rfl

/-- The hub after a placement word has been written for an actor for which nothing is held. -/
theorem placeNow_of_empty {t : State} {ad : BitVec 32} {w : Word} (hla : launchOf t.hub (adSlot ad) = some la) (hpend : la.pending = [])
    (hinst : mget emptyInst la.insts (adInst ad) = emptyInst) :
    ∃ h, placeNow (adSlot ad) (adInst ad) w t = { t with hub := h } ∧ h.noRoom = t.hub.noRoom ∧ placeWordOf h ad = w := by
  have hword {h : Hub} {la' : Launch} (hla' : la'.places = mset 0 la.places (adInst ad) w) : placeWordOf (putLaunch h (adSlot ad) la') ad = w := by
    rw [placeWordOf, launchOf_putLaunch]
    dsimp only
    rw [hla', mget_mset_same]
  obtain ⟨la', hplaces, hsame | hwrote⟩ := releaseMail_of_empty
    (t := { t with hub := putLaunch t.hub (adSlot ad) { la with places := mset 0 la.places (adInst ad) w } }) (launchOf_putLaunch ..) hpend hinst
  all_goals
    unfold placeNow
    rw [hla]
    dsimp only
  · rw [hsame]
    exact ⟨_, rfl, rfl, hword rfl⟩
  · rw [hwrote]
    exact ⟨_, rfl, rfl, hword hplaces⟩

theorem placeBody_ok (hreads : reads s .d (.place c s1 s2) g) (hslot : adSlot (g.a.val.setWidth 32) < 4096)
    (hbits : placeBad (g.b.val.setWidth 64) = false)
    (hcore : pst (g.b.val.setWidth 64) = 1 → inService s.hub (plCore (g.b.val.setWidth 64)) = true) :
    placeBody (.place c s1 s2) s s.here = .ok (s.here.take (shape (.place c s1 s2)) g,
      placeNow (adSlot (g.a.val.setWidth 32)) (adInst (g.a.val.setWidth 32)) (g.b.val.setWidth 64)) := by
  have hgood : (decide (adSlot (g.a.val.setWidth 32) < 4096) && !placeBad (g.b.val.setWidth 64)) = true := by
    rw [decide_eq_true hslot, hbits]
    rfl
  have hserves : pst (g.b.val.setWidth 64) ≠ 1 ∨ inService s.here.hub (plCore (g.b.val.setWidth 64)) = true := by
    by_cases h : pst (g.b.val.setWidth 64) = 1
    · exact .inr (hcore h)
    · exact .inl h
  rw [reads] at hreads
  simp only [placeBody, hreads, need_ok hgood, if_pos hserves, bind, Except.bind]

/-- PLACE writes its word (R240). -/
theorem place_next (hgoes : goes s (.place c s1 s2) = true) (hreads : reads s .d (.place c s1 s2) g) (hslot : adSlot (g.a.val.setWidth 32) < 4096)
    (hbits : placeBad (g.b.val.setWidth 64) = false)
    (hcore : pst (g.b.val.setWidth 64) = 1 → inService s.hub (plCore (g.b.val.setWidth 64)) = true)
    (hla : launchOf s.hub (adSlot (g.a.val.setWidth 32)) = some la) (hpend : la.pending = [])
    (hinst : mget emptyInst la.insts (adInst (g.a.val.setWidth 32)) = emptyInst) :
    ∃ t, exec (.place c s1 s2) s = .next t ∧ placeWordOf t.hub (g.a.val.setWidth 32) = g.b.val.setWidth 64 ∧
      (t.ctx s.cur).pc = (retire s.here).ctx.pc ∧ State.outsideAlike s t := by
  have hpace := take_pace s.here (shape (.place c s1 s2)) g
  have hla' : launchOf (s.retired (s.here.take (shape (.place c s1 s2)) g)).hub (adSlot (g.a.val.setWidth 32)) = some la := by
    rw [retired_hub_of_pace hpace, hla]
  obtain ⟨h, hplace, hroom, hword⟩ := placeNow_of_empty (w := g.b.val.setWidth 64) hla' hpend hinst
  refine ⟨_, issueG_of_pace hgoes (placeBody_ok hreads hslot hbits hcore) hpace (by rw [hplace]; exact hroom), ?_, ?_, ?_⟩
  all_goals rw [hplace]
  · exact hword
  · exact retired_pc_of_pace hpace
  · exact putLoc_outsideAlike _ _

end Place

end Sys2Proof.Machine
end

