-- ==== Sys2Proof/Proofs/HomeFrame.lean ====
section
/-! SUPPORT. What accesses to the homes of memory and writes of the hub registers leave (O43). -/
namespace Sys2Proof.Machine
open Sys2Proof

/-! ## What an access to a home leaves of the units (R351, R364) -/

/-- The units of a device: what the homes of memory do not reach. -/
def State.units (s : State) : Map Ctx × Map Core × Map Cluster × Map Domain := (s.ctxs, s.cores, s.clus, s.doms)

/-- What of the hub no access to a home changes: the writes without room, and where the logs lie. -/
def Hub.base (h : Hub) : List NoRoom × Map Nat := (h.noRoom, h.wbBase)

/-- What the state of a line leaves: the units, the poison of granules, and the hold. -/
def State.offLines (s : State) : (Map Ctx × Map Core × Map Cluster × Map Domain) × (List NoRoom × Map Nat) × Map GranMeta × List Held :=
  (s.units, s.hub.base, s.grans, s.hub.held)

/-- What the marks of lines and the counts of accesses leave: all of that, and the bytes of memory and of the host's cache. -/
def State.offMarks (s : State) : ((Map Ctx × Map Core × Map Cluster × Map Domain) × (List NoRoom × Map Nat) × Map GranMeta × List Held) ×
    List Host.Cell × Map (List Byte) := (s.offLines, s.mem, s.hostCache)

theorem offLines_of_offMarks {s t : State} (h : t.offMarks = s.offMarks) : t.offLines = s.offLines := congrArg Prod.fst h

section OffLines
variable (s : State)

theorem bump_offMarks (off lo n : Nat) : { s with hub := bump s.hub off lo n }.offMarks = s.offMarks := by
  unfold bump
  dsimp only
  split <;> rfl

theorem demand_offMarks (line : Nat) (read : Bool) : (demand s line read).offMarks = s.offMarks := by
  unfold demand
  dsimp only
  split
  · split
    · exact (bump_offMarks { s with hub := bump s.hub _ _ _ } ..).trans (bump_offMarks s ..)
    · exact bump_offMarks s ..
  · rfl

theorem evictLine_offMarks (line : Nat) : (evictLine s line).offMarks = s.offMarks := by
  unfold evictLine
  dsimp only
  split
  · rfl
  · have hcount : (if (lineInfo s line).pre = true then
        ({ s with hub := bump s.hub (0x3200 + 16 * sliceIndex (servedBy s (homeSect (64 * line)))) 32 32 } : State) else s).offMarks = s.offMarks := by
      split
      · exact bump_offMarks s ..
      · rfl
    split <;> exact hcount

theorem makeRoom_offMarks (line : Nat) : (makeRoom s line).offMarks = s.offMarks := by
  unfold makeRoom
  split
  · rfl
  · dsimp only
    split
    · exact evictLine_offMarks s _
    · rfl

theorem takeHostData_offLines (line : Nat) : (takeHostData s line).offLines = s.offLines := by
  unfold takeHostData
  split <;> rfl

theorem readLine_offLines (line : Nat) : (readLine s line).offLines = s.offLines := by
  unfold readLine
  dsimp only
  split
  · split
    · exact offLines_of_offMarks (makeRoom_offMarks s line)
    · split
      · exact (takeHostData_offLines ..).trans (offLines_of_offMarks (makeRoom_offMarks s line))
      · exact offLines_of_offMarks (makeRoom_offMarks s line)
  · rfl

theorem homeRead_offLines (a n : Nat) : (homeRead s a n).1.offLines = s.offLines := by
  unfold homeRead
  split
  · rfl
  · split
    · rfl
    · exact (readLine_offLines ..).trans (offLines_of_offMarks (demand_offMarks ..))

theorem ownLine_offLines (line : Nat) : (ownLine s line).offLines = s.offLines := by
  unfold ownLine
  dsimp only
  refine (takeHostData_offLines ..).trans ?_
  split
  · exact offLines_of_offMarks (makeRoom_offMarks s line)
  · split <;> exact offLines_of_offMarks (makeRoom_offMarks s line)

end OffLines

/-! ## Writes of the hub registers (R431) -/

/-- What a write of a hub register leaves: the units, and of the hub what no access to a home changes. -/
def State.offRegs (s : State) : (Map Ctx × Map Core × Map Cluster × Map Domain) × (List NoRoom × Map Nat) := (s.units, s.hub.base)

section OffRegs
variable (s : State)

theorem writeErrinj_offRegs (v : Word) (go : Bool) : (writeErrinj s v go).offRegs = s.offRegs := by
  unfold writeErrinj
  dsimp only
  split <;> rfl

theorem writeDatcfg_offRegs (d : Nat) (v : Word) : (writeDatcfg s d v).offRegs = s.offRegs := by
  unfold writeDatcfg
  dsimp only
  split <;> rfl

theorem writeCwcfg_offRegs (v : Word) : (writeCwcfg s v).offRegs = s.offRegs := by
  unfold writeCwcfg
  generalize anyEn s = b
  cases b <;> rfl

theorem setReg_base (h : Hub) (off : Nat) (v : Word) : (setReg h off v).base = h.base := rfl

theorem capState_base (h : Hub) : (capState h).base = h.base := by
  unfold capState
  dsimp only
  split <;> rfl

theorem writeSwpcfg_base (h : Hub) (v : Word) : (writeSwpcfg h v).base = h.base := by
  unfold writeSwpcfg
  split <;> rfl

theorem writeSealcfg_base (h : Hub) (v : Word) : (writeSealcfg h v).base = h.base := by
  unfold writeSealcfg
  dsimp only
  split <;> rfl

theorem writePwrctl_base (h : Hub) (v : Word) : (writePwrctl h v).base = h.base := by
  unfold writePwrctl
  dsimp only
  split
  · split <;> rfl
  · rfl
  · rfl

theorem offRegs_of_base {h : Hub} (hb : h.base = s.hub.base) : { s with hub := h }.offRegs = s.offRegs := congrArg (s.units, ·) hb

theorem regApply_offRegs (off : Nat) (v wo : Word) : (regApply s off v wo).offRegs = s.offRegs := by
  have hset (o : Nat) (w : Word) : { s with hub := setReg s.hub o w }.offRegs = s.offRegs := offRegs_of_base s (setReg_base ..)
  unfold regApply
  dsimp only
  split
  · exact hset ..
  split
  · exact offRegs_of_base s (writeSwpcfg_base ..)
  split
  · exact offRegs_of_base s ((capState_base _).trans (setReg_base ..))
  split
  · exact hset ..
  split
  · exact offRegs_of_base s (writeSealcfg_base ..)
  split
  · exact writeErrinj_offRegs ..
  split
  · exact writeDatcfg_offRegs ..
  split
  · exact writeCwcfg_offRegs ..
  split
  · exact offRegs_of_base s (writePwrctl_base ..)
  · exact hset ..

theorem regStore_offRegs (host : Bool) (off n : Nat) (v : Word) : (regStore s host off n v).offRegs = s.offRegs := by
  unfold regStore
  dsimp only
  split
  · rfl
  split
  · rfl
  · exact regApply_offRegs ..

end OffRegs

/-! ## A write at a home (R351, R404, R414) -/

section OffHome
variable (s : State)

theorem offRegs_of_offLines {s t : State} (h : t.offLines = s.offLines) : t.offRegs = s.offRegs := (congrArg (fun p => (p.1, p.2.1)) h :)

theorem spillEntry_offRegs (ch : Nat) : (spillEntry s ch).offRegs = s.offRegs := by
  unfold spillEntry
  dsimp only
  split
  · rfl
  · split <;> rfl

theorem wantSealOf_base (h : Hub) (d : BitVec 32) : (wantSealOf h d).base = h.base := by
  unfold wantSealOf
  split <;> rfl

theorem logGranule_offRegs (pa : Nat) (e : BitVec 32) : (logGranule s pa e).offRegs = s.offRegs := by
  unfold logGranule
  split
  · rfl
  · unfold logEntry
    dsimp only
    generalize ht : (if wbBuffer ≤ _ then spillEntry s (channelOf pa) else s) = t
    have hspilt : t.offRegs = s.offRegs := by
      rw [← ht]
      split
      · exact spillEntry_offRegs s _
      · rfl
    refine Eq.trans ?_ hspilt
    split
    · exact (congrArg (t.units, ·) (wantSealOf_base ..) :)
    · rfl

theorem directWrite_offRegs (a : Nat) (bs : List Byte) : (directWrite s a bs).offRegs = s.offRegs :=
  (congrArg (fun p => (p.1, p.2.1)) (ownLine_offLines { s with hub := { s.hub with held := dropHeld s.hub.held a bs.length } } (a / 64)) :)

theorem releaseAt_offRegs (line : Nat) (sig : BitVec 256) (atomic hub : Bool) : (releaseAt s line sig atomic hub).offRegs = s.offRegs := by
  unfold releaseAt
  dsimp only
  split
  · exact offRegs_of_offLines (offLines_of_offMarks (bump_offMarks s ..))
  · rfl

end OffHome

end Sys2Proof.Machine
end

