-- ==== Sys2Proof/Proofs/QuietWrites.lean ====
section
/-! SUPPORT. Writes of a context at a home, and what they leave of the units (O43). -/
namespace Sys2Proof.Machine
open Sys2Proof

/-! ## What a write at a home leaves of the units (R258, R351) -/

/-- A context without what an access of another can change: its wait, and the signature of its own writes. -/
def Ctx.steady (c : Ctx) : Ctx := { c with status := .dormant, sig := 0 }

/-- A core without its D-cache. -/
def Core.steady (k : Core) : Core := { k with dcache := [] }

/-- The units are as before but for waits, signatures and D-caches. -/
structure State.Quiet (s t : State) : Prop where
  ctx : ∀ k, (t.ctx k).steady = (s.ctx k).steady
  core : ∀ n, (coreAt t n).steady = (coreAt s n).steady
  clus : t.clus = s.clus
  doms : t.doms = s.doms

/-- The units are quiet, and every write had room. -/
structure State.Calm (s t : State) : Prop extends State.Quiet s t where
  base : t.hub.base = s.hub.base

theorem State.Quiet.refl (s : State) : State.Quiet s s := ⟨fun _ => rfl, fun _ => rfl, rfl, rfl⟩

theorem State.Quiet.trans {s t u : State} (h : State.Quiet s t) (k : State.Quiet t u) : State.Quiet s u :=
  ⟨fun n => (k.ctx n).trans (h.ctx n), fun n => (k.core n).trans (h.core n), k.clus.trans h.clus, k.doms.trans h.doms⟩

theorem State.Calm.trans {s t u : State} (h : State.Calm s t) (k : State.Calm t u) : State.Calm s u := ⟨h.toQuiet.trans k.toQuiet, k.base.trans h.base⟩

theorem State.Quiet.of_units {s t : State} (h : t.units = s.units) : State.Quiet s t where
  ctx n := (congrArg (fun u : Map Ctx × Map Core × Map Cluster × Map Domain => (mget emptyCtx u.1 n).steady) h :)
  core n := (congrArg (fun u : Map Ctx × Map Core × Map Cluster × Map Domain => (mget emptyCore u.2.1 n).steady) h :)
  clus := (congrArg (·.2.2.1) h :)
  doms := (congrArg (·.2.2.2) h :)

theorem State.Calm.of_offRegs {s t : State} (h : t.offRegs = s.offRegs) : State.Calm s t := ⟨.of_units (congrArg Prod.fst h), congrArg Prod.snd h⟩

/-- A context replaced by one that is as steady. -/
theorem putCtx_quiet {s : State} {k : Nat} {c : Ctx} (h : c.steady = (s.ctx k).steady) : State.Quiet s (putCtx s k c) where
  ctx n := by
    rw [putCtx_get]
    split
    · next hn => rw [hn, h]
    · rfl
  core _ := rfl
  clus := rfl
  doms := rfl

/-- A core replaced by one that is as steady. -/
theorem putCore_quiet {s : State} {n : Nat} {c : Core} (h : c.steady = (coreAt s n).steady) : State.Quiet s (putCore s n c) where
  ctx _ := rfl
  core m := by
    rw [putCore_get]
    split
    · next hm => rw [hm, h]
    · rfl
  clus := rfl
  doms := rfl

theorem wakeCtx_steady (hit : WaitaReq → Bool) (c : Ctx) : (wakeCtx hit c).steady = c.steady := by
  unfold wakeCtx
  split
  · split <;> rfl
  · rfl

theorem wakeLine_calm (s : State) (line : Nat) (rings : Bool) : State.Calm s (wakeLine s line rings) where
  ctx n := by
    have hmap : (wakeLine s line rings).ctx n = wakeCtx _ (s.ctx n) :=
      mget_map emptyCtx (fun _ => wakeCtx fun r => spaceOf r.va == 0 && r.pa / 64 == line) (fun _ => rfl) s.ctxs n
    rw [hmap, wakeCtx_steady]
  core _ := rfl
  clus := rfl
  doms := rfl
  base := by cases rings <;> rfl

theorem noteWrite_calm (s : State) (w : HWrite) : State.Calm s (noteWrite s w) := by
  unfold noteWrite
  dsimp only
  refine .trans (.of_offRegs ?_) (wakeLine_calm ..)
  have hdemand (p : Prop) [Decidable p] : (if p then s else demand s (w.pa / 64) false).offRegs = s.offRegs := by
    split
    · rfl
    · exact offRegs_of_offLines (offLines_of_offMarks (demand_offMarks ..))
  split
  · split
    · exact (releaseAt_offRegs ..).trans (hdemand _)
    · exact hdemand _
  · exact hdemand _

theorem afterWrite_calm (s : State) (w : HWrite) : State.Calm s (afterWrite s w) := by
  unfold afterWrite
  refine .trans (.of_offRegs ?_) (noteWrite_calm ..)
  split
  · rfl
  · dsimp only
    split <;> rfl

theorem enterHold_calm (s : State) (w : HWrite) : State.Calm s (enterHold s w) := by
  unfold enterHold
  refine .trans (.of_offRegs ?_) (noteWrite_calm ..)
  unfold wantHold
  dsimp only
  split <;> rfl

/-- A write that has room, and the units. -/
theorem writeThrough_calm (s : State) (w : HWrite) : State.Calm s (writeThrough s w) := by
  unfold writeThrough
  split
  · exact .of_offRegs (regStore_offRegs ..)
  split
  · exact .trans (.of_offRegs ((directWrite_offRegs ..).trans (logGranule_offRegs ..))) (afterWrite_calm ..)
  split
  · exact enterHold_calm ..
  split
  · exact .of_offRegs rfl
  · exact .trans (.of_offRegs (directWrite_offRegs ..)) (afterWrite_calm ..)

theorem hubPut_quiet (s : State) (w : HWrite) : State.Quiet s (hubPut s w) := by
  unfold hubPut
  split
  · exact .of_units rfl
  · exact (writeThrough_calm s w).toQuiet

/-- A write of the hub has room, or one more write has none. -/
theorem hubPut_noRoom (s : State) (w : HWrite) :
    (lacksRoom s w = none ∧ hubPut s w = writeThrough s w) ∨ (hubPut s w).hub.noRoom.length = s.hub.noRoom.length + 1 := by
  unfold hubPut
  cases lacksRoom s w with
  | none => exact .inl ⟨rfl, rfl⟩
  | some r => exact .inr (List.length_append ..)

/-! ## A record written through a translation (R234) -/

/-- The write of one 64-byte piece of a context. -/
def pieceWrite (cid : Nat) (rel : Option Scope) (page : Option (Nat × Nat)) (s : State) (key : Nat) (bs : List Byte) : HWrite :=
  { pa := key, bytes := bs, stamp := stampOf s.hub (coreAt s (coreOfCid cid)).late, rel := rel, sig := (ctxOf s cid).sig ||| sigBits key, pois := false
    mayHold := true, atomic := false, hub := false, by_ := some cid, page := page }

section PutG
variable (cid : Nat) (rel : Option Scope) (page : Option (Nat × Nat)) (s : State) (key : Nat) (bs : List Byte)

/-- What follows a write of a context: its core's copy of the line goes, and its signature grows. -/
def wrotePiece (cid key : Nat) (t : State) : State :=
  let k := coreAt t (coreOfCid cid)
  let u := putCore t (coreOfCid cid) { k with dcache := k.dcache.filter (fun d => d.line != key / 64) }
  putCtx u cid { u.ctx cid with sig := (u.ctx cid).sig ||| sigBits key }

theorem putG_eq : putG cid rel page s key bs = wrotePiece cid key (hubPut s (pieceWrite cid rel page s key bs)) := rfl

theorem wrotePiece_quiet (t : State) : State.Quiet t (wrotePiece cid key t) := by
  unfold wrotePiece
  exact .trans (putCore_quiet (by rfl)) (putCtx_quiet (by rfl))

theorem putG_quiet : State.Quiet s (putG cid rel page s key bs) := by
  rw [putG_eq]
  exact (hubPut_quiet ..).trans (wrotePiece_quiet ..)

theorem putG_hub : (putG cid rel page s key bs).hub = (hubPut s (pieceWrite cid rel page s key bs)).hub := by
  rw [putG_eq]
  rfl

end PutG

/-- Piece i of some bytes written at a pointer of a context. -/
def putPiece (cid : Nat) (rel : Option Scope) (ptr : Word) (bs : List Byte) (s : State) (i : Nat) : State :=
  let va := addrOf (ptrAdd ptr (BitVec.ofNat 64 (64 * i)))
  match (s.loc cid).tlbFind va with
  | some t =>
      let s1 := putG cid rel (some ((ctxOf s cid).pasid.toNat, va)) s (t.keyOf va) ((bs.drop (64 * i)).take 64)
      { s1 with hub := countClaim s1.hub (t.keyOf va) t.trk }
  | none => s

theorem putAt_eq {cid : Nat} {rel : Option Scope} {ptr : Word} {bs : List Byte} {s : State} (h : spaceOf ptr = 0) :
    putAt cid rel ptr bs s = (upto ((bs.length + 63) / 64)).foldl (putPiece cid rel ptr bs) s := if_pos h

theorem countClaim_offMarks (s : State) (pa : Nat) (trk : Bool) : { s with hub := countClaim s.hub pa trk }.offMarks = s.offMarks := by
  unfold countClaim
  split
  · exact bump_offMarks s ..
  · rfl

theorem putPiece_quiet (cid : Nat) (rel : Option Scope) (ptr : Word) (bs : List Byte) (s : State) (i : Nat) :
    State.Quiet s (putPiece cid rel ptr bs s i) := by
  unfold putPiece
  dsimp only
  split
  · exact (putG_quiet ..).trans (.of_units (congrArg Prod.fst (offLines_of_offMarks (countClaim_offMarks (putG ..) ..))))
  · exact .refl s

theorem foldl_quiet {β : Type} {f : State → β → State} (h : ∀ s b, State.Quiet s (f s b)) (bs : List β) (s : State) : State.Quiet s (bs.foldl f s) := by
  induction bs generalizing s with
  | nil => exact .refl s
  | cons b bs ih => exact (h s b).trans (ih _)

/-- The translation of an address does not depend on what is written. -/
theorem State.Quiet.tlbFind {s t : State} (h : State.Quiet s t) (cid va : Nat) : (t.loc cid).tlbFind va = (s.loc cid).tlbFind va := by
  have hutlb : (coreAt t (coreOfCid cid)).utlb = (coreAt s (coreOfCid cid)).utlb := (congrArg Core.utlb (h.core (coreOfCid cid)) :)
  have hpasid : (t.ctx cid).pasid = (s.ctx cid).pasid := (congrArg Ctx.pasid (h.ctx cid) :)
  have hstat : (t.ctx cid).stat = (s.ctx cid).stat := (congrArg Ctx.stat (h.ctx cid) :)
  change tlbPick ((coreAt t (coreOfCid cid)).utlb ++ (mget emptyCluster t.clus _).tlb ++ (mget emptyDomain t.doms _).tlb)
    (t.ctx cid).pasid.toNat (stPRIV (t.ctx cid).stat) va = _
  rw [hutlb, hpasid, hstat, h.clus, h.doms]
  rfl

end Sys2Proof.Machine
end

