-- ==== Sys2Proof/Proofs/ContextLoads.lean ====
section
/-! SUPPORT. CTXLD from an image without poison (O43). -/
namespace Sys2Proof.Machine
open Sys2Proof

/-! ## The count of saved firings (R305, R312) -/

theorem countSaved_ctx (s : State) (core : Nat) (kind : FiringKind) (lslot : Option Nat) (more : Bool) (k : Nat) :
    (countSaved s core kind lslot more).ctx k = s.ctx k := by
  unfold countSaved
  cases kind <;> (dsimp only; split <;> rfl)

theorem countSaved_base (s : State) (core : Nat) (kind : FiringKind) (lslot : Option Nat) (more : Bool) :
    (countSaved s core kind lslot more).hub.base = s.hub.base := by
  unfold countSaved
  cases kind <;> (dsimp only; split <;> rfl)

/-! ## CTXLD (R100, R235) -/

section RecordRead
variable (core : Nat) (s : State)

theorem refreshD_calm (key : Nat) (alloc : Bool) : State.Calm s (refreshD s core key alloc) := by
  unfold refreshD
  split
  · exact .of_offRegs rfl
  · dsimp only
    split
    · have hcore : State.Quiet s (putCore s core { coreAt s core with dcache := fillD s.tick (coreAt s core).dcache (lineAtHome s core key) }) :=
        putCore_quiet rfl
      exact .trans ⟨hcore, rfl⟩ (.of_offRegs rfl)
    · exact .of_offRegs rfl

theorem refreshD_grans (key : Nat) (alloc : Bool) : (refreshD s core key alloc).grans = s.grans ∧ (refreshD s core key alloc).hub = s.hub := by
  unfold refreshD
  split
  · exact ⟨rfl, rfl⟩
  · dsimp only
    split <;> exact ⟨rfl, rfl⟩

/-- A granule of a record that is read: the units, the poison of granules and the hold stay. -/
theorem recordRead_calm (k : Nat × Bool) :
    State.Calm s (recordRead core s k) ∧ (recordRead core s k).grans = s.grans ∧ (recordRead core s k).hub.held = s.hub.held := by
  have hoff := (offLines_of_offMarks (countClaim_offMarks (homeRead s k.1 64).1 k.1 k.2)).trans (homeRead_offLines s k.1 64)
  obtain ⟨hgrans, hhub⟩ := refreshD_grans core { (homeRead s k.1 64).1 with hub := countClaim (homeRead s k.1 64).1.hub k.1 k.2 } k.1 false
  exact ⟨.trans (.of_offRegs (offRegs_of_offLines hoff)) (refreshD_calm ..), hgrans.trans (congrArg (·.2.2.1) hoff :),
    (congrArg Hub.held hhub).trans (congrArg (·.2.2.2) hoff :)⟩

theorem foldl_recordRead_calm (ks : List (Nat × Bool)) : State.Calm s (ks.foldl (recordRead core) s) ∧
    (ks.foldl (recordRead core) s).grans = s.grans ∧ (ks.foldl (recordRead core) s).hub.held = s.hub.held := by
  induction ks generalizing s with
  | nil => exact ⟨.of_offRegs rfl, rfl, rfl⟩
  | cons k ks ih =>
    obtain ⟨hcalm, hgrans, hheld⟩ := recordRead_calm core s k
    obtain ⟨icalm, igrans, iheld⟩ := ih (recordRead core s k)
    exact ⟨hcalm.trans icalm, igrans.trans hgrans, iheld.trans hheld⟩

end RecordRead

/-- No granule is poisoned where none has metadata and nothing is held. -/
theorem granPois_of_clean {s : State} (hgrans : s.grans = []) (hheld : s.hub.held = []) (a : Nat) : granPois s a = false := by
  rw [granPois, hgrans, hheld]
  rfl

section Loaded
variable {by_ cid : Nat} {ks : List (Nat × Bool)} {bs : List Byte} {s : State}

/-- The contexts after a record without poison has been loaded. -/
theorem loadNow_ctx (hgrans : s.grans = []) (hheld : s.hub.held = []) :
    (∃ u side b, (loadNow by_ cid ks bs s).ctx cid = { loadCtx u cid bs side with preempt := b }) ∧
    (∀ k, k ≠ cid → ((loadNow by_ cid ks bs s).ctx k).stat = (s.ctx k).stat) ∧ (loadNow by_ cid ks bs s).hub.noRoom = s.hub.noRoom := by
  obtain ⟨hcalm, hg, hh⟩ := foldl_recordRead_calm (coreOfCid by_) s ks
  unfold loadNow
  dsimp only
  generalize ks.foldl (recordRead (coreOfCid by_)) s = t at hcalm hg hh ⊢
  have hclean : ¬ (ks.any fun k => granPois t k.1) = true := by
    rw [List.any_eq_true]
    rintro ⟨k, -, hk⟩
    rw [granPois_of_clean (hg.trans hgrans) (hh.trans hheld)] at hk
    exact Bool.false_ne_true hk
  rw [if_neg hclean]
  refine ⟨⟨_, _, _, (countSaved_ctx ..).trans ((putCtx_get ..).trans (if_pos rfl))⟩, fun k hk => ?_, ?_⟩
  · refine (congrArg Ctx.stat ((countSaved_ctx ..).trans ((putCtx_get ..).trans (if_neg hk))) :).trans ?_
    exact (congrArg Ctx.stat (hcalm.ctx k) :)
  · refine (congrArg Prod.fst (countSaved_base ..) :).trans ?_
    exact (congrArg Prod.fst hcalm.base :)

end Loaded

/-- A bit of the live mask of an image. -/
theorem getLsbD_liveMask (fw : Nat) {j : Nat} (hj : j < 9) : (BitVec.ofNat 9 (bits fw 27 9)).getLsbD j = fw.testBit (27 + j) := by
  rw [BitVec.getLsbD_ofNat, decide_eq_true hj, Bool.true_and, bits, Nat.testBit_mod_two_pow, decide_eq_true hj, Bool.true_and,
    Nat.testBit_div_two_pow, Nat.add_comm]

section LoadCtx
variable (s : State) (cid : Nat) (bs : List Byte) (side : Option Aside)

theorem loadCtx_a : (loadCtx s cid bs side).a = if (recDw bs 168 8).testBit (27 + 0) then BitVec.ofNat 128 (recDw bs 0 16) else 0 := by
  rw [← getLsbD_liveMask _ (by decide)]
  rfl

theorem loadCtx_p (q : Reg) :
    (loadCtx s cid bs side).p[q] = if (recDw bs 168 8).testBit (27 + (q.val + 1)) then BitVec.ofNat 64 (recDw bs (16 + 8 * q.val) 8) else 0 := by
  rw [← getLsbD_liveMask _ (by omega)]
  exact Vector.getElem_ofFn ..

end LoadCtx

section Ctxld
variable {s : State} {c : Cond} {s1 s2 : Opd} {g : Args} {cid : Nat}

theorem cidOk_ok {l : Loc} {w : Word} (hcid : w.toNat % 2 ^ 14 = cid) (hserves : inService l.hub (coreOfCid cid) = true) : cidOk l w = .ok cid := by
  have hfld : fld w 0 14 = cid := by simpa [fld, bits] using hcid
  rw [cidOk, hfld]
  exact if_pos hserves

theorem ctxldBody_ok (hreads : reads s .d (.ctxld c s1 s2) g) (hcid : (g.a.val.setWidth 64 : Word).toNat % 2 ^ 14 = cid)
    (hserves : inService s.hub (coreOfCid cid) = true) (hdormant : (s.ctx cid).status = .dormant)
    (hptr : recordPtr s.here (g.b.val.setWidth 64) .read = .ok ()) (hstq : s.here.ctx.stq = [])
    (hvalid : imageValid (bytesOf s s.here (g.b.val.setWidth 64) 8192) = true) :
    ctxldBody (.ctxld c s1 s2) s s.here = .ok (zeroed s.here (.ctxld c s1 s2) g true,
      loadNow s.cur cid (recordKeys s.here (g.b.val.setWidth 64)) (bytesOf s s.here (g.b.val.setWidth 64) 8192)) := by
  have hquiet : s.here.ctx.stq.isEmpty = true := by rw [hstq]; rfl
  have hfree : ¬ (ctxOf s cid).status ≠ .dormant := fun h => h hdormant
  rw [reads] at hreads
  simp only [ctxldBody, hreads, cidOk_ok hcid (show inService s.here.hub _ = true from hserves), if_neg hfree, hptr, if_pos hquiet, need_ok hvalid,
    bind, Except.bind]
  rfl

/-- CTXLD fills a dormant context from a valid image (R235). -/
theorem ctxld_next (hgoes : goes s (.ctxld c s1 s2) = true) (hreads : reads s .d (.ctxld c s1 s2) g)
    (hcid : (g.a.val.setWidth 64 : Word).toNat % 2 ^ 14 = cid) (hother : cid ≠ s.cur) (hserves : inService s.hub (coreOfCid cid) = true)
    (hdormant : (s.ctx cid).status = .dormant) (hptr : recordPtr s.here (g.b.val.setWidth 64) .read = .ok ()) (hstq : s.here.ctx.stq = [])
    {image : List Byte} (himage : bytesOf s s.here (g.b.val.setWidth 64) 8192 = image)
    (hvalid : imageValid image = true) (hgrans : s.grans = []) (hheld : s.hub.held = []) :
    ∃ t, exec (.ctxld c s1 s2) s = .next t ∧ fZ (t.ctx s.cur).stat = true ∧ (t.ctx cid).status = .issuing ∧
      (t.ctx cid).pc = BitVec.ofNat 64 (recDw image 104 8) ∧
      (t.ctx cid).a = (if (recDw image 168 8).testBit (27 + 0) then BitVec.ofNat 128 (recDw image 0 16) else 0) ∧
      ∀ q : Reg, (t.ctx cid).p[q] =
        if (recDw image 168 8).testBit (27 + (q.val + 1)) then BitVec.ofNat 64 (recDw image (16 + 8 * q.val) 8) else 0 := by
  subst himage
  have hbody := ctxldBody_ok hreads hcid hserves hdormant hptr hstq hvalid
  have hpace := zeroed_pace s.here (.ctxld c s1 s2) g true
  have hgrans' : (s.retired (zeroed s.here (.ctxld c s1 s2) g true)).grans = [] := (putLoc_grans ..).trans hgrans
  have hheld' : (s.retired (zeroed s.here (.ctxld c s1 s2) g true)).hub.held = [] := (congrArg Hub.held (retired_hub_of_pace hpace)).trans hheld
  obtain ⟨⟨u, side, b, hloaded⟩, hothers, hroom⟩ := loadNow_ctx (by_ := s.cur) (cid := cid) (ks := recordKeys s.here (g.b.val.setWidth 64))
    (bs := bytesOf s s.here (g.b.val.setWidth 64) 8192) hgrans' hheld'
  refine ⟨_, issueG_of_pace hgoes hbody hpace hroom, ?_, ?_, ?_, ?_, fun q => ?_⟩
  · rw [hothers _ hother.symm]
    exact zero_retired ..
  all_goals rw [hloaded]
  · rfl
  · rfl
  · exact loadCtx_a u cid _ side
  · exact loadCtx_p u cid _ side q

end Ctxld

end Sys2Proof.Machine
end

