-- ==== Sys2Proof/Proofs/HomeBytes.lean ====
section
/-! SUPPORT. A byte at its home after a write (O43). -/
namespace Sys2Proof.Machine
open Sys2Proof

/-! ## The hold, byte by byte (R352, R359, R414) -/

theorem heldByte_append (hs : List Held) (h : Held) (a : Nat) :
    heldByte (hs ++ [h]) a = match itemByte a h.item with | some b => some b | none => heldByte hs a := by
  unfold heldByte
  rw [List.foldl_append]
  rfl

/-- Held items that keep their byte of an address. -/
theorem heldByte_map {f : Held → Held} {a : Nat} (hf : ∀ h, itemByte a (f h).item = itemByte a h.item) (hs : List Held) :
    heldByte (hs.map f) a = heldByte hs a := by
  unfold heldByte
  rw [List.foldl_map]
  simp only [hf]

theorem heldByte_of_none {hs : List Held} {a : Nat} (h : ∀ x ∈ hs, itemByte a x.item = none) : heldByte hs a = none := by
  induction hs using List.reverseRecOn with
  | nil => rfl
  | append_singleton xs x ih =>
    rw [heldByte_append, h x (by simp)]
    exact ih fun y hy => h y (by simp [hy])

theorem find_cut (m : Map Byte) (a n x : Nat) :
    ((m.filter fun e => !(decide (a ≤ e.1) && decide (e.1 < a + n))).find? fun e => e.1 == x) =
      if a ≤ x ∧ x < a + n then none else m.find? fun e => e.1 == x := by
  rw [List.find?_filter]
  split
  · next h =>
    rw [List.find?_eq_none]
    intro e _
    simp only [Bool.not_eq_true', decide_eq_true_eq, beq_iff_eq, Bool.and_eq_false_iff, decide_eq_false_iff_not]
    omega
  · next h =>
    congr 1
    funext e
    by_cases he : e.1 = x
    · subst he
      simp only [beq_self_eq_true]
      simp only [Bool.not_eq_true', Bool.and_eq_false_iff, decide_eq_false_iff_not, and_true, decide_eq_true_eq]
      omega
    · simp [he]

/-- What a later write leaves of a held item. -/
theorem itemByte_cutHeld (a n x : Nat) (h : Held) : itemByte x (cutHeld a n h).item = if a ≤ x ∧ x < a + n then none else itemByte x h.item := by
  have hcut (m : Map Byte) : ((m.filter fun e => !(decide (a ≤ e.1) && decide (e.1 < a + n))).find? fun e => e.1 == x).map (·.2) =
      if a ≤ x ∧ x < a + n then none else (m.find? fun e => e.1 == x).map (·.2) := by
    rw [find_cut]
    split <;> rfl
  obtain ⟨stamp, item, by_, page⟩ := h
  cases item with
  | store pa m p w => exact hcut m
  | completion pa m v => exact hcut m
  | msi | frame | ack => exact (ite_self _).symm

theorem heldByte_dropHeld (hs : List Held) (a n x : Nat) : heldByte (dropHeld hs a n) x = if a ≤ x ∧ x < a + n then none else heldByte hs x := by
  split
  · next hx =>
    refine heldByte_of_none fun y hy => ?_
    obtain ⟨h, -, rfl⟩ := List.mem_map.mp hy
    rw [itemByte_cutHeld, if_pos hx]
  · next hx => exact heldByte_map (fun h => by rw [itemByte_cutHeld, if_neg hx]) hs

theorem heldByte_cutNewer {a n x : Nat} (hx : ¬ (a ≤ x ∧ x < a + n)) (hs : List Held) (e : BitVec 32) :
    heldByte (cutNewer hs e a n) x = heldByte hs x := by
  refine heldByte_map (fun h => ?_) hs
  split
  · rw [itemByte_cutHeld, if_neg hx]
  · rfl

/-- The byte that a store in the hold has for an address. -/
theorem find_cellsOf (a : Nat) (bs : List Byte) (x : Nat) :
    ((cellsOf a bs).find? fun e => e.1 == x).map (·.2) = if a ≤ x ∧ x < a + bs.length then some (bs.getD (x - a) 0) else none := by
  unfold cellsOf upto
  rw [List.find?_map]
  split
  · next h =>
    have hfind : (List.range bs.length).find? ((fun e : Nat × Byte => e.1 == x) ∘ fun i => (a + i, bs.getD i 0)) = some (x - a) := by
      rw [List.find?_range_eq_some]
      refine ⟨?_, List.mem_range.mpr (by omega), fun j hj => ?_⟩
      · simp only [Function.comp, beq_iff_eq]; omega
      · simp only [Function.comp, Bool.not_eq_true', beq_eq_false_iff_ne]; omega
    rw [hfind]
    rfl
  · next h =>
    have hfind : (List.range bs.length).find? ((fun e : Nat × Byte => e.1 == x) ∘ fun i => (a + i, bs.getD i 0)) = none := by
      rw [List.find?_range_eq_none]
      intro j hj
      simp only [Function.comp, Bool.not_eq_true', beq_eq_false_iff_ne]; omega
    rw [hfind]
    rfl

/-! ## A byte at its home after a write (R352, R364, R404) -/

theorem find_of_not_mhas {α : Type} {m : Map α} {k : Nat} (h : mhas m k = false) : m.find? (fun e => e.1 == k) = none := by
  induction m with
  | nil => rfl
  | cons e t ih =>
    obtain ⟨j, v⟩ := e
    simp only [mhas, Bool.or_eq_false_iff] at h
    obtain ⟨hj, ht⟩ := h
    rw [List.find?_cons_of_neg (by simpa using hj)]
    exact ih ht

/-- A byte that no host cache holds modified. -/
theorem homeByte_of_uncached {s : State} {a : Nat} (h : mhas s.hostCache (a / 64) = false) :
    homeByte s a = (heldByte s.hub.held a).getD (ramByte s.mem a) := by
  unfold homeByte openByte
  rw [find_of_not_mhas h]
  cases heldByte s.hub.held a <;> rfl

/-- What a byte at its home is read from. -/
def State.cells (s : State) : List Host.Cell × Map (List Byte) × List Held := (s.mem, s.hostCache, s.hub.held)

theorem cells_of_offMarks {s t : State} (h : t.offMarks = s.offMarks) : t.cells = s.cells :=
  (congrArg (fun p => (p.2.1, p.2.2, p.1.2.2.2)) h :)

theorem homeByte_of_cells {s t : State} (h : t.cells = s.cells) (a : Nat) : homeByte t a = homeByte s a := by
  have hmem : t.mem = s.mem := congrArg (·.1) h
  have hcache : t.hostCache = s.hostCache := congrArg (·.2.1) h
  have hheld : t.hub.held = s.hub.held := congrArg (·.2.2) h
  unfold homeByte openByte
  rw [hmem, hcache, hheld]

section Cells
variable (s : State)

theorem releaseAt_cells (line : Nat) (sig : BitVec 256) (atomic hub : Bool) : (releaseAt s line sig atomic hub).cells = s.cells := by
  unfold releaseAt
  dsimp only
  split
  · exact cells_of_offMarks (bump_offMarks s ..)
  · rfl

theorem noteWrite_cells (w : HWrite) : (noteWrite s w).cells = s.cells := by
  have hdemand (p : Prop) [Decidable p] : (if p then s else demand s (w.pa / 64) false).cells = s.cells := by
    split
    · rfl
    · exact cells_of_offMarks (demand_offMarks ..)
  unfold noteWrite
  dsimp only
  split
  · split
    · exact (releaseAt_cells ..).trans (hdemand _)
    · exact hdemand _
  · exact hdemand _

theorem afterWrite_cells {w : HWrite} (hpois : w.pois = false) : (afterWrite s w).cells = s.cells := by
  unfold afterWrite
  refine (noteWrite_cells ..).trans ?_
  rw [hpois]
  split <;> rfl

theorem enterHold_cells (w : HWrite) : (enterHold s w).cells = (s.mem, s.hostCache, cutNewer s.hub.held w.stamp w.pa w.bytes.length ++
    [{ stamp := w.stamp, item := .store w.pa (cellsOf w.pa w.bytes) w.pois (decide (64 ≤ w.bytes.length)), by_ := w.by_, page := w.page }]) := by
  unfold enterHold
  refine (noteWrite_cells ..).trans ?_
  exact congrArg (fun h => (s.mem, s.hostCache, h)) (wantHold_held ..)

theorem takeHostData_of_uncached {line : Nat} (h : mhas s.hostCache line = false) : takeHostData s line = s := by
  unfold takeHostData
  rw [find_of_not_mhas h]

theorem ownLine_cells {line : Nat} (h : mhas s.hostCache line = false) : (ownLine s line).cells = s.cells := by
  have hroom := cells_of_offMarks (makeRoom_offMarks s line)
  unfold ownLine
  dsimp only
  have htake {t : State} (ht : t.cells = s.cells) : (takeHostData t line).cells = s.cells := by
    have hcache : t.hostCache = s.hostCache := congrArg (·.2.1) ht
    rw [takeHostData_of_uncached t (hcache ▸ h), ht]
  refine htake ?_
  split
  · exact hroom
  · split <;> exact hroom

theorem directWrite_cells {a : Nat} (bs : List Byte) (h : mhas s.hostCache (a / 64) = false) :
    (directWrite s a bs).cells = (ramPut s.mem a bs, s.hostCache, dropHeld s.hub.held a bs.length) := by
  have hown := ownLine_cells { s with hub := { s.hub with held := dropHeld s.hub.held a bs.length } } (line := a / 64) h
  exact (congrArg (fun p => (ramPut p.1 a bs, p.2.1, p.2.2)) hown :)

end Cells

/-- The bytes that a windbreak entry takes in its region (R409, R410). -/
theorem length_wbBytes (w : WbEntry) : (wbBytes w).length ≤ 80 := by
  rw [wbBytes, List.length_append, length_leBytes, List.length_take]
  omega

/-- An entry that leaves its windbreak buffer lands in the region of its channel. -/
theorem spillEntry_ram (s : State) {pa a : Nat} (h : ¬ inLog s.hub pa a) :
    ramByte (spillEntry s (channelOf pa)).mem a = ramByte s.mem a ∧ (spillEntry s (channelOf pa)).hostCache = s.hostCache ∧
      (spillEntry s (channelOf pa)).hub.held = s.hub.held := by
  unfold spillEntry
  dsimp only
  split
  · exact ⟨rfl, rfl, rfl⟩
  · split
    · next w _ =>
      refine ⟨?_, rfl, rfl⟩
      rw [ramByte_ramPut, if_neg]
      have hlen := length_wbBytes w
      have hplace : w.seq % regionSize < regionSize := Nat.mod_lt _ (by decide)
      unfold inLog at h
      unfold wbPlace
      unfold regionSize at hplace ⊢
      dsimp only at h
      omega
    · exact ⟨rfl, rfl, rfl⟩

theorem wantSealOf_held (h : Hub) (d : BitVec 32) : (wantSealOf h d).held = h.held := by
  unfold wantSealOf
  split <;> rfl

/-- The log of a tracked write reaches no byte beside its region. -/
theorem logGranule_ram (s : State) {pa a : Nat} (e : BitVec 32) (h : ¬ inLog s.hub pa a) :
    ramByte (logGranule s pa e).mem a = ramByte s.mem a ∧ (logGranule s pa e).hostCache = s.hostCache ∧ (logGranule s pa e).hub.held = s.hub.held := by
  unfold logGranule
  split
  · exact ⟨rfl, rfl, rfl⟩
  · unfold logEntry
    dsimp only
    generalize ht : (if wbBuffer ≤ _ then spillEntry s (channelOf pa) else s) = t
    have hspilt : ramByte t.mem a = ramByte s.mem a ∧ t.hostCache = s.hostCache ∧ t.hub.held = s.hub.held := by
      rw [← ht]
      split
      · exact spillEntry_ram s h
      · exact ⟨rfl, rfl, rfl⟩
    obtain ⟨hram, hcache, hheld⟩ := hspilt
    refine ⟨hram, hcache, Eq.trans ?_ hheld⟩
    split
    · exact wantSealOf_held ..
    · rfl

theorem not_isHub_of_isRam {k : Nat} (h : isRam k = true) : ¬ isHub k = true := by
  have hlow : k < 2 ^ 39 := of_decide_eq_true h
  rw [isHub, Bool.and_eq_true, decide_eq_true_eq, hubBase]
  omega

/-- A byte of LPDDR-6 after a write of a context that has room (R359, R404, R414): what the write puts there, or what was there. -/
theorem homeByte_writeThrough {s : State} {w : HWrite} {a : Nat} (hram : isRam w.pa = true) (hpois : w.pois = false) (hmay : w.mayHold = true)
    (hown : mhas s.hostCache (w.pa / 64) = false) (hcache : mhas s.hostCache (a / 64) = false) (hlog : ¬ inLog s.hub w.pa a) :
    homeByte (writeThrough s w) a = wrote w.bytes w.pa (homeByte s) a ∧ (writeThrough s w).hostCache = s.hostCache := by
  unfold writeThrough wrote
  rw [if_pos hmay]
  rw [if_neg (not_isHub_of_isRam hram), homeByte_of_uncached hcache]
  split
  · obtain ⟨hr, hc, hh⟩ := logGranule_ram s w.stamp hlog
    have hcells := (afterWrite_cells (directWrite (logGranule s w.pa w.stamp) w.pa w.bytes) hpois).trans (directWrite_cells _ w.bytes (hc ▸ hown))
    have hsame : (afterWrite (directWrite (logGranule s w.pa w.stamp) w.pa w.bytes) w).hostCache = s.hostCache :=
      (congrArg (·.2.1) hcells :).trans hc
    refine ⟨?_, hsame⟩
    rw [homeByte_of_uncached (hsame ▸ hcache), show State.mem _ = _ from congrArg (·.1) hcells, show Hub.held _ = _ from congrArg (·.2.2) hcells,
      ramByte_ramPut, heldByte_dropHeld, hr, hh]
    split <;> rfl
  · have hcells := enterHold_cells s w
    have hsame : (enterHold s w).hostCache = s.hostCache := congrArg (·.2.1) hcells
    refine ⟨?_, hsame⟩
    rw [homeByte_of_uncached (hsame ▸ hcache), show State.mem _ = _ from congrArg (·.1) hcells, show Hub.held _ = _ from congrArg (·.2.2) hcells,
      heldByte_append]
    have hitem := find_cellsOf w.pa w.bytes a
    by_cases hin : w.pa ≤ a ∧ a < w.pa + w.bytes.length
    · rw [if_pos hin] at hitem ⊢
      rw [itemByte, hitem]
      rfl
    · rw [if_neg hin] at hitem ⊢
      rw [itemByte, hitem]
      dsimp only
      rw [heldByte_cutNewer hin]

end Sys2Proof.Machine
end

