-- ==== Sys2Proof/Proofs/RecordWindow.lean ====
section
/-! SUPPORT. A record written piece by piece into a window of memory (O43). -/
namespace Sys2Proof.Machine
open Sys2Proof

/-! ## A record written piece by piece into a window (R234, R411) -/

theorem inLog_of_base {h h' : Hub} (hb : h'.base = h.base) (pa a : Nat) : inLog h' pa a ↔ inLog h pa a := by
  have hlogs : h'.wbBase = h.wbBase := congrArg Prod.snd hb
  unfold inLog wbBaseOf
  rw [hlogs]

/-- The bytes of a piece of a record. -/
theorem getD_piece (bs : List Byte) (n i : Nat) (hi : i < 64) : ((bs.drop (64 * n)).take 64).getD i 0 = bs.getD (64 * n + i) 0 := by
  rw [List.getD_eq_getElem?_getD, List.getD_eq_getElem?_getD, List.getElem?_take, if_pos hi, List.getElem?_drop]

/-- A piece written to LPDDR-6 that no host cache holds modified and no log of it reaches: unless one more write lacks room, its bytes lie there, and the
other bytes of such places stay. -/
theorem putG_window {s : State} {cid key : Nat} {rel : Option Scope} {page : Option (Nat × Nat)} {bs : List Byte} (hram : isRam key = true)
    (hown : mhas s.hostCache (key / 64) = false) :
    (putG cid rel page s key bs).hub.noRoom.length = s.hub.noRoom.length + 1 ∨
    ((putG cid rel page s key bs).hub.base = s.hub.base ∧ ∀ a, mhas s.hostCache (a / 64) = false → ¬ inLog s.hub key a →
      homeByte (putG cid rel page s key bs) a = wrote bs key (homeByte s) a ∧ (putG cid rel page s key bs).hostCache = s.hostCache) := by
  rw [putG_eq]
  obtain ⟨-, hput⟩ | hfull := hubPut_noRoom s (pieceWrite cid rel page s key bs)
  · refine .inr ⟨?_, fun a hcache hlog => ?_⟩
    · exact (congrArg (fun t : State => t.hub.base) hput : _).trans (writeThrough_calm ..).base
    · obtain ⟨hbyte, hsame⟩ := homeByte_writeThrough (w := pieceWrite cid rel page s key bs) hram rfl rfl hown hcache hlog
      have hcells : (wrotePiece cid key (hubPut s (pieceWrite cid rel page s key bs))).cells = (writeThrough s (pieceWrite cid rel page s key bs)).cells :=
        (congrArg State.cells hput :)
      exact ⟨(homeByte_of_cells hcells a).trans hbyte, (congrArg (·.2.1) hcells : _).trans hsame⟩
  · exact .inl hfull

theorem putG_grows (s : State) (cid key : Nat) (rel : Option Scope) (page : Option (Nat × Nat)) (bs : List Byte) :
    s.hub.noRoom.length ≤ (putG cid rel page s key bs).hub.noRoom.length := by
  rw [putG_hub]
  obtain ⟨-, hput⟩ | hfull := hubPut_noRoom s (pieceWrite cid rel page s key bs)
  · have hbase := (writeThrough_calm s (pieceWrite cid rel page s key bs)).base
    rw [hput, show Hub.noRoom _ = s.hub.noRoom from congrArg Prod.fst hbase]
  · omega

theorem addrOf_ptrAdd_of_lt {p : Word} {k : Nat} (h : addrOf p + k < 2 ^ 60) : addrOf (ptrAdd p (BitVec.ofNat 64 k)) = addrOf p + k := by
  rw [addrOf_ptrAdd, BitVec.toNat_add, BitVec.toNat_ofNat]
  rw [addrOf_eq] at h ⊢
  omega

/-- The state after the first n pieces of a record: each piece that lacks room is noted, and without one the bytes lie in the window. -/
structure PiecesIn (s t : State) (key : Nat) (bs : List Byte) (n : Nat) : Prop where
  grows : s.hub.noRoom.length ≤ t.hub.noRoom.length
  base : t.hub.noRoom.length = s.hub.noRoom.length → t.hub.base = s.hub.base
  cache : t.hub.noRoom.length = s.hub.noRoom.length → t.hostCache = s.hostCache
  bytes : t.hub.noRoom.length = s.hub.noRoom.length → ∀ i < 64 * n, homeByte t (key + i) = bs.getD i 0

section Window
variable {s : State} {cid : Nat} {rel : Option Scope} {ptr : Word} {bs : List Byte} {key : Nat}

/-- Piece n of a record of 8 KiB goes to its place in the window. -/
theorem putPiece_window {t : State} {n : Nat} (hw : s.window (s.loc cid) ptr 8192 key) (hquiet : State.Quiet s t) (hn : n < 128) :
    ∃ page, (putPiece cid rel ptr bs t n).offMarks = (putG cid rel page t (key + 64 * n) ((bs.drop (64 * n)).take 64)).offMarks := by
  obtain ⟨-, hend, hbytes⟩ := hw
  obtain ⟨hkey, -⟩ := hbytes (64 * n) (by omega)
  obtain ⟨tl, hfind, htl⟩ := Option.map_eq_some_iff.mp hkey
  unfold putPiece
  dsimp only
  rw [addrOf_ptrAdd_of_lt (by omega), hquiet.tlbFind, hfind]
  dsimp only
  rw [htl]
  exact ⟨_, countClaim_offMarks ..⟩

/-- One piece more: it has room like those before it and lies in its place, or one more write lacks room. -/
theorem PiecesIn.next {t u : State} {n : Nat} {page : Option (Nat × Nat)} (hin : PiecesIn s t key bs n)
    (hw : s.window (s.loc cid) ptr 8192 key) (hbs : bs.length = 8192) (hn : n < 128)
    (hmarks : u.offMarks = (putG cid rel page t (key + 64 * n) ((bs.drop (64 * n)).take 64)).offMarks) : PiecesIn s u key bs (n + 1) := by
  obtain ⟨hgrows, hbase, hcache, hbytes⟩ := hin
  obtain ⟨-, -, hwin⟩ := hw
  have hmore := putG_grows t cid (key + 64 * n) rel page ((bs.drop (64 * n)).take 64)
  have hroom : u.hub.noRoom = (putG cid rel page t (key + 64 * n) ((bs.drop (64 * n)).take 64)).hub.noRoom := (congrArg (·.1.2.1.1) hmarks :)
  rw [← hroom] at hmore
  by_cases heq : t.hub.noRoom.length = s.hub.noRoom.length
  · have hplain {i : Nat} (hi : i < 8192) : mhas t.hostCache ((key + i) / 64) = false ∧ ¬ inLog t.hub (key + 64 * n) (key + i) := by
      obtain ⟨-, -, hfree, hlog⟩ := hwin i hi
      rw [hcache heq, inLog_of_base (hbase heq)]
      exact ⟨hfree, hlog (64 * n) (by omega)⟩
    obtain ⟨-, hram, -⟩ := hwin (64 * n) (by omega)
    obtain ⟨hown, hownLog⟩ := hplain (show 64 * n < 8192 by omega)
    obtain hlacks | ⟨hb, hput⟩ := putG_window (cid := cid) (rel := rel) (page := page) (bs := (bs.drop (64 * n)).take 64) hram hown
    · rw [← hroom] at hlacks
      exact ⟨by omega, fun hu => absurd hu (by omega), fun hu => absurd hu (by omega), fun hu => absurd hu (by omega)⟩
    · refine ⟨by omega, fun _ => ?_, fun _ => ?_, fun _ i hi => ?_⟩
      · exact (congrArg (·.1.2.1) hmarks :).trans (hb.trans (hbase heq))
      · exact (congrArg (·.2.2) hmarks :).trans ((hput _ hown hownLog).2.trans (hcache heq))
      · obtain ⟨hfree, hlog⟩ := hplain (show i < 8192 by omega)
        rw [homeByte_of_cells (cells_of_offMarks hmarks), (hput _ hfree hlog).1, wrote, List.length_take, List.length_drop, hbs]
        split
        · next hpiece =>
          rw [getD_piece bs n _ (by omega)]
          congr 1
          omega
        · exact hbytes heq i (by omega)
  · exact ⟨by omega, fun hu => absurd hu (by omega), fun hu => absurd hu (by omega), fun hu => absurd hu (by omega)⟩

theorem putPieces_window (hw : s.window (s.loc cid) ptr 8192 key) (hbs : bs.length = 8192) {n : Nat} (hn : n ≤ 128) :
    PiecesIn s ((List.range n).foldl (putPiece cid rel ptr bs) s) key bs n := by
  induction n with
  | zero => exact ⟨Nat.le_refl _, fun _ => rfl, fun _ => rfl, fun _ i hi => absurd hi (by omega)⟩
  | succ n ih =>
    have hquiet : State.Quiet s ((List.range n).foldl (putPiece cid rel ptr bs) s) := foldl_quiet (putPiece_quiet cid rel ptr bs) _ s
    obtain ⟨page, hpiece⟩ := putPiece_window (rel := rel) (bs := bs) hw hquiet (show n < 128 by omega)
    rw [List.range_succ, List.foldl_append, List.foldl_cons, List.foldl_nil]
    exact (ih (by omega)).next hw hbs (by omega) hpiece

/-- A record of 8 KiB written into a window (R234): it lies there, if every piece has had room. -/
theorem putAt_window (hw : s.window (s.loc cid) ptr 8192 key) (hbs : bs.length = 8192) : PiecesIn s (putAt cid rel ptr bs s) key bs 128 := by
  rw [putAt_eq hw.1, hbs]
  exact putPieces_window hw hbs (Nat.le_refl _)

end Window

/-- A record written through a translation leaves the units quiet. -/
theorem putAt_quiet {cid : Nat} {rel : Option Scope} {ptr : Word} {bs : List Byte} (s : State) (h : spaceOf ptr = 0) :
    State.Quiet s (putAt cid rel ptr bs s) := by
  rw [putAt_eq h]
  exact foldl_quiet (putPiece_quiet cid rel ptr bs) _ s

end Sys2Proof.Machine
end

