-- ==== Sys2Proof/Proofs/ContextImage.lean ====
section
/-! SUPPORT. The fields of a context image in memory (O43). -/
namespace Sys2Proof.Machine
open Sys2Proof

/-! ## The fields of a context image (R100) -/

/-- The fields of an image: bytes and value. -/
def imageFields (c : Ctx) (live : BitVec 9) : List (Nat × Nat) :=
  (16, if live.getLsbD 0 then c.a.toNat else 0) :: (upto 8).map (fun i => (8, if live.getLsbD (i + 1) then (c.p.toList.getD i 0).toNat else 0)) ++
  [(8, c.stat.toNat), (8, c.cira.toNat), (4, c.cir.toNat), (4, c.ntgt.toNat), (8, c.pc.toNat), (8, c.btgt.toNat), (8, c.lbeg0.toNat),
   (8, c.lend0.toNat), (8, c.lcnt0.toNat), (8, c.lbeg1.toNat), (8, c.lend1.toNat), (8, c.lcnt1.toNat), (8, firingWord c live),
   (8, c.outbox.length + c.journal.length * 2 ^ 6 + c.dleft * 2 ^ 14 + c.prate * 2 ^ 26 + c.c0 * 2 ^ 32 + c.c1 * 2 ^ 37),
   (8, 1 + 2 ^ 8 + c.pasid.toNat * 2 ^ 9 + c.lslot.toNat * 2 ^ 29 + c.inst.toNat * 2 ^ 41)]

/-- The bytes of some fields, one after another. -/
def fieldBytes (fs : List (Nat × Nat)) : List Byte := fs.flatMap fun f => leBytes f.1 f.2

/-- Where a field starts. -/
def fieldAt (fs : List (Nat × Nat)) (k : Nat) : Nat := ((fs.map (·.1)).take k).sum

/-- The bytes of each field of an image. -/
def imageWidths : List Nat := [16, 8, 8, 8, 8, 8, 8, 8, 8, 8, 8, 4, 4, 8, 8, 8, 8, 8, 8, 8, 8, 8, 8, 8]

theorem imageFields_widths (c : Ctx) (live : BitVec 9) : (imageFields c live).map (·.1) = imageWidths := rfl

theorem imageBytes_eq (c : Ctx) (live : BitVec 9) : imageBytes c live = fieldBytes (imageFields c live) := by
  simp only [imageBytes, liveP, fieldBytes, imageFields, List.flatMap_append, List.flatMap_cons, List.flatMap_nil, List.flatMap_map, List.append_assoc,
    List.append_nil, List.cons_append]

theorem length_fieldBytes (fs : List (Nat × Nat)) : (fieldBytes fs).length = (fs.map (·.1)).sum := by
  induction fs with
  | nil => rfl
  | cons f fs ih => rw [fieldBytes, List.flatMap_cons, List.length_append, length_leBytes, List.map_cons, List.sum_cons, ← ih]; rfl

theorem leVal_leBytes (n v : Nat) : leVal (leBytes n v) = v % 2 ^ (8 * n) := by
  induction n generalizing v with
  | zero => rw [Nat.mul_zero, Nat.pow_zero, Nat.mod_one]; rfl
  | succ n ih =>
    rw [leBytes, leVal, ih, BitVec.toNat_ofNat, show 8 * (n + 1) = 8 + 8 * n by omega, Nat.pow_add, Nat.mod_mul]

/-- A field of some bytes reads as its value. -/
theorem recDw_fieldBytes (fs : List (Nat × Nat)) {k : Nat} {f : Nat × Nat} (h : fs[k]? = some f) : recDw (fieldBytes fs) (fieldAt fs k) f.1 = f.2 % 2 ^ (8 * f.1) := by
  obtain ⟨hk, hf⟩ := List.getElem?_eq_some_iff.mp h
  have hsplit : fieldBytes fs = fieldBytes (fs.take k) ++ (leBytes f.1 f.2 ++ fieldBytes (fs.drop (k + 1))) := by
    conv_lhs => rw [← List.take_append_drop k fs, List.drop_eq_getElem_cons hk, hf]
    simp only [fieldBytes, List.flatMap_append, List.flatMap_cons]
  have hat : fieldAt fs k = (fieldBytes (fs.take k)).length := by rw [fieldAt, length_fieldBytes, List.map_take]
  rw [recDw, hsplit, hat, List.drop_left, List.take_left' (length_leBytes ..), leVal_leBytes]

theorem length_imageBytes (c : Ctx) (live : BitVec 9) : (imageBytes c live).length = 192 := by
  rw [imageBytes_eq, length_fieldBytes, imageFields_widths]
  rfl

/-! ## The fields of a record in memory (R100, R304) -/

theorem length_padTo (n : Nat) (bs : List Byte) : (padTo n bs).length = n := by
  rw [padTo, List.length_take, List.length_append, List.length_replicate]
  omega

theorem length_recordBytes (c : Ctx) (live : BitVec 9) : (recordBytes c live).length = 8192 := length_padTo ..

/-- A record starts with the image. -/
theorem recordBytes_image (c : Ctx) (live : BitVec 9) : (recordBytes c live).take 192 = imageBytes c live := by
  have himage : padTo 192 (imageBytes c live) = imageBytes c live := by
    rw [padTo, List.take_left' (length_imageBytes c live)]
  rw [recordBytes, padTo, List.take_take, himage]
  simp only [List.append_assoc]
  exact List.take_left' (length_imageBytes c live)

theorem recDw_take {bs : List Byte} {m o n : Nat} (h : o + n ≤ m) : recDw (bs.take m) o n = recDw bs o n := by
  rw [recDw, recDw, List.drop_take, List.take_take, Nat.min_eq_left (by omega)]

/-- A little-endian field of bytes in memory. -/
theorem leVal_homeBytes {t : State} {key len : Nat} {bs : List Byte} (hlen : bs.length = len) (hbytes : ∀ i < len, homeByte t (key + i) = bs.getD i 0)
    {o n : Nat} (h : o + n ≤ len) : leVal ((List.range n).map fun j => homeByte t (key + o + j)) = recDw bs o n := by
  rw [recDw]
  congr 1
  refine List.ext_getElem (by simp; omega) fun i hi _ => ?_
  rw [List.length_map, List.length_range] at hi
  rw [List.getElem_map, List.getElem_range, List.getElem_take, List.getElem_drop, Nat.add_assoc, hbytes _ (by omega), List.getD_eq_getElem _ _ (by omega)]

section Record
variable {t : State} {key : Nat} {v : Ctx} {live : BitVec 9} (hbytes : ∀ i < 8192, homeByte t (key + i) = (recordBytes v live).getD i 0)
include hbytes

/-- A field of the image in memory. -/
theorem record_field {k o n x : Nat} (hf : (imageFields v live)[k]? = some (n, x)) (ho : (imageWidths.take k).sum = o) (h : o + n ≤ 192) :
    leVal ((List.range n).map fun j => homeByte t (key + o + j)) = x % 2 ^ (8 * n) := by
  rw [leVal_homeBytes (length_recordBytes v live) hbytes (by omega), ← recDw_take h, recordBytes_image, imageBytes_eq, ← ho,
    ← imageFields_widths v live]
  exact recDw_fieldBytes _ hf

theorem record_p (q : Reg) :
    leVal ((List.range 8).map fun j => homeByte t (key + (16 + 8 * q.val) + j)) = if live.getLsbD (q.val + 1) then v.p[q].toNat else 0 := by
  have hf : (imageFields v live)[1 + q.val]? = some (8, if live.getLsbD (q.val + 1) then (v.p.toList.getD q.val 0).toNat else 0) := by
    fin_cases q <;> rfl
  have ho : (imageWidths.take (1 + q.val)).sum = 16 + 8 * q.val := by
    fin_cases q <;> rfl
  have hp : v.p.toList.getD q.val 0 = v.p[q] := by simp [List.getD_eq_getElem?_getD]
  rw [record_field hbytes hf ho (by omega), hp]
  refine Nat.mod_eq_of_lt ?_
  split
  · exact BitVec.isLt _
  · decide

end Record

end Sys2Proof.Machine
end

