-- ==== Sys2Proof/Proofs/ContextSaves.lean ====
section
/-! SUPPORT. CTXSV (O43). -/
namespace Sys2Proof.Machine
open Sys2Proof

/-! ## What a save leaves (R234, R305) -/

theorem saved_firingWord (v : Ctx) (live : BitVec 9) : firingWord v live =
    v.ch0.toNat + 2 ^ 5 * v.pop0 + (match v.ch1 with | some n => 2 ^ 10 * n.toNat + 2 ^ 20 | none => 0) + 2 ^ 15 * v.pop1 +
      2 ^ 21 * v.produced + 2 ^ 27 * live.toNat + 2 ^ 36 * v.dl := by
  unfold firingWord
  cases v.ch1 <;> (dsimp only; omega)

theorem gateCore_keeps {γ : Type} (f : State → γ) (hf : ∀ s n k, f (putCore s n k) = f s) (c : Nat) (s : State) : f (gateCore c s) = f s := by
  unfold gateCore
  dsimp only
  split
  · exact hf ..
  · rfl

theorem leave_ctx (s : State) (cid k : Nat) : (leave s cid).ctx k = if k = cid then dormantOf (s.ctx cid) else s.ctx k :=
  (gateCore_keeps (fun s => s.ctx k) (fun _ _ _ => rfl) _ _).trans (putCtx_get ..)

theorem leave_hub (s : State) (cid : Nat) : (leave s cid).hub = s.hub := gateCore_keeps State.hub (fun _ _ _ => rfl) _ _

theorem leave_cells (s : State) (cid : Nat) : (leave s cid).cells = s.cells := gateCore_keeps State.cells (fun _ _ _ => rfl) _ _

theorem countSaved_cells (s : State) (core : Nat) (kind : FiringKind) (lslot : Option Nat) (more : Bool) :
    (countSaved s core kind lslot more).cells = s.cells := by
  unfold countSaved
  cases kind <;> (dsimp only; split <;> rfl)

theorem countSaved_asides (s : State) (core : Nat) (kind : FiringKind) (lslot : Option Nat) (more : Bool) :
    (countSaved s core kind lslot more).hub.tables.asides = s.hub.tables.asides := by
  unfold countSaved
  cases kind <;> (dsimp only; split <;> rfl)

section SaveNow
variable {by_ cid : Nat} {ptr : Word} {live : BitVec 9} {s : State}

/-- The contexts and what is kept beside the record, after a save. -/
theorem saveNow_ctx (hspace : spaceOf ptr = 0) :
    (saveNow by_ cid ptr live s).ctx cid = dormantOf (s.ctx cid) ∧
    (∀ k, k ≠ cid → ((saveNow by_ cid ptr live s).ctx k).stat = (s.ctx k).stat) ∧
    ∃ key, ((saveNow by_ cid ptr live s).hub.tables.asides.find? (fun x => x.1 == key)).map (·.2) = some (asideOf (coreOfCid cid) (s.ctx cid)) := by
  have hquiet := putAt_quiet (cid := by_) (rel := some .dev) (bs := recordBytes (ctxOf s cid) live) s hspace
  unfold saveNow
  dsimp only
  refine ⟨?_, fun k hk => ?_, ?_⟩
  · rw [countSaved_ctx, leave_ctx, if_pos rfl]
    exact (congrArg dormantOf (hquiet.ctx cid) :)
  · rw [countSaved_ctx, leave_ctx, if_neg hk]
    exact (congrArg Ctx.stat (hquiet.ctx k) :)
  · rw [countSaved_asides, leave_hub]
    exact ⟨_, congrArg (Option.map fun e : Nat × Aside => e.2) (find_minsert_mdel _ _ _)⟩

/-- What a save leaves in memory is the record, and it has room when the record has. -/
theorem saveNow_cells : (saveNow by_ cid ptr live s).cells = (putAt by_ (some .dev) ptr (recordBytes (s.ctx cid) live) s).cells ∧
    (saveNow by_ cid ptr live s).hub.noRoom = (putAt by_ (some .dev) ptr (recordBytes (s.ctx cid) live) s).hub.noRoom := by
  unfold saveNow
  dsimp only
  constructor
  · rw [countSaved_cells, leave_cells]
    rfl
  · refine (congrArg Prod.fst (countSaved_base ..) :).trans ?_
    rw [leave_hub]
    rfl

end SaveNow

/-! ## CTXSV (R100, R234) -/

/-- A retirement leaves the translations of the core. -/
theorem retire_utlb (l : Loc) : (retire l).core.utlb = l.core.utlb := by
  change (if l.next = .gone then l.core else l.countPair.core).utlb = _
  split
  · rfl
  · unfold Loc.countPair
    split <;> rfl

/-- PRIV is read from the bits of STAT that a mask covers. -/
theorem stPRIV_of_and {x y m : Word} (hm : m.extractLsb' 43 2 = BitVec.allOnes 2) (h : x &&& m = y &&& m) : stPRIV x = stPRIV y := by
  rw [stPRIV, ← fld_and x hm, h, fld_and y hm]
  rfl

section Retired
variable {s : State} {l : Loc} (hpace : l.pace = s.here.pace)
include hpace

/-- A retirement leaves the translations of its context. -/
theorem retired_tlbFind (hcore : l.core = s.here.core) (hclus : l.clus = s.here.clus) (hwakes : l.wakes = []) (va : Nat) :
    ((s.retired l).loc s.cur).tlbFind va = s.here.tlbFind va := by
  have hutlb : (coreAt (s.retired l) (coreOfCid s.cur)).utlb = s.here.core.utlb := by
    have hat := putLoc_core s (retire l) (coreOfCid s.cur)
    rw [if_pos (by rw [show (retire l).cid = s.cur from paced_cid (l := l) hpace])] at hat
    exact (congrArg Core.utlb hat : _).trans ((retire_utlb l).trans (congrArg Core.utlb hcore))
  have hctx := retired_ctx_of_pace hpace hwakes s.cur
  rw [if_pos rfl] at hctx
  have hlast := retire_lasting l
  have hpasid : (retire l).ctx.pasid = s.here.ctx.pasid := (congrArg Ctx.pasid hlast : _).trans (congrArg (fun l : Loc => l.ctx.pasid) hpace :)
  have hpriv : stPRIV (retire l).ctx.stat = stPRIV s.here.ctx.stat :=
    (stPRIV_of_and (by decide) (congrArg Ctx.stat hlast :)).trans (stPRIV_of_and (by decide) (congrArg (fun l : Loc => l.ctx.stat) hpace :))
  change tlbPick ((coreAt (s.retired l) (coreOfCid s.cur)).utlb ++ (mget emptyCluster (s.retired l).clus _).tlb ++
    (mget emptyDomain (s.retired l).doms _).tlb) ((s.retired l).ctx s.cur).pasid.toNat (stPRIV ((s.retired l).ctx s.cur).stat) va = _
  rw [hutlb, retired_clus_of_pace hpace hclus, retired_doms_of_pace hpace, hctx, hpasid, hpriv]
  rfl

end Retired

section Ctxsv
variable {s : State} {c : Cond} {s1 s2 : Opd} {live : BitVec 9} {g : Args} {cid : Nat}

theorem ctxsvBody_unsaved (hreads : reads s .d (.ctxsv c s1 s2 live) g) (hcid : (g.a.val.setWidth 64 : Word).toNat % 2 ^ 14 = cid)
    (hserves : inService s.hub (coreOfCid cid) = true) (hunsavable : savable (s.ctx cid).status = false) :
    ctxsvBody (.ctxsv c s1 s2 live) live s s.here = .ok (zeroed s.here (.ctxsv c s1 s2 live) g false, id) := by
  have hpark : (!savable (ctxOf s cid).status) = true := by rw [show savable (ctxOf s cid).status = false from hunsavable]; rfl
  rw [reads] at hreads
  simp only [ctxsvBody, hreads, cidOk_ok hcid (show inService s.here.hub _ = true from hserves), if_pos hpark, bind, Except.bind]
  rfl

/-- CTXSV of a context that is not in a park of R72 gives Z 0 (R234). -/
theorem ctxsv_unsaved (hgoes : goes s (.ctxsv c s1 s2 live) = true) (hreads : reads s .d (.ctxsv c s1 s2 live) g)
    (hcid : (g.a.val.setWidth 64 : Word).toNat % 2 ^ 14 = cid) (hserves : inService s.hub (coreOfCid cid) = true)
    (hunsavable : savable (s.ctx cid).status = false) :
    ∃ t, exec (.ctxsv c s1 s2 live) s = .next t ∧ ¬ fZ (t.ctx s.cur).stat = true ∧ t.mem = s.mem := by
  refine ⟨_, issueG_of_pace hgoes (ctxsvBody_unsaved hreads hcid hserves hunsavable) (zeroed_pace ..) rfl, ?_, putLoc_mem ..⟩
  rw [id, zero_retired]
  exact Bool.false_ne_true

theorem ctxsvBody_ok (hreads : reads s .d (.ctxsv c s1 s2 live) g) (hcid : (g.a.val.setWidth 64 : Word).toNat % 2 ^ 14 = cid)
    (hserves : inService s.hub (coreOfCid cid) = true) (hsavable : savable (s.ctx cid).status = true) (hcnt : (s.ctx cid).cnt = 0)
    (hdue : dueFault (s.ctx cid) (fun _ => true) = none) (hptr : recordPtr s.here (g.b.val.setWidth 64) .write = .ok ())
    (hready : relReady s.here .dev = true) :
    ctxsvBody (.ctxsv c s1 s2 live) live s s.here =
      .ok (zeroed s.here (.ctxsv c s1 s2 live) g true, saveNow s.cur cid (g.b.val.setWidth 64) live) := by
  have hpark : ¬ (!savable (ctxOf s cid).status) = true := by rw [show savable (ctxOf s cid).status = true from hsavable]; exact Bool.false_ne_true
  have hquiet : ¬ (ctxOf s cid).cnt ≠ 0 := fun h => h hcnt
  have hdue : dueFault (ctxOf s cid) (fun _ => true) = none := hdue
  rw [reads] at hreads
  simp only [ctxsvBody, hreads, cidOk_ok hcid (show inService s.here.hub _ = true from hserves), if_neg hpark, if_neg hquiet, hdue, hptr,
    if_pos hready, bind, Except.bind]
  rfl

/-- A window of a context is one of it still when an instruction has retired. -/
theorem window_retired {i : Instr} {z : Bool} {ptr : Word} {n key : Nat} (h : s.window s.here ptr n key) :
    (s.retired (zeroed s.here i g z)).window ((s.retired (zeroed s.here i g z)).loc s.cur) ptr n key := by
  have hpace := zeroed_pace s.here i g z
  obtain ⟨hspace, hend, hbytes⟩ := h
  refine ⟨hspace, hend, fun j hj => ?_⟩
  rw [retired_tlbFind hpace (zeroed_core ..) (zeroed_clus ..) (zeroed_wakes ..), retired_hub_of_pace hpace,
    show (s.retired (zeroed s.here i g z)).hostCache = s.hostCache from putLoc_hostCache ..]
  exact hbytes j hj

/-- The state after CTXSV has saved a context. -/
def saved (s : State) (i : Instr) (g : Args) (cid : Nat) (live : BitVec 9) : State :=
  saveNow s.cur cid (g.b.val.setWidth 64) live (s.retired (zeroed s.here i g true))

theorem spaceOf_of_recordPtr {l : Loc} {ptr : Word} {k : Acc} (h : recordPtr l ptr k = .ok ()) : spaceOf ptr = 0 := by
  unfold recordPtr at h
  split at h
  · cases h
  · next hbad => exact Decidable.not_not.mp fun hne => hbad (.inl hne)

/-- The contexts after CTXSV (R234): Z is set, the saved context is free, and what its record has no place for is kept. -/
theorem saved_ctx {i : Instr} (hother : cid ≠ s.cur) (hspace : spaceOf (g.b.val.setWidth 64) = 0) :
    fZ ((saved s i g cid live).ctx s.cur).stat = true ∧ (saved s i g cid live).ctx cid = dormantOf (s.ctx cid) ∧
    ∃ key, ((saved s i g cid live).hub.tables.asides.find? (fun x => x.1 == key)).map (·.2) = some (asideOf (coreOfCid cid) (s.ctx cid)) := by
  have hctx := retired_ctx_of_pace (zeroed_pace s.here i g true) (zeroed_wakes ..) cid
  rw [if_neg hother] at hctx
  obtain ⟨hfreed, hothers, hkept⟩ := saveNow_ctx (by_ := s.cur) (cid := cid) (live := live) (s := s.retired (zeroed s.here i g true)) hspace
  rw [hctx] at hfreed hkept
  refine ⟨?_, hfreed, hkept⟩
  rw [saved, hothers _ hother.symm]
  exact zero_retired ..

/-- The record of a context that CTXSV saves into a window, when every piece has had room (R304). -/
theorem saved_record {i : Instr} {key : Nat} (hother : cid ≠ s.cur) (hwin : s.window s.here (g.b.val.setWidth 64) 8192 key)
    (hroom : (saved s i g cid live).hub.noRoom = s.hub.noRoom) {j : Nat} (hj : j < 8192) :
    homeByte (saved s i g cid live) (key + j) = (recordBytes (s.ctx cid) live).getD j 0 := by
  have hctx := retired_ctx_of_pace (zeroed_pace s.here i g true) (zeroed_wakes ..) cid
  rw [if_neg hother] at hctx
  obtain ⟨hcells, hput⟩ := saveNow_cells (by_ := s.cur) (cid := cid) (ptr := g.b.val.setWidth 64) (live := live)
    (s := s.retired (zeroed s.here i g true))
  rw [hctx] at hcells hput
  obtain ⟨-, -, -, hbytes⟩ := putAt_window (rel := some .dev) (window_retired (i := i) (z := true) hwin) (length_recordBytes (s.ctx cid) live)
  rw [saved, homeByte_of_cells hcells]
  refine hbytes ?_ j hj
  rw [← hput, retired_hub_of_pace (zeroed_pace ..)]
  exact congrArg List.length hroom

theorem ctxsv_next (hgoes : goes s (.ctxsv c s1 s2 live) = true) (hreads : reads s .d (.ctxsv c s1 s2 live) g)
    (hcid : (g.a.val.setWidth 64 : Word).toNat % 2 ^ 14 = cid)
    (hserves : inService s.hub (coreOfCid cid) = true) (hsavable : savable (s.ctx cid).status = true) (hcnt : (s.ctx cid).cnt = 0)
    (hdue : dueFault (s.ctx cid) (fun _ => true) = none) (hptr : recordPtr s.here (g.b.val.setWidth 64) .write = .ok ())
    (hready : relReady s.here .dev = true) :
    exec (.ctxsv c s1 s2 live) s = .next (wholeIssue s (saved s (.ctxsv c s1 s2 live) g cid live)) :=
  issueWith_next (fin := fun s post t => wholeIssue s (post t)) hgoes (ctxsvBody_ok hreads hcid hserves hsavable hcnt hdue hptr hready)

end Ctxsv

end Sys2Proof.Machine
end

