-- ==== Sys2Proof/Proofs/MachineInstructions.lean ====
section
/-! SUPPORT. The instructions of the machine (O43). -/
namespace Sys2Proof.Machine
open Sys2Proof

/-- Settles O43: each instruction's body answers with its operands taken, and what it does beyond its view is said once for each. -/
theorem machineInstructionsAct : Obligations.MachineInstructionsAct := by
  unfold Obligations.MachineInstructionsAct
  intro s c s1 s2 ty live irv drop g cid i e l k tlbi sv ld sigh replay killf place a b page pasid zero image inMask noWaiter
  refine ⟨?_, ?_, ?_, ?_, ?_, ?_, ?_, ?_, ?_, ?_⟩
  · intro hgoes hreads hquiet hpref
    obtain ⟨hpage, hpasid⟩ := tlbi_names g
    exact tlbi_next hgoes hreads hpage hpasid hquiet hpref
  · intro hgoes hreads hcid hother hserves hsavable hcnt hdue hptr hready
    obtain ⟨hzero, hfreed, hkept⟩ := saved_ctx (i := sv) (live := live) hother (spaceOf_of_recordPtr hptr)
    have hexec := ctxsv_next hgoes hreads hcid hserves hsavable hcnt hdue hptr hready
    refine ⟨_, hexec, hzero, hfreed, hkept, fun hroom => ⟨hexec.trans (by rw [wholeIssue_made hroom]), fun key hwin => ?_⟩⟩
    intro v field
    have hbytes (j : Nat) (hj : j < 8192) := saved_record (i := sv) (live := live) hother hwin hroom hj
    have hfield {k o n x : Nat} (hf : (imageFields v live)[k]? = some (n, x)) (ho : (imageWidths.take k).sum = o) (h : o + n ≤ 192) :
        field o n = x % 2 ^ (8 * n) := record_field hbytes hf ho h
    have hword {k o : Nat} {x : Word} (hf : (imageFields v live)[k]? = some (8, x.toNat)) (ho : (imageWidths.take k).sum = o) (h : o + 8 ≤ 192) :
        field o 8 = x.toNat := (hfield hf ho h).trans (Nat.mod_eq_of_lt x.isLt)
    refine ⟨?_, record_p hbytes, hword (k := 9) rfl rfl (by decide), hword (k := 10) rfl rfl (by decide), ?_, ?_, hword (k := 13) rfl rfl (by decide),
      hword (k := 14) rfl rfl (by decide), hword (k := 15) rfl rfl (by decide), hword (k := 16) rfl rfl (by decide), hword (k := 17) rfl rfl (by decide),
      hword (k := 18) rfl rfl (by decide), hword (k := 19) rfl rfl (by decide), hword (k := 20) rfl rfl (by decide), ?_, ?_, ?_⟩
    · refine (hfield (k := 0) rfl rfl (by decide)).trans (Nat.mod_eq_of_lt ?_)
      split
      · exact BitVec.isLt _
      · decide
    · exact (hfield (k := 11) rfl rfl (by decide)).trans (Nat.mod_eq_of_lt (Nat.lt_trans (BitVec.isLt _) (by decide)))
    · exact (hfield (k := 12) rfl rfl (by decide)).trans (Nat.mod_eq_of_lt (BitVec.isLt _))
    · exact (hfield (k := 21) rfl rfl (by decide)).trans (congrArg (· % 2 ^ 64) (saved_firingWord v live))
    · refine (hfield (k := 22) rfl rfl (by decide)).trans (congrArg (· % 2 ^ 64) ?_)
      omega
    · have hpasid := v.pasid.isLt
      have hlslot := v.lslot.isLt
      have hinst := v.inst.isLt
      refine (hfield (k := 23) rfl rfl (by decide)).trans ((Nat.mod_eq_of_lt ?_).trans ?_) <;> omega
  · intro hgoes hreads hcid hserves hunsavable
    exact ctxsv_unsaved hgoes hreads hcid hserves hunsavable
  · intro hgoes hreads hcid hother hserves hdormant hptr hstq hvalid hgrans hheld
    exact ctxld_next hgoes hreads hcid hother hserves hdormant hptr hstq rfl hvalid hgrans hheld
  · intro hgoes hreads hvec hroom
    exact sigh_next hgoes hreads hvec hroom
  · intro hgoes hreads hstq hrstq hcam
    exact replay_none hgoes hreads hstq hrstq hcam
  · intro va ac hgoes hreads hstq hrstq hcam hreqs hother hwaits hstatus
    exact replay_fault hgoes hreads hstq hrstq hcam hreqs hother hwaits hstatus
  · intro hgoes hreads hstq hrstq hcam hreqs hother hwaits hstatus hleft
    exact replay_trap hgoes hreads hstq hrstq hcam hreqs hother hwaits hstatus hleft
  · intro va ac hgoes hreads hcam hreqs hother hwaits hstatus hirv
    exact killf_fault hgoes hreads hcam hreqs hother hwaits hstatus hirv
  · intro la hgoes hreads ad hslot hbits hcore hla hpend hinst
    have had : ad = g.a.val.setWidth 32 := BitVec.setWidth_setWidth_of_le _ (by decide)
    rw [had] at hslot hla hinst ⊢
    exact place_next hgoes hreads hslot hbits hcore hla hpend hinst

end Sys2Proof.Machine
end

