-- ==== Sys2Proof/Proofs/ScalarArithmetic.lean ====
section
/-! SUPPORT. Sums, products, quotients and bitwise results of the scalar instructions as exact integers and their low bits (O1, O2, O3). -/
namespace Sys2Proof.Machine
open Sys2Proof

/-! ## Low bits of exact results (R2, R7) -/

theorem wrapped_natCast (n x : Nat) : wrapped n x = x % 2 ^ n := lowBits_natCast x n

/-- An operand read signed differs from its bits by a multiple of 2^n. -/
theorem signed_modEq (n x : Nat) : signed n x ≡ ((x % 2 ^ n : Nat) : Int) [ZMOD (2 ^ n : Nat)] := by
  rw [Int.ModEq, signed_mod, Int.natCast_mod, Int.emod_emod]

theorem wrapped_of_modEq {n : Nat} {x y : Int} (h : x ≡ y [ZMOD (2 ^ n : Nat)]) : wrapped n x = wrapped n y := wrapped_congr n x y h

theorem wrapped_neg_one (n : Nat) : wrapped n (-1) = 2 ^ n - 1 := by
  have hpos : 0 < 2 ^ n := Nat.two_pow_pos n
  have h : wrapped n (-1) = wrapped n ((2 ^ n - 1 : Nat) : Int) := wrapped_of_modEq (by
    rw [Int.modEq_iff_dvd]
    exact ⟨1, by push_cast [Nat.one_le_two_pow]; ring⟩)
  rw [h, wrapped_natCast, Nat.mod_eq_of_lt (Nat.sub_lt hpos one_pos)]

theorem asInt_eq_number {n : Nat} (hn : 0 < n) (u : Bool) (x : Nat) : asInt u x n = number u n x := by
  rw [asInt, number, sextI_eq n x hn]

/-- An operand read as a number differs from its bits by a multiple of 2^n. -/
theorem number_modEq (u : Bool) (n x : Nat) : number u n x ≡ ((x % 2 ^ n : Nat) : Int) [ZMOD (2 ^ n : Nat)] := by
  cases u
  · exact signed_modEq n x
  · exact Int.ModEq.refl _

/-! ## Results with their flags (R148) -/

/-- The flags of an n-bit result do not depend on the bits above it. -/
theorem nz_mod {n : Nat} (hn : 0 < n) (r : Nat) : nz (r % 2 ^ n) n = nz r n := by
  have hsign : bit (r % 2 ^ n) (n - 1) = bit r (n - 1) := by
    obtain ⟨m, rfl⟩ := Nat.exists_eq_succ_of_ne_zero hn.ne'
    have h := Nat.mod_mul_right_div_self r (2 ^ m) 2
    rw [← Nat.pow_succ] at h
    simp only [bit, Nat.succ_sub_one, h, Nat.mod_mod]
  rw [nz, nz, hsign, Nat.mod_mod]

section Results
variable {n : Nat} (hn : 0 < n)
include hn

/-- A result given by its low bits, with N and Z from it. -/
theorem outN_eq_scalarOut {r : Nat} {x : Int} (h : r = wrapped n x) (c v : Option Bool) (u : Bool) :
    { outN (r, { nz r n with c := c, v := v }) with uns := u } = scalarOut n x c v u := by
  subst h
  rw [nz_eq n _ hn (wrapped_lt n x)]
  rfl

theorem outNZ_eq_scalarOut {r : Nat} {x : Int} (h : r % 2 ^ n = wrapped n x) (u : Bool) : { outNZ n r with uns := u } = scalarOut n x none none u := by
  rw [← outN_eq_scalarOut hn h none none u, nz_mod hn]
  rfl

/-! ## Sums and differences (R158, R164) -/

theorem addR_eq (a b k : Nat) (sat : Bool) : outN (addR n a b k sat) =
    scalarOut n (if sat then heldS n (signed n a + signed n b + k) else signed n a + signed n b + k)
      (some (decide (2 ^ n ≤ a % 2 ^ n + b % 2 ^ n + k))) (some (decide (heldS n (signed n a + signed n b + k) ≠ signed n a + signed n b + k))) false := by
  have hbits : (a % 2 ^ n + b % 2 ^ n + k) % 2 ^ n = wrapped n (signed n a + signed n b + k) := by
    rw [← wrapped_natCast, Nat.cast_add, Nat.cast_add]
    exact (wrapped_of_modEq (((signed_modEq n a).add (signed_modEq n b)).add_right _)).symm
  rw [← outN_eq_scalarOut hn rfl]
  cases sat <;> simp only [addR, sextI_eq _ _ hn, satS_eq, sOut_eq, lowBits_eq, hbits, if_true, Bool.false_eq_true, if_false, ge_iff_le] <;> rfl

theorem subR_eq (a b k : Nat) (sat : Bool) : outN (subR n a b k sat) =
    scalarOut n (if sat then heldS n (signed n a - signed n b - k) else signed n a - signed n b - k)
      (some (decide (b % 2 ^ n + k ≤ a % 2 ^ n))) (some (decide (heldS n (signed n a - signed n b - k) ≠ signed n a - signed n b - k))) false := by
  have hbits : wrapped n (((a % 2 ^ n : Nat) : Int) - (b % 2 ^ n : Nat) - k) = wrapped n (signed n a - signed n b - k) :=
    (wrapped_of_modEq (((signed_modEq n a).sub (signed_modEq n b)).sub_right _)).symm
  have hborrow : (((a % 2 ^ n : Nat) : Int) - (b % 2 ^ n : Nat) - k ≥ 0) = (b % 2 ^ n + k ≤ a % 2 ^ n) := propext (by omega)
  rw [← outN_eq_scalarOut hn rfl]
  cases sat <;> simp only [subR, sextI_eq _ _ hn, satS_eq, sOut_eq, lowBits_eq, hbits, hborrow, if_true, Bool.false_eq_true, if_false] <;> rfl

/-! ## Products and quotients (R159, R160) -/

theorem mulR_eq (a b : Nat) (sat : Bool) : outN (mulR n a b sat) =
    scalarOut n (if sat then heldS n (signed n a * signed n b) else signed n a * signed n b)
      (some (decide (heldS n (signed n a * signed n b) ≠ signed n a * signed n b)))
      (some (decide (heldS n (signed n a * signed n b) ≠ signed n a * signed n b))) false := by
  rw [← outN_eq_scalarOut hn rfl]
  cases sat <;> simp only [mulR, sextI_eq _ _ hn, satS_eq, sOut_eq, lowBits_eq, if_true, Bool.false_eq_true, if_false] <;> rfl

theorem mulhR_eq (u : Bool) (a b : Nat) : { outN (mulhR n u a b) with uns := u } =
    scalarOut n (Int.fdiv (number u n a * number u n b) (2 ^ n : Nat)) (some false) (some false) u := by
  rw [← outN_eq_scalarOut hn rfl, Int.fdiv_eq_ediv_of_nonneg _ (Int.natCast_nonneg _), mulhR, asInt_eq_number hn, asInt_eq_number hn]
  rfl

/-- A quotient or remainder with its two corners: a zero divisor, and the most negative number over -1. -/
theorem divR_eq (u rem : Bool) (a b : Nat) : { outN (divR n u rem a b) with uns := u } =
    (let x := number u n a
     let y := number u n b
     let past : Bool := !u && decide (x = -(2 ^ (n - 1) : Nat)) && decide (y = -1)
     scalarOut n (if y = 0 then -1 else if past then (if rem then 0 else x) else if rem then x.tmod y else x.tdiv y)
       (some false) (some (decide (y = 0) || past)) u) := by
  have hzero : wrapped n 0 = 0 := by simp [wrapped]
  dsimp only
  rw [← outN_eq_scalarOut hn rfl]
  simp only [divR, asInt_eq_number hn, lowBits_eq, apply_ite (wrapped n), hzero, wrapped_neg_one]

end Results

theorem carry_eq (st : Word) : carry st = if st.getLsbD 1 then 1 else 0 := by
  rw [carry, fC]
  cases st.getLsbD 1 <;> rfl

/-- Settles O1: the two adders of the model are the exact sum and the exact difference, held or cut to the width of the view. -/
theorem addAndSubtractResults : Obligations.AddAndSubtractResults := by
  unfold Obligations.AddAndSubtractResults
  intro v c d s1 s2 n
  have hn : 0 < n := lw_pos v
  refine ⟨computes_of (fun _ => rfl) fun e g => ?_, computes_of (fun _ => rfl) fun e g => ?_, computes_of (fun _ => rfl) fun e g => ?_,
    computes_of (fun _ => rfl) fun e g => ?_, computes_of (fun _ => rfl) fun e g => ?_, rfl⟩
  · simpa only [Nat.cast_zero, add_zero] using addR_eq hn g.a.val.toNat g.b.val.toNat 0 e.sat
  · rw [addR_eq hn, carry_eq]
    rfl
  · simpa only [Nat.cast_zero, add_zero, sub_zero] using subR_eq hn g.a.val.toNat g.b.val.toNat 0 e.sat
  · have hborrow : 1 - carry e.stat = if e.stat.getLsbD 1 then 0 else 1 := by
      rw [carry_eq]
      split <;> rfl
    rw [subR_eq hn, hborrow]
    rfl
  · simpa only [Nat.cast_zero, add_zero, sub_zero, Bool.false_eq_true, if_false] using subR_eq hn g.a.val.toNat g.b.val.toNat 0 false

/-- Settles O2: products and quotients of the operands as numbers, the remainder by the quotient rounded toward zero. -/
theorem multiplyAndDivideResults : Obligations.MultiplyAndDivideResults := by
  unfold Obligations.MultiplyAndDivideResults
  intro v c u d s1 s2 n past
  have hn : 0 < n := lw_pos v
  refine ⟨computes_of (fun _ => rfl) fun e g => mulR_eq hn .., computes_of (fun _ => rfl) fun e g => mulhR_eq hn ..,
    computes_of (fun _ => rfl) fun e g => divR_eq hn .., computes_of (fun _ => rfl) fun e g => ?_⟩
  rw [divR_eq hn]
  simp only [Int.tmod_def]
  rfl

/-- Settles O3: each bitwise result has N and Z from its low n bits. -/
theorem logicResults : Obligations.LogicResults := by
  unfold Obligations.LogicResults
  intro v c d s1 s2 n out
  have hout (q : Quad) : outNZ n q.toNat = out q := outNZ_eq_scalarOut (lw_pos v) (wrapped_natCast n q.toNat).symm false
  exact ⟨computes_of (fun _ => rfl) fun e g => hout _, computes_of (fun _ => rfl) fun e g => hout _, computes_of (fun _ => rfl) fun e g => hout _,
    computes_of (fun _ => rfl) fun e g => hout _, computes_of (fun _ => rfl) fun e g => hout _, rfl⟩

end Sys2Proof.Machine
end

