-- ==== Sys2Proof/Proofs/ShiftsAndFields.lean ====
section
/-! SUPPORT. Shifts, counts, minima and bit fields of the scalar instructions (O4, O5). -/
namespace Sys2Proof.Machine
open Sys2Proof

/-! ## Bits and signs (R2, R7) -/

theorem bit_eq_testBit (x i : Nat) : bit x i = x.testBit i := by
  rw [bit, Nat.testBit_eq_decide_div_mod_eq]
  rfl

/-- The sign bit of an operand says whether it is negative when it is read signed. -/
theorem signBit_eq {n : Nat} (hn : 0 < n) (x : Nat) : bit x (n - 1) = decide (signed n x < 0) := by
  have hflag := congrArg FlagUp.n (nz_eq n (x % 2 ^ n) hn (Nat.mod_lt _ (Nat.two_pow_pos n)) none none)
  have hbit : bit x (n - 1) = decide (2 ^ (n - 1) ≤ x % 2 ^ n) := by
    rw [nz_mod hn] at hflag
    exact Option.some.inj hflag
  have hlt : x % 2 ^ n < 2 ^ n := Nat.mod_lt _ (Nat.two_pow_pos n)
  rw [hbit, decide_eq_decide, signed]
  split <;> omega

/-- A signed operand lies in the range of its width. -/
theorem signed_range {n : Nat} (hn : 0 < n) (x : Nat) : -(2 ^ (n - 1) : Nat) ≤ signed n x ∧ signed n x < (2 ^ (n - 1) : Nat) := by
  have hlt : x % 2 ^ n < 2 ^ n := Nat.mod_lt _ (Nat.two_pow_pos n)
  have hhalf : 2 ^ n = 2 * 2 ^ (n - 1) := by rw [← Nat.pow_succ']; congr 1; omega
  unfold signed
  split <;> omega

theorem number_mod (u : Bool) (n x : Nat) : number u n (x % 2 ^ n) = number u n x := by
  simp only [number, signed, Nat.mod_mod]

/-- The low bits of an operand are those of the number that it stands for. -/
theorem wrapped_number (u : Bool) (n x : Nat) : wrapped n (number u n x) = x % 2 ^ n := by
  rw [wrapped_of_modEq (number_modEq u n x), wrapped_natCast, Nat.mod_mod]

theorem decide_and_eq_ite (p : Prop) [Decidable p] (b : Bool) : (decide p && b) = if p then b else false := by
  split
  · next h => rw [decide_eq_true h, Bool.true_and]
  · next h => rw [decide_eq_false h, Bool.false_and]

/-! ## Shifts (R162) -/

section Shifts
variable {n : Nat} (hn : 0 < n)
include hn

/-- A shift past the width leaves the range, or stays in it, as a shift by the width does. -/
theorem heldS_past_width (y : Int) {m : Nat} (h : n ≤ m) : heldS n (y * 2 ^ n) = heldS n (y * 2 ^ m) ∧
    (heldS n (y * 2 ^ n) ≠ y * 2 ^ n ↔ heldS n (y * 2 ^ m) ≠ y * 2 ^ m) := by
  have hhalf : (2 : Int) ^ n = 2 * (2 ^ (n - 1) : Nat) := by
    rw [← Nat.cast_ofNat, ← Nat.cast_pow, ← Nat.cast_mul, ← Nat.pow_succ']
    congr 3
    omega
  have hle : (2 : Int) ^ n ≤ 2 ^ m := pow_le_pow_right₀ (by decide) h
  have hpos : 0 < 2 ^ (n - 1) := Nat.two_pow_pos _
  obtain hy | rfl | hy := lt_trichotomy y 0
  · have hn1 : y * 2 ^ n ≤ -1 * 2 ^ n := mul_le_mul_of_nonneg_right (by omega) (by omega)
    have hm1 : y * 2 ^ m ≤ -1 * 2 ^ m := mul_le_mul_of_nonneg_right (by omega) (by omega)
    unfold heldS
    omega
  · simp
  · have hn1 : 1 * 2 ^ n ≤ y * 2 ^ n := mul_le_mul_of_nonneg_right (by omega) (by omega)
    have hm1 : 1 * 2 ^ m ≤ y * 2 ^ m := mul_le_mul_of_nonneg_right (by omega) (by omega)
    unfold heldS
    omega

theorem shlSat_eq (a m : Nat) : shlSat n a m = heldS n (signed n a * 2 ^ m) := by
  rw [shlSat, satS_eq, sextI_eq _ _ hn, Nat.cast_pow, Nat.cast_ofNat]
  rcases Nat.le_total m n with h | h
  · rw [Nat.min_eq_left h]
  · rw [Nat.min_eq_right h, (heldS_past_width hn _ h).1]

theorem shlOut_eq (a m : Nat) : shlOut n a m = decide (heldS n (signed n a * 2 ^ m) ≠ signed n a * 2 ^ m) := by
  rw [shlOut, sOut_eq, sextI_eq _ _ hn, Nat.cast_pow, Nat.cast_ofNat]
  rcases Nat.le_total m n with h | h
  · rw [Nat.min_eq_left h]
  · rw [Nat.min_eq_right h, decide_eq_decide]
    exact (heldS_past_width hn _ h).2

omit hn in
theorem shiftVal_shl (a m : Nat) : shiftVal .shl n a m = wrapped n (signed n a * 2 ^ m) := by
  rw [shiftVal]
  split
  · rw [← wrapped_natCast, Nat.cast_mul, Nat.cast_pow, Nat.cast_ofNat]
    exact wrapped_of_modEq ((signed_modEq n a).symm.mul_right _)
  · next h =>
    have hdvd : ((2 ^ n : Nat) : Int) ∣ signed n a * 2 ^ m := by
      rw [Nat.cast_pow]
      exact (pow_dvd_pow 2 (not_lt.mp h)).mul_left _
    rw [wrapped_of_modEq (Int.modEq_zero_iff_dvd.mpr hdvd)]
    simp [wrapped]

omit hn in
theorem shiftVal_shr (a m : Nat) : shiftVal .shr n a m = wrapped n ((a % 2 ^ n / 2 ^ m : Nat) : Int) := by
  have hlt : a % 2 ^ n < 2 ^ n := Nat.mod_lt _ (Nat.two_pow_pos n)
  rw [wrapped_natCast, Nat.mod_eq_of_lt ((Nat.div_le_self ..).trans_lt hlt), shiftVal]
  split
  · rfl
  · next h => exact (Nat.div_eq_of_lt (hlt.trans_le (Nat.pow_le_pow_right two_pos (not_lt.mp h)))).symm

/-- A signed operand shifted right past its width leaves its sign. -/
theorem signed_fdiv_past_width (a : Nat) {m : Nat} (h : n ≤ m) :
    Int.fdiv (signed n a) (2 ^ m) = if bit a (n - 1) then -1 else 0 := by
  obtain ⟨hlo, hhi⟩ := signed_range hn a
  have hle : (2 ^ (n - 1) : Nat) ≤ 2 ^ m := Nat.pow_le_pow_right two_pos (by omega)
  have hpow : (2 : Int) ^ m = (2 ^ m : Nat) := by norm_cast
  rw [hpow, Int.fdiv_eq_ediv_of_nonneg _ (Int.natCast_nonneg _), signBit_eq hn]
  by_cases hneg : signed n a < 0
  · have hunique := (Int.ediv_emod_unique (a := signed n a) (r := signed n a + (2 ^ m : Nat)) (q := -1)
      (Int.natCast_pos.mpr (Nat.two_pow_pos m))).mpr ⟨by omega, by omega, by omega⟩
    rw [if_pos (decide_eq_true hneg), hunique.1]
  · rw [if_neg (by simpa using hneg)]
    exact Int.ediv_eq_zero_of_lt (by omega) (by omega)

theorem shiftVal_sar (a m : Nat) : shiftVal .sar n a m = wrapped n (Int.fdiv (signed n a) (2 ^ m)) := by
  rw [shiftVal]
  split
  · rw [sextI_eq _ _ hn, lowBits_eq, Nat.cast_pow, Nat.cast_ofNat, Int.fdiv_eq_ediv_of_nonneg _ (by positivity)]
  · next h =>
    rw [signed_fdiv_past_width hn a (not_lt.mp h)]
    split
    · exact (wrapped_neg_one n).symm
    · simp [wrapped]

theorem shiftR_shl_val (a m : Nat) (sat : Bool) :
    (shiftR .shl n a m sat).1 = wrapped n (if sat then heldS n (signed n a * 2 ^ m) else signed n a * 2 ^ m) := by
  cases sat
  · exact shiftVal_shl a m
  · exact congrArg (wrapped n) (shlSat_eq hn a m)

theorem shiftR_shl_eq (a m : Nat) (sat : Bool) : outN (shiftR .shl n a m sat) =
    scalarOut n (if sat then heldS n (signed n a * 2 ^ m) else signed n a * 2 ^ m)
      (if m = 0 then none else some (if m ≤ n then a.testBit (n - m) else false))
      (if sat then some (decide (heldS n (signed n a * 2 ^ m) ≠ signed n a * 2 ^ m)) else none) false := by
  rw [← outN_eq_scalarOut hn (shiftR_shl_val hn a m sat), ← shlOut_eq hn, ← decide_and_eq_ite, ← bit_eq_testBit]
  cases sat <;> rfl

theorem shiftR_shr_eq (a m : Nat) : outN (shiftR .shr n a m false) =
    scalarOut n ((a % 2 ^ n / 2 ^ m : Nat) : Int) (if m = 0 then none else some (if m ≤ n then a.testBit (m - 1) else false)) none false := by
  rw [← outN_eq_scalarOut hn (shiftVal_shr a m), ← decide_and_eq_ite, ← bit_eq_testBit]
  rfl

theorem shiftR_sar_eq (a m : Nat) : outN (shiftR .sar n a m false) =
    scalarOut n (Int.fdiv (signed n a) (2 ^ m)) (if m = 0 then none else some (if m ≤ n then a.testBit (m - 1) else a.testBit (n - 1))) none
      false := by
  rw [← outN_eq_scalarOut hn (shiftVal_sar hn a m), ← bit_eq_testBit, ← bit_eq_testBit]
  rfl

theorem shiftR_rol_eq (a m : Nat) : outN (shiftR .rol n a m false) =
    (let r := a % 2 ^ n * 2 ^ (m % n) + a % 2 ^ n / 2 ^ (n - m % n)
     scalarOut n r (if m % n = 0 then none else some (r.testBit 0)) none false) := by
  have hlow (r : Nat) : r.testBit 0 = bit (r % 2 ^ n) 0 := by
    rw [bit_eq_testBit, Nat.testBit_mod_two_pow, decide_eq_true hn, Bool.true_and]
  dsimp only
  rw [← outN_eq_scalarOut hn (wrapped_natCast n _).symm, hlow]
  rfl

end Shifts

/-- Settles O4: a shift is a product with, or a floor quotient by, a power of two. -/
theorem shiftResults : Obligations.ShiftResults := by
  unfold Obligations.ShiftResults
  intro v c d s1 s2 n cOf
  have hn : 0 < n := lw_pos v
  exact ⟨computes_of (fun _ => rfl) fun e g => shiftR_shl_eq hn .., computes_of (fun _ => rfl) fun e g => shiftR_shr_eq hn ..,
    computes_of (fun _ => rfl) fun e g => shiftR_sar_eq hn .., computes_of (fun _ => rfl) fun e g => shiftR_rol_eq hn ..⟩

/-! ## Counts (R163) -/

theorem clzR_eq (n x : Nat) : clzR n x = ((List.range n).takeWhile (fun i => !x.testBit (n - 1 - i))).length := by
  induction n with
  | zero => rfl
  | succ n ih =>
    have hrest : ((fun i => !x.testBit (n + 1 - 1 - i)) ∘ Nat.succ) = fun i => !x.testBit (n - 1 - i) := by
      funext i
      simp only [Function.comp, Nat.succ_eq_add_one]
      congr 2
      omega
    rw [clzR, ih, bit_eq_testBit, List.range_succ_eq_map, List.takeWhile_cons, List.takeWhile_map, hrest]
    cases hx : x.testBit n <;> simp [hx, Nat.add_comm]

theorem testBit_succ_comp (x : Nat) : (fun i => x.testBit i) ∘ Nat.succ = fun i => (x / 2).testBit i := by
  funext i
  exact Nat.testBit_succ x i

theorem ctzR_eq (n x : Nat) : ctzR n x = ((List.range n).takeWhile (fun i => !x.testBit i)).length := by
  induction n generalizing x with
  | zero => rfl
  | succ n ih =>
    have hrest : (fun i => !x.testBit i) ∘ Nat.succ = fun i => !(x / 2).testBit i := congrArg (not ∘ ·) (testBit_succ_comp x)
    rw [ctzR, ih, List.range_succ_eq_map, List.takeWhile_cons, List.takeWhile_map, hrest, Nat.testBit_zero]
    rcases Nat.mod_two_eq_zero_or_one x with hx | hx <;> simp [hx, Nat.add_comm]

theorem popcR_eq (n x : Nat) : popcR n x = ((List.range n).filter (fun i => x.testBit i)).length := by
  induction n generalizing x with
  | zero => rfl
  | succ n ih =>
    rw [popcR, ih, List.range_succ_eq_map, List.filter_cons, List.filter_map, testBit_succ_comp, Nat.testBit_zero]
    rcases Nat.mod_two_eq_zero_or_one x with hx | hx <;> simp [hx, Nat.add_comm]

/-! ## Minima and bit fields (R164, R165) -/

/-- MIN and MAX choose the operand that stands for the lesser, or the greater, number. -/
theorem number_minR {n : Nat} (hn : 0 < n) (u mx : Bool) (a b : Nat) :
    number u n (minR n u mx a b) = if mx then max (number u n a) (number u n b) else min (number u n a) (number u n b) := by
  simp only [minR, asInt_eq_number hn]
  by_cases h : number u n a < number u n b
  · cases mx <;> simp [h, h.le]
  · cases mx <;> simp [h, not_lt.mp h]

/-- The low bits of the minimum or maximum. -/
theorem minR_mod {n : Nat} (hn : 0 < n) (u mx : Bool) (a b : Nat) : minR n u mx a b % 2 ^ n =
    wrapped n (if mx then max (number u n a) (number u n b) else min (number u n a) (number u n b)) := by
  rw [← number_minR hn, wrapped_number]

/-- A number with a field replaced, from the parts above, in and below the field. -/
theorem insR_eq (d a len pos : Nat) :
    insR d a len pos = d / (2 ^ pos * 2 ^ len) * (2 ^ pos * 2 ^ len) + a % 2 ^ len * 2 ^ pos + d % 2 ^ pos := by
  have hlow := Nat.div_add_mod d (2 ^ pos)
  have hmid := Nat.div_add_mod (d / 2 ^ pos) (2 ^ len)
  rw [Nat.div_div_eq_div_mul] at hmid
  have hparts : d = d / (2 ^ pos * 2 ^ len) * (2 ^ pos * 2 ^ len) + d / 2 ^ pos % 2 ^ len * 2 ^ pos + d % 2 ^ pos := by
    calc d = 2 ^ pos * (2 ^ len * (d / (2 ^ pos * 2 ^ len)) + d / 2 ^ pos % 2 ^ len) + d % 2 ^ pos := by rw [hmid, hlow]
      _ = _ := by ring
  unfold insR bits
  omega

/-- A field of an operand, extended as its entry says. -/
theorem extField_mod {n : Nat} (sgn : Bool) (a pos : Nat) {len : Nat} (hlen : 0 < len) :
    (if sgn then lowBits (sextI (bits a pos len) len) n else bits a pos len) % 2 ^ n = wrapped n (number (!sgn) len (a / 2 ^ pos)) := by
  rw [← number_mod, bits]
  cases sgn
  · rw [if_neg Bool.false_ne_true, ← wrapped_natCast]
    exact congrArg (fun y : Nat => wrapped n (y : Int)) (Nat.mod_mod ..).symm
  · rw [if_pos rfl, sextI_eq _ _ hlen, lowBits_eq, Nat.mod_eq_of_lt (wrapped_lt ..)]
    rfl

/-- Settles O5: counts by the bits that they pass, minima by the numbers that the operands stand for, fields by their parts. -/
theorem countSelectAndFieldResults : Obligations.CountSelectAndFieldResults := by
  unfold Obligations.CountSelectAndFieldResults
  intro v c u d s1 s2 k len pos n zf count ones
  have hn : 0 < n := lw_pos v
  refine ⟨computes_of (fun _ => rfl) fun e g => ?_, computes_of (fun _ => rfl) fun e g => ?_, computes_of (fun _ => rfl) fun e g => ?_,
    computes_of (fun _ => rfl) fun e g => outNZ_eq_scalarOut hn (minR_mod hn u false ..) u,
    computes_of (fun _ => rfl) fun e g => outNZ_eq_scalarOut hn (minR_mod hn u true ..) u, computes_of (fun _ => rfl) fun e g => rfl,
    computes_of (fun _ => rfl) fun e g => outNZ_eq_scalarOut hn (extField_mod u _ _ (Nat.succ_pos _)) false,
    computes_of (fun _ => rfl) fun e g => outNZ_eq_scalarOut hn ?_ false⟩
  · rw [clzR_eq]
    rfl
  · rw [ctzR_eq]
    rfl
  · rw [popcR_eq]
    rfl
  · rw [insR_eq, wrapped_natCast]

end Sys2Proof.Machine
end

