-- ==== Sys2Proof/Proofs/VectorArithmetic.lean ====
section
/-! SUPPORT. Lane operations of the vector integer instructions (O7). -/
namespace Sys2Proof.Machine
open Sys2Proof

/-! ## Lanes given by exact results (R76, R166) -/

/-- Lanes of the model that are the low bits of exact results. -/
theorem outQ_ofLanes {w : Nat} {f : Nat → Nat} {x : Nat → Int} (h : ∀ i, f i % 2 ^ w = wrapped w (x i)) : outQ (ofLanes w f) = lanesOut w x := by
  rw [ofLanes_eq_lanesOut h]
  rfl

theorem wrapped_mod (n : Nat) (x : Int) : wrapped n x % 2 ^ n = wrapped n x := Nat.mod_eq_of_lt (wrapped_lt n x)

section Lanes
variable {v : View} {g : Args}

theorem lanes2_eq_lanesOut {f : Nat → Nat → Nat → Nat} (x : Nat → Nat → Int)
    (h : ∀ a b, f (View.lw v) a b % 2 ^ View.lw v = wrapped (View.lw v) (x a b)) :
    lanes2 v g f = lanesOut (View.lw v) (fun i => x (laneAt (View.lw v) g.a i) (laneAt (View.lw v) g.b i)) := outQ_ofLanes fun _ => h ..

theorem lanes1_eq_lanesOut {f : Nat → Nat → Nat} (x : Nat → Int) (h : ∀ a, f (View.lw v) a % 2 ^ View.lw v = wrapped (View.lw v) (x a)) :
    lanes1 v g f = lanesOut (View.lw v) (fun i => x (laneAt (View.lw v) g.a i)) := outQ_ofLanes fun _ => h ..

/-- An operation on the numbers that two lanes stand for. -/
theorem lanes2_eq_eachLane {f : Nat → Nat → Nat → Nat} {x : Int → Int → Int} (u : Bool)
    (h : ∀ a b, f (View.lw v) a b % 2 ^ View.lw v = wrapped (View.lw v) (x (number u (View.lw v) a) (number u (View.lw v) b))) :
    lanes2 v g f = eachLane v u g x := outQ_ofLanes fun _ => h ..

end Lanes

/-! ## One lane (R35, R162, R167) -/

theorem narrowS_mod (sat : Bool) (n : Nat) (x : Int) : narrowS sat n x % 2 ^ n = wrapped n (if sat then heldS n x else x) := by
  rw [narrowS, satS_eq]
  cases sat <;> exact wrapped_mod ..

theorem satLane_mod (u : Bool) (n : Nat) (x : Int) : satLane u n x % 2 ^ n = wrapped n (if u then heldZ n x else heldS n x) := by
  rw [satLane, satS_eq, satZ_eq]
  cases u <;> exact wrapped_mod ..

theorem laneAt_lt (w : Nat) (x : Src) (i : Nat) : laneAt w x i < 2 ^ w := Nat.mod_lt _ (Nat.two_pow_pos w)

/-- Settles O7: each lane operation is the low bits of the exact result that the statement names. -/
theorem vectorArithmeticResults : Obligations.VectorArithmeticResults := by
  unfold Obligations.VectorArithmeticResults
  intro v c u d s1 s2 n sat held by_
  have hn : 0 < n := lw_pos v
  have hs (x : Nat) : sextI x n = signed n x := sextI_eq n x hn
  have hnarrow (e : Env) {x y : Int} (h : x = y) : narrowS e.sat n x % 2 ^ n = wrapped n (sat e y) := h ▸ narrowS_mod e.sat n x
  have hhold {x y : Int} (h : x = y) : satLane u n x % 2 ^ n = wrapped n (held y) := h ▸ satLane_mod u n x
  have hnum (x : Nat) : asInt u x n = number u n x := asInt_eq_number hn u x
  refine ⟨?_, ?_, ?_, ?_, ?_, ?_, ?_, ?_, ?_, ?_, ?_, ?_, ?_, ?_, ?_, ?_, ?_⟩ <;> refine computes_of (fun _ => rfl) fun e g => ?_
  · exact lanes2_eq_eachLane false fun a b => hnarrow e (congrArg₂ (· + ·) (hs a) (hs b))
  · exact lanes2_eq_eachLane false fun a b => hnarrow e (congrArg₂ (· - ·) (hs a) (hs b))
  · exact lanes2_eq_eachLane u fun a b => hhold (congrArg₂ (· + ·) (hnum a) (hnum b))
  · exact lanes2_eq_eachLane u fun a b => hhold (congrArg₂ (· - ·) (hnum a) (hnum b))
  · exact lanes2_eq_eachLane false fun a b => hnarrow e (congrArg₂ (· * ·) (hs a) (hs b))
  · refine lanes2_eq_eachLane u fun a b => ?_
    rw [hnum, hnum, lowBits_eq, wrapped_mod, Int.fdiv_eq_ediv_of_nonneg _ (Int.natCast_nonneg _)]
  · exact outQ_ofLanes fun i => hnarrow e (by rw [hs, hs, hs]; rfl)
  · exact lanes2_eq_eachLane u fun a b => minR_mod hn u false a b
  · exact lanes2_eq_eachLane u fun a b => minR_mod hn u true a b
  · exact lanes1_eq_lanesOut (fun a => sat e (max (signed n a) (-signed n a))) fun a => hnarrow e (by rw [hs]; omega)
  · exact lanes1_eq_lanesOut (fun a => sat e (-signed n a)) fun a => hnarrow e (by rw [hs])
  · rfl
  · rfl
  · rfl
  · exact lanes2_eq_lanesOut (fun a m => sat e (signed n a * 2 ^ m)) fun a m =>
      (congrArg (· % 2 ^ n) (shiftR_shl_val hn a m e.sat)).trans (wrapped_mod ..)
  · refine outQ_ofLanes fun i => ?_
    have hval := shiftVal_shr (n := n) (laneAt n g.a i) (laneAt n g.b i)
    rw [Nat.mod_eq_of_lt (laneAt_lt n g.a i)] at hval
    exact (congrArg (· % 2 ^ n) hval).trans (wrapped_mod ..)
  · exact lanes2_eq_lanesOut (fun a m => Int.fdiv (signed n a) (2 ^ m)) fun a m =>
      (congrArg (· % 2 ^ n) (shiftVal_sar hn a m)).trans (wrapped_mod ..)

end Sys2Proof.Machine
end

