-- ==== Sys2Proof/Proofs/VectorMoves.lean ====
section
/-! SUPPORT. Dot products, comparison masks, lane moves and reductions of the vector integer instructions (O8). -/
namespace Sys2Proof.Machine
open Sys2Proof

/-! ## Dot products (R168) -/

theorem foldl_add_eq_sum {α : Type} (f : α → Int) (l : List α) (t : Int) : l.foldl (fun t i => t + f i) t = t + (l.map f).sum := by
  rw [← List.foldl_map (f := f) (g := (· + ·)), ← add_zero t, List.foldl_assoc, ← List.sum_eq_foldl, add_zero]

theorem fwA_eq (fw : BitVec 16) : fwA fw = fw.toNat % 16 := by simp [fwA]

theorem dotWidth_pos (e : Env) : 0 < dotWidth e := by
  unfold dotWidth
  split
  · decide
  · split <;> [decide; (split <;> decide)]

theorem dotWidth_eq (e : Env) : dotWidth e =
    match e.fw with
    | none => 8
    | some fw => if fw.toNat % 16 = 12 then 4 else if fw.toNat % 16 = 13 then 2 else 8 := by
  simp only [dotWidth, fwA_eq] <;> rfl

/-- A lane of VDOT is the lane of D plus the products of the elements below it. -/
theorem dotLane_mod (u sat : Bool) {w : Nat} (hw : 0 < w) (d a b : Src) (i : Nat) : dotLane u sat w d.val a.val b.val i % 2 ^ 32 =
    wrapped 32 (let t := number u 32 (laneAt 32 d i) +
        ((List.range (32 / w)).map (fun m => number u w (laneAt w a (32 / w * i + m)) * number u w (laneAt w b (32 / w * i + m)))).sum
      if sat then (if u then heldZ 32 t else heldS 32 t) else t) := by
  simp only [dotLane, asInt_eq_number hw, asInt_eq_number (show 0 < 32 by decide), lane_eq_laneAt, upto, foldl_add_eq_sum]
  cases sat
  · exact wrapped_mod ..
  · exact satLane_mod ..

/-! ## Comparison masks (R169) -/

theorem vcmpLane_eq {n : Nat} (hn : 0 < n) (k : VCond) (a b : Nat) : vcmpLane k n a b =
    match k with
    | .eq => a == b
    | .ne => a != b
    | .lt => decide (signed n a < signed n b)
    | .le => decide (signed n a ≤ signed n b)
    | .gt => decide (signed n b < signed n a)
    | .ge => decide (signed n b ≤ signed n a)
    | .lo => decide (a < b)
    | .ls => decide (a ≤ b)
    | .hi => decide (b < a)
    | .hs => decide (b ≤ a) := by
  simp only [vcmpLane, sextI_eq _ _ hn, gt_iff_lt, ge_iff_le] <;> rfl

/-- The masks of the model are those of the statements. -/
theorem maskOut_eq_maskLanes (w : Nat) (f : Nat → Bool) : maskOut w f = maskLanes w f 0 := by
  have hlane (i : Nat) : (if f i then 2 ^ w - 1 else 0) % 2 ^ w = wrapped w (if f i then -1 else 0) := by
    cases f i
    · exact (wrapped_natCast w 0).symm
    · rw [if_pos rfl, if_pos rfl, ← wrapped_neg_one, wrapped_mod]
  have hall : (upto (128 / w)).all f = decide (∀ i < 128 / w, f i = true) := by
    rw [Bool.eq_iff_iff, List.all_eq_true, decide_eq_true_iff]
    simp only [upto, List.mem_range]
  have hany : (!(upto (128 / w)).any f) = decide (∀ i < 128 / w, f i = false) := by
    rw [List.not_any_eq_all_not, Bool.eq_iff_iff, List.all_eq_true, decide_eq_true_iff]
    simp only [upto, List.mem_range, Bool.not_eq_true']
  simp only [maskOut, hall, hany, outQ_ofLanes hlane]
  rfl

/-! ## Reductions (R171) -/

section Reductions
variable {α β : Type}

theorem map_pairUp (φ : α → β) {f : α → α → α} {g : β → β → β} (h : ∀ a b, φ (f a b) = g (φ a) (φ b)) (l : List α) :
    (pairUp f l).map φ = pairUp g (l.map φ) := by
  induction l using List.twoStepInduction with
  | nil => rfl
  | singleton a => rfl
  | cons_cons a b t ih => simp only [pairUp, List.map_cons, h, ih]

theorem map_reduce (φ : α → β) {f : α → α → α} {g : β → β → β} (h : ∀ a b, φ (f a b) = g (φ a) (φ b)) (d : α) (k : Nat) (l : List α) :
    φ (reduce f d k l) = reduce g (φ d) k (l.map φ) := by
  induction k generalizing l with
  | zero => cases l <;> rfl
  | succ k ih => rw [reduce, ih, map_pairUp φ h, reduce]

theorem length_pairUp (f : α → α → α) (l : List α) : (pairUp f l).length = (l.length + 1) / 2 := by
  induction l using List.twoStepInduction with
  | nil => simp [pairUp]
  | singleton a => simp [pairUp]
  | cons_cons a b t ih => simp only [pairUp, List.length_cons, ih]; omega

section Fold
variable (op : α → α → α) [Std.Associative op]

theorem foldl_pairUp (x : α) (l : List α) : (pairUp op l).foldl op x = l.foldl op x := by
  induction l using List.twoStepInduction generalizing x with
  | nil => rfl
  | singleton a => rfl
  | cons_cons a b t ih => simp only [pairUp, List.foldl_cons, ih, Std.Associative.assoc (op := op)]

/-- A reduction by pairs is a fold when joining a value with itself leaves it. -/
theorem reduce_eq_foldl [Std.IdempotentOp op] (d : α) {k : Nat} {l : List α} (h : l.length ≤ 2 ^ k) :
    reduce op d k l = l.foldl op (l.headD d) := by
  have hself (a : α) : op a a = a := Std.IdempotentOp.idempotent a
  induction k generalizing l with
  | zero =>
    match l, h with
    | [], _ => rfl
    | [a], _ => exact (hself a).symm
  | succ k ih =>
    have hlen : (pairUp op l).length ≤ 2 ^ k := by rw [length_pairUp]; omega
    rw [reduce, ih hlen, foldl_pairUp]
    match l with
    | [] | [_] => rfl
    | a :: b :: t =>
      simp only [pairUp, List.headD_cons, List.foldl_cons, hself, Std.Associative.assoc (op := op) (op a b) a b]

end Fold
end Reductions

theorem computes_vredAdd (v : View) (c : Cond) (d s1 : Opd) : Computes (.vred v c d s1 .add) v (fun e g =>
    let t := ((List.range (128 / View.lw v)).map (fun i => signed (View.lw v) (laneAt (View.lw v) g.a i))).sum
    plainOut (wrapped (View.lw v) (if e.sat then heldS (View.lw v) t else t)) false) :=
  computes_of (fun _ => rfl) fun e g => by
    simp only [vredR, sextI_eq _ _ (lw_pos v), foldl_add_eq_sum, List.map_map, narrowS_mod, zero_add]
    rfl

/-- A minimum or maximum over the lanes. -/
theorem reduce_minR_mod {n : Nat} (hn : 0 < n) (u mx : Bool) {l : List Nat} (hl : l.length ≤ 16) : reduce (minR n u mx) 0 4 l % 2 ^ n =
    wrapped n ((l.map (number u n)).foldl (if mx then max else min) ((l.map (number u n)).headD 0)) := by
  have hzero : number u n 0 = 0 := by cases u <;> simp [number, signed]
  rw [← wrapped_number u n (reduce ..), map_reduce (number u n) (g := if mx then max else min) fun a b => ?_, hzero]
  · cases mx
    · exact congrArg (wrapped n) (reduce_eq_foldl min 0 (by simpa using hl))
    · exact congrArg (wrapped n) (reduce_eq_foldl max 0 (by simpa using hl))
  · rw [number_minR hn]
    cases mx <;> rfl

/-- Settles O8: products, masks and moves lane by lane; a reduction by pairs is the extreme, or the sum, of all lanes. -/
theorem vectorDotCompareAndMoveResults : Obligations.VectorDotCompareAndMoveResults := by
  unfold Obligations.VectorDotCompareAndMoveResults
  intro v c u d s1 s2 x k j n s
  have hn : 0 < n := lw_pos v
  refine ⟨computes_of (fun _ => rfl) fun e g => ?_, computes_of (fun _ => rfl) fun e g => ?_, computes_of (fun _ => rfl) fun e g => ?_,
    computes_of (fun _ => rfl) fun e g => ?_, computes_of (fun _ => rfl) fun e g => ?_, computes_vredAdd v c d s1,
    fun hv mx => computes_of (fun _ => rfl) fun e g => ?_⟩
  · refine (outQ_ofLanes fun i => dotLane_mod u e.sat (dotWidth_pos e) g.d g.a g.b i).trans ?_
    rw [dotWidth_eq] <;> rfl
  · exact (congrArg (maskOut n) (funext fun i => vcmpLane_eq hn k _ _)).trans (maskOut_eq_maskLanes n _)
  · refine outQ_ofLanes fun i => ?_
    rw [bit_eq_testBit, ← wrapped_natCast, Nat.cast_ite]
    rfl
  · refine outQ_ofLanes fun i => ?_
    rw [bit_eq_testBit, ← wrapped_natCast, Nat.cast_ite]
    rfl
  · rw [splat_eq_ofLanes]
    refine outQ_ofLanes fun _ => ?_
    have hval : bcastVal v s1 g.a.val j.toNat = match s1 with | .preg _ | .imm _ => g.a.val.toNat | _ => laneAt n g.a j.toNat := by
      cases s1 <;> rfl
    rw [← wrapped_natCast, hval]
    cases s1 <;> rfl
  · have hred : vredR v (if u then (if mx then .umax else .umin) else (if mx then .smax else .smin)) e.sat e.rm g.a.val =
        (reduce (minR n u mx) 0 4 ((List.range (128 / n)).map (laneAt n g.a)), 0) := by
      cases u <;> cases mx <;> rfl
    have hcount : 128 / n ≤ 16 := by
      cases v with
      | b | h | w | d => decide
      | _ => cases hv
    have hval := reduce_minR_mod hn u mx (l := (List.range (128 / n)).map (laneAt n g.a)) (by simpa using hcount)
    rw [List.map_map] at hval
    rw [hred]
    exact congrArg (fun r => plainOut r false) hval

end Sys2Proof.Machine
end

