-- ==== Sys2Proof/Proofs/FloatComparisons.lean ====
section
/-! SUPPORT. Minima, comparisons and classes of floating-point lanes (O10). -/
namespace Sys2Proof.Machine
open Sys2Proof

theorem beq_nan_true (x : FVal) : (x == .nan true) = x.isSig := by
  cases x with
  | nan g => cases g <;> rfl
  | _ => rfl

theorem isNan_of_isSig {x : FVal} (h : x.isSig = true) : x.isNan = true := by
  cases x with
  | nan g => rfl
  | _ => cases h

theorem sigFlag_pair (a b : FVal) : sigFlag [a, b] = if a.isSig || b.isSig then 16 else 0 := by
  simp [sigFlag, fInv]

/-! ## Minima and maxima (R175) -/

/-- VFMIN, or VFMAX when `mx`, on the bits of two lanes: a number beside a NaN, else the lesser or the greater value, -0 below +0. -/
def chosen (F : Fmt) (mx : Bool) (x y : Nat) : Nat × FFlags :=
  let a := F.unpack x
  let b := F.unpack y
  (if a.isNan && b.isNan then F.nan else if a.isNan then y else if b.isNan then x
    else if a.lt b || (a == .zero true && b == .zero false) then (if mx then y else x)
    else if b.lt a || (b == .zero true && a == .zero false) then (if mx then x else y) else if mx then x else y,
    if a.isSig || b.isSig then 16 else 0)

section Formats
variable {F : Fmt} (hF : F = bf16 ∨ F = f32 ∨ F = f64)
include hF

/-- A zero has one representation for each sign. -/
theorem eq_zero_of_unpack {x : Nat} {s : Bool} (hx : x < 2 ^ F.width) (h : F.unpack x = .zero s) : x = F.zero s := by
  have hround := roundingKeepsRepresentableValues F 0 x hF hx
  rw [h] at hround
  exact hround.symm

theorem minV_eq_chosen (mx : Bool) {x y : Nat} (hx : x < 2 ^ F.width) (hy : y < 2 ^ F.width) : F.minV mx x y = chosen F mx x y := by
  have pick (p q : Bool) {low high : Bool} (hlow : low = false) (hhigh : high = false) :
      (if (p != mx) = true then x else y) = if (p || low) = true then if mx = true then y else x else
        if (q || high) = true then if mx = true then x else y else if mx = true then x else y := by
    subst hlow hhigh
    cases p <;> cases q <;> cases mx <;> rfl
  rw [chosen, Fmt.minV, sigFlag_pair]
  generalize ha : F.unpack x = a
  generalize hb : F.unpack y = b
  cases a with
  | nan g => cases b <;> rfl
  | zero s =>
    cases b with
    | nan g => rfl
    | zero t =>
      have hbits : s = t → x = y := fun h => by rw [eq_zero_of_unpack hF hx ha, eq_zero_of_unpack hF hy hb, h]
      cases s <;> cases t <;> cases mx <;> simp_all [FVal.isNan, FVal.lt]
    | _ => exact congrArg (·, _) (pick _ _ (by simp) (by simp))
  | _ =>
    cases b with
    | nan g => rfl
    | _ => exact congrArg (·, _) (pick _ _ (by simp) (by simp))

theorem minV_lt (mx : Bool) {x y : Nat} (hx : x < 2 ^ F.width) (hy : y < 2 ^ F.width) : (F.minV mx x y).1 < 2 ^ F.width := by
  have hnan : F.nan < 2 ^ F.width := by rcases hF with rfl | rfl | rfl <;> decide
  have hpick (b : Bool) : (if b then x else y) < 2 ^ F.width := by cases b <;> assumption
  unfold Fmt.minV
  cases F.unpack x with
  | nan g =>
    cases F.unpack y with
    | nan g => exact hnan
    | _ => exact hy
  | _ =>
    cases F.unpack y with
    | nan g => exact hx
    | _ => exact hpick _

end Formats

theorem joinPairs_congr {B : Nat} {f g : Nat → Nat → Nat × FFlags} (hlt : ∀ a < B, ∀ b < B, (f a b).1 < B) (heq : ∀ a < B, ∀ b < B, f a b = g a b)
    {x y : Nat → Nat × FFlags} (h : ∀ i, (x i).1 < B ∧ x i = y i) (i : Nat) :
    (joinPairs f x i).1 < B ∧ joinPairs f x i = joinPairs g y i := by
  obtain ⟨ha, hxa⟩ := h (2 * i)
  obtain ⟨hb, hxb⟩ := h (2 * i + 1)
  exact ⟨hlt _ ha _ hb, by rw [joinPairs, joinPairs, heq _ ha _ hb, hxa, hxb]⟩

/-! ## Comparisons (R176) -/

/-- The conditions of VFCMP that raise invalid on any NaN. -/
def FCond.isOrdered : FCond → Bool
  | .lt | .le | .gt | .ge => true
  | _ => false

theorem fcmp_flags (k : FCond) (a b : FVal) :
    (fcmp k a b).2 = if a.isSig || b.isSig || (FCond.isOrdered k && (a.isNan || b.isNan)) then 16 else 0 := by
  have hquiet : sigFlag [a, b] = if a.isSig || b.isSig || (false && (a.isNan || b.isNan)) then 16 else 0 := by
    rw [sigFlag_pair, Bool.false_and, Bool.or_false]
  have hordered : (if a.isNan || b.isNan then fInv else 0) = if a.isSig || b.isSig || (true && (a.isNan || b.isNan)) then 16 else 0 := by
    have hsig : (a.isSig || b.isSig || (a.isNan || b.isNan)) = (a.isNan || b.isNan) := by
      have ha := isNan_of_isSig (x := a)
      have hb := isNan_of_isSig (x := b)
      grind
    rw [Bool.true_and, hsig]
    rfl
  cases k with
  | lt | le | gt | ge => exact hordered
  | _ => exact hquiet

/-- Flags that are raised on some of the lanes. -/
theorem foldl_or_flags (p : Nat → Bool) (x : FFlags) (l : List Nat) :
    l.foldl (fun a i => a ||| (if p i then x else 0)) 0 = if l.any p then x else 0 := by
  have hfrom (t : FFlags) : l.foldl (fun a i => a ||| (if p i then x else 0)) t = t ||| (if l.any p then x else 0) := by
    induction l generalizing t with
    | nil => simp
    | cons i l ih =>
      rw [List.foldl_cons, ih, List.any_cons, BitVec.or_assoc]
      cases p i <;> cases l.any p <;> simp
  rw [hfrom]
  exact BitVec.zero_or

/-- The comparison of two lanes under each condition. -/
theorem fcmp_holds (k : FCond) (a b : FVal) : (fcmp k a b).1 =
    match k with
    | .eq => !(a.isNan || b.isNan) && !a.lt b && !b.lt a
    | .ne => a.isNan || b.isNan || a.lt b || b.lt a
    | .lt => !(a.isNan || b.isNan) && a.lt b
    | .le => !(a.isNan || b.isNan) && !b.lt a
    | .gt => !(a.isNan || b.isNan) && b.lt a
    | .ge => !(a.isNan || b.isNan) && !a.lt b
    | .un => a.isNan || b.isNan
    | .ord => !(a.isNan || b.isNan) := by
  cases k with
  | ne => simp only [fcmp, Bool.not_and, Bool.not_not]
  | _ => rfl

theorem fcmpOut_eq_maskLanes (v : View) (g : Args) (k : FCond) : fcmpOut v g k =
    maskLanes (View.lw v) (fun i => (fcmp k (fpAt v g.a i) (fpAt v g.b i)).1) (if (List.range (128 / View.lw v)).any (fun i =>
      (fpAt v g.a i).isSig || (fpAt v g.b i).isSig || (FCond.isOrdered k && ((fpAt v g.a i).isNan || (fpAt v g.b i).isNan))) then 16 else 0) := by
  rw [← foldl_or_flags]
  simp only [fcmpOut, maskOut_eq_maskLanes, fcmp_flags, lane_eq_laneAt]
  rfl

section Formats
variable {v : View} (hv : View.isFp v = true)
include hv

theorem fmtOf_mem : fmtOf v = bf16 ∨ fmtOf v = f32 ∨ fmtOf v = f64 := by
  cases v with
  | bf => exact .inl rfl
  | f => exact .inr (.inl rfl)
  | g => exact .inr (.inr rfl)
  | _ => cases hv

theorem width_fmtOf : (fmtOf v).width = View.lw v := by
  cases v with
  | bf | f | g => rfl
  | _ => cases hv

theorem laneAt_lt_width (x : Src) (i : Nat) : laneAt (View.lw v) x i < 2 ^ (fmtOf v).width := width_fmtOf hv ▸ laneAt_lt ..

theorem minV_lanes (mx : Bool) (x y : Src) (i j : Nat) : (fmtOf v).minV mx (laneAt (View.lw v) x i) (laneAt (View.lw v) y j) =
    chosen (fmtOf v) mx (laneAt (View.lw v) x i) (laneAt (View.lw v) y j) :=
  minV_eq_chosen (fmtOf_mem hv) mx (laneAt_lt_width hv x i) (laneAt_lt_width hv y j)

/-- A minimum or maximum over the lanes, pair by pair. -/
theorem vredR_minV (mx sat : Bool) (rm : Nat) (x : Src) :
    vredR v (if mx then .fmax else .fmin) sat rm x.val = joinLanes v (chosen (fmtOf v) mx) x := by
  have hF := fmtOf_mem hv
  have hlane (i : Nat) : (laneAt (View.lw v) x i, (0 : FFlags)).1 < 2 ^ (fmtOf v).width ∧ (laneAt (View.lw v) x i, (0 : FFlags)) = (laneAt (View.lw v) x i, 0) :=
    ⟨laneAt_lt_width hv x i, rfl⟩
  have hpairs {p q : Nat → Nat × FFlags} := joinPairs_congr (x := p) (y := q) (fun a ha b hb => minV_lt hF mx ha hb)
    (fun a ha b hb => minV_eq_chosen hF mx ha hb)
  have hjoin : joinLanes v ((fmtOf v).minV mx) x = joinLanes v (chosen (fmtOf v) mx) x := by
    cases v with
    | bf => exact (hpairs (hpairs (hpairs hlane)) 0).2
    | f => exact (hpairs (hpairs hlane) 0).2
    | _ => exact (hpairs hlane 0).2
  rw [← hjoin]
  cases v with
  | bf | f | g => cases mx <;> rfl
  | _ => cases hv

end Formats

/-- Settles O10: minima by the values of the lanes and by the bits of zeros, comparisons and classes lane by lane. -/
theorem floatCompareAndClassResults : Obligations.FloatCompareAndClassResults := by
  unfold Obligations.FloatCompareAndClassResults
  intro v c d s1 s2 k hv n F inv nan sig choose
  have hnan (x : FVal) : nan x = x.isNan := by cases x <;> rfl
  have hchoose (mx : Bool) : choose mx = chosen F mx := by
    funext x y
    simp only [choose, chosen, hnan, sig, beq_nan_true, inv]
  refine ⟨computes_of (fun _ => rfl) fun e g => ?_, computes_of (fun _ => rfl) fun e g => ?_,
    fun mx => computes_of (fun _ => rfl) fun e g => ?_, computes_of (fun _ => rfl) fun e g => ?_, computes_of (fun _ => rfl) fun e g => ?_⟩
  · simp only [hchoose, fpLanes_eq_floatLanes, lane_eq_laneAt, minV_lanes hv]
    rfl
  · simp only [hchoose, fpLanes_eq_floatLanes, lane_eq_laneAt, minV_lanes hv]
    rfl
  · rw [vredR_minV hv, hchoose]
    rfl
  · simp only [fcmpOut_eq_maskLanes, fcmp_holds, hnan, sig, beq_nan_true]
    rfl
  · exact outQ_ofLanes fun i => (wrapped_natCast ..).symm

end Sys2Proof.Machine
end

