-- ==== Sys2Proof/Proofs/Conversions.lean ====
section
/-! SUPPORT. Conversions between lane formats, scaling and block exponents (O13). -/
namespace Sys2Proof.Machine
open Sys2Proof

/-! ## Conversions (R179, R180) -/

/-- A conversion between floating-point formats keeps the format. -/
theorem cvtSrc_eq_of_isFp {v : View} {e : Env} (hsrc : View.isFp (cvtSrc v e) = true) (hdst : View.isFp v = true) : cvtSrc v e = v := by
  unfold cvtSrc at *
  cases v with
  | bf | f => grind [View.isFp]
  | g => cases hsrc
  | _ => cases hdst

theorem cvtLane_eq (v : View) (e : Env) (x : Nat) : cvtLane (cvtSrc v e) v e.rm x =
    match View.isFp (cvtSrc v e), View.isFp v with
    | true, true => if (fmtOf (cvtSrc v e)).unpack x = .nan true then ((fmtOf v).nan, 16) else (x, 0)
    | true, false => let r := toIntSat e.rm (View.lw v) ((fmtOf (cvtSrc v e)).unpack x); (wrapped (View.lw v) r.1, r.2)
    | false, true => (fmtOf v).ofVal e.rm (FVal.ofInt (signed (View.lw v) x))
    | false, false => (x, 0) := by
  simp only [cvtLane, sextI_eq _ _ (lw_pos v)]
  cases hsrc : View.isFp (cvtSrc v e) <;> cases hdst : View.isFp v
  · rfl
  · rfl
  · rfl
  · rw [cvtSrc_eq_of_isFp hsrc hdst]
    generalize (fmtOf v).unpack x = y
    cases y with
    | nan g => cases g <;> rfl
    | _ => rfl

theorem narrLane_mod {n : Nat} (hn : 0 < n) (u sat : Bool) {x : Nat} (hx : x < 2 ^ (2 * n)) : narrLane u sat n x % 2 ^ n =
    wrapped n (if sat then (if u then heldZ n x else heldS n (signed (2 * n) x)) else x) := by
  unfold narrLane
  cases sat
  · rw [if_neg Bool.false_ne_true, if_neg Bool.false_ne_true, Nat.mod_mod, wrapped_natCast]
  · cases u
    · rw [if_pos rfl, if_neg Bool.false_ne_true, if_pos rfl, if_neg Bool.false_ne_true, satS_eq, sextI_eq _ _ (by omega)]
      exact wrapped_mod ..
    · rw [if_pos rfl, if_pos rfl, if_pos rfl, if_pos rfl, satZ_eq, Nat.mod_eq_of_lt hx]
      exact wrapped_mod ..

/-! ## Scaling (R49, R188) -/

/-- A scale word is void when its low nine bits are -256, or when a bit above them is set. -/
theorem voidScale_iff {sw : Nat} (h : sw < 2 ^ 16) : voidScale sw = true ↔ sw % 2 ^ 9 = 256 ∨ 2 ^ 9 ≤ sw := by
  have hneg : signed 9 sw = -256 ↔ sw % 2 ^ 9 = 256 := by
    unfold signed
    split <;> omega
  have hhigh : bits sw 9 7 ≠ 0 ↔ 2 ^ 9 ≤ sw := by
    unfold bits
    omega
  rw [voidScale, Bool.or_eq_true, decide_eq_true_iff, decide_eq_true_iff, sextI_eq _ _ (by decide), hneg, hhigh]

theorem scaleOut_eq (v : View) (e : Env) (g : Args) : scaleOut v e g =
    (let sw := g.b.val.toNat % 2 ^ 16
     if sw % 2 ^ 9 = 256 ∨ 2 ^ 9 ≤ sw then { plainOut 0 false with pois := true }
     else floatLanes (View.lw v) (fun i =>
      let x := laneAt (View.lw v) g.a i
      (fmtOf v).ofVal e.rm ((if View.isFp (scaleSrc v e) then (fmtOf (scaleSrc v e)).unpack x else FVal.ofInt (signed (View.lw v) x)).mul2
        (signed 9 sw)))) := by
  simp only [scaleOut, voidScale_iff (Nat.mod_lt _ (Nat.two_pow_pos 16)), fpLanes_eq_floatLanes, lane_eq_laneAt, sextI_eq _ _ (lw_pos v),
    sextI_eq _ _ (show 0 < 9 by decide)]
  rfl

/-! ## Block exponents (R189) -/

theorem bexpLane_eq (F : Fmt) (x : Nat) : bexpLane F x =
    (match F.unpack x with
      | .fin _ m e => e + (Nat.log2 m : Int) - 6
      | .zero _ => -255
      | _ => 255,
     match F.unpack x with
      | .nan _ | .inf _ => true
      | _ => false) := by
  have hwf := unpack_wf F x
  unfold bexpLane
  generalize F.unpack x = a at hwf
  cases a with
  | fin s m e =>
    have hm : bitLen m = Nat.log2 m + 1 := if_neg (Nat.pos_iff_ne_zero.mp hwf)
    simp only [hm]
    congr 1
    push_cast
    ring
  | _ => rfl

theorem foldl_max_eq_foldr (f : Nat → Int) (t : Int) (l : List Nat) : l.foldl (fun t i => max t (f i)) t = l.foldr (fun i t => max (f i) t) t := by
  rw [← List.foldl_map (f := f) (g := max), List.foldl_eq_foldr, List.foldr_map]

/-- Settles O13: each lane by the format that it is read in; a block exponent is the greatest of the exponents of the lanes. -/
theorem conversionResults : Obligations.ConversionResults := by
  unfold Obligations.ConversionResults
  intro v c u hi d s1 s2 n F src
  have hn : 0 < n := lw_pos v
  refine ⟨fun s g hgo hg => ?_, computes_of (fun _ => rfl) fun e g => ?_, computes_of (fun _ => rfl) fun e g => ?_, fun s g hgo hg => ?_,
    computes_of (fun _ => rfl) fun e g => ?_⟩
  · refine (issue_next (body := bodyVcvt v c d s1) hgo (pureOp_ok hg)).trans ?_
    simp only [fpLanes_eq_floatLanes, lane_eq_laneAt, cvtLane_eq]
    rfl
  · have hwide (i : Nat) : (if i < 128 / n / 2 then laneAt (2 * n) g.a i else laneAt (2 * n) g.b (i - 128 / n / 2)) < 2 ^ (2 * n) := by
      split <;> exact laneAt_lt ..
    exact outQ_ofLanes fun i => narrLane_mod hn u e.sat (hwide i)
  · refine outQ_ofLanes fun i => ?_
    have hhalf : 0 < n / 2 := by cases v <;> decide
    have hpos : i + hi.toNat * View.lanes v = i + if hi then 128 / n else 0 := by cases hi <;> simp [View.lanes, n]
    rw [asInt_eq_number hhalf, hpos]
    exact wrapped_mod ..
  · exact (issue_next (body := bodyScale v c d s1 s2) hgo (pureOp_ok hg)).trans (by rw [scaleOut_eq])
  · simp only [bexpOut, bexpLane_eq, List.foldl_map, List.any_map, foldl_max_eq_foldr, sextI_eq _ _ (show 0 < 64 by decide), lane_eq_laneAt]
    rfl

end Sys2Proof.Machine
end

