-- ==== Sys2Proof/Proofs/LongMultiply.lean ====
section
/-! SUPPORT. Carry forms, digits and fences of the long-multiply instructions (O14). -/
namespace Sys2Proof.Machine
open Sys2Proof

/-- An operand as a number at any width: both readings are zero at width zero. -/
theorem asInt_eq_number_of_width (n : Nat) (u : Bool) (x : Nat) : asInt u x n = number u n x := by
  rcases Nat.eq_zero_or_pos n with rfl | hn
  · have hsigned : signed 0 x = 0 := by simp [signed, Nat.mod_one]
    rw [asInt, number, hsigned]
    rfl
  · exact asInt_eq_number hn u x

/-! ## Forms with carries and fences (R59, R60) -/

theorem carryForm_eq_sum (k : Nat) (f : Nat → Int) (m : Nat) :
    carryForm k ((List.range m).map f) = ((List.range m).map (fun i => f i * 2 ^ (k * i))).sum := by
  induction m generalizing f with
  | zero => rfl
  | succ m ih =>
    rw [List.sum_range_succ', List.range_succ_eq_map, List.map_cons, List.map_map, carryForm, ih, ← List.sum_map_mul_left]
    simp only [Nat.mul_zero, pow_zero, mul_one, Nat.mul_succ, pow_add, Function.comp, Nat.cast_pow, Nat.cast_ofNat]
    exact congrArg (f 0 + List.sum ·) (List.map_congr_left fun i _ => by ring)

theorem fencedForm_eq_sum (u : Bool) (k : Nat) (cs : List Int) : fencedForm u k cs =
    ((List.range cs.length).map (fun j => wrapped k (max (fenceLo u k) (min (fenceHi u k) (cs.getD j 0))) * 2 ^ (k * j))).sum := by
  induction cs with
  | nil => rfl
  | cons c t ih =>
    rw [fencedForm, ih, List.length_cons, List.sum_range_succ', ← List.sum_map_mul_left]
    simp only [Nat.mul_zero, pow_zero, mul_one, Nat.mul_succ, pow_add, List.getD_cons_succ]
    exact congrArg (lowBits (fenced u k c) k + List.sum ·) (List.map_congr_left fun i _ => by ring)

/-- A digit leaves its fence when it lies below or above it. -/
theorem fenced_ne (u : Bool) (k : Nat) (c : Int) : (fenced u k c != c) = (decide (c < fenceLo u k) || decide (fenceHi u k < c)) := by
  have hfence : fenceLo u k ≤ fenceHi u k := by
    have hpos (j : Nat) : 0 < 2 ^ j := Nat.two_pow_pos j
    have := hpos k
    have := hpos (k - 1)
    cases u <;> simp only [fenceLo, fenceHi, if_true, Bool.false_eq_true, if_false] <;> omega
  rw [Bool.eq_iff_iff, bne_iff_ne, Bool.or_eq_true, decide_eq_true_iff, decide_eq_true_iff, fenced]
  omega

/-! ## Digits (R61, R183, R184) -/

/-- An integer less its lowest digit, shifted down. -/
def digitStep (u : Bool) (k : Nat) (t : Int) : Int := (t - number u k (wrapped k t)) / 2 ^ k

theorem getD_digits_of_lt (u : Bool) (k : Nat) {m j : Nat} (t : Int) (h : j < m) :
    (digits u k m t).getD j 0 = number u k (wrapped k ((digitStep u k)^[j] t)) := by
  induction m generalizing t j with
  | zero => exact absurd h (Nat.not_lt_zero j)
  | succ m ih =>
    have hstep : (t - asInt u (lowBits t k) k) / (2 ^ k : Nat) = digitStep u k t := by
      rw [asInt_eq_number_of_width, digitStep]
      push_cast
      rfl
    cases j with
    | zero => exact asInt_eq_number_of_width k u _
    | succ j =>
      rw [digits, List.getD_cons_succ, hstep, ih _ (Nat.lt_of_succ_lt_succ h), Function.iterate_succ_apply]

theorem rec_eq_iterate_digitStep (u : Bool) (k : Nat) (t : Int) (j : Nat) :
    Nat.rec (motive := fun _ => Int) t (fun _ t => (t - number u k (wrapped k t)) / 2 ^ k) j = (digitStep u k)^[j] t := by
  induction j with
  | zero => rfl
  | succ j ih => exact (congrArg (digitStep u k) ih).trans (Function.iterate_succ_apply' ..).symm

/-- Lanes past the last one do not count. -/
theorem ofLanes_congr {w : Nat} {f f' : Nat → Nat} (h : ∀ i < 128 / w, f i = f' i) : ofLanes w f = ofLanes w f' :=
  congrArg (BitVec.ofNat 128) (List.foldl_ext _ _ _ fun t i hi => by rw [h i (List.mem_range.mp hi)])

/-- The digits that EXTR takes out of a number given by its low bits. -/
theorem extrR_eq (v : View) (u cq fen : Bool) (k first : Nat) (x : Quad) : outQ (extrR v u cq fen k first x) =
    (let y := x.toNat % 2 ^ (if cq then 128 else 64)
     lanesOut (View.lw v) (fun i => if fen then number u k (y / 2 ^ (k * (first + i)))
       else number u k (wrapped k ((digitStep u k)^[first + i] (number u (if cq then 128 else 64) y))))) := by
  cases fen
  · have hdigits : extrR v u cq false k first x = ofLanes (View.lw v) (fun i => lowBits
        (number u k (wrapped k ((digitStep u k)^[first + i] (asInt u (x.toNat % 2 ^ (if cq then 128 else 64)) (if cq then 128 else 64))))) (View.lw v)) :=
      ofLanes_congr fun i hi => congrArg (lowBits · (View.lw v)) (getD_digits_of_lt u k _ (Nat.add_lt_add_left hi first))
    rw [hdigits, asInt_eq_number_of_width]
    exact outQ_ofLanes fun i => wrapped_mod ..
  · refine outQ_ofLanes fun i => ?_
    simp only [if_true, asInt_eq_number_of_width, bits, number_mod]
    exact wrapped_mod ..

/-! ## The headroom of a product (R185) -/

theorem gchkR_eq (u : Bool) (w k T : Nat) : gchkR u w k T =
    (let t : Nat → Nat := fun j => if u then (2 ^ j - 1) / (2 ^ w - 1) ^ 2 else ((2 : Int) ^ (j + 1 - 2 * w) - 1).toNat
     let kmin := ((List.range 33).find? (fun j => decide (2 * w ≤ j) && decide (T ≤ t j))).getD 0
     let head : Int := if kmin = 0 then -128 else (k : Int) - kmin
     { plainOut (min (if k + 1 < 2 * w ∧ !u then 0 else t k) (2 ^ 32 - 1) * 2 ^ 16 + wrapped 8 head * 2 ^ 8 + kmin) false with
       flags := { noFlags with n := some (decide (head < 0)), z := some (decide (head = 0)) } }) := by
  have ht (j : Nat) : (if j + 1 < 2 * w ∧ !u then 0 else tmax u w j) =
      if u then (2 ^ j - 1) / (2 ^ w - 1) ^ 2 else ((2 : Int) ^ (j + 1 - 2 * w) - 1).toNat := by
    cases u
    · have hexp : ((2 : Int) ^ (j + 1 - 2 * w) - 1).toNat = 2 ^ (j + 1 - 2 * w) - 1 := by
        have hcast : (2 : Int) ^ (j + 1 - 2 * w) = (2 ^ (j + 1 - 2 * w) : Nat) := by norm_cast
        rw [hcast]
        omega
      rw [if_neg Bool.false_ne_true, hexp, tmax, if_neg Bool.false_ne_true]
      split
      · next h => simp [Nat.sub_eq_zero_of_le h.1.le]
      · rfl
    · simp [tmax, pow_two]
  have hbelow (j : Nat) : (if j + 1 < 2 * w ∧ !u then 0 else if u then (2 ^ j - 1) / (2 ^ w - 1) ^ 2 else ((2 : Int) ^ (j + 1 - 2 * w) - 1).toNat) =
      if u then (2 ^ j - 1) / (2 ^ w - 1) ^ 2 else ((2 : Int) ^ (j + 1 - 2 * w) - 1).toNat := by
    rw [← ht]
    split <;> rfl
  simp only [gchkR, ht, hbelow, List.head?_filter, Bool.decide_and, ge_iff_le]
  rfl

/-! ## The product (R183) -/

theorem compute_ok {i : Instr} {v : View} {f : Env → Args → Loc → Res Out} {l : Loc} {g : Args} {o : Out}
    (hg : fetchArgs l v (envOf l.ctx i).rm (shape i) = .ok g) (ho : f (envOf l.ctx i) g l = .ok o) : compute i v f l = .ok (l.result i g o) := by
  simp [compute, hg, ho, bind, Except.bind, Loc.result]

theorem compute_error {i : Instr} {v : View} {f : Env → Args → Loc → Res Out} {l : Loc} {g : Args} {x : Stop}
    (hg : fetchArgs l v (envOf l.ctx i).rm (shape i) = .ok g) (ho : f (envOf l.ctx i) g l = .error x) : compute i v f l = .error x := by
  simp [compute, hg, ho, bind, Except.bind]

/-- The fenced product of two operands, from the convolution of their digits. -/
theorem pmulFen_eq {C : Nat} (u : Bool) (K a b : Nat) : pmulFen C u K a b =
    (let cs := (List.range (C / K)).map (convolution (digits u K (C / K) (number u C a)) (digits u K (C / K) (number u C b)))
     (((List.range (C / K)).map (fun j => wrapped K (max (fenceLo u K) (min (fenceHi u K) (cs.getD j 0))) * 2 ^ (K * j))).sum,
      cs.any (fun x => decide (x < fenceLo u K) || decide (fenceHi u K < x)))) := by
  have hdigit (as bs : List Int) : polyDigit as bs = convolution as bs := funext (polyDigit_eq_convolution as bs)
  simp only [pmulFen, asInt_eq_number_of_width, hdigit, fencedForm_eq_sum, fenced_ne, upto, List.length_map, List.length_range]

/-- Settles O14: carry forms and fenced forms as sums over their digits, the digits of EXTR by repeated division. -/
theorem longMultiplyResults : Obligations.LongMultiplyResults := by
  unfold Obligations.LongMultiplyResults
  intro v c u cq fen wc k idx d s1 s2 C K w
  refine ⟨computes_of (fun _ => rfl) fun e g => ?_, computes_of (fun _ => rfl) fun e g => ?_, fun s g hgo hg => ?_, fun s g hgo hg => ?_,
    computes_of (fun _ => rfl) fun e g => gchkR_eq ..⟩
  · simp only [packR, asInt_eq_number_of_width, upto, carryForm_eq_sum, bits, number_mod]
    have helem (i : Nat) : number u w (laneAt w g.a i) = number u w (g.a.val.toNat / 2 ^ (w * i)) := number_mod ..
    simp only [helem]
    rfl
  · simp only [extrR_eq, rec_eq_iterate_digitStep]
    rfl
  · exact issue_next hgo (compute_ok hg rfl)
  · intro as bs lo hi cs ovf r
    have hfen : pmulFen C u K g.a.val.toNat g.b.val.toNat = (r, ovf) := pmulFen_eq ..
    have hstat : (ovf && fGOE (envOf s.here.ctx (.pmul v c u true wc k d s1 s2)).stat) = true ↔ ovf ∧ s.here.ctx.stat.getLsbD 32 :=
      Bool.and_eq_true_iff
    by_cases hfault : ovf ∧ s.here.ctx.stat.getLsbD 32
    · rw [if_pos hfault]
      refine issue_fault hgo (compute_error hg ?_)
      rw [pmulF, if_pos rfl, hfen]
      exact if_pos (hstat.mpr hfault)
    · rw [if_neg hfault]
      refine issue_next hgo (compute_ok hg ?_)
      rw [pmulF, if_pos rfl, hfen]
      exact if_neg (mt hstat.mp hfault)

end Sys2Proof.Machine
end

