-- ==== Sys2Proof/Proofs/LoadParks.lean ====
section
/-! SUPPORT. Loads that park, that land in a register, and that are queued (O29). -/
namespace Sys2Proof.Machine
open Sys2Proof

/-! ## Reads of G (R146, R247, R378) -/

section Reads
variable {l : Loc} {ptr : Word} {n align : Nat} {t : Tlb} {x : Landed} {home : Bool} {acq : Option Scope}

theorem xlate_ok {k : Acc} (h : l.reaches ptr align k t) : xlate l (addrOf ptr) k = .ok t := by
  obtain ⟨-, -, hfind, hgrants, hdirty, -⟩ := h
  have hwalk : (k.writes && !t.d && t.quarter.isNone) = false := by
    cases hk : k.writes
    · rfl
    · rcases hdirty hk with hd | hq
      · rw [hd]
        rfl
      · rw [Option.isSome_iff_ne_none] at hq
        cases hquarter : t.quarter with
        | none => exact absurd hquarter hq
        | some q => simp
  simp only [xlate, hfind, hgrants, hwalk, Bool.not_true, Bool.false_eq_true, if_false]

theorem hubSize_ok {k : Acc} {key : Nat} (h : isHub key = false) : hubSize l ptr key n k = .ok () := if_neg (by simp [h])

theorem checkPtr_of_reaches {k : Acc} (h : l.reaches ptr align k t) : checkPtr l ptr n align k = .ok () := checkPtr_ok h.2.1 (.inl h.1)

/-- A read of G whose data have not arrived parks the context. -/
theorem readPtr_parks (h : l.reaches ptr align .read t) (hlanded : l.ctx.landed = []) :
    readPtr l ptr n align home acq = .error (.park l (.load ptr (t.keyOf (addrOf ptr)) n home acq t.nc t.trk)) := by
  obtain ⟨hspace, -, -, -, -, hhub⟩ := id h
  simp only [readPtr, checkPtr_of_reaches h, hspace, hlanded, xlate_ok h, hubSize_ok hhub, List.find?_nil, if_true, bind, Except.bind]
  rfl

/-- A read of G whose data have arrived gives them. -/
theorem readPtr_landed (hspace : spaceOf ptr = 0) (halign : addrOf ptr % align = 0)
    (hfound : l.ctx.landed.find? (fun e => e.va == ptr && e.n == n && !e.atom) = some x) :
    readPtr l ptr n align home acq = .ok { val := x.val, pois := x.pois } := by
  simp only [readPtr, checkPtr_ok halign (.inl hspace), hspace, hfound, if_true, bind, Except.bind]

end Reads

/-! ## LD and LDA to a register (R247, R248) -/

section Sync
variable {l : Loc} {i : Instr} {v : View} {u : Bool} {s1 : Opd} {home : Bool} {acq : Option Scope} {spaces : List Nat} {marked : Bool}

theorem ldSync_parks {t : Tlb} (hspaces : 0 ∈ spaces) (h : l.reaches (l.ea s1 (View.sc v)) (View.sc v) .read t) (hlanded : l.ctx.landed = []) :
    ldSync l i v u s1 home acq spaces marked =
      .error (.park l (.load (l.ea s1 (View.sc v)) (t.keyOf (addrOf (l.ea s1 (View.sc v)))) (View.sc v) home acq t.nc t.trk)) := by
  obtain ⟨hspace, -, -, -, -, hhub⟩ := id h
  have hmarked : (if marked = true ∧ l.ctx.landed.isEmpty = true then notHub l (l.ea s1 (View.sc v)) .read else .ok ()) = .ok () := by
    have hnot : notHub l (l.ea s1 (View.sc v)) .read = .ok () := by
      simp only [notHub, hspace, xlate_ok h, hhub, if_true, Bool.false_eq_true, if_false, bind, Except.bind]
    rw [hnot, ite_self]
  have hin : spaceIn l (l.ea s1 (View.sc v)) spaces .read = .ok () := if_pos (hspace ▸ hspaces)
  simp only [ldSync, hin, checkPtr_of_reaches h, hmarked, readPtr_parks h hlanded, bind, Except.bind]

/-- The loads whose data can be read go on with them. -/
theorem ldSync_ok {d : Datum} {g : Args} (hspaces : spaceOf (l.ea s1 (View.sc v)) ∈ spaces)
    (hcheck : checkPtr l (l.ea s1 (View.sc v)) (View.sc v) (View.sc v) .read = .ok ())
    (hmarked : spaceOf (l.ea s1 (View.sc v)) ≠ 0 ∨ l.ctx.landed ≠ [])
    (hread : readPtr l (l.ea s1 (View.sc v)) (View.sc v) (View.sc v) home acq = .ok d) (hg : fetchArgs l v 0 (shape i) = .ok g) :
    ldSync l i v u s1 home acq spaces marked =
      (let src := l.based s1 { val := d.val, pois := d.pois, ptr := l.ea s1 (View.sc v) }
       let l1 := l.take (shape i) { g with a := src }
       let l2 := match acq with
         | some sc => if spaceOf (l.ea s1 (View.sc v)) ≠ 0 ∧ Scope.wide sc then l1.acquire (BitVec.allOnes 256) else l1
         | none => l1
       .ok (l2.writeScalar g.dst (8 * View.sc v) u d.val src.pois)) := by
  have hskip : (if marked = true ∧ l.ctx.landed.isEmpty = true then notHub l (l.ea s1 (View.sc v)) .read else .ok ()) = .ok () := by
    rcases hmarked with hspace | hlanded
    · rw [notHub, if_neg hspace, ite_self]
    · exact if_neg fun h => hlanded (List.isEmpty_iff.mp h.2)
  have hin : spaceIn l (l.ea s1 (View.sc v)) spaces .read = .ok () := if_pos hspaces
  simp only [ldSync, hin, hcheck, hskip, hread, hg, bind, Except.bind] <;> rfl

theorem ldSync_landed {x : Landed} {g : Args} (hspaces : 0 ∈ spaces) (hspace : spaceOf (l.ea s1 (View.sc v)) = 0)
    (halign : addrOf (l.ea s1 (View.sc v)) % View.sc v = 0)
    (hfound : l.ctx.landed.find? (fun e => e.va == l.ea s1 (View.sc v) && e.n == View.sc v && !e.atom) = some x)
    (hg : fetchArgs l v 0 (shape i) = .ok g) : ldSync l i v u s1 home acq spaces marked =
      (let src := l.based s1 { val := x.val, pois := x.pois, ptr := l.ea s1 (View.sc v) }
       .ok ((l.take (shape i) { g with a := src }).writeScalar g.dst (8 * View.sc v) u x.val src.pois)) := by
  have hlanded : l.ctx.landed ≠ [] := fun h => by simp [h] at hfound
  rw [ldSync_ok (hspace ▸ hspaces) (checkPtr_ok halign (.inl hspace)) (.inr hlanded) (readPtr_landed hspace halign hfound) hg]
  cases acq with
  | none => rfl
  | some sc => simp only [hspace, ne_eq, not_true, false_and, if_false]

end Sync

theorem wide_eq (sc : Scope) : Scope.wide sc = (sc != .core) := by cases sc <;> rfl

/-! ## LD to a buffer (R247) -/

/-- A view with one more load in flight. -/
def Loc.loading (l : Loc) (a : ALoad) : Loc :=
  { l with ctx := { l.ctx with aldq := l.ctx.aldq ++ [a] }.cntInc 0, core := { l.core with seq := l.core.seq + 1 } }

theorem ldAsync_ok {l : Loc} {v : View} {d s1 : Opd} {t : Tlb} (i : Instr) (h : l.reaches (l.ea s1 (View.sc v)) (natAlign (View.sc v)) .read t)
    (hbuf : inBuffer (l.ea d (View.sc v)) (View.sc v) (natAlign (View.sc v))) (hroom : l.ctx.cntOf 0 < 63) :
    ∃ g po, ldAsync l i v d s1 = .ok ((l.take (shape i) g).loading
      { pa := t.keyOf (addrOf (l.ea s1 (View.sc v))), va := l.ea s1 (View.sc v), n := View.sc v, space := spaceOf (l.ea d (View.sc v))
        off := addrOf (l.ea d (View.sc v)), trk := t.trk, nc := t.nc, pois := po, seq := l.core.seq }) := by
  obtain ⟨hspace, -, -, -, -, hhub⟩ := id h
  obtain ⟨hlow, hhigh, halign, hbounds⟩ := hbuf
  have hin : spaceIn l (l.ea s1 (View.sc v)) [0] .read = .ok () := if_pos (by simp [hspace])
  have hout : spaceIn l (l.ea d (View.sc v)) [1, 2, 3, 4] .write = .ok () := if_pos (by simp; omega)
  have hcheck : checkPtr l (l.ea d (View.sc v)) (View.sc v) (natAlign (View.sc v)) .write = .ok () := checkPtr_ok halign (.inr ⟨hhigh, hbounds⟩)
  have hcnt : cntRoom l 0 = .ok () := if_pos hroom
  let g : Args := { a := l.based s1 (clean 0), b := clean 0, x := clean 0, d := l.based d (clean 0), dst := .none_ }
  refine ⟨g, g.pois, ?_⟩
  simp only [ldAsync, hin, checkPtr_of_reaches h, xlate_ok h, hubSize_ok hhub, hout, hcheck, hcnt, bind, Except.bind, take_core, Loc.loading, g]

/-- Taking operands leaves the accesses in flight. -/
theorem take_flight (l : Loc) (sh : Shape) (g : Args) : ((l.take sh g).ctx.cnt, (l.take sh g).ctx.stq) = (l.ctx.cnt, l.ctx.stq) := by
  have hpop (m : Loc) : ((m.popAll sh).ctx.cnt, (m.popAll sh).ctx.stq) = (m.ctx.cnt, m.ctx.stq) := by
    refine foldl_keeps (fun m : Loc => (m.ctx.cnt, m.ctx.stq)) (fun m ⟨o, f⟩ => ?_) _ _
    dsimp only
    split
    · split <;> rfl
    · rfl
  have hupdate (m : Loc) : ((m.updateAll sh).ctx.cnt, (m.updateAll sh).ctx.stq) = (m.ctx.cnt, m.ctx.stq) := by
    refine foldl_keeps (fun m : Loc => (m.ctx.cnt, m.ctx.stq)) (fun m b => ?_) _ _
    rfl
  have hconsume (ss : List Src) : ((l.consumeAll ss).ctx.cnt, (l.consumeAll ss).ctx.stq) = (l.ctx.cnt, l.ctx.stq) := by
    refine foldl_keeps (fun m : Loc => (m.ctx.cnt, m.ctx.stq)) (fun m x => ?_) _ _
    split <;> rfl
  exact (hpop _).trans ((hupdate _).trans (hconsume _))

theorem take_cnt (l : Loc) (sh : Shape) (g : Args) : (l.take sh g).ctx.cnt = l.ctx.cnt := congrArg Prod.fst (take_flight l sh g)

theorem take_stq (l : Loc) (sh : Shape) (g : Args) : (l.take sh g).ctx.stq = l.ctx.stq := congrArg Prod.snd (take_flight l sh g)

theorem advance_flight (c : Ctx) : ((advance c).cnt, (advance c).stq) = (c.cnt, c.stq) := by
  unfold advance
  split
  · rfl
  · dsimp only
    split <;> rfl
  · rfl

theorem retire_flight {l : Loc} (hnext : l.next = .seq) : ((retire l).ctx.cnt, (retire l).ctx.stq) = (l.ctx.cnt, l.ctx.stq) := by
  rw [retire_seq hnext (fun c => (c.cnt, c.stq)) fun _ => rfl, advance_flight]

theorem retire_cnt {l : Loc} (hnext : l.next = .seq) : (retire l).ctx.cnt = l.ctx.cnt := congrArg Prod.fst (retire_flight hnext)

theorem retire_stq {l : Loc} (hnext : l.next = .seq) : (retire l).ctx.stq = l.ctx.stq := congrArg Prod.snd (retire_flight hnext)

theorem retire_aldq (l : Loc) : (retire l).ctx.aldq = l.ctx.aldq := (congrArg Ctx.aldq (retire_lasting l) :)

theorem cntOf_cntInc {c : Ctx} {k : Nat} (hk : k < 4) (hroom : c.cntOf k < 63) : (c.cntInc k).cntOf k = c.cntOf k + 1 :=
  fld_setFld_same c.cnt (by omega) (by omega)

/-- A context whose instruction has queued a load. -/
theorem retired_loading {s : State} (sh : Shape) (g : Args) (a : ALoad) (hroom : s.here.ctx.cntOf 0 < 63) :
    let w := s.retired ((s.here.take sh g).loading a)
    (w.ctx s.cur).cntOf 0 = s.here.ctx.cntOf 0 + 1 ∧ (w.ctx s.cur).pc = (retire s.here).ctx.pc ∧
      (w.ctx s.cur).aldq = s.here.ctx.aldq ++ [a] := by
  intro w
  have hpace := take_pace s.here sh g
  have hnext : ((s.here.take sh g).loading a).next = .seq := (congrArg Loc.next hpace :)
  have hcid : ((s.here.take sh g).loading a).cid = s.cur := (congrArg Loc.cid hpace :)
  have hctx : w.ctx s.cur = (retire ((s.here.take sh g).loading a)).ctx := hcid ▸ retired_ctx hnext s
  have htake : (s.here.take sh g).ctx.cntOf 0 = s.here.ctx.cntOf 0 := congrArg (fld · 0 6) (take_cnt ..)
  have haldq : (s.here.take sh g).ctx.aldq = s.here.ctx.aldq := (congrArg (fun l : Loc => l.ctx.aldq) hpace :)
  have hstat : stDS (s.here.take sh g).ctx.stat = stDS s.here.ctx.stat := stDS_of_and (congrArg (fun l : Loc => l.ctx.stat) hpace :)
  have hbtgt : (s.here.take sh g).ctx.btgt = s.here.ctx.btgt := (congrArg (fun l : Loc => l.ctx.btgt) hpace :)
  have hpc : (s.here.take sh g).ctx.pc = s.here.ctx.pc := (congrArg (fun l : Loc => l.ctx.pc) hpace :)
  refine ⟨?_, ?_, ?_⟩
  · calc (w.ctx s.cur).cntOf 0 = ((s.here.take sh g).loading a).ctx.cntOf 0 := by
          rw [hctx, Ctx.cntOf, Ctx.cntOf, retire_cnt hnext]
      _ = (s.here.take sh g).ctx.cntOf 0 + 1 := cntOf_cntInc (by decide) (htake ▸ hroom)
      _ = _ := by rw [htake]
  · rw [hctx, retire_pc hnext, retire_pc (l := s.here) rfl, ← hstat, ← hbtgt, ← hpc]
    rfl
  · rw [hctx, retire_aldq, ← haldq]
    rfl

end Sys2Proof.Machine
end

