-- ==== Sys2Proof/Proofs/LoadArrivals.lean ====
section
/-! SUPPORT. LOAD_DATA_ARRIVAL, and the loads (O29). -/
namespace Sys2Proof.Machine
open Sys2Proof

/-! ## Reads at the home (R247, R364) -/

/-- The units are calm, and what every byte at its home is read from is as before. -/
structure State.Served (s t : State) : Prop extends State.Calm s t where
  cells : t.cells = s.cells

theorem State.Served.trans {s t u : State} (h : State.Served s t) (k : State.Served t u) : State.Served s u :=
  ⟨h.toCalm.trans k.toCalm, k.cells.trans h.cells⟩

theorem State.Served.of_offMarks {s t : State} (h : t.offMarks = s.offMarks) : State.Served s t :=
  ⟨.of_offRegs (offRegs_of_offLines (offLines_of_offMarks h)), cells_of_offMarks h⟩

theorem plain_parts {s : State} {a n : Nat} (h : s.plain a n) : isHub a = false ∧ isPcie a = false ∧ mhas s.hostCache (a / 64) = false := by
  obtain ⟨hram, -, hcache⟩ := h
  refine ⟨by simpa using not_isHub_of_isRam hram, ?_, hcache⟩
  simp only [isRam, decide_eq_true_eq] at hram
  simp only [isPcie, Bool.and_eq_false_iff, decide_eq_false_iff_not]
  omega

/-- A line that no host cache holds is read without a byte of memory written. -/
theorem readLine_cells {s : State} {line : Nat} (h : mhas s.hostCache line = false) : (readLine s line).cells = s.cells := by
  have hroom := cells_of_offMarks (makeRoom_offMarks s line)
  have hcache : (makeRoom s line).hostCache = s.hostCache := congrArg (·.2.1) hroom
  have htake (t : State) (ht : t.hostCache = s.hostCache) : takeHostData t line = t := by
    rw [takeHostData, ht, find_of_not_mhas h]
  unfold readLine
  dsimp only
  split
  · split
    · exact Eq.trans rfl hroom
    · split
      · rw [htake (emit (makeRoom s line) (.bisnpData line)) hcache]
        exact Eq.trans rfl hroom
      · exact Eq.trans rfl hroom
  · rfl

theorem homeBytes_of_cells {s t : State} (h : t.cells = s.cells) (a n : Nat) : homeBytes t a n = homeBytes s a n := by
  simp only [homeBytes, homeByte_of_cells h]

/-- A read at its home of bytes that no host cache holds. -/
theorem homeRead_served {s : State} {a n : Nat} (h : s.plain a n) : State.Served s (homeRead s a n).1 ∧ (homeRead s a n).2.1 = homeBytes s a n := by
  obtain ⟨hhub, hpcie, hcache⟩ := plain_parts h
  have hdemand := demand_offMarks s (a / 64) true
  have hsame : (demand s (a / 64) true).hostCache = s.hostCache := congrArg (·.2.2) hdemand
  have hread : homeRead s a n = (readLine (demand s (a / 64) true) (a / 64), homeBytes s a n, granPois s a) := by
    rw [homeRead, hhub, hpcie]
    rfl
  rw [hread]
  exact ⟨⟨.of_offRegs (offRegs_of_offLines ((readLine_offLines ..).trans (offLines_of_offMarks hdemand))),
    (readLine_cells (hsame ▸ hcache)).trans (cells_of_offMarks hdemand)⟩, rfl⟩

theorem countClaim_served (s : State) (pa : Nat) (trk : Bool) : State.Served s { s with hub := countClaim s.hub pa trk } :=
  .of_offMarks (countClaim_offMarks s pa trk)

theorem refreshD_served (s : State) (core key : Nat) (alloc : Bool) : State.Served s (refreshD s core key alloc) := by
  refine ⟨refreshD_calm core s key alloc, ?_⟩
  unfold refreshD
  split
  · rfl
  · dsimp only
    split <;> rfl

/-- A load served by the home: the count of a claim, the read, and the line that the D-cache keeps. -/
theorem served_by_home {s : State} {pa n : Nat} (trk : Bool) (core : Nat) (alloc : Bool) (h : s.plain pa n) :
    let s0 := { s with hub := countClaim s.hub pa trk }
    State.Served s (refreshD (homeRead s0 pa n).1 core pa alloc) ∧ (homeRead s0 pa n).2.1 = homeBytes s pa n := by
  intro s0
  have hs0 : State.Served s s0 := countClaim_served s pa trk
  have hplain : s0.plain pa n := h
  obtain ⟨hread, hbytes⟩ := homeRead_served hplain
  exact ⟨hs0.trans (hread.trans (refreshD_served ..)), hbytes.trans (homeBytes_of_cells hs0.cells pa n)⟩

/-! ## The arrival of a parked read (R247, R248) -/

/-- What an acquire with a load leaves: the contexts but for their signatures, the writes of the hub, and the bytes at the homes. -/
theorem acquireLine_leaves (s : State) (cid pa : Nat) (acq : Option Scope) :
    ((acquireLine s cid pa acq).ctx cid).landed = (s.ctx cid).landed ∧ (acquireLine s cid pa acq).hub = s.hub ∧
      (acquireLine s cid pa acq).cells = s.cells := by
  have hat (line : Nat) : (acquireAt s line).1.ctxs = s.ctxs ∧ (acquireAt s line).1.hub = s.hub ∧ (acquireAt s line).1.cells = s.cells := by
    unfold acquireAt
    dsimp only
    split <;> exact ⟨rfl, rfl, rfl⟩
  unfold acquireLine
  cases acq with
  | none => exact ⟨rfl, rfl, rfl⟩
  | some sc =>
    dsimp only
    split
    · obtain ⟨hctxs, hhub, hcells⟩ := hat (pa / 64)
      have hctx := (putLoc_ctx_of_no_wakes (s := (acquireAt s (pa / 64)).1)
        (l := (((acquireAt s (pa / 64)).1.loc cid).acquire (acquireAt s (pa / 64)).2)) rfl cid).trans (if_pos rfl)
      refine ⟨?_, (putLoc_hub ..).trans hhub, ?_⟩
      · rw [hctx]
        exact congrArg (fun m : Map Ctx => (mget emptyCtx m cid).landed) hctxs
      · rw [State.cells, putLoc_mem, putLoc_hostCache, putLoc_hub]
        exact hcells
    · exact ⟨rfl, rfl, rfl⟩

theorem pieces_short {bs : List Byte} (va : Word) (po : Bool) (h : bs.length ≤ 16) :
    pieces va bs po = [{ va := va, n := bs.length, val := quadOf bs, pois := po, flag := false, atom := false, eq := false }] := if_pos h

/-- Data that land for a context. -/
theorem land_spec (s : State) (cid : Nat) (ds : List Landed) :
    ((land s cid ds).ctx cid).status = .issuing ∧ ((land s cid ds).ctx cid).landed = (s.ctx cid).landed ++ ds ∧ (land s cid ds).cells = s.cells ∧
      (land s cid ds).hub = s.hub := by
  have hctx : (land s cid ds).ctx cid = { s.ctx cid with status := .issuing, landed := (s.ctx cid).landed ++ ds } := (putCtx_get ..).trans (if_pos rfl)
  rw [hctx]
  exact ⟨rfl, rfl, rfl, rfl⟩

section Arrival
variable {s : State} {cid pa m : Nat} {va : Word} {home nc trk : Bool} {acq : Option Scope}

/-- A parked read that has its data goes on, and no byte at a home changes. -/
theorem arrival_next {u : State} {bs : List Byte} {po : Bool} (hup : s.hub.up = true) (hload : loadSync s cid = land u cid (pieces va bs po))
    (hlen : bs.length ≤ 16) (hlanded : (u.ctx cid).landed = (s.ctx cid).landed) (hroom : u.hub.noRoom = s.hub.noRoom) (hcells : u.cells = s.cells) :
    ∃ w po, exec (.loadDataArrival cid none) s = .next w ∧ (w.ctx cid).status = .issuing ∧
      (w.ctx cid).landed = (s.ctx cid).landed ++ [{ va := va, n := bs.length, val := quadOf bs, pois := po, flag := false, atom := false, eq := false }] ∧
      ∀ a, homeByte w a = homeByte s a := by
  obtain ⟨hstatus, hctx, hsame, hhub⟩ := land_spec u cid (pieces va bs po)
  refine ⟨land u cid (pieces va bs po), po, ?_, hstatus, ?_, fun a => homeByte_of_cells (hsame.trans hcells) a⟩
  · exact (congrArg (live s) hload).trans (live_up hup (hhub ▸ hroom))
  · rw [hctx, hlanded, pieces_short va po hlen]

theorem loadSync_of_dline {e : DLine} (hpark : (s.ctx cid).status = .parked (.load va pa m home acq nc trk))
    (hline : (if home then none else dlineOf s (coreOfCid cid) pa) = some e) :
    loadSync s cid = land { s with hub := countClaim s.hub pa trk } cid (pieces va ((e.bytes.drop (pa % 64)).take m) e.pois) := by
  have hstatus : (ctxOf s cid).status = .parked (.load va pa m home acq nc trk) := hpark
  simp only [loadSync, hstatus, hline]

theorem loadSync_of_home (hpark : (s.ctx cid).status = .parked (.load va pa m home acq nc trk))
    (hline : (if home then none else dlineOf s (coreOfCid cid) pa) = none) (hown : ownPending (corePending s (coreOfCid cid)) pa m = false) :
    loadSync s cid =
      (let r := homeRead { s with hub := countClaim s.hub pa trk } pa m
       land (acquireLine (refreshD r.1 (coreOfCid cid) pa (!home && !nc)) cid pa acq) cid (pieces va r.2.1 r.2.2)) := by
  have hstatus : (ctxOf s cid).status = .parked (.load va pa m home acq nc trk) := hpark
  simp only [loadSync, hstatus, hline, hown, Bool.false_eq_true, if_false]

theorem loadArrives (hup : s.hub.up = true) (hpark : (s.ctx cid).status = .parked (.load va pa m home acq nc trk)) (hplain : s.plain pa m)
    (hm : m ≤ 16) (hown : ownPending (corePending s (coreOfCid cid)) pa m = false) :
    let bs := match (if home then none else dlineOf s (coreOfCid cid) pa) with
      | some e => (e.bytes.drop (pa % 64)).take m
      | none => homeBytes s pa m
    ∃ w po, exec (.loadDataArrival cid none) s = .next w ∧ (w.ctx cid).status = .issuing ∧
      (w.ctx cid).landed = (s.ctx cid).landed ++ [{ va := va, n := bs.length, val := quadOf bs, pois := po, flag := false, atom := false, eq := false }] ∧
      ∀ a, homeByte w a = homeByte s a := by
  cases hline : (if home then none else dlineOf s (coreOfCid cid) pa) with
  | some e =>
    have hclaim := countClaim_served s pa trk
    exact arrival_next hup (loadSync_of_dline hpark hline) ((List.length_take_le ..).trans hm) rfl (congrArg Prod.fst hclaim.base) hclaim.cells
  | none =>
    obtain ⟨hserved, hbytes⟩ := served_by_home trk (coreOfCid cid) (!home && !nc) hplain
    obtain ⟨hlanded, hhub, hcells⟩ := acquireLine_leaves
      (refreshD (homeRead { s with hub := countClaim s.hub pa trk } pa m).1 (coreOfCid cid) pa (!home && !nc)) cid pa acq
    have hload := loadSync_of_home hpark hline hown
    dsimp only at hload
    rw [hbytes] at hload
    refine arrival_next hup hload (by simpa [homeBytes, upto] using hm) ?_ ?_ (hcells.trans hserved.cells)
    · exact hlanded.trans (congrArg Ctx.landed (hserved.ctx cid) :)
    · rw [hhub]
      exact congrArg Prod.fst hserved.base

end Arrival

/-! ## The arrival of an asynchronous load (R247) -/

/-- A buffer after a view is written back. -/
theorem putLoc_buf (s : State) (l : Loc) (sp : Nat) : ((s.putLoc l).loc l.cid).buf sp = l.buf sp := by
  have hcore : ((s.putLoc l).loc l.cid).core = l.core := (putLoc_core ..).trans (if_pos rfl)
  have hclus : ((s.putLoc l).loc l.cid).clus = l.clus := (putLoc_clus ..).trans (if_pos rfl)
  rw [Loc.buf, Loc.buf, hcore, hclus]

theorem buf_of_quiet {s t : State} (h : State.Quiet s t) (cid sp : Nat) : (t.loc cid).buf sp = (s.loc cid).buf sp := by
  have hcore := h.core (coreOfCid cid)
  have hw : (t.loc cid).core.w = (s.loc cid).core.w := (congrArg Core.w hcore :)
  have hx : (t.loc cid).core.x = (s.loc cid).core.x := (congrArg Core.x hcore :)
  have hy : (t.loc cid).core.y = (s.loc cid).core.y := (congrArg Core.y hcore :)
  have hs : (t.loc cid).clus = (s.loc cid).clus := congrArg (mget emptyCluster · _) h.clus
  rw [Loc.buf, Loc.buf, hw, hx, hy, hs]

/-- A view whose load k has landed in its buffer. -/
def Loc.landing (l : Loc) (k : Nat) (e : ALoad) (bs : List Byte) (po : Bool) : Loc :=
  ({ l with ctx := { l.ctx with aldq := dropAt l.ctx.aldq k }.cntDec 0 } : Loc).writeBuf e.space e.off bs po

/-- A write to a buffer leaves the counts of the accesses in flight. -/
theorem writeBuf_cnt (l : Loc) (sp off : Nat) (bs : List Byte) (po : Bool) : (l.writeBuf sp off bs po).ctx.cnt = l.ctx.cnt := by
  have hjournal (l : Loc) (w : Nat) : (l.journalWord sp w).ctx.cnt = l.ctx.cnt := by
    unfold Loc.journalWord
    dsimp only
    split
    · rfl
    · split <;> rfl
  have hword (l : Loc) (sp w : Nat) (b : Bool) : (l.setWordPois sp w b).ctx.cnt = l.ctx.cnt := by
    unfold Loc.setWordPois
    split <;> rfl
  have hset (l : Loc) (m : Map Byte) : (l.setBuf sp m).ctx.cnt = l.ctx.cnt := by
    unfold Loc.setBuf
    split_ifs <;> rfl
  have hwakes (l : Loc) : (if sp = 4 then { l with wakes := l.wakes ++ linesFrom off bs.length } else l).ctx.cnt = l.ctx.cnt := by split <;> rfl
  unfold Loc.writeBuf
  dsimp only
  rw [writePois_keeps (fun l => l.ctx.cnt) hword, hwakes, hset]
  split
  · rfl
  · exact foldl_keeps (fun l : Loc => l.ctx.cnt) (fun l w => hjournal l w) _ _

/-- The context whose load has landed, after it is written back. -/
theorem putLoc_landing (t : State) (cid k : Nat) (e : ALoad) (bs : List Byte) (po : Bool) (hsp : e.space ∈ [1, 2, 3, 4]) :
    let w := t.putLoc ((t.loc cid).landing k e bs po)
    (w.ctx cid).aldq = dropAt (t.ctx cid).aldq k ∧ (w.ctx cid).cntOf 0 = (t.ctx cid).cntOf 0 - 1 ∧ w.hub = t.hub ∧ w.cells = t.cells ∧
      ∀ a, mget 0 ((w.loc cid).buf e.space) a = wrote bs e.off (mget 0 ((t.loc cid).buf e.space)) a := by
  intro w
  have hbeside : ((t.loc cid).landing k e bs po).beside = ({ t.loc cid with ctx := { t.ctx cid with aldq := dropAt (t.ctx cid).aldq k } } : Loc).beside :=
    writeBuf_beside ..
  have hcid : ((t.loc cid).landing k e bs po).cid = cid := (congrArg Loc.cid hbeside :)
  have hhub : w.hub = t.hub := (putLoc_hub ..).trans (congrArg Loc.hub hbeside :)
  have hctx : Ctx.alike (w.ctx cid) ((t.loc cid).landing k e bs po).ctx := by
    have hwoken := putLoc_ctx t ((t.loc cid).landing k e bs po) cid
    rw [if_pos hcid.symm] at hwoken
    exact hwoken.alike
  have hcnt : (w.ctx cid).cnt = (({ t.ctx cid with aldq := dropAt (t.ctx cid).aldq k } : Ctx).cntDec 0).cnt :=
    (congrArg Ctx.cnt hctx :).trans (writeBuf_cnt ..)
  refine ⟨(congrArg Ctx.aldq hctx :).trans (congrArg (fun l : Loc => l.ctx.aldq) hbeside :), ?_, hhub, ?_, fun a => ?_⟩
  · exact (congrArg (fld · 0 6) hcnt).trans (cntOf_cntDec _ (by decide))
  · rw [State.cells, putLoc_mem, putLoc_hostCache, hhub]
    rfl
  · have hbuf : (w.loc cid).buf e.space = putBytes ((t.loc cid).buf e.space) e.off bs := by
      have hput := putLoc_buf t ((t.loc cid).landing k e bs po) e.space
      rw [hcid] at hput
      exact hput.trans ((writeBuf_buf _ e.off bs po hsp hsp).trans (if_pos rfl))
    rw [hbuf, mget_putBytes]
    rfl

theorem loadAsync_eq {s : State} {cid k : Nat} {e : ALoad} (hqueued : (s.ctx cid).aldq[k]? = some e)
    (hown : ownPending ((corePending s (coreOfCid cid)).filter (fun g => decide (g.seq < e.seq))) e.pa e.n = false) :
    loadAsync s cid k =
      (let r := homeRead { s with hub := countClaim s.hub e.pa e.trk } e.pa e.n
       let t := refreshD r.1 (coreOfCid cid) e.pa (!e.nc)
       t.putLoc ((t.loc cid).landing k e r.2.1 (r.2.2 || e.pois))) := by
  have hq : (ctxOf s cid).aldq[k]? = some e := hqueued
  simp only [loadAsync, hq, hown, Bool.false_eq_true, if_false]
  rfl

theorem asyncLoadArrives {s : State} {cid k : Nat} {e : ALoad} (hup : s.hub.up = true) (hqueued : (s.ctx cid).aldq[k]? = some e)
    (hplain : s.plain e.pa e.n) (hown : ownPending ((corePending s (coreOfCid cid)).filter (fun g => decide (g.seq < e.seq))) e.pa e.n = false)
    (hsp : e.space ∈ [1, 2, 3, 4]) :
    ∃ w, exec (.loadDataArrival cid (some k)) s = .next w ∧ (w.ctx cid).aldq = dropAt (s.ctx cid).aldq k ∧
      (w.ctx cid).cntOf 0 = (s.ctx cid).cntOf 0 - 1 ∧ (∀ a, homeByte w a = homeByte s a) ∧
      ∀ a, mget 0 ((w.loc cid).buf e.space) a = wrote (homeBytes s e.pa e.n) e.off (mget 0 ((s.loc cid).buf e.space)) a := by
  obtain ⟨hserved, hbytes⟩ := served_by_home e.trk (coreOfCid cid) (!e.nc) hplain
  have hload := loadAsync_eq hqueued hown
  dsimp only at hload
  rw [hbytes] at hload
  obtain ⟨haldq, hcnt, hhub, hcells, hbuf⟩ := putLoc_landing
    (refreshD (homeRead { s with hub := countClaim s.hub e.pa e.trk } e.pa e.n).1 (coreOfCid cid) e.pa (!e.nc)) cid k e (homeBytes s e.pa e.n)
    ((homeRead { s with hub := countClaim s.hub e.pa e.trk } e.pa e.n).2.2 || e.pois) hsp
  have hctx := hserved.ctx cid
  refine ⟨_, (congrArg (live s) hload).trans (live_up hup ?_), ?_, ?_, fun a => homeByte_of_cells (hcells.trans hserved.cells) a, fun a => ?_⟩
  · rw [hhub]
    exact congrArg Prod.fst hserved.base
  · rw [haldq]
    exact congrArg (dropAt · k) (congrArg Ctx.aldq hctx :)
  · rw [hcnt]
    exact congrArg (· - 1) (congrArg (Ctx.cntOf · 0) hctx :)
  · rw [hbuf, buf_of_quiet hserved.toQuiet]

/-- Settles O29: a load parks, goes on with its datum, or queues; an arrival gives the bytes of the line or of the home. -/
theorem loadsParkAndLand : Obligations.LoadsParkAndLand := by
  unfold Obligations.LoadsParkAndLand
  intro s v c u d s1 o sc g t x cid k n l ptr key ld lda found src done
  have hld (hmem : Opd.isMem d = false) : bodyLd v c u d s1 l = ldSync l ld v u s1 false none [0] false := if_neg (by simp [hmem])
  refine ⟨?_, ?_, ?_, ?_, ?_, ?_, ?_, ?_⟩
  · intro hgoes hmem hreach hlanded
    exact issue_park hgoes ((hld hmem).trans (ldSync_parks (by simp) hreach hlanded))
  · intro hgoes hreach hlanded
    rw [← wide_eq]
    exact issue_park hgoes (ldSync_parks (by simp) hreach hlanded)
  · intro hgoes hmem hspace halign hfound hreads
    exact issue_next hgoes ((hld hmem).trans (ldSync_landed (by simp) hspace halign hfound hreads))
  · intro hgoes hspace halign hfound hreads
    exact issue_next hgoes (ldSync_landed (by simp) hspace halign hfound hreads)
  · intro hgoes hbuf hspace hreads q from_ l1
    obtain ⟨-, hhigh, halign, hbounds⟩ := hbuf
    have hg : spaceOf ptr ≠ 0 := by omega
    have hcheck (k : Acc) : checkPtr l ptr n n k = .ok () := checkPtr_ok halign (.inr ⟨hhigh, hbounds⟩)
    have hread : readPtr l ptr n n (Scope.wide sc) (acqOf o sc) = .ok { val := q, pois := l.bufPois 4 (addrOf ptr) n } := by
      rw [readPtr_buffer (hcheck .read) hg, hspace]
    have hacquire : (match acqOf o sc with
        | some sc => if spaceOf ptr ≠ 0 ∧ Scope.wide sc then l1.acquire (BitVec.allOnes 256) else l1
        | none => l1) = if (o = .acq ∨ o = .ar) ∧ sc ≠ .core then l1.acquire (BitVec.allOnes 256) else l1 := by
      cases o <;> simp [acqOf, hg, wide_eq]
    have hbody := ldSync_ok (i := lda) (u := u) (spaces := [0, 4]) (marked := true) (by simpa using Or.inr hspace) (hcheck .read) (.inl hg) hread hreads
    rw [← hacquire]
    exact issue_next hgoes hbody
  · intro hgoes hmem hreach hbuf hroom
    obtain ⟨g, po, hbody⟩ := ldAsync_ok ld hreach hbuf hroom
    obtain ⟨hcnt, hpc, haldq⟩ := retired_loading (shape ld) g
      { pa := key, va := ptr, n := n, space := spaceOf (l.ea d n), off := addrOf (l.ea d n), trk := t.trk, nc := t.nc, pois := po, seq := l.core.seq } hroom
    exact ⟨_, po, issue_next hgoes ((if_pos hmem).trans hbody), hcnt, hpc, haldq, putLoc_outsideAlike _ _⟩
  · intro va pa m home acq nc trk hup hpark hplain hm hown
    exact loadArrives hup hpark hplain hm hown
  · intro e hup hqueued hplain hown hsp
    exact asyncLoadArrives hup hqueued hplain hown hsp

end Sys2Proof.Machine
end

