-- ==== Sys2Proof/Proofs/BitPlaneReads.lean ====
section
/-! SUPPORT. Planes that are read, and what BPRD gathers from them (O15). -/
namespace Sys2Proof.Machine
open Sys2Proof

/-! ## Planes (R186) -/

section Planes
variable {l : Loc} {ea : Word} {pp : Nat} {ds : Nat → Datum}

/-- A plane as an operand. -/
def planeSrc (l : Loc) (ea : Word) (pp : Nat) (ds : Nat → Datum) (j : Nat) : Src :=
  { val := (ds j).val, pois := (ds j).pois, ptr := l.poisPtr (planePtr ea pp j) 16 }

theorem readPlanes_ok {js : List Nat} (h : ∀ j ∈ js, readPtr l (planePtr ea pp j) 16 16 false none = .ok (ds j)) :
    readPlanes l ea pp js = .ok (js.map (planeSrc l ea pp ds)) := by
  induction js with
  | nil => rfl
  | cons j js ih =>
    obtain ⟨hj, hjs⟩ := List.forall_mem_cons.mp h
    simp only [readPlanes, hj, ih hjs, bind, Except.bind]
    rfl

/-- The planes are read up to the first that stops. -/
theorem readPlanes_stop {js ks : List Nat} {j0 : Nat} {x : Stop} (h : ∀ j ∈ js, readPtr l (planePtr ea pp j) 16 16 false none = .ok (ds j))
    (hstop : readPtr l (planePtr ea pp j0) 16 16 false none = .error x) : readPlanes l ea pp (js ++ j0 :: ks) = .error x := by
  induction js with
  | nil => simp only [List.nil_append, readPlanes, hstop, bind, Except.bind]
  | cons j js ih =>
    obtain ⟨hj, hjs⟩ := List.forall_mem_cons.mp h
    simp only [List.cons_append, readPlanes, hj, ih hjs, bind, Except.bind]

theorem upto_split {j0 p : Nat} (h : j0 < p) : ∃ ks, upto p = upto j0 ++ j0 :: ks := by
  obtain ⟨k, rfl⟩ := Nat.exists_eq_add_of_lt h
  refine ⟨((List.range k).map Nat.succ).map (j0 + ·), ?_⟩
  rw [upto, Nat.add_assoc, List.range_add, List.range_succ_eq_map]
  rfl

theorem readPlanes_upto_ok {p : Nat} (h : ∀ j < p, readPtr l (planePtr ea pp j) 16 16 false none = .ok (ds j)) :
    readPlanes l ea pp (upto p) = .ok ((upto p).map (planeSrc l ea pp ds)) := readPlanes_ok fun j hj => h j (List.mem_range.mp hj)

theorem readPlanes_upto_stop {p j0 : Nat} {x : Stop} (hj0 : j0 < p) (h : ∀ j < j0, readPtr l (planePtr ea pp j) 16 16 false none = .ok (ds j))
    (hstop : readPtr l (planePtr ea pp j0) 16 16 false none = .error x) : readPlanes l ea pp (upto p) = .error x := by
  obtain ⟨ks, hks⟩ := upto_split hj0
  rw [hks]
  exact readPlanes_stop (fun j hj => h j (List.mem_range.mp hj)) hstop

theorem planesSrc_pois (ps : List Src) : (planesSrc ps).pois = ps.any Src.pois := by
  unfold planesSrc
  cases hfind : ps.find? Src.pois with
  | some x => exact (List.find?_some hfind).trans (List.any_eq_true.mpr ⟨x, List.mem_of_find?_eq_some hfind, List.find?_some hfind⟩).symm
  | none => exact (List.any_eq_false.mpr (List.find?_eq_none.mp hfind)).symm

theorem based_pois (l : Loc) (o : Opd) (x : Src) : (l.based o x).pois = (l.basePois o || x.pois) := by
  unfold Loc.based
  cases l.basePois o <;> rfl

/-- The pitch and the group of a descriptor that BPRD and BPWR accept. -/
def planesValid (b : Src) (L : Nat) : Prop := b.val.toNat % 2 ^ 16 * 64 ≠ 0 ∧ b.val.toNat / 2 ^ 16 % 32 < 128 / L

theorem planeChecks_ok {b : Src} {L : Nat} {k : Acc} (h : planesValid b L) : planeChecks l ea (planePitch b.val) (planeGroup b.val) L k = .ok () :=
  if_neg (not_or.mpr ⟨h.1, Nat.not_le.mpr h.2⟩)

theorem planeChecks_fault {b : Src} {L : Nat} {k : Acc} (h : ¬ planesValid b L) :
    planeChecks l ea (planePitch b.val) (planeGroup b.val) L k = flt06 l ea k := if_pos (by
  rcases not_and_or.mp h with hpitch | hgroup
  · exact .inl (not_not.mp hpitch)
  · exact .inr (not_lt.mp hgroup))

/-! ## Planes in a buffer -/

/-- Planes 0 to p - 1 lie in one buffer, aligned. -/
def planesInside (ea : Word) (pp p : Nat) : Prop :=
  1 ≤ spaceOf ea ∧ spaceOf ea ≤ 4 ∧ addrOf ea % 16 = 0 ∧ addrOf ea + (p - 1) * pp + 16 ≤ bufSize (spaceOf ea)

theorem bufSize_lt (sp : Nat) : bufSize sp < 2 ^ 60 := by
  unfold bufSize
  split_ifs <;> decide

theorem plane_within {p j : Nat} (h : planesInside ea pp p) (hj : j < p) : addrOf ea + j * pp + 16 ≤ bufSize (spaceOf ea) := by
  obtain ⟨-, -, -, hend⟩ := h
  have hle : j * pp ≤ (p - 1) * pp := Nat.mul_le_mul_right _ (by omega)
  omega

theorem spaceOf_planePtr (j : Nat) : spaceOf (planePtr ea pp j) = spaceOf ea := spaceOf_ptrAdd ..

theorem addrOf_planePtr {p j : Nat} (h : planesInside ea pp p) (hj : j < p) : addrOf (planePtr ea pp j) = addrOf ea + j * pp := by
  have hwithin := plane_within h hj
  have hsize := bufSize_lt (spaceOf ea)
  exact addrOf_ptrAdd_of_lt (by omega)

theorem checkPtr_plane {p j : Nat} {k : Acc} (h : planesInside ea pp p) (hpp : 16 ∣ pp) (hj : j < p) :
    checkPtr l (planePtr ea pp j) 16 16 k = .ok () := by
  have hwithin := plane_within h hj
  obtain ⟨-, hhigh, halign, -⟩ := id h
  refine checkPtr_ok ?_ (.inr ?_)
  · rw [addrOf_planePtr h hj, Nat.add_mod, halign, Nat.mod_eq_zero_of_dvd (hpp.mul_left j)]
  · rw [addrOf_planePtr h hj, spaceOf_planePtr]
    exact ⟨hhigh, hwithin⟩

theorem sixteen_dvd_pitch (b : Quad) : 16 ∣ planePitch b := Dvd.dvd.mul_left (by decide) _

/-- A plane of a buffer. -/
def planeIn (l : Loc) (ea : Word) (pp j : Nat) : Datum :=
  { val := quadOf (bytesAt (l.buf (spaceOf ea)) (addrOf ea + j * pp) 16), pois := l.bufPois (spaceOf ea) (addrOf ea + j * pp) 16 }

theorem readPtr_plane {p j : Nat} (h : planesInside ea pp p) (hpp : 16 ∣ pp) (hj : j < p) :
    readPtr l (planePtr ea pp j) 16 16 false none = .ok (planeIn l ea pp j) := by
  obtain ⟨hlow, -⟩ := id h
  rw [readPtr_buffer (checkPtr_plane h hpp hj) (by rw [spaceOf_planePtr]; omega), spaceOf_planePtr, addrOf_planePtr h hj]
  rfl

theorem leVal_lt (bs : List Byte) : leVal bs < 2 ^ (8 * bs.length) := by
  induction bs with
  | nil => decide
  | cons b bs ih =>
    have hb := b.isLt
    rw [leVal, List.length_cons, Nat.mul_succ, Nat.pow_add]
    omega

theorem length_bytesAt (m : Map Byte) (a n : Nat) : (bytesAt m a n).length = n := by
  induction n generalizing a with
  | zero => rfl
  | succ n ih => rw [bytesAt, List.length_cons, ih]

theorem toNat_quadOf {bs : List Byte} (h : bs.length ≤ 16) : (quadOf bs).toNat = leVal bs := by
  rw [quadOf, BitVec.toNat_ofNat]
  exact Nat.mod_eq_of_lt ((leVal_lt bs).trans_le (Nat.pow_le_pow_right two_pos (by omega)))

theorem toNat_planeIn (l : Loc) (ea : Word) (pp j : Nat) :
    (planeIn l ea pp j).val.toNat = leVal (bytesAt (l.buf (spaceOf ea)) (addrOf ea + j * pp) 16) := toNat_quadOf (length_bytesAt ..).le

end Planes

/-! ## BPRD (R186) -/

theorem planeCount_eq (e : Env) : planeCount e = match e.fw with | some fw => fw.toNat % 16 - 1 | none => 8 := by
  simp only [planeCount, fwA_eq] <;> rfl

/-- An element that planes 0 to p - 1 hold: bit 7 - j from plane j. -/
def gathered (p : Nat) (pl : Nat → Nat) (k : Nat) : Int :=
  Int.fdiv (signed 8 ((List.range p).map (fun j => if (pl j).testBit k then 2 ^ (7 - j) else 0)).sum) ((2 : Int) ^ (8 - p))

theorem planeElem_eq (l : Loc) (ea : Word) (pp p : Nat) (ds : Nat → Datum) (k : Nat) :
    planeElem ((upto p).map (planeSrc l ea pp ds)) p k = gathered p (fun j => (ds j).val.toNat) k := by
  have hbit (j : Nat) (hj : j ∈ List.range p) :
      (bit ((((upto p).map (planeSrc l ea pp ds)).getD j (clean 0)).val.toNat) k).toNat * 2 ^ (7 - j) =
        if ((ds j).val.toNat).testBit k then 2 ^ (7 - j) else 0 := by
    have hget : ((upto p).map (planeSrc l ea pp ds)).getD j (clean 0) = planeSrc l ea pp ds j := by simp [upto, List.mem_range.mp hj]
    rw [hget, bit_eq_testBit, planeSrc]
    cases ((ds j).val.toNat).testBit k <;> simp
  have hpow : (2 : Int) ^ (8 - p) = (2 ^ (8 - p) : Nat) := by norm_cast
  rw [planeElem, gathered, sextI_eq _ _ (by decide), ← List.map_congr_left hbit, List.sum_eq_foldl, List.foldl_map, hpow,
    Int.fdiv_eq_ediv_of_nonneg _ (Int.natCast_nonneg _)]
  rfl

/-- The lanes of BPRD. -/
def gatheredLanes (v : View) (e : Env) (p : Nat) (pl : Nat → Nat) (grp sw : Nat) : Out :=
  if sw % 2 ^ 9 = 256 ∨ 2 ^ 9 ≤ sw then { plainOut 0 false with pois := true }
  else lanesOut (View.lw v) (fun i =>
    if (match e.fw with | some fw => fw.getLsbD 10 | none => false) then 2 * gathered p pl (grp * (128 / View.lw v) + i) + 1
    else gathered p pl (grp * (128 / View.lw v) + i))

theorem bprdOut_eq (v : View) (e : Env) (l : Loc) (ea : Word) (pp : Nat) (ds : Nat → Datum) (grp : Nat) {sw : Nat} (hsw : sw < 2 ^ 16) :
    bprdOut v e ((upto (planeCount e)).map (planeSrc l ea pp ds)) grp sw =
      gatheredLanes v e (planeCount e) (fun j => (ds j).val.toNat) grp sw := by
  simp only [bprdOut, gatheredLanes, voidScale_iff hsw, planeElem_eq]
  split
  · rfl
  · exact outQ_ofLanes fun i => wrapped_mod ..

section Bprd
variable {v : View} {c : Cond} {d s1 s2 x : Opd} {s : State} {g : Args}

theorem shape_bprd : shape (.bprd v c d s1 s2 x) =
    { s1 := some (s1, .bytes 16), s2 := some (s2, .scalar 8), x := some (x, .scalar 2), d := some (d, .vector), dRead := false } := rfl

theorem fetchArgs_bprd (h : readsFor s v (.bprd v c d s1 s2 x) g) :
    fetchOpt s.here v (envOf s.here.ctx (.bprd v c d s1 s2 x)).rm (some (s2, .scalar 8)) = .ok g.b ∧
    fetchOpt s.here v (envOf s.here.ctx (.bprd v c d s1 s2 x)).rm (some (x, .scalar 2)) = .ok g.x ∧
    readyDst s.here (some (d, .vector)) = .ok g.dst ∧ g.d = s.here.based d (clean 0) := by
  obtain ⟨a, -, h⟩ := bind_ok h
  obtain ⟨b, hb, h⟩ := bind_ok h
  obtain ⟨y, hy, h⟩ := bind_ok h
  obtain ⟨old, hold, h⟩ := bind_ok h
  obtain ⟨dst, hdst, h⟩ := bind_ok h
  cases hold
  cases h
  exact ⟨hb, hy, hdst, rfl⟩

/-- BPRD with a bad pitch or group is fault 0x06. -/
theorem bprd_invalid (hgo : goes s (.bprd v c d s1 s2 x) = true) (hg : readsFor s v (.bprd v c d s1 s2 x) g)
    (hbad : ¬ planesValid g.b (View.lanes v)) :
    exec (.bprd v c d s1 s2 x) s = .next (s.putLoc (raise s.here { faultOf 0x06 with addr := s.here.ea s1 16, acc := 0 })) := by
  obtain ⟨hb, hy, -, -⟩ := fetchArgs_bprd hg
  refine issue_fault (body := bodyBprd v c d s1 s2 x) hgo ?_
  simp only [bodyBprd, shape_bprd, hb, hy, planeChecks_fault hbad, bind, Except.bind]
  rfl

/-- BPRD whose planes cannot all be read stops as the first of them does. -/
theorem bprd_stop {j0 : Nat} {ds : Nat → Datum} {e : Stop} (hg : readsFor s v (.bprd v c d s1 s2 x) g) (hvalid : planesValid g.b (View.lanes v))
    (hj0 : j0 < planeCount (envOf s.here.ctx (.bprd v c d s1 s2 x)))
    (h : ∀ j < j0, readPtr s.here (planePtr (s.here.ea s1 16) (planePitch g.b.val) j) 16 16 false none = .ok (ds j))
    (hstop : readPtr s.here (planePtr (s.here.ea s1 16) (planePitch g.b.val) j0) 16 16 false none = .error e) :
    bodyBprd v c d s1 s2 x s.here = .error e := by
  obtain ⟨hb, hy, -, -⟩ := fetchArgs_bprd hg
  have hplanes := readPlanes_upto_stop hj0 h hstop
  have hcheck : planeChecks s.here (s.here.ea s1 16) (planePitch g.b.val) (planeGroup g.b.val) (View.lanes v) .read = .ok () := planeChecks_ok hvalid
  simp only [bodyBprd, shape_bprd, hb, hy, hcheck, hplanes, bind, Except.bind]

theorem bprd_gathers {ds : Nat → Datum} (hgo : goes s (.bprd v c d s1 s2 x) = true) (hg : readsFor s v (.bprd v c d s1 s2 x) g)
    (hvalid : planesValid g.b (View.lanes v))
    (h : ∀ j < planeCount (envOf s.here.ctx (.bprd v c d s1 s2 x)),
      readPtr s.here (planePtr (s.here.ea s1 16) (planePitch g.b.val) j) 16 16 false none = .ok (ds j)) :
    let e := envOf s.here.ctx (.bprd v c d s1 s2 x)
    ∃ a : Src, a.pois = (s.here.basePois s1 || (List.range (planeCount e)).any (fun j => (ds j).pois)) ∧
      exec (.bprd v c d s1 s2 x) s = .next (s.retired ((s.here.take (shape (.bprd v c d s1 s2 x)) { g with a := a }).writeOut
        (shape (.bprd v c d s1 s2 x)) g.dst
        (gatheredLanes v e (planeCount e) (fun j => (ds j).val.toNat) (planeGroup g.b.val) (g.x.val.toNat % 2 ^ 16)) (Args.pois { g with a := a }))) := by
  obtain ⟨hb, hy, hdst, hd⟩ := fetchArgs_bprd hg
  intro e
  refine ⟨s.here.based s1 (planesSrc ((upto (planeCount e)).map (planeSrc s.here (s.here.ea s1 16) (planePitch g.b.val) ds))), ?_, ?_⟩
  · rw [based_pois, planesSrc_pois, List.any_map]
    rfl
  · refine issue_next (body := bodyBprd v c d s1 s2 x) hgo ?_
    have hsw : g.x.val.toNat % 2 ^ 16 < 2 ^ 16 := Nat.mod_lt _ (by decide)
    simp only [bodyBprd, shape_bprd, hb, hy, planeChecks_ok hvalid, readPlanes_upto_ok h, hdst, bprdOut_eq v _ _ _ _ _ _ hsw, bind, Except.bind, hd, e]

end Bprd

end Sys2Proof.Machine
end

