-- ==== Sys2Proof/Proofs/BitPlaneWrites.lean ====
section
/-! SUPPORT. Planes that BPWR merges and stores, and the bit-plane instructions (O15). -/
namespace Sys2Proof.Machine
open Sys2Proof

/-! ## The bits of a plane (R53, R187) -/

/-- A number summed from its bits. -/
theorem foldl_bits (b : Nat → Bool) (n : Nat) : (upto n).foldl (fun t e => t + (b e).toNat * 2 ^ e) 0 < 2 ^ n ∧
    ∀ k < n, ((upto n).foldl (fun t e => t + (b e).toNat * 2 ^ e) 0).testBit k = b k := by
  induction n with
  | zero => exact ⟨Nat.one_pos, fun k hk => absurd hk (Nat.not_lt_zero k)⟩
  | succ n ih =>
    obtain ⟨hlt, hbits⟩ := ih
    have hsucc : (upto (n + 1)).foldl (fun t e => t + (b e).toNat * 2 ^ e) 0 =
        2 ^ n * (b n).toNat + (upto n).foldl (fun t e => t + (b e).toNat * 2 ^ e) 0 := by
      rw [upto, List.range_succ, List.foldl_append, Nat.mul_comm, Nat.add_comm]
      rfl
    have hbit := Bool.toNat_le (b n)
    rw [hsucc]
    refine ⟨?_, fun k hk => ?_⟩
    · rw [Nat.pow_succ]
      have : 2 ^ n * (b n).toNat ≤ 2 ^ n * 1 := Nat.mul_le_mul_left _ hbit
      omega
    · rw [Nat.testBit_two_pow_mul_add _ hlt]
      split
      · next h => exact hbits k h
      · next h =>
        obtain rfl : k = n := by omega
        rw [Nat.sub_self]
        cases b k <;> rfl

theorem testBit_planeMerge (old : Quad) (vs : List Nat) (base j : Nat) {k : Nat} (hk : k < 128) : (planeMerge old vs base j).toNat.testBit k =
    if base ≤ k ∧ k < base + vs.length then (vs.getD (k - base) 0).testBit (7 - j) else old.toNat.testBit k := by
  obtain ⟨hlt, hbits⟩ := foldl_bits
    (fun e => if base ≤ e ∧ e < base + vs.length then bit (vs.getD (e - base) 0) (7 - j) else bit old.toNat e) 128
  rw [planeMerge, BitVec.toNat_ofNat]
  refine (congrArg (Nat.testBit · k) (Nat.mod_eq_of_lt hlt)).trans ((hbits k hk).trans ?_)
  simp only [bit_eq_testBit]

/-- The byte that a lane of BPWR is stored as. -/
def storedByte (v : View) (rm : Nat) (a y : Src) (i : Nat) : Nat :=
  wrapped 8 (toIntSat rm 8 ((if View.isFp v then (fmtOf v).unpack (laneAt (View.lw v) a i)
    else FVal.ofInt (signed (View.lw v) (laneAt (View.lw v) a i))).mul2 (-(signed 9 y.val.toNat)))).1

theorem bpwrLane_fst (v : View) (rm : Nat) (a y : Src) (i : Nat) :
    (bpwrLane v rm (sextI y.val.toNat 9) (lane (View.lw v) a.val i)).1 = storedByte v rm a y i := by
  rw [sextI_eq _ _ (by decide), lane_eq_laneAt]
  unfold bpwrLane storedByte
  cases View.isFp v
  · rw [sextI_eq _ _ (lw_pos v)]
    rfl
  · rfl

/-- A plane after BPWR, bit by bit. -/
theorem testBit_mergedPlane (v : View) (rm : Nat) (a b y : Src) (old : Quad) (j : Nat) {k : Nat} (hk : k < 128) :
    (planeMerge old (((upto (View.lanes v)).map (fun i => bpwrLane v rm (sextI y.val.toNat 9) (lane (View.lw v) a.val i))).map Prod.fst)
      (planeGroup b.val * View.lanes v) j).toNat.testBit k =
    if planeGroup b.val * View.lanes v ≤ k ∧ k < planeGroup b.val * View.lanes v + View.lanes v then
      (storedByte v rm a y (k - planeGroup b.val * View.lanes v)).testBit (7 - j)
    else old.toNat.testBit k := by
  rw [testBit_planeMerge _ _ _ _ hk, List.map_map, List.length_map, upto, List.length_range]
  split
  · next h =>
    have hlane : k - planeGroup b.val * View.lanes v < View.lanes v := by omega
    simp [hlane, bpwrLane_fst]
  · rfl

/-! ## Eight stores (R187) -/

section Stores
variable {l : Loc} {ea : Word} {pp : Nat}

theorem readyPlanes_ok {f : Nat → Ready} {js : List Nat} (h : ∀ j ∈ js, readyPtr l (planePtr ea pp j) 16 16 = .ok (f j)) :
    readyPlanes l ea pp js = .ok (js.map f) := by
  induction js with
  | nil => rfl
  | cons j js ih =>
    obtain ⟨hj, hjs⟩ := List.forall_mem_cons.mp h
    simp only [readyPlanes, hj, ih hjs, bind, Except.bind]
    rfl

/-- The first n planes stored, each where `f` says. -/
def Loc.storePlanes (l : Loc) (f : Nat → Ready) (data : Nat → List Byte) (po : Bool) (n : Nat) : Loc :=
  (upto n).foldl (fun l j => l.writeReady (f j) (data j) po plainStore) l

variable {f : Nat → Ready} {data : Nat → List Byte} {po : Bool}

theorem storePlanes_succ (n : Nat) : l.storePlanes f data po (n + 1) = (l.storePlanes f data po n).writeReady (f n) (data n) po plainStore := by
  rw [Loc.storePlanes, upto, List.range_succ, List.foldl_append]
  rfl

theorem storePlanes_beside (n : Nat) : (l.storePlanes f data po n).beside = l.beside := by
  induction n with
  | zero => rfl
  | succ n ih => rw [storePlanes_succ, writeReady_beside, ih]

/-- Planes that lie apart keep their bytes as the later ones are stored. -/
theorem mget_storePlanes {sp : Nat} {off : Nat → Nat} (hsp : sp ∈ [1, 2, 3, 4]) (hapart : ∀ i j, i < j → off i + 16 ≤ off j)
    (hlen : ∀ j, (data j).length = 16) (n : Nat) : ∀ j < n, ∀ i < 16,
      mget 0 ((l.storePlanes (fun j => .buf sp (off j)) data po n).buf sp) (off j + i) = (data j).getD i 0 := by
  induction n with
  | zero => exact fun j hj => absurd hj (Nat.not_lt_zero j)
  | succ n ih =>
    intro j hj i hi
    have hbuf : (l.storePlanes (fun j => .buf sp (off j)) data po (n + 1)).buf sp =
        putBytes ((l.storePlanes (fun j => .buf sp (off j)) data po n).buf sp) (off n) (data n) := by
      rw [storePlanes_succ]
      exact (writeBuf_buf _ _ _ _ hsp hsp).trans (if_pos rfl)
    rw [hbuf, mget_putBytes, hlen]
    obtain hlast | rfl : j < n ∨ j = n := by omega
    · have := hapart j n hlast
      rw [if_neg (by omega)]
      exact ih j hlast i hi
    · rw [if_pos (by omega), Nat.add_sub_cancel_left]

theorem bytesAt_eq {m : Map Byte} {a : Nat} {bs : List Byte} (h : ∀ i < bs.length, mget 0 m (a + i) = bs.getD i 0) : bytesAt m a bs.length = bs := by
  induction bs generalizing a with
  | nil => rfl
  | cons b bs ih =>
    have hhead : mget 0 m a = b := h 0 (Nat.succ_pos _)
    have htail : bytesAt m (a + 1) bs.length = bs := ih fun i hi => by
      rw [Nat.add_assoc, Nat.add_comm 1 i]
      exact h (i + 1) (Nat.succ_lt_succ hi)
    rw [List.length_cons, bytesAt, hhead, htail]

/-- A retirement leaves the buffers. -/
theorem retire_buf (l : Loc) (sp : Nat) : (retire l).buf sp = l.buf sp := by
  have hcore : (retire l).core.w = l.core.w ∧ (retire l).core.x = l.core.x ∧ (retire l).core.y = l.core.y := by
    change (if l.next = .gone then l.core else l.countPair.core).w = _ ∧ (if l.next = .gone then l.core else l.countPair.core).x = _ ∧
      (if l.next = .gone then l.core else l.countPair.core).y = _
    unfold Loc.countPair
    split_ifs <;> exact ⟨rfl, rfl, rfl⟩
  obtain ⟨hw, hx, hy⟩ := hcore
  rw [Loc.buf, Loc.buf, hw, hx, hy]
  rfl

/-- The planes of a context that has retired its stores to a buffer. -/
theorem bytesAt_retired_storePlanes {s : State} {sp : Nat} {off : Nat → Nat} (hsp : sp ∈ [1, 2, 3, 4]) (hapart : ∀ i j, i < j → off i + 16 ≤ off j)
    (hlen : ∀ j, (data j).length = 16) (hcid : l.cid = s.cur) (n : Nat) : ∀ j < n,
      bytesAt (((s.retired (l.storePlanes (fun j => .buf sp (off j)) data po n)).loc s.cur).buf sp) (off j) 16 = data j := by
  intro j hj
  have hbeside := storePlanes_beside (l := l) (f := fun j => .buf sp (off j)) (data := data) (po := po) n
  have hbytes := mget_storePlanes (l := l) (po := po) hsp hapart hlen n j hj
  generalize l.storePlanes (fun j => .buf sp (off j)) data po n = m at *
  have hput : ((s.retired m).loc s.cur).buf sp = (retire m).buf sp := (congrArg Loc.cid hbeside :).trans hcid ▸ putLoc_buf s (retire m) sp
  rw [hput, retire_buf, ← hlen j]
  exact bytesAt_eq fun i hi => hbytes i (hlen j ▸ hi)

theorem storeG_cntOf {va : Word} {key : Nat} {trk : Bool} {bs : List Byte} {k : StoreKind} (hroom : l.ctx.cntOf 1 < 63) :
    (l.storeG va key trk bs po k).ctx.cntOf 1 = l.ctx.cntOf 1 + 1 :=
  fld_setFld_same (v := l.ctx.cntOf 1 + 1) l.ctx.cnt (by decide) (by omega)

theorem storeG_stq (va : Word) (key : Nat) (trk : Bool) (bs : List Byte) (k : StoreKind) :
    ∃ st : GStore, (l.storeG va key trk bs po k).ctx.stq = l.ctx.stq ++ [st] ∧ (st.va, st.bytes) = (va, bs) := ⟨_, rfl, rfl⟩

/-- Stores to G wait in the order of the planes. -/
theorem storePlanes_stq {va : Nat → Word} {at_ : Nat → Nat × Bool} (n : Nat) (hroom : l.ctx.cntOf 1 + n ≤ 63) :
    let m := l.storePlanes (fun j => .g (va j) (at_ j).1 (at_ j).2) data po n
    m.ctx.cntOf 1 = l.ctx.cntOf 1 + n ∧
      ∃ gs : List GStore, m.ctx.stq = l.ctx.stq ++ gs ∧ gs.map (fun g => (g.va, g.bytes)) = (List.range n).map (fun j => (va j, data j)) := by
  induction n with
  | zero => exact ⟨rfl, [], (List.append_nil _).symm, rfl⟩
  | succ n ih =>
    obtain ⟨hcnt, gs, hstq, hgs⟩ := ih (by omega)
    obtain ⟨st, hst, hparts⟩ := storeG_stq (l := l.storePlanes (fun j => .g (va j) (at_ j).1 (at_ j).2) data po n) (po := po)
      (va n) (at_ n).1 (at_ n).2 (data n) plainStore
    rw [storePlanes_succ]
    refine ⟨(storeG_cntOf (by omega)).trans (congrArg (· + 1) hcnt), gs ++ [st], hst.trans (by rw [hstq, List.append_assoc]), ?_⟩
    rw [List.map_append, hgs, List.range_succ, List.map_append]
    exact congrArg ((List.range n).map (fun j => (va j, data j)) ++ [·]) hparts

/-- The stores of a context that has retired them to G. -/
theorem retired_storePlanes_stq {s : State} {va : Nat → Word} {at_ : Nat → Nat × Bool} (n : Nat) (hnext : l.next = .seq) (hcid : l.cid = s.cur)
    (hroom : l.ctx.cntOf 1 + n ≤ 63) :
    let t := s.retired (l.storePlanes (fun j => .g (va j) (at_ j).1 (at_ j).2) data po n)
    (t.ctx s.cur).cntOf 1 = l.ctx.cntOf 1 + n ∧
      ∃ gs : List GStore, (t.ctx s.cur).stq = l.ctx.stq ++ gs ∧ gs.map (fun g => (g.va, g.bytes)) = (List.range n).map (fun j => (va j, data j)) := by
  have hbeside := storePlanes_beside (l := l) (f := fun j => .g (va j) (at_ j).1 (at_ j).2) (data := data) (po := po) n
  obtain ⟨hcnt, gs, hstq, hgs⟩ := storePlanes_stq (data := data) (po := po) (va := va) (at_ := at_) n hroom
  generalize l.storePlanes (fun j => .g (va j) (at_ j).1 (at_ j).2) data po n = m at *
  have hseq : m.next = .seq := (congrArg Loc.next hbeside :).trans hnext
  have hctx : (s.retired m).ctx s.cur = (retire m).ctx := (congrArg Loc.cid hbeside :).trans hcid ▸ retired_ctx hseq s
  intro t
  refine ⟨?_, gs, ?_, hgs⟩
  · exact (congrArg (Ctx.cntOf · 1) hctx).trans ((congrArg (fld · 6 6) (retire_cnt hseq)).trans hcnt)
  · exact (congrArg Ctx.stq hctx).trans ((retire_stq hseq).trans hstq)

end Stores

theorem getElem?_map_upto {α : Type} (f : Nat → α) {n j : Nat} (hj : j ∈ upto n) : ((upto n).map f)[j]? = some (f j) := by
  rw [List.getElem?_map, upto, List.getElem?_range (List.mem_range.mp hj), Option.map_some]

/-! ## BPWR (R187) -/

section Bpwr
variable {v : View} {c : Cond} {d s1 s2 x : Opd} {s : State} {a b y : Src}

/-- The operands that BPWR reads before its planes. -/
def bpwrReads (s : State) (v : View) (i : Instr) (a b y : Src) : Prop :=
  fetchOpt s.here v (envOf s.here.ctx i).rm (shape i).s1 = .ok a ∧ fetchOpt s.here v 0 (shape i).s2 = .ok b ∧
    fetchOpt s.here v 0 (shape i).x = .ok y

theorem shape_bpwr : shape (.bpwr v c d s1 s2 x) =
    { s1 := some (s1, .vector), s2 := some (s2, .scalar 8), x := some (x, .scalar 2), d := some (d, .bytes 16), dRead := true } := rfl

theorem fetchOpt_bpwr (h : bpwrReads s v (.bpwr v c d s1 s2 x) a b y) :
    fetchOpt s.here v (envOf s.here.ctx (.bpwr v c d s1 s2 x)).rm (some (s1, .vector)) = .ok a ∧
    fetchOpt s.here v (envOf s.here.ctx (.bpwr v c d s1 s2 x)).rm (some (s2, .scalar 8)) = .ok b ∧
    fetchOpt s.here v (envOf s.here.ctx (.bpwr v c d s1 s2 x)).rm (some (x, .scalar 2)) = .ok y := h

theorem bpwr_invalid (hgo : goes s (.bpwr v c d s1 s2 x) = true) (h : bpwrReads s v (.bpwr v c d s1 s2 x) a b y)
    (hbad : ¬ planesValid b (View.lanes v)) :
    exec (.bpwr v c d s1 s2 x) s = .next (s.putLoc (raise s.here { faultOf 0x06 with addr := s.here.ea d 16, acc := 1 })) := by
  obtain ⟨ha, hb, hy⟩ := fetchOpt_bpwr h
  refine issue_fault (body := bodyBpwr v c d s1 s2 x) hgo ?_
  simp only [bodyBpwr, shape_bpwr, ha, hb, hy, planeChecks_fault hbad, bind, Except.bind]
  rfl

theorem bpwr_stop {j0 : Nat} {ds : Nat → Datum} {e : Stop} (h : bpwrReads s v (.bpwr v c d s1 s2 x) a b y) (hvalid : planesValid b (View.lanes v))
    (hj0 : j0 < 8) (hread : ∀ j < j0, readPtr s.here (planePtr (s.here.ea d 16) (planePitch b.val) j) 16 16 false none = .ok (ds j))
    (hstop : readPtr s.here (planePtr (s.here.ea d 16) (planePitch b.val) j0) 16 16 false none = .error e) :
    bodyBpwr v c d s1 s2 x s.here = .error e := by
  obtain ⟨ha, hb, hy⟩ := fetchOpt_bpwr h
  have hplanes := readPlanes_upto_stop hj0 hread hstop
  simp only [bodyBpwr, shape_bpwr, ha, hb, hy, planeChecks_ok hvalid, hplanes, bind, Except.bind]

/-- The bytes that plane j is given. -/
def mergedBytes (v : View) (rm : Nat) (a b y : Src) (ds : Nat → Datum) (j : Nat) : List Byte :=
  leBytes 16 (planeMerge (ds j).val (((upto (View.lanes v)).map (fun i => bpwrLane v rm (sextI y.val.toNat 9) (lane (View.lw v) a.val i))).map Prod.fst)
    (planeGroup b.val * View.lanes v) j).toNat

/-- The flags that BPWR raises. -/
def bpwrFlags (v : View) (rm : Nat) (a y : Src) : FlagUp :=
  let vs := (upto (View.lanes v)).map (fun i => bpwrLane v rm (sextI y.val.toNat 9) (lane (View.lw v) a.val i))
  { noFlags with fps := vs.foldl (fun t r => t ||| r.2) 0 }

/-- BPWR whose planes can be read and written takes its operands and stores the eight planes. -/
theorem bpwr_ok {ds : Nat → Datum} {f : Nat → Ready} (h : bpwrReads s v (.bpwr v c d s1 s2 x) a b y) (hvalid : planesValid b (View.lanes v))
    (hread : ∀ j < 8, readPtr s.here (planePtr (s.here.ea d 16) (planePitch b.val) j) 16 16 false none = .ok (ds j))
    (hready : ∀ j < 8, readyPtr s.here (planePtr (s.here.ea d 16) (planePitch b.val) j) 16 16 = .ok (f j))
    (hroom : ¬ (spaceOf (s.here.ea d 16) = 0 ∧ 55 < s.here.ctx.cntOf 1)) :
    let rm := (envOf s.here.ctx (.bpwr v c d s1 s2 x)).rm
    ∃ g po, bodyBpwr v c d s1 s2 x s.here =
      .ok (((s.here.take (shape (.bpwr v c d s1 s2 x)) g).flags (bpwrFlags v rm a y)).storePlanes f (mergedBytes v rm a b y ds) po 8) := by
  intro rm
  obtain ⟨ha, hb, hy⟩ := fetchOpt_bpwr h
  have hplanes := readPlanes_upto_ok hread
  have hwrites := readyPlanes_ok (js := upto 8) fun j hj => hready j (List.mem_range.mp hj)
  have hnopark : (if spaceOf (s.here.ea d 16) = 0 ∧ 55 < s.here.ctx.cntOf 1 then parkOn s.here .stall else .ok ()) = (.ok () : Res Unit) := if_neg hroom
  let g : Args := { a := a, b := b, x := y, d := s.here.based d (planesSrc ((upto 8).map (planeSrc s.here (s.here.ea d 16) (planePitch b.val) ds)))
                    dst := .none_ }
  refine ⟨g, g.pois, ?_⟩
  simp only [bodyBpwr, shape_bpwr, ha, hb, hy, planeChecks_ok hvalid, hplanes, hwrites, hnopark, bind, Except.bind]
  unfold Loc.storePlanes
  refine congrArg Except.ok (List.foldl_ext _ _ _ fun m j hj => ?_)
  have hready : ((upto 8).map f)[j]? = some (f j) := getElem?_map_upto f hj
  have hplane : ((upto 8).map (planeSrc s.here (s.here.ea d 16) (planePitch b.val) ds)).getD j (clean 0) =
      planeSrc s.here (s.here.ea d 16) (planePitch b.val) ds j := by
    rw [List.getD_eq_getElem?_getD, getElem?_map_upto _ hj, Option.getD_some]
  rw [hready, hplane]
  rfl

/-- Operands taken and flags written leave the place of a view and its stores. -/
theorem bpwrTaken_parts (l : Loc) (sh : Shape) (g : Args) (fl : FlagUp) : ((l.take sh g).flags fl).next = l.next ∧
    ((l.take sh g).flags fl).cid = l.cid ∧ ((l.take sh g).flags fl).ctx.cntOf 1 = l.ctx.cntOf 1 ∧ ((l.take sh g).flags fl).ctx.stq = l.ctx.stq := by
  have hpace := (flags_pace (l.take sh g) fl).trans (take_pace l sh g)
  exact ⟨(congrArg Loc.next hpace :), (congrArg Loc.cid hpace :), congrArg (fld · 6 6) (take_cnt l sh g), take_stq l sh g⟩

/-- Planes of a pitch above zero lie apart. -/
theorem planes_apart {L : Nat} (hvalid : planesValid b L) (base i j : Nat) (hij : i < j) :
    base + i * planePitch b.val + 16 ≤ base + j * planePitch b.val := by
  have hpitch : planePitch b.val ≠ 0 := hvalid.1
  have hge : 64 ≤ planePitch b.val := by unfold planePitch at *; omega
  have hnext : (i + 1) * planePitch b.val ≤ j * planePitch b.val := Nat.mul_le_mul_right _ hij
  rw [Nat.succ_mul] at hnext
  omega

theorem testBit_mergedBytes (v : View) (rm : Nat) (a b y : Src) (ds : Nat → Datum) (j : Nat) {k : Nat} (hk : k < 128) :
    (leVal (mergedBytes v rm a b y ds j)).testBit k =
    if planeGroup b.val * View.lanes v ≤ k ∧ k < planeGroup b.val * View.lanes v + View.lanes v then
      (storedByte v rm a y (k - planeGroup b.val * View.lanes v)).testBit (7 - j)
    else (ds j).val.toNat.testBit k := by
  rw [mergedBytes, leVal_leBytes, Nat.mod_eq_of_lt (BitVec.isLt _)]
  exact testBit_mergedPlane v rm a b y (ds j).val j hk

/-- BPWR in a buffer: each plane is given its bytes at once. -/
theorem bpwr_buffer (hgo : goes s (.bpwr v c d s1 s2 x) = true) (h : bpwrReads s v (.bpwr v c d s1 s2 x) a b y)
    (hvalid : planesValid b (View.lanes v)) (hin : planesInside (s.here.ea d 16) (planePitch b.val) 8) :
    ∃ t, exec (.bpwr v c d s1 s2 x) s = .next t ∧ ∀ j < 8,
      bytesAt ((t.loc s.cur).buf (spaceOf (s.here.ea d 16))) (addrOf (s.here.ea d 16) + j * planePitch b.val) 16 =
        mergedBytes v (envOf s.here.ctx (.bpwr v c d s1 s2 x)).rm a b y (planeIn s.here (s.here.ea d 16) (planePitch b.val)) j := by
  have hdvd := sixteen_dvd_pitch b.val
  obtain ⟨hlow, hhigh, -, -⟩ := id hin
  have hready (j : Nat) (hj : j < 8) : readyPtr s.here (planePtr (s.here.ea d 16) (planePitch b.val) j) 16 16 =
      .ok (.buf (spaceOf (s.here.ea d 16)) (addrOf (s.here.ea d 16) + j * planePitch b.val)) := by
    rw [readyPtr_buffer (checkPtr_plane hin hdvd hj) (by rw [spaceOf_planePtr]; omega), spaceOf_planePtr, addrOf_planePtr hin hj]
  obtain ⟨g, po, hbody⟩ := bpwr_ok (f := fun j => .buf (spaceOf (s.here.ea d 16)) (addrOf (s.here.ea d 16) + j * planePitch b.val)) h hvalid
    (fun j hj => readPtr_plane hin hdvd hj) hready (by omega)
  have hsp : spaceOf (s.here.ea d 16) ∈ [1, 2, 3, 4] := by simp; omega
  exact ⟨_, issue_next (body := bodyBpwr v c d s1 s2 x) hgo hbody,
    bytesAt_retired_storePlanes hsp (planes_apart hvalid _) (fun _ => length_leBytes ..) (bpwrTaken_parts ..).2.1 8⟩

theorem readyPtr_g {l : Loc} {ptr : Word} {n align : Nat} {r : Ready} (hspace : spaceOf ptr = 0) (h : readyPtr l ptr n align = .ok r) :
    ∃ at_ : Nat × Bool, r = .g ptr at_.1 at_.2 := by
  obtain ⟨_, -, h⟩ := bind_ok h
  rw [if_pos hspace] at h
  obtain ⟨t, -, h⟩ := bind_ok h
  obtain ⟨_, -, h⟩ := bind_ok h
  obtain ⟨_, -, h⟩ := bind_ok h
  cases h
  exact ⟨(_, _), rfl⟩

/-- BPWR in G: eight stores join those that wait, in the order of the planes. -/
theorem bpwr_queues {ds : Nat → Datum} (hgo : goes s (.bpwr v c d s1 s2 x) = true) (h : bpwrReads s v (.bpwr v c d s1 s2 x) a b y)
    (hvalid : planesValid b (View.lanes v)) (hspace : spaceOf (s.here.ea d 16) = 0) (hroom : s.here.ctx.cntOf 1 ≤ 55)
    (hread : ∀ j < 8, readPtr s.here (planePtr (s.here.ea d 16) (planePitch b.val) j) 16 16 false none = .ok (ds j) ∧
      ∃ r, readyPtr s.here (planePtr (s.here.ea d 16) (planePitch b.val) j) 16 16 = .ok r) :
    ∃ t gs, exec (.bpwr v c d s1 s2 x) s = .next t ∧ (t.ctx s.cur).cntOf 1 = s.here.ctx.cntOf 1 + 8 ∧ (t.ctx s.cur).stq = s.here.ctx.stq ++ gs ∧
      gs.map (fun g => (g.va, g.bytes)) = (List.range 8).map (fun j => (planePtr (s.here.ea d 16) (planePitch b.val) j,
        mergedBytes v (envOf s.here.ctx (.bpwr v c d s1 s2 x)).rm a b y ds j)) := by
  have hready (j : Nat) : ∃ at_ : Nat × Bool, j < 8 → readyPtr s.here (planePtr (s.here.ea d 16) (planePitch b.val) j) 16 16 =
      .ok (.g (planePtr (s.here.ea d 16) (planePitch b.val) j) at_.1 at_.2) := by
    by_cases hj : j < 8
    · obtain ⟨r, hr⟩ := (hread j hj).2
      obtain ⟨at_, rfl⟩ := readyPtr_g ((spaceOf_planePtr j).trans hspace) hr
      exact ⟨at_, fun _ => hr⟩
    · exact ⟨(0, false), fun h => absurd h hj⟩
  choose at_ hat using hready
  obtain ⟨g, po, hbody⟩ := bpwr_ok h hvalid (fun j hj => (hread j hj).1) hat (by omega)
  obtain ⟨hnext, hcid, hcnt, hstq⟩ := bpwrTaken_parts s.here (shape (.bpwr v c d s1 s2 x)) g
    (bpwrFlags v (envOf s.here.ctx (.bpwr v c d s1 s2 x)).rm a y)
  obtain ⟨hcount, gs, hqueue, hgs⟩ := retired_storePlanes_stq (va := planePtr (s.here.ea d 16) (planePitch b.val)) (at_ := at_)
    (data := mergedBytes v (envOf s.here.ctx (.bpwr v c d s1 s2 x)).rm a b y ds) (po := po) 8 hnext hcid (by omega)
  exact ⟨_, gs, issue_next (body := bodyBpwr v c d s1 s2 x) hgo hbody, hcount.trans (by rw [hcnt]), hqueue.trans (by rw [hstq]), hgs⟩

end Bpwr

/-- A store of those that are queued. -/
theorem getElem?_of_map_eq {gs : List GStore} {va : Nat → Word} {data : Nat → List Byte} {n j : Nat} (pre : List GStore)
    (h : gs.map (fun g => (g.va, g.bytes)) = (List.range n).map (fun j => (va j, data j))) (hj : j < n) :
    ∃ g, (pre ++ gs)[pre.length + j]? = some g ∧ g.va = va j ∧ g.bytes = data j := by
  have hget : (gs.map (fun g => (g.va, g.bytes)))[j]? = some (va j, data j) := by
    rw [h]
    exact getElem?_map_upto (fun j => (va j, data j)) (List.mem_range.mpr hj)
  rw [List.getElem?_map, Option.map_eq_some_iff] at hget
  obtain ⟨g, hg, hparts⟩ := hget
  obtain ⟨hva, hbytes⟩ := Prod.mk.inj hparts
  exact ⟨g, by rw [List.getElem?_append_right (Nat.le_add_right ..), Nat.add_sub_cancel_left, hg], hva, hbytes⟩

/-- Settles O15: the planes are read in order up to the first that stops; BPRD joins their bits, and BPWR changes those of the group. -/
theorem bitPlaneResults : Obligations.BitPlaneResults := by
  unfold Obligations.BitPlaneResults
  intro v c d s1 s2 x s ds f w pk j0 bprd bpwr l L pitch group at_ read inside plane e p half valid lanes gathers writes bitOf
  have hp : planeCount e = p := planeCount_eq e
  have hgathers (g : Args) (ds : Nat → Datum) (hgo : goes s bprd = true) (hg : readsFor s v bprd g) (hvalid : valid g.b)
      (hread : ∀ j < p, read (l.ea s1 16) (pitch g.b) j = .ok (ds j)) : gathers g (fun j => (ds j).val.toNat) (fun j => (ds j).pois) := by
    obtain ⟨a, ha, hexec⟩ := bprd_gathers hgo hg hvalid (hp ▸ hread)
    have hlanes : gatheredLanes v e (planeCount e) (fun j => (ds j).val.toNat) (planeGroup g.b.val) (g.x.val.toNat % 2 ^ 16) =
        lanes g (fun j => (ds j).val.toNat) := by
      rw [hp]
      rfl
    exact ⟨a, hp ▸ ha, hlanes ▸ hexec⟩
  refine ⟨?_, ?_, ?_, ?_, ?_, ?_, ?_, ?_⟩
  · intro g hgo hg hbad
    exact bprd_invalid hgo hg hbad
  · intro g hgo hg hvalid hin
    have hread (j : Nat) (hj : j < p) := readPtr_plane (l := l) hin (sixteen_dvd_pitch g.b.val) hj
    have hresult := hgathers g (planeIn l (l.ea s1 16) (pitch g.b)) hgo hg hvalid hread
    simp only [toNat_planeIn] at hresult
    exact hresult
  · intro g hgo hg hvalid hread
    exact hgathers g ds hgo hg hvalid hread
  · intro g hgo hg hvalid hj0 hread
    have hstop {x : Stop} := bprd_stop (e := x) hg hvalid (hp.symm ▸ hj0) hread
    exact ⟨fun h => issue_fault hgo (hstop h), fun h _ => issue_park hgo (hstop h)⟩
  · intro a b y hgo hreads hbad
    exact bpwr_invalid hgo hreads hbad
  · intro a b y hgo hreads hvalid hin
    obtain ⟨t, hexec, hbytes⟩ := bpwr_buffer hgo hreads hvalid hin
    refine ⟨t, hexec, fun j hj k hk => ?_⟩
    have hbits := testBit_mergedBytes v (envOf l.ctx bpwr).rm a b y (planeIn l (l.ea d 16) (pitch b)) j hk
    rw [toNat_planeIn] at hbits
    exact (congrArg (fun bs => (leVal bs).testBit k) (hbytes j hj)).trans hbits
  · intro a b y hgo hreads hvalid hspace hroom hread
    obtain ⟨t, gs, hexec, hcnt, hstq, hgs⟩ := bpwr_queues hgo hreads hvalid hspace hroom hread
    have hlen : gs.length = 8 := by simpa using congrArg List.length hgs
    refine ⟨t, hexec, by rw [hstq, List.length_append, hlen], hcnt, fun j hj => ?_⟩
    obtain ⟨g, hg, hva, hbytes⟩ := getElem?_of_map_eq l.ctx.stq hgs hj
    refine ⟨g, by rw [hstq]; exact hg, hva, by rw [hbytes]; exact length_leBytes .., fun k hk => ?_⟩
    rw [hbytes]
    exact testBit_mergedBytes v (envOf l.ctx bpwr).rm a b y ds j hk
  · intro a b y hgo hreads hvalid hj0 hread
    have hstop {x : Stop} := bpwr_stop (e := x) hreads hvalid hj0 hread
    exact ⟨fun h => issue_fault hgo (hstop h), fun h _ => issue_park hgo (hstop h)⟩

end Sys2Proof.Machine
end

