-- ==== Sys2Proof/Proofs/Loops.lean ====
section
/-! SUPPORT. Loops: what LOOP sets up and where the end test goes (O23). -/
namespace Sys2Proof.Machine
open Sys2Proof

theorem stLPD_setBit47 (x : Word) (b : Bool) : stLPD (setBit x 47 b) = stLPD x := by
  have h := setBit_and (x := x) (m := 0x0000070000000000#64) (i := 47) (b := b) (by decide)
  rw [stLPD, ← fld_and _ (m := 0x0000070000000000#64) (by decide), h, fld_and x (by decide)]
  rfl

theorem stLPD_setFld {n : Nat} (x : Word) (h : n < 8) : stLPD (setFld x 40 3 n) = n := fld_setFld_same x (by decide) h

/-! ## LOOP (R198) -/

section Retire
variable {l : Loc} {pc : Word} (hnext : l.next = .at_ pc)
include hnext

/-- A retirement at a slot that the instruction names goes there, with its registers and loop sets as they are. -/
theorem retire_at : (retire l).ctx = { l.ctx with
    status := .issuing, landed := [], pairBad := false, bmov := 0, dleft := l.dl.getD (l.ctx.dleft - 1)
    stat := setBit l.ctx.stat 47 l.pfx, pc := pc, tgtCheck := false, endTest := atLend l.ctx } := by
  unfold retire
  rw [hnext]
  cases l.dl <;> rfl

/-- The context that has retired at a named slot, in the next state. -/
theorem retired_at_ctx (s : State) : (s.retired l).ctx l.cid = (retire l).ctx :=
  putLoc_ctx_self (l := retire l) (by rw [retire_at hnext]; exact fun _ h => by cases h)

end Retire

/-- The view of LOOP once its count has been read: the poison of a count in a register is consumed (R149). -/
def loopTaken (l : Loc) (cnt : Opd) : Loc := match cnt with | .preg p => if l.pPois p then l.consume regPtr else l | _ => l

/-- Reading the count changes no more than the marks of poison. -/
theorem loopTaken_beside (l : Loc) (cnt : Opd) :
    ∃ cir cira, loopTaken l cnt = { l with ctx := { l.ctx with cir := cir, cira := cira } } := by
  unfold loopTaken
  split
  · split
    · exact ⟨_, _, rfl⟩
    · exact ⟨_, _, rfl⟩
  · exact ⟨_, _, rfl⟩

/-- The view in which LOOP has set up the next loop set, from the context as it was (R198). -/
def loopSet (c : Ctx) (l : Loc) (last n : Word) : Loc :=
  let d := if stLPD c.stat = 0 then { l.ctx with lbeg0 := c.pc + 1, lend0 := last, lcnt0 := n - 1 }
    else { l.ctx with lbeg1 := c.pc + 1, lend1 := last, lcnt1 := n - 1 }
  { l with ctx := { d with stat := setFld d.stat 40 3 (stLPD c.stat + 1) }, next := .at_ (c.pc + 1) }

/-- LOOP, said with the view that has read its count. -/
theorem loopR_eq (l : Loc) (cnt : Opd) (off : BitVec 32) : loopR l cnt off =
    if loopCount l cnt = 0 then .ok { loopTaken l cnt with next := .at_ (l.ctx.pc + off.signExtend 64 + 1) }
    else (do
      need l (decide (stLPD l.ctx.stat < 2)) 0x07
      need l (!(stLPD l.ctx.stat == 1 && (decide (l.ctx.pc + 1 < l.ctx.lbeg0) || decide (l.ctx.pc + off.signExtend 64 > l.ctx.lend0)))) 0x07
      .ok (loopSet l.ctx (loopTaken l cnt) (l.ctx.pc + off.signExtend 64) (loopCount l cnt))) := rfl

/-- Whether LOOP finds a loop set for its body: the first, or the second for a body within that of the first (R198). -/
def loopFits (c : Ctx) (last : Word) : Prop := stLPD c.stat = 0 ∨ stLPD c.stat = 1 ∧ c.lbeg0 ≤ c.pc + 1 ∧ last ≤ c.lend0

section Loop
variable {l : Loc} {cnt : Opd} {off : BitVec 32}

/-- A count of zero goes past the body. -/
theorem loopR_zero (hn : loopCount l cnt = 0) :
    loopR l cnt off = .ok { loopTaken l cnt with next := .at_ (l.ctx.pc + off.signExtend 64 + 1) } := by
  rw [loopR_eq, if_pos hn]

theorem loopR_set (hn : loopCount l cnt ≠ 0) (hfits : loopFits l.ctx (l.ctx.pc + off.signExtend 64)) :
    loopR l cnt off = .ok (loopSet l.ctx (loopTaken l cnt) (l.ctx.pc + off.signExtend 64) (loopCount l cnt)) := by
  have hlevel : stLPD l.ctx.stat < 2 := by
    rcases hfits with h | ⟨h, -⟩ <;> omega
  have hinside : (stLPD l.ctx.stat == 1 && (decide (l.ctx.pc + 1 < l.ctx.lbeg0) || decide (l.ctx.pc + off.signExtend 64 > l.ctx.lend0))) = false := by
    rcases hfits with h | ⟨-, hbeg, hend⟩
    · rw [h]
      rfl
    · rw [decide_eq_false (BitVec.not_lt.mpr hbeg), decide_eq_false (BitVec.not_lt.mpr hend), Bool.or_false, Bool.and_false]
  rw [loopR_eq, if_neg hn, need_ok (decide_eq_true hlevel), need_ok (by rw [hinside]; rfl)]
  rfl

theorem loopR_fault (hn : loopCount l cnt ≠ 0) (hfits : ¬ loopFits l.ctx (l.ctx.pc + off.signExtend 64)) : loopR l cnt off = flt l 0x07 := by
  unfold loopFits at hfits
  rw [loopR_eq, if_neg hn]
  by_cases hlevel : stLPD l.ctx.stat < 2
  · have hone : stLPD l.ctx.stat = 1 := by omega
    have hout : l.ctx.lbeg0 ≤ l.ctx.pc + 1 → l.ctx.lend0 < l.ctx.pc + off.signExtend 64 :=
      fun hbeg => BitVec.not_le.mp fun hend => hfits (.inr ⟨hone, hbeg, hend⟩)
    rw [need_ok (decide_eq_true hlevel), need_flt (by simpa [hone] using hout)]
    rfl
  · rw [need_flt (decide_eq_false hlevel)]
    rfl

end Loop

/-! ## The end test (R199) -/

theorem loopTest_none {c : Ctx} {fuel : Nat} (h : stLPD c.stat = 0) : loopTest c fuel = c := by
  cases fuel with
  | zero => rfl
  | succ n => exact if_pos h

/-- The context with the count of loop j one less. -/
def Ctx.countDown (c : Ctx) (j : Nat) : Ctx := if j = 0 then { c with lcnt0 := c.lcnt0 - 1 } else { c with lcnt1 := c.lcnt1 - 1 }

/-- While the count of the innermost loop is above zero, the end test counts it down and goes back to its body. -/
theorem loopTest_back {c : Ctx} {fuel : Nat} (hlevel : stLPD c.stat ≠ 0) (hcnt : c.lcnt (stLPD c.stat - 1) ≠ 0) :
    loopTest c (fuel + 1) = { c.countDown (stLPD c.stat - 1) with pc := c.lbeg (stLPD c.stat - 1) } :=
  (if_neg hlevel).trans (if_pos hcnt)

theorem countDown_lcnt (c : Ctx) (j : Nat) (pc : Word) : { c.countDown j with pc := pc }.lcnt j = c.lcnt j - 1 := by
  unfold Ctx.lcnt Ctx.countDown
  split <;> rfl

theorem countDown_frame (c : Ctx) (j : Nat) : (c.countDown j).stat = c.stat ∧ (c.countDown j).endTest = c.endTest := by
  unfold Ctx.countDown
  split <;> exact ⟨rfl, rfl⟩

/-- At a count of zero the end test leaves the innermost loop. -/
theorem loopTest_leave {c : Ctx} {fuel : Nat} (hlevel : stLPD c.stat ≠ 0) (hcnt : c.lcnt (stLPD c.stat - 1) = 0) :
    loopTest c (fuel + 1) =
      (let d := { c with stat := setFld c.stat 40 3 (stLPD c.stat - 1), pc := c.lend (stLPD c.stat - 1) + 1 }
       if 0 < stLPD c.stat - 1 ∧ c.lend (stLPD c.stat - 1) = c.lend (stLPD c.stat - 1 - 1) then loopTest d fuel else d) :=
  (if_neg hlevel).trans (if_neg (not_not_intro hcnt))

/-- No end test is made due by an end test. -/
theorem loopTest_endTest (c : Ctx) (fuel : Nat) : (loopTest c fuel).endTest = c.endTest := by
  induction fuel generalizing c with
  | zero => rfl
  | succ fuel ih =>
    by_cases hlevel : stLPD c.stat = 0
    · rw [loopTest_none hlevel]
    · by_cases hcnt : c.lcnt (stLPD c.stat - 1) = 0
      · rw [loopTest_leave hlevel hcnt]
        dsimp only
        split
        · exact ih _
        · rfl
      · exact (congrArg Ctx.endTest (loopTest_back hlevel hcnt)).trans (countDown_frame ..).2

/-- The end test of the only active loop, at a count of zero. -/
theorem loopTest_leaves_first {c : Ctx} {fuel : Nat} (hlevel : stLPD c.stat = 1) (hcnt : c.lcnt 0 = 0) :
    loopTest c (fuel + 1) = { c with stat := setFld c.stat 40 3 0, pc := c.lend 0 + 1 } := by
  rw [loopTest_leave (by omega) (by rw [hlevel]; exact hcnt), hlevel]
  exact if_neg fun h => absurd h.1 (by decide)

/-- The end test of the inner loop of two, at a count of zero: it leaves the inner loop, and tests the outer one where both end together. -/
theorem loopTest_leaves_second {c : Ctx} {fuel : Nat} (hlevel : stLPD c.stat = 2) (hcnt : c.lcnt 1 = 0) :
    loopTest c (fuel + 1) =
      (let d := { c with stat := setFld c.stat 40 3 1, pc := c.lend 1 + 1 }
       if c.lend 1 = c.lend 0 then loopTest d fuel else d) := by
  rw [loopTest_leave (by omega) (by rw [hlevel]; exact hcnt), hlevel]
  simp only [Nat.add_one_sub_one, Nat.lt_add_one, true_and, Nat.sub_self]

/-- The context that the end test leaves, in the next state. -/
theorem loopEndTest_next {s : State} {cid : Nat} (hup : s.hub.up = true) (hissuing : (s.ctx cid).status = .issuing) (hdue : (s.ctx cid).endTest = true) :
    ∃ t, exec (.loopEndTest cid) s = .next t ∧ t.ctx cid = loopTest { s.ctx cid with endTest := false, tgtCheck := false } 2 := by
  have htest : testNow (s.ctx cid) = loopTest { s.ctx cid with endTest := false, tgtCheck := false } 2 := if_pos ⟨hissuing, hdue⟩
  have heff : effLoopEndTest cid s = putCtx s cid (testNow (s.ctx cid)) := if_pos ⟨hissuing, hdue⟩
  refine ⟨_, live_up hup (congrArg (fun t => t.hub.noRoom) heff), ?_⟩
  rw [heff, putCtx_get, if_pos rfl, htest]

section Clauses
variable {s : State} {cnt : Opd} {off : BitVec 32} (hgoes : goes s (.loop cnt off) = true)
include hgoes

/-- LOOP has retired at the slot that it names. -/
theorem loop_retired {l : Loc} {pc : Word} (hbody : loopR s.here cnt off = .ok l) (hnext : l.next = .at_ pc) (hcid : l.cid = s.cur) :
    exec (.loop cnt off) s = .next (s.retired l) ∧ (s.retired l).ctx s.cur = (retire l).ctx ∧ State.outsideAlike s (s.retired l) :=
  ⟨issue_next (body := bodyLoop cnt off) hgoes hbody, hcid ▸ retired_at_ctx hnext s, putLoc_outsideAlike _ _⟩

theorem loop_skips (hn : loopCount s.here cnt = 0) : ∃ t, exec (.loop cnt off) s = .next t ∧
    (t.ctx s.cur).pc = s.here.ctx.pc + off.signExtend 64 + 1 ∧ stLPD (t.ctx s.cur).stat = stLPD s.here.ctx.stat := by
  obtain ⟨cir, cira, htaken⟩ := loopTaken_beside s.here cnt
  obtain ⟨hexec, hctx, -⟩ := loop_retired hgoes (loopR_zero hn) rfl (by rw [htaken]; rfl)
  refine ⟨_, hexec, ?_⟩
  rw [hctx, retire_at (pc := s.here.ctx.pc + off.signExtend 64 + 1) rfl, htaken]
  exact ⟨rfl, stLPD_setBit47 ..⟩

/-- The next loop set takes the body and the count less one; the other loop set and the registers stay. -/
theorem loop_sets (hn : loopCount s.here cnt ≠ 0) (hfits : loopFits s.here.ctx (s.here.ctx.pc + off.signExtend 64)) :
    ∃ t cir cira, exec (.loop cnt off) s = .next t ∧ State.outsideAlike s t ∧
      t.ctx s.cur = (retire (loopSet s.here.ctx { s.here with ctx := { s.here.ctx with cir := cir, cira := cira } }
        (s.here.ctx.pc + off.signExtend 64) (loopCount s.here cnt))).ctx := by
  obtain ⟨cir, cira, htaken⟩ := loopTaken_beside s.here cnt
  obtain ⟨hexec, hctx, hout⟩ := loop_retired hgoes (loopR_set hn hfits) rfl (by rw [htaken]; rfl)
  exact ⟨_, cir, cira, hexec, hout, hctx.trans (by rw [htaken])⟩

end Clauses

/-- Settles O23: LOOP by whether its body fits the loop sets, and the end test by the count of the innermost loop. -/
theorem loopsSetUpAndRepeat : Obligations.LoopsSetUpAndRepeat := by
  unfold Obligations.LoopsSetUpAndRepeat
  intro s cnt off cid c last n fits i
  have hcount : loopCount s.here cnt = n := by cases cnt <;> rfl
  refine ⟨fun hgoes hn => loop_skips hgoes (hcount.trans hn), fun hgoes hn hlevel => ?_, fun hgoes hn hfits => ?_, fun hgoes hn hlevel hfits => ?_,
    fun hup hissuing hdue => ?_⟩
  · obtain ⟨t, cir, cira, hexec, hout, hctx⟩ := loop_sets hgoes (hcount ▸ hn) (.inl hlevel)
    have hlevel : stLPD s.here.ctx.stat = 0 := hlevel
    refine ⟨t, hexec, ?_⟩
    rw [hctx, retire_at (pc := c.pc + 1) rfl, loopSet, hcount, if_pos hlevel, hlevel]
    exact ⟨rfl, (stLPD_setBit47 ..).trans (stLPD_setFld _ (by decide)), rfl, rfl, rfl, rfl, rfl, rfl, rfl, hout⟩
  · obtain ⟨t, cir, cira, hexec, -, hctx⟩ := loop_sets hgoes (hcount ▸ hn) (.inr hfits)
    have hlevel : stLPD s.here.ctx.stat = 1 := hfits.1
    refine ⟨t, hexec, ?_⟩
    rw [hctx, retire_at (pc := c.pc + 1) rfl, loopSet, hcount, if_neg (by omega), hlevel]
    exact ⟨rfl, (stLPD_setBit47 ..).trans (stLPD_setFld _ (by decide)), rfl, rfl, rfl, rfl, rfl, rfl⟩
  · exact issue_fault (body := bodyLoop cnt off) hgoes (loopR_fault (hcount ▸ hn) fun h => h.elim hlevel hfits)
  · obtain ⟨t, hexec, hctx⟩ := loopEndTest_next hup hissuing hdue
    refine ⟨t, hexec, ?_⟩
    generalize hd : ({ s.ctx cid with endTest := false, tgtCheck := false } : Ctx) = d at hctx
    have hsame : d.stat = (s.ctx cid).stat ∧ d.lcnt = (s.ctx cid).lcnt ∧ d.lbeg = (s.ctx cid).lbeg ∧ d.lend = (s.ctx cid).lend ∧
        d.pc = (s.ctx cid).pc ∧ d.endTest = false := by
      rw [← hd]
      exact ⟨rfl, rfl, rfl, rfl, rfl, rfl⟩
    obtain ⟨hstat, hlcnt, hlbeg, hlend, hpc, hoff⟩ := hsame
    dsimp only
    rw [hctx, ← hstat, ← hlcnt, ← hlbeg, ← hlend, ← hpc]
    refine ⟨(loopTest_endTest ..).trans hoff, fun h => by rw [loopTest_none h], fun hlevel hcnt => ?_, fun hlevel hcnt => ?_,
      fun hlevel hcnt hends => ?_, fun hlevel hcnt hends => ⟨fun hout => ?_, fun hout => ?_⟩⟩
    · rw [loopTest_back hlevel hcnt]
      exact ⟨rfl, countDown_lcnt .., congrArg stLPD (countDown_frame ..).1⟩
    · rw [loopTest_leaves_first hlevel hcnt]
      exact ⟨rfl, stLPD_setFld _ (by decide)⟩
    · rw [loopTest_leaves_second hlevel hcnt, if_neg hends]
      exact ⟨rfl, stLPD_setFld _ (by decide)⟩
    · have hone := stLPD_setFld d.stat (n := 1) (by decide)
      rw [loopTest_leaves_second hlevel hcnt, if_pos hends, loopTest_back (by rw [hone]; decide) (by rw [hone]; exact hout), hone]
      exact ⟨rfl, countDown_lcnt .., (congrArg stLPD (countDown_frame ..).1).trans hone⟩
    · rw [loopTest_leaves_second hlevel hcnt, if_pos hends,
        loopTest_leaves_first (c := { d with stat := setFld d.stat 40 3 1, pc := d.lend 1 + 1 }) (stLPD_setFld _ (by decide)) hout]
      exact ⟨rfl, stLPD_setFld _ (by decide)⟩

end Sys2Proof.Machine
end

