-- ==== Sys2Proof/Proofs/Waits.lean ====
section
/-! SUPPORT. What a retirement leaves of a context; waits and fences (O25). -/
namespace Sys2Proof.Machine
open Sys2Proof

/-! ## What a retirement leaves (R91, R127, R206) -/

/-- A context with the progress through the program of another. -/
def Ctx.moved (c d : Ctx) : Ctx :=
  { c with status := d.status, landed := d.landed, pairBad := d.pairBad, bmov := d.bmov, dleft := d.dleft, stat := d.stat, pc := d.pc
           tgtCheck := d.tgtCheck, taken := d.taken, linked := d.linked, endTest := d.endTest }

theorem advance_moved (c : Ctx) : advance c = c.moved (advance c) := by
  unfold advance
  split
  · rfl
  · dsimp only
    split <;> rfl
  · rfl

/-- A retirement changes no more of a context than its progress. -/
theorem retire_moved (l : Loc) : (retire l).ctx = l.ctx.moved (retire l).ctx := by
  unfold retire
  cases l.next with
  | seq =>
    dsimp only
    split
    · exact congrArg (fun c : Ctx => { c with endTest := true }) (advance_moved _)
    · exact advance_moved _
  | at_ pc => rfl
  | jump pc => rfl
  | gone => rfl

/-- The slot after a retirement in sequence depends on the slot, the delay slots and the branch target alone. -/
theorem retire_pc_congr {l m : Loc} (hl : l.next = .seq) (hm : m.next = .seq) (hstat : l.ctx.stat = m.ctx.stat) (hpc : l.ctx.pc = m.ctx.pc)
    (hbtgt : l.ctx.btgt = m.ctx.btgt) : (retire l).ctx.pc = (retire m).ctx.pc := by
  rw [retire_pc hl, retire_pc hm, hstat, hpc, hbtgt]

/-! ## WAIT (R208, R209) -/

/-- Whether every count of outstanding operations is at or below its ceiling. -/
def countsLow (c : Ctx) (ceil : BitVec 24) : Prop := ∀ j < 4, c.cntOf j ≤ ceiling ceil j

/-- The deferred fault of a class. -/
def deferredOf (c : Ctx) (j : Nat) : Option DefFault := [c.defLD, c.defST, c.defCP, c.defTL].getD j none

theorem all_upto_iff {n : Nat} {p : Nat → Bool} : (upto n).all p = true ↔ ∀ j < n, p j = true := by
  simp [upto, List.all_eq_true]

section Wait
variable {l : Loc} {ceil : BitVec 24}

theorem waitR_parks (h : ¬ countsLow l.ctx ceil) : waitR l ceil = parkOn l .wait := by
  refine if_neg fun hall => h fun j hj => ?_
  exact of_decide_eq_true (all_upto_iff.mp hall j hj)

theorem raiseDue_none {cov : Nat → Bool} (h : dueFault l.ctx cov = none) : raiseDue l cov = .ok () := by
  unfold raiseDue
  rw [h]

theorem raiseDue_some {cov : Nat → Bool} {f : FaultInfo} (h : dueFault l.ctx cov = some f) : raiseDue l cov = .error (.fault l f) := by
  unfold raiseDue
  rw [h]

theorem waitR_low (h : countsLow l.ctx ceil) : waitR l ceil = (do
    raiseDue l (fun k => decide (ceiling ceil k < 63))
    .ok (coverG l (decide (ceiling ceil 2 < 63)) (decide (ceiling ceil 3 < 63)))) :=
  if_pos (all_upto_iff.mpr fun j hj => decide_eq_true (h j hj))

/-- No deferred fault is due when no covered class has one. -/
theorem dueFault_none {c : Ctx} {cov : Nat → Bool} (h : ∀ j < 4, cov j = true → deferredOf c j = none) : dueFault c cov = none := by
  have hnone (j : Nat) (hj : j < 4) (d : Option DefFault) (hd : deferredOf c j = d) : (if cov j then d else none) = none := by
    split
    · next hcov => rw [← hd, h j hj hcov]
    · rfl
  rw [dueFault, hnone 3 (by decide) c.defTL rfl, hnone 2 (by decide) c.defCP rfl, hnone 1 (by decide) c.defST rfl, hnone 0 (by decide) c.defLD rfl]

/-- The deferred fault that is due: the first of the covered classes in the order TL, CP, ST, LD. -/
theorem dueFault_first {c : Ctx} {cov : Nat → Bool} {j : Nat} {f : DefFault} (hj : j < 4) (hcov : cov j = true) (hf : deferredOf c j = some f)
    (hno : ∀ i < 4, j < i → cov i = true → deferredOf c i = none) : dueFault c cov = some (raised f (BitVec.ofNat 2 j)) := by
  have hnone (i : Nat) (hi : i < 4) (hji : j < i) (d : Option DefFault) (hd : deferredOf c i = d) : (if cov i then d else none) = none := by
    split
    · next hcov => rw [← hd, hno i hi hji hcov]
    · rfl
  unfold dueFault
  match j, hj with
  | 0, _ =>
    rw [hnone 3 (by decide) (by decide) c.defTL rfl, hnone 2 (by decide) (by decide) c.defCP rfl, hnone 1 (by decide) (by decide) c.defST rfl, if_pos hcov,
      show c.defLD = some f from hf]
    rfl
  | 1, _ =>
    rw [hnone 3 (by decide) (by decide) c.defTL rfl, hnone 2 (by decide) (by decide) c.defCP rfl, if_pos hcov, show c.defST = some f from hf]
    rfl
  | 2, _ =>
    rw [hnone 3 (by decide) (by decide) c.defTL rfl, if_pos hcov, show c.defCP = some f from hf]
    rfl
  | 3, _ =>
    rw [if_pos hcov, show c.defTL = some f from hf]
    rfl

/-- Covering a class writes the signature and its marks alone (R353). -/
theorem coverG_frame (l : Loc) (cp tl : Bool) :
    ∃ sig g t, coverG l cp tl = { l with ctx := { l.ctx with sig := sig, engG := g, engT := t } } := by
  unfold coverG
  split
  · exact ⟨_, _, _, rfl⟩
  · exact ⟨_, _, _, rfl⟩

end Wait

/-- A WAIT whose counts are low and that covers no deferred fault retires (R208). -/
theorem wait_next {s : State} {c : Cond} {ceil : BitVec 24} (hgoes : goes s (.wait c ceil) = true) (hlow : countsLow s.here.ctx ceil)
    (hno : ∀ j < 4, ceiling ceil j < 63 → deferredOf s.here.ctx j = none) : ∃ t, exec (.wait c ceil) s = .next t ∧
      (t.ctx s.cur).pc = (retire s.here).ctx.pc ∧ (t.ctx s.cur).cnt = s.here.ctx.cnt ∧ (t.ctx s.cur).p = s.here.ctx.p ∧ State.outsideAlike s t := by
  obtain ⟨sig, g, e, hcover⟩ := coverG_frame s.here (decide (ceiling ceil 2 < 63)) (decide (ceiling ceil 3 < 63))
  have hdue := dueFault_none (c := s.here.ctx) (cov := fun k => decide (ceiling ceil k < 63)) fun j hj hcov => hno j hj (of_decide_eq_true hcov)
  have hbody : bodyWait c ceil s.here = .ok (coverG s.here (decide (ceiling ceil 2 < 63)) (decide (ceiling ceil 3 < 63))) := by
    rw [bodyWait, waitR_low hlow, raiseDue_none hdue]
    rfl
  obtain ⟨hexec, hctx, hout⟩ := issue_retired (i := .wait c ceil) hgoes hbody (by rw [hcover]; rfl) (by rw [hcover]; rfl)
  refine ⟨_, hexec, ?_⟩
  rw [hctx, hcover]
  exact ⟨retire_pc_congr rfl rfl rfl rfl rfl, (congrArg Ctx.cnt (retire_moved _) :), (congrArg Ctx.p (retire_moved _) :), hcover ▸ hout⟩

/-! ## FENCE (R259, R356) -/

/-- A signature of all ones matches every line. -/
theorem sigMatch_allOnes (key : Nat) : sigMatch (BitVec.allOnes 256) key = true := by
  rw [sigMatch, BitVec.allOnes_and, beq_self_eq_true]

/-- An acquire with a signature of all ones empties the D-cache (R356). -/
theorem acquire_allOnes (l : Loc) : l.acquire (BitVec.allOnes 256) =
    { l with core := { l.core with dcache := [], icache := [] }, ctx := { l.ctx with sig := BitVec.allOnes 256 } } := by
  have hdrop : (l.core.dcache.filter fun d => !sigMatch (BitVec.allOnes 256) (64 * d.line)) = [] :=
    List.filter_eq_nil_iff.mpr fun d _ => by rw [sigMatch_allOnes]; exact Bool.false_ne_true
  rw [Loc.acquire, hdrop, BitVec.or_allOnes]

section Fence
variable {l : Loc} {sc : Scope} {o : Ord}

/-- A FENCE with acquire alone waits for nothing. -/
theorem fenceR_acq : fenceR l .acq sc = .ok (if sc = .core then l
    else { l with core := { l.core with dcache := [], icache := [] }, ctx := { l.ctx with sig := BitVec.allOnes 256 } }) := by
  cases sc with
  | core => rfl
  | clus | sect | dom | dev | sys => exact congrArg Except.ok (acquire_allOnes l)

/-- A FENCE with release waits for the stores of the context. -/
theorem fenceR_waits (ho : o = .rel ∨ o = .ar) (h : (l.ctx.cntOf 1 == 0 && storesReady l sc) = false) : fenceR l o sc = parkOn l .fence :=
  if_pos ⟨ho, by rw [h]; rfl⟩

/-- A FENCE with release whose stores are performed binds the next store; it acquires too when its order asks for it. -/
theorem fenceR_rel (ho : o = .rel ∨ o = .ar) (h : (l.ctx.cntOf 1 == 0 && storesReady l sc) = true) :
    ∃ m, fenceR l o sc = .ok m ∧ m.ctx.relNext = some sc ∧ m.next = l.next ∧ m.cid = l.cid := by
  have hwait : ¬ ((o = .rel ∨ o = .ar) ∧ (!(l.ctx.cntOf 1 == 0 && storesReady l sc)) = true) := by
    rw [h]
    exact fun hx => Bool.false_ne_true hx.2
  refine ⟨_, if_neg hwait, ?_⟩
  rw [if_pos ho]
  split <;> exact ⟨rfl, rfl, rfl⟩

end Fence

theorem storesReady_of {s : State} {sc : Scope} (hstq : s.here.ctx.stq = []) (hheld : sc = .sys → ∀ h ∈ s.hub.held, h.by_ ≠ some s.cur) :
    storesReady s.here sc = true := by
  have hsys : (sc != .sys || s.here.hub.held.all fun h => h.by_ != some s.here.cid) = true := by
    by_cases hsc : sc = .sys
    · rw [Bool.or_eq_true, List.all_eq_true]
      exact .inr fun h hmem => bne_iff_ne.mpr (hheld hsc h hmem)
    · rw [Bool.or_eq_true]
      exact .inl (bne_iff_ne.mpr hsc)
  rw [storesReady, hsys, hstq]
  rfl

/-- Settles O25: WAIT by its counts and the classes that it covers, FENCE by its order, QFENCE without a wait. -/
theorem waitsAndEngineFences : Obligations.WaitsAndEngineFences := by
  unfold Obligations.WaitsAndEngineFences
  intro s c ceil o sc m k low covers deferred
  refine ⟨fun hgoes hlow hno => wait_next hgoes hlow hno, fun hgoes hlow => ?_, fun j hj f hgoes hlow hcov hf hno => ?_, fun hgoes => ?_,
    fun hgoes ho hstq hcnt hheld => ?_, fun hgoes ho hstq => ?_, fun hgoes => ?_⟩
  · exact issue_park (body := bodyWait c ceil) hgoes (waitR_parks hlow)
  · have hdue := dueFault_first (c := s.here.ctx) (cov := fun k => decide (ceiling ceil k < 63)) hj (decide_eq_true hcov) hf
      fun i hi hji hcov => hno i hi hji (of_decide_eq_true hcov)
    refine issue_fault (body := bodyWait c ceil) hgoes ?_
    rw [bodyWait, waitR_low hlow, raiseDue_some hdue]
    rfl
  · exact issue_next (body := bodyFence c .acq sc) hgoes fenceR_acq
  · have hcnt : s.here.ctx.cntOf 1 = 0 := hcnt
    obtain ⟨l, hbody, hrel, hnext, hcid⟩ := fenceR_rel (l := s.here) (sc := sc) ho (by rw [hcnt, storesReady_of hstq hheld]; rfl)
    obtain ⟨hexec, hctx, -⟩ := issue_retired (i := .fence c o sc) (body := bodyFence c o sc) hgoes hbody hnext hcid
    refine ⟨_, hexec, ?_⟩
    rw [hctx]
    exact ⟨((congrArg Ctx.relNext (retire_moved l) :).trans hrel), retire_status hnext⟩
  · refine issue_park (body := bodyFence c o sc) hgoes (fenceR_waits ho ?_)
    rw [storesReady, List.isEmpty_eq_false_iff.mpr hstq, Bool.false_and, Bool.and_false]
  · obtain ⟨hexec, hctx, hout⟩ := issue_retired (i := .qfence c m) (body := bodyQfence c m) hgoes rfl rfl rfl
    refine ⟨_, hexec, ?_⟩
    rw [hctx]
    exact ⟨retire_pc_congr rfl rfl rfl rfl rfl, (congrArg Ctx.p (retire_moved _) :), hout⟩

end Sys2Proof.Machine
end

