-- ==== Sys2Proof/Proofs/Deadlines.lean ====
section
/-! SUPPORT. An instruction that parks at a spent deadline (O28). -/
namespace Sys2Proof.Machine
open Sys2Proof

/-- A context with no retirement left whose pointer registers name byte 0 of S, which reads 0. -/
def testSpent : State :=
  { State.reset with
    cur := 0
    ctxs := [(0, { emptyCtx with status := .issuing, p := Vector.replicate 8 0x4000000000000000 })] }

/-- A wait for the doubleword there to differ from 1. -/
def waitaDiffers : Instr := .waita .d .al 0 .rlx .dev (.preg 1) (.mem 3 0) (.imm 1)

/-- The park that the wait asks for. -/
def waitaPark : Park :=
  .waita { va := 0x4000000000000000, pa := 0, bytes := 8, cmp := 1, tmo := 0, acq := none, trk := true, since := 0, woken := false }

theorem bodyWaita_testSpent : bodyWaita .d .al 0 .rlx .dev (.preg 1) (.mem 3 0) (.imm 1) testSpent.here = .error (.park testSpent.here waitaPark) := by
  decide +kernel

/-- The value differs already, so that the wait ends in the step in which it began. -/
theorem exec_waitaDiffers : ∃ t, exec waitaDiffers testSpent = .next t ∧ (t.ctx 0).status = .issuing := ⟨_, rfl, by decide +kernel⟩

/-- Refutes O28: the statement has every instruction that parks at a spent deadline leave its park and nothing else. WAITA reads its word in the
step in which it parks (R258), and where the word differs from the comparand already, as here, the context goes on with the value that has landed,
to be tested at its next issue. -/
theorem not_deadlineFaultsInPlaceOfRetirement : ¬ Obligations.DeadlineFaultsInPlaceOfRetirement := by
  unfold Obligations.DeadlineFaultsInPlaceOfRetirement
  intro h
  obtain ⟨hspent, -, -⟩ := h testSpent waitaDiffers (fun _ l => do let l1 ← bodyWaita .d .al 0 .rlx .dev (.preg 1) (.mem 3 0) (.imm 1) l; .ok (l1, id))
    (testSpent.here, id) testSpent.here waitaPark .al 0 0
  obtain ⟨-, hpark, -⟩ := hspent rfl rfl rfl rfl (by decide +kernel)
  obtain ⟨-, hwaits⟩ := hpark rfl rfl rfl (by rw [bodyWaita_testSpent]; rfl)
  obtain ⟨t, ht, hissuing⟩ := exec_waitaDiffers
  obtain rfl : t = testSpent.putLoc (testSpent.here.parkAs waitaPark) := Host.Outcome.next.inj (ht.symm.trans (hwaits rfl))
  have hparked : ((testSpent.putLoc (testSpent.here.parkAs waitaPark)).ctx 0).status = .parked waitaPark := by decide +kernel
  exact absurd (hissuing.symm.trans hparked) (by decide)

end Sys2Proof.Machine
end

