-- ==== Sys2Proof/Proofs/Repeats.lean ====
section
/-! SUPPORT. REP, one repetition an issue (O24). -/
namespace Sys2Proof.Machine
open Sys2Proof

/-! ## A WAITA among the instances (R258) -/

theorem waitaOf_none {s : State} {cid : Nat} (h : ∀ r, (s.ctx cid).status ≠ .parked (.waita r)) : waitaOf s cid = none := by
  unfold waitaOf
  split
  · next r hr => exact absurd hr (h r)
  · rfl

/-- No value is read for a context that does not wait on one. -/
theorem waitaFirst_same {s t : State} (h : waitaOf t s.cur = none) : waitaFirst s t = t := by
  unfold waitaFirst
  rw [h]
  cases waitaOf s s.cur <;> rfl

/-- A fault parks no context on a line. -/
theorem raise_not_waita (l : Loc) (f : FaultInfo) (r : WaitaReq) : (raise l f).ctx.status ≠ .parked (.waita r) := by
  unfold raise
  split
  · exact fun h => by cases h
  · split
    · unfold camPark
      dsimp only
      split <;> exact fun h => by cases h
    · exact fun h => by cases h

/-- REP leaves what the frame leaves of it, when the context does not wait on a line after it. -/
theorem exec_rep {s t : State} {s1 : Opd} (h : issueG (.rep s1) (repBody s1) s = .next t) (hwait : ∀ r, (t.ctx s.cur).status ≠ .parked (.waita r)) :
    exec (.rep s1) s = .next t := by
  change execRep s1 s = _
  unfold execRep
  rw [h]
  exact congrArg Host.Outcome.next (waitaFirst_same (waitaOf_none hwait))

section Rep
variable {s : State} {p : Reg}

theorem rep_fault {f : FaultInfo} (hgoes : goes s (.rep (.preg p)) = true) (hbody : repBody (.preg p) s s.here = .error (.fault s.here f)) :
    exec (.rep (.preg p)) s = .next (s.putLoc (raise s.here f)) := by
  refine exec_rep (issueWith_fault hgoes hbody) ?_
  have hctx : (s.putLoc (raise s.here f)).ctx s.cur = (raise s.here f).ctx := by
    have h := putLoc_ctx_self (s := s) (raise_not_waita s.here f)
    rwa [show (raise s.here f).cid = s.cur from (raise_lasting ..).1] at h
  rw [hctx]
  exact raise_not_waita s.here f

/-- A view whose own rules have set everything retires as it is. -/
theorem retire_gone {l : Loc} (h : l.next = .gone) : retire l = l := by
  unfold retire
  rw [h]
  dsimp only
  rw [if_pos rfl, ← h]

/-- A repetition, or the end of REP, that leaves its context issuing. -/
theorem rep_next {l : Loc} (hgoes : goes s (.rep (.preg p)) = true) (hbody : repBody (.preg p) s s.here = .ok (l, id)) (hnext : l.next = .gone)
    (hcid : l.cid = s.cur) (hhub : l.hub = s.hub) (hstatus : l.ctx.status = .issuing) :
    exec (.rep (.preg p)) s = .next (s.putLoc l) ∧ (s.putLoc l).ctx s.cur = l.ctx := by
  have hissuing (r : WaitaReq) : l.ctx.status ≠ .parked (.waita r) := fun h => by rw [hstatus] at h; cases h
  have hctx : (s.putLoc l).ctx s.cur = l.ctx := hcid ▸ putLoc_ctx_self hissuing
  have hretired : s.retired l = s.putLoc l := congrArg s.putLoc (retire_gone hnext)
  refine ⟨?_, hctx⟩
  rw [← hretired] at hctx ⊢
  refine exec_rep (issueG_next hgoes hbody ?_) fun r h => hissuing r (hctx ▸ h)
  change (s.retired l).hub.noRoom = _
  rw [hretired, putLoc_hub, hhub]

/-! ## The order of the checks (R201) -/

section Body
variable {l : Loc} {i : Instr}

theorem repBody_fault {f : FaultInfo} (hrep : repInstr l p = .fault f) (hn : l.p p ≠ 0) :
    repBody (.preg p) s l = .error (.fault l (if atAnyLend l.ctx then faultOf 0x04 else f)) := by
  unfold repBody
  dsimp only [regOfOpd]
  rw [hrep]
  dsimp only
  rw [if_neg hn]
  split <;> rfl

theorem repBody_barred (hrep : repInstr l p = .barred) : repBody (.preg p) s l = flt l 0x01 := by
  unfold repBody
  dsimp only [regOfOpd]
  rw [hrep]

/-- What REP does with an instruction that it finds in the next slot. -/
theorem repBody_instr (hrep : repInstr l p = .instr i) : repBody (.preg p) s l =
    if classOf i = .c then flt l 0x01
    else if l.p p ≠ 0 ∧ namesReg i p then flt l 0x01
    else if atAnyLend l.ctx then flt l 0x04
    else if l.p p = 0 then repNone l p
    else match repFault l.ctx i with
      | some code => flt l code
      | none => repInst i p s (l.setBad (l.ctx.pc + 1) 0) := by
  unfold repBody
  dsimp only [regOfOpd]
  rw [hrep] <;> rfl

end Body
end Rep

/-! ## One repetition (R201, R202) -/

theorem setBit_getLsbD {w : Nat} (x : BitVec w) (i : Nat) : setBit x i (x.getLsbD i) = x := by
  ext j hj
  by_cases h : x.getLsbD i = true
  · rw [h]
    by_cases hij : i = j
    · subst hij
      simpa [setBit, hj] using h
    · simp [setBit, Ne.symm hij]
  · rw [Bool.not_eq_true] at h
    rw [h]
    by_cases hij : i = j
    · subst hij
      simpa [setBit, hj] using h
    · simp [setBit, Ne.symm hij]

/-- An operand that updates or writes Pn names it. -/
theorem opdReg_of_updates {o : Opd} {p : Reg} (h : Opd.updates o = some p) : opdReg o = BitVec.twoPow 10 p.val := by
  cases o
  case post | pre => cases h; rfl
  all_goals cases h

/-- An instruction that does not name Pn keeps it. -/
theorem result_keeps_p {l : Loc} {i : Instr} {p : Reg} {g : Args} (hdst : g.dst.within (shape i)) (hnames : namesReg i p = false) (o : Out) :
    (l.result i g o).ctx.p[p] = l.ctx.p[p] := by
  have hno : ∀ o ∈ (shape i).opds, opdReg o.1 ≠ BitVec.twoPow 10 p.val := by
    intro o ho heq
    rw [namesReg, Bool.or_eq_false_iff, List.any_eq_false] at hnames
    exact hnames.1 o ho (beq_iff_eq.mpr heq)
  refine (result_spares hdst o).p p (fun o ho h => hno o ho (opdReg_of_updates h)) fun o ho h => ?_
  refine hno o (List.mem_append_right _ (Option.mem_toList.mpr ho)) ?_
  rw [h]
  rfl

/-- The view after one repetition that has computed the view `l`: Pn counts it, the program stays, one retirement counts. -/
def repCounted (k l : Loc) (p : Reg) : Loc :=
  { l with next := .gone
           ctx := { l.ctx with p := l.ctx.p.set p (k.ctx.p[p] - 1), landed := [], bmov := 0, status := .issuing, dleft := k.ctx.dleft - 1 }
           core := if repPair k ∧ k.ctx.p[p] = 1 then { l.core with serc := sercInc l.core.serc } else l.core }

/-- What a repetition leaves of a view with the pace of the one before that has kept Pn. -/
theorem repStep_counted {k l : Loc} {p : Reg} (hseq : k.next = .seq) (hdl : k.dl = none) (hpace : l.pace = k.pace) (hp : l.ctx.p[p] = k.ctx.p[p]) :
    repStep l p (repPair k) = repCounted k l p := by
  have hnext : l.next = .seq := (congrArg Loc.next hpace :).trans hseq
  have hdl : l.dl = none := (congrArg Loc.dl hpace :).trans hdl
  have hdleft : l.ctx.dleft = k.ctx.dleft := (congrArg (fun l : Loc => l.ctx.dleft) hpace :)
  have hmark : setBit l.ctx.pPois p.val (l.pPois p) = l.ctx.pPois := setBit_getLsbD _ _
  unfold repStep
  rw [hnext, hdl]
  dsimp only [Loc.setP, Loc.p]
  simp only [hmark, hp, hdleft, repCounted, hdl]

section Instance
variable {s : State} {l : Loc} {p : Reg} {i : Instr} {f : Env → Args → Out} {v : View} {g : Args}

theorem repInst_counted (hcond : condHolds l.ctx.stat (condOf i) = true) (hseq : l.next = .seq) (hdl : l.dl = none) (hdleft : l.ctx.dleft ≠ 0)
    (hbody : bodyOf i = some fun _ l => do let l1 ← pureOp i v f l; .ok (l1, id))
    (hargs : fetchArgs l v (envOf l.ctx i).rm (shape i) = .ok g) (hnames : namesReg i p = false) :
    repInst i p s l = .ok (repCounted l (l.result i g (f (envOf l.ctx i) g)) p, id) := by
  have hstep := repStep_counted (l := l.result i g (f (envOf l.ctx i) g)) hseq hdl (result_pace ..)
    (result_keeps_p (fetchArgs_within hargs) hnames _)
  have hspent : (!ownDeadline i && l.ctx.dleft == 0) = false := by rw [beq_false_of_ne hdleft, Bool.and_false]
  unfold repInst
  rw [hcond, hbody]
  simp only [Bool.not_true, Bool.false_eq_true, if_false, pureOp_ok hargs, bind, Except.bind, hspent, hstep]

end Instance

/-- REP with a count of zero goes past the next slot (R201). -/
theorem repEnd_frame (l : Loc) (p : Reg) : (repEnd l p).next = .gone ∧ (repEnd l p).cid = l.cid ∧ (repEnd l p).hub = l.hub ∧
    (repEnd l p).ctx.status = .issuing ∧ (repEnd l p).ctx.pc = l.ctx.pc + 2 ∧ (repEnd l p).ctx.dleft = l.ctx.dleft - 1 ∧
    (repEnd l p).ctx.p = l.ctx.p := by
  unfold repEnd
  split <;> exact ⟨rfl, rfl, rfl, rfl, rfl, rfl, rfl⟩

/-- Settles O24: REP by what the next slot holds, and one repetition by the view that its instruction computes. -/
theorem repRunsOneInstance : Obligations.RepRunsOneInstance := by
  unfold Obligations.RepRunsOneInstance
  intro s p i f v g r c h
  refine ⟨fun x hgoes hrep hn => ?_, fun hgoes hrep => rep_fault hgoes (repBody_barred hrep), fun hgoes hrep hclass hfree hlend => ?_,
    fun hgoes hrep hlend hdleft => ⟨fun hn hclass => ?_, fun hbad => ?_, fun hn hclass hnames hpairs hpriv hcond hbody hargs => ?_⟩⟩
  · exact rep_fault hgoes (repBody_fault hrep hn)
  · have hfree : ¬ (s.here.p p ≠ 0 ∧ namesReg i p = true) := by
      rintro ⟨hn, hnames⟩
      rcases hfree with h | h
      · exact hn h
      · exact absurd hnames (by rw [h]; decide)
    refine rep_fault hgoes ?_
    rw [repBody_instr hrep, if_neg hclass, if_neg hfree, if_pos hlend]
    rfl
  · have hlend : atAnyLend s.here.ctx = false := hlend
    have hn : s.here.p p = 0 := hn
    have hbody : repBody (.preg p) s s.here = .ok (repEnd s.here p, id) := by
      rw [repBody_instr hrep, if_neg hclass, if_neg (fun h => h.1 hn), if_neg (by rw [hlend]; exact Bool.false_ne_true), if_pos hn, repNone,
        if_neg (by rw [hlend]; exact Bool.false_ne_true), if_neg hdleft]
    obtain ⟨hgone, hcid, hhub, hstatus, hpc, hleft, hp⟩ := repEnd_frame s.here p
    obtain ⟨hexec, hctx⟩ := rep_next hgoes hbody hgone hcid hhub hstatus
    refine ⟨_, hexec, ?_⟩
    rw [hctx]
    exact ⟨hpc, hleft, hp⟩
  · refine rep_fault hgoes ?_
    rw [repBody_instr hrep]
    rcases hbad with hclass | hnamed
    · rw [if_pos hclass]
      rfl
    · have hnamed : s.here.p p ≠ 0 ∧ namesReg i p = true := hnamed
      by_cases hclass : classOf i = .c
      · rw [if_pos hclass]
        rfl
      · rw [if_neg hclass, if_pos hnamed]
        rfl
  · have hlend : atAnyLend s.here.ctx = false := hlend
    have hn : s.here.p p ≠ 0 := hn
    have hfault : repFault s.here.ctx i = none := by
      rw [repFault, hpairs, if_neg (by decide), if_neg (not_lt.mpr hpriv)]
    have hunnamed : ¬ (s.here.p p ≠ 0 ∧ namesReg i p = true) := fun h => by rw [hnames] at h; exact Bool.false_ne_true h.2
    have hinst := repInst_counted (s := s) (l := h) hcond rfl rfl hdleft hbody hargs hnames
    have hbody : repBody (.preg p) s s.here = .ok (repCounted h (h.result i g (f (envOf h.ctx i) g)) p, id) := by
      rw [repBody_instr hrep, if_neg hclass, if_neg hunnamed, if_neg (by rw [hlend]; exact Bool.false_ne_true), if_neg hn, hfault]
      exact hinst
    have hpace : (h.result i g (f (envOf h.ctx i) g)).pace = h.pace := result_pace ..
    exact (rep_next hgoes hbody rfl (congrArg Loc.cid hpace :) (congrArg Loc.hub hpace :) rfl).1

end Sys2Proof.Machine
end

