-- ==== Sys2Proof/Proofs/ChecksAndSeals.lean ====
section
/-! SUPPORT. CHKERR, SEAL and DRIFT (O40). -/
namespace Sys2Proof.Machine
open Sys2Proof

/-! ## Instructions whose one operand is a register destination (R86) -/

/-- The operands of an instruction that only writes a place. -/
def onlyDst (dst : Dst) : Args := { a := clean 0, b := clean 0, x := clean 0, d := clean 0, dst := dst }

theorem fetchArgs_preg (l : Loc) (v : View) (rm : Nat) (p : Reg) : fetchArgs l v rm (shD (.preg p)) = .ok (onlyDst (.preg p)) := rfl

theorem fetchArgs_none (l : Loc) (v : View) (rm : Nat) : fetchArgs l v rm Shape.none_ = .ok (onlyDst .none_) := rfl

theorem take_onlyDst (l : Loc) (p : Reg) : l.take (shD (.preg p)) (onlyDst (.preg p)) = l := rfl

/-- A narrow word is zero-extended into a register. -/
theorem writeScalar_preg {n : Nat} (hn : n ≤ 64) (l : Loc) (p : Reg) (x : BitVec n) (b : Bool) :
    l.writeScalar (.preg p) 64 true (x.setWidth 128) b = l.setP p (x.setWidth 64) b := by
  have hx : x.setWidth 128 = (x.setWidth 64).setWidth 128 := by
    apply BitVec.eq_of_toNat_eq
    have hlt : x.toNat < 2 ^ 64 := x.isLt.trans_le (Nat.pow_le_pow_right two_pos hn)
    rw [BitVec.toNat_setWidth, BitVec.toNat_setWidth, BitVec.toNat_setWidth, Nat.mod_eq_of_lt hlt]
  rw [hx, Loc.writeScalar, extend64_word]

/-- The registers after an instruction that has written Pn has retired. -/
theorem retired_setP (l : Loc) (p : Reg) (w : Word) (b : Bool) : (retire (l.setP p w b)).ctx.p[p] = w :=
  (congrArg (fun c : Ctx => c.p[p]) (retire_moved _) :).trans ((setP_p l p w b p).trans (if_pos rfl))

/-! ## Flags after a retirement (R148) -/

/-- The N that an instruction writes is the N of STAT after it. -/
theorem fN_applyFlags (st : Word) {f : FlagUp} {b : Bool} (h : f.n = some b) : fN (applyFlags st f) = b := by
  have hfps : ∀ f : FFlags, (f.setWidth 64 <<< 35) &&& 8#64 = 0#64 := by decide
  have hrest : applyFlags st f &&& 8#64 = setBit st 3 b &&& 8#64 := by
    rw [applyFlags, BitVec.and_or_distrib_right, hfps, BitVec.or_zero, putFlag_and (by decide), putFlag_and (by decide), putFlag_and (by decide),
      putFlag_and (by decide), h]
    rfl
  exact (getLsbD_of_and hrest (by decide)).trans (getLsbD_setBit _ (by decide) b)

theorem fN_retire {l : Loc} (hnext : l.next = .seq) : fN (retire l).ctx.stat = fN l.ctx.stat := getLsbD_of_and (retire_stat hnext) (by decide)

/-! ## CHKERR (R225) -/

/-- The view after CHKERR has written Z, N and CIR. -/
def checked (l : Loc) (p : Reg) : Loc :=
  (l.flags { noFlags with z := some (!l.ctx.pois), n := some l.ctx.irv }).setP p (l.ctx.cir.setWidth 64) false

theorem chkerrBody_preg (c : Cond) (p : Reg) (kill : Bool) (s : State) (l : Loc) : chkerrBody (.chkerr c (.preg p) kill) kill s l =
    .ok (if kill && l.ctx.pois then ({ checked l p with next := .gone }, dispose l.cid) else (checked l p, id)) := by
  change (if (kill && l.ctx.pois) = true then _ else _) = _
  rw [checked, ← writeScalar_preg (by decide : 16 ≤ 64)]
  split <;> rfl

theorem checked_pace (l : Loc) (p : Reg) : (checked l p).pace = l.pace := (setP_pace ..).trans (flags_pace ..)

/-- The disposal of a poisoned firing that no interrupt has marked and whose tokens may come again (R398, R399). -/
theorem dispose_kill {s : State} {cid : Nat} (hirv : (s.ctx cid).irv = false)
    (hredeliv : ∀ t ∈ (s.ctx cid).quota0 ++ (s.ctx cid).quota1, t.redeliv < 2) :
    dispose cid s = putCtx s cid { s.ctx cid with status := .killing 0x30 false } := by
  refine if_neg fun h => ?_
  rcases (Bool.or_eq_true ..).mp h with h | h
  · exact Bool.false_ne_true (hirv.symm.trans h)
  · obtain ⟨t, ht, hmany⟩ := List.any_eq_true.mp h
    exact absurd (hredeliv t ht) (not_lt.mpr (of_decide_eq_true hmany))

section Frame
variable {s : State} {c : Cond} {p : Reg}

/-- CHKERR gives CIR with Z and N. -/
theorem chkerr_next {kill : Bool} (hgoes : goes s (.chkerr c (.preg p) kill) = true) (hkill : (kill && s.here.ctx.pois) = false) :
    ∃ t, exec (.chkerr c (.preg p) kill) s = .next t ∧ (t.ctx s.cur).p[p] = s.here.ctx.cir.setWidth 64 ∧
      fZ (t.ctx s.cur).stat = !s.here.ctx.pois ∧ fN (t.ctx s.cur).stat = s.here.ctx.irv ∧ (t.ctx s.cur).cir = s.here.ctx.cir ∧
      State.outsideAlike s t := by
  have hbody := chkerrBody_preg c p kill s s.here
  rw [hkill] at hbody
  have hpace := checked_pace s.here p
  have hnext := paced_next (s := s) hpace
  have hctx : (s.retired (checked s.here p)).ctx s.cur = (retire (checked s.here p)).ctx := retired_ctx hnext s
  refine ⟨_, issueG_of_pace (body := bodyChkerr c (.preg p) kill) (post := id) hgoes hbody hpace rfl, ?_⟩
  rw [id, hctx, fZ_retire hnext, fN_retire hnext]
  exact ⟨retired_setP .., fZ_applyFlags _ rfl, fN_applyFlags _ rfl, (congrArg Ctx.cir (retire_moved _) :), putLoc_outsideAlike _ _⟩

/-- CHKERR with KILL ends a poisoned firing as END does. -/
theorem chkerr_kills (hgoes : goes s (.chkerr c (.preg p) true) = true) (hpois : s.here.ctx.pois = true) (hirv : s.here.ctx.irv = false)
    (hredeliv : ∀ t ∈ s.here.ctx.quota0 ++ s.here.ctx.quota1, t.redeliv < 2) :
    ∃ t, exec (.chkerr c (.preg p) true) s = .next t ∧ (t.ctx s.cur).status = .killing 0x30 false := by
  have hbody := chkerrBody_preg c p true s s.here
  rw [hpois] at hbody
  let l : Loc := { checked s.here p with next := .gone }
  have hhub : l.hub = s.hub := (congrArg Loc.hub (checked_pace s.here p) :)
  have hretired : s.retired l = s.putLoc l := congrArg s.putLoc (retire_gone rfl)
  have hctx : (s.retired l).ctx s.cur = l.ctx := by
    rw [hretired]
    exact putLoc_ctx_self (l := l) fun r h => by
      have hstatus : l.ctx.status = .issuing := (goes_parts hgoes).2.1
      rw [hstatus] at h
      cases h
  have hdispose := dispose_kill (s := s.retired l) (cid := s.cur) (by rw [hctx]; exact hirv) (by rw [hctx]; exact hredeliv)
  refine ⟨_, issueG_next (body := bodyChkerr c (.preg p) true) hgoes hbody ?_, ?_⟩
  · change (dispose s.cur (s.retired l)).hub.noRoom = _
    rw [hdispose, putCtx_hub, hretired, putLoc_hub, hhub]
  · change ((dispose s.cur (s.retired l)).ctx s.cur).status = _
    rw [hdispose, putCtx_get, if_pos rfl]

end Frame

/-! ## SEAL and DRIFT (R226, R227) -/

/-- The view after SEAL has asked for a seal, with the newest drift in Pn when it wants the number. -/
def sealWanted (l : Loc) (p : Reg) (num : Bool) : Loc :=
  let m := { l with hub := wantSeal l.hub }
  if num then m.setP p (l.hub.seals.newest.setWidth 64) false else m

theorem bodySeal_issuing {l : Loc} {c : Cond} {p : Reg} {num wt : Bool} (hissuing : l.ctx.status = .issuing) (hcnt : l.ctx.cntOf 1 = 0) :
    bodySeal c (.preg p) num wt l =
      if wt then parkOn (sealWanted l p num) (.seal l.hub.seals.newest) else .ok (sealWanted l p num) := by
  unfold bodySeal
  rw [hissuing]
  dsimp only
  rw [if_pos hcnt]
  cases num with
  | false => rfl
  | true =>
    have hshape : shape (.seal c (.preg p) true wt) = shD (.preg p) := rfl
    simp only [hshape, fetchArgs_preg, bind, Except.bind, take_onlyDst, if_true]
    rw [onlyDst, writeScalar_preg (by decide : 32 ≤ 64)]
    cases wt <;> rfl

/-- A context that waits for a drift goes on when that drift is sealed. -/
theorem bodySeal_parked {l : Loc} {c : Cond} {d : Opd} {num wt : Bool} {d0 : BitVec 32} (hparked : l.ctx.status = .parked (.seal d0)) :
    bodySeal c d num wt l = if isSealed l.hub.seals d0 then .ok l else parkOn l (.seal d0) := by
  unfold bodySeal
  rw [hparked]

theorem sealWanted_frame (l : Loc) (p : Reg) (num : Bool) : (sealWanted l p num).next = l.next ∧ (sealWanted l p num).cid = l.cid ∧
    (sealWanted l p num).hub = wantSeal l.hub ∧ (sealWanted l p num).ctx.stat = l.ctx.stat ∧ (sealWanted l p num).ctx.pc = l.ctx.pc ∧
    (sealWanted l p num).ctx.btgt = l.ctx.btgt := by
  unfold sealWanted
  split <;> exact ⟨rfl, rfl, rfl, rfl, rfl, rfl⟩

section Seal
variable {s : State} {c : Cond} {p : Reg} {num wt : Bool}

theorem seal_next (hgoes : goes s (.seal c (.preg p) num false) = true) (hcnt : s.here.ctx.cntOf 1 = 0) :
    ∃ t, exec (.seal c (.preg p) num false) s = .next t ∧ t.hub.seals.wanted = true ∧
      (num = true → (t.ctx s.cur).p[p] = s.hub.seals.newest.setWidth 64) ∧ (num = false → (t.ctx s.cur).p = s.here.ctx.p) ∧
      (t.ctx s.cur).pc = (retire s.here).ctx.pc ∧ State.outsideAlike s t := by
  obtain ⟨hnext, hcid, hhub, hstat, hpc, hbtgt⟩ := sealWanted_frame s.here p num
  obtain ⟨hexec, hctx, hout⟩ := issue_retired (body := bodySeal c (.preg p) num false) hgoes (bodySeal_issuing (goes_parts hgoes).2.1 hcnt) hnext hcid
  refine ⟨_, hexec, ?_⟩
  rw [hctx, State.retired, putLoc_hub]
  refine ⟨congrArg (fun h : Hub => h.seals.wanted) hhub, fun hnum => ?_, fun hnum => ?_, retire_pc_congr hnext rfl hstat hpc hbtgt, hout⟩
  · subst hnum
    exact retired_setP ..
  · subst hnum
    exact (congrArg Ctx.p (retire_moved _) :)

theorem seal_parks (hgoes : goes s (.seal c (.preg p) num true) = true) (hcnt : s.here.ctx.cntOf 1 = 0) :
    ∃ t, exec (.seal c (.preg p) num true) s = .next t ∧ t.hub.seals.wanted = true ∧ (t.ctx s.cur).status = .parked (.seal s.hub.seals.newest) := by
  obtain ⟨-, hcid, hhub, -, -, -⟩ := sealWanted_frame s.here p num
  have hctx := putLoc_ctx_self (s := s) (l := (sealWanted s.here p num).parkAs (.seal s.hub.seals.newest)) fun r h => by cases h
  rw [Loc.parkAs_cid, hcid] at hctx
  refine ⟨_, issue_park (body := bodySeal c (.preg p) num true) hgoes (bodySeal_issuing (goes_parts hgoes).2.1 hcnt), ?_, ?_⟩
  · rw [putLoc_hub]
    exact congrArg (fun h : Hub => h.seals.wanted) hhub
  · exact congrArg Ctx.status hctx

end Seal

/-- A context in a park that it leaves by itself takes an issue slot: its instruction retires or parks anew (R72). -/
theorem issue_runnable {s : State} {i : Instr} {body : Loc → Res Loc} (hup : s.hub.up = true) (hrun : s.here.ctx.runnable = true)
    (hdecode : decodeFault s.here.ctx i = none) (hcond : condHolds s.here.ctx.stat (condOf i) = true) (hleft : s.here.ctx.dleft ≠ 0) :
    (∀ l, body s.here = .ok l → issue i body s = .next (s.retired l)) ∧
    (∀ l p, body s.here = .error (.park l p) → issue i body s = .next (s.putLoc (l.parkAs p))) := by
  obtain ⟨h1, h2, h3⟩ := up_not_off hup
  simp only [State.here] at hrun hdecode hcond hleft ⊢
  refine ⟨fun l hbody => ?_, fun l p hbody => ?_⟩ <;>
    simp [issue, issueWith, h1, h2, h3, hrun, hdecode, hcond, hbody, settle, hleft, State.retired, bind, Except.bind]

/-- DRIFT gives the sealed and the newest drift numbers (R227). -/
theorem drift_next {s : State} {c : Cond} {p : Reg} (hgoes : goes s (.drift c (.preg p)) = true) : ∃ t, exec (.drift c (.preg p)) s = .next t ∧
    (t.ctx s.cur).p[p] = s.hub.seals.sealed ++ s.hub.seals.newest ∧ (t.ctx s.cur).a = s.here.ctx.a ∧ State.outsideAlike s t := by
  let w : Word := s.hub.seals.sealed ++ s.hub.seals.newest
  have hbody : bodyDrift c (.preg p) s.here = .ok (s.here.setP p (w.setWidth 64) false) := by
    rw [← writeScalar_preg (Nat.le_refl 64)]
    rfl
  rw [BitVec.setWidth_eq] at hbody
  obtain ⟨hexec, hctx, hout⟩ := issue_retired (i := .drift c (.preg p)) (body := bodyDrift c (.preg p)) hgoes hbody rfl rfl
  refine ⟨_, hexec, ?_⟩
  rw [hctx]
  exact ⟨retired_setP .., (congrArg Ctx.a (retire_moved _) :), hout⟩

/-- Settles O40: each body answers with the register that it writes; SEAL also by whether its context issues or waits. -/
theorem checksDriftsAndSeals : Obligations.ChecksDriftsAndSeals := by
  unfold Obligations.ChecksDriftsAndSeals
  intro s c p kill num g d0 l k chk drift sealI
  refine ⟨fun hgoes hkill => chkerr_next hgoes hkill, fun hgoes hkill hpois hirv hredeliv => ?_, fun hgoes hcnt => seal_next hgoes hcnt,
    fun hgoes hcnt => seal_parks hgoes hcnt, fun hup hparked hdecode hcond hleft => ?_, fun hgoes => drift_next hgoes, rfl⟩
  · subst hkill
    exact chkerr_kills hgoes hpois hirv hredeliv
  · have hrun : s.here.ctx.runnable = true := by
      rw [Ctx.runnable, show s.here.ctx.status = .parked (.seal d0) from hparked]
    have hbody := bodySeal_parked (c := c) (d := .preg p) (num := num) (wt := true) hparked
    obtain ⟨hok, hpark⟩ := issue_runnable (body := bodySeal c (.preg p) num true) hup hrun hdecode hcond hleft
    refine ⟨fun hopen => ?_, fun hsealed => ?_⟩
    · have hopen : isSealed l.hub.seals d0 = false := hopen
      rw [if_neg (by rw [hopen]; decide)] at hbody
      exact ⟨_, hpark _ _ hbody, congrArg Ctx.status (putLoc_ctx_self (s := s) (l := s.here.parkAs (.seal d0)) fun r h => by cases h)⟩
    · have hsealed : isSealed l.hub.seals d0 = true := hsealed
      rw [if_pos hsealed] at hbody
      refine ⟨_, hok _ hbody, ?_⟩
      rw [show (s.retired s.here).ctx s.cur = (retire s.here).ctx from retired_ctx rfl s]
      exact ⟨retire_status rfl, rfl⟩

end Sys2Proof.Machine
end


-- ==== Sys2Proof/Proofs/TokenDelivery.lean ====
section
/-! SUPPORT. What a delivery, a credit, a selection and a deal of chunks do to the state (O39). -/
namespace Sys2Proof.Machine
open Sys2Proof

/-! ## Delivery (R211, R222, R294, R296, R297) -/

section Delivery
variable {s : State} {f : Flight} {c n : Nat}

/-- A delivery stores the tokens of the flight behind those of the channel, each with its owner. -/
theorem storeToken_toks (s : State) (f : Flight) (c n : Nat) : (chanAt (storeToken s f c n) c n).toks =
    (chanAt s c n).toks ++ f.toks.map (fun u => { u with own := tokenOwner s f }) := by
  unfold storeToken
  dsimp only
  split
  all_goals
    refine (noteRunnable_chan s _ c Chan.toks (fun _ _ => rfl) c n).trans ?_
    rw [chanAt, putCore_get, if_pos rfl]
    exact congrArg Chan.toks (mget_mset_same ..)

/-- What a delivery leaves beside the core: anything that neither the channels nor the escalation timers tell. -/
theorem storeToken_keeps {γ : Type} (g : State → γ) (hcore : ∀ u k x, g (putCore u k x) = g u)
    (hesc : ∀ u es, g { u with hub := { u.hub with esc := es } } = g u) (s : State) (f : Flight) (c n : Nat) : g (storeToken s f c n) = g s := by
  unfold storeToken
  dsimp only
  split
  · refine (hesc ..).trans ?_
    exact (noteRunnable_keeps g (fun u k m x => hcore u k _) ..).trans (hcore ..)
  · exact (noteRunnable_keeps g (fun u k m x => hcore u k _) ..).trans (hcore ..)

theorem storeToken_ctxs (s : State) (f : Flight) (c n : Nat) : (storeToken s f c n).ctxs = s.ctxs :=
  storeToken_keeps State.ctxs (fun _ _ _ => rfl) (fun _ _ => rfl) s f c n

theorem storeToken_lists (s : State) (f : Flight) (c n : Nat) : (storeToken s f c n).hub.flight = s.hub.flight ∧
    (storeToken s f c n).hub.refused = s.hub.refused ∧ (storeToken s f c n).hub.noRoom = s.hub.noRoom :=
  ⟨storeToken_keeps (fun s => s.hub.flight) (fun _ _ _ => rfl) (fun _ _ => rfl) s f c n,
    storeToken_keeps (fun s => s.hub.refused) (fun _ _ _ => rfl) (fun _ _ => rfl) s f c n,
    storeToken_keeps (fun s => s.hub.noRoom) (fun _ _ _ => rfl) (fun _ _ => rfl) s f c n⟩

theorem deliver_take (h : inService s.hub c = true) (ha : arrivalOf s f c n = .take) : deliver s f c n = some (storeToken s f c n) := by
  simp [deliver, h, ha]

theorem deliver_refuse (h : inService s.hub c = true) (ha : arrivalOf s f c n = .refuse) : deliver s f c n = some (refuse s f) := by
  simp [deliver, h, ha]

theorem deliver_drop {r : Bool} (h : inService s.hub c = true) (ha : arrivalOf s f c n = .drop r) :
    deliver s f c n = some (dropToken s f.tok r) := by
  simp [deliver, h, ha]

theorem deliver_wait (h : inService s.hub c = true) (ha : arrivalOf s f c n = .wait) : deliver s f c n = none := by
  simp [deliver, h, ha]

/-! What an owner that admits a token does with it (R296, R297). -/

section Admitted
variable (hfail : toFailed s f = false) (hbar : pasidBars s f c n = false) (hval : entVal (chanAt s c n).entry = true)
include hfail hbar hval

theorem arrivalOf_mailbox (hkind : f.kind ≠ .refusal) (hknd : entKnd (chanAt s c n).entry = true) : arrivalOf s f c n =
    if slotsUsed s c n + f.count ≤ entCap (chanAt s c n).entry then .take else if f.kind = .hub then .drop false else .refuse := by
  simp [arrivalOf, hfail, hbar, hkind, hval, hknd]

theorem arrivalOf_edge_sent (hknd : entKnd (chanAt s c n).entry = false) (hsent : f.kind = .send ∨ f.kind = .sendn) :
    arrivalOf s f c n = if f.tok.cred then .take else .drop true := by
  rcases hsent with h | h <;> simp [arrivalOf, hfail, hbar, hval, hknd, h]

theorem arrivalOf_edge_fits (hknd : entKnd (chanAt s c n).entry = false) (hsent : ¬ (f.kind = .send ∨ f.kind = .sendn))
    (hfit : poolFits s c n f.count = true) : arrivalOf s f c n = .take := by
  obtain ⟨hsend, hsendn⟩ := not_or.mp hsent
  cases hk : f.kind with
  | send => exact absurd hk hsend
  | sendn => exact absurd hk hsendn
  | _ => simp [arrivalOf, hfail, hbar, hval, hknd, hk, hfit]

theorem arrivalOf_edge_full (hknd : entKnd (chanAt s c n).entry = false) (hrow : f.kind = .drain ∨ f.kind = .copied)
    (hfit : poolFits s c n f.count = false) : arrivalOf s f c n = .wait := by
  rcases hrow with h | h <;> simp [arrivalOf, hfail, hbar, hval, hknd, h, hfit]

end Admitted

/-- The refusal of a SEND token, with a tag (R211). -/
def refusalOf (f : Flight) (rch : BitVec 5) (tag : Word) : Flight :=
  { tok := { f.tok with tag := tag, sig := 0, refCh := none, cred := false }
    kind := .refusal, src := f.src, dest := .chan f.src rch, second := none, esc := none }

theorem refuse_eq_refusalOf {rch : BitVec 5} (hk : f.kind = .send) (hr : f.tok.refCh = some rch) :
    refuse s f = { s with hub := { s.hub with flight := s.hub.flight ++ [refusalOf f rch (mkTag (fld f.tok.tag 5 14) rch.toNat 19)] } } := by
  simp only [refuse, hk, hr, refusalOf]

/-- A tag with flag 19. -/
theorem mkTag_flag19 (a b : Nat) : (mkTag a b 19).getLsbD 19 = true := by
  have hlow : a % 2 ^ 14 * 32 + b % 32 < 2 ^ 19 := by omega
  rw [mkTag, if_neg (by decide), BitVec.getLsbD_ofNat, Nat.add_comm, Nat.testBit_two_pow_add_eq, Nat.testBit_lt_two_pow hlow]
  rfl

/-- What a refusal is (R211). -/
theorem refusalOf_fields (f : Flight) (rch : BitVec 5) (tag : Word) : (refusalOf f rch tag).kind = .refusal ∧
    (refusalOf f rch tag).dest = .chan f.src rch ∧ (refusalOf f rch tag).tok.payload = f.tok.payload ∧ (refusalOf f rch tag).tok.tag = tag ∧
    (refusalOf f rch tag).second = none := ⟨rfl, rfl, rfl, rfl, rfl⟩

/-- A full mailbox sends a refusal to the sender's refusal channel (R211). -/
theorem refuse_send {rch : BitVec 5} (hk : f.kind = .send) (hr : f.tok.refCh = some rch) :
    ∃ g : Flight, refuse s f = { s with hub := { s.hub with flight := s.hub.flight ++ [g] } } ∧ g.kind = .refusal ∧ g.dest = .chan f.src rch ∧
      g.tok.payload = f.tok.payload ∧ g.tok.tag.getLsbD 19 = true ∧ g.second = none := by
  obtain ⟨hkind, hdest, hpayload, htag, hsecond⟩ := refusalOf_fields f rch (mkTag (fld f.tok.tag 5 14) rch.toNat 19)
  refine ⟨_, refuse_eq_refusalOf hk hr, hkind, hdest, hpayload, ?_, hsecond⟩
  rw [htag]
  exact mkTag_flag19 ..

end Delivery

/-! ## The flight and the refused token that go (R213, R257, R296, R375) -/

section Arrival
variable {s : State} {f : Flight} {k c n : Nat}

/-- The state without its k-th flight. -/
def State.landing (s : State) (k : Nat) : State := { s with hub := { s.hub with flight := dropAt s.hub.flight k } }

/-- The state without its k-th refused token. -/
def State.retrying (s : State) (k : Nat) : State := { s with hub := { s.hub with refused := dropAt s.hub.refused k } }

theorem effTokenArrival_eq (hk : s.hub.flight[k]? = some f) (ho : overtakes s.hub k f = false) (ht : targetOf s.hub f = some (c, n)) :
    effTokenArrival k s = (deliver (s.landing k) f c n).getD s := by
  simp only [effTokenArrival, hk, ho, ht, State.landing, Bool.false_eq_true, if_false]

theorem arrivalOf_landing : arrivalOf (s.landing k) f c n = arrivalOf s f c n := rfl

theorem arrivalOf_retrying : arrivalOf (s.retrying k) f c n = arrivalOf s f c n := rfl

/-- A token that its channel takes. -/
theorem effTokenArrival_stored (hup : s.hub.up = true) (hk : s.hub.flight[k]? = some f) (ho : overtakes s.hub k f = false)
    (ht : targetOf s.hub f = some (c, n)) (hin : inService s.hub c = true) (ha : arrivalOf s f c n = .take) :
    ∃ t, exec (.tokenArrival k) s = .next t ∧
      (chanAt t c n).toks = (chanAt s c n).toks ++ f.toks.map (fun u => { u with own := tokenOwner s f }) ∧
      t.hub.flight = dropAt s.hub.flight k ∧ (∀ j, t.ctx j = s.ctx j) ∧ t.mem = s.mem := by
  have heff : effTokenArrival k s = storeToken (s.landing k) f c n := by
    rw [effTokenArrival_eq hk ho ht, deliver_take (s := s.landing k) hin (arrivalOf_landing.trans ha), Option.getD_some]
  obtain ⟨hflight, -, hroom⟩ := storeToken_lists (s.landing k) f c n
  refine ⟨_, live_up hup (heff ▸ hroom), ?_⟩
  rw [heff]
  exact ⟨storeToken_toks .., hflight, fun j => congrArg (mget emptyCtx · j) (storeToken_ctxs ..), storeToken_mem ..⟩

/-- The resend of a refused token of the event's own kinds that no older record holds back. -/
theorem resend_eq {ok : TokKind → Bool} (hk : s.hub.refused[k]? = some f) (hok : ok f.kind = true)
    (hold : ∀ g ∈ s.hub.refused.take k, g.kind = .record → f.kind = .record → targetOf s.hub g ≠ targetOf s.hub f)
    (ht : targetOf s.hub f = some (c, n)) (hin : inService s.hub c = true) :
    resend ok k s = if arrivalOf s f c n = .refuse ∨ arrivalOf s f c n = .wait then s else (deliver (s.retrying k) f c n).getD s := by
  have hyoung : ((s.hub.refused.take k).any fun g => g.kind == .record && f.kind == .record && targetOf s.hub g == targetOf s.hub f) = false := by
    rw [List.any_eq_false]
    intro g hg hall
    simp only [Bool.and_eq_true, beq_iff_eq] at hall
    exact hold g hg hall.1.1 hall.1.2 hall.2
  rw [ht] at hyoung
  simp only [resend, hk, hyoung, hok, ht, hin, State.retrying, Bool.not_true, Bool.false_eq_true, or_self, if_false, true_and]

/-- A refused token that is sent again waits on, or goes in. -/
theorem resend_outcomes {ok : TokKind → Bool} (hk : s.hub.refused[k]? = some f) (hok : ok f.kind = true)
    (hold : ∀ g ∈ s.hub.refused.take k, g.kind = .record → f.kind = .record → targetOf s.hub g ≠ targetOf s.hub f)
    (ht : targetOf s.hub f = some (c, n)) (hin : inService s.hub c = true) (hup : s.hub.up = true) :
    (arrivalOf s f c n = .refuse → live s (resend ok k s) = .next s) ∧
    (arrivalOf s f c n = .take → ∃ t, live s (resend ok k s) = .next t ∧
      (chanAt t c n).toks = (chanAt s c n).toks ++ f.toks.map (fun u => { u with own := tokenOwner s f }) ∧
      t.hub.refused = dropAt s.hub.refused k ∧ t.hub.flight = s.hub.flight ∧ t.ctxs = s.ctxs ∧ t.mem = s.mem) := by
  rw [resend_eq hk hok hold ht hin]
  refine ⟨fun ha => ?_, fun ha => ?_⟩
  · rw [if_pos (.inl ha)]
    exact live_up hup rfl
  · rw [if_neg (by rw [ha]; decide), deliver_take (s := s.retrying k) hin (arrivalOf_retrying.trans ha), Option.getD_some]
    obtain ⟨hflight, hrefused, hroom⟩ := storeToken_lists (s.retrying k) f c n
    exact ⟨_, live_up hup hroom, storeToken_toks .., hrefused, hflight, storeToken_ctxs .., storeToken_mem ..⟩

end Arrival

/-! ## Credits (R296) -/

/-- A credit that returns to a counter of the core raises it by one. -/
theorem effCreditReturn_counter {s : State} {k : Nat} {a : BitVec 32} {oe : BitVec 32} (hk : s.hub.creditFly[k]? = some (a, oe))
    (hp : pst (placeWordOf s.hub a) = 1) (hc : mget 0 (coreAt s (plCore (placeWordOf s.hub a))).credits oe.toNat ≠ 0) :
    (effCreditReturn k s).hub = { s.hub with creditFly := dropAt s.hub.creditFly k } ∧ (effCreditReturn k s).ctxs = s.ctxs ∧
    (effCreditReturn k s).mem = s.mem ∧
    mget 0 (coreAt (effCreditReturn k s) (plCore (placeWordOf s.hub a))).credits oe.toNat =
      mget 0 (coreAt s (plCore (placeWordOf s.hub a))).credits oe.toNat + 1 := by
  generalize hw : plCore (placeWordOf s.hub a) = core at hc ⊢
  have hhas : (coreAt s core).hasCredit oe.toNat = true := bne_iff_ne.mpr hc
  let s1 : State := { s with hub := { s.hub with creditFly := dropAt s.hub.creditFly k } }
  have heff : effCreditReturn k s = noteRunnable s1 (putCore s1 core ((coreAt s core).setCredit oe.toNat ((coreAt s core).credit oe.toNat + 1))) core := by
    simp only [effCreditReturn, hk, hp, hw, if_true]
    exact if_pos hhas
  rw [heff]
  refine ⟨noteRunnable_hub .., noteRunnable_keeps State.ctxs (fun _ _ _ _ => rfl) .., noteRunnable_keeps State.mem (fun _ _ _ _ => rfl) .., ?_⟩
  have hkeep := noteRunnable_keeps (fun u => (coreAt u core).credits) (fun u c n x => by
    change (coreAt (putCore u c _) core).credits = _
    rw [putCore_get]
    split
    · next h => rw [h]
    · rfl) s1 (putCore s1 core ((coreAt s core).setCredit oe.toNat ((coreAt s core).credit oe.toNat + 1))) core
  rw [hkeep, putCore_get, if_pos rfl, Core.setCredit, mget_mset_same, Core.credit]
  omega

/-! ## Wakes (R75, R222, R299, R300) -/

section Wakes
variable (s : State) (cid : Nat) (sig : BitVec 256)

/-- An acquire of a context adds to its signature and leaves the other contexts. -/
theorem putLoc_acquire_ctx (j : Nat) : (s.putLoc ((s.loc cid).acquire sig)).ctx j =
    if j = cid then { s.ctx cid with sig := (s.ctx cid).sig ||| sig } else s.ctx j :=
  putLoc_ctx_of_no_wakes rfl j

theorem putLoc_acquire_chan (c n : Nat) : chanAt (s.putLoc ((s.loc cid).acquire sig)) c n = chanAt s c n := by
  have hcore : coreAt (s.putLoc ((s.loc cid).acquire sig)) c = if c = coreOfCid cid then ((s.loc cid).acquire sig).core else coreAt s c :=
    mget_mset ..
  rw [chanAt, hcore]
  split
  · next h => rw [h]; rfl
  · rfl

theorem putLoc_acquire_hub : (s.putLoc ((s.loc cid).acquire sig)).hub = s.hub := rfl

end Wakes

theorem wakePriv_stPRIV (pasid : BitVec 20) : stPRIV (BitVec.ofNat 64 (wakePriv pasid * 2 ^ 43)) = if pasid = 0 then 1 else 0 := by
  unfold wakePriv
  split <;> decide

section Fire
variable (s : State) (c h cid : Nat)

theorem fire_other {j : Nat} (hj : j ≠ cid) : (fire s c h cid).ctx j = s.ctx j := by
  refine (putLoc_acquire_ctx _ _ _ j).trans ?_
  rw [if_neg hj, putCtx_get, if_neg hj]
  split <;> rfl

theorem fire_hub : (fire s c h cid).hub = s.hub := by
  unfold fire
  dsimp only
  rw [putLoc_acquire_hub]
  split <;> rfl

/-- The context that a firing wakes. -/
theorem fire_self :
    ∃ k : Ctx, (fire s c h cid).ctx cid = k ∧ k.status = .issuing ∧ k.quota0 = (chanAt s c h).toks.take (entC0 (chanAt s c h).entry) ∧
      (entC1 (chanAt s c h).entry = 0 → k.pc = entrySlot (chanAt s c h).entry ((chanAt s c h).toks.take (entC0 (chanAt s c h).entry))) ∧
      k.p = imageOf (coreAt s c).x (entImg (chanAt s c h).entry) ∧ k.pasid = entPasid (chanAt s c h).entry ∧ k.a = 0 ∧
      k.dleft = entDl (chanAt s c h).entry ∧
      stPRIV k.stat = (if entPasid (chanAt s c h).entry = 0 then 1 else 0) := by
  refine ⟨_, (putLoc_acquire_ctx _ _ _ cid).trans (if_pos rfl), ?_⟩
  rw [putCtx_get, if_pos rfl]
  refine ⟨rfl, rfl, fun hone => ?_, ?_, rfl, rfl, rfl, wakePriv_stPRIV _⟩
  · simp [wakeState, hone]
  · refine congrArg (imageOf · _) ?_
    split <;> simp [putChan, putCore_get]

/-- With one trigger channel, a firing takes its quota from the head of the channel. -/
theorem fire_chan (hone : entC1 (chanAt s c h).entry = 0) :
    (chanAt (fire s c h cid) c h).toks = (chanAt s c h).toks.drop (entC0 (chanAt s c h).entry) := by
  have hzero : decide (0 < entC1 (chanAt s c h).entry) = false := by simp [hone]
  unfold fire
  simp only [hzero, Bool.false_eq_true, if_false]
  rw [putLoc_acquire_chan]
  change (chanAt (putCore _ c _) c h).toks = _
  rw [chanAt, putCore_get, if_pos rfl]
  split <;> exact congrArg Chan.toks ((chanAt_putChan s c h c h _).trans (if_pos ⟨rfl, rfl⟩))

end Fire

section FireChunk
variable (s : State) (n : Fork) (i cid : Nat)

theorem fireChunk_hub : (fireChunk s n i cid).hub = s.hub := rfl

/-- The context that takes a chunk (R222). -/
theorem fireChunk_self : ∃ k : Ctx, (fireChunk s n i cid).ctx cid = k ∧ k.status = .issuing ∧ k.pc = n.e ∧
    k.p = chunkRegs n.n n.m n.j n.ps i := by
  refine ⟨_, (putLoc_acquire_ctx _ _ _ cid).trans (if_pos rfl), ?_⟩
  rw [putCtx_get, if_pos rfl]
  exact ⟨rfl, rfl, rfl⟩

end FireChunk

theorem chunkRegs_first (n m j : Word) (ps : List Word) (i : Nat) :
    (chunkRegs n m j ps i)[0] = BitVec.ofNat 64 (i * m.toNat) ∧
    (chunkRegs n m j ps i)[1] = BitVec.ofNat 64 (min n.toNat ((i + 1) * m.toNat)) ∧ (chunkRegs n m j ps i)[2] = j := by
  refine ⟨by simp [chunkRegs], ?_, by simp [chunkRegs]⟩
  rw [Nat.succ_mul]
  simp [chunkRegs]

/-- A deal gives the first undealt chunk to the first context of the nearest idle core. -/
theorem effChunkDeal_eq {s : State} {k c i : Nat} {w w1 : Fork} (hk : s.hub.forks[k]? = some w) (htake : takeChunk w = some (i, w1))
    (hcore : chunkCore s w = some c) :
    effChunkDeal k s = fireChunk { s with hub := { s.hub with forks := setAt s.hub.forks k w1 } } w i (c * 8) := by
  simp [effChunkDeal, dealTo, hk, htake, hcore]

/-- Settles O39: each clause by the lemma on its event. -/
theorem tokensTravelAndFire : Obligations.TokensTravelAndFire := by
  unfold Obligations.TokensTravelAndFire
  intro s k c n h cid f e x
  refine ⟨fun hup hk ho ht hin he hval hfail hbar hkind => ?_, fun a oe hup hk hp hc => ?_, fun hup hk ht hin hold => ?_,
    fun hup hmay hfree hpick => ?_, fun w w1 i hup hk htake hcore => ?_⟩
  · intro taken stored sent
    subst he
    have hstored : arrivalOf s f c n = .take → stored := fun ha => effTokenArrival_stored hup hk ho ht hin ha
    have heff : effTokenArrival k s = (deliver taken f c n).getD s := effTokenArrival_eq hk ho ht
    have harrival : arrivalOf taken f c n = arrivalOf s f c n := arrivalOf_landing
    refine ⟨fun hknd hfit => ?_, fun rch hknd hfull hsend href => ?_, fun hknd hsent hcred => ?_, fun hknd hsent hcred => ?_,
      fun hknd hsent hfit => ?_, fun hknd hrow hfit => ?_⟩
    · exact hstored ((arrivalOf_mailbox hfail hbar hval hkind hknd).trans (if_pos hfit))
    · have ha : arrivalOf s f c n = .refuse := by
        rw [arrivalOf_mailbox hfail hbar hval hkind hknd, if_neg (Nat.not_le.mpr hfull), if_neg (by rw [hsend]; decide)]
      obtain ⟨g, hg, hgkind⟩ := refuse_send (s := taken) hsend href
      have hnext : effTokenArrival k s = { s with hub := { s.hub with flight := taken.hub.flight ++ [g] } } := by
        rw [heff, deliver_refuse (s := taken) hin (harrival.trans ha), hg]
        rfl
      refine ⟨g, ?_, hgkind⟩
      exact hnext ▸ live_up hup (by rw [hnext])
    · exact hstored ((arrivalOf_edge_sent hfail hbar hval hknd hsent).trans (if_pos hcred))
    · have ha : arrivalOf s f c n = .drop true := by
        rw [arrivalOf_edge_sent hfail hbar hval hknd hsent, hcred]
        rfl
      change live s (effTokenArrival k s) = _
      rw [heff, deliver_drop (s := taken) hin (harrival.trans ha), live, if_pos hup]
      rfl
    · exact hstored (arrivalOf_edge_fits hfail hbar hval hknd hsent hfit)
    · have ha : arrivalOf s f c n = .wait := arrivalOf_edge_full hfail hbar hval hknd hrow hfit
      change live s (effTokenArrival k s) = _
      rw [heff, deliver_wait (s := taken) hin (harrival.trans ha)]
      exact live_up hup rfl
  · obtain ⟨hhub, hctxs, hmem, hcredit⟩ := effCreditReturn_counter hk hp hc
    exact ⟨_, live_up hup (by rw [hhub]), by rw [hhub], hcredit, hctxs, hmem⟩
  · refine ⟨fun hkind => ?_, fun hkind => ?_, fun hkind => ?_⟩
    · exact resend_outcomes hk (by rcases hkind with h | h <;> rw [h] <;> rfl) hold ht hin hup
    · exact resend_outcomes hk (by rw [hkind]; rfl) hold ht hin hup
    · exact resend_outcomes hk (by rw [hkind]; rfl) hold ht hin hup
  · have heff : effFiringSelection c s = fire s c h cid := by simp [effFiringSelection, hmay, hfree, hpick]
    obtain ⟨k, hctx, hstatus, hquota, hpc, hp, hpasid, ha, hdl, hpriv⟩ := fire_self s c h cid
    refine ⟨fire s c h cid, heff ▸ live_up hup (by rw [heff, fire_hub]), ?_⟩
    rw [hctx]
    exact ⟨hstatus, hquota, fun hone => ⟨hpc hone, fire_chan s c h cid hone⟩, hp, hpasid, ha, hdl, hpriv, fun j hj => fire_other s c h cid hj⟩
  · have heff := effChunkDeal_eq hk htake hcore
    obtain ⟨u, hctx, hstatus, hpc, hp⟩ := fireChunk_self { s with hub := { s.hub with forks := setAt s.hub.forks k w1 } } w i (c * 8)
    obtain ⟨hp0, hp1, hp2⟩ := chunkRegs_first w.n w.m w.j w.ps i
    refine ⟨_, live_up hup (by rw [heff]; rfl), ?_⟩
    rw [heff, hctx, hp]
    exact ⟨hstatus, hpc, hp0, hp1, hp2, rfl⟩

end Sys2Proof.Machine
end


-- ==== Sys2Proof/Proofs/ThermalLimits.lean ====
section
/-! SUPPORT. A change of TLIM whose event finds no room in the pending mailbox of its actor (O54). -/
namespace Sys2Proof.Machine
open Sys2Proof

/-! ## The projection (R321) -/

/-- The power of the owned clusters of a domain, in mW. -/
def ownedMw (s : State) (d : Nat) : Nat :=
  s.clus.foldl (fun m e => match e.2.owner with
    | some l => if e.1 / 32 = d then m + epwr s.hub (eclsOf s.hub l) else m
    | none => m) 0

theorem proj_eq (s : State) (d : Nat) : proj s d = min 4095 ((Config.freeDraw d s.tick + ownedMw s d) / 125) := rfl

/-- Owned clusters alone can saturate the projection, whatever the static draw is. -/
theorem proj_saturated {s : State} {d : Nat} (h : 511875 ≤ ownedMw s d) : proj s d = 4095 := by
  rw [proj_eq]
  omega

/-- Taking clusters from their holders writes nothing to memory. -/
theorem shed_noRoom (d : Nat) (cs : List Nat) (saved : Nat) (s : State) : (shed d cs saved s).hub.noRoom = s.hub.noRoom := by
  induction cs generalizing saved s with
  | nil => rfl
  | cons c rest ih =>
    rw [shed]
    split
    · rfl
    · refine (ih ..).trans ?_
      unfold takeFrom
      split
      · rfl
      · change (bump s.hub _ _ _).noRoom = _
        unfold bump
        dsimp only
        split <;> rfl

/-! ## The step (R320) -/

/-- A state whose real-time budgets are charged, with a limit in TLIM of a domain. -/
def limited (s : State) (d : Nat) (tlim : BitVec 12) : State :=
  let t := chargeRt s
  { t with hub := setReg t.hub (0x2100 + 8 * d) (setFld (reg t.hub (0x2100 + 8 * d)) 24 12 tlim.toNat) }

/-- A limit below the projection raises the event, and clusters leave their holders. -/
theorem effThermal_low {s : State} {d : Nat} {tlim : BitVec 12} (hd : d < 8) (hlow : tlim.toNat < proj (putProj (limited s d tlim) d) d) :
    effThermal d tlim s = shed d (shedOrder (putProj (limited s d tlim) d) d) (leavingMw (putProj (limited s d tlim) d) d)
      (routeEvent (putProj (limited s d tlim) d) 5 (BitVec.ofNat 64 d)) := by
  rw [effThermal, if_pos hd]
  exact if_pos hlow

/-- A launch of PASID 0 with its save area at 0x10000000 and its actor not placed yet. -/
def unplacedLaunch : Launch :=
  { pasid := 0, tag := 0, queue := 0, idx := 0, caddr := 0, cval := 0, msie := false, vec := 0, hdr := [0, 0x10000000], actors := [], pcls := 0
    stage := .running, trigged := none, since := 0, startDrift := 1, places := [], pending := [], insts := [], saved := 0, sects := [] }

/-- A state with that launch in slot 0, which owns 8 clusters of 65.535 W each, page tables that map low memory to itself, and the event of domain
power (source 5) sent by token to the launch's first actor. An earlier write waits at the channel of the pending mailbox. -/
def eventWithoutRoom : State :=
  { State.reset with
    clus := (upto 8).map fun c => (c, { emptyCluster with owner := some 0 })
    mem := [(0, 1), (1, 0x40), (0x4000, 1), (0x4001, 0x80), (0x8000, 1), (0x8001, 0xC0), (0xC000, 0x27), (0xC001, 3)]
    hub := { emptyHub with
      regs := [(0x2200, 0xFFFF), (0x4850, 1)], tables := { emptyTables with launches := [(0, unplacedLaunch)] }
      wbStall := [(channelOf 0x10001000, 0x10001000, none)] } }

theorem eventWithoutRoom_wf : Memory.wf eventWithoutRoom.mem := by decide +kernel

/-- That state with TLIM 0 in PBUD. -/
def limitSet : State := limited eventWithoutRoom 0 0

/-- And with its projection there. -/
def limitProjected : State := { limitSet with hub := setReg limitSet.hub 0x2100 (setFld (reg limitSet.hub 0x2100) 36 12 4095) }

theorem putProj_limitSet : putProj limitSet 0 = limitProjected := by
  rw [putProj, proj_saturated (by decide +kernel)]
  rfl

/-- The limit lies below the projection, so that the event is raised. -/
theorem effThermal_eventWithoutRoom : effThermal 0 0 eventWithoutRoom =
    shed 0 (shedOrder limitProjected 0) (leavingMw limitProjected 0) (routeEvent limitProjected 5 0) := by
  have hlow : (0 : BitVec 12).toNat < proj (putProj (limited eventWithoutRoom 0 0) 0) 0 := by
    have hproj : proj limitProjected 0 = 4095 := proj_saturated (by decide +kernel)
    change _ < proj (putProj limitSet 0) 0
    rw [putProj_limitSet, hproj]
    decide
  rw [effThermal_low (by decide) hlow]
  change shed 0 (shedOrder (putProj limitSet 0) 0) (leavingMw (putProj limitSet 0) 0) (routeEvent (putProj limitSet 0) 5 _) = _
  rw [putProj_limitSet]
  rfl

/-- The event's token goes to the mailbox, whose writes find no room. -/
theorem routeEvent_noRoom : (routeEvent limitProjected 5 0).hub.noRoom = [.log 0 0x10001000 none, .log 0 0x10000000 none] := by decide +kernel

/-- The step waits, and TLIM is as before. -/
theorem wholeStep_eventWithoutRoom {t : State} (h : t.hub.noRoom = [.log 0 0x10001000 none, .log 0 0x10000000 none]) :
    fld (reg (wholeStep eventWithoutRoom t).hub 0x2100) 24 12 = 0xFFF := by
  rw [wholeStep, h, if_neg (by decide)]
  decide +kernel

/-- Refutes O54: the clause on TLIM has the step complete in every state of a device that is up. A limit below the projection raises an event (R320),
whose token may be held in a mailbox of a save area (R290); when that write finds no room the step waits whole (log entry 12), and TLIM is as before. -/
theorem not_launchesAndScheduler : ¬ Obligations.LaunchesAndScheduler := by
  unfold Obligations.LaunchesAndScheduler
  intro h
  obtain ⟨-, -, -, -, -, -, -, -, hthermal⟩ := h eventWithoutRoom 0 0 0 0 0 0 0 0 [] unplacedLaunch unplacedLaunch
    { en := false, head := 0, tail := 0, rbase := 0, log2n := 0, pasid := 0, maxpcls := 0, stopped := false } { inst := 0, core := 0 } 0
    { cfg := 0, left := 0, start := 0 }
  obtain ⟨u, hu, hlimit, -⟩ := hthermal rfl (by decide)
  have hstep : exec (.thermalLimitChange 0 0) eventWithoutRoom = .next (wholeStep eventWithoutRoom (effThermal 0 0 eventWithoutRoom)) :=
    congrArg Host.Outcome.next (if_pos (show eventWithoutRoom.hub.up = true from rfl))
  obtain rfl := Host.Outcome.next.inj (hstep.symm.trans hu)
  have hnoRoom : (effThermal 0 0 eventWithoutRoom).hub.noRoom = [.log 0 0x10001000 none, .log 0 0x10000000 none] := by
    rw [effThermal_eventWithoutRoom, shed_noRoom, routeEvent_noRoom]
  have hkept : fld (reg (wholeStep eventWithoutRoom (effThermal 0 0 eventWithoutRoom)).hub 0x2100) 24 12 = 0xFFF :=
    wholeStep_eventWithoutRoom hnoRoom
  exact absurd (hkept.symm.trans hlimit) (by decide)

end Sys2Proof.Machine
end


-- ==== Sys2Proof/Proofs/RecordSends.lean ====
section
/-! SUPPORT. What the sending of fault records leaves: the fault queue, and every context but for wakes (O36, O41). -/
namespace Sys2Proof.Machine
open Sys2Proof

/-! ## The fault queue and the homes of memory (R351, R385) -/

section Cam
variable (s : State)

theorem bump_cam (h : Hub) (off lo n : Nat) : (bump h off lo n).cam = h.cam := by
  unfold bump
  dsimp only
  split <;> rfl

theorem demand_cam (line : Nat) (read : Bool) : (demand s line read).hub.cam = s.hub.cam := by
  unfold demand
  dsimp only
  split
  · split
    · exact (bump_cam ..).trans (bump_cam ..)
    · exact bump_cam ..
  · rfl

theorem evictLine_cam (line : Nat) : (evictLine s line).hub.cam = s.hub.cam := by
  unfold evictLine
  dsimp only
  split
  · rfl
  · split
    · split
      · exact bump_cam ..
      · rfl
    · split
      · exact bump_cam ..
      · rfl

theorem makeRoom_cam (line : Nat) : (makeRoom s line).hub.cam = s.hub.cam := by
  unfold makeRoom
  split
  · rfl
  · dsimp only
    split
    · exact evictLine_cam s _
    · rfl

theorem takeHostData_cam (line : Nat) : (takeHostData s line).hub.cam = s.hub.cam := by
  unfold takeHostData
  split <;> rfl

theorem ownLine_cam (line : Nat) : (ownLine s line).hub.cam = s.hub.cam := by
  unfold ownLine
  dsimp only
  refine (takeHostData_cam ..).trans ?_
  split
  · exact makeRoom_cam s line
  · split <;> exact makeRoom_cam s line

theorem capState_cam (h : Hub) : (capState h).cam = h.cam := by
  unfold capState
  dsimp only
  split <;> rfl

theorem writePwrctl_cam (h : Hub) (v : Word) : (writePwrctl h v).cam = h.cam := by
  unfold writePwrctl
  dsimp only
  split
  · split <;> rfl
  · rfl
  · rfl

theorem setReg_cam (h : Hub) (off : Nat) (v : Word) : (setReg h off v).cam = h.cam := rfl

theorem writeErrinj_cam (v : Word) (go : Bool) : (writeErrinj s v go).hub.cam = s.hub.cam := by
  unfold writeErrinj
  dsimp only
  split <;> rfl

theorem writeDatcfg_cam (d : Nat) (v : Word) : (writeDatcfg s d v).hub.cam = s.hub.cam := by
  unfold writeDatcfg
  dsimp only
  split <;> rfl

theorem writeCwcfg_cam (v : Word) : (writeCwcfg s v).hub.cam = s.hub.cam := by
  unfold writeCwcfg
  generalize anyEn s = b
  cases b <;> rfl

theorem writeSwpcfg_cam (h : Hub) (v : Word) : (writeSwpcfg h v).cam = h.cam := by
  unfold writeSwpcfg
  split <;> rfl

theorem writeSealcfg_cam (h : Hub) (v : Word) : (writeSealcfg h v).cam = h.cam := by
  unfold writeSealcfg
  dsimp only
  split <;> rfl

theorem regApply_cam (off : Nat) (v wo : Word) : (regApply s off v wo).hub.cam = s.hub.cam := by
  unfold regApply
  dsimp only
  split
  · exact setReg_cam ..
  split
  · exact writeSwpcfg_cam ..
  split
  · exact (capState_cam _).trans (setReg_cam ..)
  split
  · exact setReg_cam ..
  split
  · exact writeSealcfg_cam ..
  split
  · exact writeErrinj_cam ..
  split
  · exact writeDatcfg_cam ..
  split
  · exact writeCwcfg_cam ..
  split
  · exact writePwrctl_cam ..
  · exact setReg_cam ..

theorem regStore_cam (host : Bool) (off n : Nat) (v : Word) : (regStore s host off n v).hub.cam = s.hub.cam := by
  unfold regStore
  dsimp only
  split
  · rfl
  split
  · rfl
  · exact regApply_cam ..

theorem spillEntry_cam (ch : Nat) : (spillEntry s ch).hub.cam = s.hub.cam := by
  unfold spillEntry
  dsimp only
  split
  · rfl
  · split <;> rfl

theorem wantSealOf_cam (h : Hub) (d : BitVec 32) : (wantSealOf h d).cam = h.cam := by
  unfold wantSealOf
  split <;> rfl

theorem logGranule_cam (pa : Nat) (e : BitVec 32) : (logGranule s pa e).hub.cam = s.hub.cam := by
  unfold logGranule
  split
  · rfl
  · unfold logEntry
    dsimp only
    generalize ht : (if wbBuffer ≤ _ then spillEntry s (channelOf pa) else s) = t
    have hspilt : t.hub.cam = s.hub.cam := by
      rw [← ht]
      split
      · exact spillEntry_cam s _
      · rfl
    refine Eq.trans ?_ hspilt
    split
    · exact wantSealOf_cam ..
    · rfl

theorem releaseAt_cam (line : Nat) (sig : BitVec 256) (atomic hub : Bool) : (releaseAt s line sig atomic hub).hub.cam = s.hub.cam := by
  unfold releaseAt
  dsimp only
  split
  · exact bump_cam ..
  · rfl

theorem countClaim_cam (h : Hub) (pa : Nat) (trk : Bool) : (countClaim h pa trk).cam = h.cam := by
  unfold countClaim
  split
  · exact bump_cam ..
  · rfl

end Cam

/-! ## Writes of the hub (R258, R411) -/

/-- The fault queue is as before, and every context but for wakes. -/
structure State.Sends (s t : State) : Prop where
  ctx : ∀ k, Ctx.Woken (s.ctx k) (t.ctx k)
  cam : t.hub.cam = s.hub.cam

theorem State.Sends.refl (s : State) : State.Sends s s := ⟨fun _ => .refl _, rfl⟩

theorem State.Sends.trans {s t u : State} (h : State.Sends s t) (k : State.Sends t u) : State.Sends s u :=
  ⟨fun n => (h.ctx n).trans (k.ctx n), k.cam.trans h.cam⟩

/-- A step that leaves the contexts alone. -/
theorem State.Sends.of_ctxs {s t : State} (hctxs : t.ctxs = s.ctxs) (hcam : t.hub.cam = s.hub.cam) : State.Sends s t where
  ctx k := by
    rw [State.ctx, State.ctx, hctxs]
    exact .refl _
  cam := hcam

/-- A step of the hub. -/
theorem State.Sends.of_hub {s : State} {h : Hub} (hcam : h.cam = s.hub.cam) : State.Sends s { s with hub := h } := .of_ctxs rfl hcam

theorem State.Sends.of_offRegs {s t : State} (h : t.offRegs = s.offRegs) (hcam : t.hub.cam = s.hub.cam) : State.Sends s t :=
  .of_ctxs (congrArg (fun p => p.1.1) h) hcam

theorem foldl_sends {β : Type} {f : State → β → State} (h : ∀ s b, State.Sends s (f s b)) (bs : List β) (s : State) : State.Sends s (bs.foldl f s) := by
  induction bs generalizing s with
  | nil => exact .refl s
  | cons b bs ih => exact (h s b).trans (ih _)

section Writes
variable (s : State) (w : HWrite)

theorem wakeLine_sends (line : Nat) (rings : Bool) : State.Sends s (wakeLine s line rings) where
  ctx n := by
    have hmap : (wakeLine s line rings).ctx n = wakeCtx _ (s.ctx n) :=
      mget_map emptyCtx (fun _ => wakeCtx fun r => spaceOf r.va == 0 && r.pa / 64 == line) (fun _ => rfl) s.ctxs n
    rw [hmap]
    exact wakeCtx_woken _ _
  cam := by cases rings <;> rfl

theorem noteWrite_sends : State.Sends s (noteWrite s w) := by
  unfold noteWrite
  dsimp only
  refine .trans ?_ (wakeLine_sends ..)
  have hdemand (p : Prop) [Decidable p] : State.Sends s (if p then s else demand s (w.pa / 64) false) := by
    split
    · exact .refl s
    · exact .of_offRegs (offRegs_of_offLines (offLines_of_offMarks (demand_offMarks ..))) (demand_cam ..)
  split
  · split
    · exact (hdemand _).trans (.of_offRegs (releaseAt_offRegs ..) (releaseAt_cam ..))
    · exact hdemand _
  · exact hdemand _

theorem afterWrite_sends : State.Sends s (afterWrite s w) := by
  unfold afterWrite
  refine .trans ?_ (noteWrite_sends ..)
  split
  · exact .refl s
  · dsimp only
    split <;> exact .of_ctxs rfl rfl

theorem enterHold_sends : State.Sends s (enterHold s w) := by
  unfold enterHold
  refine .trans ?_ (noteWrite_sends ..)
  unfold wantHold
  dsimp only
  split <;> exact .of_ctxs rfl rfl

theorem directWrite_sends (a : Nat) (bs : List Byte) : State.Sends s (directWrite s a bs) :=
  .of_offRegs (directWrite_offRegs ..) (ownLine_cam { s with hub := { s.hub with held := dropHeld s.hub.held a bs.length } } (a / 64))

theorem writeThrough_sends : State.Sends s (writeThrough s w) := by
  unfold writeThrough
  split
  · exact .of_offRegs (regStore_offRegs ..) (regStore_cam ..)
  split
  · exact ((State.Sends.of_offRegs (logGranule_offRegs ..) (logGranule_cam ..)).trans (directWrite_sends ..)).trans (afterWrite_sends ..)
  split
  · exact enterHold_sends ..
  split
  · exact .of_ctxs rfl rfl
  · exact (directWrite_sends ..).trans (afterWrite_sends ..)

theorem hubPut_sends : State.Sends s (hubPut s w) := by
  unfold hubPut
  split
  · exact .of_ctxs rfl rfl
  · exact writeThrough_sends s w

theorem setADWhole_sends (a : Asker) (pte : Nat) (v : Word) : State.Sends s (setADWhole s a pte v) := by
  unfold setADWhole
  generalize setBit (if a.acc.writes then setBit v 9 true else v) 8 true = n
  dsimp only
  split
  · exact .refl s
  · exact hubPut_sends ..

theorem dueRollback_sends (cause : BitVec 8) : State.Sends s (dueRollback s cause) := by
  unfold dueRollback
  split
  · exact .of_ctxs rfl rfl
  · exact .refl s

end Writes

/-! ## Mailboxes, events and records (R289, R306, R375, R389) -/

section Records
variable (s : State)

theorem savePut_sends (la : Launch) (off : Nat) (bs : List Byte) : State.Sends s (savePut la s off bs) := by
  unfold savePut
  dsimp only
  split
  · split
    · refine .trans ?_ (hubPut_sends ..)
      exact (State.Sends.of_hub (countClaim_cam ..)).trans (setADWhole_sends ..)
    · exact .refl s
  · exact dueRollback_sends ..
  · exact .refl s

theorem putMail_sends (la : Launch) (state slots k : Nat) (ts : List Token) : State.Sends s (putMail la s state slots k ts) := by
  refine .trans (foldl_sends (fun s i => ?_) _ s) (savePut_sends ..)
  split
  · exact savePut_sends ..
  · exact .refl s

theorem putLaunch_cam (h : Hub) (k : Nat) (la : Launch) : (putLaunch h k la).cam = h.cam := rfl

theorem holdSwapped_sends {s t : State} {la : Launch} {a : BitVec 32} {f : Flight} (h : holdSwapped s la a f = .ok t) : State.Sends s t := by
  unfold holdSwapped putInstMail at h
  dsimp only at h
  split at h
  · cases h
  · rw [← Routed.ok.inj h]
    exact (State.Sends.of_hub (putLaunch_cam ..)).trans (putMail_sends ..)

theorem holdPending_sends {s t : State} {la : Launch} {a : BitVec 32} {f : Flight} (h : holdPending s la a f = .ok t) : State.Sends s t := by
  unfold holdPending putPending at h
  dsimp only at h
  split at h
  · cases h
  · rw [← Routed.ok.inj h]
    exact (State.Sends.of_hub (putLaunch_cam ..)).trans (putMail_sends ..)

theorem routeAt_sends {s t : State} {f : Flight} {a : BitVec 32} (h : routeAt s f a = .ok t) : State.Sends s t := by
  unfold routeAt at h
  split at h
  · cases h
  split at h
  · cases h
  split at h
  · rw [← Routed.ok.inj h]
    exact .of_hub rfl
  · exact holdSwapped_sends h
  · exact holdPending_sends h
  · cases h

theorem routeCore_sends {s t : State} {f : Flight} (h : routeCore s f = .ok t) : State.Sends s t := by
  unfold routeCore at h
  split at h
  · obtain rfl := Routed.ok.inj h
    exact .of_ctxs rfl rfl
  · exact routeAt_sends h

theorem routeEvent_sends (src : Nat) (data : Word) : State.Sends s (routeEvent s src data) := by
  unfold routeEvent routeEventTag
  dsimp only
  split
  · exact .of_hub (bump_cam ..)
  · exact .of_hub rfl
  · split
    · next h => exact routeCore_sends h
    · exact .refl s
    · exact .of_ctxs rfl rfl

theorem checkPcb_sends (pasid : Nat) : State.Sends s (checkPcb s pasid) := by
  unfold checkPcb
  split
  · split
    · exact dueRollback_sends ..
    · exact .refl s
  · exact .refl s

theorem frLost_sends : State.Sends s (frLost s) := by
  unfold frLost
  exact (State.Sends.of_hub (bump_cam ..)).trans (routeEvent_sends ..)

theorem sendRec_sends (r : FRec) : State.Sends s (sendRec s r) := by
  unfold sendRec
  refine (checkPcb_sends s r.pasid).trans ?_
  dsimp only
  split
  · exact frLost_sends _
  · split
    · exact frLost_sends _
    · split
      · next h => exact routeCore_sends h
      · exact frLost_sends _
      · exact .of_ctxs rfl rfl

theorem sendRecs_sends : State.Sends s (sendRecs s) :=
  State.Sends.trans (t := { s with hub := { s.hub with recs := [] } }) (.of_hub rfl) (foldl_sends sendRec_sends _ _)

/-- With no record left, nothing is sent. -/
theorem sendRecs_nil {s : State} (h : s.hub.recs = []) : sendRecs s = s := by
  unfold sendRecs
  rw [h, List.foldl_nil, ← h]

theorem freeRecord_sends (code : BitVec 8) (addr : Word) (acc : BitVec 2) (pasid : BitVec 20) (cid : Nat) (lo hi : Word) :
    State.Sends s (freeRecord s code addr acc pasid cid lo hi) := sendRec_sends ..

end Records

end Sys2Proof.Machine
end


-- ==== Sys2Proof/Proofs/Traps.lean ====
section
/-! SUPPORT. TRAP by its privilege, and RTI (O41). -/
namespace Sys2Proof.Machine
open Sys2Proof

/-! ## Fields of STAT (R5, R89) -/

/-- A field written with what it holds. -/
theorem setFld_fld {w : Nat} (x : BitVec w) (lo n : Nat) : setFld x lo n (fld x lo n) = x := by
  refine BitVec.eq_of_getLsbD_eq fun j hj => ?_
  simp only [setFld, maskAt, fld, bits, BitVec.getLsbD_or, BitVec.getLsbD_and, BitVec.getLsbD_not, BitVec.getLsbD_shiftLeft, BitVec.getLsbD_ofNat,
    Nat.testBit_two_pow_sub_one, Nat.testBit_mod_two_pow, Nat.testBit_div_two_pow, BitVec.testBit_toNat]
  by_cases hlo : j < lo
  · simp [hj, hlo]
  · have hw : j - lo < w := by omega
    have hsum : j - lo + lo = j := by omega
    by_cases hn : j - lo < n <;> simp [hj, hlo, hw, hn, hsum]

/-- STAT holds PFXV of any word as it is. -/
theorem stPFXV_statHeld (w : Word) : stPFXV (statHeld w) = stPFXV w := by
  refine getLsbD_of_and (m := BitVec.twoPow 64 47) ?_ (by decide)
  unfold statHeld
  dsimp only
  rw [setFld_and (by decide), setFld_and (by decide), setFld_and (by decide), setFld_and (by decide)]

/-- STAT holds a word as it is when its fields are in their ranges. -/
theorem statHeld_eq_self {w : Word} (hzero : w &&& 0xFFFFFFE0 = 0) (hlpd : stLPD w ≤ 2) (hpriv : stPRIV w ≤ 2) (hds : stDS w ≤ 2) : statHeld w = w := by
  have hres : setFld w 5 27 0 = w := by
    have h : fld w 5 27 = 0 := by
      rw [← fld_and w (m := 0xFFFFFFE0) (by decide), hzero]
      rfl
    rw [← h, setFld_fld]
  unfold statHeld
  dsimp only
  rw [hres, min_eq_right hlpd, min_eq_right hpriv, min_eq_right hds, stLPD, setFld_fld, stPRIV, setFld_fld, stDS, setFld_fld]

/-- PRIV is a field beside PFXV. -/
theorem stPRIV_setBit47 (w : Word) (b : Bool) : stPRIV (setBit w 47 b) = stPRIV w :=
  stPRIV_of_and (m := 0x180000000000) (by decide) (setBit_and (by decide))

/-- STAT at the entry to machine code (R229). -/
def trapStat (w : Word) : Word := setBit (setFld (setBit w 47 false) 43 2 2) 47 false

theorem trapStat_fields (w : Word) : stPRIV (trapStat w) = 2 ∧ stPFXV (trapStat w) = false ∧
    trapStat w &&& 0xFFFF67FFFFFFFFFF#64 = w &&& 0xFFFF67FFFFFFFFFF#64 := by
  refine ⟨?_, getLsbD_setBit _ (by decide) _, ?_⟩
  · rw [trapStat, stPRIV_setBit47, stPRIV, fld_setFld_same _ (by decide) (by decide)]
  · rw [trapStat, setBit_and (by decide), setFld_and (by decide), setBit_and (by decide)]

/-! ## Entry and return (R229, R231) -/

/-- A retirement that enters machine code or leaves it. -/
theorem retire_jump {l : Loc} {pc : Word} (h : l.next = .jump pc) : (retire l).ctx = { l.ctx with
    status := .issuing, landed := [], pairBad := false, bmov := 0, dleft := l.dl.getD (l.ctx.dleft - 1)
    stat := setBit l.ctx.stat 47 l.pfx, pc := pc } := by
  unfold retire
  rw [h]
  cases l.dl <;> rfl

/-- The view that enters machine code. -/
def trapped (l : Loc) (n : BitVec 16) : Loc :=
  { l with ctx := { l.ctx with mtpc := l.ctx.pc + 1, mtst := l.ctx.stat, mtcode := n, stat := setFld (setBit l.ctx.stat 47 false) 43 2 2, tgtCheck := true }
           next := .jump (mtvecOf l) }

section Trap
variable {s : State} {c : Cond} {n : BitVec 16}

/-- TRAP of a context that issues, by its privilege. -/
theorem trapBody_issuing {l : Loc} (h : l.ctx.status = .issuing) : trapBody n s l =
    if l.priv = 0 then parkOn (trapPark l n).1 (trapPark l n).2
    else if l.priv = 1 then
      if n = 0x0100 ∧ l.ctx.mtvec = none then attest l else .ok (trapped l n, id)
    else flt l 0x01 := by
  unfold trapBody
  dsimp only
  split
  · next m hm =>
    rw [h] at hm
    cases hm
  · rfl

/-- The entry of a TRAP at PRIV 0 in the fault queue (R228). -/
def trapEntry (l : Loc) (n : BitVec 16) : CamEntry :=
  { seq := l.hub.camSeq + 1, pasid := l.ctx.pasid.toNat, page := 0, acc := .read, sub := 0, code := 0x40, trapNo := n, reqs := [.ctx l.cid]
    ftime := l.now / 16, priSent := false }

/-- The view with that entry at an index, and its record. -/
def queuedTrap (l : Loc) (n : BitVec 16) (i : Nat) (r : FRec) : Loc :=
  { l with hub := { l.hub with cam := mset noCam l.hub.cam i (trapEntry l n), camSeq := l.hub.camSeq + 1, recs := l.hub.recs ++ [r] } }

/-- With a free index, a TRAP at PRIV 0 parks on an entry of its own. -/
theorem trapPark_free {l : Loc} {i : Nat} (h : camFree l.hub = some i) : ∃ r, trapPark l n = (queuedTrap l n i r, .trap i) := by
  unfold trapPark
  rw [h]
  exact ⟨_, rfl⟩

/-- What follows the issue of a TRAP: its records are sent. -/
theorem exec_trap {t : State} (h : issueG (.trap c n) (trapBody n) s = .next t) : exec (.trap c n) s = .next (wholeIssue s (sendRecs t)) := by
  change execTrap c n s = _
  rw [execTrap, h]

/-- Without a record left there is none to send. -/
theorem exec_trap_of_no_recs {t : State} (h : issueG (.trap c n) (trapBody n) s = .next t) (hrecs : t.hub.recs = [])
    (hroom : t.hub.noRoom = s.hub.noRoom) : exec (.trap c n) s = .next t := by
  rw [exec_trap h, sendRecs_nil hrecs, wholeIssue_made hroom]

/-- A fault at PRIV 2 or above, of a code that does not park on the fault queue, leaves no record with the hub. -/
theorem raise_recs (l : Loc) : (raise l (faultOf 0x01)).hub.recs = l.hub.recs ∧ (raise l (faultOf 0x01)).hub.noRoom = l.hub.noRoom := by
  unfold raise
  split
  · exact ⟨rfl, rfl⟩
  · rw [if_neg (by decide)]
    exact ⟨rfl, rfl⟩

end Trap

/-- Settles O41: TRAP by its privilege, RTI by what STAT holds of MTST. -/
theorem trapsEnterAndReturn : Obligations.TrapsEnterAndReturn := by
  unfold Obligations.TrapsEnterAndReturn
  intro s c n i l k trap
  refine ⟨fun hgoes hpriv hown hrecs => ?_, fun hgoes hpriv hfree => ?_, fun hgoes hpriv hrecs => ?_, fun hpriv => ?_, fun hgoes => ?_⟩
  · obtain ⟨-, hissuing, -⟩ := goes_parts hgoes
    have hbody : trapBody n s l = .ok (trapped l n, id) := by
      have hpriv : l.priv = 1 := hpriv
      rw [trapBody_issuing hissuing, if_neg (by rw [hpriv]; decide), if_pos hpriv, if_neg hown]
    have hnext := issueG_next (body := trapBody n) hgoes hbody (by rfl)
    refine ⟨_, exec_trap_of_no_recs hnext hrecs rfl, ?_⟩
    have hself : (s.retired (trapped l n)).ctx s.cur = (retire (trapped l n)).ctx := (putLoc_ctx_of_no_wakes rfl s.cur).trans (if_pos rfl)
    obtain ⟨hstpriv, hstpfx, hstrest⟩ := trapStat_fields k.stat
    rw [id, hself, retire_jump rfl]
    exact ⟨rfl, rfl, rfl, rfl, hstpriv, hstpfx, hstrest, rfl, rfl, rfl, rfl, rfl, rfl,
      fun j hj => (putLoc_ctx_of_no_wakes rfl j).trans (if_neg hj), putLoc_mem ..⟩
  · obtain ⟨-, hissuing, -⟩ := goes_parts hgoes
    obtain ⟨r, htrap⟩ := trapPark_free (l := l) (n := n) hfree
    generalize hm : queuedTrap l n i r = m at htrap
    have hbody : trapBody n s l = .error (.park m (.trap i)) := by
      have hpriv : l.priv = 0 := hpriv
      rw [trapBody_issuing hissuing, if_pos hpriv, htrap]
      rfl
    have hnext : issueG trap (trapBody n) s = .next (s.putLoc (m.parkAs (.trap i))) := issueWith_park hgoes hbody
    generalize hu : s.putLoc (m.parkAs (.trap i)) = u at hnext
    have hself : u.ctx s.cur = (m.parkAs (.trap i)).ctx := by
      rw [← hu, ← hm]
      exact (putLoc_ctx_of_no_wakes rfl s.cur).trans (if_pos rfl)
    have hkept : (sendRecs u).ctx s.cur = (m.parkAs (.trap i)).ctx := by
      rw [← hself]
      refine ((sendRecs_sends u).ctx s.cur).same fun r h => ?_
      rw [hself, Loc.parkAs] at h
      cases h
    have hentry : mget noCam (sendRecs u).hub.cam i = trapEntry l n := by
      rw [(sendRecs_sends u).cam, ← hu, ← hm, putLoc_hub]
      exact mget_mset_same noCam s.hub.cam i (trapEntry l n)
    refine ⟨sendRecs u, exec_trap hnext, fun hroom => (exec_trap hnext).trans (congrArg _ (wholeIssue_made hroom)), ?_⟩
    dsimp only
    rw [hkept, hentry, ← hm]
    exact ⟨rfl, rfl, rfl, rfl, rfl, rfl, rfl⟩
  · obtain ⟨-, hissuing, -⟩ := goes_parts hgoes
    have hbody : trapBody n s l = .error (.fault l (faultOf 0x01)) := by
      have hmachine : 2 ≤ l.priv := hpriv
      rw [trapBody_issuing hissuing, if_neg (by rintro h; rw [h] at hmachine; omega), if_neg (by rintro h; rw [h] at hmachine; omega)]
      rfl
    have hnext : issueG trap (trapBody n) s = .next (s.putLoc (raise l (faultOf 0x01))) := issueWith_fault hgoes hbody
    obtain ⟨hleft, hroom⟩ := raise_recs l
    exact exec_trap_of_no_recs hnext (by rw [putLoc_hub, hleft]; exact hrecs) (by rw [putLoc_hub, hroom]; rfl)
  · have hmachine : l.priv = 2 := hpriv
    rw [raise, if_pos hmachine]
    rfl
  · let l1 : Loc := { l.setStat (statHeld k.mtst) with next := .jump k.mtpc, pfx := stPFXV k.mtst }
    have hself : (s.retired l1).ctx s.cur = (retire l1).ctx := (putLoc_ctx_of_no_wakes rfl s.cur).trans (if_pos rfl)
    have hstat : setBit (statHeld k.mtst) 47 (stPFXV k.mtst) = statHeld k.mtst := by
      rw [← stPFXV_statHeld]
      exact setBit_getLsbD ..
    refine ⟨_, issue_next (body := bodyRti c) (l1 := l1) hgoes rfl, ?_⟩
    change let e := (s.retired l1).ctx s.cur; _
    rw [hself, retire_jump rfl]
    exact ⟨rfl, hstat, fun hzero hlpd hpriv hds => hstat.trans (statHeld_eq_self hzero hlpd hpriv hds), rfl, rfl, rfl, rfl, rfl, rfl,
      putLoc_outsideAlike ..⟩

end Sys2Proof.Machine
end


-- ==== Sys2Proof/Proofs/FiringCommits.lean ====
section
/-! SUPPORT. The commit of a firing and what it leaves (O36). -/
namespace Sys2Proof.Machine
open Sys2Proof

/-! ## The commit (R203, R296) -/

/-- A context whose firing has been committed: no quota, outbox or journal, and some credits. -/
def Ctx.spent (c : Ctx) (n : Nat) : Ctx :=
  { c with quota0 := [], quota1 := [], pop0 := 0, pop1 := 0, credits := n, outbox := [], journal := [] }

/-- Only the credits of one context differ. -/
def State.paysFrom (s t : State) (cid : Nat) : Prop :=
  ∃ n, ∀ j, t.ctx j = if j = cid then { s.ctx cid with credits := n } else s.ctx j

theorem State.paysFrom.of_ctxs {s t : State} (h : t.ctxs = s.ctxs) (cid : Nat) : s.paysFrom t cid := by
  refine ⟨(s.ctx cid).credits, fun j => ?_⟩
  rw [State.ctx, h]
  split
  · next hj => rw [hj]
  · rfl

section Commit
variable (s : State) (cid : Nat)

theorem consumeQuota_ctx (j : Nat) :
    (consumeQuota s cid).ctx j = if j = cid then { s.ctx cid with quota0 := [], quota1 := [], pop0 := 0, pop1 := 0 } else s.ctx j :=
  putCtx_get ..

theorem returnCredits_paysFrom : s.paysFrom (returnCredits s cid) cid := by
  unfold returnCredits
  dsimp only
  split
  · exact .of_ctxs rfl cid
  · exact ⟨0, fun j => putCtx_get ..⟩

/-- The end of a commit: unused credits go back, and the outbox and the journal are empty (R203). -/
def closeFiring (s : State) (cid : Nat) : State :=
  putCtx (returnCredits s cid) cid { (returnCredits s cid).ctx cid with outbox := [], journal := [] }

theorem commitFiring_eq : commitFiring s cid = closeFiring ((s.ctx cid).outbox.foldl (commitItem cid) (consumeQuota s cid)) cid := by
  have h : ((consumeQuota s cid).ctx cid).outbox = (s.ctx cid).outbox := by rw [consumeQuota_ctx, if_pos rfl]
  rw [← h]
  rfl

variable {s cid}

/-- The contexts after a commit whose items leave all but the credits. -/
theorem commitFiring_ctx (h : (consumeQuota s cid).paysFrom ((s.ctx cid).outbox.foldl (commitItem cid) (consumeQuota s cid)) cid) :
    ∃ n, ∀ j, (commitFiring s cid).ctx j = if j = cid then (s.ctx cid).spent n else s.ctx j := by
  rw [commitFiring_eq]
  generalize (s.ctx cid).outbox.foldl (commitItem cid) (consumeQuota s cid) = t at h
  obtain ⟨m, hm⟩ := h
  obtain ⟨n, hn⟩ := returnCredits_paysFrom t cid
  refine ⟨n, fun j => ?_⟩
  rw [closeFiring, putCtx_get, hn, if_pos rfl, hm, if_pos rfl, consumeQuota_ctx, if_pos rfl]
  split
  · rfl
  · next hj => rw [hn, if_neg hj, hm, if_neg hj, consumeQuota_ctx, if_neg hj]

/-- What the use of the quota leaves. -/
theorem consumeQuota_keeps {γ : Type} (f : State → γ) (hctx : ∀ u k c, f (putCtx u k c) = f u)
    (hrows : ∀ u n rs, f (putCore u n { coreAt u n with rows := rs }) = f u)
    (hfly : ∀ u cs es, f { u with hub := { u.hub with creditFly := cs, esc := es } } = f u) (s : State) (cid : Nat) : f (consumeQuota s cid) = f s :=
  (hctx ..).trans ((hfly ..).trans (hrows ..))

/-- What the end of a commit leaves. -/
theorem closeFiring_keeps {γ : Type} (f : State → γ) (hctx : ∀ u k c, f (putCtx u k c) = f u)
    (hcredits : ∀ u n cs, f (putCore u n { coreAt u n with credits := cs }) = f u) (s : State) (cid : Nat) : f (closeFiring s cid) = f s := by
  refine (hctx ..).trans ?_
  unfold returnCredits
  dsimp only
  split
  · rfl
  · exact (hctx ..).trans (hcredits ..)

/-- A firing with an empty outbox commits no item. -/
theorem commitFiring_none (hout : (s.ctx cid).outbox = []) : commitFiring s cid = closeFiring (consumeQuota s cid) cid := by
  rw [commitFiring_eq, hout]
  rfl

/-- What the commit of an empty outbox leaves: anything that the contexts, the rows and credits of cores, the returning credits and the timers do
not tell. -/
theorem commitFiring_keeps {γ : Type} (f : State → γ) (hctx : ∀ u k c, f (putCtx u k c) = f u)
    (hrows : ∀ u n rs, f (putCore u n { coreAt u n with rows := rs }) = f u) (hcredits : ∀ u n cs, f (putCore u n { coreAt u n with credits := cs }) = f u)
    (hfly : ∀ u cs es, f { u with hub := { u.hub with creditFly := cs, esc := es } } = f u)
    (hout : (s.ctx cid).outbox = []) : f (commitFiring s cid) = f s := by
  rw [commitFiring_none hout]
  exact (closeFiring_keeps f hctx hcredits ..).trans (consumeQuota_keeps f hctx hrows hfly ..)

theorem commitFiring_ctx_none (hout : (s.ctx cid).outbox = []) : ∃ n, ∀ j, (commitFiring s cid).ctx j = if j = cid then (s.ctx cid).spent n else s.ctx j :=
  commitFiring_ctx (by rw [hout]; exact .of_ctxs rfl cid)

end Commit

/-! ## Tokens that leave (R194, R289) -/

/-- A token for a placed actor is on its way. -/
theorem routeCore_placed {s : State} {f : Flight} {a : BitVec 32} (hdest : f.dest = .addr a) (hplaced : placed s.hub a = true) :
    routeCore s f = .ok (launchFlight s f) := by
  obtain ⟨hpst, hlive⟩ := Bool.and_eq_true_iff.mp hplaced
  have hpst : pst (placeWordOf s.hub a) = 1 := beq_iff_eq.mp hpst
  have hvia : routeVia s.hub a = a := by
    unfold routeVia
    dsimp only
    rw [hpst]
    rfl
  unfold routeCore
  rw [hdest]
  dsimp only
  rw [hvia, routeAt]
  unfold placeWordOf at hpst
  cases hla : launchOf s.hub (adSlot a) with
  | none =>
    rw [hla] at hpst
    exact absurd (show pst 3 = 1 from hpst) (by decide)
  | some la =>
    rw [hla] at hpst hlive
    have hlive : la.failed = false := by simpa using hlive
    dsimp only at hpst ⊢
    rw [hlive, hpst, ← hdest]
    rfl

/-- The flight of a SEND of a firing (R210, R295). -/
def sendFlight (cid : Nat) (c : Ctx) (x : Token) (a : BitVec 32) (rch : Option (BitVec 5)) (cred : Bool) : Flight :=
  { tok := stampToken cid c x (adCh a) rch cred, kind := .send, src := coreOfCid cid, dest := .addr a, second := none, esc := none }

theorem useCredit_hub (s : State) (cid : Nat) (b : Bool) : (useCredit s cid b).hub = s.hub := by
  unfold useCredit
  split <;> rfl

theorem commitSend_placed {s : State} {cid : Nat} {x : Token} {a : BitVec 32} {rch : Option (BitVec 5)} (hplaced : placed s.hub a = true) :
    ∃ cred, commitSend s cid x a rch = launchFlight (useCredit s cid cred) (sendFlight cid (s.ctx cid) x a rch cred) := by
  unfold commitSend
  dsimp only
  generalize (a == (ctxOf s cid).oedge && (ctxOf s cid).oedge != 0 && decide (0 < (ctxOf s cid).credits)) = cred
  refine ⟨cred, ?_⟩
  rw [route, routeCore_placed rfl ((congrArg (placed · a) (useCredit_hub ..)).trans hplaced)]
  rfl

theorem useCredit_paysFrom (s : State) (cid : Nat) (b : Bool) : s.paysFrom (useCredit s cid b) cid := by
  unfold useCredit
  split
  · exact ⟨_, fun j => putCtx_get ..⟩
  · exact .of_ctxs rfl cid

end Sys2Proof.Machine
end

