-- ==== Sys2Proof/Proofs/FiringEnds.lean ====
section
/-! SUPPORT. END, IDLE, JOIN and YIELD (O36). -/
namespace Sys2Proof.Machine
open Sys2Proof

/-! ## Waiting for the end (R203, R211) -/

/-- A firing that may end now: nothing in flight, no deferred fault, no poison, and room for its refusable tokens. -/
structure Loc.mayEnd (s : State) (l : Loc) : Prop where
  cnt : l.ctx.cnt = 0
  due : dueFault l.ctx (fun _ => true) = none
  pois : l.ctx.pois = false
  room : refusable s l ≤ 64

theorem dueFault_of_none {c : Ctx} (hld : c.defLD = none) (hst : c.defST = none) (hcp : c.defCP = none) (htl : c.defTL = none) (cov : Nat → Bool) :
    dueFault c cov = none := by
  simp [dueFault, hld, hst, hcp, htl]

section Ends
variable {s : State} {l : Loc}

theorem finishWait_mayEnd (h : l.mayEnd s) : finishWait s l = .ok () := by
  simp [finishWait, h.cnt, raiseDue_none h.due, h.room, bind, Except.bind]

/-- The view of a firing that ends. -/
def ending (l : Loc) : Loc := { l with next := .gone, ctx := { l.ctx with status := .issuing } }

theorem endBody_mayEnd (h : l.mayEnd s) : endBody s l = .ok (ending l, endNow l.cid) := by
  simp only [endBody, finishWait_mayEnd h, h.pois, bind, Except.bind]
  rfl

/-- A firing with accesses in flight waits. -/
theorem endBody_counts (h : ¬ l.ctx.cnt = 0) : endBody s l = .error (.park l .finish) := by
  simp only [endBody, finishWait, if_neg h]
  rfl

theorem idleBody_mayEnd (h : l.mayEnd s) :
    idleBody s l = .ok ({ ending l with core := { l.core with idleAsk := true } }, endNow l.cid) := by
  simp only [idleBody, endBody_mayEnd h, bind, Except.bind]
  rfl

theorem joinBody_mayEnd {i : Instr} {p : Reg} {g : Args} (h : l.mayEnd s) (hreads : fetchArgs l .d 0 (shape i) = .ok g)
    (hspace : spaceOf (l.p p) = 4) (halign : addrOf (l.p p) % 8 = 0) (hend : addrOf (l.p p) ≤ 0x3FFF8) :
    joinBody i (.preg p) s l = if cellLevelOk (l.p p) l.ctx.level
      then .ok (ending (l.take (shape i) g), joinNow l.cid (l.p p) (0, false) (g.a.val.setWidth 64))
      else flt l 0x19 := by
  simp only [joinBody, finishWait_mayEnd h, h.pois, hreads, regOfOpd, cellKey_scratch hspace halign hend, bind, Except.bind,
    Bool.false_eq_true, if_false]
  cases hok : cellLevelOk (l.p p) l.ctx.level with
  | true => rfl
  | false => rfl

end Ends

/-! ## Leaving the context (R203, R236) -/

section Leaving
variable {s : State} {cid : Nat}

/-- The state after a view that has set everything by its own rules. -/
theorem retired_gone_ctx {l : Loc} (hgone : l.next = .gone) (hwakes : l.wakes = []) (j : Nat) :
    (s.retired l).ctx j = if j = l.cid then l.ctx else s.ctx j := by
  rw [State.retired, retire_gone hgone]
  exact putLoc_ctx_of_no_wakes hwakes j

theorem retired_gone_hub {l : Loc} (hgone : l.next = .gone) : (s.retired l).hub = l.hub := by
  rw [State.retired, retire_gone hgone, putLoc_hub]

theorem noteRunnable_ctx (a b : State) (c j : Nat) : (noteRunnable a b c).ctx j = b.ctx j :=
  noteRunnable_keeps (fun u => u.ctx j) (fun _ _ _ _ => rfl) a b c

theorem noteRunnable_clus (a b : State) (c : Nat) : (noteRunnable a b c).clus = b.clus := noteRunnable_keeps State.clus (fun _ _ _ _ => rfl) a b c

theorem leave_clus (s : State) (cid : Nat) : (leave s cid).clus = s.clus := gateCore_keeps State.clus (fun _ _ _ => rfl) _ _

theorem endNow_ctx {n : Nat} (h : ∀ j, (commitFiring s cid).ctx j = if j = cid then (s.ctx cid).spent n else s.ctx j) (j : Nat) :
    (endNow cid s).ctx j = if j = cid then dormantOf (s.ctx cid) else s.ctx j := by
  rw [endNow, noteRunnable_ctx, leave_ctx, h, if_pos rfl]
  split
  · rfl
  · next hj => rw [h, if_neg hj]

theorem endNow_hub : (endNow cid s).hub = (commitFiring s cid).hub := by rw [endNow, noteRunnable_hub, leave_hub]

theorem endNow_memory : (endNow cid s).mem = (commitFiring s cid).mem := by
  rw [endNow, noteRunnable_mem, leave_mem]

/-- A core on which IDLE has executed gates with its last firing. -/
theorem gateCore_gated {c : Nat} (hask : (coreAt s c).idleAsk = true) (hidle : coreIdle s c = true) : (coreAt (gateCore c s) c).gated = true := by
  have hgate : gateCore c s = putCore s c { coreAt s c with gated := true, idleAsk := false } := by
    simp [gateCore, hask, hidle]
  rw [hgate, putCore_get, if_pos rfl]

theorem noteRunnable_gated (a b : State) (c n : Nat) : (coreAt (noteRunnable a b c) n).gated = (coreAt b n).gated := by
  refine noteRunnable_keeps (fun u => (coreAt u n).gated) (fun u c m x => ?_) a b c
  change (coreAt (putCore u c _) n).gated = _
  rw [putCore_get]
  split
  · next h => rw [h]
  · rfl

/-- A commit leaves the request of IDLE. -/
theorem commitFiring_idleAsk (hout : (s.ctx cid).outbox = []) (c : Nat) : (coreAt (commitFiring s cid) c).idleAsk = (coreAt s c).idleAsk := by
  have hcore (u : State) (n : Nat) (k : Core) (hk : k.idleAsk = (coreAt u n).idleAsk) : (coreAt (putCore u n k) c).idleAsk = (coreAt u c).idleAsk := by
    rw [putCore_get]
    split
    · next h => rw [h, hk]
    · rfl
  exact commitFiring_keeps (fun u => (coreAt u c).idleAsk) (fun _ _ _ => rfl) (fun u n _ => hcore u n _ rfl) (fun u n _ => hcore u n _ rfl)
    (fun _ _ _ => rfl) hout

/-- The core of the last firing gates when it has asked to. -/
theorem endNow_gated (hout : (s.ctx cid).outbox = []) (hask : (coreAt s (coreOfCid cid)).idleAsk = true)
    (hrest : ∀ n < 8, coreOfCid cid * 8 + n ≠ cid → (s.ctx (coreOfCid cid * 8 + n)).status = .dormant) :
    (coreAt (endNow cid s) (coreOfCid cid)).gated = true := by
  obtain ⟨n, hctx⟩ := commitFiring_ctx_none hout
  have hask := (commitFiring_idleAsk hout (coreOfCid cid)).trans hask
  rw [endNow, noteRunnable_gated]
  generalize commitFiring s cid = u at hctx hask ⊢
  refine gateCore_gated hask ?_
  rw [coreIdle, List.all_eq_true]
  intro i hi
  refine beq_iff_eq.mpr ?_
  change ((putCtx u cid _).ctx _).status = _
  rw [putCtx_get]
  split
  · rfl
  · next hne => rw [hctx, if_neg hne, hrest i (List.mem_range.mp hi) hne]

end Leaving

/-! ## Join cells of S (R221, R223) -/

section Cells
variable {s : State} {cid core : Nat} {j : Word}

theorem cellRead_scratch (hspace : spaceOf j = 4) (hend : addrOf j ≤ 0x3FFF8) (core : Nat) :
    cellRead s core j 0 = BitVec.ofNat 64 (leVal (bytesAt (mget emptyCluster s.clus (clusOfCore core)).s (addrOf j) 8)) := by
  have hspace' : ¬ spaceOf j = 0 := by omega
  have hsect : isSectCell j = false := by simp [isSectCell]; omega
  simp [cellRead, hspace', hsect]

/-- The bytes of a doubleword read back. -/
theorem leVal_putBytes (m : Map Byte) (a : Nat) (v : Word) : BitVec.ofNat 64 (leVal (bytesAt (putBytes m a (leBytes 8 v.toNat)) a 8)) = v := by
  have hbytes : bytesAt (putBytes m a (leBytes 8 v.toNat)) a 8 = leBytes 8 v.toNat := by
    refine bytesAt_eq (bs := leBytes 8 v.toNat) fun i hi => ?_
    rw [mget_putBytes, if_pos ⟨by omega, by omega⟩, Nat.add_sub_cancel_left]
  rw [hbytes, leVal_leBytes, Nat.mod_eq_of_lt v.isLt, BitVec.ofNat_toNat, BitVec.setWidth_eq]

/-- The state after JOIN has acquired, and lowered a cell of S (R223, R356). -/
def lowered (s : State) (cid : Nat) (j : Word) : State :=
  cellWrite (s.putLoc ((s.loc cid).acquire (BitVec.allOnes 256))) cid j 0 (cellRead s (coreOfCid cid) j 0 - 1) true

/-- The cluster with a join cell of its S written. -/
def withCell (s : State) (core : Nat) (j v : Word) : State :=
  let u := mget emptyCluster s.clus (clusOfCore core)
  { s with clus := mset emptyCluster s.clus (clusOfCore core) { u with s := putBytes u.s (addrOf j) (leBytes 8 v.toNat) } }

theorem withCell_s (s : State) (core : Nat) (j v : Word) : (mget emptyCluster (withCell s core j v).clus (clusOfCore core)).s =
    putBytes (mget emptyCluster s.clus (clusOfCore core)).s (addrOf j) (leBytes 8 v.toNat) :=
  congrArg Cluster.s (mget_mset_same ..)

theorem cellWrite_scratch (hspace : spaceOf j = 4) (hend : addrOf j ≤ 0x3FFF8) (v : Word) (atomic : Bool) :
    cellWrite s cid j 0 v atomic = wakeScratch (withCell s (coreOfCid cid) j v) (clusOfCore (coreOfCid cid)) (addrOf j / 64) := by
  have hspace' : ¬ spaceOf j = 0 := by omega
  have hsect : isSectCell j = false := by simp [isSectCell]; omega
  simp only [cellWrite, hspace', hsect, if_false, Bool.false_eq_true]
  rfl

section Lowered
variable (hspace : spaceOf j = 4) (hend : addrOf j ≤ 0x3FFF8)
include hspace hend

theorem lowered_ctx (hstatus : (s.ctx cid).status = .issuing) :
    (lowered s cid j).ctx cid = { s.ctx cid with sig := (s.ctx cid).sig ||| BitVec.allOnes 256 } := by
  have hself : (s.putLoc ((s.loc cid).acquire (BitVec.allOnes 256))).ctx cid = { s.ctx cid with sig := (s.ctx cid).sig ||| BitVec.allOnes 256 } :=
    (putLoc_acquire_ctx ..).trans (if_pos rfl)
  rw [lowered, cellWrite_scratch hspace hend, ← hself]
  refine (wakeScratch_ctx _ _ _ cid).same fun r h => ?_
  have h : ((s.putLoc ((s.loc cid).acquire (BitVec.allOnes 256))).ctx cid).status = .parked (.waita r) := h
  rw [hself] at h
  cases hstatus.symm.trans h

theorem lowered_hub : (lowered s cid j).hub = s.hub := by
  rw [lowered, cellWrite_scratch hspace hend]
  rfl

theorem lowered_cell : cellRead (lowered s cid j) (coreOfCid cid) j 0 = cellRead s (coreOfCid cid) j 0 - 1 := by
  rw [lowered, cellWrite_scratch hspace hend, cellRead_scratch hspace hend]
  change BitVec.ofNat 64 (leVal (bytesAt (mget emptyCluster (withCell _ _ j _).clus _).s (addrOf j) 8)) = _
  rw [withCell_s, leVal_putBytes]

end Lowered

/-- The record of a JOIN on a cell that reads 0. -/
def joinRecord (s : State) (cid : Nat) : State :=
  freeRecord s 0x19 0 0 (s.ctx cid).pasid cid (s.ctx cid).pc ((s.ctx cid).actor.setWidth 64)

/-! The three outcomes of a JOIN (R223). -/

section Outcomes
variable {s0 : State} {at_ : Word} (hspace : spaceOf j = 4)
include hspace

theorem joinNow_zero (hv : cellRead (commitFiring s0 cid) (coreOfCid cid) j 0 = 0) : joinNow cid j (0, false) at_ s0 =
    noteRunnable s0 (leave (joinRecord (commitFiring s0 cid) cid) cid) (coreOfCid cid) := by
  have hspace' : ¬ spaceOf j = 0 := by omega
  simp only [joinNow, cellOwn, hspace', if_false, hv, if_true]
  rfl

theorem joinNow_last (hv : cellRead (commitFiring s0 cid) (coreOfCid cid) j 0 = 1) : joinNow cid j (0, false) at_ s0 =
    noteRunnable s0 (putCtx (lowered (commitFiring s0 cid) cid j) cid (continueAt ((lowered (commitFiring s0 cid) cid j).ctx cid) at_)) (coreOfCid cid) := by
  have hspace' : ¬ spaceOf j = 0 := by omega
  have hone : ¬ (1 : Word) = 0 := by decide
  simp only [joinNow, cellOwn, hspace', if_false, hv, hone, if_true, lowered]
  rfl

theorem joinNow_more {ch : BitVec 5} (hv : 1 < (cellRead (commitFiring s0 cid) (coreOfCid cid) j 0).toNat)
    (hkind : ((lowered (commitFiring s0 cid) cid j).ctx cid).kind = .actor ch)
    (hforks : ∀ f ∈ (lowered (commitFiring s0 cid) cid j).hub.forks, f.j = j → takeChunk f = none) : joinNow cid j (0, false) at_ s0 =
    noteRunnable s0 (leave (lowered (commitFiring s0 cid) cid j) cid) (coreOfCid cid) := by
  have hspace' : ¬ spaceOf j = 0 := by omega
  have hzero : ¬ cellRead (commitFiring s0 cid) (coreOfCid cid) j 0 = 0 := fun h => by rw [h] at hv; exact absurd hv (by decide)
  have hone : ¬ cellRead (commitFiring s0 cid) (coreOfCid cid) j 0 = 1 := fun h => by rw [h] at hv; exact absurd hv (by decide)
  have hnode (c : Ctx) : (lowered (commitFiring s0 cid) cid j).hub.forks.findIdx?
      (fun f => f.lslot == c.lslot.toNat && f.pasid == c.pasid && f.j == j && (takeChunk f).isSome) = none := by
    rw [List.findIdx?_eq_none_iff]
    intro f hf
    by_cases hj : f.j = j
    · simp [hforks f hf hj]
    · simp [hj]
  unfold lowered at hkind hnode ⊢
  simp only [joinNow, cellOwn, hspace', if_false, hzero, hone]
  generalize cellWrite _ cid j 0 _ true = u at hkind hnode ⊢
  have hkind : (ctxOf u cid).kind = .actor ch := hkind
  rw [hkind]
  simp only [hnode]

end Outcomes
end Cells

/-! ## The statement -/

/-- Operands are taken without a change to A. -/
theorem take_a (l : Loc) (sh : Shape) (g : Args) : (l.take sh g).ctx.a = l.ctx.a := by
  have hpop (m : Loc) : (m.popAll sh).ctx.a = m.ctx.a := by
    refine foldl_keeps (fun m : Loc => m.ctx.a) (fun m ⟨o, f⟩ => ?_) _ _
    dsimp only
    split
    · split <;> rfl
    · rfl
  have hupdate (m : Loc) : (m.updateAll sh).ctx.a = m.ctx.a := by
    refine foldl_keeps (fun m : Loc => m.ctx.a) (fun m b => ?_) _ _
    rfl
  have hconsume (ss : List Src) : (l.consumeAll ss).ctx.a = l.ctx.a := by
    refine foldl_keeps (fun m : Loc => m.ctx.a) (fun m x => ?_) _ _
    split <;> rfl
  exact (hpop _).trans ((hupdate _).trans (hconsume _))

section Clauses
variable {s : State}

/-- A view that ends the firing of `cur`, of whose context only the status is new, leaves every context. -/
theorem retired_ending_ctx (hissuing : s.here.ctx.status = .issuing) {l : Loc} (hgone : l.next = .gone) (hwakes : l.wakes = []) (hcid : l.cid = s.cur)
    (hctx : l.ctx = { s.here.ctx with status := .issuing }) (j : Nat) : (s.retired l).ctx j = s.ctx j := by
  rw [retired_gone_ctx hgone hwakes, hcid]
  split
  · next hj => rw [hj, hctx, ← hissuing]; rfl
  · rfl

/-- What the end of a firing with an empty outbox leaves (R203). -/
theorem endNow_none {u : State} (hctxs : ∀ j, u.ctx j = s.ctx j) (hmem : u.mem = s.mem) (hout : s.here.ctx.outbox = []) :
    (endNow s.cur u).ctx s.cur = dormantOf s.here.ctx ∧ (∀ j, j ≠ s.cur → (endNow s.cur u).ctx j = s.ctx j) ∧ (endNow s.cur u).mem = s.mem ∧
    (endNow s.cur u).hub.noRoom = u.hub.noRoom := by
  have hout : (u.ctx s.cur).outbox = [] := by rw [hctxs]; exact hout
  obtain ⟨n, hctx⟩ := commitFiring_ctx_none hout
  refine ⟨?_, fun j hj => ?_, ?_, ?_⟩
  · rw [endNow_ctx hctx, if_pos rfl, hctxs]
    rfl
  · rw [endNow_ctx hctx, if_neg hj, hctxs]
  · rw [endNow_memory, commitFiring_keeps State.mem (fun _ _ _ => rfl) (fun _ _ _ => rfl) (fun _ _ _ => rfl) (fun _ _ _ => rfl) hout, hmem]
  · rw [endNow_hub]
    exact commitFiring_keeps (fun u => u.hub.noRoom) (fun _ _ _ => rfl) (fun _ _ _ => rfl) (fun _ _ _ => rfl) (fun _ _ _ => rfl) hout

/-- What the end of a firing with one token for a placed actor leaves: the token is on its way (R194, R203). -/
theorem endNow_token {u : State} {x : Token} {a : BitVec 32} {rch : Option (BitVec 5)} (hctxs : ∀ j, u.ctx j = s.ctx j) (hmem : u.mem = s.mem)
    (hhub : u.hub = s.hub) (hout : s.here.ctx.outbox = [.tok x a rch]) (hplaced : placed s.hub a = true) :
    (endNow s.cur u).ctx s.cur = dormantOf s.here.ctx ∧ (∀ j, j ≠ s.cur → (endNow s.cur u).ctx j = s.ctx j) ∧ (endNow s.cur u).mem = s.mem ∧
    (endNow s.cur u).hub.noRoom = s.hub.noRoom ∧ ∃ cred, (endNow s.cur u).hub.flight = s.hub.flight ++ [sendFlight s.cur s.here.ctx x a rch cred] := by
  have hout : (u.ctx s.cur).outbox = [.tok x a rch] := by rw [hctxs]; exact hout
  obtain ⟨cred, hsend⟩ := commitSend_placed (s := consumeQuota u s.cur) (cid := s.cur) (x := x) (a := a) (rch := rch)
    (by rw [← hhub] at hplaced; exact hplaced)
  have hitems : (u.ctx s.cur).outbox.foldl (commitItem s.cur) (consumeQuota u s.cur) =
      launchFlight (useCredit (consumeQuota u s.cur) s.cur cred) (sendFlight s.cur ((consumeQuota u s.cur).ctx s.cur) x a rch cred) := by
    rw [hout]
    exact hsend
  have hsent : sendFlight s.cur ((consumeQuota u s.cur).ctx s.cur) x a rch cred = sendFlight s.cur s.here.ctx x a rch cred := by
    rw [consumeQuota_ctx, if_pos rfl, hctxs]
    rfl
  rw [hsent] at hitems
  obtain ⟨n, hctx⟩ := commitFiring_ctx (s := u) (cid := s.cur) (by
    rw [hitems]
    exact useCredit_paysFrom ..)
  have hkeep {γ : Type} (f : State → γ) (hfctx : ∀ u k c, f (putCtx u k c) = f u)
      (hcredits : ∀ u n cs, f (putCore u n { coreAt u n with credits := cs }) = f u) : f (commitFiring u s.cur) =
      f (launchFlight (useCredit (consumeQuota u s.cur) s.cur cred) (sendFlight s.cur s.here.ctx x a rch cred)) := by
    rw [commitFiring_eq, hitems]
    exact closeFiring_keeps f hfctx hcredits ..
  refine ⟨?_, fun j hj => ?_, ?_, ?_, cred, ?_⟩
  · rw [endNow_ctx hctx, if_pos rfl, hctxs]
    rfl
  · rw [endNow_ctx hctx, if_neg hj, hctxs]
  · rw [endNow_memory, hkeep State.mem (fun _ _ _ => rfl) (fun _ _ _ => rfl), launchFlight_mem, useCredit_mem]
    exact hmem
  · rw [endNow_hub, hkeep (fun u => u.hub.noRoom) (fun _ _ _ => rfl) (fun _ _ _ => rfl)]
    change (useCredit (consumeQuota u s.cur) s.cur cred).hub.noRoom = _
    rw [useCredit_hub, ← hhub]
    rfl
  · rw [endNow_hub, hkeep (fun u => u.hub.flight) (fun _ _ _ => rfl) (fun _ _ _ => rfl)]
    change (useCredit (consumeQuota u s.cur) s.cur cred).hub.flight ++ _ = _
    rw [useCredit_hub, ← hhub]
    rfl

/-- What a JOIN takes of its context beside its operands. -/
theorem take_firing (l : Loc) (sh : Shape) (g : Args) : dormantOf (l.take sh g).ctx = dormantOf l.ctx ∧ (l.take sh g).ctx.outbox = l.ctx.outbox ∧
    (l.take sh g).ctx.kind = l.ctx.kind ∧ (l.take sh g).cid = l.cid ∧ (l.take sh g).hub = l.hub :=
  ⟨(congrArg (fun m : Loc => dormantOf m.ctx) (take_pace l sh g) :), (congrArg (fun m : Loc => m.ctx.outbox) (take_pace l sh g) :),
    (congrArg (fun m : Loc => m.ctx.kind) (take_pace l sh g) :), (congrArg Loc.cid (take_pace l sh g) :), (congrArg Loc.hub (take_pace l sh g) :)⟩

/-- A cell of S reads the same in states whose clusters are the same. -/
theorem cellRead_of_clus {s t : State} {j : Word} (hspace : spaceOf j = 4) (hend : addrOf j ≤ 0x3FFF8) (core : Nat)
    (h : mget emptyCluster t.clus (clusOfCore core) = mget emptyCluster s.clus (clusOfCore core)) : cellRead t core j 0 = cellRead s core j 0 := by
  rw [cellRead_scratch hspace hend, cellRead_scratch hspace hend, h]

/-- The state in which a JOIN has taken its operands. -/
structure Joins (s u : State) (m : Loc) (j : Word) : Prop where
  self : u.ctx s.cur = { m.ctx with status := .issuing }
  hub : u.hub = s.hub
  cell : cellRead u (coreOfCid s.cur) j 0 = cellRead s (coreOfCid s.cur) j 0

theorem joins_retired {j : Word} (hspace : spaceOf j = 4) (hend : addrOf j ≤ 0x3FFF8) (sh : Shape) (g : Args) :
    Joins s (s.retired (ending (s.here.take sh g))) (s.here.take sh g) j := by
  obtain ⟨-, -, -, hcid, hhub⟩ := take_firing s.here sh g
  have hcid : (ending (s.here.take sh g)).cid = s.cur := hcid
  refine ⟨?_, ?_, ?_⟩
  · rw [retired_gone_ctx rfl (take_wakes ..), hcid, if_pos rfl]
    rfl
  · rw [retired_gone_hub rfl]
    exact hhub
  · refine cellRead_of_clus hspace hend _ ?_
    rw [State.retired, retire_gone rfl, putLoc_clus, hcid, if_pos rfl]
    exact take_clus ..

section Join
variable {u : State} {m : Loc} {j at_ : Word} (hjoins : Joins s u m j) (hspace : spaceOf j = 4) (hend : addrOf j ≤ 0x3FFF8) (hout : m.ctx.outbox = [])
include hjoins hspace hend hout

/-- The state of a JOIN once its firing is committed. -/
theorem Joins.committed : ∃ n, (commitFiring u s.cur).ctx s.cur = ({ m.ctx with status := .issuing } : Ctx).spent n ∧
    (commitFiring u s.cur).hub.noRoom = s.hub.noRoom ∧ (commitFiring u s.cur).hub.forks = s.hub.forks ∧
    cellRead (commitFiring u s.cur) (coreOfCid s.cur) j 0 = cellRead s (coreOfCid s.cur) j 0 := by
  have hout : (u.ctx s.cur).outbox = [] := by rw [hjoins.self]; exact hout
  have hkeep {γ : Type} (f : State → γ) (hctx : ∀ u k c, f (putCtx u k c) = f u) (hcore : ∀ u n k, f (putCore u n k) = f u)
      (hfly : ∀ u cs es, f { u with hub := { u.hub with creditFly := cs, esc := es } } = f u) : f (commitFiring u s.cur) = f u :=
    commitFiring_keeps f hctx (fun u n _ => hcore u n _) (fun u n _ => hcore u n _) hfly hout
  obtain ⟨n, hctx⟩ := commitFiring_ctx_none hout
  refine ⟨n, ?_, ?_, ?_, ?_⟩
  · rw [hctx, if_pos rfl, hjoins.self]
  · rw [hkeep (fun u => u.hub.noRoom) (fun _ _ _ => rfl) (fun _ _ _ => rfl) (fun _ _ _ => rfl), hjoins.hub]
  · rw [hkeep (fun u => u.hub.forks) (fun _ _ _ => rfl) (fun _ _ _ => rfl) (fun _ _ _ => rfl), hjoins.hub]
  · rw [← hjoins.cell]
    refine cellRead_of_clus hspace hend _ ?_
    rw [hkeep State.clus (fun _ _ _ => rfl) (fun _ _ _ => rfl) (fun _ _ _ => rfl)]

/-- A JOIN on a cell that reads 0 ends the firing. -/
theorem Joins.zero (hv : cellRead s (coreOfCid s.cur) j 0 = 0) : (joinNow s.cur j (0, false) at_ u).ctx s.cur = dormantOf m.ctx := by
  obtain ⟨n, hself, -, -, hcell⟩ := hjoins.committed hspace hend hout
  rw [joinNow_zero hspace (hcell.trans hv), noteRunnable_ctx, leave_ctx, if_pos rfl]
  have hsame : (joinRecord (commitFiring u s.cur) s.cur).ctx s.cur = (commitFiring u s.cur).ctx s.cur :=
    ((freeRecord_sends ..).ctx s.cur).same fun r h => by
      rw [hself] at h
      cases h
  rw [hsame, hself]
  rfl

/-- The last JOIN on a cell continues the firing. -/
theorem Joins.last (hv : cellRead s (coreOfCid s.cur) j 0 = 1) : ∃ c, (joinNow s.cur j (0, false) at_ u).ctx s.cur = continueAt c at_ ∧
    c.a = m.ctx.a ∧ c.p = m.ctx.p ∧ cellRead (joinNow s.cur j (0, false) at_ u) (coreOfCid s.cur) j 0 = 0 ∧
    (joinNow s.cur j (0, false) at_ u).hub.noRoom = s.hub.noRoom := by
  obtain ⟨n, hself, hroom, -, hcell⟩ := hjoins.committed hspace hend hout
  have hlow := lowered_ctx (s := commitFiring u s.cur) (cid := s.cur) hspace hend (by rw [hself]; rfl)
  rw [joinNow_last hspace (hcell.trans hv)]
  refine ⟨_, (noteRunnable_ctx ..).trans ((putCtx_get ..).trans (if_pos rfl)), ?_, ?_, ?_, ?_⟩
  · rw [hlow, hself]
    rfl
  · rw [hlow, hself]
    rfl
  · rw [cellRead_of_clus (s := lowered (commitFiring u s.cur) s.cur j) hspace hend _ (by rw [noteRunnable_clus]; rfl), lowered_cell hspace hend, hcell, hv]
    rfl
  · rw [noteRunnable_hub]
    exact ((congrArg Hub.noRoom (lowered_hub hspace hend)).trans hroom :)

/-- An earlier JOIN on a cell lowers it, and the context is left. -/
theorem Joins.more {ch : BitVec 5} (hv : 1 < (cellRead s (coreOfCid s.cur) j 0).toNat) (hkind : m.ctx.kind = .actor ch)
    (hforks : ∀ f ∈ s.hub.forks, f.j = j → takeChunk f = none) : (joinNow s.cur j (0, false) at_ u).ctx s.cur = dormantOf m.ctx ∧
    cellRead (joinNow s.cur j (0, false) at_ u) (coreOfCid s.cur) j 0 = cellRead s (coreOfCid s.cur) j 0 - 1 ∧
    (joinNow s.cur j (0, false) at_ u).hub.noRoom = s.hub.noRoom := by
  obtain ⟨n, hself, hroom, hfs, hcell⟩ := hjoins.committed hspace hend hout
  have hlow := lowered_ctx (s := commitFiring u s.cur) (cid := s.cur) hspace hend (by rw [hself]; rfl)
  have hhub := lowered_hub (s := commitFiring u s.cur) (cid := s.cur) hspace hend
  have hmore := joinNow_more (at_ := at_) hspace (hcell.symm ▸ hv) (ch := ch) (by rw [hlow, hself]; exact hkind) (by rw [hhub, hfs]; exact hforks)
  rw [hmore]
  refine ⟨?_, ?_, ?_⟩
  · rw [noteRunnable_ctx, leave_ctx, if_pos rfl, hlow, hself]
    rfl
  · rw [cellRead_of_clus (s := lowered (commitFiring u s.cur) s.cur j) hspace hend _ (by rw [noteRunnable_clus, leave_clus]), lowered_cell hspace hend,
      hcell]
  · rw [noteRunnable_hub, leave_hub, hhub, hroom]

end Join
end Clauses

/-! ## YIELD (R205) -/

theorem yieldBody_preempt {s : State} {l : Loc} {live : BitVec 9} {dl : BitVec 12} (hdl : dl ≠ 0) (hpre : l.ctx.preempt = true) (hcnt : l.ctx.cnt = 0)
    (hdue : dueFault l.ctx (fun _ => true) = none) : yieldBody live dl s l = .ok (ending l.countPair, yieldSave l.cid live dl.toNat) := by
  have hpair : l.countPair.ctx = l.ctx := by
    unfold Loc.countPair
    split <;> rfl
  rw [ending, hpair]
  simp only [yieldBody, if_neg hdl, hpre, hcnt, raiseDue_none hdue, if_true, bind, Except.bind]

theorem countPair_view (l : Loc) : l.countPair.ctx = l.ctx ∧ l.countPair.cid = l.cid ∧ l.countPair.hub = l.hub ∧ l.countPair.wakes = l.wakes := by
  unfold Loc.countPair
  split <;> exact ⟨rfl, rfl, rfl, rfl⟩

theorem yieldSave_ctx (s : State) (cid : Nat) (live : BitVec 9) (dl : Nat) :
    (yieldSave cid live dl s).ctx cid = dormantOf (s.ctx cid) ∧ (yieldSave cid live dl s).hub = s.hub ∧
    mget emptyCtx (mget emptyCluster (yieldSave cid live dl s).clus (clusOfCore (coreOfCid cid))).saves cid = savedAt (s.ctx cid) live dl := by
  unfold yieldSave
  dsimp only
  refine ⟨(leave_ctx ..).trans (if_pos rfl), leave_hub .., ?_⟩
  rw [leave_clus]
  exact (congrArg (fun u : Cluster => mget emptyCtx u.saves cid) (mget_mset_same ..)).trans (mget_mset_same ..)

/-- What YIELD saves of a context away from the end of a loop (R100, R205). -/
theorem savedAt_fields {c : Ctx} (h : atLend c = false) (live : BitVec 9) (dl : Nat) : (savedAt c live dl).pc = c.pc + 1 ∧ (savedAt c live dl).dl = dl ∧
    (savedAt c live dl).a = (if live.getLsbD 0 then c.a else 0) ∧ ∀ q : Reg, (savedAt c live dl).p[q] = if live.getLsbD (q.val + 1) then c.p[q] else 0 := by
  unfold savedAt
  rw [h]
  refine ⟨rfl, rfl, rfl, fun q => ?_⟩
  simp [maskLive]

/-! ## The statement -/

section Issues
variable {s : State} {i : Instr} {body : State → Loc → Res (Loc × (State → State))} {l : Loc} (hgoes : goes s i = true)
include hgoes

theorem issueG_park {p : Park} (hbody : body s s.here = .error (.park l p)) : issueG i body s = .next (s.putLoc (l.parkAs p)) :=
  issueWith_park hgoes hbody

theorem issueG_fault {f : FaultInfo} (hbody : body s s.here = .error (.fault l f)) : issueG i body s = .next (s.putLoc (raise l f)) :=
  issueWith_fault hgoes hbody

/-- An instruction that acts beyond the view, whether or not its writes find room. -/
theorem issueG_whole {post : State → State} (hbody : body s s.here = .ok (l, post)) : issueG i body s = .next (wholeIssue s (post (s.retired l))) :=
  issueWith_next hgoes hbody

end Issues

/-- Settles O36: END and IDLE by what a commit leaves, JOIN by the value of its cell, YIELD by what it saves. -/
theorem firingsEndJoinAndYield : Obligations.FiringsEndJoinAndYield := by
  unfold Obligations.FiringsEndJoinAndYield
  intro s c live dl p s1 g l k core quiet ready ended join j cell
  have hdue (h : quiet) : dueFault k (fun _ => true) = none := by
    obtain ⟨-, hld, hst, hcp, htl⟩ := h
    exact dueFault_of_none hld hst hcp htl _
  have hmay (h : ready) : l.mayEnd s := by
    obtain ⟨hquiet, hpois, hroom⟩ := h
    exact ⟨hquiet.1, hdue hquiet, hpois, hroom⟩
  have hissuing {i : Instr} (h : goes s i = true) : k.status = .issuing := (goes_parts h).2.1
  have hjoin (hready : ready) (hreads : reads s .d join g) (hspace : spaceOf j = 4) (halign : addrOf j % 8 = 0) (hend : addrOf j ≤ 0x3FFF8)
      (hlevel : k.level ≤ 1) :
      joinBody join (.preg p) s l = .ok (ending (l.take (shape join) g), joinNow s.cur j (0, false) (g.a.val.setWidth 64)) := by
    rw [joinBody_mayEnd (hmay hready) hreads hspace halign hend, if_pos (cellLevelOk_of_le hlevel)]
    rfl
  have hjoins (hspace : spaceOf j = 4) (hend : addrOf j ≤ 0x3FFF8) := joins_retired (s := s) hspace hend (shape join) g
  refine ⟨fun hgoes hready hout => ?_, fun x a rch hgoes hready hout hplaced => ?_, fun hgoes hcnt => ?_, fun hgoes hready hout hrest => ?_,
    fun hgoes hready hreads hspace halign hend hlevel => ?_, fun hgoes hready hout hreads hspace halign hend hlevel => ⟨fun hv => ?_, fun hv => ?_, fun hv hkind hforks => ?_⟩,
    fun hgoes hdl hpre hquiet hlend => ?_⟩
  · have hctxs := retired_ending_ctx (l := ending l) (hissuing hgoes) rfl rfl rfl rfl
    obtain ⟨hself, hothers, hmem, hroom⟩ := endNow_none hctxs (putLoc_mem ..) hout
    exact ⟨_, issueG_next hgoes (endBody_mayEnd (hmay hready)) (hroom.trans (congrArg Hub.noRoom (retired_gone_hub rfl))), hself, hothers, hmem⟩
  · have hctxs := retired_ending_ctx (l := ending l) (hissuing hgoes) rfl rfl rfl rfl
    obtain ⟨hself, hothers, hmem, hroom, cred, hflight⟩ := endNow_token hctxs (putLoc_mem ..) (retired_gone_hub rfl) hout hplaced
    exact ⟨_, _, issueG_next hgoes (endBody_mayEnd (hmay hready)) hroom, ⟨hself, hothers, hmem⟩, hflight, rfl, rfl, rfl, rfl, rfl, rfl⟩
  · have hcnt : ¬ l.ctx.cnt = 0 := hcnt
    exact issueG_park (body := endBody) hgoes (endBody_counts hcnt)
  · have hctxs := retired_ending_ctx (l := { ending l with core := { l.core with idleAsk := true } }) (hissuing hgoes) rfl rfl rfl rfl
    obtain ⟨hself, hothers, hmem, hroom⟩ := endNow_none hctxs (putLoc_mem ..) hout
    refine ⟨_, issueG_next hgoes (idleBody_mayEnd (hmay hready)) (hroom.trans (congrArg Hub.noRoom (retired_gone_hub rfl))), ⟨hself, hothers, hmem⟩, ?_⟩
    refine endNow_gated (by rw [hctxs]; exact hout) ?_ fun n hn hne => by rw [hctxs]; exact hrest n hn hne
    rw [State.retired, retire_gone rfl, coreAt, putLoc_core]
    exact congrArg Core.idleAsk (if_pos rfl)
  · have hbarred : cellLevelOk (l.p p) l.ctx.level = false := by
      have hsect : isSectCell j = false := by simp [isSectCell]; omega
      have hlevel : 1 < l.ctx.level := hlevel
      rw [cellLevelOk, hspace, hsect]
      simpa using hlevel
    refine issueG_fault (body := joinBody join (.preg p)) hgoes ?_
    rw [joinBody_mayEnd (hmay hready) hreads hspace halign hend, hbarred]
    rfl
  · obtain ⟨hdormant, houtbox, -⟩ := take_firing l (shape join) g
    have hself := (hjoins hspace hend).zero (at_ := g.a.val.setWidth 64) hspace hend (houtbox.trans hout) hv
    have hbody := hjoin hready hreads hspace halign hend hlevel
    exact ⟨_, issueG_whole hgoes hbody, issueG_next hgoes hbody, hself.trans hdormant⟩
  · obtain ⟨-, houtbox, -⟩ := take_firing l (shape join) g
    obtain ⟨n, hself, ha, hp, hcell, hroom⟩ := (hjoins hspace hend).last (at_ := g.a.val.setWidth 64) hspace hend (houtbox.trans hout) hv
    refine ⟨_, issueG_next hgoes (hjoin hready hreads hspace halign hend hlevel) (hroom.trans rfl), hcell, ?_⟩
    rw [hself]
    exact ⟨rfl, rfl, ha.trans (take_a ..), hp⟩
  · obtain ⟨hdormant, houtbox, hkinds, -⟩ := take_firing l (shape join) g
    obtain ⟨ch, hkind⟩ := hkind
    obtain ⟨hself, hcell, hroom⟩ :=
      (hjoins hspace hend).more (at_ := g.a.val.setWidth 64) hspace hend (houtbox.trans hout) hv (hkinds.trans hkind) hforks
    exact ⟨_, issueG_next hgoes (hjoin hready hreads hspace halign hend hlevel) (hroom.trans rfl), hcell, hself.trans hdormant⟩
  · obtain ⟨hctx, hcid, hhub, hwakes⟩ := countPair_view l
    have hctxs := retired_ending_ctx (l := ending l.countPair) (hissuing hgoes) rfl hwakes hcid (by rw [ending, hctx])
    obtain ⟨hself, hsaved, hsave⟩ := yieldSave_ctx (s.retired (ending l.countPair)) s.cur live dl.toNat
    have hroom : (yieldSave s.cur live dl.toNat (s.retired (ending l.countPair))).hub.noRoom = s.hub.noRoom := by
      rw [hsaved, retired_gone_hub rfl]
      exact congrArg Hub.noRoom hhub
    rw [hctxs] at hself hsave
    obtain ⟨hpc, hdl', ha, hps⟩ := savedAt_fields hlend live dl.toNat
    refine ⟨yieldSave s.cur live dl.toNat (s.retired (ending l.countPair)),
      issueG_next hgoes (yieldBody_preempt hdl hpre hquiet.1 (hdue hquiet)) hroom, hself, ?_⟩
    intro v
    have hv : v = savedAt k live dl.toNat := hsave
    rw [hv]
    exact ⟨hpc, hdl', ha, hps⟩

end Sys2Proof.Machine
end
